-- ==== Sys2Proof/Word.lean ====
section
/-! DEFINITION. The word types of the DH2-W480 (R4, R52) and their plainest arithmetic. -/
namespace Sys2Proof

/-- A byte of memory (R4). -/
abbrev Byte := BitVec 8
/-- A 32-bit register, instruction word or extension word (R52, R145). -/
abbrev Word := BitVec 32
/-- A 64-bit value: an address, a register pair (R4). -/
abbrev DWord := BitVec 64

/-- `n(x)` of R152: the word read as an N32. -/
abbrev nat (x : Word) : Nat := x.toNat
/-- `s(x)` of R152: the word read as an I32. -/
abbrev int (x : Word) : Int := x.toInt
/-- `bits(v)` of R152: the integer v modulo 2^32. -/
abbrev bits (v : Int) : Word := BitVec.ofInt 32 v

end Sys2Proof
end

