-- ==== Sys2Proof/Syntax.lean ====
section
/-! DEFINITION. Abstract syntax: the instruction formats of R145 and one constructor for every row of
spec/opcode_table.json. A constructor with a format record is an instruction with a word (R147); the other
constructors are the device's events, with the arguments that the spec leaves to their occasion. -/
namespace Sys2Proof

/-- V3 format (R145): d, a, b operand codes, minor code m, hold h, guard q, and the extension word x (zero when the
instruction carries none, R143). -/
structure V3 where
  d : BitVec 6
  a : BitVec 6
  b : BitVec 6
  m : BitVec 3
  h : BitVec 2
  q : BitVec 2
  x : Word := 0
  deriving DecidableEq, Repr

/-- RI format (R145). -/
structure RI where
  d : BitVec 6
  a : BitVec 6
  imm : BitVec 11
  q : BitVec 2
  x : Word := 0
  deriving DecidableEq, Repr

/-- RW format (R145): imm17, of which MOVHI uses [15:0] and keeps bit 16 zero. -/
structure RW where
  d : BitVec 6
  imm : BitVec 17
  q : BitVec 2
  x : Word := 0
  deriving DecidableEq, Repr

/-- M format (R145). -/
structure FM where
  d : BitVec 6
  base : BitVec 6
  off : BitVec 7
  m : BitVec 4
  q : BitVec 2
  x : Word := 0
  deriving DecidableEq, Repr

/-- J format (R145). -/
structure FJ where
  off : BitVec 23
  q : BitVec 2
  deriving DecidableEq, Repr

/-- L format (R145). -/
structure FL where
  cnt : BitVec 6
  len : BitVec 8
  lvl : BitVec 2
  f7 : BitVec 7
  q : BitVec 2
  x : Word := 0
  deriving DecidableEq, Repr

/-- S format (R145): d is the destination of SRD and the source of SWR. -/
structure FS where
  d : BitVec 6
  sreg : BitVec 12
  m : BitVec 5
  q : BitVec 2
  x : Word := 0
  deriving DecidableEq, Repr

/-- E format (R145); sub4 is the constructor. -/
structure FE where
  pb : BitVec 6
  tag : BitVec 6
  f7 : BitVec 7
  q : BitVec 2
  x : Word := 0
  deriving DecidableEq, Repr

/-- H format (R145); sub4 is the constructor. -/
structure FH where
  d : BitVec 6
  a : BitVec 6
  f7 : BitVec 7
  q : BitVec 2
  x : Word := 0
  deriving DecidableEq, Repr

/-- WT format (R145). -/
structure WT where
  l : BitVec 6
  s : BitVec 6
  c : BitVec 6
  t : BitVec 5
  q : BitVec 2
  deriving DecidableEq, Repr

/-- A place that a resolution wavefront reaches (R300): the slice of a partition-local tile, or a core (4 x local
tile + number). -/
inductive Place where
  | slice (tile : Nat)
  | core (core : Nat)
  deriving DecidableEq, Repr

/-- What a page walk is made for: it decides the permission of R383 step 7 and the source of R391. -/
inductive WalkKind where
  | load | store | atomic | fetch | engineRead | engineWrite | cwb | queue | queueWrite
  deriving DecidableEq, Repr

/-- A PCI Express function whose registers are written (R359, R429). -/
inductive Fn where
  | pf
  | vf (part : Nat)
  deriving DecidableEq, Repr

/-- A hardware error found in a store of data (R433): corrected, or uncorrectable at a place that its consumer reads, in a
version or a registry entry that the sweep at wake finds (R432); an error of a register at retention voltage, uncorrectable
or not, that the core's sweep at its wake finds (R344); or the working quads that a self-test finds (R410). -/
inductive Upset where
  | corrected (tile : Nat) (addr : Nat) (layer : Nat) (kind : Nat)
  | register (wid lane n : Nat)
  | retained (wid lane n : Nat) (bad : Bool)
  | scratch (bid addr : Nat)
  | accumulator (tile row col : Nat)
  | l1Word (core part asid : Nat) (va : Nat)
  | line (space addr : Nat)
  | version (part asid sector id : Nat)
  | owner (part asid line : Nat)
  | quads (core : Nat) (working : BitVec 8)
  deriving DecidableEq, Repr

/-- The rows of spec/opcode_table.json. -/
inductive Instr where
  /-- NOP, R157: No operation; occupies one issue slot. -/
  | nop (f : V3)
  /-- IADD, R158: Integer add, wrapping or saturating signed or unsigned. -/
  | iadd (f : V3)
  /-- ISUB, R158: Integer subtract, wrapping or saturating. -/
  | isub (f : V3)
  /-- IADDC, R159: Add with carry in and out through a predicate pair, with signed overflow to the second predicate. -/
  | iaddc (f : V3)
  /-- ISUBB, R159: Subtract with borrow through a predicate pair. -/
  | isubb (f : V3)
  /-- IMUL, R160: Low word of the integer product. -/
  | imul (f : V3)
  /-- IMULH, R160: High word of the signed or unsigned 64-bit product. -/
  | imulh (f : V3)
  /-- IMAD, R160: Exact integer multiply-add, wrapped. -/
  | imad (f : V3)
  /-- IMIN, R160: Signed or unsigned integer minimum. -/
  | imin (f : V3)
  /-- IMAX, R160: Signed or unsigned integer maximum. -/
  | imax (f : V3)
  /-- IABS, R160: Integer absolute value, optionally saturating. -/
  | iabs (f : V3)
  /-- AND, R161: Bitwise AND. -/
  | bitAnd (f : V3)
  /-- OR, R161: Bitwise OR. -/
  | bitOr (f : V3)
  /-- XOR, R161: Bitwise exclusive OR. -/
  | bitXor (f : V3)
  /-- ANDN, R161: A AND NOT B. -/
  | andn (f : V3)
  /-- SHL, R162: Logical shift left by the whole count. -/
  | shl (f : V3)
  /-- SHR, R162: Logical or arithmetic shift right. -/
  | shr (f : V3)
  /-- ROT, R162: Rotate left or right. -/
  | rot (f : V3)
  /-- SHF, R162: Funnel shift of a 64-bit concatenation. -/
  | shf (f : V3)
  /-- POPC, R161: Population count. -/
  | popc (f : V3)
  /-- CLZ, R161: Count leading zeros. -/
  | clz (f : V3)
  /-- BREV, R161: Bit reversal. -/
  | brev (f : V3)
  /-- BFX, R163: Bit-field extract, optionally sign-extended. -/
  | bfx (f : V3)
  /-- BFI, R163: Bit-field insert. -/
  | bfi (f : V3)
  /-- SEL, R164: Select a or b by a predicate of the clause's pair. -/
  | sel (f : V3)
  /-- MOV, R164: Move a value with its tag. -/
  | mov (f : V3)
  /-- MOVI, R164: Move a sign-extended 17-bit immediate, tagged I32. -/
  | movi (f : RW)
  /-- MOVHI, R164: Replace the upper half of d with a 16-bit immediate, tagged RAW. -/
  | movhi (f : RW)
  /-- LEA, R165: 64-bit address plus shifted signed offset into a pair. -/
  | lea (f : V3)
  /-- ICMP_S, R166: Signed integer compare writing a predicate pair under a combining type. -/
  | icmpS (f : V3)
  /-- ICMP_N, R166: Unsigned integer compare writing a predicate pair under a combining type. -/
  | icmpN (f : V3)
  /-- IADDI, R158: Add a signed 11-bit immediate. -/
  | iaddi (f : RI)
  /-- PLOP, R168: Three-input predicate lookup table. -/
  | plop (f : V3)
  /-- PMOV, R169: Move between a predicate and bit 0 of a register. -/
  | pmov (f : V3)
  /-- UMOV, R170: Move between uniform and vector registers. -/
  | umov (f : V3)
  /-- TAG, R171: Read a register's format tag, or set a tag. -/
  | tag (f : V3)
  /-- FADD, R177: F32 add with operand modifiers. -/
  | fadd (f : V3)
  /-- FSUB, R177: F32 subtract. -/
  | fsub (f : V3)
  /-- FMUL, R177: F32 multiply. -/
  | fmul (f : V3)
  /-- FFMA, R178: Fused F32 multiply-add, rounded once. -/
  | ffma (f : V3)
  /-- FMIN, R177: F32 minimum. -/
  | fmin (f : V3)
  /-- FMAX, R177: F32 maximum. -/
  | fmax (f : V3)
  /-- FCMP, R181: F32 compare writing a predicate pair. -/
  | fcmp (f : V3)
  /-- FRND, R180: Round F32 to an integer value in a given mode. -/
  | frnd (f : V3)
  /-- F2I, R182: Convert F32 to I32 or N32. -/
  | f2i (f : V3)
  /-- I2F, R183: Convert I32 or N32 to F32. -/
  | i2f (f : V3)
  /-- FCVT, R184: Scalar format conversion between listed pairs. -/
  | fcvt (f : V3)
  /-- FCLASS, R185: Classify an F32 value into a one-hot I32. -/
  | fclass (f : V3)
  /-- FSCALE, R179: Multiply F32 by a power of two. -/
  | fscale (f : V3)
  /-- DADD, R186: F64 add on register pairs (also dsub). -/
  | dadd (f : V3)
  /-- DMUL, R186: F64 multiply. -/
  | dmul (f : V3)
  /-- DFMA, R186: Fused F64 multiply-add. -/
  | dfma (f : V3)
  /-- DCMP, R181: F64 compare writing a predicate pair. -/
  | dcmp (f : V3)
  /-- RCP, R187: Reciprocal special function. -/
  | rcp (f : V3)
  /-- RSQ, R187: Reciprocal square root. -/
  | rsq (f : V3)
  /-- SQRTA, R187: Square root. -/
  | sqrta (f : V3)
  /-- EXP2, R187: Base-2 exponential. -/
  | exp2 (f : V3)
  /-- LOG2, R187: Base-2 logarithm. -/
  | log2 (f : V3)
  /-- SINP, R187: sin(pi x). -/
  | sinp (f : V3)
  /-- COSP, R187: cos(pi x). -/
  | cosp (f : V3)
  /-- TANHA, R187: Hyperbolic tangent. -/
  | tanha (f : V3)
  /-- HADD2, R188: Packed F16 or BF16 add. -/
  | hadd2 (f : V3)
  /-- HFMA2, R188: Packed F16 or BF16 fused multiply-add. -/
  | hfma2 (f : V3)
  /-- QADD4, R189: Packed FP8 add. -/
  | qadd4 (f : V3)
  /-- QMUL4, R189: Packed FP8 multiply. -/
  | qmul4 (f : V3)
  /-- DOT4, R190: FP8 four-element dot product plus F32, rounded once. -/
  | dot4 (f : V3)
  /-- DOT8, R190: E2M1 eight-element dot product plus F32. -/
  | dot8 (f : V3)
  /-- IDOT4, R191: 8-bit integer dot product with accumulate. -/
  | idot4 (f : V3)
  /-- IDOT8, R191: 4-bit integer dot product with accumulate. -/
  | idot8 (f : V3)
  /-- PCVT, R193: Packed narrowing or widening conversion with an E8M0 scale. -/
  | pcvt (f : V3)
  /-- PSCALE, R194: Scale each packed element by a power of two. -/
  | pscale (f : V3)
  /-- PAMAX, R195: Element-wise absolute maximum of packed values. -/
  | pamax (f : V3)
  /-- SHFL, R235: Exchange values among lanes of one home warp. -/
  | shfl (f : V3)
  /-- VOTE, R236: Warp vote on a predicate: any, all, mask, lead, count or prefix. -/
  | vote (f : V3)
  /-- IRED, R237: Integer reduction across a home warp's active threads. -/
  | ired (f : V3)
  /-- KCLR, R240: Clear an exact accumulator. -/
  | kclr (f : V3)
  /-- KADD, R241: Add floating elements exactly into an accumulator. -/
  | kadd (f : V3)
  /-- KMAD, R242: Add an exact F32 product into an accumulator. -/
  | kmad (f : V3)
  /-- KRND, R243: Round an accumulator once to F32 or F64. -/
  | krnd (f : V3)
  /-- KSAVE, R244: Write an accumulator image to scratch. -/
  | ksave (f : V3)
  /-- KLOAD, R244: Load or add an accumulator image from scratch. -/
  | kload (f : V3)
  /-- SCAN, R245: Exact inclusive prefix sum over the accumulator and lanes, rounded per lane. -/
  | scan (f : V3)
  /-- MATCH, R238: Group lanes with equal values and report position, size and head. -/
  | matchLanes (f : V3)
  /-- ORIENT2, R272: Exact 2-D orientation sign. -/
  | orient2 (f : V3)
  /-- ORIENT3, R272: Exact 3-D orientation sign. -/
  | orient3 (f : V3)
  /-- INCIRC, R272: Exact in-circle sign. -/
  | incirc (f : V3)
  /-- INSPH, R272: Exact in-sphere sign. -/
  | insph (f : V3)
  /-- SEGX, R307: Exact segment intersection classification. -/
  | segx (f : V3)
  /-- LD, R203: Global load, relaxed or acquire. -/
  | ld (f : FM)
  /-- ST, R206: Global store, merged in L1 and registered at the home slice, optionally release. -/
  | st (f : FM)
  /-- LDS, R203: Scratchpad load. -/
  | lds (f : FM)
  /-- STS, R206: Scratchpad store at the bank. -/
  | sts (f : FM)
  /-- LDN, R203: Gang-remote load from a neighbour or rank. -/
  | ldn (f : FM)
  /-- STN, R206: Gang-remote store to a neighbour or rank. -/
  | stn (f : FM)
  /-- LDU, R204: One relaxed global load per home warp, broadcast to its active threads. -/
  | ldu (f : FM)
  /-- ATOM, R209: Global atomic performed at the home slice. -/
  | atom (f : FM)
  /-- ATOMS, R209: Scratchpad atomic at the bank. -/
  | atoms (f : FM)
  /-- ATOMN, R209: Gang-remote atomic at the target bank. -/
  | atomn (f : FM)
  /-- PREF, R210: Prefetch a line into L1 or the home slice. -/
  | pref (f : FM)
  /-- FENCE, R89: Acquire, release, acq_rel, scratch or engine fence. -/
  | fence (f : V3)
  /-- CWB, R211: Write back owned words of a line and make the slice write it to its frame. -/
  | cwb (f : V3)
  /-- BAR, R47: Block barrier arrival and wait. -/
  | bar (f : V3)
  /-- GBAR, R48: Gang barrier arrival and wait. -/
  | gbar (f : V3)
  /-- PHARR, R216: Arrive on phase-barrier words, announcing bytes, optionally release. -/
  | pharr (f : V3)
  /-- PHWAIT, R217: Wait until a phase barrier's epoch has passed a value. -/
  | phwait (f : V3)
  /-- WAIT, R213: Wait until the warp's outstanding counters are within bounds. -/
  | wait (f : WT)
  /-- TWAIT, R219: Wait until all masked completion tags are complete. -/
  | twait (f : V3)
  /-- TANY, R220: Wait until any masked tag is complete and report the lowest. -/
  | tany (f : V3)
  /-- TFIND, R220: Report the lowest complete masked tag without waiting. -/
  | tfind (f : V3)
  /-- TCLR, R221: Clear the fail bits of masked tags, trapping if any is busy. -/
  | tclr (f : V3)
  /-- BRA, R225: PC-relative branch. -/
  | bra (f : FJ)
  /-- BRX, R225: Indirect branch to each thread's address pair. -/
  | brx (f : V3)
  /-- JTAB, R226: Jump through a table of relative entries. -/
  | jtab (f : V3)
  /-- CALL, R227: Push a return address and call a relative target. -/
  | call (f : FJ)
  /-- CALLX, R227: Indirect call. -/
  | callx (f : V3)
  /-- RET, R228: Pop a return address and return. -/
  | ret (f : V3)
  /-- LOOP, R229: Start a hardware loop level with a per-thread count. -/
  | loop (f : FL)
  /-- BRK, R230: End a loop level and the higher ones and go past its body. -/
  | brk (f : V3)
  /-- EXIT, R231: Retire the active threads. -/
  | exitThread (f : V3)
  /-- YIELD, R232: Quad switch point and scheduling hint. -/
  | yield (f : V3)
  /-- TRAP, R233: Raise a SOFTWARE trap with a code. -/
  | trapCode (f : V3)
  /-- BPT, R233: Raise DEBUG_BREAK. -/
  | bpt (f : V3)
  /-- CPY, R253: Engine linear copy. -/
  | cpy (f : FE)
  /-- CPYS, R255: Engine strided copy of up to three dimensions. -/
  | cpys (f : FE)
  /-- CPYG, R256: Engine row gather from global memory into scratch. -/
  | cpyg (f : FE)
  /-- CPYA, R259: Move an accumulator region to memory through the epilogue, or load one. -/
  | cpya (f : FE)
  /-- MMA, R283: Mill matrix multiply-accumulate into the accumulator store. -/
  | mma (f : FE)
  /-- MMAG, R286: Mill matrix multiply with gathered rows of A. -/
  | mmag (f : FE)
  /-- ACCLR, R260: Clear accumulator subtiles and set their tag. -/
  | acclr (f : FE)
  /-- BCAST, R257: Flood a scratch region to every block of the gang. -/
  | bcast (f : FE)
  /-- CPYR, R258: Resume a faulted copy from its record. -/
  | cpyr (f : FE)
  /-- HNEW, R265: Allocate a child hypothesis. -/
  | hnew (f : FH)
  /-- HSET, R266: Set the home warp's hypothesis. -/
  | hset (f : FH)
  /-- HGET, R267: Read a hypothesis's state from the core's replica. -/
  | hget (f : FH)
  /-- HCONF, R268: Confirm hypotheses, merging versions into the parent. -/
  | hconf (f : FH)
  /-- HREF, R268: Refute hypotheses and their descendants. -/
  | href (f : FH)
  /-- HCHK, R270: Report whether the home warp is orphaned. -/
  | hchk (f : FH)
  /-- HWAIT, R270: Wait for a hypothesis resolution and return its outcome. -/
  | hwait (f : FH)
  /-- SRD, R273: Read a special register. -/
  | srd (f : FS)
  /-- SWR, R273: Write a special register. -/
  | swr (f : FS)
  /-- RTE, R276: Drop the unit's records and leave trap mode at %tpc. -/
  | rte (f : V3)
  /-- RTEX, R276: Re-issue the unit's records and leave trap mode. -/
  | rtex (f : V3)
  /-- TLBI, R277: Invalidate translations of a range partition-wide. -/
  | tlbi (f : V3)
  /-- WIDLE, R278: Wait for a latched warp event or a timeout. -/
  | widle (f : V3)
  /-- PARK, R279: Park the trap-mode unit until the driver resumes it. -/
  | park (f : V3)
  /-- LDT, R205: Relaxed word load that sets a chosen tag. -/
  | ldt (f : FM)
  /-- REJOIN_RELEASE, R29: Held parts of a home warp are released and fused when all its threads are held or waiting. -/
  | rejoinRelease (wid : Nat) (mix : Bool)
  /-- REJOIN_TIMEOUT, R29: A rejoin hold ends after 1,024 ticks. -/
  | rejoinTimeout (wid : Nat) (sliver : Nat)
  /-- WARP_SWAP, R41: A warp at a long-latency dependence is swapped with a ready pending warp. -/
  | warpSwap (core : Nat)
  /-- PENDING_WARP_PROMOTE, R44: A pending warp ready for 448 ticks is swapped into the active set. -/
  | pendingWarpPromote (core : Nat)
  /-- GANG_PLACE, R20: The scheduler places a whole gang when its blocks fit, clearing allotments and starting its warps. -/
  | gangPlace (gid : Nat) (places : List (Nat × Nat))
  /-- BLOCK_RETIRE, R22: A block retires once its warps, engine operations and stores have completed. -/
  | blockRetire (bid : Nat)
  /-- STORE_REGISTRATION, R78: A store's registration at the home slice forces the previous owner's write-back and transfers ownership. -/
  | storeRegistration (id : Nat)
  /-- STORE_ACKNOWLEDGE, R199: A registration or remote acknowledgement returns and the counter falls. -/
  | storeAcknowledge (id : Nat)
  /-- LOAD_AT_HOME_SLICE, R80: A load request is answered at the home slice from L2, vault or by forwarding to the owner. -/
  | loadAtHomeSlice (id : Nat)
  /-- OWNER_FORWARD, R80: A forwarded request at the owning core returns its merged value. -/
  | ownerForward (id : Nat)
  /-- LOAD_REPLY, R80: A load reply arrives, fills missing L1 words and writes the destination. -/
  | loadReply (id : Nat)
  /-- ATOMIC_AT_HOME_SLICE, R209: An atomic is performed indivisibly at the home slice. -/
  | atomicAtHomeSlice (id : Nat)
  /-- GANG_REMOTE_ARRIVAL, R92: A gang-remote access is performed at the destination in stream order. -/
  | gangRemoteArrival (id : Nat)
  /-- HOST_SNOOP, R99: A host or lender store invalidates the slice's copy of a host-bias page. -/
  | hostSnoop (peer : Bool) (addr : DWord) (data : List Byte)
  /-- FAULT_RECORD_ARRIVE, R207: A faulted global access is recorded in the warp's fault list. -/
  | faultRecordArrive (id : Nat)
  /-- FAULT_TRAP_TIMEOUT, R207: 256 ticks after a record reaches the core the warp takes the trap. -/
  | faultTrapTimeout (wid : Nat)
  /-- ENG_OP_START, R50: An engine operation starts once its lids are placed and announces its bytes. -/
  | engOpStart (op : Nat)
  /-- COPY_CHUNK_LAND, R254: Copy writes land and add to the barrier's done bytes. -/
  | copyChunkLand (op : Nat) (bid : Nat) (n : Nat)
  /-- ENG_OP_COMPLETE, R250: An engine operation completes: record, lid release, arrival, tag completion. -/
  | engOpComplete (op : Nat)
  /-- ACC_OP_TURN, R288: An accumulator operation starts after earlier overlapping ones complete, checking tags. -/
  | accOpTurn (op : Nat)
  /-- MILL_PASS, R283: One mill pass updates a 64 by 64 subtile. -/
  | millPass (tile : Nat) (mismatch : Bool)
  /-- BCAST_TARGET_DONE, R257: A BCAST target's copy completes and arrives on its barrier. -/
  | bcastTargetDone (op : Nat) (bid : Nat)
  /-- VERSION_WRITE_AT_SLICE, R296: A version write is accepted into the proofing buffer or waits for room. -/
  | versionWriteAtSlice (id : Nat)
  /-- HYP_CAPACITY_TIMEOUT, R296: A version write waiting 65,536 ticks is recorded as HYP_CAPACITY. -/
  | hypCapacityTimeout (id : Nat)
  /-- HYP_REQUEST_AT_HOME, R264: The hypothesis home slice judges and accepts HNEW, HSET, HCONF or HREF requests. -/
  | hypRequestAtHome (id : Nat)
  /-- HYP_WAVEFRONT, R300: A resolution is applied at a slice or core. -/
  | hypWavefront (part : Nat) (res : Nat) (place : Place)
  /-- HYP_RESOLUTION_COMPLETE, R300: Once every place acknowledges, the id becomes gone with its outcome. -/
  | hypResolutionComplete (part : Nat) (res : Nat)
  /-- GEO_STAGE_END, R309: A held predicate sliver writes its results at its stage's end tick. -/
  | geoStageEnd (wid : Nat) (sliver : Nat)
  /-- WIDLE_TIMEOUT, R278: WIDLE returns 0 after its tick timeout. -/
  | widleTimeout (wid : Nat) (sliver : Nat)
  /-- CORE_WAKE, R344: A sleeping core wakes and sweeps its register file. -/
  | coreWake (core : Nat)
  /-- WATCHDOG_TIMEOUT, R398: A unit in trap mode for 2^24 ticks without PARK is parked. -/
  | watchdogTimeout (wid : Nat)
  /-- PREEMPT_REQUEST, R403: A gang is halted within 0.2 microseconds. -/
  | preemptRequest (gid : Nat)
  /-- PREEMPT_SAVE, R404: After drains complete the gang's state is saved as an image. -/
  | preemptSave (gid : Nat)
  /-- PREEMPT_WAIT_TIMEOUT, R374: A gang waiting 50 microseconds pre-empts lower-priority gangs. -/
  | preemptWaitTimeout (gid : Nat)
  /-- GANG_RESTORE, R409: A saved gang is restored onto cores, or refused with RESTORE_SHAPE. -/
  | gangRestore (gid : Nat) (places : List (Nat × Nat))
  /-- LAUNCH_ABANDON, R405: A launch is ended without completion. -/
  | launchAbandon (lid : Nat)
  /-- TAIL_LINE_INVALIDATION, R363: The device re-reads a queue's tail and parses covered packets. -/
  | tailLineInvalidation (part : Nat) (q : Nat)
  /-- PACKET_NOP, R365: NOP packet, no effect. -/
  | packetNop (part : Nat) (q : Nat)
  /-- PACKET_LAUNCH, R366: Parse a LAUNCH: read the descriptor, copy parameters, assign a serial. -/
  | packetLaunch (part : Nat) (q : Nat)
  /-- PACKET_FENCE, R367: Hold parsing until every counter condition is true. -/
  | packetFence (part : Nat) (q : Nat)
  /-- FENCE_CONDITION_MET, R367: A watched counter line changes and its condition is re-read. -/
  | fenceConditionMet (part : Nat) (q : Nat)
  /-- PACKET_SIGNAL, R368: Update a counter as a release and optionally raise an MSI-X vector. -/
  | packetSignal (part : Nat) (q : Nat)
  /-- PACKET_GRAPH, R371: Parse a graph replay into an instance with its patched parameter copy. -/
  | packetGraph (part : Nat) (q : Nat)
  /-- GRAPH_NODE_START, R371: A graph node starts once its predecessors complete. -/
  | graphNodeStart (part : Nat) (inst : Nat) (node : Nat)
  /-- PACKET_BIAS, R369: Flip a host or peer page's bias. -/
  | packetBias (part : Nat) (q : Nat)
  /-- BIAS_FLIP_COMPLETE, R389: A bias flip completes after drain and updates the leaf. -/
  | biasFlipComplete (part : Nat) (q : Nat)
  /-- QCTL_ABORT, R362: Stop parsing at once and disable the queue. -/
  | qctlAbort (part : Nat) (q : Nat) (trusted : Bool)
  /-- QCTL_RESUME, R362: Parse again from head after an error. -/
  | qctlResume (part : Nat) (q : Nat) (trusted : Bool)
  /-- QCTL_EN, R362: Enable or disable tail watching. -/
  | qctlEn (part : Nat) (q : Nat) (en : Bool) (trusted : Bool)
  /-- QUEUE_HEAD_WRITE, R361: Set the next packet to parse. -/
  | queueHeadWrite (part : Nat) (q : Nat) (v : Word) (trusted : Bool)
  /-- SLOT_FIRE, R375: A time-triggered slot fires and applies its policy. -/
  | slotFire (part : Nat) (slot : Nat)
  /-- PTP_EXCHANGE, R461: Module time is carried to clock regions and the skew bound updated. -/
  | ptpExchange (skew : Nat) (adj : Int)
  /-- PTADDR_WRITE, R386: Set the page-table port address and clear staging. -/
  | ptaddrWrite (part : Nat) (v : DWord) (trusted : Bool)
  /-- PTDATA_WRITE, R386: Stage bytes or write a page-table entry. -/
  | ptdataWrite (part : Nat) (first : Nat) (data : List Byte) (trusted : Bool)
  /-- SHOOTDOWN_GO, R387: Start a range shootdown from the host. -/
  | shootdownGo (part : Nat) (v : Word) (trusted : Bool)
  /-- SHOOTDOWN_COMPLETE, R387: A shootdown completes once translated accesses are performed and all acknowledge. -/
  | shootdownComplete (part : Nat) (id : Nat)
  /-- PAGE_WALK, R383: A slice walks the page tables and checks permissions. -/
  | pageWalk (part : Nat) (asid : Nat) (va : DWord) (kind : WalkKind)
  /-- FQCTL_WRITE, R390: Configure the fault queue and clear FQLOST. -/
  | fqctlWrite (part : Nat) (v : Word) (trusted : Bool)
  /-- FQHEAD_WRITE, R401: Consume records and resume parked units. -/
  | fqheadWrite (part : Nat) (v : Word) (trusted : Bool)
  /-- WAY_MASK_WRITE, R394: Write a class way mask and start a way sweep. -/
  | wayMaskWrite (part : Nat) (tile : Nat) (cls : Nat) (v : BitVec 16) (trusted : Bool)
  /-- WAY_SWEEP_COMPLETE, R394: A way sweep completes and SSTAT clears. -/
  | waySweepComplete (part : Nat) (tile : Nat)
  /-- MSIX_VECTOR_UNMASK, R470: Unmasking sends a pending MSI-X vector. -/
  | msixVectorUnmask (part : Nat) (vec : Nat)
  /-- REGISTER_WRITE, R5: Write to a register with no behaviour of its own. -/
  | registerWrite (fn : Fn) (bar : Nat) (off : Nat) (size : Nat) (v : DWord) (trusted : Bool)
  /-- LOCK_INTERFACE, R424: Lock the interface and measure the locked set. -/
  | lockInterface (part : Nat) (stream : Option Nat)
  /-- START_INTERFACE, R423: Move to RUN; queues parse and slots fire. -/
  | startInterface (part : Nat)
  /-- STOP_INTERFACE, R423: Abandon launches, invalidate caches, replace keys, unlock. -/
  | stopInterface (part : Nat)
  /-- TDISP_ERROR_EVENT, R423: IDE failure or session end moves the interface to ERROR. -/
  | tdispErrorEvent (part : Nat)
  /-- GET_VERSION, R428: SPDM version request. -/
  | getVersion (part : Nat)
  /-- GET_CAPABILITIES, R428: SPDM capabilities request. -/
  | getCapabilities (part : Nat)
  /-- NEGOTIATE_ALGORITHMS, R428: SPDM algorithm negotiation. -/
  | negotiateAlgorithms (part : Nat)
  /-- GET_DIGESTS, R428: SPDM certificate digests. -/
  | getDigests (part : Nat)
  /-- GET_CERTIFICATE, R428: SPDM certificate chain. -/
  | getCertificate (part : Nat)
  /-- CHALLENGE, R428: SPDM challenge. -/
  | challenge (part : Nat)
  /-- GET_MEASUREMENTS, R428: Return measurement blocks. -/
  | getMeasurements (part : Nat) (index : Nat) (raw : Bool)
  /-- KEY_EXCHANGE, R428: Start an SPDM session. -/
  | keyExchange (part : Nat) (stream : Nat)
  /-- FINISH, R428: Finish session establishment. -/
  | finish (part : Nat)
  /-- END_SESSION, R428: End an SPDM session. -/
  | endSession (part : Nat)
  /-- PART_CREATE, R430: Create a partition with fresh keys. -/
  | partCreate (tiles : List Nat)
  /-- PART_GROW, R450: Add tiles under the quiesce protocol. -/
  | partGrow (tiles : List Nat)
  /-- PART_MIGRATE, R453: Move a local tile onto a target or spare. -/
  | partMigrate (spare : Nat)
  /-- RTINJ, R447: Write one route entry for fault injection. -/
  | rtinj (v : Word)
  /-- SOFT_ERROR_SAMPLE, R439: Sample soft-error counts and raise failure warnings. -/
  | softErrorSample (errors : List Upset)
  /-- CORE_FAILURE, R440: Declare a core failed and recover its partition. -/
  | coreFailure (core : Nat)
  /-- VAULT_BEAT_PARITY_FAIL, R436: Retry a beat, train and swap lanes. -/
  | vaultBeatParityFail (tile : Nat) (addr : Nat) (group : Nat) (fails : Nat) (lane : Nat)
  /-- FLIT_CRC_REPLAY, R437: Replay a flit, taking the link down after 16 failures. -/
  | flitCrcReplay (tile : Nat) (port : Nat) (fails : Nat)
  /-- PACKET_RESEND, R437: Resend an unacknowledged packet after 16 microseconds. -/
  | packetResend (id : Nat)
  /-- SIEVE_DROP, R446: A router drops and logs a disallowed packet. -/
  | sieveDrop (id : Nat)
  /-- ENERGY_TICK, R456: Add estimated energy each millisecond. -/
  | energyTick (islandPower : List Nat)
  /-- ISLAND_STEP_DOWN, R459: Lower an island's frequency by one step. -/
  | islandStepDown (island : Nat) (avg10 : List Nat) (mod100 : Nat) (mod1 : Nat)
  /-- ISLAND_STEP_UP, R459: Raise an island's frequency by one step. -/
  | islandStepUp (island : Nat) (avg10 : List Nat) (mod100 : Nat) (mod1 : Nat)
  /-- MODULE_RESET, R442: Bind logical tiles to sites and write the pool map. -/
  | moduleReset (dead : List Nat) (binding : List (Nat × Nat)) (spares : List Nat)
  /-- ILLEGAL_INSTR, R149: Issue of an instruction word whose minor code decodes to no instruction raises ILLEGAL_INSTR detail 0 precisely. -/
  | illegalInstr (w : Word)
  /-- UNTRUSTED_PRIVATE_READ, R425: An untrusted read of a private page in CONFIG_LOCKED or RUN returns all ones and increments pdrop. -/
  | untrustedPrivateRead (part : Nat) (bar : Nat) (off : Nat)
  /-- PORT_WRITE_COMPLETE, R386: A page-table port write completes, PTSTAT busy clears and a held PTDATA write proceeds. -/
  | portWriteComplete (part : Nat)
  /-- PTP_MESSAGE_RECEIVE, R461: A PTP message from the grandmaster arrives on the management Ethernet port and updates the offset and lock status. -/
  | ptpMessageReceive (off : Int) (selected : Bool)
  /-- LOOP_END_OF_BODY, R36: At the last word of a body a thread decrements its counter and returns to the body start or leaves the level. -/
  | loopEndOfBody
  /-- CLAUSE_FETCH, R140: Fetch and decode a whole clause at its header, raising clause faults. -/
  | clauseFetch
  /-- PART_DESTROY, R430: Destroy a partition and scrub its tiles. -/
  | partDestroy
  /-- PART_SHRINK, R450: Remove the highest-numbered tiles. -/
  | partShrink
  /-- PART_COMPACT, R451: Move tiles to target rectangles keeping numbers. -/
  | partCompact
  /-- MEM_GRANT, R430: Grant frames to a partition. -/
  | memGrant
  /-- MEM_RECLAIM, R430: Zero and remove frames. -/
  | memReclaim
  /-- QUEUE_BIND, R430: Bind a queue to a host port. -/
  | queueBind
  /-- SLOT_SET, R375: Write a time-triggered slot. -/
  | slotSet
  /-- METER_READ, R455: Take a signed meter snapshot. -/
  | meterRead
  /-- SHAPE_REPORT, R467: Return a piece of the signed shape report. -/
  | shapeReport
  /-- SLEEP_PREPARE, R431: Put the module into deep sleep. -/
  | sleepPrepare
  /-- WAKE, R432: Return from deep sleep. -/
  | wake
  /-- ROUTE_REPAIR, R448: Griermor compares and restores route tables after a drop. -/
  | routeRepair
  /-- ALLOWANCE_WINDOW_START, R457: Reset %energy and release deferred work. -/
  | allowanceWindowStart
  /-- UNKNOWN_VERB, R429: A go on YCTL with a verb code not in the verb table completes with status 1. -/
  | unknownVerb
  /-- GRANDMASTER_LOST, R377: The grandmaster is lost, TSTAT.lock falls and module time runs free. -/
  | grandmasterLost
  deriving DecidableEq, Repr

end Sys2Proof
end

