-- ==== Sys2Proof/WellFormed.lean ====
section
/-! DEFINITION. Which terms of the syntax have an encoding (R145, R147, R148): a term of a row that shares its primary
opcode carries that row's minor code, a term whose operand codes call for no extension word carries none, and an
illegal word is one whose sub-operation decodes to no instruction. What a field's value means (a trap or an effect) is
no matter of form: every word that R149 gives a trap is a well-formed instruction that traps. -/
namespace Sys2Proof

/-- An operand code that calls for an extension word (R143). -/
def hasX (c : BitVec 6) : Bool := c = 54 || c = 55

/-- An extension word is carried only when called for. -/
def xOnly (ext : Bool) (x : Word) : Bool := ext || x = 0

/-- The word's opcode is ENG, HYP or SYS and its sub-operation is none of theirs (R246, R263, R275). -/
def noSubOp (w : Word) : Bool :=
  (w.extractLsb' 25 7 = 0x72 && 9 ≤ (w.extractLsb' 21 4).toNat) ||
  (w.extractLsb' 25 7 = 0x73 && 7 ≤ (w.extractLsb' 21 4).toNat) ||
  (w.extractLsb' 25 7 = 0x76 && 5 ≤ (w.extractLsb' 4 3).toNat)

/-- The term has an encoding; an event of the device has none and is well formed as it stands. -/
def WellFormed (i : Instr) : Bool :=
  match i with
  | .nop f => f.x = 0
  | .iadd f => xOnly (hasX f.d || hasX f.a || hasX f.b) f.x
  | .isub f => xOnly (hasX f.d || hasX f.a || hasX f.b) f.x
  | .iaddc f => xOnly (hasX f.d || hasX f.a || hasX f.b) f.x
  | .isubb f => xOnly (hasX f.d || hasX f.a || hasX f.b) f.x
  | .imul f => xOnly (hasX f.d || hasX f.a || hasX f.b) f.x
  | .imulh f => xOnly (hasX f.d || hasX f.a || hasX f.b) f.x
  | .imad _ => true
  | .imin f => xOnly (hasX f.d || hasX f.a || hasX f.b) f.x
  | .imax f => xOnly (hasX f.d || hasX f.a || hasX f.b) f.x
  | .iabs f => xOnly (hasX f.d || hasX f.a) f.x
  | .bitAnd f => xOnly (hasX f.d || hasX f.a || hasX f.b) f.x
  | .bitOr f => xOnly (hasX f.d || hasX f.a || hasX f.b) f.x
  | .bitXor f => xOnly (hasX f.d || hasX f.a || hasX f.b) f.x
  | .andn f => xOnly (hasX f.d || hasX f.a || hasX f.b) f.x
  | .shl f => xOnly (hasX f.d || hasX f.a || hasX f.b) f.x
  | .shr f => xOnly (hasX f.d || hasX f.a || hasX f.b) f.x
  | .rot f => xOnly (hasX f.d || hasX f.a || hasX f.b) f.x
  | .shf _ => true
  | .popc f => xOnly (hasX f.d || hasX f.a) f.x
  | .clz f => xOnly (hasX f.d || hasX f.a) f.x
  | .brev f => xOnly (hasX f.d || hasX f.a) f.x
  | .bfx _ => true
  | .bfi _ => true
  | .sel f => xOnly (hasX f.d || hasX f.a || hasX f.b) f.x
  | .mov f => xOnly (hasX f.d || hasX f.a) f.x
  | .movi f => xOnly (hasX f.d) f.x
  | .movhi f => xOnly (hasX f.d) f.x
  | .lea f => xOnly (hasX f.d || hasX f.a || hasX f.b) f.x
  | .icmpS f => xOnly (!(f.m = 6 || f.m = 7) && (hasX f.a || hasX f.b)) f.x
  | .icmpN f => xOnly (!(f.m = 6 || f.m = 7) && (hasX f.a || hasX f.b)) f.x
  | .iaddi f => xOnly (hasX f.d || hasX f.a) f.x
  | .plop _ => true
  | .pmov f => xOnly (if f.m.getLsbD 0 then hasX f.a else hasX f.d) f.x
  | .umov f => xOnly (hasX f.d || hasX f.a) f.x
  | .tag f => xOnly (hasX f.d || (!(f.m.getLsbD 0) && hasX f.a)) f.x
  | .fadd f => xOnly (hasX f.d || hasX f.a || hasX f.b) f.x
  | .fsub f => xOnly (hasX f.d || hasX f.a || hasX f.b) f.x
  | .fmul f => xOnly (hasX f.d || hasX f.a || hasX f.b) f.x
  | .ffma _ => true
  | .fmin f => xOnly (hasX f.d || hasX f.a || hasX f.b) f.x
  | .fmax f => xOnly (hasX f.d || hasX f.a || hasX f.b) f.x
  | .fcmp f => xOnly (hasX f.a || hasX f.b) f.x
  | .frnd f => xOnly (hasX f.d || hasX f.a) f.x
  | .f2i f => xOnly (hasX f.d || hasX f.a) f.x
  | .i2f f => xOnly (hasX f.d || hasX f.a) f.x
  | .fcvt _ => true
  | .fclass f => xOnly (hasX f.d || hasX f.a) f.x
  | .fscale f => xOnly (hasX f.d || hasX f.a || hasX f.b) f.x
  | .dadd f => xOnly (hasX f.d || hasX f.a || hasX f.b) f.x
  | .dmul f => xOnly (hasX f.d || hasX f.a || hasX f.b) f.x
  | .dfma _ => true
  | .dcmp f => xOnly (hasX f.a || hasX f.b) f.x
  | .rcp f => f.m = 0 && xOnly (hasX f.d || hasX f.a) f.x
  | .rsq f => f.m = 1 && xOnly (hasX f.d || hasX f.a) f.x
  | .sqrta f => f.m = 2 && xOnly (hasX f.d || hasX f.a) f.x
  | .exp2 f => f.m = 3 && xOnly (hasX f.d || hasX f.a) f.x
  | .log2 f => f.m = 4 && xOnly (hasX f.d || hasX f.a) f.x
  | .sinp f => f.m = 5 && xOnly (hasX f.d || hasX f.a) f.x
  | .cosp f => f.m = 6 && xOnly (hasX f.d || hasX f.a) f.x
  | .tanha f => f.m = 7 && xOnly (hasX f.d || hasX f.a) f.x
  | .hadd2 f => xOnly (hasX f.d || hasX f.a || hasX f.b) f.x
  | .hfma2 _ => true
  | .qadd4 f => xOnly (hasX f.d || hasX f.a || hasX f.b) f.x
  | .qmul4 f => xOnly (hasX f.d || hasX f.a || hasX f.b) f.x
  | .dot4 _ => true
  | .dot8 _ => true
  | .idot4 _ => true
  | .idot8 _ => true
  | .pcvt _ => true
  | .pscale f => xOnly (hasX f.d || hasX f.a || hasX f.b) f.x
  | .pamax f => xOnly (hasX f.d || hasX f.a || hasX f.b) f.x
  | .shfl f => xOnly (hasX f.d || hasX f.a || hasX f.b) f.x
  | .vote f => xOnly (hasX f.d) f.x
  | .ired f => xOnly (hasX f.d || hasX f.a) f.x
  | .kclr f => f.x = 0
  | .kadd f => xOnly (hasX f.a) f.x
  | .kmad f => xOnly (hasX f.a || hasX f.b) f.x
  | .krnd f => xOnly (hasX f.d) f.x
  | .ksave f => xOnly (hasX f.a) f.x
  | .kload f => xOnly (hasX f.a) f.x
  | .scan f => xOnly (hasX f.d || hasX f.a) f.x
  | .matchLanes f => xOnly (hasX f.d || hasX f.a) f.x
  | .orient2 _ => true
  | .orient3 _ => true
  | .incirc _ => true
  | .insph _ => true
  | .segx _ => true
  | .ld f => xOnly (hasX f.d || hasX f.base) f.x
  | .st f => xOnly (hasX f.d || hasX f.base) f.x
  | .lds f => xOnly (hasX f.d || hasX f.base) f.x
  | .sts f => xOnly (hasX f.d || hasX f.base) f.x
  | .ldn _ => true
  | .stn _ => true
  | .ldu f => xOnly (hasX f.d || hasX f.base) f.x
  | .atom _ => true
  | .atoms _ => true
  | .atomn _ => true
  | .pref f => xOnly (hasX f.base) f.x
  | .fence f => f.x = 0
  | .cwb f => xOnly (hasX f.a) f.x
  | .bar f => f.x = 0
  | .gbar f => f.x = 0
  | .pharr f => xOnly (hasX f.a || hasX f.b) f.x
  | .phwait f => xOnly (hasX f.a || hasX f.b) f.x
  | .wait _ => true
  | .twait f => xOnly (hasX f.d || hasX f.a) f.x
  | .tany f => xOnly (hasX f.d || hasX f.a) f.x
  | .tfind f => xOnly (hasX f.d || hasX f.a) f.x
  | .tclr f => xOnly (hasX f.a) f.x
  | .bra _ => true
  | .brx f => xOnly (hasX f.a) f.x
  | .jtab _ => true
  | .call _ => true
  | .callx f => xOnly (hasX f.a) f.x
  | .ret f => f.x = 0
  | .loop f => xOnly (hasX f.cnt) f.x
  | .brk f => f.x = 0
  | .exitThread f => f.x = 0
  | .yield f => f.x = 0
  | .trapCode f => !(f.m.getLsbD 0) && f.x = 0
  | .bpt f => f.m.getLsbD 0 && f.x = 0
  | .cpy f => xOnly (hasX f.pb) f.x
  | .cpys f => xOnly (hasX f.pb) f.x
  | .cpyg f => xOnly (hasX f.pb) f.x
  | .cpya f => xOnly (hasX f.pb) f.x
  | .mma f => xOnly (hasX f.pb) f.x
  | .mmag f => xOnly (hasX f.pb) f.x
  | .acclr f => xOnly (hasX f.pb) f.x
  | .bcast f => xOnly (hasX f.pb) f.x
  | .cpyr f => xOnly (hasX f.pb) f.x
  | .hnew f => xOnly (hasX f.d || hasX f.a) f.x
  | .hset f => xOnly (hasX f.a) f.x
  | .hget f => xOnly (hasX f.d || hasX f.a) f.x
  | .hconf f => xOnly (hasX f.a) f.x
  | .href f => xOnly (hasX f.a) f.x
  | .hchk f => xOnly (hasX f.d) f.x
  | .hwait f => xOnly (hasX f.d || hasX f.a) f.x
  | .srd f => xOnly (hasX f.d) f.x
  | .swr f => xOnly (hasX f.d) f.x
  | .rte f => f.m = 0 && f.x = 0
  | .rtex f => f.m = 1 && f.x = 0
  | .tlbi f => f.m = 2 && xOnly (hasX f.a || hasX f.b) f.x
  | .widle f => f.m = 3 && xOnly (hasX f.d || hasX f.a) f.x
  | .park f => f.m = 4 && f.x = 0
  | .ldt f => xOnly (hasX f.d || hasX f.base) f.x
  | .illegalInstr w => noSubOp w
  | _ => true

end Sys2Proof
end

