-- ==== Sys2Proof/Decode.lean ====
section
/-! DEFINITION. The decoder (R145, R147, R148) and, after it, the encoder written from the same tables. The decoder
chooses the row by the primary opcode and the sub-operation alone and keeps every field as it stands: the faults of a
field's value (R144, R149) are traps of the instruction, judged when it issues. An instruction carries an extension word
when its format always does or when a field it uses as an operand code holds 54 or 55 (R143). -/
namespace Sys2Proof

/-- The value of a field of an instruction word. -/
abbrev fld (w : Word) (lo n : Nat) : BitVec n := w.extractLsb' lo n

/-- Operand codes 54 and 55 call for an extension word (R143). -/
def callsX (c : BitVec 6) : Bool := c = 54 || c = 55

/-- Which operand fields of a V3 instruction are operand codes that it uses (R155, R175, R201, R222, R275). -/
structure Use where
  d : Bool := false
  a : Bool := false
  b : Bool := false
  always : Bool := false
  deriving DecidableEq, Repr

/-- A decoded instruction and the number of its words. -/
abbrev Decoded := Option (Instr × Nat)

/-- V3 format: does the word call for an extension word? -/
def v3Ext (u : Use) (w : Word) : Bool :=
  u.always || (u.d && callsX (fld w 19 6)) || (u.a && callsX (fld w 13 6)) || (u.b && callsX (fld w 7 6))

/-- The V3 fields (R145). -/
def v3Of (u : Use) (w x : Word) : V3 :=
  { d := fld w 19 6, a := fld w 13 6, b := fld w 7 6, m := fld w 4 3, h := fld w 2 2, q := fld w 0 2,
    x := if v3Ext u w then x else 0 }

def decV3 (mk : V3 → Instr) (u : Use) (w x : Word) : Decoded :=
  some (mk (v3Of u w x), if v3Ext u w then 2 else 1)

/-- RI format (R145). -/
def riOf (w x : Word) : RI :=
  { d := fld w 19 6, a := fld w 13 6, imm := fld w 2 11, q := fld w 0 2,
    x := if callsX (fld w 19 6) || callsX (fld w 13 6) then x else 0 }

def decRI (mk : RI → Instr) (w x : Word) : Decoded :=
  some (mk (riOf w x), if callsX (fld w 19 6) || callsX (fld w 13 6) then 2 else 1)

/-- RW format (R145). -/
def rwOf (w x : Word) : RW :=
  { d := fld w 19 6, imm := fld w 2 17, q := fld w 0 2, x := if callsX (fld w 19 6) then x else 0 }

def decRW (mk : RW → Instr) (w x : Word) : Decoded :=
  some (mk (rwOf w x), if callsX (fld w 19 6) then 2 else 1)

/-- M format: does the word call for an extension word? `ud` says that d is an operand code (not in PREF). -/
def mExt (always ud : Bool) (w : Word) : Bool :=
  always || (ud && callsX (fld w 19 6)) || callsX (fld w 13 6)

/-- M format (R145). -/
def fmOf (always ud : Bool) (w x : Word) : FM :=
  { d := fld w 19 6, base := fld w 13 6, off := fld w 6 7, m := fld w 2 4, q := fld w 0 2,
    x := if mExt always ud w then x else 0 }

def decM (mk : FM → Instr) (always ud : Bool) (w x : Word) : Decoded :=
  some (mk (fmOf always ud w x), if mExt always ud w then 2 else 1)

/-- J format (R145). -/
def fjOf (w : Word) : FJ := { off := fld w 2 23, q := fld w 0 2 }

/-- L format (R145). -/
def flOf (w x : Word) : FL :=
  { cnt := fld w 19 6, len := fld w 11 8, lvl := fld w 9 2, f7 := fld w 2 7, q := fld w 0 2,
    x := if callsX (fld w 19 6) then x else 0 }

/-- S format (R145). -/
def fsOf (w x : Word) : FS :=
  { d := fld w 19 6, sreg := fld w 7 12, m := fld w 2 5, q := fld w 0 2, x := if callsX (fld w 19 6) then x else 0 }

/-- E format (R145, R246). -/
def feOf (w x : Word) : FE :=
  { pb := fld w 15 6, tag := fld w 9 6, f7 := fld w 2 7, q := fld w 0 2, x := if callsX (fld w 15 6) then x else 0 }

def decE (mk : FE → Instr) (w x : Word) : Decoded := some (mk (feOf w x), if callsX (fld w 15 6) then 2 else 1)

/-- H format (R145, R263). -/
def fhOf (ud ua : Bool) (w x : Word) : FH :=
  { d := fld w 15 6, a := fld w 9 6, f7 := fld w 2 7, q := fld w 0 2,
    x := if (ud && callsX (fld w 15 6)) || (ua && callsX (fld w 9 6)) then x else 0 }

def decH (mk : FH → Instr) (ud ua : Bool) (w x : Word) : Decoded :=
  some (mk (fhOf ud ua w x), if (ud && callsX (fld w 15 6)) || (ua && callsX (fld w 9 6)) then 2 else 1)

/-- WT format (R145). -/
def wtOf (w : Word) : WT :=
  { l := fld w 19 6, s := fld w 13 6, c := fld w 7 6, t := fld w 2 5, q := fld w 0 2 }

/-- The special functions of opcode 0x35, by m (R148). -/
def decSpecial (w x : Word) : Decoded :=
  match (fld w 4 3).toNat with
  | 0 => decV3 .rcp { d := true, a := true } w x
  | 1 => decV3 .rsq { d := true, a := true } w x
  | 2 => decV3 .sqrta { d := true, a := true } w x
  | 3 => decV3 .exp2 { d := true, a := true } w x
  | 4 => decV3 .log2 { d := true, a := true } w x
  | 5 => decV3 .sinp { d := true, a := true } w x
  | 6 => decV3 .cosp { d := true, a := true } w x
  | _ => decV3 .tanha { d := true, a := true } w x

/-- SYS, by m; 101 to 111 decode to no instruction (R275). -/
def decSys (w x : Word) : Decoded :=
  match (fld w 4 3).toNat with
  | 0 => decV3 .rte {} w x
  | 1 => decV3 .rtex {} w x
  | 2 => decV3 .tlbi { a := true, b := true } w x
  | 3 => decV3 .widle { d := true, a := true } w x
  | 4 => decV3 .park {} w x
  | _ => some (.illegalInstr w, 1)

/-- ENG, by sub4; 9 to 15 decode to no instruction (R246). -/
def decEng (w x : Word) : Decoded :=
  match (fld w 21 4).toNat with
  | 0 => decE .cpy w x
  | 1 => decE .cpys w x
  | 2 => decE .cpyg w x
  | 3 => decE .cpya w x
  | 4 => decE .mma w x
  | 5 => decE .mmag w x
  | 6 => decE .acclr w x
  | 7 => decE .bcast w x
  | 8 => decE .cpyr w x
  | _ => some (.illegalInstr w, 1)

/-- HYP, by sub4; 7 to 15 decode to no instruction (R263). -/
def decHyp (w x : Word) : Decoded :=
  match (fld w 21 4).toNat with
  | 0 => decH .hnew true true w x
  | 1 => decH .hset false true w x
  | 2 => decH .hget true true w x
  | 3 => decH .hconf false true w x
  | 4 => decH .href false true w x
  | 5 => decH .hchk true false w x
  | 6 => decH .hwait true true w x
  | _ => some (.illegalInstr w, 1)

/-- A compare whose condition is `false` or `true` does not read a and b (R166). -/
def icmpUse (w : Word) : Use :=
  if fld w 4 3 = 6 ∨ fld w 4 3 = 7 then {} else { a := true, b := true }

/-- PMOV's operand code is d, or a when m[0] is set (R169). -/
def pmovUse (w : Word) : Use := if w.getLsbD 4 then { a := true } else { d := true }

/-- TAG set does not use a (R171). -/
def tagUse (w : Word) : Use := if w.getLsbD 4 then { d := true } else { d := true, a := true }

/-- Primary opcodes 0 to 29 of the grid of R147. -/
def decode0 (w x : Word) : Decoded :=
  match (fld w 25 7).toNat with
  | 0 => decV3 .nop {} w x
  | 1 => decV3 .iadd { d := true, a := true, b := true } w x
  | 2 => decV3 .isub { d := true, a := true, b := true } w x
  | 3 => decV3 .iaddc { d := true, a := true, b := true } w x
  | 4 => decV3 .isubb { d := true, a := true, b := true } w x
  | 5 => decV3 .imul { d := true, a := true, b := true } w x
  | 6 => decV3 .imulh { d := true, a := true, b := true } w x
  | 7 => decV3 .imad { d := true, a := true, b := true, always := true } w x
  | 8 => decV3 .imin { d := true, a := true, b := true } w x
  | 9 => decV3 .imax { d := true, a := true, b := true } w x
  | 10 => decV3 .iabs { d := true, a := true } w x
  | 11 => decV3 .bitAnd { d := true, a := true, b := true } w x
  | 12 => decV3 .bitOr { d := true, a := true, b := true } w x
  | 13 => decV3 .bitXor { d := true, a := true, b := true } w x
  | 14 => decV3 .andn { d := true, a := true, b := true } w x
  | 15 => decV3 .shl { d := true, a := true, b := true } w x
  | 16 => decV3 .shr { d := true, a := true, b := true } w x
  | 17 => decV3 .rot { d := true, a := true, b := true } w x
  | 18 => decV3 .shf { d := true, a := true, b := true, always := true } w x
  | 19 => decV3 .popc { d := true, a := true } w x
  | 20 => decV3 .clz { d := true, a := true } w x
  | 21 => decV3 .brev { d := true, a := true } w x
  | 22 => decV3 .bfx { d := true, a := true, always := true } w x
  | 23 => decV3 .bfi { d := true, a := true, b := true, always := true } w x
  | 24 => decV3 .sel { d := true, a := true, b := true } w x
  | 25 => decV3 .mov { d := true, a := true } w x
  | 26 => decRW .movi w x
  | 27 => decRW .movhi w x
  | 28 => decV3 .lea { d := true, a := true, b := true } w x
  | 29 => decV3 .icmpS (icmpUse w) w x
  | _ => none

/-- Primary opcodes 30 to 59 of the grid of R147. -/
def decode30 (w x : Word) : Decoded :=
  match (fld w 25 7).toNat with
  | 30 => decV3 .icmpN (icmpUse w) w x
  | 31 => decRI .iaddi w x
  | 32 => decV3 .plop { always := true } w x
  | 33 => decV3 .pmov (pmovUse w) w x
  | 34 => decV3 .umov { d := true, a := true } w x
  | 35 => decV3 .tag (tagUse w) w x
  | 36 => decV3 .fadd { d := true, a := true, b := true } w x
  | 37 => decV3 .fsub { d := true, a := true, b := true } w x
  | 38 => decV3 .fmul { d := true, a := true, b := true } w x
  | 39 => decV3 .ffma { d := true, a := true, b := true, always := true } w x
  | 40 => decV3 .fmin { d := true, a := true, b := true } w x
  | 41 => decV3 .fmax { d := true, a := true, b := true } w x
  | 42 => decV3 .fcmp { a := true, b := true } w x
  | 43 => decV3 .frnd { d := true, a := true } w x
  | 44 => decV3 .f2i { d := true, a := true } w x
  | 45 => decV3 .i2f { d := true, a := true } w x
  | 46 => decV3 .fcvt { d := true, a := true, always := true } w x
  | 47 => decV3 .fclass { d := true, a := true } w x
  | 48 => decV3 .fscale { d := true, a := true, b := true } w x
  | 49 => decV3 .dadd { d := true, a := true, b := true } w x
  | 50 => decV3 .dmul { d := true, a := true, b := true } w x
  | 51 => decV3 .dfma { d := true, a := true, b := true, always := true } w x
  | 52 => decV3 .dcmp { a := true, b := true } w x
  | 53 => decSpecial w x
  | 54 => decV3 .hadd2 { d := true, a := true, b := true } w x
  | 55 => decV3 .hfma2 { d := true, a := true, b := true, always := true } w x
  | 56 => decV3 .qadd4 { d := true, a := true, b := true } w x
  | 57 => decV3 .qmul4 { d := true, a := true, b := true } w x
  | 58 => decV3 .dot4 { d := true, a := true, b := true, always := true } w x
  | 59 => decV3 .dot8 { d := true, a := true, b := true, always := true } w x
  | _ => none

/-- Primary opcodes 60 to 89 of the grid of R147. -/
def decode60 (w x : Word) : Decoded :=
  match (fld w 25 7).toNat with
  | 60 => decV3 .idot4 { d := true, a := true, b := true, always := true } w x
  | 61 => decV3 .idot8 { d := true, a := true, b := true, always := true } w x
  | 62 => decV3 .pcvt { d := true, a := true, always := true } w x
  | 63 => decV3 .pscale { d := true, a := true, b := true } w x
  | 64 => decV3 .pamax { d := true, a := true, b := true } w x
  | 65 => decV3 .shfl { d := true, a := true, b := true } w x
  | 66 => decV3 .vote { d := true } w x
  | 67 => decV3 .ired { d := true, a := true } w x
  | 68 => decV3 .kclr {} w x
  | 69 => decV3 .kadd { a := true } w x
  | 70 => decV3 .kmad { a := true, b := true } w x
  | 71 => decV3 .krnd { d := true } w x
  | 72 => decV3 .ksave { a := true } w x
  | 73 => decV3 .kload { a := true } w x
  | 74 => decV3 .scan { d := true, a := true } w x
  | 75 => decV3 .matchLanes { d := true, a := true } w x
  | 76 => decV3 .orient2 { d := true, a := true, b := true, always := true } w x
  | 77 => decV3 .orient3 { d := true, a := true, b := true, always := true } w x
  | 78 => decV3 .incirc { d := true, a := true, b := true, always := true } w x
  | 79 => decV3 .insph { d := true, a := true, b := true, always := true } w x
  | 80 => decV3 .segx { d := true, a := true, b := true, always := true } w x
  | 81 => decM .ld false true w x
  | 82 => decM .st false true w x
  | 83 => decM .lds false true w x
  | 84 => decM .sts false true w x
  | 85 => decM .ldn true true w x
  | 86 => decM .stn true true w x
  | 87 => decM .ldu false true w x
  | 88 => decM .atom true true w x
  | 89 => decM .atoms true true w x
  | _ => none

/-- Primary opcodes 90 to 119 of the grid of R147. -/
def decode90 (w x : Word) : Decoded :=
  match (fld w 25 7).toNat with
  | 90 => decM .atomn true true w x
  | 91 => decM .pref false false w x
  | 92 => decV3 .fence {} w x
  | 93 => decV3 .cwb { a := true } w x
  | 94 => decV3 .bar {} w x
  | 95 => decV3 .gbar {} w x
  | 96 => decV3 .pharr { a := true, b := true } w x
  | 97 => decV3 .phwait { a := true, b := true } w x
  | 98 => some (.wait (wtOf w), 1)
  | 99 => decV3 .twait { d := true, a := true } w x
  | 100 => decV3 .tany { d := true, a := true } w x
  | 101 => decV3 .tfind { d := true, a := true } w x
  | 102 => decV3 .tclr { a := true } w x
  | 103 => some (.bra (fjOf w), 1)
  | 104 => decV3 .brx { a := true } w x
  | 105 => decV3 .jtab { a := true, always := true } w x
  | 106 => some (.call (fjOf w), 1)
  | 107 => decV3 .callx { a := true } w x
  | 108 => decV3 .ret {} w x
  | 109 => some (.loop (flOf w x), if callsX (fld w 19 6) then 2 else 1)
  | 110 => decV3 .brk {} w x
  | 111 => decV3 .exitThread {} w x
  | 112 => decV3 .yield {} w x
  | 113 => if w.getLsbD 4 then decV3 .bpt {} w x else decV3 .trapCode {} w x
  | 114 => decEng w x
  | 115 => decHyp w x
  | 116 => some (.srd (fsOf w x), if callsX (fld w 19 6) then 2 else 1)
  | 117 => some (.swr (fsOf w x), if callsX (fld w 19 6) then 2 else 1)
  | 118 => decSys w x
  | 119 => decM .ldt false true w x
  | _ => none

/-- The instruction in a word and the word after it, with the number of its words; none for opcodes 0x78 to 0x7F, the
header space (R147). -/
def decode (w x : Word) : Decoded :=
  if (fld w 25 7).toNat < 30 then decode0 w x
  else if (fld w 25 7).toNat < 60 then decode30 w x
  else if (fld w 25 7).toNat < 90 then decode60 w x
  else decode90 w x

/-- A little-endian word of four bytes (R4). -/
def leWord (a b c d : Byte) : Word := d ++ c ++ b ++ a

/-- The decoder on bytes as memory stores them, lowest address first: the instruction and the bytes after it. -/
def decodeBytes : List Byte → Option (Instr × List Byte)
  | a :: b :: c :: d :: rest =>
    match decode (leWord a b c d) (match rest with
      | e :: f :: g :: h :: _ => leWord e f g h
      | _ => 0) with
    | some (i, 1) => some (i, rest)
    | some (i, _) => if rest.length < 4 then none else some (i, rest.drop 4)
    | none => none
  | _ => none

/-- The bytes of a number, lowest first. -/
def wordBytes (n : Nat) : List Byte :=
  [BitVec.ofNat 8 n, BitVec.ofNat 8 (n / 256), BitVec.ofNat 8 (n / 65536), BitVec.ofNat 8 (n / 16777216)]

/-- The decoder on an instruction whose bits are w: the first word is bits 31..0, the extension word bits 63..32, and
every bit from nbits up is zero. -/
def decodeTableWord (nbits w : Nat) : Option Instr :=
  (decodeBytes (wordBytes (w % 2 ^ nbits) ++ wordBytes (w % 2 ^ nbits / 2 ^ 32))).map Prod.fst

/-- A V3 word of a primary opcode (R145). -/
def encV3 (op : BitVec 7) (f : V3) : Word := op ++ f.d ++ f.a ++ f.b ++ f.m ++ f.h ++ f.q

/-- The words of a V3 instruction: its word and its extension word, if it carries one. -/
def wordsV3 (u : Use) (op : BitVec 7) (f : V3) : List Word :=
  if v3Ext u (encV3 op f) then [encV3 op f, f.x] else [encV3 op f]

def encM (op : BitVec 7) (f : FM) : Word := op ++ f.d ++ f.base ++ f.off ++ f.m ++ f.q

def wordsM (always ud : Bool) (op : BitVec 7) (f : FM) : List Word :=
  if mExt always ud (encM op f) then [encM op f, f.x] else [encM op f]

def encRI (op : BitVec 7) (f : RI) : Word := op ++ f.d ++ f.a ++ f.imm ++ f.q

def encRW (op : BitVec 7) (f : RW) : Word := op ++ f.d ++ f.imm ++ f.q

def encJ (op : BitVec 7) (f : FJ) : Word := op ++ f.off ++ f.q

def encL (op : BitVec 7) (f : FL) : Word := op ++ f.cnt ++ f.len ++ f.lvl ++ f.f7 ++ f.q

def encS (op : BitVec 7) (f : FS) : Word := op ++ f.d ++ f.sreg ++ f.m ++ f.q

def encE (sub : BitVec 4) (f : FE) : Word := (0x72 : BitVec 7) ++ sub ++ f.pb ++ f.tag ++ f.f7 ++ f.q

def encH (sub : BitVec 4) (f : FH) : Word := (0x73 : BitVec 7) ++ sub ++ f.d ++ f.a ++ f.f7 ++ f.q

def encWT (op : BitVec 7) (f : WT) : Word := op ++ f.l ++ f.s ++ f.c ++ f.t ++ f.q

/-- A word, and an extension word when an operand code of it calls for one. -/
def withX (ext : Bool) (w x : Word) : List Word := if ext then [w, x] else [w]

/-- The words of an instruction; the events of the device have none. -/
def encode (i : Instr) : List Word :=
  match i with
  | .nop f => wordsV3 {} 0x0 f
  | .iadd f => wordsV3 { d := true, a := true, b := true } 0x1 f
  | .isub f => wordsV3 { d := true, a := true, b := true } 0x2 f
  | .iaddc f => wordsV3 { d := true, a := true, b := true } 0x3 f
  | .isubb f => wordsV3 { d := true, a := true, b := true } 0x4 f
  | .imul f => wordsV3 { d := true, a := true, b := true } 0x5 f
  | .imulh f => wordsV3 { d := true, a := true, b := true } 0x6 f
  | .imad f => wordsV3 { d := true, a := true, b := true, always := true } 0x7 f
  | .imin f => wordsV3 { d := true, a := true, b := true } 0x8 f
  | .imax f => wordsV3 { d := true, a := true, b := true } 0x9 f
  | .iabs f => wordsV3 { d := true, a := true } 0xa f
  | .bitAnd f => wordsV3 { d := true, a := true, b := true } 0xb f
  | .bitOr f => wordsV3 { d := true, a := true, b := true } 0xc f
  | .bitXor f => wordsV3 { d := true, a := true, b := true } 0xd f
  | .andn f => wordsV3 { d := true, a := true, b := true } 0xe f
  | .shl f => wordsV3 { d := true, a := true, b := true } 0xf f
  | .shr f => wordsV3 { d := true, a := true, b := true } 0x10 f
  | .rot f => wordsV3 { d := true, a := true, b := true } 0x11 f
  | .shf f => wordsV3 { d := true, a := true, b := true, always := true } 0x12 f
  | .popc f => wordsV3 { d := true, a := true } 0x13 f
  | .clz f => wordsV3 { d := true, a := true } 0x14 f
  | .brev f => wordsV3 { d := true, a := true } 0x15 f
  | .bfx f => wordsV3 { d := true, a := true, always := true } 0x16 f
  | .bfi f => wordsV3 { d := true, a := true, b := true, always := true } 0x17 f
  | .sel f => wordsV3 { d := true, a := true, b := true } 0x18 f
  | .mov f => wordsV3 { d := true, a := true } 0x19 f
  | .movi f => withX (callsX f.d) (encRW 0x1a f) f.x
  | .movhi f => withX (callsX f.d) (encRW 0x1b f) f.x
  | .lea f => wordsV3 { d := true, a := true, b := true } 0x1c f
  | .icmpS f => wordsV3 (icmpUse (encV3 0x1d f)) 0x1d f
  | .icmpN f => wordsV3 (icmpUse (encV3 0x1e f)) 0x1e f
  | .iaddi f => withX (callsX f.d || callsX f.a) (encRI 0x1f f) f.x
  | .plop f => wordsV3 { always := true } 0x20 f
  | .pmov f => wordsV3 (pmovUse (encV3 0x21 f)) 0x21 f
  | .umov f => wordsV3 { d := true, a := true } 0x22 f
  | .tag f => wordsV3 (tagUse (encV3 0x23 f)) 0x23 f
  | .fadd f => wordsV3 { d := true, a := true, b := true } 0x24 f
  | .fsub f => wordsV3 { d := true, a := true, b := true } 0x25 f
  | .fmul f => wordsV3 { d := true, a := true, b := true } 0x26 f
  | .ffma f => wordsV3 { d := true, a := true, b := true, always := true } 0x27 f
  | .fmin f => wordsV3 { d := true, a := true, b := true } 0x28 f
  | .fmax f => wordsV3 { d := true, a := true, b := true } 0x29 f
  | .fcmp f => wordsV3 { a := true, b := true } 0x2a f
  | .frnd f => wordsV3 { d := true, a := true } 0x2b f
  | .f2i f => wordsV3 { d := true, a := true } 0x2c f
  | .i2f f => wordsV3 { d := true, a := true } 0x2d f
  | .fcvt f => wordsV3 { d := true, a := true, always := true } 0x2e f
  | .fclass f => wordsV3 { d := true, a := true } 0x2f f
  | .fscale f => wordsV3 { d := true, a := true, b := true } 0x30 f
  | .dadd f => wordsV3 { d := true, a := true, b := true } 0x31 f
  | .dmul f => wordsV3 { d := true, a := true, b := true } 0x32 f
  | .dfma f => wordsV3 { d := true, a := true, b := true, always := true } 0x33 f
  | .dcmp f => wordsV3 { a := true, b := true } 0x34 f
  | .rcp f => wordsV3 { d := true, a := true } 0x35 f
  | .rsq f => wordsV3 { d := true, a := true } 0x35 f
  | .sqrta f => wordsV3 { d := true, a := true } 0x35 f
  | .exp2 f => wordsV3 { d := true, a := true } 0x35 f
  | .log2 f => wordsV3 { d := true, a := true } 0x35 f
  | .sinp f => wordsV3 { d := true, a := true } 0x35 f
  | .cosp f => wordsV3 { d := true, a := true } 0x35 f
  | .tanha f => wordsV3 { d := true, a := true } 0x35 f
  | .hadd2 f => wordsV3 { d := true, a := true, b := true } 0x36 f
  | .hfma2 f => wordsV3 { d := true, a := true, b := true, always := true } 0x37 f
  | .qadd4 f => wordsV3 { d := true, a := true, b := true } 0x38 f
  | .qmul4 f => wordsV3 { d := true, a := true, b := true } 0x39 f
  | .dot4 f => wordsV3 { d := true, a := true, b := true, always := true } 0x3a f
  | .dot8 f => wordsV3 { d := true, a := true, b := true, always := true } 0x3b f
  | .idot4 f => wordsV3 { d := true, a := true, b := true, always := true } 0x3c f
  | .idot8 f => wordsV3 { d := true, a := true, b := true, always := true } 0x3d f
  | .pcvt f => wordsV3 { d := true, a := true, always := true } 0x3e f
  | .pscale f => wordsV3 { d := true, a := true, b := true } 0x3f f
  | .pamax f => wordsV3 { d := true, a := true, b := true } 0x40 f
  | .shfl f => wordsV3 { d := true, a := true, b := true } 0x41 f
  | .vote f => wordsV3 { d := true } 0x42 f
  | .ired f => wordsV3 { d := true, a := true } 0x43 f
  | .kclr f => wordsV3 {} 0x44 f
  | .kadd f => wordsV3 { a := true } 0x45 f
  | .kmad f => wordsV3 { a := true, b := true } 0x46 f
  | .krnd f => wordsV3 { d := true } 0x47 f
  | .ksave f => wordsV3 { a := true } 0x48 f
  | .kload f => wordsV3 { a := true } 0x49 f
  | .scan f => wordsV3 { d := true, a := true } 0x4a f
  | .matchLanes f => wordsV3 { d := true, a := true } 0x4b f
  | .orient2 f => wordsV3 { d := true, a := true, b := true, always := true } 0x4c f
  | .orient3 f => wordsV3 { d := true, a := true, b := true, always := true } 0x4d f
  | .incirc f => wordsV3 { d := true, a := true, b := true, always := true } 0x4e f
  | .insph f => wordsV3 { d := true, a := true, b := true, always := true } 0x4f f
  | .segx f => wordsV3 { d := true, a := true, b := true, always := true } 0x50 f
  | .ld f => wordsM false true 0x51 f
  | .st f => wordsM false true 0x52 f
  | .lds f => wordsM false true 0x53 f
  | .sts f => wordsM false true 0x54 f
  | .ldn f => wordsM true true 0x55 f
  | .stn f => wordsM true true 0x56 f
  | .ldu f => wordsM false true 0x57 f
  | .atom f => wordsM true true 0x58 f
  | .atoms f => wordsM true true 0x59 f
  | .atomn f => wordsM true true 0x5a f
  | .pref f => wordsM false false 0x5b f
  | .fence f => wordsV3 {} 0x5c f
  | .cwb f => wordsV3 { a := true } 0x5d f
  | .bar f => wordsV3 {} 0x5e f
  | .gbar f => wordsV3 {} 0x5f f
  | .pharr f => wordsV3 { a := true, b := true } 0x60 f
  | .phwait f => wordsV3 { a := true, b := true } 0x61 f
  | .wait f => [encWT 0x62 f]
  | .twait f => wordsV3 { d := true, a := true } 0x63 f
  | .tany f => wordsV3 { d := true, a := true } 0x64 f
  | .tfind f => wordsV3 { d := true, a := true } 0x65 f
  | .tclr f => wordsV3 { a := true } 0x66 f
  | .bra f => [encJ 0x67 f]
  | .brx f => wordsV3 { a := true } 0x68 f
  | .jtab f => wordsV3 { a := true, always := true } 0x69 f
  | .call f => [encJ 0x6a f]
  | .callx f => wordsV3 { a := true } 0x6b f
  | .ret f => wordsV3 {} 0x6c f
  | .loop f => withX (callsX f.cnt) (encL 0x6d f) f.x
  | .brk f => wordsV3 {} 0x6e f
  | .exitThread f => wordsV3 {} 0x6f f
  | .yield f => wordsV3 {} 0x70 f
  | .trapCode f => wordsV3 {} 0x71 f
  | .bpt f => wordsV3 {} 0x71 f
  | .cpy f => withX (callsX f.pb) (encE 0 f) f.x
  | .cpys f => withX (callsX f.pb) (encE 1 f) f.x
  | .cpyg f => withX (callsX f.pb) (encE 2 f) f.x
  | .cpya f => withX (callsX f.pb) (encE 3 f) f.x
  | .mma f => withX (callsX f.pb) (encE 4 f) f.x
  | .mmag f => withX (callsX f.pb) (encE 5 f) f.x
  | .acclr f => withX (callsX f.pb) (encE 6 f) f.x
  | .bcast f => withX (callsX f.pb) (encE 7 f) f.x
  | .cpyr f => withX (callsX f.pb) (encE 8 f) f.x
  | .hnew f => withX (callsX f.d || callsX f.a) (encH 0 f) f.x
  | .hset f => withX (callsX f.a) (encH 1 f) f.x
  | .hget f => withX (callsX f.d || callsX f.a) (encH 2 f) f.x
  | .hconf f => withX (callsX f.a) (encH 3 f) f.x
  | .href f => withX (callsX f.a) (encH 4 f) f.x
  | .hchk f => withX (callsX f.d) (encH 5 f) f.x
  | .hwait f => withX (callsX f.d || callsX f.a) (encH 6 f) f.x
  | .srd f => withX (callsX f.d) (encS 0x74 f) f.x
  | .swr f => withX (callsX f.d) (encS 0x75 f) f.x
  | .rte f => wordsV3 {} 0x76 f
  | .rtex f => wordsV3 {} 0x76 f
  | .tlbi f => wordsV3 { a := true, b := true } 0x76 f
  | .widle f => wordsV3 { d := true, a := true } 0x76 f
  | .park f => wordsV3 {} 0x76 f
  | .ldt f => wordsM false true 0x77 f
  | .illegalInstr w => [w]
  | _ => []

end Sys2Proof
end

