-- ==== Sys2Proof/Config.lean ====
section
/-! DEFINITION. What the spec fixes for the module as a whole (R1) and the free values: constants without a body for
what it leaves open, so that nothing can be proved of the value they give (log entry 3). -/
namespace Sys2Proof.Config

/-- Tiles of the logical pool (R1). -/
def poolTiles : Nat := 1560
/-- Physical tile sites per side (R1). -/
def siteSide : Nat := 40
/-- Bytes of one vault: 6 GiB (R1). -/
def vaultBytes : Nat := 6442450944
/-- Registers per lane of a core (R1). -/
def coreRegs : Nat := 2048
/-- Scratchpad bytes of a core (R1). -/
def coreScratch : Nat := 524288
/-- Resident warps of a core (R20). -/
def coreWarps : Nat := 32
/-- Lines of a core's L1: 128 KiB of 128 bytes (R1, R78). -/
def l1Lines : Nat := 1024
/-- Entries of a slice TLB (R384). -/
def tlbEntries : Nat := 4096
/-- Versions a proofing buffer holds (R295). -/
def proofEntries : Nat := 16384
/-- Lids of a core (R93). -/
def coreLids : Nat := 32

/-- A free byte: the n-th value that the spec leaves open (log entry 3). -/
opaque freeByte : Nat → Byte
/-- A free word: the n-th value that the spec leaves open (log entry 3). -/
opaque freeWord : Nat → Word
/-- A free number: the n-th value that the spec leaves open (log entry 3). -/
opaque freeNat : Nat → Nat
/-- A free choice between two outcomes that the spec both allows (log entry 3). -/
opaque freeBool : Nat → Bool
/-- The result of a special function within the bounds of R127: function number and operand (log entry 11). -/
opaque special : Nat → Word → Word
/-- The keys K1 and K2 that Griermor's generator drew under a name (R418; log entry 12). -/
opaque key1 : Nat → BitVec 256
opaque key2 : Nat → BitVec 256
/-- The signature of a message under the module's key (R428, R455, R467): 96 bytes are taken (log entry 13). -/
opaque signature : List Byte → Nat → Byte
/-- Contents that the spec names and does not give: certificate bytes, random values (R428; log entry 13). -/
opaque blob : Nat → Nat → Byte
/-- Which of the details that apply a check raises where the spec gives no order among them (log entry 35). -/
opaque whichDetail : List Nat → Nat
/-- Energy in nanojoules of an estimate that R456 forms from coefficients it does not give (log entry 14). -/
opaque energyEstimate : Nat → List Nat → Nat

end Sys2Proof.Config
end

