-- ==== Sys2Proof/Machine/Tbl.lean ====
section
/-! DEFINITION. Sparse tables in one canonical form, the shape of every keyed piece of the state: key and value pairs
with strictly rising keys. Memory is such a table of bytes whose unlisted addresses read as zero (log entry 6). -/
namespace Sys2Proof.Machine

/-- A sparse table: pairs of a key and a value, keys strictly rising (`Tbl.sorted`). -/
abbrev Tbl (α : Type) := List (Nat × α)

/-- The value listed at a key. -/
def Tbl.find {α : Type} : Tbl α → Nat → Option α
  | [], _ => none
  | (k, v) :: t, q => if q = k then some v else Tbl.find t q

/-- The table with the value at a key replaced or inserted in key order. -/
def Tbl.put {α : Type} : Tbl α → Nat → α → Tbl α
  | [], q, x => [(q, x)]
  | (k, v) :: t, q, x =>
    if q < k then (q, x) :: (k, v) :: t
    else if q = k then (q, x) :: t
    else (k, v) :: Tbl.put t q x

/-- The table without a key. -/
def Tbl.del {α : Type} : Tbl α → Nat → Tbl α
  | [], _ => []
  | (k, v) :: t, q => if q = k then Tbl.del t q else (k, v) :: Tbl.del t q

/-- The value at a key, or the value an unlisted key stands for. -/
def Tbl.getD {α : Type} (t : Tbl α) (k : Nat) (d : α) : α := (Tbl.find t k).getD d

/-- Every key of the table is above a bound. -/
def Tbl.above {α : Type} (b : Nat) : Tbl α → Bool
  | [] => true
  | (k, _) :: t => decide (b < k) && Tbl.above b t

/-- Keys rise strictly. -/
def Tbl.sorted {α : Type} : Tbl α → Bool
  | [] => true
  | (k, _) :: t => Tbl.above k t && Tbl.sorted t

/-- Memory: the listed bytes; an unlisted address reads as zero. -/
abbrev Memory := List Host.Cell

/-- The byte read at an address (log entry 6: an unlisted byte reads as zero). -/
def Memory.rd (m : Memory) (a : Nat) : Byte := Tbl.getD m a 0

/-- Memory after one byte is written; the canonical form lists no zero byte. -/
def Memory.wr (m : Memory) (a : Nat) (v : Byte) : Memory :=
  if v = 0 then Tbl.del m a else Tbl.put m a v

/-- The bytes of an interval, lowest address first. -/
def Memory.rdN (m : Memory) (a : Nat) : Nat → List Byte
  | 0 => []
  | n + 1 => Memory.rd m a :: Memory.rdN m (a + 1) n

/-- Memory after a run of bytes is written from an address upward. -/
def Memory.wrN (m : Memory) (a : Nat) : List Byte → Memory
  | [] => m
  | b :: bs => Memory.wrN (Memory.wr m a b) (a + 1) bs

/-- No listed byte is zero. -/
def Memory.noZero : Memory → Bool
  | [] => true
  | (_, v) :: t => decide (v ≠ 0) && Memory.noZero t

/-- The canonical form of memory: addresses strictly rising, no entry equal to what an unlisted address reads as. -/
def Memory.wf (m : Memory) : Bool := Tbl.sorted m && Memory.noZero m

/-- The little-endian number held by a run of bytes (R4). -/
def leNat : List Byte → Nat
  | [] => 0
  | b :: bs => b.toNat + 256 * leNat bs

/-- The n bytes of a number, lowest first (R4). -/
def natLe : Nat → Nat → List Byte
  | 0, _ => []
  | n + 1, v => BitVec.ofNat 8 v :: natLe n (v / 256)

/-- The 32-bit word at an address, little-endian. -/
def Memory.rd32 (m : Memory) (a : Nat) : Word := BitVec.ofNat 32 (leNat (Memory.rdN m a 4))

/-- The number of lowest set bit at or above a start, below a bound. -/
def lowBit (w : Nat) : Nat → Nat → Option Nat
  | _, 0 => none
  | i, n + 1 => if w.testBit i then some i else lowBit w (i + 1) n

/-- The set bits of a lane mask, lowest first. -/
def lanesOf (m : Word) : List Nat := (List.range 32).filter (fun i => m.getLsbD i)

/-- The lane mask of a list of lanes. -/
def maskOf (l : List Nat) : Word := l.foldl (fun m i => m ||| (1#32 <<< i)) 0#32

end Sys2Proof.Machine
end

