-- ==== Sys2Proof/Machine/Aes.lean ====
section
/-! DEFINITION. XTS-AES-256 as IEEE 1619 gives it over the cipher of FIPS 197: the form in which data of an encrypted page is
stored (R417, R419). The keys that Griermor draws are free values (R418; log entry 12). -/
namespace Sys2Proof.Machine

/-! ### The field of 256 elements -/

/-- Times x, modulo x^8 + x^4 + x^3 + x + 1. -/
def xtime (b : Byte) : Byte := (b <<< 1) ^^^ (if b.getLsbD 7 then 0x1B else 0)

/-- The product of two elements, by the bits of the second from bit k down. -/
def gfMulBits (a b : Byte) : Nat → Byte
  | 0 => 0
  | k + 1 => xtime (gfMulBits a (b >>> 1) k) ^^^ (if b.getLsbD 0 then a else 0)

def gfMul (a b : Byte) : Byte := gfMulBits a b 8

/-- The inverse: the 254th power; of 0, 0. -/
def gfInv (a : Byte) : Byte :=
  let a2 := gfMul a a
  let a3 := gfMul a2 a
  let a6 := gfMul a3 a3
  let a12 := gfMul a6 a6
  let a15 := gfMul a12 a3
  let a30 := gfMul a15 a15
  let a60 := gfMul a30 a30
  let a120 := gfMul a60 a60
  let a126 := gfMul a120 a6
  let a127 := gfMul a126 a
  gfMul a127 a127

/-- The substitution of a byte, and its inverse. -/
def subByte (b : Byte) : Byte :=
  let i := gfInv b
  i ^^^ i.rotateLeft 1 ^^^ i.rotateLeft 2 ^^^ i.rotateLeft 3 ^^^ i.rotateLeft 4 ^^^ 0x63

def unsubByte (b : Byte) : Byte := gfInv (b.rotateLeft 1 ^^^ b.rotateLeft 3 ^^^ b.rotateLeft 6 ^^^ 0x05)

/-! ### AES-256 on blocks of 16 bytes -/

def xorBytes (a b : List Byte) : List Byte := List.zipWith (· ^^^ ·) a b

/-- The bytes of a key, the first the most significant. -/
def keyBytes (k : BitVec 256) : List Byte := (natLe 32 k.toNat).reverse

/-- The round constant of a group of eight words. -/
def roundConst : Nat → Byte
  | 0 => 1
  | n + 1 => xtime (roundConst n)

/-- The next word of the key schedule, from those before it. -/
def nextKeyWord (ws : List (List Byte)) : List Byte :=
  let i := ws.length
  let t := ws.getD (i - 1) []
  let t := if i % 8 = 0 then xorBytes ((t.drop 1 ++ t.take 1).map subByte) [roundConst (i / 8 - 1), 0, 0, 0]
    else if i % 8 = 4 then t.map subByte else t
  xorBytes (ws.getD (i - 8) []) t

/-- The 60 words of the key schedule. -/
def keySchedule (k : BitVec 256) : List (List Byte) :=
  let b := keyBytes k
  (List.range 52).foldl (fun ws _ => ws ++ [nextKeyWord ws]) ((List.range 8).map fun i => (b.drop (4 * i)).take 4)

def roundKey (ws : List (List Byte)) (r : Nat) : List Byte := ((ws.drop (4 * r)).take 4).flatten

/-- Row r of the state moves left by r places; or right. -/
def shiftRows (left : Bool) (s : List Byte) : List Byte :=
  (List.range 16).map fun k => s.getD (4 * ((k / 4 + if left then k % 4 else 4 - k % 4) % 4) + k % 4) 0

/-- Each column times a polynomial given by its first row. -/
def mixColumns (c : List Byte) (s : List Byte) : List Byte :=
  (List.range 16).map fun k =>
    (List.range 4).foldl (fun (x : Byte) j => x ^^^ gfMul (s.getD (4 * (k / 4) + j) 0) (c.getD ((j + 4 - k % 4) % 4) 0)) 0

def aesEncrypt (k : BitVec 256) (b : List Byte) : List Byte :=
  let ws := keySchedule k
  let s := (List.range 13).foldl (fun s r =>
    xorBytes (mixColumns [2, 3, 1, 1] (shiftRows true (s.map subByte))) (roundKey ws (r + 1))) (xorBytes b (roundKey ws 0))
  xorBytes (shiftRows true (s.map subByte)) (roundKey ws 14)

def aesDecrypt (k : BitVec 256) (b : List Byte) : List Byte :=
  let ws := keySchedule k
  let s := (List.range 13).foldl (fun s r =>
    mixColumns [14, 11, 13, 9] (xorBytes ((shiftRows false s).map unsubByte) (roundKey ws (13 - r)))) (xorBytes b (roundKey ws 14))
  xorBytes ((shiftRows false s).map unsubByte) (roundKey ws 0)

/-! ### XTS (R419) -/

/-- The tweak of block 0 or 1 of the sector at a storage address: the address without bits [4:0] under K2, then times α. -/
def xtsTweak (k2 : BitVec 256) (addr : Nat) : List Byte :=
  let t := leNat (aesEncrypt k2 (natLe 16 (addr / 32)))
  if addr / 16 % 2 = 0 then natLe 16 t
  else natLe 16 ((2 * t % 2 ^ 128) ^^^ (if 2 ^ 127 ≤ t then 0x87 else 0))

/-- A block of 16 bytes at a storage address as it is stored under a key's name; name 1 is the plain form (R417). -/
def sealBlock (name addr : Nat) (b : List Byte) : List Byte :=
  if name = 1 then b
  else
    let t := xtsTweak (Config.key2 name) addr
    xorBytes (aesEncrypt (Config.key1 name) (xorBytes b t)) t

/-- What a stored block reads as under a key's name. -/
def openBlock (name addr : Nat) (b : List Byte) : List Byte :=
  if name = 1 then b
  else
    let t := xtsTweak (Config.key2 name) addr
    xorBytes (aesDecrypt (Config.key1 name) (xorBytes b t)) t

end Sys2Proof.Machine
end

