-- ==== Sys2Proof/Machine/State.lean ====
section
/-! DEFINITION. The state of the DH2-W480 as plain data: everything the spec names, in tables keyed by number.
INVENTORY.md lists each piece with its rule. Counters that are only another view of listed data (R199 counters, R392
occupancies, PSTAT.parked) are computed from it in Machine/Ops.lean. -/
namespace Sys2Proof.Machine

/-- A register: 32 bits and its format tag (R52, R109). -/
structure Reg where
  val : Word := 0
  tag : BitVec 4 := 0
  deriving DecidableEq, Repr

/-- A destination register after index registers are resolved. -/
inductive DReg where
  | discard
  | v (n : Nat)
  | w (n : Nat)
  | k (n : Nat)
  deriving DecidableEq, Repr

/-- What a lane group is doing (R29, R47, R278, R309, R398, R408). -/
inductive GroupSt where
  | running
  | held
  | atBar
  | atGbar
  | blocked
  | waiting
  | widle
  | geo
  | asking
  | parked
  | heldTrap
  deriving DecidableEq, Repr

/-- A lane group (R25, R408): lanes of one quad with one PC and call depth; `pos` 0 is the running group, higher
numbers its place in the quad's queue; `sliver` names the sliver it belongs to. `hw` is the header word decoded at
`hdr` and `code` the clause's words after it as decoded with it (R140), empty when the group resumes inside the clause
and the words are fetched again; a group with `pc = hdr` has not entered its clause; `passed` says that its rejoin hold at `hdr` has ended (R29), and
`waits` that the header's waits are still to be met before its clause's first instruction (R138).
`since` and `bound` are the tick at which its wait began and the bound of a timed wait, `gen` its barrier generation;
`skip` is the number of words it skips when it resumes from a park (R279, R398), `parkNext` the WATCHDOG detail and nested
cause of a park at its next instruction boundary (R398, R400), `mark` the next unused name when its wait at an HWAIT or a
FENCE engine began, zero outside one (R89, R270). `waiting` is a counter wait, which R29
does not list; `asking` holds a unit for the hypothesis home slice's reply (R264); `looked` is one more than the tick at which the group was last found not ready (log entry 2). -/
structure Group where
  quad : Nat
  lanes : Word
  pc : DWord
  hdr : DWord
  hw : Word := 0
  code : List Word := []
  depth : Nat := 0
  st : GroupSt := .running
  pos : Nat := 0
  sliver : Nat := 0
  gen : Nat := 0
  since : Nat := 0
  bound : Nat := 0
  passed : Bool := false
  waits : Bool := false
  skip : Nat := 0
  parkNext : Option (Nat × Nat) := none
  mark : Nat := 0
  looked : Nat := 0
  deriving DecidableEq, Repr

/-- A loop frame of a warp (R35, R229) and the lanes in which its level is active. -/
structure Frame where
  start : DWord := 0
  len : Nat := 0
  depth : Nat := 0
  active : Word := 0
  deriving DecidableEq, Repr

/-- An exact accumulator: 640-bit value and its status bits ovf, pinf, ninf, nan (R123). -/
structure KAcc where
  val : BitVec 640 := 0
  st : BitVec 4 := 0
  deriving DecidableEq, Repr

/-- One faulting lane of a fault record (R399). -/
structure FaultLane where
  lane : Nat
  addr : DWord
  data : List Byte
  dst : List DReg
  deriving DecidableEq, Repr

/-- Kinds of access in flight (R203 to R211, R226). -/
inductive AccKind where
  | ld | st | atom | ldu | ldt | cwb | pref | jtab | ldn | stn | atomn
  deriving DecidableEq, Repr

/-- A record of the fault list (R399): `arrived` is the tick at which it reached the core, `iid` the instruction whose
count it keeps. -/
structure FaultRec where
  cause : Nat
  m4 : BitVec 4
  kind : AccKind
  ordered : Bool
  lanes : Word
  pc : DWord
  hdr : DWord
  hyp : BitVec 16
  dest : BitVec 6
  xw : Word
  fqseq : Option Nat
  each : List FaultLane
  iid : Nat
  arrived : Nat
  deriving DecidableEq, Repr

/-- A trap that a sliver is held at until its warp's other unit leaves trap mode (R59): what its entry writes, the place that
`%tpc` names with its header word and call depth, and how many words a park at its entry skips. -/
structure HeldTrap where
  sliver : Nat
  cause : Nat
  tval : DWord
  mask : Word
  recorded : Bool
  trec : DWord
  deliv : Option Nat
  pc : DWord
  hdr : DWord
  hw : Word
  depth : Nat
  mix : Bool
  skip : Nat
  deriving DecidableEq, Repr

/-- Where an access stands between its issue and its completion; `waiting` is a version write that waits for an entry, with
the tick and the place in the order of its arrival (R296). -/
inductive AccSt where
  | sent
  | waiting (since order : Nat)
  | atOwner (core : Nat)
  | answered
  | faulted
  | failed (detail : Nat)
  deriving DecidableEq, Repr

/-- One access in flight: one lane of one instruction, or one home warp of LDU, or one line of PREF and CWB. `batch` names the
instruction of its issue unit, whichever home warp the lane has (R198), `chain` the handles of its view, deepest first, the
root's last (R297), `snap` is the line as the reply brings it (R80), `answer` the place of that answer in the order of
answers (R81), `faultAt` the time of its fault (R391), `dropped` the time at which the sieve dropped its packet last, until that is sent again (R437, R446). -/
structure Access where
  kind : AccKind
  iid : Nat
  wid : Nat
  core : Nat
  bid : Nat
  part : Nat
  asid : Nat
  lane : Nat
  lanes : Word
  va : DWord
  size : Nat
  data : List Byte := []
  batch : Nat := 0
  chain : List (BitVec 16) := []
  snap : List Byte := []
  answer : Nat := 0
  opcC : DWord := 0
  opcD : DWord := 0
  op : Nat := 0
  dst : List (Nat × List DReg) := []
  destCode : BitVec 6 := 52
  tag : BitVec 4 := 0
  signed : Bool := false
  acq : Bool := false
  rel : Bool := false
  hyp : BitVec 16 := 0
  pc : DWord := 0
  hdr : DWord := 0
  m4 : BitVec 4 := 0
  xw : Word := 0
  inTrap : Bool := false
  target : Nat := 0
  cause : Nat := 0
  level : Nat := 7
  pte : DWord := 0
  faultAt : Nat := 0
  dropped : Option Nat := none
  st : AccSt := .sent
  deriving DecidableEq, Repr

/-- A warp (R31, R34, R52 to R59, R63, R70). Vector registers are keyed by 512 x lane + number, index registers by
4 x lane + number, loop counters by 4 x lane + level, the rest by lane or number. `engDone` names the lanes that an ENG still at issue has issued for
(R247), `aside` the records that wait for a place in the fault list (R400), and `units` how many issue units it had when its
core's sets were last balanced (R40). -/
structure Warp where
  bid : Nat
  idx : Nat
  core : Nat
  role : Nat := 0
  budget : Nat := 64
  v : Tbl Reg := []
  w : Tbl Reg := []
  k : Tbl Reg := []
  p : Tbl (BitVec 16) := []
  ix : Tbl Word := []
  lc : Tbl Word := []
  sp : Tbl Word := []
  exited : Word := 0
  frames : Tbl Frame := []
  ka : Tbl KAcc := []
  hyp : BitVec 16 := 0
  anc : BitVec 256 := 1
  orphan : Bool := false
  ovc : Word := 0
  nvc : Word := 0
  fpcr : Word := 0
  fpsr : Word := 0
  latch : BitVec 5 := 0
  tcause : Word := 0
  tpc : DWord := 0
  tval : DWord := 0
  tmask : Word := 0
  tstat : Word := 0
  trec : DWord := 0
  tkept : Option (DWord × Word) := none
  trapSet : Word := 0
  trapSince : Nat := 0
  wdogPark : Bool := false
  deliv : Option Nat := none
  resume : Bool := false
  heldTraps : List HeldTrap := []
  faults : List FaultRec := []
  aside : List FaultRec := []
  groups : List Group := []
  engDone : Word := 0
  geoOut : List (Nat × DReg × Word) := []
  inActive : Bool := false
  activeSince : Nat := 0
  age : Nat := 0
  readySince : Tbl Nat := []
  pendReady : Option Nat := none
  depSince : Option Nat := none
  lastSliver : Nat := 0
  nextSliver : Nat := 1
  units : Nat := 1
  deriving DecidableEq, Repr

/-- A role of a kernel (R14): code, warps, registers per thread. -/
structure Role where
  code : Nat
  warps : Nat
  regs : Nat
  deriving DecidableEq, Repr

/-- A kernel descriptor as read at parse (R136). -/
structure KDesc where
  entry : DWord := 0
  perTile : Nat := 0
  gx : Nat := 0
  gy : Nat := 0
  scratch : Nat := 0
  accum : Nat := 0
  trapframe : Nat := 512
  params : Nat := 0
  roles : List Role := []
  deriving DecidableEq, Repr

/-- A block (R11, R16, R47, R348); `tags` are the completion tags that its operations have named (R406). -/
structure Block where
  gid : Nat
  rank : Nat
  core : Nat
  accbase : Nat := 0
  acclen : Nat := 0
  scr : Nat := 0
  frame : Nat := 512
  zsize : Nat := 0
  scratch : Memory := []
  wids : List Nat := []
  barGen : Nat := 0
  tags : DWord := 0
  retired : Bool := false
  deriving DecidableEq, Repr

/-- A lid (R93): a locked interval [lo, hi) of a block's scratchpad or of a global range, in a core's table. -/
structure Lid where
  core : Nat
  lo : Nat
  hi : Nat
  dest : Bool
  glob : Bool
  bid : Nat
  part : Nat
  asid : Nat
  op : Nat
  deriving DecidableEq, Repr

/-- How far an engine operation has come (R247, R250, R288): `reading` has its image and waits for counter room, not counted yet. -/
inductive EngSt where
  | reading
  | issued
  | running
  | landed
  | failed
  deriving DecidableEq, Repr

/-- A version write of an engine that waits for an entry (R262, R296): the tick and the order of its arrival, and its address. -/
structure Stall where
  since : Nat
  order : Nat
  va : DWord
  deriving DecidableEq, Repr

/-- An engine operation from issue to completion (R247 to R262). `recAt` is its record's scratch address, `base` the
count a CPYR resumes from, `passes` the mill passes done, `turn` those left of the turn, `granted` those granted to
others (R287), `failedSub` the subtiles that mismatched (R290), `sat` the epilogue's count (R292), `waitOps` the
operations it is ordered after (R88), `begun` whether its turn (R288) has come, `seq` its place in the order of issue, `pre` what its own destination bytes held before it wrote them (R254), `stalled`
a version write of it that waits (R262), `chain` the handles of its view (R262, R297), `dropped` the time of its last packet that the sieve dropped (R446), `level` and `pte` what a walk of it failed at,
`faultAt` when (R391). -/
structure EngineOp where
  kind : Nat
  sub : Nat
  wid : Nat
  idx : Nat
  bid : Nat
  core : Nat
  tile : Nat
  part : Nat
  asid : Nat
  tag : Nat
  f7 : BitVec 7
  hyp : BitVec 16
  orphaned : Bool := false
  image : List Byte
  recAt : Nat := 0xFFFFFFFF
  bar : Nat := 0
  total : Nat := 0
  base : Nat := 0
  done : Nat := 0
  begun : Bool := false
  arrives : Bool := false
  cause : Nat := 0
  hasErr : Bool := false
  addr : DWord := 0
  info : DWord := 0
  st : EngSt := .issued
  placed : Bool := false
  prio : Nat := 0
  passes : Nat := 0
  turn : Nat := 0
  granted : Nat := 0
  failedSub : List (Nat × Nat) := []
  nfail : Nat := 0
  sat : Nat := 0
  targets : List (Nat × Nat × Bool) := []
  gathered : List Nat := []
  waitOps : List Nat := []
  seq : Nat := 0
  lane : Nat := 0
  inTrap : Bool := false
  level : Nat := 7
  pte : DWord := 0
  faultAt : Nat := 0
  pre : Tbl Byte := []
  stalled : Option Stall := none
  chain : List (BitVec 16) := []
  dropped : Option Nat := none
  deriving DecidableEq, Repr

/-- An engine error not yet taken as a trap at observation (R252). -/
structure ObsErr where
  bid : Nat
  wid : Nat
  tag : Nat
  op : Nat
  cause : Nat
  trec : DWord
  deriving DecidableEq, Repr

/-- A block of a saved gang (R406, R407): the block, its warps, the tags its operations named, lids, accumulator rows
relative to the block's first, subtile tags and continuations. -/
structure BlockImage where
  bid : Nat
  warps : Tbl Warp := []
  busy : DWord := 0
  fail : DWord := 0
  lids : List Lid := []
  acc : Tbl Word := []
  accTag : Tbl (BitVec 4) := []
  conts : Tbl EngineOp := []
  deriving DecidableEq, Repr

/-- Where a gang stands (R20, R24, R373, R403 to R409). -/
inductive GangSt where
  | waiting
  | running
  | halted
  | saved
  | retired
  deriving DecidableEq, Repr

/-- A gang (R11, R17, R48, R373). -/
structure Gang where
  lid : Nat
  idx : Nat
  st : GangSt := .waiting
  since : Nat := 0
  waitFrom : Nat := 0
  bids : List Nat := []
  nblk : Nat := 1
  gbarGen : Nat := 0
  image : List BlockImage := []
  deriving DecidableEq, Repr

/-- What started a launch (R366, R371, R375). -/
inductive LaunchSrc where
  | queue (q : Nat)
  | slot (k : Nat)
  | node (inst n : Nat)
  deriving DecidableEq, Repr

/-- A launch (R11, R23, R366). -/
structure Launch where
  part : Nat
  serial : Word
  asid : Nat
  prio : Nat
  params : DWord
  pmem : Nat
  ctr : DWord := 0
  inc : DWord := 0
  gangs : Nat
  started : Nat := 0
  retired : Nat := 0
  desc : KDesc
  src : LaunchSrc
  ready : Nat := 0
  firedAt : Nat := 0
  issuedAt : Option Nat := none
  overCounted : Bool := false
  deriving DecidableEq, Repr

/-- The issue unit chosen to issue next (R42): a warp and the number of its sliver. -/
structure Focus where
  wid : Nat := 0
  sliver : Nat := 0
  deriving DecidableEq, Repr

/-- A core's turn in a tick (R42, R43): its first issue, or a second one beside a unit on the quads listed. -/
structure Turn where
  core : Nat
  quads : Option (List Nat) := none
  deriving DecidableEq, Repr

/-- A core's own registers (R63, R218, R344, R410, R440); `yielded` lists units that its next choice passes over, for any
other unit after a YIELD (R232), for one of another warp at a header with Y = 1 (R137: true); `selfTest` says that its
self-test is to rewrite `health` (R410). -/
structure Core where
  tagmap : DWord := BitVec.allOnes 64
  tagfail : DWord := 0
  health : Byte := 0xFF
  asleep : Bool := false
  failed : Bool := false
  selfTest : Bool := false
  yielded : List (Focus × Bool) := []
  deriving DecidableEq, Repr

/-- A mixed warp: slivers of several home warps of one core issuing together (R31). -/
structure Mixed where
  core : Nat
  parts : List (Nat × Nat)
  deriving DecidableEq, Repr

/-- An L1 copy of a line under one hypothesis id (R78, R298); `ver` are the bytes that the core's own accepted version writes
left (R95). -/
structure L1Line where
  core : Nat
  part : Nat
  asid : Nat
  line : Nat
  hid : Nat
  valid : BitVec 128 := 0
  data : Memory := []
  dirty : BitVec 128 := 0
  ver : BitVec 128 := 0
  owned : Word := 0
  deriving DecidableEq, Repr

/-- An entry of a home slice's ownership registry (R78), with its owner-lost words (R440). -/
structure Registry where
  part : Nat
  asid : Nat
  line : Nat
  core : Nat
  mask : Word
  lost : Word := 0
  deriving DecidableEq, Repr

/-- A version entry of a proofing buffer (R295), at the home slice of its sector. -/
structure Version where
  part : Nat
  asid : Nat
  sector : Nat
  hyp : BitVec 16
  mask : Word
  data : Memory
  deriving DecidableEq, Repr

/-- An entry of a slice TLB (R384). -/
structure TlbEntry where
  part : Nat
  tile : Nat
  asid : Nat
  level : Nat
  page : Nat
  pte : DWord
  addr : Nat
  deriving DecidableEq, Repr

/-- An L2 line (R392, R393): where it is filled from, its class, way, last use, written bytes, and whether its page is
encrypted (R417). -/
structure L2Line where
  tile : Nat
  space : Nat
  addr : Nat
  cls : Nat
  way : Nat
  used : Nat
  dirty : BitVec 128 := 0
  data : Memory := []
  enc : Bool := false
  deriving DecidableEq, Repr

/-- State of a hypothesis id (R264). -/
inductive HypSt where
  | free | live | resolving | gone
  deriving DecidableEq, Repr

/-- An entry of the hypothesis table (R293); outcome 1 confirmed, 2 refuted. -/
structure HypNode where
  gen : BitVec 8 := 0
  st : HypSt := .free
  parent : BitVec 16 := 0
  depth : Nat := 0
  outcome : Nat := 0
  deriving DecidableEq, Repr

/-- A resolution accepted at the home slice (R268, R269, R300): confirm or refute, its handle and its parent at
acceptance, the handles it takes down, the places its wavefront has reached, for each core of the partition the next
unused name when it did, and the handles whose id has been allocated again, each with the next unused name then. -/
structure Resolution where
  confirm : Bool
  handle : BitVec 16
  parent : BitVec 16
  ids : List (BitVec 16)
  applied : List Place := []
  marks : List (Nat × Nat) := []
  complete : Bool := false
  reused : List (BitVec 16 × Nat) := []
  deriving DecidableEq, Repr

/-- An instruction held for the hypothesis home slice's reply (R264): the parts of its unit, 0 HNEW, 1 HSET, 3 HCONF or
4 HREF, each active thread's handle and destination, its words and their number; `dropped` is the time at which the sieve
dropped its packet last (R446). -/
structure HypReq where
  mem : List (Nat × Nat)
  kind : Nat
  part : Nat
  handles : List (Nat × Nat × BitVec 16)
  dst : List (Nat × Nat × DReg)
  words : DWord
  len : Nat
  dropped : Option Nat := none
  deriving DecidableEq, Repr

/-- One outstanding instruction in a warp's counters (R199): 0 %ldc, 1 %stc, 2 %cpc, 3 %tlc; `left` accesses to come. -/
structure Outst where
  wid : Nat
  ctr : Nat
  left : Nat
  iid : Nat
  deriving DecidableEq, Repr

/-- A shootdown running (R277, R387): its range, the unit whose TLBI it is with that instruction's length, and the accesses
it waits for. -/
structure Shootdown where
  asid : Nat
  lo : Nat
  hi : Nat
  fromHost : Bool
  wid : Nat := 0
  sliver : Nat := 0
  len : Nat := 1
  waits : List Nat := []
  deriving DecidableEq, Repr

/-- A queue (R361 to R363): `tail` as last read, `since` when its wait began (`QSTAT.age`), `headAt` the head before the
packet that holds parsing, `conds` a FENCE's conditions still to be met, `drain` a SIGNAL that waits with the launches and
instances it waits for, `flip` a BIAS that runs, `owed` the counter of one that is complete while its update stalls (R100). -/
structure Queue where
  ring : DWord := 0
  tailp : DWord := 0
  headp : DWord := 0
  lsize : Byte := 0
  asid : Byte := 0
  en : Bool := false
  st : Nat := 0
  wait : Nat := 0
  err : Nat := 0
  head : Word := 0
  tail : Word := 0
  since : Nat := 0
  headAt : Word := 0
  conds : List (DWord × DWord) := []
  drain : Option (List Byte × List Nat) := none
  flip : Option (Nat × DWord × DWord × Bool) := none
  owed : Option DWord := none
  deriving DecidableEq, Repr

/-- A slot of the time-triggered table (R375, R376). -/
structure Slot where
  set : Bool := false
  start : Nat := 0
  period : Nat := 0
  img : List Byte := []
  budget : Nat := 0
  policy : Nat := 0
  next : Option Nat := none
  cur : Option Nat := none
  hold : Option Nat := none
  fired : Nat := 0
  skipped : Nat := 0
  preempted : Nat := 0
  overs : Nat := 0
  late : Nat := 0
  last : Nat := 0
  deriving DecidableEq, Repr

/-- A node of a graph instance (R370): its packet, the nodes it follows, its kernel's descriptor as read at the parse, and
whether it is not started, started or complete (0, 1, 2). -/
structure GNode where
  pkt : List Byte
  after : DWord
  desc : KDesc := {}
  st : Nat := 0
  lid : Option Nat := none
  deriving DecidableEq, Repr

/-- A graph instance (R371). -/
structure GraphInst where
  obj : DWord
  q : Nat
  asid : Nat
  params : DWord
  pmem : Nat
  nodes : List GNode
  ctr : DWord
  inc : DWord
  deriving DecidableEq, Repr

/-- TDISP state of a VF (R423). -/
inductive TdSt where
  | unlocked | locked | run | error
  deriving DecidableEq, Repr

/-- The SPDM connection of a VF's DOE mailbox (R428): how far negotiation and the session have come, the stream of its
session and the responses given. -/
structure Spdm where
  version : Bool := false
  caps : Bool := false
  algs : Bool := false
  session : Nat := 0
  stream : Option Nat := none
  rsp : List Byte := []
  deriving DecidableEq, Repr

/-- An entry of the MSI-X table (R470). -/
structure Msix where
  addr : DWord := 0
  data : Word := 0
  ctl : Word := 1
  deriving DecidableEq, Repr

/-- The registers of a VF's BAR2 outside the tables (R381 to R390): `sdheld` a shootdown go that a quiesce holds, `ptpend`
the port write under way, `ptheld` the port's writes that it holds (8 for a `PTADDR` write, else the first byte of a
`PTDATA` write). -/
structure Bar2 where
  asids : Tbl DWord := []
  homes : Tbl (BitVec 16) := []
  fqbase : DWord := 0
  fqctl : Word := 0
  fqtail : Nat := 0
  fqhead : Word := 0
  fqlost : Word := 0
  sdva : DWord := 0
  sdlen : DWord := 0
  sdbusy : Bool := false
  sdheld : Option Word := none
  sddone : BitVec 16 := 0
  ptaddr : DWord := 0
  staging : List Byte := [0, 0, 0, 0, 0, 0, 0, 0]
  ptpend : Option (DWord × DWord) := none
  ptrefused : Bool := false
  ptheld : List (Nat × List Byte) := []
  deriving DecidableEq, Repr

/-- A checkpoint of a partition (R439; log entry 26): its launches, gangs with their images, blocks, held releases and parameter blocks,
its queues, instances, hypothesis table and versions, and the bytes and seals of its vaults by partition physical address. -/
structure Checkpoint where
  launches : Tbl Launch := []
  gangs : Tbl Gang := []
  blocks : Tbl Block := []
  accs : Tbl Access := []
  outst : List Outst := []
  params : Memory := []
  queues : Tbl Queue := []
  insts : Tbl GraphInst := []
  hyp : Tbl HypNode := []
  res : Tbl Resolution := []
  vers : List Version := []
  mem : Memory := []
  seals : Tbl Nat := []
  deriving DecidableEq, Repr

/-- What a quiesce of a partition is for (R451): tiles added, the highest tiles removed, another list of tiles under the
same numbers, deep sleep, a checkpoint, route tables that avoid the links taken down, or a failed core's local tile. -/
inductive Job where
  | grow (tiles : List Nat)
  | shrink (m : Nat)
  | move (tiles : List Nat)
  | sleep
  | checkpoint
  | reembed
  | recover (tile : Nat)
  deriving DecidableEq, Repr

/-- A partition (R360, R418, R423, R428, R444, R454 to R457). `key` names the three keys drawn (R418); `avoid` lists the
links that its route tables avoid (R437); `jobs` are the quiesces begun or asked for, the present one first, and `qsince`
is the time at which the present one began (R451). -/
structure Part where
  tiles : List Nat
  compat : Bool := false
  policy : Nat := 0
  port : Nat := 0
  key : Nat
  trapbase : DWord := 0
  serial : Nat := 1
  share : Nat := 0
  energy : DWord := BitVec.allOnes 64
  meters : Tbl Nat := []
  energyRem : Nat := 0
  lastCount : Tbl Nat := []
  mseq : Nat := 0
  lastSnap : List Byte := []
  hyp : Tbl HypNode := []
  res : Tbl Resolution := []
  b2 : Bar2 := {}
  sds : Tbl Shootdown := []
  rshape : Nat := 0
  wdog : Nat := 0
  td : TdSt := .unlocked
  pdrop : Nat := 0
  ldrop : Nat := 0
  tdlast : Word := 0
  stream : Option Nat := none
  lockDigest : List Byte := []
  spdm : Spdm := {}
  msix : Tbl Msix := []
  pba : DWord := 0
  msixEn : Bool := false
  msixMask : Bool := false
  queues : Tbl Queue := []
  ports : Tbl Nat := []
  slots : Tbl Slot := []
  insts : Tbl GraphInst := []
  frames : List (Nat × Nat) := []
  avoid : List Nat := []
  jobs : List Job := []
  qsince : Nat := 0
  placeCount : Nat := 0
  shape : Option (List Byte) := none
  quiesced : Bool := false
  deferred : List (Nat × Nat) := []
  ckptGen : Nat := 0
  ckpt : Option Checkpoint := none
  wrapped : Option TdSt := none
  deriving DecidableEq, Repr

/-- State of a logical tile (R443). -/
inductive TileSt where
  | free | spare | assigned (part : Nat) | dead
  deriving DecidableEq, Repr

/-- An island (R459, R460); `changed` is the time of its last step, `counted` the ticks of its arithmetic clock up to the
nominal tick `from_` (R2, R64). -/
structure Island where
  step : Nat := 0
  cause : Nat := 0
  lowered : Nat := 0
  power : Nat := 0
  changed : Nat := 0
  counted : Nat := 0
  from_ : Nat := 0
  deriving DecidableEq, Repr

/-- An MSI-X message sent: partition, vector, address, data (R470). -/
structure Message where
  part : Nat
  vec : Nat
  addr : DWord
  data : Word
  deriving DecidableEq, Repr

/-- The tiles of the module: states, sites, routers, slices and RAS counters (R392, R438, R442 to R447). Tables are
keyed by logical tile lx + 40 ly; way masks by 4 x tile + class; `route` lists the route entries that differ from
Griermor's master copy, by (2 x tile + plane) x 2,048 + destination; `softLog` are tile, millisecond and count of the
samples, `warned` tile and millisecond of the warnings (R439). -/
structure Wafer where
  tile : Tbl TileSt := []
  site : Tbl (Nat × Nat) := []
  route : Tbl (BitVec 4) := []
  wm : Tbl (BitVec 16) := []
  sweep : Tbl Nat := []
  soft : Tbl Nat := []
  spareLane : Tbl Word := []
  net : Tbl Nat := []
  linkDown : List Nat := []
  softLog : List (Nat × Nat × Nat) := []
  warned : List (Nat × Nat) := []
  deriving DecidableEq, Repr

/-- The management complex's registers and logs (R429, R438, R447, R460, R461); `yrun` is the request of a verb under way. -/
structure Griermor where
  yreq : Memory := []
  yrun : List Byte := []
  yrsp : Memory := []
  ystatus : Nat := 0
  ybusy : Bool := false
  rsel : Word := 0
  rwarn : Word := 0x00640040
  alog : Tbl (List Byte) := []
  altail : Word := 0
  blog : Tbl (List Byte) := []
  bltail : Word := 0
  svlog : Tbl (List Byte) := []
  svtail : Word := 0
  repairs : List (Nat × List Nat) := []
  lock : Bool := false
  toff : DWord := 0
  pendOff : Int := 0
  islands : Tbl Island := []
  asleep : Bool := false
  lastMs : Nat := 0
  lastSample : Nat := 0
  lastSec : Nat := 0
  keySerial : Nat := 2
  deriving DecidableEq, Repr

/-- What a retired block left in its core's scratchpad and registers (R324, R331; log entry 97): its number, itself as it
retired, and its warps. -/
structure Relic where
  bid : Nat
  block : Block
  warps : Tbl Warp
  deriving DecidableEq, Repr

/-- The machine. `tick` counts periods of the nominal arithmetic clock (R2). `agenda`, `focus`, `chosen` (whether `focus` has
been chosen and issues next), `tried` and `ready` (units found not ready and ready in this tick), `turns` (cores that have still to issue in this
tick), `issued` (whether one has), `landing` (whether the tick's events are landing), `nextId` and `freeCtr` are the model's
own (log entries 2 and 3). -/
structure State where
  agenda : List Instr := []
  focus : Focus := {}
  chosen : Bool := false
  tried : List Focus := []
  ready : List Focus := []
  turns : List Turn := []
  issued : Bool := false
  landing : Bool := true
  nextId : Nat := 1
  freeCtr : Nat := 0
  tick : Nat := 0
  gtime : Nat := 0
  gtskew : Nat := 4000
  warps : Tbl Warp := []
  blocks : Tbl Block := []
  gangs : Tbl Gang := []
  launches : Tbl Launch := []
  parts : Tbl Part := []
  cores : Tbl Core := []
  mixed : List Mixed := []
  accs : Tbl Access := []
  outst : List Outst := []
  ops : Tbl EngineOp := []
  errs : List ObsErr := []
  lids : List Lid := []
  acc : Tbl Word := []
  accTag : Tbl (BitVec 4) := []
  l1 : List L1Line := []
  reg : List Registry := []
  vers : List Version := []
  tlb : List TlbEntry := []
  l2 : List L2Line := []
  hreqs : Tbl HypReq := []
  vault : Memory := []
  seals : Tbl Nat := []
  hostMem : Memory := []
  peerMem : Memory := []
  paramMem : Memory := []
  upsets : List Upset := []
  relics : List Relic := []
  msgs : List Message := []
  wafer : Wafer := {}
  grm : Griermor := {}
  deriving DecidableEq, Repr

/-- Why the machine stops with a fault: never. No rule of the spec stops the module; every trap, record and park is a
next state (R395 to R401). -/
inductive Fault where
  deriving DecidableEq, Repr

/-- Why a step has no meaning. -/
inductive Refusal where
  /-- An instruction that has no meaning in the model; raised only by exec's arms; safe. -/
  | notModelled (mnemonic : String)
  deriving DecidableEq, Repr

/-- Which tiles are spares after reset is Griermor's choice (R443; log entry 7): here the last 24 of the pool. -/
def resetTiles : Nat → Tbl TileSt
  | 0 => []
  | n + 1 => (1560 - (n + 1), .spare) :: resetTiles n

/-- The module right after reset (R442, R443, R63, R429 to R461): no partition, every site working, 24 spares. -/
def State.reset : State := { wafer := { tile := resetTiles 24 } }

end Sys2Proof.Machine
end

