-- ==== Sys2Proof/Machine/Clock.lean ====
section
/-! DEFINITION. Sites, islands and the ticks of a tile (R2, R64, R442, R459): a tick is a period of the island's arithmetic
clock, which runs in a quarter, a half, three quarters or all of the nominal ticks that `State.tick` counts. -/
namespace Sys2Proof.Machine

/-- The physical site of a logical tile (R442): its own coordinates unless reset bound another. -/
def State.siteOf (s : State) (t : Nat) : Nat × Nat := s.wafer.site.getD t (t % 40, t / 40)

/-- The island of a tile's site (R442). -/
def State.islandOf (s : State) (t : Nat) : Nat := 10 * ((s.siteOf t).2 / 4) + (s.siteOf t).1 / 4

def State.island (s : State) (i : Nat) : Island := s.grm.islands.getD i {}

/-- Ticks of an island's clock up to a nominal tick: at 800, 600, 400 or 200 MHz (R459). -/
def Island.ticks (x : Island) (n : Nat) : Nat := x.counted + ((4 - x.step) * n / 4 - (4 - x.step) * x.from_ / 4)

/-- An island goes on at another step from a nominal tick onward; the ticks counted so far stay (R2). -/
def Island.setStep (x : Island) (step n : Nat) : Island := { x with step := step, counted := x.ticks n, from_ := n }

/-- Ticks of a tile since module reset. -/
def State.tileTick (s : State) (tile : Nat) : Nat := (s.island (s.islandOf tile)).ticks s.tick

/-- Ticks of a core since module reset (`%tick`, R63). -/
def State.tickOf (s : State) (core : Nat) : Nat := s.tileTick (core / 4)

/-- The core's clock runs in the present nominal tick. -/
def State.runs (s : State) (core : Nat) : Bool :=
  let x := s.island (s.islandOf (core / 4))
  x.ticks s.tick < x.ticks (s.tick + 1)

end Sys2Proof.Machine
end

