-- ==== Sys2Proof/Machine/Unit.lean ====
section
/-! DEFINITION. Issue units: slivers and mixed warps, their threads, how they move, split and switch quads (R25 to R32,
R224). -/
namespace Sys2Proof.Machine

/-- A thread: a warp and a lane. -/
structure Th where
  wid : Nat
  lane : Nat
  deriving DecidableEq, Repr

/-- Where a thread goes next: a PC, the clause header it belongs to and a call depth. -/
structure Tgt where
  pc : DWord
  hdr : DWord
  depth : Nat
  deriving DecidableEq, Repr

/-- A position at a header: the clause there is not entered yet. -/
def atHeader (a : DWord) (depth : Nat) : Tgt := { pc := a, hdr := a, depth := depth }

/-- What a warp id that names no warp reads as. -/
def noWarp : Warp := { bid := 0, idx := 0, core := 0 }

def State.warp (s : State) (wid : Nat) : Warp := s.warps.getD wid noWarp

def State.onWarp (s : State) (wid : Nat) (f : Warp → Warp) : State :=
  match s.warps.find wid with
  | some w => { s with warps := s.warps.put wid (f w) }
  | none => s

/-- Ticks of a warp's core. -/
def State.warpTick (s : State) (wid : Nat) : Nat := s.tickOf (s.warp wid).core

/-- The OR of the lane masks of a list of groups. -/
def lanesOfGroups (l : List Group) : Word := l.foldl (fun m g => m ||| g.lanes) 0

/-- The running groups of a sliver (R25). -/
def Warp.running (w : Warp) (k : Nat) : List Group := w.groups.filter (fun g => g.pos = 0 && g.sliver = k)

def Warp.sliverLanes (w : Warp) (k : Nat) : Word := lanesOfGroups (w.running k)

/-- The lanes of a warp that have not exited. -/
def Warp.live (w : Warp) : Word := ~~~w.exited

/-- Do these lanes belong to the warp's trap-mode set (R469)? -/
def Warp.inTrap (w : Warp) (lanes : Word) : Bool := w.trapSet &&& lanes ≠ 0

/-- The slivers of a warp, by number, in order of their lowest quad. -/
def Warp.slivers (w : Warp) : List Nat :=
  ((List.range 8).filterMap fun q => (w.groups.find? fun g => g.pos = 0 && g.quad = q).map (·.sliver)).eraseDups

/-- An issue unit as it stands: its parts (warp and sliver), its threads in lane order, and the PC, header, header word,
decoded words and call depth they share, and whether the header's waits are still to be met. -/
structure IssueUnit where
  mem : List (Nat × Nat)
  th : List Th
  pc : DWord
  hdr : DWord
  hw : Word
  code : List Word
  depth : Nat
  waits : Bool
  deriving DecidableEq, Repr

/-- The parts that issue together with a sliver (R31). -/
def State.partsOf (s : State) (f : Focus) : List (Nat × Nat) :=
  match s.mixed.find? (fun m => m.parts.contains (f.wid, f.sliver)) with
  | some m => m.parts
  | none => [(f.wid, f.sliver)]

/-- The running groups of the parts, with their warps. -/
def State.partGroups (s : State) (mem : List (Nat × Nat)) : List (Nat × Group) :=
  mem.flatMap fun p => ((s.warp p.1).running p.2).map fun g => (p.1, g)

/-- The threads of a list of groups, in lane order. -/
def threadsOf (gs : List (Nat × Group)) : List Th :=
  (List.range 32).filterMap fun l =>
    (gs.find? fun x => x.2.lanes.getLsbD l).map fun x => { wid := x.1, lane := l }

/-- The issue unit of a sliver. -/
def State.unitAt (s : State) (f : Focus) : IssueUnit :=
  let mem := s.partsOf f
  let gs := s.partGroups mem
  let g := (gs.head?.map (·.2)).getD { quad := 0, lanes := 0, pc := 0, hdr := 0 }
  { mem := mem, th := threadsOf gs, pc := g.pc, hdr := g.hdr, hw := g.hw, code := g.code, depth := g.depth,
    waits := g.waits }

/-- The issue unit that R42 chose. -/
def State.unit (s : State) : IssueUnit := s.unitAt s.focus

/-- The lanes of a warp among a list of threads. -/
def lanesIn (th : List Th) (wid : Nat) : Word := maskOf ((th.filter (·.wid = wid)).map (·.lane))

/-- The home warps that a list of threads belongs to, in order of their lowest lane. -/
def widsOf (th : List Th) : List Nat := (th.map (·.wid)).eraseDups

/-- The issue unit holds every non-exited thread of each home warp (R34). -/
def State.complete (s : State) (u : IssueUnit) : Bool :=
  (widsOf u.th).all fun wid => (s.warp wid).live = lanesIn u.th wid

/-- Is the unit in trap mode (R469)? A mixed warp never is (R32). -/
def State.trapMode (s : State) (u : IssueUnit) : Bool :=
  match u.mem with
  | [p] => (s.warp p.1).inTrap (lanesIn u.th p.1)
  | _ => false

/-- Words of the clause after its header (R137). -/
def clauseN (hw : Word) : Nat := (hw.extractLsb' 24 4).toNat

/-- The address of the header that follows a clause (R224). -/
def clauseEnd (hdr : DWord) (hw : Word) : DWord := hdr + BitVec.ofNat 64 (4 * (clauseN hw + 1))

/-- The position after an instruction of `len` words: inside the clause, or at the header that follows it. -/
def fallThrough (u : IssueUnit) (len : Nat) : Tgt :=
  let a := u.pc + BitVec.ofNat 64 (4 * len)
  if a = clauseEnd u.hdr u.hw then atHeader a u.depth else { pc := a, hdr := u.hdr, depth := u.depth }

/-- Targets of a set of lanes, each with its lanes, in order of first lane. -/
def pathsOf (next : Nat → Tgt) : List Nat → List (Tgt × List Nat)
  | [] => []
  | l :: ls =>
    let r := pathsOf next ls
    match r.find? (fun p => p.1 = next l) with
    | some p => (next l, l :: p.2) :: r.filter (fun p => p.1 ≠ next l)
    | none => (next l, [l]) :: r

/-- The order of R27: more lanes first, then the lower address, then the lower depth. -/
def pathBefore (p q : Tgt × List Nat) : Bool :=
  p.2.length > q.2.length ||
  (p.2.length = q.2.length && (p.1.pc.toNat < q.1.pc.toNat ||
    (p.1.pc = q.1.pc && p.1.depth ≤ q.1.depth)))

/-- Insertion in the order of R27. -/
def insertPath (p : Tgt × List Nat) : List (Tgt × List Nat) → List (Tgt × List Nat)
  | [] => [p]
  | q :: r => if pathBefore p q then p :: q :: r else q :: insertPath p r

def sortPaths (l : List (Tgt × List Nat)) : List (Tgt × List Nat) := l.foldr insertPath []

/-- A group moved to a target: the header word stays only inside the same clause. -/
def Group.goTo (g : Group) (t : Tgt) (lanes : List Nat) : Group :=
  { g with pc := t.pc, hdr := t.hdr, hw := if t.hdr = g.hdr && t.pc ≠ t.hdr then g.hw else 0,
           code := if t.hdr = g.hdr && t.pc ≠ t.hdr then g.code else [], depth := t.depth, lanes := maskOf lanes, st := .running,
           passed := false, waits := false, skip := 0, mark := 0 }

/-- The groups a running group becomes (R26, R27): the path with more lanes runs, the others join the quad's queue,
which holds `n` groups. -/
def splitGroup (next : Nat → Tgt) (n : Nat) (g : Group) : List Group :=
  match sortPaths (pathsOf next (lanesOf g.lanes)) with
  | [] => [g]
  | p :: ps => g.goTo p.1 p.2 :: (ps.zipIdx.map fun x => { g.goTo x.1.1 x.1.2 with pos := n + x.2 })

/-- Number of groups of a quad. -/
def quadCount (gs : List Group) (q : Nat) : Nat := (gs.filter (·.quad = q)).length

/-- Slivers of the running groups of one old sliver: groups at one PC and depth keep one number; the first keeps `k`,
the others take fresh numbers (R26). -/
def numberSlivers (k : Nat) : List Group → Nat → List (Tgt × Nat) → List Group × Nat
  | [], fresh, _ => ([], fresh)
  | g :: gs, fresh, seen =>
    if g.pos = 0 && g.sliver = k then
      let t : Tgt := { pc := g.pc, hdr := g.hdr, depth := g.depth }
      match seen.find? (fun p => p.1 = t) with
      | some p =>
        let r := numberSlivers k gs fresh seen
        ({ g with sliver := p.2 } :: r.1, r.2)
      | none =>
        let num := if seen.isEmpty then k else fresh
        let r := numberSlivers k gs (if seen.isEmpty then fresh else fresh + 1) ((t, num) :: seen)
        ({ g with sliver := num } :: r.1, r.2)
    else
      let r := numberSlivers k gs fresh seen
      (g :: r.1, r.2)

/-- A sliver whose threads go to their next places (R26, R27, R224). -/
def Warp.move (w : Warp) (k : Nat) (next : Nat → Tgt) : Warp :=
  let gs := w.groups.flatMap fun g =>
    if g.pos = 0 && g.sliver = k then splitGroup next (quadCount w.groups g.quad) g else [g]
  let r := numberSlivers k gs w.nextSliver []
  { w with groups := r.1, nextSliver := r.2 }

/-- One quad's queue turned (R28): the running group goes to the tail, the head runs as a sliver of its own. -/
def Warp.turnQuad (w : Warp) (q : Nat) : Warp :=
  let n := quadCount w.groups q
  if n < 2 then w
  else
    { w with
      groups := w.groups.map fun g =>
        if g.quad ≠ q then g
        else if g.pos = 0 then { g with pos := n - 1 }
        else if g.pos = 1 then { g with pos := 0, sliver := w.nextSliver }
        else { g with pos := g.pos - 1 }
      nextSliver := w.nextSliver + 1 }

/-- A group that waits in a barrier. -/
def Group.inBar (g : Group) : Bool := g.st = .atBar || g.st = .atGbar

/-- A head that waits in a barrier gives way while another group of the quad does not (R28, R45; log entry 16). -/
def Warp.passBar (w : Warp) (q : Nat) : Nat → Warp
  | 0 => w
  | n + 1 =>
    if (w.groups.any fun g => g.quad = q && g.pos = 0 && g.inBar) && (w.groups.any fun g => g.quad = q && !g.inBar) then
      (w.turnQuad q).passBar q n
    else w

/-- A quad switch point of one quad (R28). -/
def Warp.switchQuad (w : Warp) (q : Nat) : Warp := (w.turnQuad q).passBar q 4

/-- Quads of a sliver. -/
def Warp.quadsOf (w : Warp) (k : Nat) : List Nat := (w.running k).map (·.quad)

/-- A quad switch point of a sliver (R28). -/
def Warp.switchPoint (w : Warp) (k : Nat) : Warp := (w.quadsOf k).foldl Warp.switchQuad w

/-- A running group left without lanes gives its quad to the head of the queue (R28, R231). -/
def Warp.promote (w : Warp) (q : Nat) : Warp :=
  if (w.groups.any fun g => g.quad = q && g.pos = 0) || quadCount w.groups q = 0 then w
  else
    { w with
      groups := w.groups.map fun g =>
        if g.quad ≠ q then g
        else if g.pos = 1 then { g with pos := 0, sliver := w.nextSliver }
        else { g with pos := g.pos - 1 }
      nextSliver := w.nextSliver + 1 }

/-- Lanes retire (R22, R231): they leave their groups, their loop levels end, and empty groups vanish. -/
def Warp.retire (w : Warp) (lanes : Word) : Warp :=
  let w := { w with
    exited := w.exited ||| lanes
    trapSet := w.trapSet &&& ~~~lanes
    frames := w.frames.map fun p => (p.1, { p.2 with active := p.2.active &&& ~~~lanes })
    groups := (w.groups.map fun g => { g with lanes := g.lanes &&& ~~~lanes }).filter fun g => g.lanes ≠ 0 }
  (List.range 8).foldl (fun w q => (w.promote q).passBar q 4) w

/-- Mixed warps whose parts still run; one with fewer than two parts dissolves. -/
def State.tidyMixed (s : State) : State :=
  { s with mixed := (s.mixed.map fun m =>
      { m with parts := m.parts.filter fun p => ((s.warp p.1).running p.2) ≠ [] }).filter fun m => m.parts.length ≥ 2 }

/-- A mixed warp becomes slivers of its home warps again (R32). -/
def State.dissolve (s : State) (mem : List (Nat × Nat)) : State :=
  { s with mixed := s.mixed.filter fun m => !(m.parts.any fun p => mem.contains p) }

/-- The unit cannot issue at this tick and stays where it is (R42: it is not ready). -/
def State.stall (s : State) : State := { s with tried := s.focus :: s.tried }

/-- Every thread of the unit goes to its next place; a divergence dissolves a mixed warp (R26, R32, R224). -/
def State.moveUnit (s : State) (u : IssueUnit) (next : Th → Tgt) : State :=
  let s := u.mem.foldl (fun s p => s.onWarp p.1 fun w =>
    { w.move p.2 (fun l => next { wid := p.1, lane := l }) with depSince := none }) s
  let s := if ((u.th.map next).eraseDups).length > 1 then s.dissolve u.mem else s
  s.tidyMixed

/-- Quads whose running groups reach a quad switch point. -/
def State.switchQuads (s : State) (l : List (Nat × Nat)) : State :=
  (l.foldl (fun s p => s.onWarp p.1 fun w => w.switchQuad p.2) s).tidyMixed

/-- Every part of the unit reaches a quad switch point (R28). -/
def State.switchUnit (s : State) (u : IssueUnit) : State :=
  (u.mem.foldl (fun s p => s.onWarp p.1 fun w => w.switchPoint p.2) s).tidyMixed

/-- The unit goes on with the next word (R224). -/
def State.advance (s : State) (u : IssueUnit) (len : Nat) : State := s.moveUnit u fun _ => fallThrough u len

/-- The running groups of the unit with a state of their own (R29, R47, R278). -/
def State.setSt (s : State) (u : IssueUnit) (f : Group → Group) : State :=
  u.mem.foldl (fun s p => s.onWarp p.1 fun w =>
    { w with groups := w.groups.map fun g => if g.pos = 0 && g.sliver = p.2 then f g else g }) s

end Sys2Proof.Machine
end

