-- ==== Sys2Proof/Machine/Mem.lean ====
section
/-! DEFINITION. Global memory below the cores: frames and their seals (R380, R417 to R422), the slice's L2 (R392, R393),
the walk and the slice TLB (R381 to R385), home slices, word ownership and the L1 copies (R77 to R83, R298). -/
namespace Sys2Proof.Machine

/-- A trap cause: class and detail (R395). -/
def cz (cls det : Nat) : Nat := 8 * cls + det

def noPart : Part := { tiles := [], key := 0 }

def State.part (s : State) (p : Nat) : Part := s.parts.getD p noPart

def State.onPart (s : State) (p : Nat) (f : Part → Part) : State :=
  match s.parts.find p with
  | some x => { s with parts := s.parts.put p (f x) }
  | none => s

/-- A meter of a partition grows and stops at all ones (R454). -/
def State.meter (s : State) (p k n : Nat) : State :=
  s.onPart p fun P => { P with meters := P.meters.put k (min (P.meters.getD k 0 + n) (2 ^ 64 - 1)) }

/-- The partition that holds a logical tile. -/
def State.tileOwner (s : State) (tile : Nat) : Option Nat :=
  match s.wafer.tile.find tile with
  | some (.assigned p) => some p
  | _ => none

/-- A line moved between a slice and its vault (R454 counter 5). -/
def State.meterLine (s : State) (tile space : Nat) : State :=
  match (if space = 0 then s.tileOwner tile else none) with
  | some p => s.meter p 5 128
  | none => s

/-- The module physical address of a PPA: the logical tile in bits from 33 up (log entry 15); none beyond the
partition's tiles or a vault's 6 GiB (R380). -/
def Part.mpa (P : Part) (ppa : Nat) : Option Nat :=
  match P.tiles[ppa / 2 ^ 33]? with
  | some t => if ppa % 2 ^ 33 < Config.vaultBytes then some (t * 2 ^ 33 + ppa % 2 ^ 33) else none
  | none => none

/-- The memory of a space: 0 device vaults, 1 host, 2 peer-lent, 3 parameter pages. -/
def State.space (s : State) : Nat → Memory
  | 0 => s.vault
  | 1 => s.hostMem
  | 2 => s.peerMem
  | _ => s.paramMem

def State.setSpace (s : State) (sp : Nat) (m : Memory) : State :=
  match sp with
  | 0 => { s with vault := m }
  | 1 => { s with hostMem := m }
  | 2 => { s with peerMem := m }
  | _ => { s with paramMem := m }

/-- The name under which the seal of a 128-byte line is kept. -/
def sealKey (space addr : Nat) : Nat := addr / 128 * 4 + space

/-- The seal of a line: 1 plain, a key's name from 2 up; none when nothing was written there (log entry 6). -/
def State.seal (s : State) (space addr : Nat) : Option Nat := s.seals.find (sealKey space addr)

/-- The seal that an access uses: the partition's key for an encrypted page, else plain. -/
def sealName (P : Part) (enc : Bool) : Nat := if enc then P.key else 1

/-- Is an uncorrectable line error pending on a line of a frame (R433, R434)? -/
def State.lineUpset (s : State) (space addr : Nat) : Bool :=
  s.upsets.any fun u => u = .line space (addr / 128 * 128)

/-- The storage address of a byte: a device frame's PPA, a host or lender address as it stands (R419). -/
def Part.storageAddr (P : Part) (space addr : Nat) : Nat :=
  if space = 0 then P.tiles.idxOf (addr / 2 ^ 33) * 2 ^ 33 + addr % 2 ^ 33 else addr

/-- Bytes of a frame that were written under one seal, as they read under another (R417, R419): each block of 16 bytes is
stored under the first and opened under the second. -/
def State.viewRun (s : State) (P : Part) (old new space addr n : Nat) : List Byte :=
  let m := s.space space
  if old = new then Memory.rdN m addr n
  else
    let blocks := (List.range ((addr % 16 + n + 15) / 16)).flatMap fun i =>
      let a := addr / 16 * 16 + 16 * i
      openBlock new (P.storageAddr space a) (sealBlock old (P.storageAddr space a) (Memory.rdN m a 16))
    (blocks.drop (addr % 16)).take n

/-- Bytes of one line of a frame, read under a key: an uncorrectable line error, then the MAC (R420, R433); a line that
nothing has written carries a fresh MAC (log entry 6). -/
def State.rdFrame (s : State) (P : Part) (enc : Bool) (space addr n : Nat) : Except Nat (List Byte) :=
  if s.lineUpset space addr then .error (cz 0x17 1)
  else
    match s.seal space addr with
    | none => .ok (Memory.rdN (s.space space) addr n)
    | some k =>
      if enc && space = 0 && k ≠ P.key then .error (cz 0x17 0)
      else .ok (s.viewRun P k (sealName P enc) space addr n)

/-- Bytes of one line of a frame written under a key: the line takes the key's seal and a whole line written ends its
upset (R434). -/
def State.wrFrame (s : State) (P : Part) (enc : Bool) (space addr : Nat) (bytes : List Byte) : State :=
  let new := sealName P enc
  let base := addr / 128 * 128
  let m := s.space space
  let m := match s.seal space addr with
    | none => m
    | some k => if k = new then m else Memory.wrN m base (s.viewRun P k new space base 128)
  let s := s.setSpace space (Memory.wrN m addr bytes)
  { s with
    seals := s.seals.put (sealKey space addr) new
    upsets := if bytes.length = 128 then s.upsets.filter (fun u => u ≠ .line space base) else s.upsets }

/-! ### L2 -/

/-- The set of a line (R392). -/
def l2Set (addr : Nat) : Nat := addr / 128 % 8192

def State.l2Find (s : State) (tile space line : Nat) : Option L2Line :=
  s.l2.find? fun l => l.tile = tile && l.space = space && l.addr = line

/-- The class of a PTE's page (R382). -/
def pteClass (pte : DWord) : Nat := (pte.extractLsb' 5 2).toNat

/-- Encrypted under the partition key; T = 1 counts as E = 1 (R422). -/
def pteEnc (pte : DWord) : Bool := pte.getLsbD 8 || pte.getLsbD 9

/-- The set bytes of a line overlay, with their offsets. -/
def dirtyRuns (d : BitVec 128) (m : Memory) : List (Nat × Byte) :=
  ((List.range 128).filter fun i => d.getLsbD i).map fun i => (i, Memory.rd m i)

/-- A dirty line written to its frame (R393). -/
def State.l2Write (s : State) (P : Part) (l : L2Line) : State :=
  let s := if l.dirty = 0 then s else s.meterLine l.tile l.space
  if l.dirty = BitVec.allOnes 128 then s.wrFrame P l.enc l.space l.addr (Memory.rdN l.data 0 128)
  else (dirtyRuns l.dirty l.data).foldl (fun s b => s.wrFrame P l.enc l.space (l.addr + b.1) [b.2]) s

/-- The line leaves the slice. -/
def State.l2Drop (s : State) (l : L2Line) : State :=
  { s with l2 := s.l2.filter fun x => !(x.tile = l.tile && x.space = l.space && x.addr = l.addr) }

/-- The way mask of a class at a tile (R392). -/
def State.wayMask (s : State) (tile cls : Nat) : BitVec 16 := s.wafer.wm.getD (4 * tile + cls) 0xFFFF

/-- The least recently used of a list of lines. -/
def lruOf : List L2Line → Option L2Line
  | [] => none
  | l :: ls => match lruOf ls with
    | none => some l
    | some m => if l.used ≤ m.used then some l else some m

/-- A line of a slice, filled if it is absent (R393): the lowest invalid way the mask allows, else the least recently
used line there, written back when dirty; none when the class's mask is zero and the fill bypasses the slice. -/
def State.l2Fill (s : State) (P : Part) (tile space line cls : Nat) (enc : Bool) : State × Option L2Line :=
  match s.l2Find tile space line with
  | some l => (s, some l)
  | none =>
    let mask := s.wayMask tile cls
    let set := s.l2.filter fun l => l.tile = tile && l2Set l.addr = l2Set line && mask.getLsbD l.way
    let freeWay := (List.range 16).find? fun w => mask.getLsbD w &&
      !(s.l2.any fun l => l.tile = tile && l2Set l.addr = l2Set line && l.way = w)
    let mk (w : Nat) : L2Line :=
      { tile := tile, space := space, addr := line, cls := cls, way := w, used := s.nextId, enc := enc }
    let s := s.meterLine tile space
    match freeWay with
    | some w => ({ s with l2 := mk w :: s.l2, nextId := s.nextId + 1 }, some (mk w))
    | none =>
      match lruOf set with
      | some v =>
        let s := (s.l2Write P v).l2Drop v
        ({ s with l2 := mk v.way :: s.l2, nextId := s.nextId + 1 }, some (mk v.way))
      | none => (s, none)

/-- A line as it stands in the list, replaced. -/
def State.l2Put (s : State) (l : L2Line) : State :=
  { s with
    l2 := s.l2.map fun x => if x.tile = l.tile && x.space = l.space && x.addr = l.addr then { l with used := s.nextId } else x
    nextId := s.nextId + 1 }

/-- A translated address: space, physical address, the leaf and its level. -/
structure Leaf where
  space : Nat
  addr : Nat
  pte : DWord
  level : Nat
  deriving DecidableEq, Repr

/-- Device bias: every device page, and host and peer pages whose bias bit is set (R99). -/
def Leaf.devBias (lf : Leaf) : Bool := lf.space = 0 || lf.pte.getLsbD 7

/-- Bytes at the home slice (R80, R297): the written bytes of its L2 line over the frame's; the frame is read only
when some byte is not in the line. -/
def State.slice (s : State) (P : Part) (tile : Nat) (lf : Leaf) (n : Nat) : Except Nat (List Byte) :=
  if s.lineUpset lf.space lf.addr then .error (cz 0x17 1)
  else
    let off := lf.addr % 128
    match s.l2Find tile lf.space (lf.addr / 128 * 128) with
    | some l =>
      if (List.range n).all fun i => l.dirty.getLsbD (off + i) then .ok (Memory.rdN l.data off n)
      else
        match s.rdFrame P (pteEnc lf.pte) lf.space lf.addr n with
        | .error c => .error c
        | .ok bs => .ok (bs.zipIdx.map fun b => if l.dirty.getLsbD (off + b.2) then Memory.rd l.data (off + b.2) else b.1)
    | none => s.rdFrame P (pteEnc lf.pte) lf.space lf.addr n

/-- A read's effect on the slice: its line is filled and becomes the most recently used (R393). -/
def State.sliceTouch (s : State) (P : Part) (tile : Nat) (lf : Leaf) : State :=
  if lf.space = 3 then s
  else
    let r := s.l2Fill P tile lf.space (lf.addr / 128 * 128) (pteClass lf.pte) (pteEnc lf.pte)
    match r.2 with
    | some l => r.1.l2Put l
    | none => r.1

/-- Bytes written at the home slice, each with its offset from the leaf's address: into its L2 line, into the frame
when the class bypasses the slice (R393), and through to memory for a host-bias page (R99). -/
def State.sliceWrite (s : State) (P : Part) (tile : Nat) (lf : Leaf) (bytes : List (Nat × Byte)) : State :=
  if bytes = [] then s
  else if !lf.devBias then
    bytes.foldl (fun s b => s.wrFrame P (pteEnc lf.pte) lf.space (lf.addr + b.1) [b.2]) s
  else
    let r := s.l2Fill P tile lf.space (lf.addr / 128 * 128) (pteClass lf.pte) (pteEnc lf.pte)
    match r.2 with
    | some l =>
      let off := lf.addr % 128
      let l := bytes.foldl (fun (l : L2Line) b =>
        { l with dirty := l.dirty ||| (1#128 <<< (off + b.1)), data := Memory.wr l.data (off + b.1) b.2 }) l
      let s := r.1.l2Put { l with enc := pteEnc lf.pte }
      if l.dirty = BitVec.allOnes 128 then
        { s with upsets := s.upsets.filter (fun u => u ≠ .line lf.space (lf.addr / 128 * 128)) }
      else s
    | none => bytes.foldl (fun s b => s.wrFrame P (pteEnc lf.pte) lf.space (lf.addr + b.1) [b.2]) r.1

/-! ### Homes and walks -/

/-- The home map entry of a virtual page (R388). -/
def homeIndex (va : DWord) : Nat :=
  (va.extractLsb' 40 12 ^^^ va.extractLsb' 28 12 ^^^ va.extractLsb' 16 12).toNat

/-- The partition-local tile that homes a virtual page; none for an entry that is invalid (R388). -/
def Part.home (P : Part) (va : DWord) : Option Nat :=
  let e := P.b2.homes.getD (homeIndex va) 0
  if e.getLsbD 15 && (e.extractLsb' 0 11).toNat < P.tiles.length then some (e.extractLsb' 0 11).toNat else none

/-- The logical tile that homes a virtual page. -/
def Part.homeTile (P : Part) (va : DWord) : Option Nat := (P.home va).bind fun t => P.tiles[t]?

/-- Why a walk failed: its cause, the level (7 before the walk) and the entry (R391). -/
structure WalkFail where
  cause : Nat
  level : Nat
  pte : DWord
  deriving DecidableEq, Repr

/-- The bytes that a leaf of a level maps (R382). -/
def levelBytes (level : Nat) : Nat := 2 ^ (16 + 12 * level)

/-- The index a level takes from a virtual address (R382). -/
def levelIndex (va : DWord) (level : Nat) : Nat := (va.toNat / levelBytes level) % 4096

/-- A PPA that names a table: bits [47:16] of the field, in the partition's tiles and below 6 GiB (R383). -/
def Part.tableAt (P : Part) (field : DWord) : Option Nat :=
  let ppa := field.toNat / 65536 * 65536
  if ppa < 2 ^ 48 then P.mpa ppa else none

/-- The 8 bytes of an entry (R382), read at its frame (R386). -/
def State.entryAt (s : State) (P : Part) (table idx : Nat) : Except Nat DWord :=
  match s.rdFrame P true 0 (table + 8 * idx) 8 with
  | .ok bs => .ok (BitVec.ofNat 64 (leNat bs))
  | .error c => .error c

/-- Step 6 of R383 for a leaf: its space and address, none when it is ill formed. -/
def Part.leafAt (P : Part) (pte : DWord) (va : DWord) (level : Nat) : Option Leaf :=
  let size := levelBytes level
  let off := va.toNat % size
  if pte.extractLsb' 14 2 ≠ 0 then none
  else
    match (pte.extractLsb' 12 2).toNat with
    | 0 =>
      let f := pte.toNat / 65536 * 65536
      if level = 2 || f % size ≠ 0 || 2 ^ 48 ≤ f then none
      else if f % 2 ^ 33 + size ≤ Config.vaultBytes then
        (P.mpa f).map fun a => { space := 0, addr := a + off, pte := pte, level := level }
      else none
    | 1 =>
      let f := pte.toNat / 65536 * 65536
      if f % size ≠ 0 then none else some { space := 1, addr := f + off, pte := pte, level := level }
    | 2 =>
      let f := pte.toNat / 65536 * 65536 % 2 ^ 59
      if f % size ≠ 0 || 24 ≤ pte.toNat / 2 ^ 59 then none
      else some { space := 2, addr := pte.toNat / 2 ^ 59 * 2 ^ 59 + f + off, pte := pte, level := level }
    | _ => none

/-- One level of a walk (R383 steps 4 to 6): the leaf with the physical address of its entry, or the next table. -/
def State.walkLevel (s : State) (P : Part) (va : DWord) (table level : Nat) : Except WalkFail (Sum (Leaf × Nat) Nat) :=
  match s.entryAt P table (levelIndex va level) with
  | .error _ => .error { cause := cz 0x11 5, level := level, pte := 0 }
  | .ok pte =>
    if !(pte.getLsbD 0) then .error { cause := cz 0x11 0, level := level, pte := pte }
    else if pte.getLsbD 4 then
      match P.leafAt pte va level with
      | some lf => .ok (.inl (lf, table + 8 * levelIndex va level))
      | none => .error { cause := cz 0x11 2, level := level, pte := pte }
    else if level = 0 || pte.extractLsb' 1 15 ≠ 0 then .error { cause := cz 0x11 2, level := level, pte := pte }
    else
      match P.tableAt pte with
      | some t => .ok (.inr t)
      | none => .error { cause := cz 0x11 2, level := level, pte := pte }

/-- A walk from a level down (R383). -/
def State.walkFrom (s : State) (P : Part) (va : DWord) : Nat → Nat → Except WalkFail (Leaf × Nat)
  | 0, table =>
    match s.walkLevel P va table 0 with
    | .ok (.inl r) => .ok r
    | .ok (.inr _) => .error { cause := cz 0x11 2, level := 0, pte := 0 }
    | .error f => .error f
  | l + 1, table =>
    match s.walkLevel P va table (l + 1) with
    | .ok (.inl r) => .ok r
    | .ok (.inr t) => s.walkFrom P va l t
    | .error f => .error f

/-- The parameter page that holds a virtual address (R352, R75, R371): that of a launch of its ASID, or of a graph instance,
which keeps its page while no node of it runs. -/
def State.paramHit (s : State) (p asid : Nat) (va : DWord) : Option Nat :=
  let page := va >>> 16 <<< 16
  match s.launches.find? fun l => l.2.part = p && l.2.asid = asid && l.2.params = page with
  | some l => some l.2.pmem
  | none => ((s.part p).insts.find? fun i => i.2.asid = asid && i.2.params = page).map fun i => i.2.pmem

/-- Steps 1 to 6 of R383. -/
def State.walk (s : State) (p asid : Nat) (va : DWord) : Except WalkFail (Leaf × Nat) :=
  let P := s.part p
  let root := P.b2.asids.getD asid 0
  if va.extractLsb' 52 12 ≠ 0 then .error { cause := cz 0x11 1, level := 7, pte := 0 }
  else if !(root.getLsbD 0) then .error { cause := cz 0x11 4, level := 7, pte := 0 }
  else if (P.home va).isNone then .error { cause := cz 0x11 3, level := 7, pte := 0 }
  else
    match s.paramHit p asid va with
    | some m =>
      .ok ({ space := 3, addr := m * 65536 + va.toNat % 65536, pte := 0x13, level := 0 }, 0)
    | none =>
      match P.tableAt root with
      | some t => s.walkFrom P va 2 t
      | none => .error { cause := cz 0x11 2, level := 2, pte := 0 }

/-- Step 7 of R383. -/
def permit (pte : DWord) : WalkKind → Option Nat
  | .load | .engineRead | .queue => if pte.getLsbD 1 then none else some (cz 0x12 0)
  | .store | .engineWrite | .queueWrite => if pte.getLsbD 2 then none else some (cz 0x12 1)
  | .atomic => if !(pte.getLsbD 1) then some (cz 0x12 0) else if pte.getLsbD 2 then none else some (cz 0x12 1)
  | .fetch => if pte.getLsbD 3 then none else some (cz 0x12 2)
  | .cwb => none

/-- Does an access of this kind set D (R385)? -/
def writesPage : WalkKind → Bool
  | .store | .atomic | .engineWrite | .queueWrite => true
  | _ => false

/-- A TLB entry of a slice that covers a virtual address (R384). -/
def State.tlbHit (s : State) (p tile asid : Nat) (va : DWord) : Option TlbEntry :=
  s.tlb.find? fun e => e.part = p && e.tile = tile && e.asid = asid && e.page = va.toNat / levelBytes e.level

/-- The leaf with a bit, A (0x400) or D (0x800), set at the frame as an atomic OR (R385). -/
def State.markLeaf (s : State) (P : Part) (at_ : Nat) (bit : DWord) : State :=
  match s.rdFrame P true 0 at_ 8 with
  | .ok bs =>
    let pte := BitVec.ofNat 64 (leNat bs) ||| bit
    s.wrFrame P true 0 at_ (natLe 8 pte.toNat)
  | .error _ => s

/-- A translation at the home slice: through its TLB when an entry covers the page, else by a walk that fills one
(R383 to R385). The state after it, and the leaf or the failure. -/
def State.translate (s : State) (p asid : Nat) (va : DWord) (kind : WalkKind) : State × Except WalkFail Leaf :=
  let P := s.part p
  let tile := ((P.home va).getD 0)
  let finish (s : State) (lf : Leaf) (at_ : Nat) : State × Except WalkFail Leaf :=
    match permit lf.pte kind with
    | some c => (s, .error { cause := c, level := lf.level, pte := lf.pte })
    | none =>
      if writesPage kind && !(lf.pte.getLsbD 11) && lf.space ≠ 3 then
        let s := s.markLeaf P at_ 0x800
        ({ s with tlb := s.tlb.map fun e =>
            if e.part = p && e.tile = tile && e.asid = asid && e.addr = at_ then { e with pte := e.pte ||| 0x800 } else e },
          .ok { lf with pte := lf.pte ||| 0x800 })
      else (s, .ok lf)
  match (if va.extractLsb' 52 12 = 0 then s.tlbHit p tile asid va else none) with
  | some e =>
    match P.leafAt e.pte va e.level with
    | some lf => finish s lf e.addr
    | none => (s, .error { cause := cz 0x11 2, level := e.level, pte := e.pte })
  | none =>
    match s.walk p asid va with
    | .error f => (s, .error f)
    | .ok (lf, at_) =>
      if lf.space = 3 || (permit lf.pte kind).isSome then finish s lf at_
      else
        let s := s.markLeaf P at_ 0x400
        let pte := lf.pte ||| 0x400
        let e : TlbEntry := { part := p, tile := tile, asid := asid, level := lf.level,
                              page := va.toNat / levelBytes lf.level, pte := pte, addr := at_ }
        let mine (x : TlbEntry) : Bool := x.part = p && x.tile = tile
        let s := { s with tlb := (e :: s.tlb.filter mine).take Config.tlbEntries ++ s.tlb.filter fun x => !(mine x) }
        finish s { lf with pte := pte } at_

/-! ### Ownership and L1 copies -/

/-- The virtual line of an address. -/
def lineOf (va : DWord) : Nat := va.toNat / 128

def State.regFind (s : State) (p asid line : Nat) : Option Registry :=
  s.reg.find? fun r => r.part = p && r.asid = asid && r.line = line

def State.regPut (s : State) (r : Registry) : State :=
  { s with reg := (if r.mask = 0 && r.lost = 0 then [] else [r]) ++
      s.reg.filter fun x => !(x.part = r.part && x.asid = r.asid && x.line = r.line) }

def State.l1Find (s : State) (core p asid line hid : Nat) : Option L1Line :=
  s.l1.find? fun l => l.core = core && l.part = p && l.asid = asid && l.line = line && l.hid = hid

def State.l1Put (s : State) (l : L1Line) : State :=
  { s with l1 := (if l.valid = 0 then [] else [l]) ++
      s.l1.filter fun x => !(x.core = l.core && x.part = l.part && x.asid = l.asid && x.line = l.line && x.hid = l.hid) }

/-- The words of a line that a run of bytes touches. -/
def wordsTouched (off n : Nat) : Word :=
  ((List.range 32).filter fun w => off < 4 * w + 4 && 4 * w < off + n).foldl (fun m w => m ||| (1#32 <<< w)) 0

/-- The words of a line that a run of bytes covers whole. -/
def wordsWhole (off n : Nat) : Word :=
  ((List.range 32).filter fun w => off ≤ 4 * w && 4 * w + 4 ≤ off + n).foldl (fun m w => m ||| (1#32 <<< w)) 0

/-- A mask of bytes off to off + n - 1 of a line. -/
def byteMask (off n : Nat) : BitVec 128 := ((BitVec.allOnes 128) >>> (128 - n)) <<< off

/-- The bytes of a word mask. -/
def wordBytesMask (m : Word) : BitVec 128 :=
  (List.range 32).foldl (fun a w => if m.getLsbD w then a ||| byteMask (4 * w) 4 else a) 0

/-- The leaf of the line that holds an address. -/
def Leaf.ofLine (lf : Leaf) : Leaf := { lf with addr := lf.addr / 128 * 128 }

/-- An owner's write-back (R78, R79): the dirty bytes of its owned words in the line go to the home slice, and it
drops ownership; its copies stay valid and clean. -/
def State.forceBack (s : State) (p asid line tile : Nat) (lf : Leaf) : State :=
  match s.regFind p asid line with
  | none => s
  | some r =>
    let s := match s.l1Find r.core p asid line 0 with
      | none => s
      | some l =>
        let bytes := dirtyRuns (l.dirty &&& wordBytesMask r.mask) l.data
        let s := s.sliceWrite (s.part p) tile lf.ofLine bytes
        s.l1Put { l with dirty := l.dirty &&& ~~~(wordBytesMask r.mask), owned := l.owned &&& ~~~r.mask }
    s.regPut { r with mask := 0 }

/-- Committed bytes as the home slice answers them, forwarding to an owner (R80): the owner's merged bytes over the
slice's. A word marked owner-lost answers OWNER_LOST (R441). -/
def State.committed (s : State) (p asid tile : Nat) (lf : Leaf) (va : DWord) (n : Nat) : Except Nat (List Byte) :=
  let P := s.part p
  match s.regFind p asid (lineOf va) with
  | none => s.slice P tile lf n
  | some r =>
    let off := va.toNat % 128
    if r.lost &&& wordsTouched off n ≠ 0 then .error (cz 0x16 0)
    else
      match s.l1Find r.core p asid (lineOf va) 0 with
      | none => s.slice P tile lf n
      | some l =>
        let own : BitVec 128 := wordBytesMask r.mask &&& l.dirty
        if (List.range n).all fun i => own.getLsbD (off + i) then .ok (Memory.rdN l.data off n)
        else
          match s.slice P tile lf n with
          | .error c => .error c
          | .ok bs => .ok (bs.zipIdx.map fun b => if own.getLsbD (off + b.2) then Memory.rd l.data (off + b.2) else b.1)

/-! ### Hypotheses at a place (R293, R297, R300) -/

/-- The handle that a handle stands for after some of the resolutions: that of the node it was confirmed into, or none
when it was refuted or names no node (R269, R300, R301). -/
def Part.effBy (P : Part) (seen : Resolution → Bool) (h : BitVec 16) : Option (BitVec 16) :=
  P.res.foldl (fun (r : Option (BitVec 16)) x => r.bind fun h =>
    if !(seen x.2) then some h
    else if x.2.confirm then (if h = x.2.handle then some x.2.parent else some h)
    else if x.2.ids.contains h then none else some h) (some h)

/-- The ids of a handle and its ancestors without the root, deepest first, after some of the resolutions. -/
def Part.chainBy (P : Part) (seen : Resolution → Bool) (hyp : BitVec 16) : Nat → List Nat
  | 0 => []
  | n + 1 =>
    let id := (hyp.extractLsb' 0 8).toNat
    if id = 0 then []
    else
      let up := (P.hyp.getD id {}).parent
      id :: P.chainBy seen ((P.effBy seen up).getD up) n

/-- A resolution has reached a place; one that is complete has reached every place (R300). -/
def Resolution.at_ (r : Resolution) (place : Place) : Bool := r.complete || r.applied.contains place

/-- The handle that a handle stands for at a place, after the resolutions that have reached it. -/
def Part.effHyp (P : Part) (place : Place) (h : BitVec 16) : Option (BitVec 16) := P.effBy (·.at_ place) h

/-- The chain of a hypothesis at a place (R297, R299). -/
def Part.chainAt (P : Part) (place : Place) (hyp : BitVec 16) (n : Nat) : List Nat := P.chainBy (·.at_ place) hyp n

/-- A handle and its ancestors as the table has them, the root's last: the view of what is issued under it (R297). -/
def Part.handles (P : Part) (hyp : BitVec 16) : Nat → List (BitVec 16)
  | 0 => [0]
  | n + 1 =>
    let id := (hyp.extractLsb' 0 8).toNat
    if id = 0 then [0] else hyp :: P.handles (P.hyp.getD id {}).parent n

/-- What a view is at a place: each handle's stand-in there, deepest first; refuted ones are left out (R297, R300). -/
def Part.viewAt (P : Part) (place : Place) (chain : List (BitVec 16)) : List (BitVec 16) :=
  (chain.filterMap (P.effHyp place)).eraseDups

/-- The number of a core among those of its partition. -/
def Part.localCore (P : Part) (core : Nat) : Nat := 4 * P.tiles.idxOf (core / 4) + core % 4

/-- The slice that homes an address, as a place. -/
def Part.homePlace (P : Part) (va : DWord) : Place := .slice ((P.home va).getD 0)

/-! ### Stores between their merge and their registration (R78, R298) -/

/-- A store that has merged and is neither registered, nor accepted as a version, nor withdrawn (R78, R94). DEDUCED (log
87): a release store is not seen before its registration. -/
def Access.merged (a : Access) : Bool :=
  a.kind = .st && !a.rel && match a.st with
    | .sent | .waiting _ _ => true
    | _ => false

/-- The id under which a core holds what an access merged (R298, R300); none once it was refuted. -/
def State.tagOf (s : State) (a : Access) : Option Nat :=
  let P := s.part a.part
  (P.effHyp (.core (P.localCore a.core)) a.hyp).map fun h => (h.extractLsb' 0 8).toNat

/-- The byte that the last of some stores writes at an address. -/
def lastByte (va : Nat) (l : Tbl Access) : Option Byte :=
  l.foldl (fun r a => if a.2.va.toNat ≤ va && va < a.2.va.toNat + a.2.size then a.2.data[va - a.2.va.toNat]? else r) none

/-- The merged stores of a core in an address space. -/
def State.merges (s : State) (core p asid : Nat) : Tbl Access :=
  s.accs.filter fun a => a.2.merged && a.2.core = core && a.2.part = p && a.2.asid = asid

/-- The byte that the core's own unregistered stores under an id leave at an address: they have merged and are owned. -/
def State.mergedByte (s : State) (core p asid hid va : Nat) : Option Byte :=
  lastByte va ((s.merges core p asid).filter fun a => s.tagOf a.2 = some hid)

/-- The words of a line that the core's own unregistered stores under an id touch: they count as owned (R78, R298). -/
def State.mergedWords (s : State) (core p asid hid line : Nat) : Word :=
  ((s.merges core p asid).filter fun a => lineOf a.2.va = line && s.tagOf a.2 = some hid).foldl
    (fun m a => m ||| wordsTouched (a.2.va.toNat % 128) a.2.size) 0

/-- A core has an unregistered store in a line under another id than this. -/
def State.mergedBeside (s : State) (core p asid hid line : Nat) : Bool :=
  (s.merges core p asid).any fun a => lineOf a.2.va = line && s.tagOf a.2 ≠ some hid

/-! ### What a home slice answers (R80, R297) -/

/-- The byte of the version of a handle. -/
def State.versionOf (s : State) (p asid va : Nat) (h : BitVec 16) : Option Byte :=
  (s.vers.find? fun v => v.part = p && v.asid = asid && v.sector = va / 32 && v.hyp = h && v.mask.getLsbD (va % 32)).map
    fun v => Memory.rd v.data (va % 32)

/-- The versions that a view sees in a byte (R297): the nearest handle's; for a load of a core, what that has merged under a
handle stands over that handle's versions (R87). -/
def State.viewByte (s : State) (core : Option Nat) (p asid : Nat) (place : Place) (chain : List (BitVec 16)) (va : Nat) :
    Option Byte :=
  chain.findSome? fun h =>
    match core.bind fun c => lastByte va ((s.merges c p asid).filter fun a => (s.part p).effHyp place a.2.hyp = some h) with
    | some b => some b
    | none => s.versionOf p asid va h

/-- Bytes as the home slice answers a view, byte by byte (R297). -/
def State.homeBytes (s : State) (core : Option Nat) (p asid tile : Nat) (chain : List (BitVec 16)) (lf : Leaf) (va : DWord)
    (n : Nat) : Except Nat (List Byte) :=
  let place := (s.part p).homePlace va
  let view := (s.part p).viewAt place chain
  let vs := (List.range n).map fun i => s.viewByte core p asid place view (va.toNat + i)
  if vs.all Option.isSome then .ok (vs.map fun v => v.getD 0)
  else
    match s.committed p asid tile lf va n with
    | .error c => .error c
    | .ok bs => .ok ((bs.zip vs).map fun b => b.2.getD b.1)

/-- The 128-byte line that a reply brings (R80); nothing when some other byte of it cannot be read. -/
def State.lineSnap (s : State) (p asid tile : Nat) (chain : List (BitVec 16)) (lf : Leaf) (va : DWord) : List Byte :=
  match s.homeBytes none p asid tile chain lf.ofLine (va >>> 7 <<< 7) 128 with
  | .ok bs => bs
  | .error _ => []

/-- A bias flip of a page runs, and accesses to it stall at the home slice (R100, R389). -/
def State.flipping (s : State) (p asid : Nat) (va : DWord) : Bool :=
  (s.part p).queues.any fun q => q.2.asid.toNat % 16 = asid && q.2.flip.any fun f => f.2.1.extractLsb' 16 48 = va.extractLsb' 16 48

/-- An instruction word at a virtual address, fetched under the root view (R141, R223): its bytes, or the cause. -/
def State.fetch (s : State) (p asid : Nat) (va : DWord) : Except Nat Word :=
  match (s.translate p asid va .fetch).2 with
  | .error f => .error f.cause
  | .ok lf =>
    match (s.part p).homeTile va with
    | none => .error (cz 0x11 3)
    | some tile =>
      match s.committed p asid tile lf va 4 with
      | .ok bs => .ok (BitVec.ofNat 32 (leNat bs))
      | .error c => .error c

/-- The state after the fetch's translation (A bit and TLB fill, R384, R385). -/
def State.fetchTouch (s : State) (p asid : Nat) (va : DWord) : State := (s.translate p asid va .fetch).1

/-! ### L1 copies (R78, R80, R83, R298) -/

/-- A line leaves a core's L1; the words of it that the core owns go back to their home slice first (R78). -/
def State.l1Evict (s : State) (l : L1Line) : State :=
  let va := BitVec.ofNat 64 (l.line * 128)
  let s := if l.owned = 0 || l.hid ≠ 0 then s else
    let r := s.translate l.part l.asid va .cwb
    match r.2, (s.part l.part).homeTile va with
    | .ok lf, some tile => r.1.forceBack l.part l.asid l.line tile lf
    | _, _ => match r.1.regFind l.part l.asid l.line with
      | some g => if g.core = l.core then r.1.regPut { g with mask := 0 } else r.1
      | none => r.1
  { s with l1 := s.l1.filter fun x => !(x.core = l.core && x.part = l.part && x.asid = l.asid && x.line = l.line && x.hid = l.hid) }

/-- The line may leave: the core owns no word of it, or its home slice can take them. -/
def State.l1Loose (s : State) (l : L1Line) : Bool :=
  l.owned = 0 || (((s.translate l.part l.asid (BitVec.ofNat 64 (l.line * 128)) .cwb).2.toOption).isSome &&
    ((s.part l.part).homeTile (BitVec.ofNat 64 (l.line * 128))).isSome)

/-- Room for a line in a core's L1 (R1): a full one gives up a line, which one is open (log entry 61). -/
def State.l1Room (s : State) (core p asid line hid : Nat) : State :=
  let mine := s.l1.filter fun l => l.core = core
  if (s.l1Find core p asid line hid).isSome || mine.length < Config.l1Lines then s
  else
    let out := mine.filter s.l1Loose
    match out[Config.freeNat s.freeCtr % out.length]? with
    | some l => { s with freeCtr := s.freeCtr + 1 }.l1Evict l
    | none => s

/-- One word of a copy takes its bytes of a reply's line. -/
def L1Line.takeWord (l : L1Line) (snap : List Byte) (w : Nat) : L1Line :=
  { l with valid := l.valid ||| byteMask (4 * w) 4, ver := l.ver &&& ~~~(byteMask (4 * w) 4),
           data := (List.range 4).foldl (fun m i => Memory.wr m (4 * w + i) (snap.getD (4 * w + i) 0)) l.data }

/-- An L1 copy and a reply (R80, R298): in each aligned 8 bytes of which a word is missing, or that the load read (`acc`),
the words that the core owns or has merged into (`own`) stay and the others come from the reply, so that no copy mixes two
replies (R76, R81; log 88). Without a line to bring, what the load read leaves the copy. -/
def L1Line.fill (l : L1Line) (own acc : Word) (snap : List Byte) : L1Line :=
  (List.range 16).foldl (fun (l : L1Line) u =>
    let ws := [2 * u, 2 * u + 1].filter fun w => !(own.getLsbD w)
    let read := acc.getLsbD (2 * u) || acc.getLsbD (2 * u + 1)
    let missing := ws.any fun w => l.valid &&& byteMask (4 * w) 4 ≠ byteMask (4 * w) 4
    if snap = [] then
      if read then { l with valid := l.valid &&& ~~~(byteMask (8 * u) 8 &&& ~~~(wordBytesMask own)) } else l
    else if read || missing then
      let l := { l with valid := l.valid &&& ~~~(byteMask (8 * u) 8 &&& ~~~(wordBytesMask l.owned)) }
      ws.foldl (fun l w => l.takeWord snap w) l
    else l) l

/-- The core's L1 takes a line of a reply, `acc` the words that the load read. -/
def State.l1Fill (s : State) (core p asid line hid : Nat) (acc : Word) (snap : List Byte) : State :=
  let snap := if s.mergedBeside core p asid hid line then [] else snap
  match s.l1Find core p asid line hid with
  | none =>
    if snap = [] then s
    else
      let l : L1Line := { core := core, part := p, asid := asid, line := line, hid := hid }
      (s.l1Room core p asid line hid).l1Put (l.fill (s.mergedWords core p asid hid line) acc snap)
  | some l => s.l1Put (l.fill (l.owned ||| s.mergedWords core p asid hid line) acc snap)

/-- An acquire's invalidation (R83): every valid word that the core does not own, in every line and under every
hypothesis; words that it has merged into count as owned (R298); replies on their way fill nothing. -/
def State.invalidate (s : State) (core : Nat) : State :=
  { s with
    l1 := (s.l1.map fun l => if l.core = core then
        { l with valid := l.valid &&& wordBytesMask (l.owned ||| s.mergedWords core l.part l.asid l.hid l.line) } else l).filter
      fun l => l.valid ≠ 0
    accs := s.accs.map fun a => (a.1, if a.2.core = core then { a.2 with snap := [] } else a.2) }

/-- Bytes that a core's store leaves in its copy (R78, R298): a registered root store's (`own`), which the core then owns, or
those of a store written through and of an accepted version write. -/
def State.l1Merge (s : State) (core p asid line hid : Nat) (off : Nat) (bytes : List Byte) (own : Bool) : State :=
  let s := s.l1Room core p asid line hid
  let l := (s.l1Find core p asid line hid).getD { core := core, part := p, asid := asid, line := line, hid := hid }
  let l := bytes.zipIdx.foldl (fun (l : L1Line) b =>
    { l with
      valid := l.valid ||| (1#128 <<< (off + b.2))
      dirty := if own then l.dirty ||| (1#128 <<< (off + b.2)) else l.dirty
      ver := if own || hid = 0 then l.ver else l.ver ||| (1#128 <<< (off + b.2))
      data := Memory.wr l.data (off + b.2) b.1 }) l
  s.l1Put { l with owned := if own then l.owned ||| wordsTouched off bytes.length else l.owned }

end Sys2Proof.Machine
end

