-- ==== Sys2Proof/Machine/Ops.lean ====
section
/-! DEFINITION. The named operations over registers, scratchpads, counters, lids, fault queues and barriers, and taking a
trap with the return from it (R396 to R400, R469). -/
namespace Sys2Proof.Machine

/-! ### Places of a warp -/

def noBlock : Block := { gid := 0, rank := 0, core := 0 }
def noGang : Gang := { lid := 0, idx := 0 }
def noLaunch : Launch :=
  { part := 0, serial := 0, asid := 0, prio := 0, params := 0, pmem := 0, gangs := 0, desc := {}, src := .queue 0 }

def State.block (s : State) (bid : Nat) : Block := s.blocks.getD bid noBlock
def State.gang (s : State) (gid : Nat) : Gang := s.gangs.getD gid noGang
def State.launch (s : State) (lid : Nat) : Launch := s.launches.getD lid noLaunch

def State.onBlock (s : State) (bid : Nat) (f : Block → Block) : State :=
  match s.blocks.find bid with
  | some b => { s with blocks := s.blocks.put bid (f b) }
  | none => s

def State.onGang (s : State) (gid : Nat) (f : Gang → Gang) : State :=
  match s.gangs.find gid with
  | some g => { s with gangs := s.gangs.put gid (f g) }
  | none => s

def State.onLaunch (s : State) (lid : Nat) (f : Launch → Launch) : State :=
  match s.launches.find lid with
  | some l => { s with launches := s.launches.put lid (f l) }
  | none => s

def State.onOp (s : State) (op : Nat) (f : EngineOp → EngineOp) : State :=
  match s.ops.find op with
  | some o => { s with ops := s.ops.put op (f o) }
  | none => s

/-- A core's registers; a core that nothing has touched has its reset values (R63, R410). -/
def State.coreRegs (s : State) (c : Nat) : Core := s.cores.getD c {}

def State.onCore (s : State) (c : Nat) (f : Core → Core) : State :=
  { s with cores := s.cores.put c (f (s.coreRegs c)) }

/-- The launch of a warp. -/
def State.launchOf (s : State) (wid : Nat) : Launch := s.launch (s.gang (s.block (s.warp wid).bid).gid).lid

/-- The partition and the ASID of a warp. -/
def State.partOf (s : State) (wid : Nat) : Nat := (s.launchOf wid).part
def State.asidOf (s : State) (wid : Nat) : Nat := (s.launchOf wid).asid

/-- Resident warps of a block that run now. -/
def State.blockWarps (s : State) (bid : Nat) : List (Nat × Warp) := s.warps.filter fun w => w.2.bid = bid

/-! ### Registers (R52 to R59) -/

def Warp.reg (w : Warp) (lane : Nat) : DReg → Reg
  | .discard => {}
  | .v n => w.v.getD (512 * lane + n) {}
  | .w n => w.w.getD n {}
  | .k n => w.k.getD n {}

def Warp.setReg (w : Warp) (lane : Nat) (r : DReg) (x : Reg) : Warp :=
  match r with
  | .discard => w
  | .v n => { w with v := w.v.put (512 * lane + n) x }
  | .w n => { w with w := w.w.put n x }
  | .k n => { w with k := w.k.put n x }

def State.getReg (s : State) (t : Th) (r : DReg) : Reg := (s.warp t.wid).reg t.lane r

/-- A write of a register; the uncorrectable error of what it replaces is gone (R433). -/
def State.setReg (s : State) (t : Th) (r : DReg) (x : Reg) : State :=
  let s := s.onWarp t.wid fun w => w.setReg t.lane r x
  match r with
  | .v n => { s with upsets := s.upsets.filter (fun u => u ≠ .register t.wid t.lane n) }
  | _ => s

/-- The register after one, for the odd half of a pair (R4). -/
def DReg.succ : DReg → DReg
  | .discard => .discard
  | .v n => .v (n + 1)
  | .w n => .w (n + 1)
  | .k n => .k (n + 1)

/-- Predicate n of a thread (R56). -/
def State.pred (s : State) (t : Th) (n : Nat) : Bool := ((s.warp t.wid).p.getD t.lane 0).getLsbD n

def setBit (x : BitVec 16) (n : Nat) (b : Bool) : BitVec 16 :=
  if b then x ||| (1#16 <<< n) else x &&& ~~~(1#16 <<< n)

def State.setPred (s : State) (t : Th) (n : Nat) (b : Bool) : State :=
  s.onWarp t.wid fun w => { w with p := w.p.put t.lane (setBit (w.p.getD t.lane 0) n b) }

/-- Index register j of a thread (R53). -/
def State.ixReg (s : State) (t : Th) (j : Nat) : Word := (s.warp t.wid).ix.getD (4 * t.lane + j) 0

/-- Loop counter j of a thread (R57). -/
def State.lcReg (s : State) (t : Th) (j : Nat) : Word := (s.warp t.wid).lc.getD (4 * t.lane + j) 0

/-- Stack base and stack top of a thread (R348). -/
def State.stackBase (s : State) (t : Th) : Nat :=
  let w := s.warp t.wid
  let b := s.block w.bid
  b.zsize - 256 * 32 * b.wids.length + 256 * (32 * w.idx + t.lane)

def State.stackTop (s : State) (t : Th) : Nat := s.stackBase t + 256

/-- Stack pointer of a thread (R63). -/
def State.spReg (s : State) (t : Th) : Word := (s.warp t.wid).sp.getD t.lane 0

/-- Scratch address of a warp's trap frame (R348, R59). -/
def State.frameAt (s : State) (wid : Nat) : Nat :=
  let w := s.warp wid
  let b := s.block w.bid
  b.zsize - 256 * 32 * b.wids.length - b.frame * b.wids.length + b.frame * w.idx

/-- `%ovc` and `%nvc` grow and stop at all ones (R64, R120). -/
def satAdd (x : Word) (n : Nat) : Word := if x.toNat + n < 2 ^ 32 then BitVec.ofNat 32 (x.toNat + n) else BitVec.allOnes 32

/-! ### Scratchpad (R74, R91) -/

def State.rdScratch (s : State) (bid a n : Nat) : List Byte := Memory.rdN (s.block bid).scratch a n

def State.wrScratch (s : State) (bid a : Nat) (bytes : List Byte) : State :=
  { s.onBlock bid fun b => { b with scratch := Memory.wrN b.scratch a bytes } with
    upsets := s.upsets.filter fun u => match u with
      | .scratch b x => !(b = bid && a ≤ x && x < a + bytes.length)
      | _ => true }

/-- An uncorrectable error pending in a scratch range (R433). -/
def State.scratchUpset (s : State) (bid a n : Nat) : Bool :=
  s.upsets.any fun u => match u with
    | .scratch b x => b = bid && a ≤ x && x < a + n
    | _ => false

/-! ### Lids (R93, R94) -/

/-- Do two half-open intervals meet? -/
def meets (lo hi lo' hi' : Nat) : Bool := lo < hi' && lo' < hi

/-- A scratch range of a block meets a lid: destination lids only, or any. -/
def State.scratchLid (s : State) (bid a n : Nat) (destOnly : Bool) : Bool :=
  s.lids.any fun l => !l.glob && l.bid = bid && meets a (a + n) l.lo l.hi && (l.dest || !destOnly)

/-- A global range meets a lid. -/
def State.globalLid (s : State) (p asid va n : Nat) (destOnly : Bool) : Bool :=
  s.lids.any fun l => l.glob && l.part = p && l.asid = asid && meets va (va + n) l.lo l.hi && (l.dest || !destOnly)

/-! ### Counters (R63, R199) -/

/-- The counter of a warp: 0 `%ldc`, 1 `%stc`, 2 `%cpc`, 3 `%tlc`. -/
def State.counter (s : State) (wid ctr : Nat) : Nat := (s.outst.filter fun o => o.wid = wid && o.ctr = ctr).length

def counterMax : Nat → Nat
  | 0 => 48
  | 1 => 48
  | 2 => 32
  | _ => 16

/-- May one more instruction count (R64)? -/
def State.room (s : State) (wid ctr n : Nat) : Bool := s.counter wid ctr + n ≤ counterMax ctr

/-- One instruction of a warp begins to count. -/
def State.count (s : State) (wid ctr left iid : Nat) : State :=
  if left = 0 then s else { s with outst := { wid := wid, ctr := ctr, left := left, iid := iid } :: s.outst }

/-- One access of an instruction has completed; its count falls with the last (R199). -/
def State.uncount (s : State) (wid iid : Nat) : State :=
  { s with outst := (s.outst.map fun o =>
      if o.wid = wid && o.iid = iid then { o with left := o.left - 1 } else o).filter (fun o => o.left ≠ 0) }

/-! ### Interrupts and the fault queue (R390, R391, R470) -/

/-- A vector raised (R470): sent, or pending while it or the function is masked, or dropped while MSI-X is off. -/
def State.raise (s : State) (p vec : Nat) : State :=
  let P := s.part p
  let e := P.msix.getD vec {}
  if !P.msixEn then s
  else if P.msixMask || e.ctl.getLsbD 0 then s.onPart p fun P => { P with pba := P.pba ||| (1#64 <<< vec) }
  else { s with msgs := s.msgs ++ [{ part := p, vec := vec, addr := e.addr, data := e.data }] }

/-- The fault queue's vector, when its interrupt is enabled (R390). -/
def State.raiseFq (s : State) (p : Nat) : State :=
  let ctl := (s.part p).b2.fqctl
  if ctl.getLsbD 7 then s.raise p (ctl.extractLsb' 8 8).toNat else s

/-- The last sixteen bytes of a log entry: time and number (R438). -/
def State.logTail (s : State) (n : Word) : List Byte := natLe 8 s.gtime ++ natLe 8 n.toNat

/-- An array-log entry (R438); the DRAM layer that the spec does not derive from an address is free. -/
def State.arrayLog (s : State) (addr tile : Nat) (layer : Option Nat) (kind : Nat) : State :=
  let g := s.grm
  let e := natLe 8 addr ++ natLe 2 tile ++ natLe 1 (layer.getD (Config.freeNat s.freeCtr % 4)) ++ natLe 1 kind ++ natLe 4 0 ++
    s.logTail g.altail
  { s with grm := { g with alog := g.alog.put (g.altail.toNat % 256) e, altail := g.altail + 1 }, freeCtr := s.freeCtr + 1 }

/-- A MAC mismatch at a consumer is logged (R433). -/
def State.logMac (s : State) (p asid : Nat) (va : DWord) (cause : Nat) : State :=
  if cause ≠ cz 0x17 0 then s
  else
    match s.walk p asid va with
    | .ok (lf, _) => if lf.space = 0 then s.arrayLog (lf.addr / 128 * 128) (lf.addr / 2 ^ 33) none 3 else s
    | .error _ => s

/-- A write of the device on its own behalf, translated when it is performed (R468); none when it fails. Any owner's
write-back is forced first (R79). -/
def State.deviceWrite (s : State) (p asid : Nat) (va : DWord) (bytes : List Byte) : Except WalkFail State :=
  let r := s.translate p asid va .queueWrite
  match r.2, (s.part p).homeTile va with
  | .ok lf, some tile =>
    if s.lineUpset lf.space lf.addr then .error { cause := cz 0x17 1, level := lf.level, pte := lf.pte }
    else
      let s := r.1.forceBack p asid (lineOf va) tile lf
      .ok (s.sliceWrite (s.part p) tile lf (bytes.zipIdx.map fun b => (b.2, b.1)))
  | .ok lf, none => .error { cause := cz 0x11 3, level := 7, pte := lf.pte }
  | .error f, _ => .error f

/-- A read of the device on its own behalf; while a flip of its page runs it stalls, with the cause 0 (R100, R389). -/
def State.deviceRead (s : State) (p asid : Nat) (va : DWord) (n : Nat) : State × Except WalkFail (List Byte) :=
  let r := s.translate p asid va .queue
  if s.flipping p asid va then (s, .error { cause := 0, level := 7, pte := 0 })
  else match r.2, (s.part p).homeTile va with
  | .ok lf, some tile =>
    match r.1.committed p asid tile lf va n with
    | .ok bs => (r.1.sliceTouch (s.part p) tile lf, .ok bs)
    | .error c => (r.1.logMac p asid va c, .error { cause := c, level := lf.level, pte := lf.pte })
  | .ok lf, none => (r.1, .error { cause := cz 0x11 3, level := 7, pte := lf.pte })
  | .error f, _ => (r.1, .error f)

/-- A fault-queue record without its number (R391); `gtime` is the time of its fault, none for the present. -/
structure FqRec where
  cause : Nat := 0
  level : Nat := 0
  source : Nat
  tag : Nat := 0
  tile : Nat := 0
  core : Nat := 0
  warp : Nat := 0
  block : Nat := 0
  va : DWord := 0
  launch : Word := 0
  asid : Nat := 0
  queue : Nat := 0
  lanes : Word := 0
  pte : DWord := 0
  rec_ : DWord := 0
  gtime : Option Nat := none
  deriving DecidableEq, Repr

/-- The 64 bytes of a record (R391). -/
def FqRec.bytes (r : FqRec) (gtime seq : Nat) : List Byte :=
  natLe 4 (r.cause + 2 ^ 9 * r.level + 2 ^ 12 * r.source + 2 ^ 16 * r.tag) ++
  natLe 4 (r.tile + 2 ^ 11 * r.core + 2 ^ 13 * r.warp + 2 ^ 17 * r.block) ++
  natLe 8 r.va.toNat ++ natLe 4 r.launch.toNat ++ natLe 1 r.asid ++ natLe 1 r.queue ++ natLe 2 0 ++
  natLe 4 r.lanes.toNat ++ natLe 4 0 ++ natLe 8 r.pte.toNat ++ natLe 8 r.rec_.toNat ++ natLe 8 gtime ++ natLe 8 seq

/-- log2 of the fault queue's record count; 0 when it is disabled (R390). -/
def Part.fqSize (P : Part) : Nat := (P.b2.fqctl.extractLsb' 0 5).toNat

/-- A warp's record (R391): source, cause, lanes, address and what the walk failed at. -/
def State.warpRec (s : State) (wid source cause : Nat) (lanes : Word) (va : DWord) (level : Nat) (pte : DWord) : FqRec :=
  let w := s.warp wid
  { cause := cause, level := level, source := source, tile := (s.part (s.partOf wid)).localCore w.core / 4, core := w.core % 4,
    warp := w.idx, block := (s.block w.bid).rank, va := va, launch := (s.launchOf wid).serial, asid := s.asidOf wid, lanes := lanes,
    pte := pte }

/-- Virtual address of the slot of a record number. -/
def Part.fqSlot (P : Part) (seq : Nat) : DWord := P.b2.fqbase + BitVec.ofNat 64 (64 * (seq % 2 ^ P.fqSize))

/-- The next fault-queue record stalls: a flip of its slot's page runs (R100, R389). -/
def State.fqHeld (s : State) (p : Nat) : Bool :=
  (s.part p).fqSize ≠ 0 && s.flipping p 0 ((s.part p).fqSlot (s.part p).b2.fqtail)

/-- One more record dropped (R390). -/
def State.fqDrop (s : State) (p : Nat) : State :=
  s.onPart p fun P => { P with b2 := { P.b2 with fqlost := satAdd P.b2.fqlost 1 } }

/-- The integrity fault of a slot's line when a record is to be written there (R390). -/
def State.slotFail (s : State) (p : Nat) (va : DWord) : Option Nat :=
  match (s.translate p 0 va .queueWrite).2, (s.part p).homeTile va with
  | .ok lf, some tile => match s.slice (s.part p) tile lf 64 with
    | .error c => some c
    | .ok _ => none
  | _, _ => none

/-- A record added to the partition's fault queue, or dropped (R390, R468); with its number when it was written. -/
def State.fqPush (s : State) (p : Nat) (r : FqRec) : State × Option Nat :=
  let P := s.part p
  let seq := P.b2.fqtail
  let slot := P.fqSlot seq
  if P.fqSize = 0 || (BitVec.ofNat 32 seq - P.b2.fqhead).toNat ≥ 2 ^ P.fqSize then (s.fqDrop p, none)
  else
    match s.slotFail p slot, s.deviceWrite p 0 slot (r.bytes (r.gtime.getD s.gtime) seq) with
    | some c, _ => ((s.logMac p 0 slot c).fqDrop p, none)
    | none, .error _ => (s.fqDrop p, none)
    | none, .ok s => ((s.onPart p fun P => { P with b2 := { P.b2 with fqtail := P.b2.fqtail + 1 } }).raiseFq p, some seq)

/-! ### Engine operations at issue (R247) -/

/-- An operation that its ENG has not issued completely: it waits for counter room, lids or a mill entry. -/
def EngineOp.atIssue (o : EngineOp) : Bool := o.st = .reading || o.st = .issued

/-- An operation of a core that counts names a tag. -/
def State.tagBusy (s : State) (core tag : Nat) : Bool :=
  s.ops.any fun x => x.2.core = core && x.2.tag = tag && x.2.st ≠ .reading

/-- An operation at issue is taken back, as if its thread's part of the ENG had not issued. -/
def State.takeBack (s : State) (id : Nat) (o : EngineOp) : State :=
  let s := { s with ops := s.ops.del id }.uncount o.wid id
  if o.st = .reading || s.tagBusy o.core o.tag then s
  else s.onCore o.core fun r => { r with tagmap := r.tagmap ||| (1#64 <<< o.tag) }

/-- The operations at issue of some lanes of a warp are taken back: their ENG issues again from the first of them (log entry
93). -/
def State.withdraw (s : State) (wid : Nat) (lanes : Word) : State :=
  (s.ops.filter fun o => o.2.atIssue && o.2.wid = wid && lanes.getLsbD o.2.lane).foldl (fun s o => s.takeBack o.1 o.2) s

/-- Some lane of the unit has issued its part of an ENG that another still waits at: it stands inside an instruction. -/
def State.insideEng (s : State) (wid : Nat) (lanes : Word) : Bool := (s.warp wid).engDone &&& lanes ≠ 0

/-! ### Event latches (R278) -/

/-- An event latched in every warp of a list. -/
def State.latch (s : State) (code : Nat) (who : Warp → Bool) : State :=
  { s with warps := s.warps.map fun w =>
      (w.1, if who w.2 then { w.2 with latch := w.2.latch ||| (1#5 <<< (code - 1)) } else w.2) }

/-! ### Phase barriers (R49, R215) -/

/-- A phase-barrier word's fields. -/
structure PhaseBar where
  pending : Nat
  count : Nat
  rsvd : Nat
  epoch : Nat
  exp : Nat
  done : Nat
  deriving DecidableEq, Repr

def PhaseBar.ofNat (n : Nat) : PhaseBar :=
  { pending := n % 2 ^ 16, count := n / 2 ^ 16 % 2 ^ 16, rsvd := n / 2 ^ 32 % 2 ^ 16, epoch := n / 2 ^ 48 % 2 ^ 16,
    exp := n / 2 ^ 64 % 2 ^ 32, done := n / 2 ^ 96 % 2 ^ 32 }

def PhaseBar.toNat (b : PhaseBar) : Nat :=
  b.pending + 2 ^ 16 * b.count + 2 ^ 32 * b.rsvd + 2 ^ 48 * b.epoch + 2 ^ 64 * b.exp + 2 ^ 96 * b.done

/-- `complete_if_ready` of R49, and whether the barrier flipped. -/
def PhaseBar.settle (b : PhaseBar) : PhaseBar × Bool :=
  if b.pending = 0 && b.done = b.exp then
    ({ b with epoch := (b.epoch + 1) % 2 ^ 16, pending := b.count, exp := 0, done := 0 }, true)
  else (b, false)

/-- Arrivals that announce bytes (R49, R216). -/
def PhaseBar.arrive (b : PhaseBar) (k tx : Nat) : PhaseBar :=
  { b with pending := b.pending - k, exp := (b.exp + tx) % 2 ^ 32 }

def State.phaseBar (s : State) (bid a : Nat) : PhaseBar := PhaseBar.ofNat (leNat (s.rdScratch bid a 16))

/-- A barrier word written after an update; a flip is an event of the block's warps (R278). -/
def State.setPhaseBar (s : State) (bid a : Nat) (b : PhaseBar) : State :=
  let r := b.settle
  let s := s.wrScratch bid a (natLe 16 r.1.toNat)
  if r.2 then s.latch 2 fun w => w.bid = bid else s

/-! ### Taking a trap (R33, R396 to R400, R469) -/

/-- What a trap carries (R395, R397); `deliv` is the number of the delivered record's copy (R401). -/
structure Trap where
  cause : Nat
  tval : DWord
  mask : List Th
  recorded : Bool := false
  trec : DWord := 0
  deliv : Option Nat := none
  deriving DecidableEq, Repr

/-- Quads of a lane mask (R68). -/
def quadsMask (m : Word) : Nat :=
  ((List.range 8).filter fun q => (m.extractLsb' (4 * q) 4) ≠ 0).foldl (fun a q => a + 2 ^ q) 0

/-- `%tstat` (R68). -/
def tstatOf (recorded mix : Bool) (depth : Nat) (lanes : Word) : Word :=
  BitVec.ofNat 32 ((if recorded then 2 ^ 14 else 0) + (if mix then 2 ^ 13 else 0) + 2 ^ 8 * depth + quadsMask lanes)

/-- The groups of a sliver changed. -/
def State.onSliver (s : State) (wid k : Nat) (f : Group → Group) : State :=
  s.onWarp wid fun w => { w with groups := w.groups.map fun g => if g.pos = 0 && g.sliver = k then f g else g }

/-- A unit parked under WATCHDOG (R398): `%tpc`, `%tmask` and `%trec` stay; `skip` is how many words it skips on
resumption. -/
def State.watchdogPark (s : State) (wid k detail nested skip : Nat) : State :=
  let p := s.partOf wid
  let s := s.onWarp wid fun w =>
    { w with tcause := BitVec.ofNat 32 (cz 0x3A detail), tval := BitVec.ofNat 64 nested, wdogPark := true }
  let s := s.onSliver wid k fun g => { g with st := .parked, skip := skip, since := s.warpTick wid }
  (s.onPart p fun P => { P with wdog := min 255 (P.wdog + 1) }).raiseFq p

/-- The parts of a warp's unit in trap mode that hold some lanes are parked under WATCHDOG at their next instruction boundary
(R398, R400): at once, but for a part that waits inside an instruction. The first sets the registers. -/
def State.parkParts (s : State) (wid detail nested : Nat) : List Nat → State
  | [] => s
  | k :: ks =>
    let inside := ((s.warp wid).running k).any fun g => g.st = .asking || g.st = .geo
    let s :=
      if inside then s.onSliver wid k fun g => { g with parkNext := some (detail, nested) }
      else s.watchdogPark wid k detail nested 0
    ks.foldl (fun s j => s.onSliver wid j fun g =>
      if g.st = .asking || g.st = .geo then { g with parkNext := some (detail, nested) }
      else { g with st := .parked, skip := 0, since := s.warpTick wid }) s

/-- The header at which the handler of a class begins (R396). -/
def State.handlerAt (s : State) (wid cause : Nat) : DWord :=
  (s.part (s.partOf wid)).trapbase + BitVec.ofNat 64 (cause / 8 * 64)

/-- A word is a header (R137). -/
def isHeader (w : Word) : Bool := w.extractLsb' 28 4 = 0xF

/-- The word at an address can be fetched and is a header. -/
def State.headerAt (s : State) (p asid : Nat) (a : DWord) : Bool :=
  a.extractLsb' 0 2 = 0 &&
  match s.fetch p asid a with
  | .ok w => isHeader w
  | .error _ => false

/-- One part of an issue unit takes a trap at a position (R396 to R398): `at_` is the position `%tpc` names, `hw` the
header word kept for it, `mix` says that a mixed warp dissolved, and `skip` is the length of the instruction at which
a nested trap parks. A part of a warp that already has a unit in trap mode is held at its instruction until that unit leaves
trap mode (R59). -/
def State.enterTrap (s : State) (wid k : Nat) (tr : Trap) (at_ : Tgt) (hw : Word) (mix : Bool) (skip : Nat) : State :=
  let w := s.warp wid
  let lanes := w.sliverLanes k
  if w.inTrap lanes then s.watchdogPark wid k 0 tr.cause skip
  else if w.trapSet ≠ 0 then
    (s.onSliver wid k fun g => { g with st := .heldTrap }).onWarp wid fun w => { w with
      heldTraps := w.heldTraps ++ [{ sliver := k, cause := tr.cause, tval := tr.tval, mask := lanesIn tr.mask wid, recorded := tr.recorded,
                                     trec := tr.trec, deliv := tr.deliv, pc := at_.pc, hdr := at_.hdr, hw := hw, depth := at_.depth,
                                     mix := mix, skip := skip }] }
  else
    let entry := s.handlerAt wid tr.cause
    let ok := s.headerAt (s.partOf wid) (s.asidOf wid) entry
    let frame := s.frameAt wid
    let size := (s.block w.bid).frame
    let s := { s with accs := s.accs.filter fun a => !(a.2.kind = AccKind.jtab && a.2.wid = wid && lanes.getLsbD a.2.lane) }
    let s := s.withdraw wid lanes
    let s := s.onWarp wid fun w =>
      { w with
        trapSet := lanes
        trapSince := s.tickOf w.core
        wdogPark := false
        deliv := tr.deliv
        tcause := BitVec.ofNat 32 tr.cause
        tpc := at_.pc
        tval := tr.tval
        tmask := lanesIn tr.mask wid
        tstat := tstatOf tr.recorded mix at_.depth lanes
        trec := tr.trec
        tkept := some (at_.hdr, hw)
        k := (w.k.put 0 { val := BitVec.ofNat 32 frame }).put 1 { val := BitVec.ofNat 32 size } }
    if ok then
      s.onSliver wid k fun g =>
        { g with pc := entry, hdr := entry, hw := 0, code := [], st := .running, passed := false, waits := false, skip := 0, mark := 0 }
    else s.watchdogPark wid k 2 tr.cause skip

/-- A page fault that is no recorded one is an instruction fetch's: it adds a fault-queue record (R390, R391 source 3). -/
def State.fqFetch (s : State) (wid : Nat) (tr : Trap) : State :=
  if tr.recorded || (tr.cause / 8 ≠ 0x11 && tr.cause / 8 ≠ 0x12) then s
  else
    let f : WalkFail := match (s.translate (s.partOf wid) (s.asidOf wid) tr.tval .fetch).2 with
      | .error f => f
      | .ok _ => { cause := 0, level := 7, pte := 0 }
    (s.fqPush (s.partOf wid) (s.warpRec wid 3 tr.cause (lanesIn tr.mask wid) tr.tval f.level f.pte)).1

/-- An uncorrectable register error asks for the self-test of its core (R410). -/
def State.askTest (s : State) (wid cause : Nat) : State :=
  if cause = cz 0x17 2 then s.onCore (s.warp wid).core fun r => { r with selfTest := true } else s

/-- An issue unit takes a trap at a position of its own (R33, R396): a mixed warp dissolves first; the parts with a
thread that raised it enter the handler, the others issue the instruction again as slivers of their home warps. -/
def State.takeTrapAt (s : State) (u : IssueUnit) (tr : Trap) (at_ : Tgt) (hw : Word) (skip : Nat) : State :=
  let mix := u.mem.length > 1
  let s := if mix then s.dissolve u.mem else s
  (u.mem.foldl (fun s p =>
    if lanesIn tr.mask p.1 = 0 then s else ((s.fqFetch p.1 tr).askTest p.1 tr.cause).enterTrap p.1 p.2 tr at_ hw mix skip) s)

/-- A trap taken at the unit's instruction. -/
def State.takeTrap (s : State) (u : IssueUnit) (tr : Trap) (len : Nat) : State :=
  s.takeTrapAt u tr { pc := u.pc, hdr := u.hdr, depth := u.depth } u.hw len

/-- The unit that has waited longest for trap entry enters its handler once no unit of its warp is in trap mode (R59, R276). -/
def State.enterHeld (s : State) (wid : Nat) : State :=
  let w := s.warp wid
  match w.heldTraps with
  | h :: hs =>
    if w.trapSet ≠ 0 then s
    else
      let s := s.onWarp wid fun w => { w with heldTraps := hs }
      s.enterTrap wid h.sliver
        { cause := h.cause, tval := h.tval, mask := (lanesOf h.mask).map fun l => { wid := wid, lane := l }, recorded := h.recorded,
          trec := h.trec, deliv := h.deliv }
        { pc := h.pc, hdr := h.hdr, depth := h.depth } h.hw h.mix h.skip
  | [] => s

/-- Records that wait aside join the fault list as far as it has room for 8, but for those of the unit in trap mode (R399,
R400). -/
def Warp.listAside (w : Warp) (tick : Nat) : Warp :=
  w.aside.foldl (fun (w : Warp) r =>
    if w.trapSet &&& r.lanes = 0 && w.faults.length < 8
    then { w with faults := w.faults ++ [{ r with arrived := tick }], aside := w.aside.erase r } else w) w

/-- No unit of a warp is in trap mode any longer: records held aside join the fault list (R400), and a held unit enters its
handler (R59). -/
def State.endTrap (s : State) (wid : Nat) : State :=
  let tick := s.warpTick wid
  (s.onWarp wid fun w => Warp.listAside { w with wdogPark := false, deliv := none } tick).enterHeld wid

/-- The trap-mode unit leaves trap mode and resumes at `%tpc`, under the kept header when no SWR has written `%tpc`
(R141, R276). -/
def State.leaveTrap (s : State) (wid k : Nat) : State :=
  (s.onWarp wid fun w =>
    let tgt : DWord × Word := w.tkept.getD (w.tpc, 0)
    { w with
      trapSet := 0
      groups := w.groups.map fun g =>
        if g.pos = 0 && g.sliver = k then
          { g with pc := w.tpc, hdr := tgt.1, hw := tgt.2, code := [], st := .running
                   passed := false, waits := false, skip := 0, mark := 0 }
        else g }).endTrap wid

/-- Does the unit hold every non-exited lane of the warp's trap-mode set (R469)? -/
def State.holdsTrapSet (s : State) (wid : Nat) (lanes : Word) : Bool := (s.warp wid).trapSet &&& ~~~lanes = 0

/-! ### The fault list (R207, R399) -/

/-- Address of a record's fault-queue copy (R397). -/
def Part.recAddr (P : Part) : Option Nat → DWord
  | some q => P.fqSlot q
  | none => 0

/-- The recorded fault of a record, as a trap (R397). -/
def State.recTrap (s : State) (wid : Nat) (r : FaultRec) : Trap :=
  { cause := r.cause
    tval := ((r.each.head?.map (·.addr)).getD 0)
    mask := (lanesOf r.lanes).map fun l => { wid := wid, lane := l }
    recorded := true
    trec := (s.part (s.partOf wid)).recAddr r.fqseq
    deliv := r.fqseq }

/-- The oldest record of a warp whose lanes lie in a set (R399). -/
def Warp.oldestRec (w : Warp) (lanes : Word) : Option FaultRec := w.faults.find? fun r => r.lanes &&& lanes ≠ 0

/-- The trap of the oldest record of the unit's lanes, taken at the unit's position (R207, R397). The parts without a
record issue on. -/
def State.takeRecorded (s : State) (u : IssueUnit) : State :=
  let hit := u.mem.filterMap fun p =>
    ((s.warp p.1).oldestRec (lanesIn u.th p.1)).map fun r => (p, r)
  let mix := u.mem.length > 1
  let s := if mix then s.dissolve u.mem else s
  (hit.foldl (fun s x =>
    s.enterTrap x.1.1 x.1.2 (s.recTrap x.1.1 x.2) { pc := u.pc, hdr := u.hdr, depth := u.depth } u.hw mix 0) s)

/-- Records of a warp whose lanes lie in a unit. -/
def State.unitRecords (s : State) (u : IssueUnit) : List FaultRec :=
  (widsOf u.th).flatMap fun wid => (s.warp wid).faults.filter fun r => r.lanes &&& lanesIn u.th wid ≠ 0

/-- The records of a warp, in its fault list or beside it (R399, R400). -/
def Warp.records (w : Warp) : List FaultRec := w.faults ++ w.aside

/-- Is a register of a thread the marked destination of a recorded load (R207)? -/
def State.marked (s : State) (t : Th) (r : DReg) : Bool :=
  (s.warp t.wid).records.any fun f => f.each.any fun l =>
    l.dst.contains r && match r with
      | .v _ => l.lane = t.lane
      | _ => true

/-- Is a register of a thread the destination of an access in flight of some kinds? -/
def State.awaits (s : State) (kinds : AccKind → Bool) (t : Th) (r : DReg) : Bool :=
  s.accs.any fun a => kinds a.2.kind && a.2.wid = t.wid && a.2.dst.any fun d => d.2.contains r && match r with
    | .v _ => d.1 = t.lane
    | _ => true

/-- Is a register of a thread the destination of an access in flight (R203)? -/
def State.busy (s : State) (t : Th) (r : DReg) : Bool := s.awaits (fun _ => true) t r

/-- A load of global memory into registers: in flight, it has missed the L1 (R203 to R205). -/
def AccKind.isMiss : AccKind → Bool
  | .ld | .ldu | .ldt => true
  | _ => false

end Sys2Proof.Machine
end

