-- ==== Sys2Proof/Machine/Route.lean ====
section
/-! DEFINITION. Route tables, the way of a packet and the sieve's verdict on it (R437, R445, R446). Griermor's master copy
of a table is a function of the partition's tiles and of the links that its tables avoid; the state lists the entries that
differ from it. -/
namespace Sys2Proof.Machine

/-- The logical neighbour of a tile: 0 north, 1 east, 2 south, 3 west (R10, R442). -/
def neighbour (tile side : Nat) : Option Nat :=
  match side with
  | 0 => if tile / 40 < 38 then some (tile + 40) else none
  | 1 => if tile % 40 < 39 then some (tile + 1) else none
  | 2 => if 0 < tile / 40 then some (tile - 40) else none
  | _ => if 0 < tile % 40 then some (tile - 1) else none

/-- The side that a route entry from 1 to 4 names: east, north, west, south (R445). -/
def entrySide : Nat → Nat
  | 1 => 1
  | 2 => 0
  | 3 => 3
  | _ => 2

/-- The entry value of the side that a packet sent by an entry arrives from (R447). -/
def arrival : Nat → Nat
  | 1 => 3
  | 2 => 4
  | 3 => 1
  | _ => 2

/-- The name of the link on a side of a tile; both its ends name it alike. -/
def linkKey (tile side : Nat) : Nat :=
  match side with
  | 0 => 2 * tile + 1
  | 1 => 2 * tile
  | 2 => 2 * (tile - 40) + 1
  | _ => 2 * (tile - 1)

/-- The tile of a list to which an entry from 1 to 4 leads over a link that is not avoided. -/
def hopIn (tiles avoid : List Nat) (tile e : Nat) : Option Nat :=
  match neighbour tile (entrySide e) with
  | some u => if tiles.contains u && !(avoid.contains (linkKey tile (entrySide e))) then some u else none
  | none => none

/-- Tiles of a list next to some tiles, without those already seen. -/
def nextLayer (tiles avoid front seen : List Nat) : List Nat :=
  ((front.flatMap fun t => [1, 2, 3, 4].filterMap (hopIn tiles avoid t)).eraseDups).filter fun u => !(seen.contains u)

/-- The tiles of a list by their distance from a first layer. -/
def layersOf (tiles avoid : List Nat) : Nat → List Nat → List Nat → List (List Nat)
  | 0, _, _ => []
  | n + 1, front, seen =>
    if front = [] then []
    else
      let l := nextLayer tiles avoid front seen
      front :: layersOf tiles avoid n l (seen ++ l)

/-- Distances from a tile over a list of tiles (R445). -/
def distances (tiles avoid : List Nat) (from_ : Nat) : List (List Nat) := layersOf tiles avoid tiles.length [from_] [from_]

/-- Every tile of a list is connected to the others (R444). -/
def connectedOver (tiles avoid : List Nat) : Bool :=
  match tiles with
  | [] => false
  | t :: _ => ((distances tiles avoid t).map List.length).foldl (· + ·) 0 = tiles.length

def connected (tiles : List Nat) : Bool := connectedOver tiles []

/-- The entry of a shortest path: the first of east, north, west and south that leads nearer (R445). -/
def shortestEntry (tiles avoid : List Nat) (tile dst : Nat) : Nat :=
  if tile = dst then 0
  else
    let ls := distances tiles avoid dst
    let k := ls.findIdx fun l => l.contains tile
    if ls.length ≤ k then 15
    else ([1, 2, 3, 4].find? fun e => match hopIn tiles avoid tile e with
      | some u => (ls.getD (k - 1) []).contains u
      | none => false).getD 15

/-- Griermor's master copy of an entry (R445). -/
def Part.masterEntry (P : Part) (tile dst : Nat) : Nat :=
  match P.tiles[dst]? with
  | some d => shortestEntry P.tiles P.avoid tile d
  | none => 15

/-- The name of a route entry in the tables. -/
def routeKey (tile plane dst : Nat) : Nat := (2 * tile + plane) * 2048 + dst

/-- The entry that a router holds. -/
def State.routeEntry (s : State) (P : Part) (tile plane dst : Nat) : Nat :=
  match s.wafer.route.find (routeKey tile plane dst) with
  | some e => e.toNat
  | none => P.masterEntry tile dst

/-- Where a packet's way ends: at its destination, at a router that drops it (tile, plane, arrival port, reason), or at a
link that is down. -/
inductive WayEnd where
  | arrives
  | drop (tile plane port reason : Nat)
  | stuck
  deriving DecidableEq, Repr

/-- The way of a packet of a partition from a router on (R445, R446). -/
def State.way (s : State) (p dst : Nat) : Nat → Nat → Nat → Nat → WayEnd
  | 0, _, _, _ => .stuck
  | n + 1, tile, plane, port =>
    match s.tileOwner tile with
    | none => .drop tile plane port 2
    | some o =>
      if o ≠ p then .drop tile plane port 0
      else
        let P := s.part p
        match s.routeEntry P tile plane dst with
        | 0 => if P.tiles[dst]? = some tile then .arrives else .drop tile plane port 1
        | 5 => s.way p dst n tile (1 - plane) 5
        | e =>
          if 4 < e then .drop tile plane port 1
          else
            match neighbour tile (entrySide e) with
            | none => .drop tile plane port 1
            | some u =>
              if s.wafer.linkDown.contains (linkKey tile (entrySide e)) then .stuck
              else s.way p dst n u plane (arrival e)

/-- A packet between two tiles of a partition on a plane. While every table equals its master copy and no link is down,
each arrives: the tiles are connected (R444). -/
def State.packet (s : State) (p source dst plane : Nat) : WayEnd :=
  if s.wafer.route = [] && s.wafer.linkDown = [] then .arrives
  else s.way p dst (2 * (s.part p).tiles.length + 1) source plane 0

/-- The partition-local number of a tile. -/
def Part.localTile (P : Part) (tile : Nat) : Nat := P.tiles.idxOf tile

/-- A packet that carries an access: source tile, destination's local tile, plane, and kind (R447). Requests travel the
compute plane (R462), replies of slices the cache plane. -/
structure Packet where
  source : Nat
  dst : Nat
  plane : Nat
  kind : Nat
  deriving DecidableEq, Repr

/-- The kind of an access's packet (R447). -/
def AccKind.packet : AccKind → Nat
  | .ld | .ldu | .ldt | .jtab => 0
  | .st => 1
  | .atom => 2
  | .ldn | .stn | .atomn => 4
  | _ => 6

/-- The packet of an access on its way: its request, or its reply. -/
def State.packetOf (s : State) (a : Access) : Packet :=
  let P := s.part a.part
  let remote := a.kind = .ldn || a.kind = .stn || a.kind = .atomn
  let far := if remote then P.localTile ((s.block a.target).core / 4) else (P.home a.va).getD 0
  if a.st = .answered then
    { source := P.tiles.getD far 0, dst := P.localTile (a.core / 4), plane := if remote then 0 else 1, kind := 3 }
  else { source := a.core / 4, dst := far, plane := 0, kind := a.kind.packet }

/-- Two accesses travel in one packet: lanes of one instruction whose addresses lie in one line, requests or replies alike
(R198, R463; DEDUCED, log entry 28); gang-remote accesses travel alone (R92). -/
def Access.rides (a b : Access) : Bool :=
  a.wid = b.wid && a.iid = b.iid && a.va.toNat / 128 = b.va.toNat / 128 && a.st = b.st && a.kind.packet ≠ 4

/-- What becomes of the packet of an access now. -/
def State.accWay (s : State) (a : Access) : WayEnd :=
  if s.wafer.route = [] && s.wafer.linkDown = [] then .arrives
  else
    let k := s.packetOf a
    s.packet a.part k.source k.dst k.plane

/-- A packet may be sent again: 16 µs have passed (R437). -/
def resendDue (now : Nat) (dropped : Option Nat) : Bool := dropped.any fun t => t + 16000 ≤ now

/-- The packet of an access arrives: an access whose packet the sieve drops is neither performed nor answered (R446). -/
def State.delivered (s : State) (a : Access) : Bool := a.dropped.isNone && s.accWay a = .arrives

/-- The packet that carries a hypothesis request to its home slice, local tile 0 (R293, R447 kind 6). -/
def State.hypPacket (s : State) (r : HypReq) : Packet :=
  { source := ((r.mem.head?.map fun m => (s.warp m.1).core).getD 0) / 4, dst := 0, plane := 0, kind := 6 }

/-- What becomes of the packet of a hypothesis request now. -/
def State.hypWay (s : State) (r : HypReq) : WayEnd :=
  let k := s.hypPacket r
  s.packet r.part k.source k.dst k.plane

/-- A hypothesis request arrives (R446). -/
def State.hypDelivered (s : State) (r : HypReq) : Bool := r.dropped.isNone && s.hypWay r = .arrives

/-- The packet of an engine operation to the home slice of an address, or to the core of a block, arrives. -/
def State.engDelivered (s : State) (o : EngineOp) (glob : Bool) (va : DWord) (bid : Nat) : Bool :=
  if o.dropped.isSome then false
  else if s.wafer.route = [] && s.wafer.linkDown = [] then true
  else
    let P := s.part o.part
    let dst := if glob then (P.home va).getD 0 else P.localTile ((s.block bid).core / 4)
    s.packet o.part (o.core / 4) dst 0 = .arrives

end Sys2Proof.Machine
end

