-- ==== Sys2Proof/Machine/Flags.lean ====
section
/-! DEFINITION. The flags and counts that one element of a result raises (R66, R114 to R120): `%fpsr` bits nv dz of uf nx
and the steps of `%ovc` and `%nvc`. -/
namespace Sys2Proof.Machine

/-- What delivering results adds to `%fpsr`, `%ovc` and `%nvc`. -/
structure Effects where
  flags : BitVec 5 := 0
  ov : Nat := 0
  nv : Nat := 0
  deriving DecidableEq, Repr

def Effects.join (a b : Effects) : Effects := { flags := a.flags ||| b.flags, ov := a.ov + b.ov, nv := a.nv + b.nv }

/-- No effect. -/
def fxNone : Effects := {}
/-- Invalid operation. -/
def fxNv : Effects := { flags := 0x10 }
/-- Division by zero. -/
def fxDz : Effects := { flags := 0x08 }
/-- Overflow, with inexact (R117). -/
def fxOf : Effects := { flags := 0x05 }
/-- Inexact. -/
def fxNx : Effects := { flags := 0x01 }
/-- Underflow, with inexact (R115). -/
def fxUf : Effects := { flags := 0x03 }
/-- One saturated element: counted in `%ovc`, with `of` and `nx` (R118). -/
def fxSat : Effects := { flags := 0x05, ov := 1 }
/-- One invalid element: counted in `%nvc`, with `nv` (R118, R119). -/
def fxInvalid : Effects := { flags := 0x10, nv := 1 }
/-- Inexact when a condition holds. -/
def fxInexact (b : Bool) : Effects := if b then fxNx else fxNone

def joinAll (l : List Effects) : Effects := l.foldl Effects.join {}

/-- Signed 32-bit clamp of an integer result (R119, R158): the word and its effects. -/
def clampTo (lo hi : Int) (v : Int) : Int × Effects :=
  if v < lo then (lo, fxSat) else if hi < v then (hi, fxSat) else (v, fxNone)

def satI32 (v : Int) : Word × Effects :=
  let r := clampTo (-2147483648) 2147483647 v
  (bits r.1, r.2)

def satN32 (v : Int) : Word × Effects :=
  let r := clampTo 0 4294967295 v
  (bits r.1, r.2)

/-- Carry out of an addition with carry in (R159). -/
def addCarry (a b : Word) (ci : Bool) : Bool := a.toNat + b.toNat + ci.toNat ≥ 2 ^ 32

/-- Borrow out of a subtraction with borrow in (R159). -/
def subBorrow (a b : Word) (ci : Bool) : Bool := a.toNat < b.toNat + ci.toNat

/-- A signed result outside I32 (R159). -/
def signedOver (v : Int) : Bool := decide (v < -2147483648) || decide (2147483647 < v)

end Sys2Proof.Machine
end

