-- ==== Sys2Proof/Machine/Numbers.lean ====
section
/-! DEFINITION. Number formats, exact values, rounding and range limits (R104 to R122, R125). A finite value is
± m × 2^e; sums and products are formed exactly and rounded once. -/
namespace Sys2Proof.Machine

/-- A floating format (R104): exponent and fraction widths, bias, the largest finite code, the infinity code where one
exists, the canonical NaN where one exists (R106). -/
structure Fmt where
  ebits : Nat
  fbits : Nat
  bias : Int
  maxCode : Nat
  inf : Option Nat
  nan : Option Nat
  deriving DecidableEq, Repr

def f64 : Fmt := ⟨11, 52, 1023, 0x7FEFFFFFFFFFFFFF, some 0x7FF0000000000000, some 0x7FF8000000000000⟩
def f32 : Fmt := ⟨8, 23, 127, 0x7F7FFFFF, some 0x7F800000, some 0x7FC00000⟩
def f16 : Fmt := ⟨5, 10, 15, 0x7BFF, some 0x7C00, some 0x7E00⟩
def bf16 : Fmt := ⟨8, 7, 127, 0x7F7F, some 0x7F80, some 0x7FC0⟩
def e4m3 : Fmt := ⟨4, 3, 7, 0x7E, none, some 0x7F⟩
def e5m2 : Fmt := ⟨5, 2, 15, 0x7B, some 0x7C, some 0x7E⟩
def e2m1 : Fmt := ⟨2, 1, 1, 0x7, none, none⟩

def Fmt.width (f : Fmt) : Nat := 1 + f.ebits + f.fbits

/-- The exponent of the subnormal grid (R105): the weight of the lowest fraction bit when the exponent field is 0. -/
def Fmt.grid (f : Fmt) : Int := 1 - f.bias - f.fbits

/-- A value: NaN, an infinity, or ± m × 2^e. -/
inductive FVal where
  | nan
  | inf (neg : Bool)
  | fin (neg : Bool) (m : Nat) (e : Int)
  deriving DecidableEq, Repr

/-- The value of a code (R105). -/
def Fmt.val (f : Fmt) (code : Nat) : FVal :=
  let neg := code / 2 ^ (f.ebits + f.fbits) % 2 = 1
  let mag := code % 2 ^ (f.ebits + f.fbits)
  let e := mag / 2 ^ f.fbits
  let fr := mag % 2 ^ f.fbits
  if mag ≤ f.maxCode then
    if e = 0 then .fin neg fr f.grid else .fin neg (2 ^ f.fbits + fr) (f.grid + (e - 1))
  else if some mag = f.inf then .inf neg
  else .nan

def FVal.neg : FVal → FVal
  | .nan => .nan
  | .inf s => .inf (!s)
  | .fin s m e => .fin (!s) m e

def FVal.abs : FVal → FVal
  | .nan => .nan
  | .inf _ => .inf false
  | .fin _ m e => .fin false m e

def FVal.isNan : FVal → Bool
  | .nan => true
  | _ => false

def FVal.isInf : FVal → Bool
  | .inf _ => true
  | _ => false

def FVal.isZero : FVal → Bool
  | .fin _ m _ => m = 0
  | _ => false

def FVal.sign : FVal → Bool
  | .nan => false
  | .inf s => s
  | .fin s _ _ => s

/-- An integer as a value; zero is +0. -/
def FVal.ofInt (v : Int) : FVal := .fin (decide (v < 0)) v.natAbs 0

/-- Multiplication by a power of two. -/
def FVal.scale (x : FVal) (k : Int) : FVal :=
  match x with
  | .fin s m e => .fin s m (e + k)
  | y => y

/-- m divided by 2^k and rounded to an integer in a mode (R114: 0 RNE, 1 RZ, 2 RD, 3 RU); whether it was inexact. -/
def roundShift (mode : BitVec 2) (neg : Bool) (m : Nat) (k : Nat) : Nat × Bool :=
  let q := m / 2 ^ k
  let r := m % 2 ^ k
  if r = 0 then (q, false)
  else
    let up : Bool := match mode.toNat with
      | 0 => decide (2 ^ k < 2 * r) || (2 * r = 2 ^ k && q % 2 = 1)
      | 1 => false
      | 2 => neg
      | _ => !neg
    (if up then q + 1 else q, true)

/-- m × 2^e rounded to a multiple of 2^g: the multiple and whether it was inexact. -/
def roundAt (mode : BitVec 2) (neg : Bool) (m : Nat) (e g : Int) : Nat × Bool :=
  if g ≤ e then (m * 2 ^ (e - g).toNat, false) else roundShift mode neg m (g - e).toNat

/-- The exponent of the highest set bit of m × 2^e. -/
def topExp (m : Nat) (e : Int) : Int := (Nat.log2 m : Int) + e

/-- The code of a finite non-zero value rounded with no upper limit of range: subnormals on their grid, and a code above
the largest finite when the rounded value is (R114, R115); with its effects. -/
def Fmt.roundCode (f : Fmt) (mode : BitVec 2) (neg : Bool) (m : Nat) (e : Int) : Nat × Effects :=
  let top := topExp m e
  let g := max (top - f.fbits) f.grid
  let r := roundAt mode neg m e g
  let tiny := decide (top < 1 - f.bias) &&
    decide (topExp (roundAt mode neg m e (top - f.fbits)).1 (top - f.fbits) < 1 - f.bias)
  ((g - f.grid).toNat * 2 ^ f.fbits + r.1,
    if r.2 then (if tiny then fxUf else fxNx) else fxNone)

/-- A sign in front of a magnitude code. -/
def Fmt.signed (f : Fmt) (neg : Bool) (mag : Nat) : Nat := if neg then 2 ^ (f.ebits + f.fbits) + mag else mag

/-- Delivery into F32 or F64 (R115 to R117). -/
def Fmt.deliver (f : Fmt) (mode : BitVec 2) (x : FVal) : Nat × Effects :=
  match x with
  | .nan => (f.nan.getD 0, fxNone)
  | .inf s => (f.signed s (f.inf.getD f.maxCode), fxNone)
  | .fin s 0 _ => (f.signed s 0, fxNone)
  | .fin s m e =>
    let r := f.roundCode mode s m e
    if r.1 ≤ f.maxCode then (f.signed s r.1, r.2)
    else
      let toInf : Bool := match mode.toNat with
        | 0 => true
        | 1 => false
        | 2 => s
        | _ => !s
      (f.signed s (if toInf then f.inf.getD f.maxCode else f.maxCode), fxOf)

/-- Delivery into F16, BF16, E4M3, E5M2 or E2M1 (R118). -/
def Fmt.deliverSat (f : Fmt) (mode : BitVec 2) (x : FVal) : Nat × Effects :=
  match x with
  | .nan => match f.nan with
    | some c => (c, fxNone)
    | none => (0, fxInvalid)
  | .inf s => match f.inf with
    | some c => (f.signed s c, fxNone)
    | none => (f.signed s f.maxCode, fxSat)
  | .fin s 0 _ => (f.signed s 0, fxNone)
  | .fin s m e =>
    let r := f.roundCode mode s m e
    if r.1 ≤ f.maxCode then (f.signed s r.1, r.2) else (f.signed s f.maxCode, fxSat)

/-- A finite value rounded to an integer (R180, R182). -/
def roundInt (mode : BitVec 2) (neg : Bool) (m : Nat) (e : Int) : Int × Bool :=
  let r := roundAt mode neg m e 0
  (if neg then -(r.1 : Int) else r.1, r.2)

/-- Delivery into an integer element between limits (R118). -/
def deliverInt (lo hi : Int) (mode : BitVec 2) (x : FVal) : Int × Effects :=
  match x with
  | .nan => (0, fxInvalid)
  | .inf s => (if s then lo else hi, fxSat)
  | .fin _ 0 _ => (0, fxNone)
  | .fin s m e =>
    if s && lo = 0 then (0, fxSat)
    else
      let r := roundInt mode s m e
      if r.1 < lo then (lo, fxSat) else if hi < r.1 then (hi, fxSat) else (r.1, fxInexact r.2)

/-- Conversion to I32 or N32 (R119, R182). -/
def toInteger (lo hi : Int) (mode : BitVec 2) (x : FVal) : Int × Effects :=
  match x with
  | .nan => (0, fxInvalid)
  | .inf s => (if s then lo else hi, fxInvalid)
  | .fin s m e =>
    let r := roundInt mode s m e
    if r.1 < lo then (lo, fxInvalid) else if hi < r.1 then (hi, fxInvalid) else (r.1, fxInexact r.2)

/-- Delivery into E8M0 (R118): a power of two in the mode given, RNE ties to the even code. -/
def deliverE8M0 (mode : BitVec 2) (x : FVal) : Nat × Effects :=
  match x with
  | .nan => (0xFF, fxNone)
  | .inf true => (0xFF, fxInvalid)
  | .inf false => (0xFE, fxSat)
  | .fin _ 0 _ => (0xFF, fxInvalid)
  | .fin true _ _ => (0xFF, fxInvalid)
  | .fin false m e =>
    let k := topExp m e
    let p := 2 ^ Nat.log2 m
    let exact := m = p
    let up : Bool := !exact && match mode.toNat with
      | 0 => decide (3 * p < 2 * m) || (2 * m = 3 * p && (k + 127) % 2 = 1)
      | 3 => true
      | _ => false
    let c := (if up then k + 1 else k) + 127
    if c < 0 then (0, fxUf) else if 254 < c then (0xFE, fxSat) else (c.toNat, fxInexact (!exact))

/-- The value of an E8M0 code (R105). -/
def valE8M0 (c : Nat) : FVal := if c = 0xFF then .nan else .fin false 1 ((c : Int) - 127)

/-- A product (R116, R121): the value, and whether it is 0 × ∞ of two factors that are not NaN. -/
def FVal.mul (x y : FVal) : FVal × Effects :=
  match x, y with
  | .nan, _ => (.nan, fxNone)
  | _, .nan => (.nan, fxNone)
  | .inf s, .inf t => (.inf (s != t), fxNone)
  | .inf s, .fin t m _ => if m = 0 then (.nan, fxNv) else (.inf (s != t), fxNone)
  | .fin s m _, .inf t => if m = 0 then (.nan, fxNv) else (.inf (s != t), fxNone)
  | .fin s m e, .fin t n d => (.fin (s != t) (m * n) (e + d), fxNone)

/-- The lowest exponent of the finite non-zero terms of a sum. -/
def minExp : List FVal → Option Int
  | [] => none
  | .fin _ m e :: r =>
    if m = 0 then minExp r
    else match minExp r with
      | none => some e
      | some d => some (min e d)
  | _ :: r => minExp r

/-- The finite terms of a sum on a grid 2^g at or below every term's. -/
def sumOn (g : Int) : List FVal → Int
  | [] => 0
  | .fin s m e :: r => (if s then -((m * 2 ^ (e - g).toNat : Nat) : Int) else ((m * 2 ^ (e - g).toNat : Nat) : Int)) + sumOn g r
  | _ :: r => sumOn g r

/-- The exact sum of terms (R116, R121); infinities of both signs are invalid, beside a NaN too (R190). -/
def FVal.sum (mode : BitVec 2) (l : List FVal) : FVal × Effects :=
  if l.any (fun x => x = .inf false) && l.any (fun x => x = .inf true) then (.nan, fxNv)
  else if l.any FVal.isNan then (.nan, fxNone)
  else if l.any (fun x => x = .inf false) then (.inf false, fxNone)
  else if l.any (fun x => x = .inf true) then (.inf true, fxNone)
  else
    match minExp l with
    | none => (.fin (l.all FVal.sign || mode = 2) 0 0, fxNone)
    | some g =>
      let v := sumOn g l
      if v = 0 then (.fin (mode = 2) 0 0, fxNone) else (.fin (decide (v < 0)) v.natAbs g, fxNone)

/-- Comparison of two values that are not NaN. -/
def FVal.lt (x y : FVal) : Bool :=
  match x, y with
  | .inf s, .inf t => s && !t
  | .inf s, _ => s
  | _, .inf t => !t
  | .fin s m e, .fin t n d =>
    let g := min e d
    decide (sumOn g [.fin s m e] < sumOn g [.fin t n d])
  | _, _ => false

def FVal.eq (x y : FVal) : Bool := !(x.lt y) && !(y.lt x)

/-! ### Packed elements (R107 to R109) -/

/-- Element i of width w of a word (R108). -/
def elem (x : Word) (w i : Nat) : Nat := x.toNat / 2 ^ (w * i) % 2 ^ w

/-- The word of a list of elements of width w, element 0 first. -/
def packElems (w : Nat) : List Nat → Nat
  | [] => 0
  | e :: es => e % 2 ^ w + 2 ^ w * packElems w es

/-- Elements per register and their width, of a tag (R108, R109). -/
def tagShape : Nat → Nat × Nat
  | 4 | 5 => (2, 16)
  | 6 | 7 | 9 | 10 | 14 => (4, 8)
  | 8 | 11 | 12 => (8, 4)
  | _ => (1, 32)

/-- The floating format of a tag's elements. -/
def tagFmt : Nat → Option Fmt
  | 3 => some f32
  | 4 => some f16
  | 5 => some bf16
  | 6 => some e4m3
  | 7 => some e5m2
  | 8 => some e2m1
  | 13 => some f64
  | _ => none

/-- Limits of the integer elements of a tag (R107). -/
def tagLimits : Nat → Option (Int × Int)
  | 1 => some (-2147483648, 2147483647)
  | 2 => some (0, 4294967295)
  | 9 => some (-128, 127)
  | 10 => some (0, 255)
  | 11 => some (-8, 7)
  | 12 => some (0, 15)
  | _ => none

/-- A code read as two's complement of a width. -/
def signedElem (w c : Nat) : Int := if c < 2 ^ (w - 1) then c else (c : Int) - 2 ^ w

/-- The integer of an element of an integer tag (R107). -/
def intElem (tag w c : Nat) : Int :=
  match tag with
  | 1 | 9 | 11 => signedElem w c
  | _ => c

/-- The value of an element of a tag. -/
def elemVal (tag c : Nat) : FVal :=
  match tagFmt tag with
  | some f => f.val c
  | none => if tag = 14 then valE8M0 c else .ofInt (intElem tag (tagShape tag).2 c)

/-- `conv` of R193: an exact value delivered as an element of a tag. -/
def convElem (tag : Nat) (mode : BitVec 2) (x : FVal) : Nat × Effects :=
  match tagFmt tag with
  | some f => if tag = 3 || tag = 13 then f.deliver mode x else f.deliverSat mode x
  | none =>
    if tag = 14 then deliverE8M0 mode x
    else
      match tagLimits tag with
      | some lim =>
        let r := deliverInt lim.1 lim.2 mode x
        ((r.1 % 2 ^ (tagShape tag).2).toNat, r.2)
      | none => (0, fxNone)

/-- The value of an F32 word. -/
def val32 (x : Word) : FVal := f32.val x.toNat

/-- The F32 word of a value, rounded once (R117). -/
def round32 (mode : BitVec 2) (x : FVal) : Word × Effects :=
  let r := f32.deliver mode x
  (BitVec.ofNat 32 r.1, r.2)

/-- The F64 value of a 64-bit code and its rounding. -/
def val64 (x : DWord) : FVal := f64.val x.toNat

def round64 (mode : BitVec 2) (x : FVal) : DWord × Effects :=
  let r := f64.deliver mode x
  (BitVec.ofNat 64 r.1, r.2)

end Sys2Proof.Machine
end

