-- ==== Sys2Proof/Machine/Operands.lean ====
section
/-! DEFINITION. How an instruction issues: its words, its operand codes (R142 to R144), the checks of R150 in their
order, reading its sources, and writing its destinations (R152, R153, R174). -/
namespace Sys2Proof.Machine

/-- What a step answers. -/
abbrev StepOut := Host.Outcome State Fault Refusal

/-- An instruction as it issues: its unit, its word and extension word (zero when it has none), its length in words and
whether the unit is in trap mode. -/
structure Ctx where
  u : IssueUnit
  word : Word
  x : Word
  len : Nat
  trap : Bool
  deriving DecidableEq, Repr

def State.ctx (s : State) (i : Instr) : Ctx :=
  let ws := encode i
  let u := s.unit
  { u := u, word := ws.headD 0, x := ws.getD 1 0, len := ws.length, trap := s.trapMode u }

/-- `%tval` of the causes that name no address (R397): the word, and the extension word above it. -/
def Ctx.tval (c : Ctx) : DWord := c.x ++ c.word

/-- The predicate pair of the clause (R137). -/
def pairOf (hw : Word) : Nat := (hw.extractLsb' 18 3).toNat

/-- A thread's guard (R145). -/
def State.guardTrue (s : State) (hw : Word) (q : BitVec 2) (t : Th) : Bool :=
  match q.toNat with
  | 0 => true
  | 1 => s.pred t (2 * pairOf hw)
  | 2 => s.pred t (2 * pairOf hw + 1)
  | _ => !(s.pred t (2 * pairOf hw))

/-- `active()` (R7, R152), in lane order. -/
def State.active (s : State) (c : Ctx) (q : BitVec 2) : List Th := c.u.th.filter (s.guardTrue c.u.hw q)

/-! ### Operand codes -/

/-- A tag rule: given the tag of operand a and the operand's own tag. -/
abbrev TagRule := Nat → Nat → Bool

def anyTag : TagRule := fun _ _ => true
/-- I32, N32 or RAW (R110). -/
def intTag : TagRule := fun _ t => t = 0 || t = 1 || t = 2
/-- F32 or RAW (R110). -/
def f32Tag : TagRule := fun _ t => t = 0 || t = 3
/-- F64 in each register of a pair (R110). -/
def f64Tag : TagRule := fun _ t => t = 13
/-- One exact tag. -/
def exactTag (k : Nat) : TagRule := fun _ t => t = k
/-- One tag or RAW. -/
def rawOr (k : Nat) : TagRule := fun _ t => t = 0 || t = k

/-- An operand: its code, the number of registers it names (0: not used), its tag rule and its FORMAT_MISMATCH detail. -/
structure Opd where
  code : BitVec 6 := 52
  n : Nat := 0
  ok : TagRule := anyTag
  det : Nat := 0

/-- The register n places after one. -/
def DReg.plus (r : DReg) : Nat → DReg
  | 0 => r
  | n + 1 => (r.plus n).succ

/-- The effective register of an index register's value (R53). -/
def ixEff (r : Word) : Nat := (r.extractLsb' 8 8).toNat + (r.extractLsb' 0 8).toNat

/-- The first detail of R54 that applies. -/
def ixFault (r : Word) (budget : Nat) (pair : Bool) : Option Nat :=
  let idx := (r.extractLsb' 0 8).toNat
  let base := (r.extractLsb' 8 8).toNat
  let len := (r.extractLsb' 16 8).toNat
  if len ≤ idx then some 0
  else if base < 48 then some 1
  else if budget < base + len then some 2
  else if pair && ((base + idx) % 2 = 1 || base + idx = budget - 1) then some 3
  else none

/-- Codes 48 to 51 (R142). -/
def isIx (code : BitVec 6) : Bool := 48 ≤ code.toNat && code.toNat ≤ 51

/-- The first register an operand code names, in any position (R142); codes 52 to 54 name none. -/
def State.dreg (s : State) (c : Ctx) (t : Th) (code : BitVec 6) : DReg :=
  let n := code.toNat
  if n < 48 then .v n
  else if n < 52 then .v (ixEff (s.ixReg t (n - 48)))
  else if n = 55 then .w (c.x.extractLsb' 0 6).toNat
  else if 56 ≤ n then (if c.trap then .k (n - 56) else .w (n - 56))
  else .discard

/-- The registers an operand names for a thread. -/
def State.regsOf (s : State) (c : Ctx) (t : Th) (o : Opd) : List DReg :=
  if o.code = 52 || o.code = 53 || o.code = 54 then [] else (List.range o.n).map fun i => (s.dreg c t o.code).plus i

/-- Register i of a source operand as a thread reads it (R142); codes 52 to 54 read as untagged values. -/
def State.src (s : State) (c : Ctx) (t : Th) (code : BitVec 6) (i : Nat) : Reg :=
  match code.toNat with
  | 52 => {}
  | 53 => { val := BitVec.ofNat 32 t.lane }
  | 54 => { val := c.x }
  | _ => s.getReg t ((s.dreg c t code).plus i)

/-- A destination code that names a uniform register, so that its write is a uniform write (R153). -/
def uniformDst (c : Ctx) (code : BitVec 6) : Bool := code = 55 || (56 ≤ code.toNat && !c.trap)

/-- A destination code that each home warp holds once: its lowest active lane writes it (R153). -/
def sharedDst (code : BitVec 6) : Bool := 55 ≤ code.toNat

/-! ### Faults of the words (R144, R149) -/

/-- One of the details that apply: the only one, or a free choice where several do (log entry 35). -/
def pickDetail : List Nat → Option Nat
  | [] => none
  | [d] => some d
  | d :: ds => some ((d :: ds).getD (Config.whichDetail (d :: ds) % (ds.length + 1)) d)

/-- One of the details whose condition holds. -/
def oneOf (l : List (Nat × Bool)) : Option Nat := pickDetail ((l.filter (·.2)).map (·.1))

/-- ILLEGAL_INSTR of a minor-code field (R149): a set bit that must be zero goes before a value not listed; an unlisted
extension field has no place in that order. -/
def illOf (two zero : Bool) (one : Bool := false) : Option Nat := oneOf [(2, two), (0, zero && !two), (1, one)]

/-- A minor code of which the bits of `z` must be zero. -/
def illZero (m z : BitVec 3) : Option Nat := illOf (m &&& z ≠ 0) false

/-- Bits [5:4] of a predicate or accumulator field (R155, R222). -/
def hiBits (v : BitVec 6) : Bool := v.extractLsb' 4 2 ≠ 0

/-- Codes 53 and 54 are not destinations (R142). -/
def dstBad (code : BitVec 6) : Bool := code = 53 || code = 54

/-- A code that is no pair (R174). -/
def pairBad (x : Word) (code : BitVec 6) : Bool :=
  code = 53 || code = 54 || (code = 55 && x.getLsbD 0) || (code.getLsbD 0 && code ≠ 55 && !(isIx code))

/-- How many of a list of codes use an extension word. -/
def extUses (l : List (BitVec 6)) : Nat := (l.filter callsX).length

/-- ILL_OPERAND of an instruction that carries an extension word only for code 54 or 55: its operand codes, which of
them are destinations, which are pairs, and its further conditions. -/
def opdV (x : Word) (all dst pairs : List (BitVec 6)) (zero : Bool := false) (five : Bool := false) : Option Nat :=
  oneOf [(0, zero || dst.any dstBad), (1, decide (1 < extUses all)), (2, pairs.any (pairBad x)),
    (3, all.contains 55 && x.extractLsb' 6 26 ≠ 0), (5, five)]

/-- ILL_OPERAND of an instruction that always carries an extension word, whose must-be-zero bits are `mbz`. Its X[5:0]
names no uniform register, so code 55 breaks no pair rule there. -/
def opdX (x : Word) (all dst pairs : List (BitVec 6)) (mbz : Bool) (zero : Bool := false) (five : Bool := false)
    (six : Bool := false) : Option Nat :=
  oneOf [(0, zero || dst.any dstBad), (1, decide (0 < extUses all)), (2, (pairs.filter (· ≠ 55)).any (pairBad x)), (3, mbz),
    (5, five), (6, six)]

/-- A pair position in which the rule of the instruction gives its own detail to the codes of `own`: R174's does not
count them (R196, R222). -/
def ownPair (own : Bool) (code : BitVec 6) : List (BitVec 6) := if own then [] else [code]

/-- The extension source c (R145). -/
def xc (x : Word) : BitVec 6 := x.extractLsb' 26 6

/-- The bits of an extension word below c are not all zero. -/
def xLow (x : Word) : Bool := x.extractLsb' 0 26 ≠ 0

/-! ### The checks of an instruction (R150) -/

/-- What R150 checks of an instruction: ILLEGAL_INSTR, ILL_OPERAND and PRIV details, operands a, b, c and others it
reads, its destination, a further UNIFORM_SPLIT_WRITE detail, and whether it acts with no active thread (R152). -/
structure Checks where
  q : BitVec 2
  ill : Option Nat := none
  opd : Option Nat := none
  priv : Option Nat := none
  a : Opd := {}
  b : Opd := {}
  c : Opd := {}
  more : List Opd := []
  d : Opd := {}
  split : Option Nat := none
  unc : Bool := false

/-- Operands that the instruction reads. -/
def Checks.srcs (k : Checks) : List Opd := k.a :: k.b :: k.c :: k.more

/-- Operands that the instruction names. -/
def Checks.opds (k : Checks) : List Opd := k.srcs ++ [k.d]

/-- The first of steps 2 to 4 of R150 that fails, as a cause. -/
def Checks.static (k : Checks) : Option Nat :=
  match k.ill, k.opd, k.priv with
  | some d, _, _ => some (cz 0x00 d)
  | none, some d, _ => some (cz 0x03 d)
  | none, none, some d => some (cz 0x04 d)
  | none, none, none => none

/-- A thread that fails a check, with the cause and `%tval` that it would give. -/
structure Bad where
  t : Th
  cause : Nat
  tval : DWord
  deriving DecidableEq, Repr

/-- The trap of a list of failures in lane order: the lowest lane decides (R150). -/
def trapOf (l : List Bad) : Option Trap :=
  match l with
  | [] => none
  | b :: _ => some { cause := b.cause, tval := b.tval, mask := l.map (·.t) }

/-- A check made once per home warp fails for all the active threads of that warp (R204; DEDUCED, log entry 38). -/
def Trap.wide (tr : Trap) (act : List Th) : Trap :=
  { tr with mask := act.filter fun t => tr.mask.any fun u => u.wid = t.wid }

/-- REG_INDEX_BOUND of one operand (R54, R397). -/
def State.ixBad (s : State) (t : Th) (o : Opd) : Option Bad :=
  if isIx o.code && 0 < o.n then
    let r := s.ixReg t (o.code.toNat - 48)
    (ixFault r (s.warp t.wid).budget (o.n = 2)).map fun d =>
      { t := t, cause := cz 0x08 d, tval := BitVec.ofNat 64 (o.code.toNat - 48 + 256 * (ixEff r % 256)) }
  else none

/-- Number of a register and whether it is uniform or trap scratch (R111). -/
def DReg.show : DReg → Nat × Bool
  | .discard => (0, false)
  | .v n => (n, false)
  | .w n => (n, true)
  | .k n => (n, true)

/-- The source registers of a thread whose tag their operand does not accept, each with its operand's detail (R111). -/
def State.tagFails (s : State) (c : Ctx) (k : Checks) (t : Th) : List (DReg × Nat) :=
  let ta := (s.src c t k.a.code 0).tag.toNat
  k.srcs.flatMap fun o => ((s.regsOf c t o).filter fun r => !(o.ok ta (s.getReg t r).tag.toNat)).map fun r => (r, o.det)

/-- The register of the least number, the first of them (log entry 35). -/
def lowestReg : List (DReg × Nat) → Option (DReg × Nat)
  | [] => none
  | x :: xs => match lowestReg xs with
    | none => some x
    | some y => if x.1.show.1 ≤ y.1.show.1 then some x else some y

/-- FORMAT_MISMATCH of a thread (R111): its lowest failing register. -/
def State.tagBad (s : State) (c : Ctx) (k : Checks) (t : Th) : Option Bad :=
  (lowestReg (s.tagFails c k t)).map fun r =>
    { t := t, cause := cz 0x0A r.2,
      tval := BitVec.ofNat 64 ((if r.1.show.2 then 65536 else 0) + 256 * r.1.show.1 + (s.getReg t r.1).tag.toNat) }

/-- An uncorrectable error in a register that a thread reads (R433). -/
def State.regUpset (s : State) (c : Ctx) (k : Checks) (t : Th) : Bool :=
  k.srcs.any fun o => (s.regsOf c t o).any fun r => match r with
    | .v n => s.upsets.any fun u => u = .register t.wid t.lane n
    | _ => false

/-- The first of steps 5 to 7 of R150 that fails, then an uncorrectable register (R433). -/
def State.dynamic (s : State) (c : Ctx) (k : Checks) (act : List Th) : Option Trap :=
  match trapOf (act.filterMap fun t => k.opds.findSome? (s.ixBad t)) with
  | some tr => some tr
  | none =>
    match trapOf (act.filterMap (s.tagBad c k)) with
    | some tr => some tr
    | none =>
      let whole := s.complete c.u
      if uniformDst c k.d.code && 0 < k.d.n && !whole then some { cause := cz 0x09 0, tval := c.tval, mask := act }
      else
        match k.split with
        | some d =>
          if whole then none else some { cause := cz 0x09 d, tval := c.tval, mask := act }
        | none => trapOf ((act.filter (s.regUpset c k)).map fun t => { t := t, cause := cz 0x17 2, tval := c.tval })

/-- A register that an access in flight will write is read or written (R203, R339). -/
def State.waitsReg (s : State) (c : Ctx) (k : Checks) (act : List Th) : Bool :=
  act.any fun t => k.opds.any fun o => (s.regsOf c t o).any (s.busy t)

/-- The registers that some threads read. -/
def State.readsOf (s : State) (c : Ctx) (k : Checks) (act : List Th) : List (Th × DReg) :=
  act.flatMap fun t => k.srcs.flatMap fun o => (s.regsOf c t o).map fun r => (t, r)

/-- A marked register is read outside trap mode (R207, R400). -/
def State.readsMarked (s : State) (c : Ctx) (k : Checks) (act : List Th) : Bool :=
  !c.trap && act.any fun t => k.srcs.any fun o => (s.regsOf c t o).any (s.marked t)

/-- What the checks answer: the instruction stops with a state, or goes on for its active threads. -/
inductive Gate where
  | stop (s : State)
  | go (act : List Th)

/-- The unit waits on a long-latency dependence (R41). -/
def State.stallLong (s : State) (u : IssueUnit) : State :=
  (u.mem.foldl (fun s p => s.onWarp p.1 fun w =>
    { w with depSince := some (w.depSince.getD (s.tickOf w.core)) }) s).stall

/-- The unit waits for registers of accesses in flight: a long-latency dependence when it reads one whose load missed the L1
(R41). -/
def State.interlock (s : State) (u : IssueUnit) (reads : List (Th × DReg)) : State :=
  if reads.any fun r => s.awaits AccKind.isMiss r.1 r.2 then s.stallLong u else s.stall

/-- Slivers of some warps that were found not ready at this tick are not looked at again before another step. -/
def State.markLooked (s : State) (wids : List Nat) : State :=
  wids.foldl (fun s wid => ((s.warp wid).slivers.filterMap fun k =>
    let gs := s.partGroups (s.partsOf { wid := wid, sliver := k })
    if gs.all fun g => g.2.looked = s.tick + 1 then (s.partsOf { wid := wid, sliver := k }).head? else none).foldl
      (fun s p => { s with tried := { wid := p.1, sliver := p.2 } :: s.tried }) s) s

/-- A wait that is not met (R28, R32, R41): `blocked` and `widle` dissolve a mixed warp, a counter wait does not; each
quad with deferred groups switches. -/
def State.unmet (s : State) (u : IssueUnit) (st : GroupSt) : State :=
  let s := if st = .waiting then s else s.dissolve u.mem
  let s := s.setSt u fun g => { g with st := st, looked := s.tick + 1 }
  ((s.stallLong u).switchUnit u).markLooked (u.mem.map (·.1))

/-- The checks of R150 steps 2 to 7 and the interlocks, in order (R152, R203, R207). -/
def State.gate (s : State) (c : Ctx) (k : Checks) : Gate :=
  match k.static with
  | some cause => .stop (s.takeTrap c.u { cause := cause, tval := c.tval, mask := c.u.th } c.len)
  | none =>
    let act := s.active c k.q
    if act = [] && !k.unc then .stop (s.advance c.u c.len)
    else if s.waitsReg c k act then .stop (s.interlock c.u (s.readsOf c k act))
    else if s.readsMarked c k act then
      .stop (if s.unitRecords c.u = [] then s.stall else s.takeRecorded c.u)
    else
      match s.dynamic c k act with
      | some tr => .stop (s.takeTrap c.u tr c.len)
      | none => .go act

/-! ### Values and writes -/

/-- What a thread's operands hold at issue: the registers of a, b and c in order, its predicates and the rounding mode
of its home warp (R152, R172). -/
structure Vals where
  lane : Nat
  a : Nat → Reg
  b : Nat → Reg
  c : Nat → Reg
  d : Nat → Reg
  p : BitVec 16
  rm : BitVec 2

def State.vals (s : State) (c : Ctx) (k : Checks) (t : Th) : Vals :=
  { lane := t.lane
    a := s.src c t k.a.code
    b := s.src c t k.b.code
    c := s.src c t k.c.code
    d := s.src c t k.d.code
    p := (s.warp t.wid).p.getD t.lane 0
    rm := (s.warp t.wid).fpcr.extractLsb' 0 2 }

def Vals.A (v : Vals) : Word := (v.a 0).val
def Vals.B (v : Vals) : Word := (v.b 0).val
def Vals.C (v : Vals) : Word := (v.c 0).val
def Vals.A64 (v : Vals) : DWord := (v.a 1).val ++ (v.a 0).val
def Vals.B64 (v : Vals) : DWord := (v.b 1).val ++ (v.b 0).val
def Vals.C64 (v : Vals) : DWord := (v.c 1).val ++ (v.c 0).val

/-- What an instruction gives one thread: its destination registers in order, predicates and effects. -/
structure Out where
  regs : List Reg := []
  preds : List (Nat × Bool) := []
  fx : Effects := {}
  deriving DecidableEq, Repr

/-- One register with a tag. -/
def out1 (tag : BitVec 4) (x : Word) (fx : Effects := {}) : Out := { regs := [{ val := x, tag := tag }], fx := fx }

/-- A pair with one tag in both registers (R110, R174). -/
def out2 (tag : BitVec 4) (x : DWord) (fx : Effects := {}) : Out :=
  { regs := [{ val := x.extractLsb' 0 32, tag := tag }, { val := x.extractLsb' 32 32, tag := tag }], fx := fx }

/-- Registers written from one upward; a discard writes nothing (R142). -/
def State.setRegs (s : State) (t : Th) (r : DReg) : List Reg → State
  | [] => s
  | x :: xs => (s.setReg t r x).setRegs t r.succ xs

/-- Predicates written. -/
def State.setPreds (s : State) (t : Th) : List (Nat × Bool) → State
  | [] => s
  | (n, b) :: ps => (s.setPred t n b).setPreds t ps

/-- Is this the lowest lane of its home warp in a list of threads (R153)? -/
def leads (act : List Th) (t : Th) : Bool := act.find? (fun u => u.wid = t.wid) = some t

/-- Effects of a list of results added to a home warp (R66, R120). -/
def State.addFx (s : State) (wid : Nat) (fx : Effects) : State :=
  s.onWarp wid fun w =>
    { w with
      ovc := satAdd w.ovc fx.ov
      nvc := satAdd w.nvc fx.nv
      fpsr := w.fpsr ||| (fx.flags.zeroExtend 32) }

/-- The results of an instruction written: each thread's destination as its register number was at issue, uniform ones
from each home warp's lowest active lane (R153), predicates, and each home warp's effects (R173). -/
def State.commit (s : State) (c : Ctx) (code : BitVec 6) (outs : List (Th × Out)) : State :=
  let act := outs.map (·.1)
  let dsts := outs.map fun o => (o, s.dreg c o.1 code)
  let s := dsts.foldl (fun s o =>
    let s := if sharedDst code && !(leads act o.1.1) then s else s.setRegs o.1.1 o.2 o.1.2.regs
    s.setPreds o.1.1 o.1.2.preds) s
  (widsOf act).foldl (fun s wid =>
    s.addFx wid (joinAll ((outs.filter (·.1.wid = wid)).map (·.2.fx)))) s

/-- An executed instruction of groups 000 and 010 counts once for each active thread (R454 counter 4). -/
def State.meterVec (s : State) (act : List Th) : State :=
  match act with
  | [] => s
  | t :: _ => s.meter (s.partOf t.wid) 4 act.length

/-- An instruction that computes for each active thread from its own operands, in one step at issue (R154): every
source is read before any destination is written (R7). -/
def alu (s : State) (i : Instr) (k : Checks) (sem : Vals → Out) : StepOut :=
  let c := s.ctx i
  match s.gate c k with
  | .stop s' => .next s'
  | .go act => .next (((s.commit c k.d.code (act.map fun t => (t, sem (s.vals c k t)))).advance c.u c.len).meterVec act)

/-- As `alu`, for instructions whose results depend on the whole set of active threads (R234). -/
def aluAll (s : State) (i : Instr) (k : Checks) (sem : Ctx → List Th → Th → Out) : StepOut :=
  let c := s.ctx i
  match s.gate c k with
  | .stop s' => .next s'
  | .go act => .next (((s.commit c k.d.code (act.map fun t => (t, sem c act t))).advance c.u c.len).meterVec act)

/-- Source operands of R110's groups. -/
def srcAny (code : BitVec 6) (det : Nat := 0) : Opd := { code := code, n := 1, det := det }
def srcInt (code : BitVec 6) (det : Nat := 0) : Opd := { code := code, n := 1, ok := intTag, det := det }
def srcF32 (code : BitVec 6) (det : Nat := 0) : Opd := { code := code, n := 1, ok := f32Tag, det := det }
def srcF64 (code : BitVec 6) (det : Nat := 0) : Opd := { code := code, n := 2, ok := f64Tag, det := det }
def dst1 (code : BitVec 6) : Opd := { code := code, n := 1 }
def dst2 (code : BitVec 6) : Opd := { code := code, n := 2 }

end Sys2Proof.Machine
end

