-- ==== Sys2Proof/Machine/Integer.lean ====
section
/-! DEFINITION. Integer, bit, move, compare, predicate and tag instructions, opcodes 0x00 to 0x23 (R152 to R171). -/
namespace Sys2Proof.Machine

/-! ### Shapes of operands -/

/-- Destination, two sources, no fixed extension word. -/
def chk2 (f : V3) (ill : Option Nat) (ok : TagRule) : Checks :=
  { q := f.q, ill := ill, opd := opdV f.x [f.d, f.a, f.b] [f.d] [],
    a := { code := f.a, n := 1, ok := ok }, b := { code := f.b, n := 1, ok := ok, det := 1 }, d := dst1 f.d }

/-- Destination and one source. -/
def chk1 (f : V3) (ill : Option Nat) (ok : TagRule) : Checks :=
  { q := f.q, ill := ill, opd := opdV f.x [f.d, f.a] [f.d] [], a := { code := f.a, n := 1, ok := ok }, d := dst1 f.d }

/-- Destination and three sources, the third named by the extension word, whose other bits are zero. -/
def chk3 (f : V3) (ill : Option Nat) (ok : TagRule) : Checks :=
  { q := f.q, ill := ill, opd := opdX f.x [f.d, f.a, f.b, xc f.x] [f.d] [] (xLow f.x),
    a := { code := f.a, n := 1, ok := ok }, b := { code := f.b, n := 1, ok := ok, det := 1 },
    c := { code := xc f.x, n := 1, ok := ok, det := 2 }, d := dst1 f.d }

/-- An m field that R148 does not list must be zero (R149). -/
def illM0 (m : BitVec 3) : Option Nat := illZero m 7

/-! ### NOP -/

/-- R157. -/
def execNop (f : V3) (s : State) : StepOut :=
  let c := s.ctx (.nop f)
  match s.gate c { q := f.q, ill := illM0 f.m } with
  | .stop s' => .next s'
  | .go _ => .next (s.advance c.u c.len)

/-! ### Addition and subtraction -/

/-- The sum or difference of R158: wrapped, or clamped to I32 or N32. -/
def addSat (sub sat uns : Bool) (a b : Word) : Word × Effects :=
  if !sat then (if sub then a - b else a + b, fxNone)
  else if uns then satN32 ((a.toNat : Int) + (if sub then -(b.toNat : Int) else b.toNat))
  else satI32 (a.toInt + (if sub then -b.toInt else b.toInt))

def outI32 (r : Word × Effects) : Out := out1 1 r.1 r.2

/-- R158. -/
def execIadd (f : V3) (s : State) : StepOut :=
  alu s (.iadd f) (chk2 f (illZero f.m 4) intTag) fun v =>
    outI32 (addSat false (f.m.getLsbD 0) (f.m.getLsbD 1) v.A v.B)

/-- R158. -/
def execIsub (f : V3) (s : State) : StepOut :=
  alu s (.isub f) (chk2 f (illZero f.m 4) intTag) fun v =>
    outI32 (addSat true (f.m.getLsbD 0) (f.m.getLsbD 1) v.A v.B)

/-- R158: the immediate form. -/
def execIaddi (f : RI) (s : State) : StepOut :=
  alu s (.iaddi f) { q := f.q, opd := opdV f.x [f.d, f.a] [f.d] [], a := srcInt f.a, d := dst1 f.d } fun v =>
    outI32 (addSat false false false v.A (f.imm.signExtend 32))

/-- Predicate n of a thread at issue. -/
def Vals.P (v : Vals) (n : Nat) : Bool := v.p.getLsbD n

/-- The result of IADDC or ISUBB (R159): the word, the carry or borrow, and the signed overflow. -/
def addWithCarry (sub : Bool) (a b : Word) (ci : Bool) : Word × Bool × Bool :=
  let k : Int := if ci then 1 else 0
  if sub then (a - b - (if ci then 1 else 0), subBorrow a b ci, signedOver (a.toInt - b.toInt - k))
  else (a + b + (if ci then 1 else 0), addCarry a b ci, signedOver (a.toInt + b.toInt + k))

def carryOut (m : BitVec 3) (r : Word × Bool × Bool) : Out :=
  { regs := [{ val := r.1, tag := 1 }], preds := [(2 * m.toNat, r.2.1), (2 * m.toNat + 1, r.2.2)] }

/-- R159. -/
def execIaddc (f : V3) (s : State) : StepOut :=
  alu s (.iaddc f) (chk2 f none intTag) fun v => carryOut f.m (addWithCarry false v.A v.B (v.P (2 * f.m.toNat)))

/-- R159. -/
def execIsubb (f : V3) (s : State) : StepOut :=
  alu s (.isubb f) (chk2 f none intTag) fun v => carryOut f.m (addWithCarry true v.A v.B (v.P (2 * f.m.toNat)))

/-! ### Multiplication, minimum, maximum, absolute value (R160) -/

/-- R160. -/
def execImul (f : V3) (s : State) : StepOut :=
  alu s (.imul f) (chk2 f (illM0 f.m) intTag) fun v => out1 1 (v.A * v.B)

/-- The high word of a 64-bit product (R160). -/
def mulHigh (uns : Bool) (a b : Word) : Word :=
  if uns then BitVec.ofNat 32 (a.toNat * b.toNat / 2 ^ 32) else bits ((a.toInt * b.toInt).fdiv (2 ^ 32))

/-- R160. -/
def execImulh (f : V3) (s : State) : StepOut :=
  alu s (.imulh f) (chk2 f (illZero f.m 6) intTag) fun v => out1 1 (mulHigh (f.m.getLsbD 0) v.A v.B)

/-- R160. -/
def execImad (f : V3) (s : State) : StepOut :=
  alu s (.imad f) (chk3 f (illM0 f.m) intTag) fun v => out1 1 (v.A * v.B + v.C)

/-- A ≤ B as I32, or as N32 (R160, R166). -/
def leWord (uns : Bool) (a b : Word) : Bool := if uns then a.toNat ≤ b.toNat else a.toInt ≤ b.toInt

/-- R160. -/
def execImin (f : V3) (s : State) : StepOut :=
  alu s (.imin f) (chk2 f (illZero f.m 6) intTag) fun v => out1 1 (if leWord (f.m.getLsbD 0) v.A v.B then v.A else v.B)

/-- R160. -/
def execImax (f : V3) (s : State) : StepOut :=
  alu s (.imax f) (chk2 f (illZero f.m 6) intTag) fun v => out1 1 (if leWord (f.m.getLsbD 0) v.B v.A then v.A else v.B)

/-- R160: the absolute value, wrapped or saturated. -/
def absWord (sat : Bool) (a : Word) : Word × Effects :=
  if sat then satI32 a.toInt.natAbs else (bits a.toInt.natAbs, fxNone)

/-- R160. -/
def execIabs (f : V3) (s : State) : StepOut :=
  alu s (.iabs f) (chk1 f (illZero f.m 6) intTag) fun v => outI32 (absWord (f.m.getLsbD 0) v.A)

/-! ### Bitwise, counts and shifts (R161 to R163) -/

/-- R161. -/
def execBitAnd (f : V3) (s : State) : StepOut :=
  alu s (.bitAnd f) (chk2 f (illM0 f.m) anyTag) fun v => out1 0 (v.A &&& v.B)

/-- R161. -/
def execBitOr (f : V3) (s : State) : StepOut :=
  alu s (.bitOr f) (chk2 f (illM0 f.m) anyTag) fun v => out1 0 (v.A ||| v.B)

/-- R161. -/
def execBitXor (f : V3) (s : State) : StepOut :=
  alu s (.bitXor f) (chk2 f (illM0 f.m) anyTag) fun v => out1 0 (v.A ^^^ v.B)

/-- R161. -/
def execAndn (f : V3) (s : State) : StepOut :=
  alu s (.andn f) (chk2 f (illM0 f.m) anyTag) fun v => out1 0 (v.A &&& ~~~v.B)

/-- SHL of R162. -/
def shlWord (a : Word) (c : Nat) : Word := if 32 ≤ c then 0 else a <<< c

/-- SHR of R162. -/
def shrWord (arith : Bool) (a : Word) (c : Nat) : Word :=
  if arith then a.sshiftRight (min c 31) else if 32 ≤ c then 0 else a >>> c

/-- ROT of R162. -/
def rotWord (right : Bool) (a : Word) (c : Nat) : Word := if right then a.rotateRight (c % 32) else a.rotateLeft (c % 32)

/-- SHF of R162: a is the high word, b the low one. -/
def funnel (right : Bool) (a b : Word) (c : Nat) : Word :=
  let x : DWord := a ++ b
  if 64 ≤ c then 0 else if right then (x >>> c).extractLsb' 0 32 else (x <<< c).extractLsb' 32 32

/-- R162. -/
def execShl (f : V3) (s : State) : StepOut :=
  alu s (.shl f) (chk2 f (illM0 f.m) anyTag) fun v => out1 0 (shlWord v.A v.B.toNat)

/-- R162. -/
def execShr (f : V3) (s : State) : StepOut :=
  alu s (.shr f) (chk2 f (illZero f.m 6) anyTag) fun v => out1 0 (shrWord (f.m.getLsbD 0) v.A v.B.toNat)

/-- R162. -/
def execRot (f : V3) (s : State) : StepOut :=
  alu s (.rot f) (chk2 f (illZero f.m 6) anyTag) fun v => out1 0 (rotWord (f.m.getLsbD 0) v.A v.B.toNat)

/-- R162. -/
def execShf (f : V3) (s : State) : StepOut :=
  alu s (.shf f) (chk3 f (illZero f.m 6) anyTag) fun v => out1 0 (funnel (f.m.getLsbD 0) v.A v.B v.C.toNat)

/-- The number of 1 bits. -/
def onesOf (a : Word) : Nat := (lanesOf a).length

/-- The number of 0 bits above the highest 1 bit. -/
def leadZeros (a : Word) : Nat := if a = 0 then 32 else 31 - Nat.log2 a.toNat

/-- Bit i of the result is bit 31 - i. -/
def bitRev (a : Word) : Word := maskOf ((List.range 32).filter fun i => a.getLsbD (31 - i))

/-- R161. -/
def execPopc (f : V3) (s : State) : StepOut :=
  alu s (.popc f) (chk1 f (illM0 f.m) anyTag) fun v => out1 0 (BitVec.ofNat 32 (onesOf v.A))

/-- R161. -/
def execClz (f : V3) (s : State) : StepOut :=
  alu s (.clz f) (chk1 f (illM0 f.m) anyTag) fun v => out1 0 (BitVec.ofNat 32 (leadZeros v.A))

/-- R161. -/
def execBrev (f : V3) (s : State) : StepOut :=
  alu s (.brev f) (chk1 f (illM0 f.m) anyTag) fun v => out1 0 (bitRev v.A)

/-- Position and length of a bit field (R163). -/
def fieldPos (x : Word) : Nat := (x.extractLsb' 0 5).toNat
def fieldLen (x : Word) : Nat := (x.extractLsb' 5 5).toNat

/-- BFX of R163. -/
def extractField (sx : Bool) (a : Word) (pos len : Nat) : Word :=
  let f := a.toNat / 2 ^ pos % 2 ^ len
  if sx && 0 < len && 2 ^ (len - 1) ≤ f then bits ((f : Int) - 2 ^ len) else BitVec.ofNat 32 f

/-- BFI of R163. -/
def insertField (a b : Word) (pos len : Nat) : Word :=
  let mask : Word := BitVec.ofNat 32 ((2 ^ len - 1) * 2 ^ pos)
  (a &&& ~~~mask) ||| ((b <<< pos) &&& mask)

/-- R163. -/
def execBfx (f : V3) (s : State) : StepOut :=
  alu s (.bfx f)
    { q := f.q, ill := illZero f.m 6, opd := opdX f.x [f.d, f.a] [f.d] [] (f.x.extractLsb' 10 22 ≠ 0),
      a := srcAny f.a, d := dst1 f.d }
    fun v => out1 0 (extractField (f.m.getLsbD 0) v.A (fieldPos f.x) (fieldLen f.x))

/-- R163. -/
def execBfi (f : V3) (s : State) : StepOut :=
  alu s (.bfi f)
    { q := f.q, ill := illM0 f.m, opd := opdX f.x [f.d, f.a, f.b] [f.d] [] (f.x.extractLsb' 10 22 ≠ 0),
      a := srcAny f.a, b := srcAny f.b 1, d := dst1 f.d }
    fun v => out1 0 (insertField v.A v.B (fieldPos f.x) (fieldLen f.x))

/-! ### Moves and addresses (R164, R165) -/

/-- R164: the predicate of SEL lies in the clause's pair. -/
def execSel (f : V3) (s : State) : StepOut :=
  alu s (.sel f) (chk2 f (illZero f.m 6) anyTag) fun v =>
    { regs := [if v.P (2 * pairOf s.unit.hw + (f.m.getLsbD 0).toNat) then v.a 0 else v.b 0] }

/-- R164. -/
def execMov (f : V3) (s : State) : StepOut :=
  alu s (.mov f) (chk1 f (illM0 f.m) anyTag) fun v => { regs := [v.a 0] }

/-- R164. -/
def execMovi (f : RW) (s : State) : StepOut :=
  alu s (.movi f) { q := f.q, opd := opdV f.x [f.d] [f.d] [], d := dst1 f.d } fun _ =>
    out1 1 (f.imm.signExtend 32)

/-- R164: bit 16 of the field must be zero (R145). -/
def execMovhi (f : RW) (s : State) : StepOut :=
  alu s (.movhi f)
    { q := f.q, ill := illOf (f.imm.getLsbD 16) false, opd := opdV f.x [f.d] [f.d] [], more := [srcAny f.d],
      d := dst1 f.d }
    fun v => out1 0 (f.imm.extractLsb' 0 16 ++ (v.d 0).val.extractLsb' 0 16)

/-- R165. -/
def execLea (f : V3) (s : State) : StepOut :=
  alu s (.lea f)
    { q := f.q, opd := opdV f.x [f.d, f.a, f.b] [f.d] [f.d, f.a],
      a := { code := f.a, n := 2, ok := intTag }, b := srcInt f.b 1, d := dst2 f.d }
    fun v => out2 1 (v.A64 + (v.B.signExtend 64 <<< f.m.toNat))

/-! ### Compares (R166, R167) -/

/-- The result of an integer compare (R166): codes 0 to 5; 6 is never, 7 always. -/
def compareInt (uns : Bool) (m : BitVec 3) (a b : Word) : Bool :=
  match m.toNat with
  | 0 => a = b
  | 1 => a ≠ b
  | 2 => !(leWord uns b a)
  | 3 => leWord uns a b
  | 4 => !(leWord uns a b)
  | 5 => leWord uns b a
  | 6 => false
  | _ => true

/-- The pair written for a compare's result c and the pair's prior values f, g (R167). -/
def combine (ty : Nat) (c f g : Bool) : Bool × Bool :=
  match ty with
  | 2 => (f && c, g && c)
  | 3 => (f || c, g || c)
  | 4 => (f && c, g && !c)
  | 5 => (f || c, g || !c)
  | 6 => (c, c)
  | _ => (c, !c)

/-- The combining type and the pair of a compare's d field (R148). -/
def cmpType (d : BitVec 6) : Nat := (d.extractLsb' 3 3).toNat
def cmpPair (d : BitVec 6) : Nat := (d.extractLsb' 0 3).toNat

/-- The predicates that a compare writes. -/
def cmpOut (d : BitVec 6) (v : Vals) (c : Bool) (fx : Effects := {}) : Out :=
  let k := cmpPair d
  let r := combine (cmpType d) c (v.P (2 * k)) (v.P (2 * k + 1))
  { preds := [(2 * k, r.1), (2 * k + 1, r.2)], fx := fx }

/-- A compare: the active threads combine, and `.unc` writes false to both predicates of the others (R152, R167). -/
def compareAll (s : State) (i : Instr) (d : BitVec 6) (k : Checks) (sem : Vals → Out) : StepOut :=
  let c := s.ctx i
  match s.gate c { k with unc := cmpType d = 1 } with
  | .stop s' => .next s'
  | .go act =>
    let off := if cmpType d = 1 then c.u.th.filter (fun t => !(act.contains t)) else []
    let clear : Out := { preds := [(2 * cmpPair d, false), (2 * cmpPair d + 1, false)] }
    .next (((s.commit c 52 (act.map (fun t => (t, sem (s.vals c k t))) ++ off.map fun t => (t, clear))).advance
      c.u c.len).meterVec act)

/-- The checks of ICMP: with the conditions `false` and `true` a and b are not read (R166). -/
def icmpChecks (f : V3) : Checks :=
  let used := !(f.m = 6 || f.m = 7)
  { q := f.q, ill := illOf false (cmpType f.d = 7), opd := if used then opdV f.x [f.a, f.b] [] [] else none,
    a := if used then srcInt f.a else {}, b := if used then srcInt f.b 1 else {} }

/-- R166. -/
def execIcmpS (f : V3) (s : State) : StepOut :=
  compareAll s (.icmpS f) f.d (icmpChecks f) fun v => cmpOut f.d v (compareInt false f.m v.A v.B)

/-- R166. -/
def execIcmpN (f : V3) (s : State) : StepOut :=
  compareAll s (.icmpN f) f.d (icmpChecks f) fun v => cmpOut f.d v (compareInt true f.m v.A v.B)

/-! ### Predicates, uniform moves, tags (R168 to R171) -/

/-- A predicate field's number. -/
def predNum (v : BitVec 6) : Nat := (v.extractLsb' 0 4).toNat

/-- PLOP's table index (R168). -/
def plopIndex (a b c : Bool) : Nat := 4 * a.toNat + 2 * b.toNat + c.toNat

/-- R168. -/
def execPlop (f : V3) (s : State) : StepOut :=
  alu s (.plop f)
    { q := f.q, ill := illOf (f.m ≠ 0 || hiBits f.d || hiBits f.a || hiBits f.b) false,
      opd := opdX f.x [] [] [] (f.x.extractLsb' 12 20 ≠ 0) }
    fun v => { preds := [(predNum f.d,
      f.x.getLsbD (plopIndex (v.P (predNum f.a)) (v.P (predNum f.b)) (v.P (f.x.extractLsb' 8 4).toNat)))] }

/-- R169. -/
def execPmov (f : V3) (s : State) : StepOut :=
  if f.m.getLsbD 0 then
    alu s (.pmov f) { q := f.q, ill := illOf (f.m &&& 6 ≠ 0 || hiBits f.d) false, opd := opdV f.x [f.a] [] [], a := srcAny f.a }
      fun v => { preds := [(predNum f.d, v.A.getLsbD 0)] }
  else
    alu s (.pmov f) { q := f.q, ill := illOf (f.m &&& 6 ≠ 0 || hiBits f.a) false, opd := opdV f.x [f.d] [f.d] [], d := dst1 f.d }
      fun v => out1 1 (if v.P (predNum f.a) then 1 else 0)

/-- R170: the codes allowed depend on the direction. -/
def execUmov (f : V3) (s : State) : StepOut :=
  let bad := if f.m.getLsbD 0 then 52 ≤ f.a.toNat || f.d.toNat < 55 else f.a.toNat < 55 || 53 ≤ f.d.toNat
  alu s (.umov f)
    { q := f.q, ill := illZero f.m 6, opd := opdV f.x [f.d, f.a] [f.d] [] bad, a := srcAny f.a, d := dst1 f.d }
    fun v => { regs := [v.a 0] }

/-- The tag that TAG set names. -/
def tagNamed (b : BitVec 6) : BitVec 4 := b.extractLsb' 0 4

/-- A destination code of an odd register as the first of a pair (R112). -/
def oddReg (d : BitVec 6) : Bool := (d.toNat < 48 || 56 ≤ d.toNat) && d.getLsbD 0

/-- R171. TAG set with `f64` is a pair use (R112, R156). -/
def execTag (f : V3) (s : State) : StepOut :=
  if f.m.getLsbD 0 then
    let t := tagNamed f.b
    let n := if t = 13 then 2 else 1
    alu s (.tag f)
      { q := f.q, ill := illOf (f.m &&& 6 ≠ 0 || hiBits f.b) false,
        opd := opdV f.x [f.d] [f.d] (if t = 13 && f.d = 55 then [f.d] else []) false
          (t = 15 || (t = 13 && oddReg f.d)),
        d := { code := f.d, n := n } }
      fun v => { regs := (List.range n).map fun i => { v.d i with tag := t } }
  else
    alu s (.tag f) (chk1 f (illZero f.m 6) anyTag) fun v => out1 2 ((v.a 0).tag.zeroExtend 32)

end Sys2Proof.Machine
end

