-- ==== Sys2Proof/Machine/Float.lean ====
section
/-! DEFINITION. Scalar floating-point instructions: FP32, compares, conversions, FP64 (R172 to R186). -/
namespace Sys2Proof.Machine

/-! ### Operand modifiers (R174, R177) -/

/-- Absolute value first, then negation. -/
def modify (ab ng : Bool) (x : FVal) : FVal :=
  let x := if ab then x.abs else x
  if ng then x.neg else x

/-- The modifiers of m on a and b (R177). -/
def modA (m : BitVec 3) (x : FVal) : FVal := modify (m.getLsbD 1) (m.getLsbD 0) x
def modB (m : BitVec 3) (y : FVal) : FVal := modify (m.getLsbD 2) false y

def outF32 (r : Word × Effects) : Out := out1 3 r.1 r.2
def outF64 (r : DWord × Effects) : Out := out2 13 r.1 r.2

/-- A value with the effects of forming it, rounded once to F32 (R114 to R117). -/
def finish32 (rm : BitVec 2) (r : FVal × Effects) : Out :=
  let d := round32 rm r.1
  outF32 (d.1, r.2.join d.2)

def finish64 (rm : BitVec 2) (r : FVal × Effects) : Out :=
  let d := round64 rm r.1
  outF64 (d.1, r.2.join d.2)

/-- The exact fused product and sum (R121, R178). -/
def fusedSum (rm : BitVec 2) (x y z : FVal) : FVal × Effects :=
  let p := x.mul y
  let r := FVal.sum rm [p.1, z]
  (r.1, p.2.join r.2)

/-- R177. -/
def execFadd (f : V3) (s : State) : StepOut :=
  alu s (.fadd f) (chk2 f none f32Tag) fun v =>
    finish32 v.rm (FVal.sum v.rm [modA f.m (val32 v.A), modB f.m (val32 v.B)])

/-- R177. -/
def execFsub (f : V3) (s : State) : StepOut :=
  alu s (.fsub f) (chk2 f none f32Tag) fun v =>
    finish32 v.rm (FVal.sum v.rm [modA f.m (val32 v.A), (modB f.m (val32 v.B)).neg])

/-- R177. -/
def execFmul (f : V3) (s : State) : StepOut :=
  alu s (.fmul f) (chk2 f none f32Tag) fun v => finish32 v.rm ((modA f.m (val32 v.A)).mul (modB f.m (val32 v.B)))

/-- The mode of FFMA and DFMA (R172). -/
def fmaMode (x : Word) (rm : BitVec 2) : BitVec 2 := if x.getLsbD 5 then x.extractLsb' 3 2 else rm

/-- The must-be-zero bits of FFMA's and DFMA's extension word (R175, R176). -/
def fmaMbz (x : Word) : Bool := x.extractLsb' 6 20 ≠ 0 || (!(x.getLsbD 5) && x.extractLsb' 3 2 ≠ 0)

/-- R178. -/
def execFfma (f : V3) (s : State) : StepOut :=
  alu s (.ffma f)
    { q := f.q, ill := illM0 f.m, opd := opdX f.x [f.d, f.a, f.b, xc f.x] [f.d] [] (fmaMbz f.x),
      a := srcF32 f.a, b := srcF32 f.b 1, c := srcF32 (xc f.x) 2, d := dst1 f.d }
    fun v =>
      let rm := fmaMode f.x v.rm
      finish32 rm (fusedSum rm (modify false (f.x.getLsbD 0) (val32 v.A)) (modify false (f.x.getLsbD 1) (val32 v.B))
        (modify false (f.x.getLsbD 2) (val32 v.C)))

/-- The bits of an F32 operand after its modifiers. -/
def modBits (ab ng : Bool) (x : Word) : Word :=
  let x := if ab then x &&& 0x7FFFFFFF else x
  if ng then x ^^^ 0x80000000 else x

def isNan32 (x : Word) : Bool := (val32 x).isNan

/-- The total order of FMIN and FMAX over encodings that are no NaN: −0 below +0 (R177). -/
def orderKey (x : Word) : Int :=
  let mag : Int := (x &&& 0x7FFFFFFF).toNat
  if x.getLsbD 31 then -mag - 1 else mag

/-- The lesser, or greater, of two F32 encodings (R177). -/
def pickMinMax (greater : Bool) (x y : Word) : Word :=
  if isNan32 x && isNan32 y then 0x7FC00000
  else if isNan32 x then y
  else if isNan32 y then x
  else if (if greater then decide (orderKey y ≤ orderKey x) else decide (orderKey x ≤ orderKey y)) then x else y

/-- R177. -/
def execFmin (f : V3) (s : State) : StepOut :=
  alu s (.fmin f) (chk2 f none f32Tag) fun v =>
    out1 3 (pickMinMax false (modBits (f.m.getLsbD 1) (f.m.getLsbD 0) v.A) (modBits (f.m.getLsbD 2) false v.B))

/-- R177. -/
def execFmax (f : V3) (s : State) : StepOut :=
  alu s (.fmax f) (chk2 f none f32Tag) fun v =>
    out1 3 (pickMinMax true (modBits (f.m.getLsbD 1) (f.m.getLsbD 0) v.A) (modBits (f.m.getLsbD 2) false v.B))

/-- A power of two's exponent held within what any format can tell apart. -/
def clampExp (k : Int) : Int := max (-4000) (min 4000 k)

/-- R179. -/
def execFscale (f : V3) (s : State) : StepOut :=
  alu s (.fscale f)
    { q := f.q, ill := illM0 f.m, opd := opdV f.x [f.d, f.a, f.b] [f.d] [], a := srcF32 f.a, b := srcInt f.b 1, d := dst1 f.d }
    fun v => finish32 v.rm ((val32 v.A).scale (clampExp v.B.toInt), fxNone)

/-- R180: the integer nearest in a mode, with the sign of the operand. -/
def roundToInt (mode : BitVec 2) (x : Word) : Word :=
  match val32 x with
  | .nan => 0x7FC00000
  | .fin s m e => (round32 0 (.fin s (roundInt mode s m e).1.natAbs 0)).1
  | _ => x

/-- R180. -/
def execFrnd (f : V3) (s : State) : StepOut :=
  alu s (.frnd f) (chk1 f (illZero f.m 4) f32Tag) fun v => out1 3 (roundToInt (f.m.extractLsb' 0 2) v.A)

/-! ### Compares (R181) -/

/-- The result of a floating compare and whether it raises `nv`. -/
def compareFloat (m : BitVec 3) (x y : FVal) : Bool × Effects :=
  let un := x.isNan || y.isNan
  let quiet := fxNone
  let loud := if un then fxNv else fxNone
  match m.toNat with
  | 0 => (!un && x.eq y, quiet)
  | 1 => (un || !(x.eq y), quiet)
  | 2 => (!un && x.lt y, loud)
  | 3 => (!un && !(y.lt x), loud)
  | 4 => (!un && y.lt x, loud)
  | 5 => (!un && !(x.lt y), loud)
  | 6 => (un, quiet)
  | _ => (!un, quiet)

/-- R181. -/
def execFcmp (f : V3) (s : State) : StepOut :=
  compareAll s (.fcmp f) f.d
    { q := f.q, ill := illOf false (cmpType f.d = 7), opd := opdV f.x [f.a, f.b] [] [], a := srcF32 f.a, b := srcF32 f.b 1 }
    fun v => let r := compareFloat f.m (val32 v.A) (val32 v.B); cmpOut f.d v r.1 r.2

/-- R181. -/
def execDcmp (f : V3) (s : State) : StepOut :=
  compareAll s (.dcmp f) f.d
    { q := f.q, ill := illOf false (cmpType f.d = 7), opd := opdV f.x [f.a, f.b] [] [f.a, f.b], a := srcF64 f.a, b := srcF64 f.b 1 }
    fun v => let r := compareFloat f.m (val64 v.A64) (val64 v.B64); cmpOut f.d v r.1 r.2

/-! ### Conversions (R182 to R185) -/

/-- A value to I32, or to N32 (R182). -/
def toInt32 (uns : Bool) (mode : BitVec 2) (x : FVal) : Word × Effects :=
  let r := if uns then toInteger 0 4294967295 mode x else toInteger (-2147483648) 2147483647 mode x
  (bits r.1, r.2)

/-- R182. -/
def execF2i (f : V3) (s : State) : StepOut :=
  alu s (.f2i f) (chk1 f none f32Tag) fun v =>
    let r := toInt32 (f.m.getLsbD 0) (f.m.extractLsb' 1 2) (val32 v.A)
    out1 (if f.m.getLsbD 0 then 2 else 1) r.1 r.2

/-- R183. -/
def execI2f (f : V3) (s : State) : StepOut :=
  alu s (.i2f f) (chk1 f (illZero f.m 6) intTag) fun v =>
    finish32 v.rm (.ofInt (if f.m.getLsbD 0 then v.A.toNat else v.A.toInt), fxNone)

/-- Source and destination tags and mode of FCVT and PCVT. -/
def cvtSrc (x : Word) : Nat := (x.extractLsb' 0 4).toNat
def cvtDst (x : Word) : Nat := (x.extractLsb' 4 4).toNat

/-- The pairs of FCVT (R184). -/
def fcvtPair (a b : Nat) : Bool :=
  [(3, 13), (13, 3), (3, 4), (3, 5), (4, 3), (5, 3), (13, 1), (13, 2), (1, 13), (2, 13)].contains (a, b)

/-- FCVT's conversion of one thread (R184). -/
def convert (src dst : Nat) (mode : BitVec 2) (v : Vals) : Out :=
  let x : FVal := match src with
    | 13 => val64 v.A64
    | 4 => f16.val (elem v.A 16 0)
    | 5 => bf16.val (elem v.A 16 0)
    | 1 => .ofInt v.A.toInt
    | 2 => .ofInt v.A.toNat
    | _ => val32 v.A
  match dst with
  | 13 => finish64 mode (x, fxNone)
  | 4 => let r := f16.deliverSat mode x; out1 4 (BitVec.ofNat 32 r.1) r.2
  | 5 => let r := bf16.deliverSat mode x; out1 5 (BitVec.ofNat 32 r.1) r.2
  | 1 => let r := toInt32 false mode x; out1 1 r.1 r.2
  | 2 => let r := toInt32 true mode x; out1 2 r.1 r.2
  | _ => finish32 mode (x, fxNone)

/-- R184. -/
def execFcvt (f : V3) (s : State) : StepOut :=
  let a := cvtSrc f.x
  let b := cvtDst f.x
  alu s (.fcvt f)
    { q := f.q, ill := illOf (f.m ≠ 0) false (a ≠ 15 && b ≠ 15 && !(fcvtPair a b)),
      opd := opdX f.x [f.d, f.a] [f.d] ((if a = 13 then [f.a] else []) ++ if b = 13 then [f.d] else [])
        (f.x.extractLsb' 10 22 ≠ 0) false (a = 15 || b = 15),
      a := { code := f.a, n := if a = 13 then 2 else 1, ok := rawOr a },
      d := { code := f.d, n := if b = 13 then 2 else 1 } }
    fun v => convert a b (f.x.extractLsb' 8 2) v

/-- The class bit of an F32 value (R185). -/
def classBit (x : Word) : Nat :=
  let neg := x.getLsbD 31
  let e := (x.extractLsb' 23 8).toNat
  let fr := (x.extractLsb' 0 23).toNat
  if e = 255 then (if fr = 0 then (if neg then 0 else 7) else if x.getLsbD 22 then 9 else 8)
  else if e = 0 then (if fr = 0 then (if neg then 3 else 4) else if neg then 2 else 5)
  else if neg then 1 else 6

/-- R185. -/
def execFclass (f : V3) (s : State) : StepOut :=
  alu s (.fclass f) (chk1 f (illM0 f.m) f32Tag) fun v => out1 1 (1#32 <<< classBit v.A)

/-! ### FP64 (R186) -/

/-- The checks of a two-source FP64 instruction. -/
def chkD2 (f : V3) : Checks :=
  { q := f.q, opd := opdV f.x [f.d, f.a, f.b] [f.d] [f.d, f.a, f.b], a := srcF64 f.a, b := srcF64 f.b 1, d := dst2 f.d }

/-- R186. -/
def execDadd (f : V3) (s : State) : StepOut :=
  alu s (.dadd f) (chkD2 f) fun v =>
    finish64 v.rm (FVal.sum v.rm [modA f.m (val64 v.A64), modB f.m (val64 v.B64)])

/-- R186. -/
def execDmul (f : V3) (s : State) : StepOut :=
  alu s (.dmul f) (chkD2 f) fun v => finish64 v.rm ((modA f.m (val64 v.A64)).mul (modB f.m (val64 v.B64)))

/-- R186. -/
def execDfma (f : V3) (s : State) : StepOut :=
  alu s (.dfma f)
    { q := f.q, ill := illM0 f.m,
      opd := opdX f.x [f.d, f.a, f.b, xc f.x] [f.d] [f.d, f.a, f.b, xc f.x] (fmaMbz f.x),
      a := srcF64 f.a, b := srcF64 f.b 1, c := srcF64 (xc f.x) 2, d := dst2 f.d }
    fun v =>
      let rm := fmaMode f.x v.rm
      finish64 rm (fusedSum rm (modify false (f.x.getLsbD 0) (val64 v.A64)) (modify false (f.x.getLsbD 1) (val64 v.B64))
        (modify false (f.x.getLsbD 2) (val64 v.C64)))

end Sys2Proof.Machine
end

