-- ==== Sys2Proof/Machine/Packed.lean ====
section
/-! DEFINITION. Packed narrow instructions (R188 to R195). -/
namespace Sys2Proof.Machine

/-- A word of elements, each computed from its index, with the effects joined. -/
def packWith (w n : Nat) (f : Nat → Nat × Effects) : Word × Effects :=
  let es := (List.range n).map f
  (BitVec.ofNat 32 (packElems w (es.map (·.1))), joinAll (es.map (·.2)))

/-- An element as a value of a tag's format. -/
def elAt (tag : Nat) (x : Word) (i : Nat) : FVal := elemVal tag (elem x (tagShape tag).2 i)

/-- Elementwise arithmetic on packed words of one floating tag, each element rounded once (R118). -/
def packedMap (tag : Nat) (rm : BitVec 2) (f : Nat → FVal × Effects) : Out :=
  let sh := tagShape tag
  let r := packWith sh.2 sh.1 fun i =>
    let x := f i
    let d := convElem tag rm x.1
    (d.1, x.2.join d.2)
  out1 (BitVec.ofNat 4 tag) r.1 r.2

/-- The tag of HADD2 and HFMA2, and of QADD4 and QMUL4. -/
def halfTag (m : BitVec 3) : Nat := if m.getLsbD 0 then 5 else 4
def byteTag (m : BitVec 3) : Nat := if m.getLsbD 0 then 7 else 6

/-- R188. -/
def execHadd2 (f : V3) (s : State) : StepOut :=
  alu s (.hadd2 f) (chk2 f (illZero f.m 6) (exactTag (halfTag f.m))) fun v =>
    packedMap (halfTag f.m) v.rm fun i => FVal.sum v.rm [elAt (halfTag f.m) v.A i, elAt (halfTag f.m) v.B i]

/-- R188. -/
def execHfma2 (f : V3) (s : State) : StepOut :=
  alu s (.hfma2 f) (chk3 f (illZero f.m 6) (exactTag (halfTag f.m))) fun v =>
    packedMap (halfTag f.m) v.rm fun i =>
      fusedSum v.rm (elAt (halfTag f.m) v.A i) (elAt (halfTag f.m) v.B i) (elAt (halfTag f.m) v.C i)

/-- R189. -/
def execQadd4 (f : V3) (s : State) : StepOut :=
  alu s (.qadd4 f) (chk2 f (illZero f.m 6) (exactTag (byteTag f.m))) fun v =>
    packedMap (byteTag f.m) v.rm fun i => FVal.sum v.rm [elAt (byteTag f.m) v.A i, elAt (byteTag f.m) v.B i]

/-- R189. -/
def execQmul4 (f : V3) (s : State) : StepOut :=
  alu s (.qmul4 f) (chk2 f (illZero f.m 6) (exactTag (byteTag f.m))) fun v =>
    packedMap (byteTag f.m) v.rm fun i => (elAt (byteTag f.m) v.A i).mul (elAt (byteTag f.m) v.B i)

/-- The exact dot product with an addend (R121, R190). -/
def dotSum (ta tb n : Nat) (rm : BitVec 2) (a b : Word) (z : FVal) : FVal × Effects :=
  let ps := (List.range n).map fun i => (elAt ta a i).mul (elAt tb b i)
  let r := FVal.sum rm (z :: ps.map (·.1))
  (r.1, (joinAll (ps.map (·.2))).join r.2)

/-- The checks of a dot product: exact tags for a and b, and a rule for c. -/
def chkDot (f : V3) (ill : Option Nat) (ta tb : Nat) (okc : TagRule) : Checks :=
  { q := f.q, ill := ill, opd := opdX f.x [f.d, f.a, f.b, xc f.x] [f.d] [] (xLow f.x),
    a := { code := f.a, n := 1, ok := exactTag ta }, b := { code := f.b, n := 1, ok := exactTag tb, det := 1 },
    c := { code := xc f.x, n := 1, ok := okc, det := 2 }, d := dst1 f.d }

/-- The tags DOT4 reads (R190). -/
def dotTagA (m : BitVec 3) : Nat := if m.getLsbD 0 then 7 else 6
def dotTagB (m : BitVec 3) : Nat := if m.getLsbD 1 then 7 else 6

/-- R190. -/
def execDot4 (f : V3) (s : State) : StepOut :=
  alu s (.dot4 f) (chkDot f (illZero f.m 4) (dotTagA f.m) (dotTagB f.m) f32Tag) fun v =>
    finish32 v.rm (dotSum (dotTagA f.m) (dotTagB f.m) 4 v.rm v.A v.B (val32 v.C))

/-- R190. -/
def execDot8 (f : V3) (s : State) : StepOut :=
  alu s (.dot8 f) (chkDot f (illM0 f.m) 8 8 f32Tag) fun v => finish32 v.rm (dotSum 8 8 8 v.rm v.A v.B (val32 v.C))

/-- The exact integer dot product (R191). -/
def intDot (ta tb n : Nat) (a b : Word) : Int :=
  let w := (tagShape ta).2
  ((List.range n).map fun i => intElem ta w (elem a w i) * intElem tb w (elem b w i)).foldl (· + ·) 0

/-- The result of IDOT4 and IDOT8 (R191). -/
def intDotOut (m : BitVec 3) (ta tb n : Nat) (v : Vals) : Out :=
  let sg := m.getLsbD 0 || m.getLsbD 1
  let y := intDot ta tb n v.A v.B + (if sg then v.C.toInt else v.C.toNat)
  if m.getLsbD 2 then outI32 (if sg then satI32 y else satN32 y) else out1 1 (bits y)

def idotTag (sg : Bool) (base : Nat) : Nat := if sg then base else base + 1

/-- R191. -/
def execIdot4 (f : V3) (s : State) : StepOut :=
  let ta := idotTag (f.m.getLsbD 0) 9
  let tb := idotTag (f.m.getLsbD 1) 9
  alu s (.idot4 f) (chkDot f none ta tb intTag) (intDotOut f.m ta tb 4)

/-- R191. -/
def execIdot8 (f : V3) (s : State) : StepOut :=
  let ta := idotTag (f.m.getLsbD 0) 11
  let tb := idotTag (f.m.getLsbD 1) 11
  alu s (.idot8 f) (chkDot f none ta tb intTag) (intDotOut f.m ta tb 8)

/-! ### PCVT (R192, R193) -/

/-- The pairs of PCVT (R192). -/
def pcvtPair (a b : Nat) : Bool :=
  (a = 3 && [4, 5, 6, 7, 9, 10, 14, 8, 11, 12].contains b) ||
  ((a = 4 || a = 5) && [6, 7, 8, 3].contains b) ||
  (a = 1 && (b = 9 || b = 11)) || (a = 2 && (b = 10 || b = 12)) ||
  ((a = 6 || a = 7) && [4, 5, 3].contains b) ||
  (a = 8 && [4, 5, 3].contains b) ||
  (b = 3 && [9, 10, 14, 11, 12].contains a)

/-- Elements per register of the source and of the destination. -/
def perReg (tag : Nat) : Nat := (tagShape tag).1

/-- Registers of the group on one side; tag 15 names no format, so there is no group (R176). -/
def groupOf (mine other : Nat) : Nat :=
  if mine = 15 || other = 15 then 1 else if perReg mine < perReg other then perReg other / perReg mine else 1

/-- A code that starts no group of N direct registers (R192). -/
def groupBad (code : BitVec 6) (n : Nat) : Bool := 1 < n && (48 ≤ code.toNat || code.toNat % n ≠ 0)

/-- A group of N direct registers that runs past `v47` (R176). -/
def groupPast (code : BitVec 6) (n : Nat) : Bool := 1 < n && code.toNat < 48 && 48 < code.toNat + n

/-- One element of PCVT: scaled exactly, then delivered (R193). -/
def pcvtElem (a b : Nat) (narrow : Bool) (scale : Nat) (mode : BitVec 2) (v : Vals) (j : Nat) : Nat × Effects :=
  let se := perReg a
  let k : Int := (scale : Int) - 127
  let x := if scale = 255 then FVal.nan else elAt a (v.a (j / se)).val (j % se)
  convElem b mode (x.scale (if narrow then -k else k))

/-- The destination registers of PCVT. -/
def pcvtOut (a b : Nat) (scale : Nat) (mode : BitVec 2) (v : Vals) : Out :=
  let se := perReg a
  let de := perReg b
  let n := max se de / de
  let rs := (List.range n).map fun r =>
    packWith (tagShape b).2 de fun i => pcvtElem a b (se < de) scale mode v (r * de + i)
  { regs := rs.map fun r => { val := r.1, tag := BitVec.ofNat 4 b }, fx := joinAll (rs.map (·.2)) }

/-- R192, R193. -/
def execPcvt (f : V3) (s : State) : StepOut :=
  let a := cvtSrc f.x
  let b := cvtDst f.x
  let na := groupOf a b
  let nb := groupOf b a
  alu s (.pcvt f)
    { q := f.q, ill := illOf (f.m ≠ 0) false (a ≠ 15 && b ≠ 15 && !(pcvtPair a b)),
      opd := opdX f.x [f.d, f.a] [f.d] [] (f.x.extractLsb' 18 14 ≠ 0) (groupBad f.a na || groupBad f.d nb)
        (a = 15 || b = 15) (groupPast f.a na || groupPast f.d nb),
      a := { code := f.a, n := na, ok := rawOr a }, d := { code := f.d, n := nb } }
    (pcvtOut a b (f.x.extractLsb' 8 8).toNat (f.x.extractLsb' 16 2))

/-! ### PSCALE and PAMAX (R194, R195) -/

/-- The tags that PSCALE and PAMAX accept of a. -/
def packedFloatTag : TagRule := fun _ t => 4 ≤ t && t ≤ 8

/-- Codes 52 to 54 are not allowed as a (R176). -/
def noReg (code : BitVec 6) : Bool := code = 52 || code = 53 || code = 54

/-- R194. -/
def execPscale (f : V3) (s : State) : StepOut :=
  alu s (.pscale f)
    { q := f.q, ill := illM0 f.m, opd := opdV f.x [f.d, f.a, f.b] [f.d] [] (noReg f.a),
      a := { code := f.a, n := 1, ok := packedFloatTag }, b := srcInt f.b 1, d := dst1 f.d }
    fun v =>
      let t := (v.a 0).tag.toNat
      packedMap t v.rm fun i => ((elAt t v.A i).scale (clampExp v.B.toInt), fxNone)

/-- The larger of two magnitudes, or the canonical NaN (R195). -/
def maxMag (t : Nat) (x y : Nat) : Nat :=
  let half := 2 ^ ((tagShape t).2 - 1)
  if (elemVal t x).isNan || (elemVal t y).isNan then ((tagFmt t).bind (·.nan)).getD 0 else max (x % half) (y % half)

/-- R195: b carries a's tag, or none. -/
def execPamax (f : V3) (s : State) : StepOut :=
  alu s (.pamax f)
    { q := f.q, ill := illM0 f.m, opd := opdV f.x [f.d, f.a, f.b] [f.d] [] (noReg f.a),
      a := { code := f.a, n := 1, ok := packedFloatTag }, b := { code := f.b, n := 1, ok := fun ta t => t = ta, det := 1 },
      d := dst1 f.d }
    fun v =>
      let t := (v.a 0).tag.toNat
      let sh := tagShape t
      out1 (v.a 0).tag (packWith sh.2 sh.1 fun i => (maxMag t (elem v.A sh.2 i) (elem v.B sh.2 i), fxNone)).1

end Sys2Proof.Machine
end

