-- ==== Sys2Proof/Machine/Warpwide.lean ====
section
/-! DEFINITION. Operations across the threads of a home warp (R234 to R238) and the exact accumulators (R123 to R126,
R239 to R245). -/
namespace Sys2Proof.Machine

/-- `H(t)`: the active threads of t's home warp (R236). -/
def homeOf (act : List Th) (t : Th) : List Th := act.filter (·.wid = t.wid)

/-! ### SHFL, VOTE, IRED, MATCH -/

/-- The source lane of SHFL (R235). -/
def shflLane (m : BitVec 3) (lane b : Nat) : Nat :=
  match m.toNat with
  | 0 => b % 32
  | 1 => (lane + b) % 32
  | 2 => lane ^^^ (b % 32)
  | _ => 4 * (lane / 4) + b % 4

/-- The thread that SHFL takes a thread's value from: the source when it issues with it, else itself. -/
def shflFrom (issuing : List Th) (t : Th) (j : Nat) : Th :=
  if issuing.contains { wid := t.wid, lane := j } then { wid := t.wid, lane := j } else t

/-- The value SHFL reads: the register number is formed by t, the register read in u (R235). -/
def State.shflRead (s : State) (c : Ctx) (t u : Th) (code : BitVec 6) : Reg :=
  match code.toNat with
  | 52 => {}
  | 53 => { val := BitVec.ofNat 32 u.lane }
  | 54 => { val := c.x }
  | _ => s.getReg u (s.dreg c t code)

/-- SHFL's source thread of an active thread. -/
def State.shflSrc (s : State) (c : Ctx) (f : V3) (t : Th) : Th :=
  shflFrom c.u.th t (shflLane f.m t.lane (s.src c t f.b 0).val.toNat)

/-- R235: a source register in another thread that waits for a load, or is marked, holds the unit as its own would. -/
def execShfl (f : V3) (s : State) : StepOut :=
  let c := s.ctx (.shfl f)
  match s.gate c { q := f.q, ill := illOf false (3 < f.m.toNat), opd := opdV f.x [f.d, f.a, f.b] [f.d] [],
                   a := srcAny f.a, b := srcAny f.b 1, d := dst1 f.d } with
  | .stop s' => .next s'
  | .go act =>
    let reads := act.map fun t => (s.shflSrc c f t, s.dreg c t f.a)
    if reads.any fun r => s.busy r.1 r.2 then .next (s.interlock c.u reads)
    else if !c.trap && reads.any fun r => s.marked r.1 r.2 then .next (s.takeRecorded c.u)
    else
      .next (((s.commit c f.d (act.map fun t => (t, { regs := [s.shflRead c t (s.shflSrc c f t) f.a] }))).advance
        c.u c.len).meterVec act)

/-- The result of VOTE for a thread (R236). -/
def voteOut (mode : Nat) (h yes : List Th) (t : Th) : Out :=
  let flag (b : Bool) : Out := out1 1 (if b then 1 else 0)
  match mode with
  | 0 => flag (yes ≠ [])
  | 1 => flag (yes.length = h.length)
  | 2 => out1 0 (maskOf (yes.map (·.lane)))
  | 3 => flag (h.head? = some t)
  | 4 => out1 2 (BitVec.ofNat 32 yes.length)
  | _ => out1 2 (BitVec.ofNat 32 (yes.filter (·.lane < t.lane)).length)

/-- R236. -/
def execVote (f : V3) (s : State) : StepOut :=
  aluAll s (.vote f)
    { q := f.q, ill := illOf (f.m ≠ 3 && hiBits f.a) (5 < f.m.toNat),
      opd := opdV f.x [f.d] [f.d] [] (f.m = 2 && f.d.toNat < 55), d := dst1 f.d }
    fun _ act t =>
      let h := homeOf act t
      voteOut f.m.toNat h (h.filter fun u => s.pred u (predNum f.a)) t

/-- The reduction of a list of words (R237). -/
def reduce (op : Nat) : List Word → Word
  | [] => 0
  | x :: xs => xs.foldl (fun a b => match op with
    | 0 => a + b
    | 1 => if leWord false a b then a else b
    | 2 => if leWord true a b then a else b
    | 3 => if leWord false b a then a else b
    | 4 => if leWord true b a then a else b
    | 5 => a &&& b
    | 6 => a ||| b
    | _ => a ^^^ b) x

/-- R237. -/
def execIred (f : V3) (s : State) : StepOut :=
  aluAll s (.ired f) (chk1 f none intTag) fun c act t =>
    out1 1 (reduce f.m.toNat ((homeOf act t).map fun u => (s.src c u f.a 0).val))

/-- The word of MATCH (R238): the place in the group, its size and its lowest lane. -/
def matchWord (g : List Th) (t : Th) : Word :=
  BitVec.ofNat 32 (2048 * (g.filter (·.lane < t.lane)).length + 32 * g.length + ((g.head?.map (·.lane)).getD 0))

/-- R238. -/
def execMatchLanes (f : V3) (s : State) : StepOut :=
  aluAll s (.matchLanes f) (chk1 f (illM0 f.m) anyTag) fun c act t =>
    out1 0 (matchWord ((homeOf act t).filter fun u => (s.src c u f.a 0).val = (s.src c t f.a 0).val) t)

/-! ### Exact accumulators -/

/-- The value as an integer in units of 2^-320. -/
def KAcc.int (k : KAcc) : Int := k.val.toInt

/-- An exact integer, in units of 2^-320, is outside the range (R123). -/
def kOver (v : Int) : Bool := decide (v < -(2 ^ 639)) || decide (2 ^ 639 ≤ v)

/-- A value replaced, `ovf` set when the exact sum left the range (R123, R124). -/
def KAcc.setInt (k : KAcc) (v : Int) : KAcc :=
  { val := BitVec.ofInt 640 v, st := if kOver v then k.st ||| 1 else k.st }

/-- One term added (R124). -/
def KAcc.add (k : KAcc) (x : FVal) : KAcc :=
  match x with
  | .nan => { k with st := k.st ||| 8 }
  | .inf s => { k with st := k.st ||| (if s then 4 else 2) }
  | .fin s m e => k.setInt (k.int + sumOn (-320) [.fin s m e])

/-- Delivery of an accumulator (R125): to F64 in RNE, or to F32 in a mode. -/
def KAcc.deliver (k : KAcc) (f64out : Bool) (mode : BitVec 2) : Nat × Effects :=
  let f := if f64out then f64 else f32
  let mode := if f64out then 0 else mode
  if k.st.getLsbD 3 || (k.st.getLsbD 1 && k.st.getLsbD 2) then (f.nan.getD 0, fxNv)
  else if k.st.getLsbD 1 then (f.signed false (f.inf.getD 0), fxNone)
  else if k.st.getLsbD 2 then (f.signed true (f.inf.getD 0), fxNone)
  else if k.st.getLsbD 0 then (f.signed (k.val.getLsbD 639) (f.inf.getD 0), { flags := 4 })
  else f.deliver mode (.fin (decide (k.int < 0)) k.int.natAbs (-320))

/-- The 96 bytes of an image (R126). -/
def KAcc.image (k : KAcc) : List Byte := natLe 80 k.val.toNat ++ natLe 4 k.st.toNat ++ natLe 12 0

/-- An accumulator read from an image (R126). -/
def KAcc.ofImage (b : List Byte) : KAcc :=
  { val := BitVec.ofNat 640 (leNat (b.take 80)), st := BitVec.ofNat 4 (leNat ((b.drop 80).take 4)) }

def State.kacc (s : State) (wid n : Nat) : KAcc := (s.warp wid).ka.getD n {}

def State.setKacc (s : State) (wid n : Nat) (k : KAcc) : State :=
  s.onWarp wid fun w => { w with ka := w.ka.put n k }

/-- An accumulator selector other than 0 or 1 (R144). -/
def selBad (v : BitVec 6) : Bool := 1 < v.toNat

/-- The accumulator's number. -/
def selNum (v : BitVec 6) : Nat := v.toNat

/-- An instruction that changes accumulators of its home warps, each from its own active threads. -/
def onAccs (s : State) (i : Instr) (k : Checks) (n : Nat) (f : Ctx → List Th → KAcc → KAcc) : StepOut :=
  let c := s.ctx i
  match s.gate c k with
  | .stop s' => .next s'
  | .go act =>
    .next ((((widsOf act).foldl (fun s wid => s.setKacc wid n (f c (act.filter (·.wid = wid)) (s.kacc wid n))) s).advance
      c.u c.len).meterVec act)

/-- R240. -/
def execKclr (f : V3) (s : State) : StepOut :=
  onAccs s (.kclr f) { q := f.q, ill := illM0 f.m, opd := oneOf [(0, selBad f.d)], split := some 3 } (selNum f.d)
    fun _ _ _ => {}

/-- The source tag of KADD's formats (R241). -/
def kaddTag : Nat → Nat
  | 1 => 4
  | 2 => 5
  | 3 => 6
  | 4 => 7
  | 5 => 8
  | _ => 3

/-- The terms KADD adds for a word (R241). -/
def kaddTerms (m : Nat) (x : Word) : List FVal :=
  match m with
  | 1 => [elAt 4 x 0]
  | 2 => [elAt 5 x 0]
  | 6 => [(val32 x).neg]
  | _ => (List.range (perReg (kaddTag m))).map fun i => elAt (kaddTag m) x i

/-- R241. -/
def execKadd (f : V3) (s : State) : StepOut :=
  onAccs s (.kadd f)
    { q := f.q, ill := illOf false (f.m = 7), opd := opdV f.x [f.a] [] [] (selBad f.d),
      a := { code := f.a, n := 1, ok := rawOr (kaddTag f.m.toNat) } }
    (selNum f.d)
    fun c act k => act.foldl (fun k t => (kaddTerms f.m.toNat (s.src c t f.a 0).val).foldl KAcc.add k) k

/-- The exact product of two F32 words, negated on demand (R242). -/
def kmadTerm (neg : Bool) (a b : Word) : FVal :=
  let p := ((val32 a).mul (val32 b)).1
  if neg then p.neg else p

/-- R242. -/
def execKmad (f : V3) (s : State) : StepOut :=
  onAccs s (.kmad f)
    { q := f.q, ill := illZero f.m 6, opd := opdV f.x [f.a, f.b] [] [] (selBad f.d), a := srcF32 f.a, b := srcF32 f.b 1 }
    (selNum f.d)
    fun c act k => act.foldl (fun k t =>
      k.add (kmadTerm (f.m.getLsbD 0) (s.src c t f.a 0).val (s.src c t f.b 0).val)) k

/-- A delivered accumulator as an instruction's result. -/
def kaccOut (f64out : Bool) (r : Nat × Effects) : Out :=
  if f64out then out2 13 (BitVec.ofNat 64 r.1) r.2 else out1 3 (BitVec.ofNat 32 r.1) r.2

/-- R243. -/
def execKrnd (f : V3) (s : State) : StepOut :=
  let wide := f.m.getLsbD 2
  aluAll s (.krnd f)
    { q := f.q, ill := illOf false (4 < f.m.toNat),
      opd := opdV f.x [f.d] [f.d] (if wide then [f.d] else []) (selBad f.b),
      d := { code := f.d, n := if wide then 2 else 1 } }
    fun _ _ t => kaccOut wide ((s.kacc t.wid (selNum f.b)).deliver wide (f.m.extractLsb' 0 2))

/-- The sum SCAN delivers to a thread (R245); an exact sum outside the range is held at its end, so that the infinity delivered
has its sign. -/
def scanSum (k : KAcc) (xs : List FVal) : KAcc :=
  let st := xs.foldl (fun st x => match x with
    | .nan => st ||| 8
    | .inf s => st ||| (if s then 4 else 2)
    | .fin _ _ _ => st) k.st
  let v := k.int + sumOn (-320) xs
  { val := BitVec.ofInt 640 (max (-(2 ^ 639)) (min v (2 ^ 639 - 1))), st := if kOver v then st ||| 1 else st }

/-- R245. -/
def execScan (f : V3) (s : State) : StepOut :=
  aluAll s (.scan f)
    { q := f.q, ill := illZero f.m 4, opd := opdV f.x [f.d, f.a] [f.d] [] (selBad f.b), a := srcF32 f.a, d := dst1 f.d }
    fun c act t =>
      let xs := ((homeOf act t).filter (·.lane ≤ t.lane)).map fun u => val32 (s.src c u f.a 0).val
      kaccOut false ((scanSum (s.kacc t.wid (selNum f.b)) xs).deliver false (f.m.extractLsb' 0 2))

end Sys2Proof.Machine
end

