-- ==== Sys2Proof/Machine/Access.lean ====
section
/-! DEFINITION. What memory instructions share: addresses and data (R196, R197), what holds an access at issue (R64, R83,
R84, R97, R399), L1 look-up (R80, R299), and accesses on their way (R199). -/
namespace Sys2Proof.Machine

/-! ### Sizes, addresses, data -/

/-- Bytes of a size code (R148). -/
def sizeBytes (m : BitVec 4) : Nat :=
  match (m.extractLsb' 0 3).toNat with
  | 2 | 3 => 2
  | 4 => 4
  | 5 => 8
  | 6 => 16
  | _ => 1

/-- A sign-extending size (R148). -/
def sizeSigned (m : BitVec 4) : Bool := (m.extractLsb' 0 3) = 1 || (m.extractLsb' 0 3) = 3

/-- Registers of a size (R197). -/
def sizeRegs (n : Nat) : Nat := if n ≤ 4 then 1 else n / 4

/-- A global address (R196). -/
def State.globalAddr (s : State) (c : Ctx) (t : Th) (base : BitVec 6) (off : BitVec 7) (n : Nat) : DWord :=
  ((s.src c t base 1).val ++ (s.src c t base 0).val) + off.signExtend 64 * BitVec.ofNat 64 n

/-- A scratch address (R196). -/
def State.scratchAddr (s : State) (c : Ctx) (t : Th) (base : BitVec 6) (off : BitVec 7) (n : Nat) : DWord :=
  ((s.src c t base 0).val + off.signExtend 32 * BitVec.ofNat 32 n).zeroExtend 64

/-- A q group is four direct registers from a multiple of 4, or code 52 (R197). -/
def quadBad (code : BitVec 6) : Bool := !(code = 52 || (code.toNat ≤ 44 && code.toNat % 4 = 0))

/-- Codes 52 to 54 are no global base (R196). -/
def globalBaseBad (code : BitVec 6) : Bool := code = 52 || code = 53 || code = 54

/-- ILL_OPERAND of a data register and a base without a fixed extension word (R196, R197). -/
def memOpd (x : Word) (d base : BitVec 6) (n : Nat) (load global : Bool) (five : Bool := false) : Option Nat :=
  opdV x [d, base] (if load && n ≠ 16 then [d] else []) ((if n = 8 then [d] else []) ++ ownPair (!global || globalBaseBad base) base)
    ((if global then globalBaseBad base else base = 53) || (n = 16 && quadBad d)) five

/-- The data operand of a size. -/
def dataOpd (d : BitVec 6) (n : Nat) : Opd := { code := d, n := sizeRegs n }

/-- The bytes that a store takes from its data registers (R197). -/
def State.dataBytes (s : State) (c : Ctx) (t : Th) (d : BitVec 6) (n : Nat) : List Byte :=
  ((List.range (sizeRegs n)).flatMap fun i => natLe 4 (s.src c t d i).val.toNat).take n

/-- The words that a load writes (R197). -/
def loadWords (n : Nat) (signed : Bool) (b : List Byte) : List Word :=
  if n ≤ 4 then
    let v := leNat (b.take n)
    [if signed && 2 ^ (8 * n - 1) ≤ v then BitVec.ofInt 32 ((v : Int) - 2 ^ (8 * n)) else BitVec.ofNat 32 v]
  else (List.range (n / 4)).map fun i => BitVec.ofNat 32 (leNat ((b.drop (4 * i)).take 4))

/-- The registers a load writes for a thread; a uniform destination only from the lowest active lane (R153, R197). -/
def State.loadDst (s : State) (c : Ctx) (act : List Th) (t : Th) (d : BitVec 6) (n : Nat) : List DReg :=
  if d = 52 || (sharedDst d && !(leads act t)) then []
  else (List.range (sizeRegs n)).map fun i => (s.dreg c t d).plus i

/-! ### Checks over addresses -/

/-- The trap of a condition over the accessed addresses (R150, R202). -/
def badAt (cause : Nat) (l : List (Th × DWord)) (p : Th → DWord → Bool) : Option Trap :=
  trapOf ((l.filter fun x => p x.1 x.2).map fun x => { t := x.1, cause := cause, tval := x.2 })

/-- The first trap of a list. -/
def firstOf : List (Option Trap) → Option Trap
  | [] => none
  | some t :: _ => some t
  | none :: r => firstOf r

/-- HYP_ORPHANED, HYP_ATOMIC and alignment of a global access (R202). -/
def State.globalBad (s : State) (l : List (Th × DWord)) (n : Nat) (atomic : Bool) : Option Trap :=
  firstOf [badAt (cz 0x28 0) l fun t _ => (s.warp t.wid).orphan,
    badAt (cz 0x2A 0) l fun t _ => atomic && (s.warp t.wid).hyp.extractLsb' 0 8 ≠ 0,
    badAt (cz 0x10 0) l fun _ a => a.toNat % n ≠ 0]

/-- Alignment, bound and lids of a scratchpad access (R73, R74, R94); `kind` 0 load, 1 store, 2 atomic. An uncorrectable
error is found by its reader (R433). -/
def State.scratchBad (s : State) (l : List (Th × DWord)) (n kind : Nat) : Option Trap :=
  firstOf [badAt (cz 0x10 1) l fun _ a => a.toNat % n ≠ 0,
    badAt (cz 0x13 kind) l fun t a => (s.block (s.warp t.wid).bid).zsize < a.toNat + n,
    badAt (cz 0x15 (if kind = 0 then 0 else 1)) l fun t a => s.scratchLid (s.warp t.wid).bid a.toNat n (kind = 0),
    badAt (cz 0x17 3) l fun t a => kind ≠ 1 && s.scratchUpset (s.warp t.wid).bid a.toNat n]

/-! ### Gang-remote targets (R17, R18) -/

/-- The block that a target names: east, west, north, south, or a rank; or the detail of GANG_REMOTE_BOUND. -/
def State.targetBlock (s : State) (wid tgt rank : Nat) : Except Nat Nat :=
  let b := s.block (s.warp wid).bid
  let g := s.gang b.gid
  let d := (s.launch g.lid).desc
  let pick (r : Nat) : Except Nat Nat :=
    match g.bids[r]? with
    | some bid => .ok bid
    | none => .error 2
  if tgt = 4 then pick rank
  else if d.perTile = 0 then .error 1
  else
    let slot := b.rank % d.perTile
    let x := b.rank / d.perTile % d.gx
    let y := b.rank / d.perTile / d.gx
    let at_ (x y : Nat) : Except Nat Nat := pick ((y * d.gx + x) * d.perTile + slot)
    match tgt with
    | 0 => if x + 1 < d.gx then at_ (x + 1) y else .error 0
    | 1 => if 0 < x then at_ (x - 1) y else .error 0
    | 2 => if y + 1 < d.gy then at_ x (y + 1) else .error 0
    | _ => if 0 < y then at_ x (y - 1) else .error 0

/-- The target of a thread; rank read as n() of a code (R201). -/
def State.targetOf (s : State) (c : Ctx) (t : Th) (tgt : Nat) (code : BitVec 6) : Except Nat Nat :=
  s.targetBlock t.wid tgt (s.src c t code 0).val.toNat

/-- Alignment, target, bound and lids of a gang-remote access (R18, R202). -/
def State.remoteBad (s : State) (c : Ctx) (l : List (Th × DWord)) (n kind tgt : Nat) (code : BitVec 6) : Option Trap :=
  let bound : List Bad := l.filterMap fun x =>
    match s.targetOf c x.1 tgt code with
    | .error d => some { t := x.1, cause := cz 0x14 d, tval := x.2 }
    | .ok bid =>
      if (s.block bid).zsize < x.2.toNat + n then some { t := x.1, cause := cz 0x14 3, tval := x.2 } else none
  let at_ (t : Th) (p : Nat → Bool) : Bool := match s.targetOf c t tgt code with
    | .ok bid => p bid
    | .error _ => false
  firstOf [badAt (cz 0x10 2) l fun _ a => a.toNat % n ≠ 0, trapOf bound,
    badAt (cz 0x15 (if kind = 0 then 0 else 1)) l fun t a => at_ t fun bid => s.scratchLid bid a.toNat n (kind = 0),
    badAt (cz 0x17 3) l fun t a => kind ≠ 1 && at_ t fun bid => s.scratchUpset bid a.toNat n]

/-! ### What holds an access at issue -/

/-- An access of a thread on its way; prefetches do not count. -/
def Access.covers (a : Access) (t : Th) : Bool := a.wid = t.wid && a.lanes.getLsbD t.lane && a.kind ≠ .pref

/-- Every earlier access of the thread is complete (R84). -/
def State.quiet (s : State) (t : Th) : Bool := s.accs.all fun a => !(a.2.covers t)

/-- An acquire of the thread is not yet complete (R83). -/
def State.acqPending (s : State) (t : Th) : Bool := s.accs.any fun a => a.2.covers t && a.2.acq

/-- A release store or atomic of the thread is not yet performed (R83). -/
def State.relPending (s : State) (t : Th) : Bool := s.accs.any fun a => a.2.covers t && a.2.rel

/-- A gang-remote access of the thread is not yet performed (R89). -/
def State.remotePending (s : State) (t : Th) : Bool :=
  s.accs.any fun a => a.2.covers t && (a.2.kind = .ldn || a.2.kind = .stn || a.2.kind = .atomn)

/-- A recorded access was an acquire (R148, R208). -/
def FaultRec.isAcq (r : FaultRec) : Bool :=
  match r.kind with
  | .ld => r.m4.getLsbD 3
  | .atom => r.xw.getLsbD 4
  | _ => false

/-- A recorded access was a release (R148, R208). -/
def FaultRec.isRel (r : FaultRec) : Bool :=
  match r.kind with
  | .st => r.m4.getLsbD 3
  | .atom => r.xw.getLsbD 5
  | _ => false

/-- A recorded acquire of the thread awaits its trap (R97). -/
def State.acqRecorded (s : State) (t : Th) : Bool :=
  (s.warp t.wid).records.any fun r => r.isAcq && r.lanes.getLsbD t.lane

/-- A recorded release of the thread is not performed before RTEX (R83, R97). -/
def State.relRecorded (s : State) (t : Th) : Bool :=
  (s.warp t.wid).records.any fun r => r.isRel && r.lanes.getLsbD t.lane

/-- A release before the next acquire of the thread is still to be performed (R83); a unit in trap mode does not wait for a
recorded one (R84; log 89). -/
def State.relWaits (s : State) (trap : Bool) (t : Th) : Bool := s.relPending t || (!trap && s.relRecorded t)

/-- The access waits behind an acquire of its thread (R83, R97). -/
def State.behindAcquire (s : State) (c : Ctx) (act : List Th) : Bool :=
  act.any fun t => s.acqPending t || (!c.trap && s.acqRecorded t)

/-- Some home warp's counter has no room for one more instruction (R64). -/
def State.full (s : State) (act : List Th) (ctr : Nat) : Bool := (widsOf act).any fun wid => !(s.room wid ctr 1)

/-- Some home warp's fault list is full (R399). -/
def State.listFull (s : State) (act : List Th) : Bool := (widsOf act).any fun wid => 8 ≤ (s.warp wid).faults.length

/-- A warp of the unit has a recorded fault, which a release does not pass outside trap mode (R84, R207). -/
def State.recordHolds (s : State) (c : Ctx) (act : List Th) : Bool :=
  !c.trap && (widsOf act).any fun wid => (s.warp wid).faults ≠ []

/-- A release meets a recorded fault: the unit traps, or waits for the unit that holds the record's lanes. -/
def State.releaseTrap (s : State) (u : IssueUnit) : State :=
  if s.unitRecords u = [] then s.stall else s.takeRecorded u

/-- What holds a release whose effect is at issue (R84): a recorded fault, or an access of its threads on its way. -/
def State.releaseHold (s : State) (c : Ctx) (act : List Th) : Option State :=
  if s.recordHolds c act then some (s.releaseTrap c.u)
  else if act.any fun t => !(s.quiet t) then some (s.stall)
  else none

/-! ### Counting and issuing -/

/-- Instruction instances of a list of home warps, numbered from `nextId`. -/
def iidOf (s : State) (wids : List Nat) (wid : Nat) : Nat := s.nextId + wids.idxOf wid

/-- The view of a warp: the handles of its `%hyp` chain. -/
def State.viewOf (s : State) (wid : Nat) : List (BitVec 16) := (s.part (s.partOf wid)).handles (s.warp wid).hyp 17

/-- An access as it leaves: its warp, places, view and instruction. -/
def State.accOf (s : State) (c : Ctx) (t : Th) (kind : AccKind) (va : DWord) (n : Nat) (m4 : BitVec 4) : Access :=
  let w := s.warp t.wid
  { kind := kind, iid := 0, wid := t.wid, core := w.core, bid := w.bid, part := s.partOf t.wid, asid := s.asidOf t.wid,
    lane := t.lane, lanes := 1#32 <<< t.lane, va := va, size := n, hyp := w.hyp, chain := s.viewOf t.wid, pc := c.u.pc, hdr := c.u.hdr, m4 := m4,
    xw := c.x, inTrap := c.trap }

/-- Accesses sent, each home warp's under one instruction number, and counted (R199). -/
def State.send (s : State) (ctr : Option Nat) (l : List Access) : State :=
  let wids := (l.map (·.wid)).eraseDups
  let l := l.map fun a => { a with iid := iidOf s wids a.wid, batch := s.nextId }
  let base := s.nextId + wids.length
  let s := { s with nextId := base + l.length, accs := (l.zipIdx).foldl (fun m a => m.put (base + a.2) a.1) s.accs }
  match ctr with
  | none => s
  | some k => wids.foldl (fun s' wid =>
      s'.count wid k (l.filter (·.wid = wid)).length ((l.find? (·.wid = wid)).map (·.iid) |>.getD 0)) s

/-- The words of a load written to the registers of each of its lanes (R197, R203). -/
def State.deliver (s : State) (wid : Nat) (dst : List (Nat × List DReg)) (tag : BitVec 4) (words : List Word) : State :=
  dst.foldl (fun s d =>
    (d.2.zip words).foldl (fun s r => s.setReg { wid := wid, lane := d.1 } r.1 { val := r.2, tag := tag }) s) s

/-! ### L1 look-up (R80, R298, R299) -/

/-- The ids whose copies a warp's loads look in, deepest first. -/
def State.viewIds (s : State) (wid : Nat) : List Nat :=
  let w := s.warp wid
  let P := s.part (s.partOf wid)
  (P.chainAt (.core (P.localCore w.core)) w.hyp 17 ++ [0]).filter fun i => w.anc.getLsbD i

/-- A valid byte of the core's copy under an id. -/
def State.l1Byte (s : State) (core p asid hid va : Nat) : Option Byte :=
  match s.mergedByte core p asid hid va with
  | some b => some b
  | none =>
    match s.l1Find core p asid (va / 128) hid with
    | some l => if l.valid.getLsbD (va % 128) then some (Memory.rd l.data (va % 128)) else none
    | none => none

/-- The bytes of the first copy that holds any accessed byte valid (R299); none of them when no copy does. -/
def State.l1Look (s : State) (core p asid va n : Nat) : List Nat → List (Option Byte)
  | [] => List.replicate n none
  | h :: hs =>
    let bs := (List.range n).map fun i => s.l1Byte core p asid h (va + i)
    if bs.any Option.isSome then bs else s.l1Look core p asid va n hs

/-- An uncorrectable error in an L1 word that an access of a core would read (R435). -/
def State.l1Upset (s : State) (core p asid va n : Nat) : Bool :=
  s.upsets.any fun u => match u with
    | .l1Word c q a v => c = core && q = p && a = asid && meets v (v + 4) va (va + n)
    | _ => false

/-- An earlier access to a common byte, on its way, by the same thread or by a lower lane of the same instruction. -/
def Access.precedes (b : Nat × Access) (id : Nat) (a : Access) : Bool :=
  b.1 < id && b.2.part = a.part && b.2.asid = a.asid && b.2.kind ≠ .pref &&
    b.2.kind ≠ .ldn && b.2.kind ≠ .stn && b.2.kind ≠ .atomn &&
    ((b.2.wid = a.wid && b.2.lanes &&& a.lanes ≠ 0) || b.2.batch = a.batch) &&
    meets b.2.va.toNat (b.2.va.toNat + b.2.size) a.va.toNat (a.va.toNat + a.size)

/-- Such an access is still to be performed, and this one after it (R81, R198). -/
def State.behind (s : State) (id : Nat) (a : Access) : Bool :=
  s.accs.any fun b => Access.precedes b id a && b.2.st ≠ .answered && !(b.2.batch = a.batch && b.2.st = .faulted)

/-- Such an access of the thread has not returned: a load of it does not hit what may be older (R81). -/
def State.unreturned (s : State) (a : Access) : Bool := s.accs.any fun b => Access.precedes b s.nextId a

end Sys2Proof.Machine
end

