-- ==== Sys2Proof/Machine/Memory.lean ====
section
/-! DEFINITION. Memory instructions at issue (R196 to R211): what they check, what they perform at once, and the accesses
they send. -/
namespace Sys2Proof.Machine

/-- What holds a memory instruction that has passed its checks (R64, R83, R97, R207, R399). DEDUCED (log 36): a release is
held at the instruction until its threads' earlier accesses are complete, so that the trap of R207 point 3 is at it. DEDUCED
(log 94): a full list does not hold the unit in trap mode. -/
def State.memHold (s : State) (c : Ctx) (act : List Th) (ctr : Nat) (global rel : Bool) : Option State :=
  if s.behindAcquire c act then some (s.stall)
  else match (if rel then s.releaseHold c act else none) with
    | some s' => some s'
    | none =>
      if global && !c.trap && s.listFull act then some (s.stall)
      else if s.full act ctr then some (s.stall)
      else none

/-- A memory instruction: its checks, its own traps over the accessed addresses, what holds it, then its effect. -/
def memInstr (s : State) (i : Instr) (k : Checks) (addrs : Ctx → List Th → List (Th × DWord))
    (bad : Ctx → List (Th × DWord) → Option Trap) (hold : Ctx → List Th → Option State)
    (eff : Ctx → List Th → List (Th × DWord) → State) : StepOut :=
  let c := s.ctx i
  match s.gate c k with
  | .stop s' => .next s'
  | .go act =>
    let l := addrs c act
    match bad c l with
    | some tr => .next (s.takeTrap c.u tr c.len)
    | none =>
      match hold c act with
      | some s' => .next s'
      | none => .next ((eff c act l).advance c.u c.len)

/-! ### Global loads -/

/-- The words of the L1 that hold an uncorrectable error and that an access would read: an owned word is lost, a clean
one is dropped (R435). Whether one was lost. -/
def State.l1Recover (s : State) (core p asid va n : Nat) : State × Bool :=
  s.upsets.foldl (fun r u => match u with
    | .l1Word c q a v =>
      if c = core && q = p && a = asid && meets v (v + 4) va (va + n) then
        let bit : Word := 1#32 <<< (v % 128 / 4)
        let cut (l : L1Line) : L1Line :=
          if l.core = core && l.part = p && l.asid = asid && l.line = v / 128 then
            { l with valid := l.valid &&& ~~~(wordBytesMask bit), owned := l.owned &&& ~~~bit }
          else l
        let s := { r.1 with
          upsets := r.1.upsets.filter (· ≠ u)
          l1 := (r.1.l1.map cut).filter fun l => l.valid ≠ 0 }
        match s.regFind p asid (v / 128) with
        | some g =>
          if g.core = core && g.mask &&& bit ≠ 0 then
            (s.regPut { g with mask := g.mask &&& ~~~bit, lost := g.lost ||| bit }, true)
          else (s, r.2)
        | none => (s, r.2)
      else r
    | _ => r) (s, false)

/-- One lane's load: the bytes of the L1 if it hits (R80, R299); an acquire never does (R83). -/
def State.loadLook (s : State) (a : Access) : Option (List Byte) :=
  let bs := s.l1Look a.core a.part a.asid a.va.toNat a.size (s.viewIds a.wid)
  if !a.acq && bs.all Option.isSome && !(s.unreturned a) then some (bs.map fun b => b.getD 0) else none

/-- Loads issued: those that hit write their registers, the others are sent and counted (R80, R199, R203). -/
def State.issueLoads (s : State) (l : List Access) : State :=
  let r := l.foldl (fun (r : State × List Access) a =>
    let x := if !a.acq && s.l1Upset a.core a.part a.asid a.va.toNat a.size
      then r.1.l1Recover a.core a.part a.asid a.va.toNat a.size else (r.1, false)
    (x.1, r.2 ++ [if x.2 then { a with st := .faulted, cause := cz 0x16 0 } else a])) (s, [])
  let looked := r.2.map fun a => (a, if a.st = .faulted then none else r.1.loadLook a)
  let misses := (looked.filter fun x => x.2.isNone).map (·.1)
  let s := looked.foldl (fun s x => match x.2 with
    | some bs => s.deliver x.1.wid x.1.dst x.1.tag (loadWords x.1.size x.1.signed bs)
    | none => s) r.1
  if misses = [] then s else s.send (some 0) misses

/-- The checks of a load. -/
def chkLoad (f : FM) (n : Nat) (ill : Option Nat) (global : Bool) (five : Bool := false) : Checks :=
  { q := f.q, ill := ill, opd := memOpd f.x f.d f.base n true global five,
    a := { code := f.base, n := if global then 2 else 1 }, d := dataOpd f.d n }

/-- A size that loads do not have, and m4[3] where it is fixed at zero (R148, R202). -/
def illLoad (m : BitVec 4) (acq : Bool) : Option Nat := illOf (m.getLsbD 3 && !acq) (m.extractLsb' 0 3 = 7)

/-- Addresses of each active thread. -/
def State.laneAddrs (s : State) (f : FM) (n : Nat) (global : Bool) (c : Ctx) (act : List Th) : List (Th × DWord) :=
  act.map fun t => (t, if global then s.globalAddr c t f.base f.off n else s.scratchAddr c t f.base f.off n)

/-- LD and LDT (R203, R205). -/
def globalLoad (s : State) (i : Instr) (f : FM) (k : Checks) (n : Nat) (signed acq : Bool) (tag : BitVec 4) (kind : AccKind) :
    StepOut :=
  memInstr s i k (s.laneAddrs f n true) (fun _ l => s.globalBad l n false) (fun c act => s.memHold c act 0 true false)
    fun c act l => s.issueLoads (l.map fun x =>
      { s.accOf c x.1 kind x.2 n f.m with
        dst := [(x.1.lane, s.loadDst c act x.1 f.d n)], destCode := f.d, tag := tag, signed := signed, acq := acq })

/-- R203. -/
def execLd (f : FM) (s : State) : StepOut :=
  globalLoad s (.ld f) f (chkLoad f (sizeBytes f.m) (illLoad f.m true) true) (sizeBytes f.m) (sizeSigned f.m)
    (f.m.getLsbD 3) 0 .ld

/-- R205: a relaxed word load with the tag in m4; tags 13 and 15 are not allowed (R112). -/
def execLdt (f : FM) (s : State) : StepOut :=
  globalLoad s (.ldt f) f (chkLoad f 4 none true (f.m = 13 || f.m = 15)) 4 false false f.m .ldt

/-- R204: one load per home warp, at the address of its lowest active lane, for all its active lanes. -/
def execLdu (f : FM) (s : State) : StepOut :=
  let n := sizeBytes f.m
  memInstr s (.ldu f) (chkLoad f n (illLoad f.m false) true) (fun c act => s.laneAddrs f n true c (act.filter (leads act)))
    (fun c l => (s.globalBad l n false).map fun tr => tr.wide (s.active c f.q)) (fun c act => s.memHold c act 0 true false)
    fun c act l => s.issueLoads (l.map fun x =>
      { s.accOf c x.1 .ldu x.2 n f.m with
        lanes := lanesIn act x.1.wid
        dst := (homeOf act x.1).map fun t => (t.lane, s.loadDst c act t f.d n)
        destCode := f.d, signed := sizeSigned f.m })

/-! ### Global stores -/

/-- A size that stores do not have (R148, R202). -/
def illStore (m : BitVec 4) (rel : Bool) : Option Nat :=
  illOf (m.getLsbD 3 && !rel) ([1, 3, 7].contains (m.extractLsb' 0 3).toNat)

/-- The checks of a store. -/
def chkStore (f : FM) (n : Nat) (ill : Option Nat) (global : Bool) : Checks :=
  { q := f.q, ill := ill, opd := memOpd f.x f.d f.base n false global,
    a := { code := f.base, n := if global then 2 else 1 }, more := [dataOpd f.d n] }

/-- R206: each lane's bytes merge into the L1 and their registration is sent, in lane order (R78, R198). -/
def execSt (f : FM) (s : State) : StepOut :=
  let n := sizeBytes f.m
  memInstr s (.st f) (chkStore f n (illStore f.m true) true) (s.laneAddrs f n true) (fun _ l => s.globalBad l n false)
    (fun c act => s.memHold c act 1 true (f.m.getLsbD 3))
    fun c _ l => s.send (some 1) (l.map fun x =>
      { s.accOf c x.1 .st x.2 n f.m with data := s.dataBytes c x.1 f.d n, rel := f.m.getLsbD 3 })

/-! ### Scratchpad (R91) -/

/-- R203: performed at the bank at issue. -/
def execLds (f : FM) (s : State) : StepOut :=
  let n := sizeBytes f.m
  memInstr s (.lds f) (chkLoad f n (illLoad f.m false) false) (s.laneAddrs f n false) (fun _ l => s.scratchBad l n 0)
    (fun c act => s.memHold c act 0 false false)
    fun c act l => l.foldl (fun s' x =>
      s'.deliver x.1.wid [(x.1.lane, s.loadDst c act x.1 f.d n)] 0
        (loadWords n (sizeSigned f.m) (s.rdScratch (s.warp x.1.wid).bid x.2.toNat n))) s

/-- R206: performed at the bank at issue, in lane order (R198). -/
def execSts (f : FM) (s : State) : StepOut :=
  let n := sizeBytes f.m
  memInstr s (.sts f) (chkStore f n (illStore f.m false) false) (s.laneAddrs f n false) (fun _ l => s.scratchBad l n 1)
    (fun c act => s.memHold c act 1 false false)
    fun c _ l => l.foldl (fun s' x => s'.wrScratch (s.warp x.1.wid).bid x.2.toNat (s.dataBytes c x.1 f.d n)) s

/-! ### Gang-remote loads and stores (R92) -/

/-- Target and rank code of LDN and STN (R148). -/
def remoteTgt (x : Word) : Nat := (x.extractLsb' 0 3).toNat

/-- ILL_OPERAND of LDN and STN (R196, R197, R201). -/
def remoteOpd (f : FM) (n : Nat) (load : Bool) : Option Nat :=
  let rank := remoteTgt f.x = 4
  opdX f.x ([f.d, f.base] ++ if rank then [xc f.x] else []) (if load && n ≠ 16 then [f.d] else [])
    (if n = 8 then [f.d] else []) (f.x.extractLsb' 3 23 ≠ 0 || (!rank && xc f.x ≠ 0))
    (f.base = 53 || (n = 16 && quadBad f.d))

/-- The rank operand of a remote access. -/
def rankOpd (tgt : Nat) (code : BitVec 6) : List Opd := if tgt = 4 then [srcAny code] else []

/-- A remote access's target block; judged before, so always found. -/
def State.targetBid (s : State) (c : Ctx) (t : Th) (tgt : Nat) (code : BitVec 6) : Nat :=
  match s.targetOf c t tgt code with
  | .ok b => b
  | .error _ => 0

/-- R203: sent on the stream to the target's core. -/
def execLdn (f : FM) (s : State) : StepOut :=
  let n := sizeBytes f.m
  let tgt := remoteTgt f.x
  memInstr s (.ldn f)
    { q := f.q, ill := illOf (f.m.getLsbD 3) (f.m.extractLsb' 0 3 = 7) (4 < tgt), opd := remoteOpd f n true,
      a := srcAny f.base, more := rankOpd tgt (xc f.x), d := dataOpd f.d n }
    (s.laneAddrs f n false) (fun c l => s.remoteBad c l n 0 tgt (xc f.x)) (fun c act => s.memHold c act 0 false false)
    fun c act l => s.send (some 0) (l.map fun x =>
      { s.accOf c x.1 .ldn x.2 n f.m with
        target := s.targetBid c x.1 tgt (xc f.x), dst := [(x.1.lane, s.loadDst c act x.1 f.d n)], destCode := f.d,
        signed := sizeSigned f.m })

/-- R206. -/
def execStn (f : FM) (s : State) : StepOut :=
  let n := sizeBytes f.m
  let tgt := remoteTgt f.x
  memInstr s (.stn f)
    { q := f.q, ill := illOf (f.m.getLsbD 3) ([1, 3, 7].contains (f.m.extractLsb' 0 3).toNat) (4 < tgt),
      opd := remoteOpd f n false, a := srcAny f.base, more := dataOpd f.d n :: rankOpd tgt (xc f.x) }
    (s.laneAddrs f n false) (fun c l => s.remoteBad c l n 1 tgt (xc f.x)) (fun c act => s.memHold c act 1 false false)
    fun c _ l => s.send (some 1) (l.map fun x =>
      { s.accOf c x.1 .stn x.2 n f.m with target := s.targetBid c x.1 tgt (xc f.x), data := s.dataBytes c x.1 f.d n })

/-! ### Atomics (R208, R209) -/

/-- The operation of an atomic, and the bytes it acts on. -/
def atomOp (x : Word) : Nat := (x.extractLsb' 0 4).toNat
def atomSize (op : Nat) : Nat := if op = 1 || op = 10 || op = 12 then 8 else 4
def atomAcq (x : Word) : Bool := x.getLsbD 4
def atomRel (x : Word) : Bool := x.getLsbD 5

/-- Lesser or greater of two words as I32 or N32. -/
def pick32 (greater uns : Bool) (m c : Word) : Word :=
  if (if greater then leWord uns c m else leWord uns m c) then m else c

/-- The new value of a location (R208): m old, c the operand, d the prior destination. -/
def atomNew (op : Nat) (m c d : DWord) : DWord :=
  let m32 : Word := m.extractLsb' 0 32
  let c32 : Word := c.extractLsb' 0 32
  let w (x : Word) : DWord := x.zeroExtend 64
  match op with
  | 0 => w (m32 + c32)
  | 1 => m + c
  | 2 => w (pick32 false false m32 c32)
  | 3 => w (pick32 false true m32 c32)
  | 4 => w (pick32 true false m32 c32)
  | 5 => w (pick32 true true m32 c32)
  | 6 => w (m32 &&& c32)
  | 7 => w (m32 ||| c32)
  | 8 => w (m32 ^^^ c32)
  | 9 => w c32
  | 10 => c
  | 11 => if m32 = c32 then w (d.extractLsb' 0 32) else w m32
  | 12 => if m = c then d else m
  | _ => w (round32 0 (FVal.sum 0 [val32 m32, val32 c32]).1).1

/-- A 4- or 8-byte source of an atomic. -/
def State.atomSrc (s : State) (c : Ctx) (t : Th) (code : BitVec 6) (n : Nat) : DWord :=
  if n = 8 then (s.src c t code 1).val ++ (s.src c t code 0).val else (s.src c t code 0).val.zeroExtend 64

/-- The prior destination, which only cas reads. -/
def State.casPrior (s : State) (c : Ctx) (t : Th) (f : FM) : DWord :=
  if atomOp f.x = 11 || atomOp f.x = 12 then s.atomSrc c t f.d (atomSize (atomOp f.x)) else 0

/-- The counter of an atomic (R199). -/
def atomCtr (f : FM) : Nat := if f.d = 52 then 1 else 0

/-- The checks of an atomic: `last` the first operation it does not have, `mbz` its extension word's zero bits. -/
def chkAtom (f : FM) (last : Nat) (global mbz badTgt : Bool) (rank : List (BitVec 6)) : Checks :=
  let op := atomOp f.x
  let n := atomSize op
  let wide := if n = 8 then [f.d, xc f.x] else []
  { q := f.q, ill := illOf (f.m ≠ 0) false (last ≤ op || badTgt),
    opd := opdX f.x ([f.d, xc f.x] ++ ownPair (global && f.base = 54) f.base ++ rank) [f.d]
      (wide ++ ownPair (!global || globalBaseBad f.base) f.base) mbz
      (if global then globalBaseBad f.base else f.base = 53),
    a := { code := f.base, n := if global then 2 else 1 },
    more := dataOpd (xc f.x) n :: (if op = 11 || op = 12 then [dataOpd f.d n] else []) ++ rank.map fun r => srcAny r,
    d := dataOpd f.d n }

/-- An atomic's access. -/
def State.atomAcc (s : State) (c : Ctx) (act : List Th) (f : FM) (kind : AccKind) (x : Th × DWord) : Access :=
  let op := atomOp f.x
  let n := atomSize op
  { s.accOf c x.1 kind x.2 n f.m with
    op := op, opcC := s.atomSrc c x.1 (xc f.x) n, opcD := s.casPrior c x.1 f, destCode := f.d,
    dst := [(x.1.lane, s.loadDst c act x.1 f.d n)], acq := atomAcq f.x, rel := atomRel f.x }

/-- R209: sent to the home slice. -/
def execAtom (f : FM) (s : State) : StepOut :=
  let n := atomSize (atomOp f.x)
  memInstr s (.atom f) (chkAtom f 14 true (f.x.extractLsb' 6 20 ≠ 0) false []) (s.laneAddrs f n true)
    (fun _ l => s.globalBad l n true) (fun c act => s.memHold c act (atomCtr f) true (atomRel f.x))
    fun c act l => s.send (some (atomCtr f)) (l.map (s.atomAcc c act f .atom))

/-- One scratchpad atomic performed at the bank (R209): the state after it and the old value. -/
def State.atomScratch (s : State) (bid a op : Nat) (c d : DWord) : State × DWord :=
  let n := atomSize op
  let m : DWord := BitVec.ofNat 64 (leNat (s.rdScratch bid a n))
  (s.wrScratch bid a (natLe n (atomNew op m c d).toNat), m)

/-- What holds an atomic at a bank with an order (R83, R84): a release waits for its thread's accesses, an acquire for
its thread's releases. -/
def State.orderHold (s : State) (c : Ctx) (act : List Th) (acq rel : Bool) : Option State :=
  match (if rel then s.releaseHold c act else none) with
  | some s' => some s'
  | none => if acq && act.any (s.relWaits c.trap) then some (s.stall) else none

/-- R209: performed at the bank at issue, in lane order; an acquire invalidates the core's L1 (R83). -/
def execAtoms (f : FM) (s : State) : StepOut :=
  let n := atomSize (atomOp f.x)
  memInstr s (.atoms f) (chkAtom f 13 false (f.x.extractLsb' 6 20 ≠ 0) false []) (s.laneAddrs f n false)
    (fun _ l => s.scratchBad l n 2)
    (fun c act => match s.memHold c act (atomCtr f) false false with
      | some s' => some s'
      | none => s.orderHold c act (atomAcq f.x) (atomRel f.x))
    fun c act l =>
      let s' := l.foldl (fun s' x =>
        let r := s'.atomScratch (s.warp x.1.wid).bid x.2.toNat (atomOp f.x) (s.atomSrc c x.1 (xc f.x) n) (s.casPrior c x.1 f)
        r.1.deliver x.1.wid [(x.1.lane, s.loadDst c act x.1 f.d n)] 0 (loadWords n false (natLe n r.2.toNat))) s
      if atomAcq f.x then (widsOf act).foldl (fun s' wid => s'.invalidate (s.warp wid).core) s' else s'

/-- Target and rank code of ATOMN (R148). -/
def atomnTgt (x : Word) : Nat := (x.extractLsb' 6 3).toNat
def atomnRank (x : Word) : BitVec 6 := x.extractLsb' 20 6

/-- R209: performed at the target core's bank in stream order. -/
def execAtomn (f : FM) (s : State) : StepOut :=
  let n := atomSize (atomOp f.x)
  let tgt := atomnTgt f.x
  memInstr s (.atomn f)
    (chkAtom f 13 false (f.x.extractLsb' 9 11 ≠ 0 || (tgt ≠ 4 && atomnRank f.x ≠ 0)) (4 < tgt)
      (if tgt = 4 then [atomnRank f.x] else []))
    (s.laneAddrs f n false) (fun c l => s.remoteBad c l n 2 tgt (atomnRank f.x))
    (fun c act => match s.memHold c act (atomCtr f) false false with
      | some s' => some s'
      | none => s.orderHold c act (atomAcq f.x) (atomRel f.x))
    fun c act l => s.send (some (atomCtr f)) (l.map fun x =>
      { s.atomAcc c act f .atomn x with target := s.targetBid c x.1 tgt (atomnRank f.x) })

/-! ### PREF and CWB (R210, R211) -/

/-- The line of an address, as an address. -/
def lineAddr (a : DWord) : DWord := a >>> 7 <<< 7

/-- R210: after step 4 of R150 it never traps; what cannot be formed or read is dropped. -/
def execPref (f : FM) (s : State) : StepOut :=
  let c := s.ctx (.pref f)
  let k : Checks := { q := f.q, ill := illOf (f.m &&& 0xE ≠ 0) false, opd := memOpd f.x 52 f.base 1 false true,
                      a := { code := f.base, n := 2 } }
  match k.static with
  | some cause => .next (s.takeTrap c.u { cause := cause, tval := c.tval, mask := c.u.th } c.len)
  | none =>
    let act := s.active c f.q
    if s.waitsReg c k act then .next (s.interlock c.u (s.readsOf c k act))
    else if !c.trap && s.listFull act then .next s.stall
    else
      let ok := act.filter fun t => (s.ixBad t k.a).isNone && !(s.warp t.wid).orphan &&
        !((s.regsOf c t k.a).any (s.marked t))
      .next ((s.send none (ok.map fun t =>
        { s.accOf c t .pref (lineAddr (s.globalAddr c t f.base f.off 128)) 128 f.m with op := (f.m.getLsbD 0).toNat })).advance
          c.u c.len)

/-- R211: each thread's line is written back by its owner's means and then to its frame; counted as a store. -/
def execCwb (f : V3) (s : State) : StepOut :=
  memInstr s (.cwb f)
    { q := f.q, ill := illZero f.m 7, opd := opdV f.x [f.a] [] [f.a], a := { code := f.a, n := 2 } }
    (fun c act => act.map fun t => (t, (s.src c t f.a 1).val ++ (s.src c t f.a 0).val))
    (fun _ l => badAt (cz 0x28 0) l fun t _ => (s.warp t.wid).orphan)
    (fun c act => s.memHold c act 1 true false)
    fun c _ l => s.send (some 1) (l.map fun x => s.accOf c x.1 .cwb (lineAddr x.2) 128 0)

/-! ### Images of accumulators in the scratchpad (R244) -/

/-- The home warps' image addresses: each from its lowest active lane (R244). -/
def State.imageAddrs (s : State) (c : Ctx) (act : List Th) (code : BitVec 6) : List (Th × DWord) :=
  (act.filter (leads act)).map fun t => (t, (s.src c t code 0).val.zeroExtend 64)

/-- The first failing check of 96-byte scratchpad accesses (R223): alignment, bound, lid, and an uncorrectable error on a
read (R433). -/
def State.imageBad (s : State) (store : Bool) (l : List (Th × DWord)) : Option Trap :=
  let bid (t : Th) : Nat := (s.warp t.wid).bid
  let det := if store then 1 else 0
  firstOf [
    badAt (cz 0x10 1) l fun _ a => a.toNat % 16 ≠ 0,
    badAt (cz 0x13 det) l fun t a => (s.block (bid t)).zsize < a.toNat + 96,
    badAt (cz 0x15 det) l fun t a => s.scratchLid (bid t) a.toNat 96 (!store),
    badAt (cz 0x17 3) l fun t a => !store && s.scratchUpset (bid t) a.toNat 96]

/-- An accumulator image access: checks for each home warp, then the effect for each (R244), behind an acquire of its threads
(R83). -/
def imageAccess (s : State) (i : Instr) (k : Checks) (code : BitVec 6) (store : Bool)
    (f : State → Th → Nat → State) : StepOut :=
  let c := s.ctx i
  match s.gate c k with
  | .stop s' => .next s'
  | .go act =>
    let ads := s.imageAddrs c act code
    match s.imageBad store ads with
    | some tr => .next (s.takeTrap c.u (tr.wide act) c.len)
    | none =>
      if s.behindAcquire c act then .next s.stall
      else .next (((ads.foldl (fun s x => f s x.1 x.2.toNat) s).advance c.u c.len).meterVec act)

/-- R244. -/
def execKsave (f : V3) (s : State) : StepOut :=
  imageAccess s (.ksave f)
    { q := f.q, ill := illM0 f.m, opd := opdV f.x [f.a] [] [] (selBad f.b || f.a = 53), a := srcAny f.a } f.a true
    fun s t a => s.wrScratch (s.warp t.wid).bid a (s.kacc t.wid (selNum f.b)).image

/-- R244: replace mode, or addition of the image's value and status. -/
def execKload (f : V3) (s : State) : StepOut :=
  imageAccess s (.kload f)
    { q := f.q, ill := illZero f.m 6, opd := opdV f.x [f.a] [] [] (selBad f.d || f.a = 53), a := srcAny f.a,
      split := if f.m.getLsbD 0 then none else some 3 } f.a false
    fun s t a =>
      let im := KAcc.ofImage (s.rdScratch (s.warp t.wid).bid a 96)
      let k := s.kacc t.wid (selNum f.d)
      s.setKacc t.wid (selNum f.d)
        (if f.m.getLsbD 0 then { k with st := k.st ||| im.st }.setInt (k.int + im.int) else im)

end Sys2Proof.Machine
end

