-- ==== Sys2Proof/Machine/Coherence.lean ====
section
/-! DEFINITION. Accesses after they leave their core: registrations, loads, atomics and versions at the home slice, remote
accesses at their target, replies, and recorded faults (R76 to R84, R92, R94, R99, R207, R295 to R301, R399, R400). -/
namespace Sys2Proof.Machine

def State.onAcc (s : State) (id : Nat) (f : Access → Access) : State :=
  match s.accs.find id with
  | some a => { s with accs := s.accs.put id (f a) }
  | none => s

/-- Ticks of the slice that homes an address. -/
def State.sliceTick (s : State) (p : Nat) (va : DWord) : Nat := s.tileTick (((s.part p).homeTile va).getD 0)

/-- An access that is complete leaves, and its instruction's count falls with its last (R199). -/
def State.finish (s : State) (id : Nat) (a : Access) : State :=
  { s with accs := s.accs.del id }.uncount a.wid a.iid

/-- An access faults where it is performed (R207). -/
def State.failAcc (s : State) (id : Nat) (f : WalkFail) : State :=
  let s := match s.accs.find id with
    | some a => s.logMac a.part a.asid a.va f.cause
    | none => s
  s.onAcc id fun a => { a with st := .faulted, cause := f.cause, level := f.level, pte := f.pte, faultAt := s.gtime }

/-- A cause of its own, without a walk. -/
def noWalk (cause : Nat) : WalkFail := { cause := cause, level := 7, pte := 0 }

/-- A global lid that an access meets; one of an engine operation that its own thread issued later does not: the ENG is a
release, which the access comes before (R84; log entry 17). -/
def State.accLid (s : State) (id : Nat) (a : Access) (destOnly : Bool) : Bool :=
  s.lids.any fun l => l.glob && l.part = a.part && l.asid = a.asid && (l.dest || !destOnly) &&
    meets a.va.toNat (a.va.toNat + a.size) l.lo l.hi &&
    !(id < l.op && (s.ops.find l.op).any fun o => o.wid = a.wid && a.lanes.getLsbD o.lane)

/-- The instruction of one access comes before that of another, by a thread of both. -/
def Access.earlier (b a : Access) : Bool := b.iid < a.iid && b.wid = a.wid && b.lanes &&& a.lanes ≠ 0

/-- A recorded fault of an earlier instruction, by a thread of the access (R207). -/
def FaultRec.earlier (r : FaultRec) (a : Access) : Bool := r.iid < a.iid && r.lanes &&& a.lanes ≠ 0

/-- Every earlier access of its threads is complete, and none of their faults is recorded (R84, R97). -/
def State.relClear (s : State) (a : Access) : Bool :=
  (s.accs.all fun b => !(b.2.earlier a && b.2.kind ≠ .pref)) && (a.inTrap || (s.warp a.wid).records.all fun r => !(r.earlier a))

/-- Every earlier release of its threads is performed, none waiting as a recorded fault (R83, R97). -/
def State.acqClear (s : State) (a : Access) : Bool :=
  (s.accs.all fun b => !(b.2.earlier a && b.2.rel && b.2.st ≠ .answered)) &&
  (a.inTrap || (s.warp a.wid).records.all fun r => !(r.isRel && r.earlier a))

/-- The gang of a block is saved: a release of it that waits behind a recorded fault goes on waiting (log entry 23). -/
def State.isSaved (s : State) (bid : Nat) : Bool := (s.gang (s.block bid).gid).st = .saved

/-- A release that a recorded fault of its warp keeps from its home slice (R84, R97): it stays on its way (log entry 23). -/
def State.relHeld (s : State) (a : Access) : Bool :=
  a.rel && a.st = .sent && (s.warp a.wid).records.any fun r => r.earlier a

/-- A store that has not been registered or accepted. -/
def Access.unregistered (a : Access) : Bool :=
  a.kind = .st && match a.st with
    | .sent | .waiting _ _ => true
    | _ => false

/-- A store of the same core to a common byte that merged earlier registers first, so that a core's merges keep their order
(R79, R81; log entry 61); one that waits behind a recorded fault merges only when RTE or RTEX lets it go on. -/
def State.mergedFirst (s : State) (id : Nat) (a : Access) : Bool :=
  (a.kind = .st || a.kind = .atom) && s.accs.any fun b =>
    b.1 < id && b.2.unregistered && b.2.core = a.core && b.2.part = a.part && b.2.asid = a.asid &&
    !(s.relHeld b.2) && !(s.isSaved b.2.bid) &&
    meets b.2.va.toNat (b.2.va.toNat + b.2.size) a.va.toNat (a.va.toNat + a.size)

/-- The access may be performed at its home slice now (R81, R83, R84, R100, R446). -/
def State.mayPerform (s : State) (id : Nat) (a : Access) : Bool :=
  s.delivered a && !(s.isSaved a.bid) && !(s.behind id a) && !(s.mergedFirst id a) &&
    !(s.flipping a.part a.asid a.va) && (!a.rel || s.relClear a) && (!a.acq || s.acqClear a)

/-- Replies on their way to a core bring a line no more: a newer value has been ordered after them (R81). -/
def State.dropSnaps (s : State) (core p asid line : Nat) : State :=
  { s with accs := s.accs.map fun a =>
      (a.1, if a.2.core = core && a.2.part = p && a.2.asid = asid && lineOf a.2.va = line then { a.2 with snap := [] }
            else a.2) }

/-- Replies answered before another lose the line that they bring to a core (R81). -/
def State.olderSnaps (s : State) (a : Access) : State :=
  { s with accs := s.accs.map fun b =>
      (b.1, if b.2.core = a.core && b.2.part = a.part && b.2.asid = a.asid && lineOf b.2.va = lineOf a.va && b.2.answer < a.answer
            then { b.2 with snap := [] } else b.2) }

/-- Clean bytes of some words of a core's root copy become invalid. -/
def State.dropClean (s : State) (core p asid line : Nat) (words : Word) : State :=
  match s.l1Find core p asid line 0 with
  | none => s
  | some l => s.l1Put { l with valid := l.valid &&& ~~~(wordBytesMask words &&& ~~~l.dirty) }

/-! ### Stores at the home slice (R78, R94, R206) -/

/-- The words of an access in its line. -/
def Access.words (a : Access) : Word := wordsTouched (a.va.toNat % 128) a.size
/-- The words that an access covers whole. -/
def Access.whole (a : Access) : Word := wordsWhole (a.va.toNat % 128) a.size

/-- A registration accepted: another owner writes back first, the core becomes the line's owner, and the bytes are its
merged ones; on a host-bias page they are written through instead (R78, R99, R434, R441). -/
def State.acceptStore (s : State) (a : Access) (tile : Nat) (lf : Leaf) : State :=
  let line := lineOf a.va
  let old := (s.regFind a.part a.asid line).getD { part := a.part, asid := a.asid, line := line, core := a.core, mask := 0 }
  let lost := old.lost &&& ~~~a.whole
  if !lf.devBias then
    let s := (s.forceBack a.part a.asid line tile lf).regPut { old with mask := 0, lost := lost }
    let s := s.sliceWrite (s.part a.part) tile lf (a.data.zipIdx.map fun b => (b.2, b.1))
    s.l1Merge a.core a.part a.asid line 0 (a.va.toNat % 128) a.data false
  else
    let same := old.core = a.core
    let s := if same then s else s.forceBack a.part a.asid line tile lf
    let had : Word := if same then old.mask else 0
    let s := (s.dropSnaps a.core a.part a.asid line).dropClean a.core a.part a.asid line (a.words &&& ~~~had)
    let mask := had ||| a.words
    let s := s.regPut { old with core := a.core, mask := mask, lost := lost }
    let s := s.l1Merge a.core a.part a.asid line 0 (a.va.toNat % 128) a.data true
    if mask = BitVec.allOnes 32 then
      { s with upsets := s.upsets.filter fun u => u ≠ .line lf.space (lf.addr / 128 * 128) }
    else s

/-- A write performed at the home slice itself, after any owner's write-back (R79, R301): engine writes and versions
committed to the root. -/
def State.slicePut (s : State) (p asid : Nat) (va : DWord) (tile : Nat) (lf : Leaf) (bytes : List (Nat × Byte)) : State :=
  let s := s.forceBack p asid (lineOf va) tile lf
  let has (i : Nat) : Bool := bytes.any fun b => (va.toNat + b.1) % 128 = i
  let words := maskOf ((List.range 32).filter fun w => (List.range 4).all fun i => has (4 * w + i))
  let s := match s.regFind p asid (lineOf va) with
    | some r => s.regPut { r with lost := r.lost &&& ~~~words }
    | none => s
  s.sliceWrite (s.part p) tile lf bytes

/-- What keeps a store from being performed: its translation, a lid, or an owner-lost word that it covers in part. -/
def State.storeFail (s : State) (id : Nat) (a : Access) : Option WalkFail :=
  if s.accLid id a false then some (noWalk (cz 0x15 3))
  else
    match s.regFind a.part a.asid (lineOf a.va) with
    | some r => if r.lost &&& a.words &&& ~~~a.whole ≠ 0 then some (noWalk (cz 0x16 0)) else none
    | none => none

/-- The words of a line that hold a dirty byte. -/
def dirtyWords (d : BitVec 128) : Word :=
  (List.range 32).foldl (fun (m : Word) w => if d &&& byteMask (4 * w) 4 ≠ 0 then m ||| (1#32 <<< w) else m) 0

/-- Words that a failed core owns and has not written back are owner-lost, and its L1 is gone (R440). -/
def State.loseOwned (s : State) (core : Nat) : State :=
  let s := (s.reg.filter fun r => r.core = core && r.mask ≠ 0).foldl (fun s r =>
    let d := match s.l1Find core r.part r.asid r.line 0 with
      | some l => dirtyWords l.dirty
      | none => 0
    s.regPut { r with lost := r.lost ||| (r.mask &&& d), mask := 0 }) s
  { s with l1 := s.l1.filter fun l => l.core ≠ core }

/-- What a core owns after a store is lost with the core when that has failed (R440). -/
def State.afterStore (s : State) (core : Nat) : State := if (s.coreRegs core).failed then s.loseOwned core else s

/-- A root store at its home slice. -/
def State.registerStore (s : State) (id : Nat) (a : Access) : State :=
  let r := s.translate a.part a.asid a.va .store
  match r.2, (s.part a.part).homeTile a.va with
  | .ok lf, some tile =>
    match r.1.storeFail id a with
    | some f => r.1.failAcc id f
    | none => ((r.1.acceptStore a tile lf).afterStore a.core).onAcc id fun a => { a with st := .answered }
  | .ok _, none => r.1.failAcc id (noWalk (cz 0x11 3))
  | .error f, _ => r.1.failAcc id f

/-- A CWB at its home slice (R211): the issuing core's owned words come back, and the line goes to its frame. -/
def State.writeBack (s : State) (id : Nat) (a : Access) : State :=
  let r := s.translate a.part a.asid a.va .cwb
  match r.2, (s.part a.part).homeTile a.va with
  | .ok lf, some tile =>
    let s := match r.1.regFind a.part a.asid (lineOf a.va) with
      | some g => if g.core = a.core then r.1.forceBack a.part a.asid (lineOf a.va) tile lf else r.1
      | none => r.1
    let s := match s.l2Find tile lf.space (lf.addr / 128 * 128) with
      | some l => (s.l2Write (s.part a.part) l).l2Put { l with dirty := 0, data := [] }
      | none => s
    s.onAcc id fun a => { a with st := .answered }
  | .ok _, none => r.1.failAcc id (noWalk (cz 0x11 3))
  | .error f, _ => r.1.failAcc id f

/-- STORE_REGISTRATION (R78): a root store, or a CWB, reaches its home slice. -/
def execStoreRegistration (id : Nat) (s : State) : Host.Outcome State Fault Refusal :=
  .next (match s.accs.find id with
    | some a =>
      if a.st = .sent && s.mayPerform id a then
        match a.kind with
        | .st => if a.hyp.extractLsb' 0 8 = 0 then s.registerStore id a else s
        | .cwb => s.writeBack id a
        | _ => s
      else s
    | none => s)

/-- STORE_ACKNOWLEDGE (R199): the acknowledgement returns and the count falls. -/
def execStoreAcknowledge (id : Nat) (s : State) : Host.Outcome State Fault Refusal :=
  .next (match s.accs.find id with
    | some a =>
      if a.st = .answered && s.delivered a && (a.kind = .st || a.kind = .stn || a.kind = .cwb) then s.finish id a else s
    | none => s)

/-! ### Versions (R295, R296, R301) -/

/-- The entry of a sector under an id. -/
def State.versionAt (s : State) (p asid sector id : Nat) : Option Version :=
  s.vers.find? fun v => v.part = p && v.asid = asid && v.sector = sector && (v.hyp.extractLsb' 0 8).toNat = id

/-- The home of an entry's sector (R295, R305). -/
def Part.homeOf (P : Part) (v : Version) : Nat := (P.home (BitVec.ofNat 64 (v.sector * 32))).getD 0

/-- An entry replaced or added. -/
def State.versionPut (s : State) (v : Version) : State :=
  { s with vers := s.vers.filter (fun x => !(x.part = v.part && x.asid = v.asid && x.sector = v.sector &&
      x.hyp.extractLsb' 0 8 = v.hyp.extractLsb' 0 8)) ++ [v] }

/-- Bytes joined to the entry of their sector under a handle. -/
def State.versionJoin (s : State) (p asid : Nat) (h : BitVec 16) (va : Nat) (bytes : List (Nat × Byte)) : State :=
  let v := (s.versionAt p asid (va / 32) (h.extractLsb' 0 8).toNat).getD
    { part := p, asid := asid, sector := va / 32, hyp := h, mask := 0, data := [] }
  s.versionPut (bytes.foldl (fun (v : Version) b =>
    let i := (va + b.1) % 32
    { v with mask := v.mask ||| (1#32 <<< i), data := Memory.wr v.data i b.2 }) v)

/-- The version writes that wait at a partition's slices, of warps and of engines (R296, R304): the order of their arrival and
their address. -/
def State.waiters (s : State) (p : Nat) : List (Nat × Nat × DWord) :=
  (s.accs.filterMap fun a => match a.2.st with
    | .waiting _ n => if a.2.part = p then some (n, a.2.asid, a.2.va) else none
    | _ => none) ++
  s.ops.filterMap fun o => match o.2.stalled with
    | some w => if o.2.part = p then some (w.order, o.2.asid, w.va) else none
    | none => none

/-- A version write is accepted now (R296): it joins an entry, or takes a free one; writes that have waited longer come first,
those to its sector for an entry, all those of its slice for a free one. `order` is its own place, none for one that has just
arrived. -/
def State.versionRoom (s : State) (p asid : Nat) (va : DWord) (hid : Nat) (order : Option Nat) : Bool :=
  let P := s.part p
  let home := (P.home va).getD 0
  let first := (s.waiters p).filter fun w => (P.home w.2.2).getD 0 = home && order.all fun n => w.1 < n
  if (s.versionAt p asid (va.toNat / 32) hid).isSome then
    !(first.any fun w => w.2.1 = asid && w.2.2.toNat / 32 = va.toNat / 32)
  else (s.vers.filter fun v => v.part = p && P.homeOf v = home).length < Config.proofEntries && first = []

/-- The bytes of a version committed to the root, when their translation fails: dropped, with a record (R468). -/
def State.versionLost (s : State) (p asid : Nat) (va : DWord) (f : WalkFail) : State :=
  (s.fqPush p { cause := f.cause, level := f.level, source := 1, va := va >>> 5 <<< 5, asid := asid, pte := f.pte }).1

/-- A version write that its slice accepts, or drops: its bytes join the core's copy, and it is acknowledged (R298, R301). -/
def State.versionAck (s : State) (id : Nat) (a : Access) : State :=
  let s := match s.tagOf a with
    | some hid => (s.dropSnaps a.core a.part a.asid (lineOf a.va)).l1Merge a.core a.part a.asid (lineOf a.va) hid
        (a.va.toNat % 128) a.data false
    | none => s
  s.onAcc id fun a => { a with st := .answered }

/-- The bytes of an access with their offsets. -/
def Access.bytes (a : Access) : List (Nat × Byte) := a.data.zipIdx.map fun b => (b.2, b.1)

/-- The order of arrival of a version write that waits. -/
def Access.order (a : Access) : Option Nat :=
  match a.st with
  | .waiting _ n => some n
  | _ => none

/-- A version write waits for an entry (R296). -/
def State.versionWait (s : State) (id : Nat) (a : Access) : State :=
  if a.order.isSome then s
  else { s.onAcc id fun a => { a with st := .waiting (s.sliceTick a.part a.va) s.nextId } with nextId := s.nextId + 1 }

/-- A version write whose id its slice has seen confirmed (R301): a write under the node that it merged into, committed at the
root, without a check that a trap would record. -/
def State.lateWrite (s : State) (id : Nat) (a : Access) (h : BitVec 16) : State :=
  let hid := (h.extractLsb' 0 8).toNat
  let lost (t : State) (f : WalkFail) : State :=
    if s.fqHeld a.part then s else (t.versionLost a.part a.asid a.va f).versionAck id a
  if hid = 0 then
    let r := s.translate a.part a.asid a.va .store
    match r.2, (s.part a.part).homeTile a.va with
    | .ok lf, some tile => (r.1.slicePut a.part a.asid a.va tile lf a.bytes).versionAck id a
    | .error f, _ => lost r.1 f
    | .ok _, none => lost r.1 (noWalk (cz 0x11 3))
  else if s.versionRoom a.part a.asid a.va hid a.order then (s.versionJoin a.part a.asid h a.va.toNat a.bytes).versionAck id a
  else s.versionWait id a

/-- A version write under its own handle at its home slice (R94, R296). -/
def State.ownWrite (s : State) (id : Nat) (a : Access) : State :=
  let r := s.translate a.part a.asid a.va .store
  match r.2, (s.part a.part).homeTile a.va with
  | .error f, _ => r.1.failAcc id f
  | .ok _, none => r.1.failAcc id (noWalk (cz 0x11 3))
  | .ok _, some _ =>
    let s := r.1
    if s.accLid id a false then s.failAcc id (noWalk (cz 0x15 3))
    else if s.versionRoom a.part a.asid a.va (a.hyp.extractLsb' 0 8).toNat a.order then
      (s.versionJoin a.part a.asid a.hyp a.va.toNat a.bytes).versionAck id a
    else s.versionWait id a

/-- A version write at its home slice under the handle that its own stands for there (R296, R301). -/
def State.writeVersion (s : State) (id : Nat) (a : Access) : State :=
  match (s.part a.part).effHyp ((s.part a.part).homePlace a.va) a.hyp with
  | none => s.versionAck id a
  | some h => if h = a.hyp then s.ownWrite id a else s.lateWrite id a h

/-- A version write that its slice has waited with for too long, or that a save does not wait for (R296): a handle that was
refuted drops it, one that its slice has seen confirmed keeps it waiting, since no trap records either (R301, R303). -/
def State.capacityFail (s : State) (id : Nat) (a : Access) (detail : Nat) : State :=
  let P := s.part a.part
  if P.effBy (fun _ => true) a.hyp = none then s.versionAck id a
  else if P.effHyp (P.homePlace a.va) a.hyp ≠ some a.hyp then s
  else s.failAcc id (noWalk (cz 0x29 detail))

/-- VERSION_WRITE_AT_SLICE (R296). -/
def execVersionWriteAtSlice (id : Nat) (s : State) : Host.Outcome State Fault Refusal :=
  .next (match s.accs.find id with
    | some a =>
      let open_ := match a.st with
        | .sent | .waiting _ _ => true
        | _ => false
      if a.kind = .st && a.hyp.extractLsb' 0 8 ≠ 0 && open_ && s.mayPerform id a then s.writeVersion id a else s
    | none => s)

/-! ### Loads at the home slice (R80, R83, R94, R297) -/

/-- The detail of JTAB_FETCH of a failure (R226). -/
def jtabDetail (cause : Nat) : Nat :=
  match cause / 8 with
  | 0x11 => 0
  | 0x12 => 1
  | 0x15 => 3
  | _ => 2

/-- A load that fails at its home slice: a prefetch is dropped, a table fetch fails, another is recorded. -/
def State.failLoad (s : State) (id : Nat) (a : Access) (f : WalkFail) : State :=
  match a.kind with
  | .pref => { s with accs := s.accs.del id }
  | .jtab => s.onAcc id fun a => { a with st := .failed (jtabDetail f.cause) }
  | _ => s.failAcc id f

/-- The answer of the home slice, with the line it brings. -/
def State.answerLoad (s : State) (id : Nat) (a : Access) (tile : Nat) (lf : Leaf) : State :=
  let n := if a.kind = .pref then 128 else a.size
  match s.homeBytes (some a.core) a.part a.asid tile a.chain lf a.va n with
  | .error c => s.failLoad id a (noWalk c)
  | .ok bs =>
    let snap := s.lineSnap a.part a.asid tile a.chain lf a.va
    let s := s.sliceTouch (s.part a.part) tile lf
    { s.onAcc id fun a => { a with st := .answered, data := bs, snap := snap, answer := s.nextId } with nextId := s.nextId + 1 }

/-- Another core owns a word of the access that the load's view does not cover (R80, R297). -/
def State.foreignOwner (s : State) (a : Access) : Option Nat :=
  match s.regFind a.part a.asid (lineOf a.va) with
  | some r =>
    let P := s.part a.part
    let place := P.homePlace a.va
    let view := P.viewAt place a.chain
    let n := if a.kind = .pref then 128 else a.size
    if r.core ≠ a.core && r.mask &&& wordsTouched (a.va.toNat % 128) n ≠ 0 &&
        !((List.range n).all fun i => (s.viewByte (some a.core) a.part a.asid place view (a.va.toNat + i)).isSome) then some r.core
    else none
  | none => none

/-- Kinds that are answered as loads. -/
def AccKind.isLoad : AccKind → Bool
  | .ld | .ldu | .ldt | .pref | .jtab => true
  | _ => false

/-- A load at its home slice: answered there, or forwarded to the owner. -/
def State.loadHome (s : State) (id : Nat) (a : Access) : State :=
  let r := s.translate a.part a.asid a.va .load
  match r.2, (s.part a.part).homeTile a.va with
  | .error f, _ => r.1.failLoad id a f
  | .ok _, none => r.1.failLoad id a (noWalk (cz 0x11 3))
  | .ok lf, some tile =>
    let s := r.1
    if s.accLid id a true then s.failLoad id a (noWalk (cz 0x15 2))
    else if a.kind = .pref && a.op = 1 then { s.sliceTouch (s.part a.part) tile lf with accs := s.accs.del id }
    else
      match s.foreignOwner a with
      | some c => s.onAcc id fun a => { a with st := .atOwner c }
      | none => s.answerLoad id a tile lf

/-- LOAD_AT_HOME_SLICE (R80); a prefetch of a page whose bias flips is dropped (R210). -/
def execLoadAtHomeSlice (id : Nat) (s : State) : Host.Outcome State Fault Refusal :=
  .next (match s.accs.find id with
    | some a =>
      if a.kind = .pref && s.flipping a.part a.asid a.va then { s with accs := s.accs.del id }
      else if a.kind.isLoad && a.st = .sent && s.mayPerform id a then s.loadHome id a else s
    | none => s)

/-- OWNER_FORWARD (R80): the owning core returns its merged value; one that has lost the word meanwhile is answered by
the slice, and one that has failed as owner-lost (R441). -/
def execOwnerForward (id : Nat) (s : State) : Host.Outcome State Fault Refusal :=
  .next (match s.accs.find id with
    | some a =>
      match a.st, (s.translate a.part a.asid a.va .load).2, (s.part a.part).homeTile a.va with
      | .atOwner c, .ok lf, some tile =>
        if (s.coreRegs c).failed then s.failLoad id a (noWalk (cz 0x16 0)) else s.answerLoad id a tile lf
      | .atOwner _, .error f, _ => s.failLoad id a f
      | _, _, _ => s
    | none => s)

/-- A reply's line fills the missing words of the copy under the load's id (R80, R298), and older replies bring it no more
(R81); an acquire fills none (R83). -/
def State.fillReply (s : State) (a : Access) : State :=
  if a.acq then s
  else
    let s := s.olderSnaps a
    match s.tagOf a with
    | some hid => s.l1Fill a.core a.part a.asid (lineOf a.va) hid (if a.kind = .pref then 0 else a.words) a.snap
    | none => s

/-- A value returned to its registers. -/
def State.returnValue (s : State) (a : Access) : State :=
  s.deliver a.wid a.dst a.tag (loadWords a.size a.signed a.data)

/-- LOAD_REPLY (R80, R83, R197): a load, an atomic or a remote value returns to its core. -/
def execLoadReply (id : Nat) (s : State) : Host.Outcome State Fault Refusal :=
  .next (match s.accs.find id with
    | some a =>
      if a.st ≠ .answered || !(s.delivered a) then s
      else
        match a.kind with
        | .pref => { s.fillReply a with accs := s.accs.del id }
        | .ld | .ldu | .ldt =>
          let s := (s.fillReply a).returnValue a
          (if a.acq then s.invalidate a.core else s).finish id a
        | .ldn => (s.returnValue a).finish id a
        | .atom | .atomn =>
          let s := s.returnValue a
          (if a.acq then s.invalidate a.core else s).finish id a
        | _ => s
    | none => s)

/-! ### Atomics at the home slice (R79, R209) -/

/-- The old value read and the new one written, indivisibly, after any owner's write-back. -/
def State.atomHome (s : State) (id : Nat) (a : Access) : State :=
  let r := s.translate a.part a.asid a.va .atomic
  match r.2, (s.part a.part).homeTile a.va with
  | .error f, _ => r.1.failAcc id f
  | .ok _, none => r.1.failAcc id (noWalk (cz 0x11 3))
  | .ok lf, some tile =>
    match r.1.storeFail id a with
    | some f => r.1.failAcc id f
    | none =>
      let s := r.1.forceBack a.part a.asid (lineOf a.va) tile lf
      match s.committed a.part a.asid tile lf a.va a.size with
      | .error c => s.failAcc id (noWalk c)
      | .ok bs =>
        let m := BitVec.ofNat 64 (leNat bs)
        let new := natLe a.size (atomNew a.op m a.opcC a.opcD).toNat
        let s := s.sliceWrite (s.part a.part) tile lf (new.zipIdx.map fun b => (b.2, b.1))
        let s := (s.dropSnaps a.core a.part a.asid (lineOf a.va)).dropClean a.core a.part a.asid (lineOf a.va) a.words
        s.onAcc id fun a => { a with st := .answered, data := bs }

/-- ATOMIC_AT_HOME_SLICE (R209). -/
def execAtomicAtHomeSlice (id : Nat) (s : State) : Host.Outcome State Fault Refusal :=
  .next (match s.accs.find id with
    | some a => if a.kind = .atom && a.st = .sent && s.mayPerform id a then s.atomHome id a else s
    | none => s)

/-! ### Gang-remote accesses (R92) -/

/-- Kinds that travel on a gang-remote stream. -/
def AccKind.isRemote : AccKind → Bool
  | .ldn | .stn | .atomn => true
  | _ => false

/-- The access is the first of its stream: no earlier one from its core to the same core is on its way. -/
def State.streamHead (s : State) (id : Nat) (a : Access) : Bool :=
  s.accs.all fun b => !(b.1 < id && b.2.kind.isRemote && b.2.core = a.core && b.2.st ≠ .answered &&
    (s.block b.2.target).core = (s.block a.target).core)

/-- GANG_REMOTE_ARRIVAL (R92, R206, R209): performed at the destination in stream order; what a load finds in the freed
allotment of a block that has retired is open (log entry 20). -/
def execGangRemoteArrival (id : Nat) (s : State) : Host.Outcome State Fault Refusal :=
  .next (match s.accs.find id with
    | some a =>
      if a.st = .sent && s.delivered a && s.streamHead id a then
        match a.kind with
        | .ldn =>
          if (s.block a.target).retired then
            { s.onAcc id fun a => { a with st := .answered, data := (List.range a.size).map fun i => Config.freeByte (s.freeCtr + i) } with
              freeCtr := s.freeCtr + a.size }
          else s.onAcc id fun a => { a with st := .answered, data := s.rdScratch a.target a.va.toNat a.size }
        | .stn =>
          ((s.wrScratch a.target a.va.toNat a.data).latch 3 fun w => w.bid = a.target).onAcc id fun a => { a with st := .answered }
        | .atomn =>
          let r := s.atomScratch a.target a.va.toNat a.op a.opcC a.opcD
          (r.1.latch 3 fun w => w.bid = a.target).onAcc id fun a => { a with st := .answered, data := natLe a.size r.2.toNat }
        | _ => s
      else s
    | none => s)

/-! ### Snoops (R99) -/

/-- The slice's copies of a line of host or peer memory leave it; bytes written under device bias go to memory first. -/
def State.snoopLine (s : State) (space line : Nat) : State :=
  (s.l2.filter fun l => l.space = space && l.addr = line).foldl (fun s l => (s.l2Write (s.part ((s.tileOwner l.tile).getD 0)) l).l2Drop l) s

/-- HOST_SNOOP (R99): a store of the host or of a lender invalidates the slice's copies, then completes; its bytes are stored
plain (R417). -/
def execHostSnoop (peer : Bool) (addr : DWord) (data : List Byte) (s : State) : Host.Outcome State Fault Refusal :=
  let sp := if peer then 2 else 1
  let lines := (List.range data.length).map fun i => (addr.toNat + i) / 128 * 128
  let s := lines.eraseDups.foldl (fun s l => s.snoopLine sp l) s
  .next (data.zipIdx.foldl (fun s b => s.wrFrame noPart false sp (addr.toNat + b.2) [b.1]) s)

/-! ### Recorded faults (R207, R399, R400) -/

/-- Accesses of one instruction that faulted, in lane order of their issue. -/
def State.faultedOf (s : State) (wid iid : Nat) : List (Nat × Access) :=
  s.accs.filter fun a => a.2.wid = wid && a.2.iid = iid && a.2.st = .faulted

/-- Every access of an instruction has been performed or has faulted, so its record is complete. -/
def State.allJudged (s : State) (wid iid : Nat) : Bool :=
  s.accs.all fun a => !(a.2.wid = wid && a.2.iid = iid) || a.2.st = .faulted || a.2.st = .answered

/-- The lanes of one access as a record holds them (R399). -/
def Access.faultLanes (a : Access) : List FaultLane :=
  (lanesOf a.lanes).map fun l =>
    { lane := l, addr := a.va,
      data := if a.kind = .atom then natLe 8 a.opcC.toNat ++ natLe 8 a.opcD.toNat else if a.kind = .st then a.data else [],
      dst := ((a.dst.find? fun d => d.1 = l).map (·.2)).getD [] }

/-- The source of a fault-queue record (R391). -/
def AccKind.source : AccKind → Nat
  | .st | .cwb => 1
  | .atom => 2
  | _ => 0

/-- The fault-queue record of a warp access, when its cause has one (R390). -/
def State.fqAccess (s : State) (a : Access) (lanes : Word) : State × Option Nat :=
  if a.cause / 8 = 0x11 || a.cause / 8 = 0x12 then
    s.fqPush a.part
      { s.warpRec a.wid a.kind.source a.cause lanes a.va a.level a.pte with gtime := some a.faultAt }
  else (s, none)

/-- A record made of the faulted accesses of an instruction. -/
def recordOf (l : List Access) (a : Access) (seq : Option Nat) (tick : Nat) : FaultRec :=
  { cause := a.cause, m4 := a.m4, kind := a.kind, ordered := a.acq || a.rel,
    lanes := (l.map (·.lanes)).foldl (· ||| ·) 0, pc := a.pc, hdr := a.hdr, hyp := a.hyp, dest := a.destCode,
    xw := if a.kind = .atom then a.xw else 0, fqseq := seq, each := l.flatMap Access.faultLanes, iid := a.iid,
    arrived := tick }

/-- The faults of an access made in trap mode: the parts that hold its lanes are parked (R398, R400). -/
def State.parkFault (s : State) (wid : Nat) (cause : Nat) (lanes : Word) : State :=
  let w := s.warp wid
  s.parkParts wid 0 cause (w.slivers.filter fun k => w.sliverLanes k &&& lanes ≠ 0)

/-- FAULT_RECORD_ARRIVE (R207, R399, R400): the faulted lanes of an instruction reach the core as one record; those of a
warp that an abandonment took away leave none (R405). -/
def execFaultRecordArrive (id : Nat) (s : State) : Host.Outcome State Fault Refusal :=
  .next (match s.accs.find id with
    | some a =>
      if a.st = .faulted && (s.warps.find a.wid).isNone then { s with accs := s.accs.del id }
      else if a.st = .faulted && s.allJudged a.wid a.iid && !(s.fqHeld a.part) then
        let l := s.faultedOf a.wid a.iid
        let first := (l.head?.map (·.2)).getD a
        let lanes := (l.map (·.2.lanes)).foldl (· ||| ·) 0
        let r := s.fqAccess first lanes
        let s := { r.1 with accs := r.1.accs.filter fun b => !(l.any fun x => x.1 = b.1) }
        if a.inTrap then (l.foldl (fun s x => s.uncount x.2.wid x.2.iid) s).parkFault a.wid first.cause lanes
        else
          let rec_ := recordOf (l.map (·.2)) first r.2 (s.warpTick a.wid)
          s.onWarp a.wid fun w => Warp.listAside { w with aside := w.aside ++ [rec_] } (s.warpTick a.wid)
      else s
    | none => s)

/-- States at an instruction boundary: the unit stands at an instruction or a header, if need be blocked there (R207). -/
def GroupSt.atBoundary : GroupSt → Bool
  | .running | .waiting | .blocked | .widle | .held => true
  | _ => false

/-- Records of a warp whose trap is due at the next boundary: 256 ticks old, or the oldest of a full list (R207, R399). -/
def Warp.dueRecs (w : Warp) (tick : Nat) : List FaultRec :=
  (w.faults.filter fun r => r.arrived + 256 ≤ tick) ++ if 8 ≤ w.faults.length then w.faults.take 1 else []

/-- The unit of a warp that holds lanes of such a record, outside trap mode, at a boundary and in a running gang. -/
def State.timeoutUnit (s : State) (wid : Nat) : Option Nat :=
  let w := s.warp wid
  if w.trapSet ≠ 0 || (s.gang (s.block w.bid).gid).st ≠ .running then none
  else w.slivers.find? fun k => ((w.dueRecs (s.warpTick wid)).any fun r => r.lanes &&& w.sliverLanes k ≠ 0) &&
    !(s.insideEng wid (w.sliverLanes k)) && (w.running k).all fun g => g.st.atBoundary

/-- FAULT_TRAP_TIMEOUT (R207 point 4, R399). -/
def execFaultTrapTimeout (wid : Nat) (s : State) : Host.Outcome State Fault Refusal :=
  .next (match s.timeoutUnit wid with
    | some k => s.takeRecorded (s.unitAt { wid := wid, sliver := k })
    | none => s)

end Sys2Proof.Machine
end

