-- ==== Sys2Proof/Machine/Issue.lean ====
section
/-! DEFINITION. The scheduler of R40 to R44 and R232, end of body (R36), and the fetch of the instruction that issues next (R140,
R141). The order in which the module's events happen is data of the state: `agenda` (log entry 2). -/
namespace Sys2Proof.Machine

/-! ### Ends of bodies (R36) -/

/-- The word after a body. -/
def Frame.endAt (f : Frame) : DWord := f.start + BitVec.ofNat 64 (4 * f.len)

/-- The level whose body ends at a position, for lanes of a warp at a call depth: the innermost first. -/
def Warp.dueLevel (w : Warp) (pc : DWord) (depth : Nat) (lanes : Word) : Option Nat :=
  [2, 1, 0].find? fun l => match w.frames.find l with
    | some f => f.active &&& lanes ≠ 0 && f.depth = depth && f.endAt = pc
    | none => false

/-- Some thread of the unit stands at the end of an active body. -/
def State.bodyDue (s : State) (u : IssueUnit) : Bool :=
  u.pc = u.hdr && u.mem.any fun p => ((s.warp p.1).dueLevel u.pc u.depth (lanesIn u.th p.1)).isSome

/-! ### The next instruction -/

/-- A word of the unit's clause: as decoded with the header, else fetched again (R140, R141). -/
def State.wordAt (s : State) (u : IssueUnit) (a : DWord) : Except Nat Word :=
  if u.code = [] then
    match u.mem with
    | [] => .error (cz 0x11 4)
    | p :: _ => s.fetch (s.partOf p.1) (s.asidOf p.1) a
  else .ok (u.code.getD ((a - u.hdr).toNat / 4 - 1) 0)

/-- The instruction at the unit's position, or the cause and address of a fetch that failed (R223). -/
def State.nextInstr (s : State) (u : IssueUnit) : Except (Nat × DWord) Instr :=
  match s.wordAt u u.pc with
  | .error c => .error (c, u.pc)
  | .ok w =>
    match decode w 0 with
    | none => .error (cz 0x01 7, u.pc)
    | some (i, n) =>
      if n < 2 then .ok i
      else
        match s.wordAt u (u.pc + 4) with
        | .error c => .error (c, u.pc + 4)
        | .ok x =>
          match decode w x with
          | some (j, _) => .ok j
          | none => .error (cz 0x01 7, u.pc)

/-- The full fault list of R399: the oldest record's lanes are in the unit and it is not in trap mode. -/
def State.listDue (s : State) (u : IssueUnit) : Bool :=
  !(s.trapMode u) && !(u.mem.any fun p => s.insideEng p.1 (lanesIn u.th p.1)) && u.mem.any fun p =>
    let w := s.warp p.1
    8 ≤ w.faults.length && w.faults.head?.any fun r => decide (r.lanes &&& lanesIn u.th p.1 ≠ 0)

/-! ### The choice of R42 -/

/-- The nanosecond that a slew adds or takes in a tick: one in 8,192 ticks, below 100 ppm (R377; log entry 33). -/
def slew (pend : Int) (tick : Nat) : Int := if tick % 8192 ≠ 0 then 0 else if 0 < pend then 1 else if pend < 0 then -1 else 0

/-- A tick passes (R2: 1.25 ns at the nominal clock); a correction of module time is slewed (R377). -/
def State.tickOn (s : State) : State :=
  let d := slew s.grm.pendOff s.tick
  let dt := 5 * (s.tick + 1) / 4 - 5 * s.tick / 4
  { s with tick := s.tick + 1, gtime := s.gtime + (dt + d).toNat, grm := { s.grm with pendOff := s.grm.pendOff - d } }

/-- A warp's gang runs and its core is awake and works. -/
def State.onRun (s : State) (w : Warp) : Bool :=
  (s.gang (s.block w.bid).gid).st = .running && !(s.coreRegs w.core).asleep && !(s.coreRegs w.core).failed

/-- A warp may issue now: it is also active. -/
def State.mayIssue (s : State) (w : Warp) : Bool := w.inActive && s.onRun w

/-- States in which a unit is looked at again. -/
def GroupSt.mayRun : GroupSt → Bool
  | .running | .blocked | .waiting | .widle => true
  | _ => false

/-- The units of a warp that may issue; a mixed warp counts once, under its first part (R40). -/
def State.unitsOf (s : State) (wid : Nat) (w : Warp) : List Focus :=
  (w.slivers.filter fun k => (w.running k).all (·.st.mayRun)).filterMap fun k =>
    let f : Focus := { wid := wid, sliver := k }
    if (s.partsOf f).head? = some (wid, k) then some f else none

/-- Units of the active sets that may issue. -/
def State.cands (s : State) : List Focus :=
  (s.warps.filter fun x => s.mayIssue x.2).flatMap fun x => s.unitsOf x.1 x.2

/-- The tick since which a unit has been ready. -/
def State.readyAt (s : State) (f : Focus) : Nat := (s.warp f.wid).readySince.getD f.sliver (s.warpTick f.wid)

/-- Ready for at least 48 counted ticks. -/
def State.overdue (s : State) (f : Focus) : Bool := s.readyAt f + 48 ≤ s.warpTick f.wid

def State.prioOf (s : State) (f : Focus) : Nat := (s.launchOf f.wid).prio

/-- How far a sliver's turn is in its warp's round (R42 step 4): the one after the last issued first. -/
def State.turnOf (s : State) (f : Focus) : Nat :=
  let l := (s.warp f.wid).lastSliver
  if l < f.sliver then f.sliver - l else f.sliver + 2 ^ 32 - l

/-- Does the first unit go before the second (R42)? -/
def State.goesFirst (s : State) (a b : Focus) : Bool :=
  if s.overdue a != s.overdue b then s.overdue a
  else if s.overdue a && s.readyAt a ≠ s.readyAt b then s.readyAt a < s.readyAt b
  else if s.prioOf a ≠ s.prioOf b then s.prioOf b < s.prioOf a
  else if a.wid ≠ b.wid then
    (s.warp a.wid).age < (s.warp b.wid).age || ((s.warp a.wid).age = (s.warp b.wid).age && a.wid < b.wid)
  else s.turnOf a ≤ s.turnOf b

/-- The best of a list of units. -/
def State.bestOf (s : State) : List Focus → Option Focus
  | [] => none
  | f :: fs => match s.bestOf fs with
    | none => some f
    | some g => if s.goesFirst f g then some f else some g

/-- A header admits a second issue beside its clause: class ALU and S clear (R43). -/
def coIssues (hw : Word) : Bool := hw.extractLsb' 21 3 = 0 && !(hw.getLsbD 3)

/-- Quads that a unit occupies. -/
def State.quadsAt (s : State) (f : Focus) : List Nat := (s.partGroups (s.partsOf f)).map (·.2.quad)

/-- A ready unit may take a turn: any unit the first issue, one of R43 the second. -/
def State.fits (s : State) (t : Turn) (f : Focus) : Bool :=
  (s.warp f.wid).core = t.core && match t.quads with
    | none => true
    | some qs => coIssues (s.unitAt f).hw && (s.quadsAt f).all fun q => !(qs.contains q)

/-- A unit gives way to another at its core's next choice: it has yielded, or its clause hints so (R137, R232). -/
def State.givesWay (s : State) (core : Nat) (f g : Focus) : Bool :=
  (s.coreRegs core).yielded.any fun y => y.1 = f && g ≠ f && (!y.2 || g.wid ≠ f.wid)

/-- The ready unit that takes a turn (R42, R43); one that gives way to another only when every one does. -/
def State.pickIn (s : State) (t : Turn) : Option Focus :=
  let l := s.ready.filter (s.fits t)
  match l.filter fun f => !(l.any (s.givesWay t.core f)) with
  | [] => s.bestOf l
  | l => s.bestOf l

/-- Warps of a core that hold a thread, in its active set or in its pending set. -/
def State.coreWarpIds (s : State) (core : Nat) (active : Bool) : List Nat :=
  (s.warps.filter fun x => x.2.core = core && x.2.inActive = active && x.2.live ≠ 0 &&
    (s.gang (s.block x.2.bid).gid).st = .running).map (·.1)

/-- Issue units that a warp counts for in R40. -/
def State.unitCount (s : State) (wid : Nat) : Nat :=
  ((s.warp wid).slivers.filter fun k => (s.partsOf { wid := wid, sliver := k }).head? = some (wid, k)).length

/-- Issue units of a core's active set. -/
def State.coreUnits (s : State) (core : Nat) : Nat :=
  ((s.coreWarpIds core true).map s.unitCount).foldl (· + ·) 0

/-- A warp leaves the active set: a mixed warp it has a part in dissolves (R32). -/
def State.toPending (s : State) (wid : Nat) : State :=
  let mem := (s.warp wid).slivers.map fun k => (wid, k)
  (s.dissolve mem).onWarp wid fun w =>
    { w with inActive := false, pendReady := none, readySince := [] }

/-- A warp enters the active set. -/
def State.toActive (s : State) (wid : Nat) : State :=
  s.onWarp wid fun w =>
    { w with inActive := true, activeSince := s.tickOf w.core, pendReady := none, depSince := none, readySince := [] }

/-- The warp of lowest priority and then the youngest of a list (R40, R41). -/
def State.lowestOf (s : State) : List Nat → Option Nat
  | [] => none
  | x :: xs => match s.lowestOf xs with
    | none => some x
    | some y =>
      let px := (s.launchOf x).prio
      let py := (s.launchOf y).prio
      if px < py || (px = py && (s.warp y).age ≤ (s.warp x).age) then some x else some y

/-- A warp has more issue units than when its core's sets were last balanced: it has diverged (R40). -/
def State.diverged (s : State) (wid : Nat) : Bool := (s.warp wid).units < s.unitCount wid

/-- One admission or removal of R40 on a core; a warp that has just diverged is removed only when there is no other. Which
pending warp enters a set that has room is open (log entry 91). -/
def State.balanceOnce (s : State) (core : Nat) : State :=
  let act := s.coreWarpIds core true
  if 16 < s.coreUnits core then
    match s.lowestOf (act.filter fun w => !(s.diverged w)) with
    | some w => s.toPending w
    | none => match s.lowestOf act with
      | some w => s.toPending w
      | none => s
  else if act.length < 8 then
    match (s.coreWarpIds core false).filter fun w => s.coreUnits core + s.unitCount w ≤ 16 with
    | [] => s
    | w :: ws => s.toActive ((w :: ws).getD (Config.freeNat s.freeCtr % (ws.length + 1)) w)
  else s

/-- The sets of a core brought within R40's bounds. -/
def State.balance (s : State) (core : Nat) : Nat → State
  | 0 => { s with warps := s.warps.map fun (x : Nat × Warp) =>
      (x.1, if x.2.core = core then { x.2 with units := s.unitCount x.1 } else x.2) }
  | n + 1 => (s.balanceOnce core).balance core n

/-- Cores that hold warps. -/
def State.coresUsed (s : State) : List Nat := (s.warps.map fun x => x.2.core).eraseDups

/-- Can the chosen unit be looked at? -/
def State.canIssue (s : State) (f : Focus) : Bool := s.chosen && s.cands.contains f && !(s.tried.contains f)

/-- A next state mapped. -/
def onNext (o : StepOut) (f : State → State) : StepOut :=
  match o with
  | .next s => .next (f s)
  | .fault r => .fault r
  | .refused r => .refused r

/-- The trap of an instruction word that cannot be fetched, or that is a header (R140, R223, R397). -/
def State.fetchTrap (s : State) (u : IssueUnit) (cause : Nat) (a : DWord) : State :=
  s.takeTrap u { cause := cause, tval := a, mask := u.th } 1

end Sys2Proof.Machine
end

