-- ==== Sys2Proof/Machine/Sync.lean ====
section
/-! DEFINITION. Fences, counter waits, barriers, phase barriers and completion tags (R47 to R51, R89, R212 to R221). -/
namespace Sys2Proof.Machine

/-- An instruction whose effect is given for its active threads once its checks pass. -/
def syncInstr (s : State) (i : Instr) (k : Checks) (f : Ctx → List Th → State) : StepOut :=
  let c := s.ctx i
  match s.gate c k with
  | .stop s' => .next s'
  | .go act => .next (f c act)

/-! ### Acquires (R83) -/

/-- An acquire at issue waits for its threads' releases and acquires to be performed (R83, R97). -/
def State.acqHold (s : State) (c : Ctx) (act : List Th) : Option State :=
  if (act.any fun t => s.relWaits c.trap t) || s.behindAcquire c act then some (s.stall) else none

/-- The cores of a list of threads. -/
def State.coresOf (s : State) (act : List Th) : List Nat := ((widsOf act).map fun wid => (s.warp wid).core).eraseDups

/-- An acquire completes for its threads: their core invalidates (R83). -/
def State.acquire (s : State) (act : List Th) : State := (s.coresOf act).foldl State.invalidate s

/-! ### Errors at observation (R252) -/

/-- The oldest engine error that an observer meets, with the threads that observe it. -/
def State.observed (s : State) (act : List Th) (sees : Th → ObsErr → Bool) : Option (ObsErr × List Th) :=
  (s.errs.find? fun e => act.any fun t => sees t e).map fun e => (e, act.filter fun t => sees t e)

/-- The trap at observation, taken once for each operation (R252). -/
def State.takeObserved (s : State) (c : Ctx) (x : ObsErr × List Th) : State :=
  { s with errs := s.errs.filter (· ≠ x.1) }.takeTrap c.u { cause := x.1.cause, tval := BitVec.ofNat 64 x.1.tag, mask := x.2, trec := x.1.trec } c.len

/-! ### FENCE (R89, R212) -/

/-- The next unused name when the unit's wait began: now, for one that does not wait yet. -/
def State.waitMark (s : State) (u : IssueUnit) : Nat :=
  match (s.partGroups u.mem).find? fun g => g.2.mark ≠ 0 with
  | some g => g.2.mark
  | none => s.nextId

/-- The unit keeps the mark of its wait (R89, R270). -/
def State.markUnit (s : State) (u : IssueUnit) : State := s.setSt u fun g => { g with mark := s.waitMark u }

/-- What holds a fence of a kind for its active threads (R83, R84, R89). -/
def State.fenceHold (s : State) (c : Ctx) (act : List Th) (kind : Nat) : Option State :=
  match kind with
  | 0 => s.acqHold c act
  | 1 => s.releaseHold c act
  | 2 => match s.releaseHold c act with
    | some s' => some s'
    | none => s.acqHold c act
  | 3 => if act.any s.remotePending then some (s.stall) else none
  | _ =>
    if s.ops.any fun o => o.2.st ≠ .reading && (widsOf act).contains o.2.wid && o.1 < s.waitMark c.u then some (s.stall) else s.acqHold c act

/-- R212. -/
def execFence (f : V3) (s : State) : StepOut :=
  let kind := f.m.toNat
  syncInstr s (.fence f) { q := f.q, ill := illOf false (4 < kind) } fun c act =>
    match s.fenceHold c act kind with
    | some s' => if kind = 4 then s'.markUnit c.u else s'
    | none =>
      match (if kind = 4 then s.observed act fun t e => e.wid = t.wid && e.op < s.waitMark c.u else none) with
      | some x => s.takeObserved c x
      | none => (if kind = 0 || kind = 2 || kind = 4 then s.acquire act else s).advance c.u c.len

/-! ### WAIT and header waits (R138, R213) -/

/-- Instructions of a warp whose accesses are recorded. -/
def Warp.recIids (w : Warp) : List Nat := w.records.map (·.iid)

/-- A counter as a wait sees it: in trap mode without recorded accesses (R400). -/
def State.counterSeen (s : State) (trap : Bool) (wid ctr : Nat) : Nat :=
  (s.outst.filter fun o => o.wid = wid && o.ctr = ctr && !(trap && (s.warp wid).recIids.contains o.iid)).length

/-- The part of a counter that recorded accesses keep (R207). -/
def State.counterKept (s : State) (wid ctr : Nat) : Nat :=
  (s.outst.filter fun o => o.wid = wid && o.ctr = ctr && (s.warp wid).recIids.contains o.iid).length

/-- Bounds of the four counters, in order; none where there is no wait. -/
abbrev Bounds := List (Option Nat)

/-- The first bound that a condition fails, over the counters. -/
def Bounds.all (b : Bounds) (p : Nat → Nat → Bool) : Bool :=
  b.zipIdx.all fun x => match x.1 with
    | some k => p x.2 k
    | none => true

/-- Every bound holds for every one of a list of warps. -/
def State.waitMet (s : State) (trap : Bool) (wids : List Nat) (b : Bounds) : Bool :=
  wids.all fun wid => b.all fun ctr k => s.counterSeen trap wid ctr ≤ k

/-- Some bound needs a recorded access to be counted down (R207 point 2). -/
def State.waitNeedsRec (s : State) (wids : List Nat) (b : Bounds) : Bool :=
  wids.any fun wid => !(b.all fun ctr k => s.counterKept wid ctr ≤ k)

/-- A wait that is not met: the trap of a recorded access, or the unit waits (R28, R207). -/
def State.waitUnmet (s : State) (u : IssueUnit) (trap : Bool) (wids : List Nat) (b : Bounds) : State :=
  if !trap && s.waitNeedsRec wids b && s.unitRecords u ≠ [] then s.takeRecorded u else s.unmet u .waiting

/-- The bounds of a WAIT (R213). -/
def waitBounds (f : WT) : Bounds :=
  let b (n top : Nat) : Option Nat := if n = top then none else some n
  [b f.l.toNat 63, b f.s.toNat 63, b f.c.toNat 63, b f.t.toNat 31]

/-- R213. -/
def execWait (f : WT) (s : State) : StepOut :=
  syncInstr s (.wait f) { q := f.q } fun c act =>
    if s.waitMet c.trap (widsOf act) (waitBounds f) then s.advance c.u c.len
    else s.waitUnmet c.u c.trap (widsOf act) (waitBounds f)

/-! ### BAR and GBAR (R47, R48, R214) -/

/-- Every thread of a block that has not exited waits in its barrier of the present generation (R47). -/
def State.allAtBar (s : State) (bid : Nat) : Bool :=
  (s.blockWarps bid).all fun w =>
    w.2.live &&& ~~~(lanesOfGroups (w.2.groups.filter fun g => g.st = .atBar && g.gen = (s.block bid).barGen)) = 0

/-- As `allAtBar`, for the gang's barrier (R48). -/
def State.allAtGbar (s : State) (gid : Nat) : Bool :=
  (s.gang gid).bids.all fun bid => (s.blockWarps bid).all fun w =>
    w.2.live &&& ~~~(lanesOfGroups (w.2.groups.filter fun g => g.st = .atGbar && g.gen = (s.gang gid).gbarGen)) = 0

/-- Groups of some blocks that wait in a barrier run again. -/
def State.freeBar (s : State) (bids : List Nat) (st : GroupSt) : State :=
  { s with warps := s.warps.map fun w =>
      (w.1, if bids.contains w.2.bid then
        { w.2 with groups := w.2.groups.map fun g => if g.st = st then { g with st := .running } else g } else w.2) }

/-- Some thread of a block waits in a barrier. -/
def State.anyAt (s : State) (bids : List Nat) (st : GroupSt) : Bool :=
  s.warps.any fun w => bids.contains w.2.bid && w.2.groups.any fun g => g.st = st

/-- The block's barrier completes if every thread has arrived: a release by every arriving thread and an acquire by
every waiting one (R47). -/
def State.barCheck (s : State) (bid : Nat) : State :=
  if s.anyAt [bid] .atBar && s.allAtBar bid then
    let s := s.freeBar [bid] .atBar
    ((s.onBlock bid fun b => { b with barGen := b.barGen + 1 }).invalidate (s.block bid).core)
  else s

/-- The gang's barrier completes if every thread of every block has arrived (R48). -/
def State.gbarCheck (s : State) (gid : Nat) : State :=
  let bids := (s.gang gid).bids
  if s.anyAt bids .atGbar && s.allAtGbar gid then
    let s := s.freeBar bids .atGbar
    let s := s.onGang gid fun g => { g with gbarGen := g.gbarGen + 1 }
    ((bids.map fun b => (s.block b).core).eraseDups.foldl State.invalidate s)
  else s

/-- Both barriers of a block looked at (R47, R48). -/
def State.barriers (s : State) (bid : Nat) : State := (s.barCheck bid).gbarCheck (s.block bid).gid

/-- An issue unit arrives at a barrier (R32, R214): its position is past the instruction, and it waits there. In a gang of one
block GBAR is BAR. -/
def State.arriveBar (s : State) (c : Ctx) (gang : Bool) : State :=
  let u := c.u
  let bids := ((widsOf u.th).map fun wid => (s.warp wid).bid).eraseDups
  let gang := gang && bids.any fun bid => 1 < (s.gang (s.block bid).gid).bids.length
  let s := (s.dissolve u.mem).advance u c.len
  let s := u.mem.foldl (fun s p =>
    let b := s.block (s.warp p.1).bid
    s.onSliver p.1 p.2 fun g =>
      { g with st := if gang then .atGbar else .atBar, gen := if gang then (s.gang b.gid).gbarGen else b.barGen }) s
  let s := bids.foldl State.barriers s
  if s.anyAt bids (if gang then .atGbar else .atBar) then s.switchUnit u else s

/-- BAR and GBAR. -/
def barInstr (s : State) (i : Instr) (f : V3) (gang : Bool) : StepOut :=
  syncInstr s i { q := f.q, ill := illOf (f.q ≠ 0 || f.m ≠ 0) false } fun c act =>
    if c.trap then s.takeTrap c.u { cause := cz 0x24 3, tval := c.tval, mask := act } c.len
    else
      match s.releaseHold c act with
      | some s' => s'
      | none => s.arriveBar c gang

/-- R47, R214. -/
def execBar (f : V3) (s : State) : StepOut := barInstr s (.bar f) f false

/-- R48, R214. -/
def execGbar (f : V3) (s : State) : StepOut := barInstr s (.gbar f) f true

/-! ### Phase barriers (R215 to R217) -/

/-- A number inserted in a rising list. -/
def insertNat (n : Nat) : List Nat → List Nat
  | [] => [n]
  | x :: xs => if n < x then n :: x :: xs else if n = x then x :: xs else x :: insertNat n xs

/-- The distinct numbers of a list, rising. -/
def rising (l : List Nat) : List Nat := l.foldr insertNat []

/-- The address a thread gives in operand a (R216). -/
def State.barAddr (s : State) (c : Ctx) (t : Th) (a : BitVec 6) : Nat := (s.src c t a 0).val.toNat

/-- The traps of a phase-barrier word for the threads that name it (R51, R94, R216): `arrive` for PHARR. -/
def State.phaseBad (s : State) (c : Ctx) (act : List Th) (arrive : Bool) (w : Nat) : Option Nat :=
  let bid := match act with
    | t :: _ => (s.warp t.wid).bid
    | [] => 0
  if w % 16 ≠ 0 || (s.block bid).zsize < w + 16 then some (cz 0x24 2)
  else if c.trap then some (cz 0x24 3)
  else if arrive && (s.phaseBar bid w).pending < act.length then some (cz 0x24 0)
  else if s.scratchLid bid w 16 (!arrive) then some (cz 0x15 (if arrive then 1 else 0))
  else if s.scratchUpset bid w 16 then some (cz 0x17 3)
  else none

/-- The threads that name each word, words rising. -/
def State.phaseWords (s : State) (c : Ctx) (act : List Th) (a : BitVec 6) : List (Nat × List Th) :=
  (rising (act.map fun t => s.barAddr c t a)).map fun w => (w, act.filter fun t => s.barAddr c t a = w)

/-- The trap of the first word that fails; its mask has every thread that names a failing word (R150, R216). -/
def State.phaseTrap (s : State) (c : Ctx) (arrive : Bool) (ws : List (Nat × List Th)) : Option Trap :=
  let bad := ws.filterMap fun w => (s.phaseBad c w.2 arrive w.1).map fun cause => (cause, w)
  match bad with
  | [] => none
  | b :: _ => some { cause := b.1, tval := BitVec.ofNat 64 b.2.1, mask := bad.flatMap (·.2.2) }

/-- R216: each word gets one update for all the threads that name it. -/
def execPharr (f : V3) (s : State) : StepOut :=
  syncInstr s (.pharr f)
    { q := f.q, ill := illZero f.m 6, opd := opdV f.x [f.a, f.b] [] [], a := srcAny f.a, b := srcInt f.b 1 } fun c act =>
    let ws := s.phaseWords c act f.a
    match s.phaseTrap c true ws with
    | some tr => s.takeTrap c.u tr c.len
    | none =>
      match (if s.behindAcquire c act then some (s.stall) else if f.m.getLsbD 0 then s.releaseHold c act else none) with
      | some s' => s'
      | none =>
        (ws.foldl (fun s' w =>
          let bid := match w.2 with
            | t :: _ => (s.warp t.wid).bid
            | [] => 0
          let tx := (w.2.map fun t => (s.src c t f.b 0).val.toNat).foldl (· + ·) 0
          s'.setPhaseBar bid w.1 ((s'.phaseBar bid w.1).arrive w.2.length tx)) s).advance c.u c.len

/-- `passed` of R217. -/
def epochPassed (epoch x : Nat) : Bool :=
  let d := (epoch + 2 ^ 16 - x % 2 ^ 16) % 2 ^ 16
  1 ≤ d && d ≤ 32768

/-- R217. -/
def execPhwait (f : V3) (s : State) : StepOut :=
  syncInstr s (.phwait f)
    { q := f.q, ill := illZero f.m 7, opd := opdV f.x [f.a, f.b] [] [], a := srcAny f.a, b := srcAny f.b } fun c act =>
    match s.phaseTrap c false (s.phaseWords c act f.a) with
    | some tr => s.takeTrap c.u tr c.len
    | none =>
      if s.behindAcquire c act then s.stall
      else if act.all fun t => epochPassed (s.phaseBar (s.warp t.wid).bid (s.barAddr c t f.a)).epoch (s.src c t f.b 0).val.toNat then
        match s.acqHold c act with
        | some s' => s'
        | none => (s.acquire act).advance c.u c.len
      else s.unmet c.u .blocked

/-! ### Completion tags (R218 to R221) -/

/-- A mask operand (R218). -/
def State.maskOp (s : State) (c : Ctx) (t : Th) (a : BitVec 6) : DWord := (s.src c t a 1).val ++ (s.src c t a 0).val

/-- The tags of the core of a thread: complete, and with an error. -/
def State.tagsOf (s : State) (t : Th) : DWord × DWord :=
  let r := s.coreRegs (s.warp t.wid).core
  (r.tagmap, r.tagfail)

/-- Errors that a TWAIT or TANY of a thread meets (R252). -/
def State.seesTag (s : State) (c : Ctx) (a : BitVec 6) (t : Th) (e : ObsErr) : Bool :=
  e.bid = (s.warp t.wid).bid && (s.maskOp c t a).getLsbD e.tag

/-- The mask operand. -/
def maskOpd (a : BitVec 6) : Opd := { code := a, n := 2 }

/-- R219. -/
def execTwait (f : V3) (s : State) : StepOut :=
  let k : Checks := { q := f.q, ill := illZero f.m 7, opd := opdV f.x [f.d, f.a] [f.d] [f.d, f.a], a := maskOpd f.a,
                      d := dst2 f.d }
  syncInstr s (.twait f) k fun c act =>
    if act.all fun t => (s.tagsOf t).1 &&& s.maskOp c t f.a = s.maskOp c t f.a then
      match s.observed act (s.seesTag c f.a) with
      | some x => s.takeObserved c x
      | none =>
        let named := act.filter fun t => s.maskOp c t f.a ≠ 0
        match s.acqHold c named with
        | some s' => s'
        | none =>
          let outs := act.map fun t => (t, out2 0 ((s.tagsOf t).2 &&& s.maskOp c t f.a))
          ((s.acquire named).commit c f.d outs).advance c.u c.len
    else s.unmet c.u .blocked

/-- The report of TANY and TFIND (R220). -/
def tagReport (complete fail mask : DWord) : Word :=
  match lowBit (complete &&& mask).toNat 0 64 with
  | some i => BitVec.ofNat 32 (i + if fail.getLsbD i then 256 else 0)
  | none => 64

/-- The reports of a list of threads. -/
def State.tagOuts (s : State) (c : Ctx) (act : List Th) (a : BitVec 6) : List (Th × Out) :=
  act.map fun t => (t, out1 2 (tagReport (s.tagsOf t).1 (s.tagsOf t).2 (s.maskOp c t a)))

/-- The checks of TANY and TFIND. -/
def chkFind (f : V3) : Checks :=
  { q := f.q, ill := illZero f.m 7, opd := opdV f.x [f.d, f.a] [f.d] [f.a], a := maskOpd f.a, d := dst1 f.d }

/-- R220. -/
def execTany (f : V3) (s : State) : StepOut :=
  syncInstr s (.tany f) (chkFind f) fun c act =>
    if act.all fun t => s.maskOp c t f.a = 0 || (s.tagsOf t).1 &&& s.maskOp c t f.a ≠ 0 then
      match s.observed act (s.seesTag c f.a) with
      | some x => s.takeObserved c x
      | none =>
        let named := act.filter fun t => s.maskOp c t f.a ≠ 0
        match s.acqHold c named with
        | some s' => s'
        | none => ((s.acquire named).commit c f.d (s.tagOuts c act f.a)).advance c.u c.len
    else s.unmet c.u .blocked

/-- R220. -/
def execTfind (f : V3) (s : State) : StepOut :=
  syncInstr s (.tfind f) (chkFind f) fun c act => (s.commit c f.d (s.tagOuts c act f.a)).advance c.u c.len

/-- R221. -/
def execTclr (f : V3) (s : State) : StepOut :=
  syncInstr s (.tclr f)
    { q := f.q, ill := illZero f.m 7, opd := opdV f.x [f.a] [] [f.a], a := maskOpd f.a } fun c act =>
    let union := (act.map fun t => s.maskOp c t f.a).foldl (· ||| ·) 0
    match act with
    | [] => s.advance c.u c.len
    | t :: _ =>
      let busy := union &&& ~~~(s.tagsOf t).1
      if busy ≠ 0 then s.takeTrap c.u { cause := cz 0x23 0, tval := busy, mask := act } c.len
      else
        (s.onCore (s.warp t.wid).core fun r => { r with tagfail := r.tagfail &&& ~~~union }).advance c.u c.len

end Sys2Proof.Machine
end

