-- ==== Sys2Proof/Machine/Control.lean ====
section
/-! DEFINITION. Control flow: clause fetch, transfers, calls, loops, EXIT, YIELD and software traps (R35 to R38, R137 to
R141, R222 to R233). -/
namespace Sys2Proof.Machine

/-! ### Clause fetch (R137 to R140) -/

/-- The group of an opcode (R139). -/
def opGroup (w : Word) : Nat :=
  let o := (w.extractLsb' 25 7).toNat
  if o ≤ 0x34 then 0
  else if o = 0x35 then 2
  else if o ≤ 0x43 then 0
  else if o ≤ 0x4A then 2
  else if o = 0x4B then 0
  else if o ≤ 0x50 then 2
  else if o ≤ 0x5B || o = 0x5D || o = 0x77 then 1
  else if o ≤ 0x66 then 5
  else if o ≤ 0x71 then 4
  else if o ≤ 0x73 then 3
  else 6

/-- Words of the instruction that begins with a word, its extension word included (R143, R145). -/
def wordCount (w : Word) : Nat :=
  match decode w 0 with
  | some (_, n) => n
  | none => 1

/-- The first decode fault of a clause's words from position p (R140), as cause and position: `n` words after the header,
group `cls`. -/
def clauseFault (n cls : Nat) : Nat → List Word → Option (Nat × Nat)
  | _, [] => none
  | p, w :: ws =>
    if isHeader w then some (cz 0x01 7, p)
    else if opGroup w ≠ 0 && opGroup w ≠ cls then some (cz 0x02 (opGroup w), p)
    else if n < p + wordCount w - 1 then some (cz 0x01 6, p)
    else if opGroup w = 4 && p + wordCount w - 1 ≠ n then some (cz 0x01 5, p)
    else
      match wordCount w, ws with
      | 2, _ :: ws => clauseFault n cls (p + 2) ws
      | _, ws => clauseFault n cls (p + 1) ws

/-- The class field of a header. -/
def clauseClass (h : Word) : Nat := (h.extractLsb' 21 3).toNat

/-- The first decode fault of a header (R140). -/
def headerFault (h : Word) : Option Nat :=
  oneOf [(cz 0x01 2, clauseN h = 0), (cz 0x01 3, clauseClass h = 7), (cz 0x01 4, h.extractLsb' 0 3 ≠ 0)]

/-- The words of a clause after its header, up to the first that cannot be fetched, with that fetch's cause. -/
def State.clauseWords (s : State) (p asid : Nat) (a : DWord) : Nat → List Word × Option Nat
  | 0 => ([], none)
  | n + 1 =>
    match s.fetch p asid a with
    | .error c => ([], some c)
    | .ok w =>
      let r := s.clauseWords p asid (a + 4) n
      (w :: r.1, r.2)

/-- The bounds of a header's waits (R138). -/
def headerBounds (h : Word) : Bounds :=
  let b (lo : Nat) : Option Nat := let k := (h.extractLsb' lo 3).toNat; if k = 7 then none else some k
  [b 15, b 12, b 9, b 6]

/-- A rejoin header (R29). -/
def isRejoin (h : Word) : Bool := h.getLsbD 5

/-- Parts of a mixed warp whose home warp has a part held at the unit's header at its call depth (R32). -/
def State.leavers (s : State) (u : IssueUnit) : List (Nat × Nat) :=
  u.mem.filter fun p => (s.warp p.1).groups.any fun g => g.st = .held && g.pc = u.hdr && g.depth = u.depth

/-- Parts held at their header: a quad switch point (R28, R29). -/
def State.holdParts (s : State) (parts : List (Nat × Nat)) : State :=
  let s := parts.foldl (fun s p => s.onSliver p.1 p.2 fun g => { g with st := .held, since := s.warpTick p.1 }) s
  ((parts.foldl (fun s p => s.onWarp p.1 fun w => w.switchPoint p.2) s).tidyMixed)

/-- Parts that go on past their rejoin header. -/
def State.passParts (s : State) (parts : List (Nat × Nat)) : State :=
  parts.foldl (fun s p => s.onSliver p.1 p.2 fun g => { g with passed := true }) s

/-- What a rejoin header does to the unit that reaches it, if anything (R29, R32). -/
def State.rejoinHold (s : State) (u : IssueUnit) : Option State :=
  match u.mem with
  | [p] => some (s.holdParts [p])
  | _ =>
    match s.leavers u with
    | [] => none
    | ls =>
      let s := { s with mixed := s.mixed.map fun (m : Mixed) =>
        if m.parts = u.mem then { m with parts := m.parts.filter fun p => !(ls.contains p) } else m }
      some ((s.passParts (u.mem.filter fun p => !(ls.contains p))).holdParts ls)

/-- Every running group of the unit has been released from its rejoin hold here. -/
def State.allPassed (s : State) (u : IssueUnit) : Bool := (s.partGroups u.mem).all fun g => g.2.passed

/-- A unit is passed over at its core's next choice, for any other unit or for one of another warp (R137, R232). -/
def State.passOver (s : State) (f : Focus) (hint : Bool) : State :=
  s.onCore (s.warp f.wid).core fun r => { r with yielded := (f, hint) :: r.yielded }

/-- The unit enters its clause (R140); the header's waits are tested when its first instruction is ready (R138, R333). -/
def State.enterClause (s : State) (u : IssueUnit) (h : Word) (code : List Word) : State :=
  let s := s.setSt u fun g => { g with pc := u.hdr + 4, hw := h, code := code, st := .running, waits := true }
  if h.getLsbD 4 then s.passOver s.focus true else s

/-- Fetch and decode of a clause at its header (R140): faults in word order, then the rejoin hold. A fetch from a page whose bias
flips waits (R100). -/
def State.clauseFetch (s : State) (u : IssueUnit) : State :=
  match u.mem with
  | [] => s
  | m :: _ =>
    let p := s.partOf m.1
    let asid := s.asidOf m.1
    if s.flipping p asid u.hdr then s.stall
    else match s.fetch p asid u.hdr with
    | .error c => s.fetchTrap u c u.hdr
    | .ok h =>
      if !(isHeader h) then s.fetchTrap u (cz 0x01 1) u.hdr
      else
        match headerFault h with
        | some c => s.fetchTrap u c u.hdr
        | none =>
          if s.flipping p asid (u.hdr + BitVec.ofNat 64 (4 * clauseN h)) then s.stall else
          let r := s.clauseWords p asid (u.hdr + 4) (clauseN h)
          match clauseFault (clauseN h) (clauseClass h) 1 r.1 with
          | some f => s.fetchTrap u f.1 (u.hdr + BitVec.ofNat 64 (4 * f.2))
          | none =>
            match r.2 with
            | some c => s.fetchTrap u c (u.hdr + BitVec.ofNat 64 (4 * (r.1.length + 1)))
            | none =>
              let s := s.fetchTouch p asid u.hdr
              let s := s.fetchTouch p asid (u.hdr + BitVec.ofNat 64 (4 * clauseN h))
              match (if isRejoin h && !(s.allPassed u) then s.rejoinHold u else none) with
              | some s' => s'
              | none => s.enterClause u h r.1

/-- R140. -/
def execClauseFetch (s : State) : StepOut := .next (s.clauseFetch s.unit)

/-! ### Transfers (R141, R224) -/

/-- Where a transfer may not land, with its cause: `word` selects ILL_CLAUSE, else the fetch's own cause (R141, R223). -/
def State.landBad (s : State) (wid : Nat) (a : DWord) (word : Bool) : Option Nat :=
  if a.extractLsb' 0 2 ≠ 0 then (if word then some (cz 0x01 0) else none)
  else
    match s.fetch (s.partOf wid) (s.asidOf wid) a with
    | .ok w => if word && !(isHeader w) then some (cz 0x01 0) else none
    | .error c => if word then none else some c

/-- The trap of a list of targets for one of the two causes. -/
def State.landJudge (s : State) (l : List (Th × DWord)) (word : Bool) : Option Trap :=
  trapOf (l.filterMap fun x => (s.landBad x.1.wid x.2 word).map fun c => { t := x.1, cause := c, tval := x.2 })

/-- The trap of a list of targets. -/
def State.landTrap (s : State) (l : List (Th × DWord)) : Option Trap := firstOf [s.landJudge l true, s.landJudge l false]

/-- The header of a target is in a page whose bias flips: its fetch waits (R100). -/
def State.landHeld (s : State) (l : List (Th × DWord)) : Bool :=
  l.any fun x => s.flipping (s.partOf x.1.wid) (s.asidOf x.1.wid) x.2

/-- The body of a frame holds an address. -/
def Frame.holds (f : Frame) (a : DWord) : Bool := f.start.toNat ≤ a.toNat && a.toNat < f.endAt.toNat

/-- Levels from one upward end for a lane. -/
def Warp.dropLevels (w : Warp) (lane lo : Nat) : Warp :=
  { w with frames := w.frames.map fun p =>
      (p.1, if lo ≤ p.1 then { p.2 with active := p.2.active &&& ~~~(1#32 <<< lane) } else p.2) }

/-- The lowest active level of a lane at its call depth whose body a target leaves (R37). -/
def Warp.leftLevel (w : Warp) (lane depth : Nat) (a : DWord) : Option Nat :=
  [0, 1, 2].find? fun l => match w.frames.find l with
    | some f => f.active.getLsbD lane && f.depth = depth && !(f.holds a)
    | none => false

/-- Levels that the taken branches of a list of threads leave (R37). -/
def State.leaveLevels (s : State) (depth : Nat) (l : List (Th × DWord)) : State :=
  l.foldl (fun s x => s.onWarp x.1.wid fun w =>
    match w.leftLevel x.1.lane depth x.2 with
    | some lo => w.dropLevels x.1.lane lo
    | none => w) s

/-- The target that a list gives a thread. -/
def targetIn (l : List (Th × DWord)) (t : Th) : Option DWord := (l.find? fun x => x.1 = t).map (·.2)

/-- Quads whose running group's lanes all take a backward branch reach a switch point (R28). -/
def State.switchBack (s : State) (u : IssueUnit) (quads : List (Nat × Nat)) (back : Th → Bool) : State :=
  s.switchQuads (quads.filter fun p =>
    match (s.warp p.1).groups.find? (fun g => g.quad = p.2 && g.pos = 0) with
    | some g => (lanesOf g.lanes).all fun l => u.th.contains { wid := p.1, lane := l } && back { wid := p.1, lane := l }
    | none => false)

/-- Home warps and quads of a unit. -/
def State.unitQuads (s : State) (u : IssueUnit) : List (Nat × Nat) :=
  u.mem.flatMap fun p => ((s.warp p.1).quadsOf p.2).map fun q => (p.1, q)

/-- Every thread moves at once (R224): those in the list to their targets at a call depth, the others fall through. -/
def State.jump (s : State) (c : Ctx) (l : List (Th × DWord)) (depth : Nat) : State :=
  s.moveUnit c.u fun t => match targetIn l t with
    | some a => atHeader a depth
    | none => fallThrough c.u c.len

/-- Taken branches (R28, R37, R225). -/
def State.branch (s : State) (c : Ctx) (l : List (Th × DWord)) : State :=
  if s.landHeld l then s.stall
  else match s.landTrap l with
  | some tr => s.takeTrap c.u tr c.len
  | none =>
    let quads := s.unitQuads c.u
    ((s.leaveLevels c.u.depth l).jump c l c.u.depth).switchBack c.u quads fun t =>
      match targetIn l t with
      | some a => a.toNat ≤ c.u.pc.toNat
      | none => false

/-- R225. -/
def execBra (f : FJ) (s : State) : StepOut :=
  syncInstr s (.bra f) { q := f.q } fun c act =>
    s.branch c (act.map fun t => (t, c.u.pc + f.off.signExtend 64 * 4))

/-- ILL_OPERAND of a target pair (R222). -/
def pairTgt (code : BitVec 6) : Bool := 52 ≤ code.toNat && code.toNat ≤ 55

/-- The checks of BRX and CALLX. -/
def chkTgt (f : V3) : Checks :=
  { q := f.q, ill := illZero f.m 7, opd := opdV f.x [f.a] [] (ownPair (pairTgt f.a) f.a) (pairTgt f.a), a := { code := f.a, n := 2 } }

/-- A pair operand's value. -/
def State.pairOp (s : State) (c : Ctx) (t : Th) (a : BitVec 6) : DWord := (s.src c t a 1).val ++ (s.src c t a 0).val

/-- R225. -/
def execBrx (f : V3) (s : State) : StepOut :=
  syncInstr s (.brx f) (chkTgt f) fun c act => s.branch c (act.map fun t => (t, s.pairOp c t f.a))

/-! ### JTAB (R226) -/

/-- The table's entries that threads fetch: each thread's base and entry address. -/
def State.jtabEntries (s : State) (c : Ctx) (act : List Th) (f : V3) : List (Th × DWord × DWord) :=
  (act.filter fun t => (s.src c t f.a 0).val.toNat < (f.x.extractLsb' 0 16).toNat).map fun t =>
    let base := s.pairOp c t (xc f.x)
    (t, base, base + (s.src c t f.a 0).val.zeroExtend 64 * 4)

/-- The fetch that a thread's JTAB has on its way or answered. -/
def State.jtabAcc (s : State) (t : Th) : Option Access :=
  (s.accs.find? fun a => a.2.kind = .jtab && a.2.wid = t.wid && a.2.lane = t.lane).map (·.2)

/-- The fetches of a unit leave. -/
def State.jtabDrop (s : State) (th : List Th) : State :=
  { s with accs := s.accs.filter fun a => !(a.2.kind = .jtab && th.contains { wid := a.2.wid, lane := a.2.lane }) }

/-- Failed fetches as traps (R226). -/
def State.jtabBad (s : State) (l : List (Th × DWord × DWord)) : Option Trap :=
  trapOf (l.filterMap fun x => match s.jtabAcc x.1 with
    | some a => match a.st with
      | .failed d => some { t := x.1, cause := cz 0x18 d, tval := x.2.2 }
      | _ => none
    | none => none)

/-- A table fetch as it leaves: a relaxed load under the root, in no counter. -/
def State.jtabSend (s : State) (c : Ctx) (x : Th × DWord × DWord) : Access :=
  let a := { s.accOf c x.1 .jtab x.2.2 4 4 with hyp := 0, chain := [0] }
  if x.2.1.extractLsb' 0 2 ≠ 0 then { a with st := .failed 4 }
  else
    let bs := s.l1Look a.core a.part a.asid a.va.toNat 4 [0]
    if bs.all Option.isSome && !(s.unreturned a) then { a with st := .answered, data := bs.map fun b => b.getD 0 } else a

/-- Every entry has been fetched or has failed. -/
def State.jtabDone (s : State) (l : List (Th × DWord × DWord)) : Bool :=
  l.all fun x => match s.jtabAcc x.1 with
    | some a => match a.st with
      | .answered => true
      | .failed _ => true
      | _ => false
    | none => false

/-- The threads move by their entries. -/
def State.jtabGo (s : State) (c : Ctx) (l : List (Th × DWord × DWord)) : State :=
  match s.jtabBad l with
  | some tr => (s.jtabDrop c.u.th).takeTrap c.u tr c.len
  | none =>
    let tg := l.map fun x => (x.1, x.2.1 + (match s.jtabAcc x.1 with
      | some a => (BitVec.ofNat 32 (leNat a.data)).signExtend 64 * 4
      | none => 0))
    if s.landHeld tg then s.stall else (s.jtabDrop c.u.th).branch c tg

/-- R226: the unit is held until every entry has been fetched; the fetches wait for an acquire of its threads (R83). -/
def execJtab (f : V3) (s : State) : StepOut :=
  syncInstr s (.jtab f)
    { q := f.q, ill := illZero f.m 7,
      opd := opdX f.x [f.a] [] (ownPair (pairTgt (xc f.x)) (xc f.x)) (f.x.extractLsb' 16 10 ≠ 0) (pairTgt (xc f.x)),
      a := srcAny f.a, b := { code := xc f.x, n := 2 } } fun c act =>
    let l := s.jtabEntries c act f
    let fresh := l.filter fun x => (s.jtabAcc x.1).isNone
    if fresh ≠ [] && s.behindAcquire c act then s.stall else
    let s := if fresh = [] then s else s.send none (fresh.map (s.jtabSend c))
    if s.jtabDone l then s.jtabGo c l else s.stall

/-! ### Calls (R227, R228) -/

/-- The traps of a push (R227). -/
def State.pushTrap (s : State) (c : Ctx) (act : List Th) : Option Trap :=
  let at_ (t : Th) : Word := s.spReg t - 8
  let bad (cause : Nat) (p : Th → Bool) : Option Trap :=
    trapOf ((act.filter p).map fun t => { t := t, cause := cause, tval := (at_ t).zeroExtend 64 })
  firstOf [
    if c.u.depth = 31 then some { cause := cz 0x32 0, tval := c.tval, mask := act } else none,
    bad (cz 0x33 0) fun t => (s.spReg t).toNat < s.stackBase t + 8 || (at_ t).toNat % 8 ≠ 0,
    bad (cz 0x13 1) fun t => (s.block (s.warp t.wid).bid).zsize < (at_ t).toNat + 8,
    bad (cz 0x15 1) fun t => s.scratchLid (s.warp t.wid).bid (at_ t).toNat 8 false]

/-- A stack pointer written. -/
def State.setSp (s : State) (t : Th) (x : Word) : State :=
  s.onWarp t.wid fun w => { w with sp := w.sp.put t.lane x }

/-- Calls to a list of targets: each thread's return address is pushed and its depth rises; the push is a store that an acquire
of its thread comes before (R83, R91). -/
def State.calls (s : State) (c : Ctx) (act : List Th) (l : List (Th × DWord)) : State :=
  if s.landHeld l then s.stall else
  match firstOf [s.pushTrap c act, s.landTrap l] with
  | some tr => s.takeTrap c.u tr c.len
  | none =>
    if s.behindAcquire c act then s.stall else
    let ret := (fallThrough c.u c.len).pc.toNat % 2 ^ 52
    (act.foldl (fun s t =>
      let sp := s.spReg t - 8
      (s.wrScratch (s.warp t.wid).bid sp.toNat (natLe 8 ret)).setSp t sp) s).jump c l (c.u.depth + 1)

/-- R227. -/
def execCall (f : FJ) (s : State) : StepOut :=
  syncInstr s (.call f) { q := f.q } fun c act =>
    s.calls c act (act.map fun t => (t, c.u.pc + f.off.signExtend 64 * 4))

/-- R227. -/
def execCallx (f : V3) (s : State) : StepOut :=
  syncInstr s (.callx f) (chkTgt f) fun c act => s.calls c act (act.map fun t => (t, s.pairOp c t f.a))

/-- The traps of a pop (R228). -/
def State.popTrap (s : State) (c : Ctx) (act : List Th) : Option Trap :=
  let bad (cause : Nat) (p : Th → Bool) : Option Trap :=
    trapOf ((act.filter p).map fun t => { t := t, cause := cause, tval := (s.spReg t).zeroExtend 64 })
  firstOf [
    if c.u.depth = 0 then some { cause := cz 0x32 1, tval := c.tval, mask := act } else none,
    bad (cz 0x33 1) fun t => (s.spReg t).toNat % 8 ≠ 0 || s.stackTop t < (s.spReg t).toNat + 8,
    bad (cz 0x15 0) fun t => s.scratchLid (s.warp t.wid).bid (s.spReg t).toNat 8 true,
    bad (cz 0x17 3) fun t => s.scratchUpset (s.warp t.wid).bid (s.spReg t).toNat 8]

/-- R228; the pop is a load that an acquire of its thread comes before (R83, R91). -/
def execRet (f : V3) (s : State) : StepOut :=
  syncInstr s (.ret f) { q := f.q, ill := illZero f.m 7 } fun c act =>
    match s.popTrap c act with
    | some tr => s.takeTrap c.u tr c.len
    | none =>
      let l := act.map fun t =>
        (t, BitVec.ofNat 64 (leNat (s.rdScratch (s.warp t.wid).bid (s.spReg t).toNat 8)))
      if s.behindAcquire c act || s.landHeld l then s.stall
      else match s.landTrap l with
      | some tr => s.takeTrap c.u tr c.len
      | none => (act.foldl (fun s t => s.setSp t (s.spReg t + 8)) s).jump c l (c.u.depth - 1)

/-! ### Loops (R35 to R38, R229, R230) -/

/-- Is a level active for a thread? -/
def State.levelOn (s : State) (t : Th) (l : Nat) : Bool :=
  match (s.warp t.wid).frames.find l with
  | some f => f.active.getLsbD t.lane
  | none => false

/-- The frame of a level of a warp. -/
def State.frame (s : State) (wid l : Nat) : Frame := (s.warp wid).frames.getD l {}

/-- LOOP_NEST of a LOOP for a thread (R38). -/
def State.loopNest (s : State) (c : Ctx) (act : List Th) (lvl : Nat) (start end_ : DWord) (t : Th) : Option Nat :=
  let f := s.frame t.wid lvl
  let others := f.active &&& ~~~(1#32 <<< t.lane) ≠ 0
  oneOf [
    (0, [0, 1, 2].any fun k => lvl ≤ k && s.levelOn t k),
    (1, [0, 1, 2].any fun k => k < lvl && s.levelOn t k &&
      !((s.frame t.wid k).start.toNat ≤ start.toNat && end_.toNat ≤ (s.frame t.wid k).endAt.toNat)),
    (2, act.contains t && others && (f.start ≠ start || f.depth ≠ c.u.depth))]

/-- A loop counter written. -/
def State.setLc (s : State) (t : Th) (j : Nat) (x : Word) : State :=
  s.onWarp t.wid fun w => { w with lc := w.lc.put (4 * t.lane + j) x }

/-- The frame of a level as LOOP leaves it for one home warp: shared when active, else written (R35). -/
def Warp.loopFrame (w : Warp) (lvl : Nat) (start : DWord) (len depth : Nat) (on_ : Word) : Warp :=
  let f := w.frames.getD lvl {}
  let f := if f.active ≠ 0 then f else { start := start, len := len, depth := depth, active := 0 }
  { w with frames := w.frames.put lvl { f with active := f.active ||| on_ } }

/-- R229. -/
def execLoop (f : FL) (s : State) : StepOut :=
  syncInstr s (.loop f)
    { q := f.q, ill := illOf (f.f7 ≠ 0) (f.lvl = 3 || f.len = 0), opd := opdV f.x [f.cnt] [] [], a := srcInt f.cnt }
    fun c act =>
    let start := clauseEnd c.u.hdr c.u.hw
    let end_ := start + BitVec.ofNat 64 (4 * f.len.toNat)
    let lvl := f.lvl.toNat
    let nest := trapOf (c.u.th.filterMap fun t =>
      (s.loopNest c act lvl start end_ t).map fun d => { t := t, cause := cz 0x31 d, tval := c.tval })
    let tgts (a : DWord) : List (Th × DWord) := act.map fun t => (t, a)
    if s.landHeld (tgts start) || s.landHeld (tgts end_) then s.stall else
    match firstOf [nest, s.landJudge (tgts start) true, s.landJudge (tgts end_) true, s.landJudge (tgts start) false,
        s.landJudge (tgts end_) false] with
    | some tr => s.takeTrap c.u tr c.len
    | none =>
      let cnt (t : Th) : Word := (s.src c t f.cnt 0).val
      let s' := act.foldl (fun s' t => s'.setLc t lvl (cnt t)) s
      let s' := (widsOf act).foldl (fun s' wid => s'.onWarp wid fun w =>
        w.loopFrame lvl start f.len.toNat c.u.depth (lanesIn (act.filter fun t => cnt t ≠ 0) wid)) s'
      s'.jump c (act.map fun t => (t, if cnt t = 0 then end_ else start)) c.u.depth

/-- R230. -/
def execBrk (f : V3) (s : State) : StepOut :=
  let lvl := (f.m.extractLsb' 0 2).toNat
  syncInstr s (.brk f) { q := f.q, ill := illOf (f.m.getLsbD 2) (lvl = 3) } fun c act =>
    match trapOf (act.filterMap fun t =>
      (oneOf [(3, !(s.levelOn t lvl)), (4, s.levelOn t lvl && (s.frame t.wid lvl).depth ≠ c.u.depth)]).map fun d =>
        { t := t, cause := cz 0x31 d, tval := c.tval }) with
    | some tr => s.takeTrap c.u tr c.len
    | none =>
      let l := act.map fun t => (t, (s.frame t.wid lvl).endAt)
      (act.foldl (fun s t => s.onWarp t.wid fun w => w.dropLevels t.lane lvl) s).jump c l c.u.depth

/-- What the end of a body does to a thread: its level, and whether it returns to the body's start (R36, R57). -/
def State.bodyEnd (s : State) (u : IssueUnit) (t : Th) : Option (Nat × Bool) :=
  ((s.warp t.wid).dueLevel u.pc u.depth (1#32 <<< t.lane)).map fun l => (l, decide (1 < (s.lcReg t l).toNat))

/-- R36: the threads of the chosen unit that stand at the end of a body; a return is a taken backward branch (R28). A return that
may not land traps at the word after the body, where the unit stands (DESIGN CHOICE, log 96). -/
def execLoopEndOfBody (s : State) : StepOut :=
  let u := s.unit
  let back := u.th.filterMap fun t => match s.bodyEnd u t with
    | some (l, true) => some (t, (s.frame t.wid l).start)
    | _ => none
  if s.landHeld back then .next s.stall
  else match s.landTrap back with
  | some tr => .next (s.takeTrap u tr 1)
  | none =>
    let s' := u.th.foldl (fun s' t => match s.bodyEnd u t with
      | some (l, again) =>
        let s' := if s.lcReg t l = 0 then s' else s'.setLc t l (s.lcReg t l - 1)
        if again then s' else s'.onWarp t.wid fun w =>
          { w with frames := w.frames.map fun p =>
              (p.1, if p.1 = l then { p.2 with active := p.2.active &&& ~~~(1#32 <<< t.lane) } else p.2) }
      | none => s') s
    if back = [] then .next s'
    else
      let quads := s.unitQuads u
      .next ((s'.moveUnit u fun t => match targetIn back t with
        | some a => atHeader a u.depth
        | none => atHeader u.pc u.depth).switchBack u quads fun t => (targetIn back t).isSome)

/-! ### EXIT, YIELD, TRAP, BPT (R231 to R233) -/

/-- A record without some of its lanes. -/
def FaultRec.without (r : FaultRec) (lanes : Word) : FaultRec :=
  { r with lanes := r.lanes &&& ~~~lanes, each := r.each.filter fun l => !(lanes.getLsbD l.lane) }

/-- Accesses that a record keeps in its instruction's count: one for LDU, else one for each lane. -/
def FaultRec.weight (r : FaultRec) : Nat := if r.kind = .ldu then (if r.lanes = 0 then 0 else 1) else r.each.length

/-- One count of an instruction falls several times. -/
def State.uncountN (s : State) (wid iid : Nat) : Nat → State
  | 0 => s
  | n + 1 => (s.uncount wid iid).uncountN wid iid n

/-- The records of some lanes dropped: their counts fall (R231, R276). -/
def State.dropRecs (s : State) (wid : Nat) (lanes : Word) : State :=
  let w := s.warp wid
  let s := w.records.foldl (fun s r =>
    s.uncountN wid r.iid (r.weight - (r.without lanes).weight)) s
  let cut (l : List FaultRec) : List FaultRec := (l.map fun r => r.without lanes).filter fun r => r.lanes ≠ 0
  s.onWarp wid fun w => { w with faults := cut w.faults, aside := cut w.aside }

/-- Threads retire (R22, R231). -/
def State.exitThreads (s : State) (c : Ctx) (act : List Th) : State :=
  let s := s.advance c.u c.len
  let s := (widsOf act).foldl (fun s wid =>
    let lanes := lanesIn act wid
    let s := if c.trap then s.dropRecs wid lanes else s
    let s := s.onWarp wid fun w => w.retire lanes
    if c.trap && (s.warp wid).trapSet = 0 then s.endTrap wid else s) s
  let bids := ((widsOf act).map fun wid => (s.warp wid).bid).eraseDups
  bids.foldl State.barriers s.tidyMixed

/-- R231. -/
def execExitThread (f : V3) (s : State) : StepOut :=
  syncInstr s (.exitThread f) { q := f.q, ill := illZero f.m 7 } fun c act =>
    if !c.trap && act.any fun t => (s.warp t.wid).faults.any fun r => r.lanes.getLsbD t.lane then s.takeRecorded c.u
    else s.exitThreads c act

/-- R232: a quad switch point; at the next choice the unit is passed over. -/
def execYield (f : V3) (s : State) : StepOut :=
  syncInstr s (.yield f) { q := f.q, ill := illZero f.m 7 } fun c _ =>
    ((s.advance c.u c.len).switchUnit c.u).passOver s.focus false

/-- TRAP and BPT (R233): `%tpc` is the fall-through header. -/
def softTrap (s : State) (i : Instr) (f : V3) (cause : Nat) : StepOut :=
  syncInstr s i { q := f.q, ill := illOf (f.b.getLsbD 5 || f.m.extractLsb' 1 2 ≠ 0) false } fun c act =>
    s.takeTrapAt c.u { cause := cause, tval := (f.b.extractLsb' 0 5).zeroExtend 64, mask := act } (fallThrough c.u c.len) 0 c.len

/-- R233. -/
def execTrapCode (f : V3) (s : State) : StepOut :=
  softTrap s (.trapCode f) f (cz (0x3C + (f.b.extractLsb' 3 2).toNat) (f.b.extractLsb' 0 3).toNat)

/-- R233. -/
def execBpt (f : V3) (s : State) : StepOut := softTrap s (.bpt f) f (cz 0x39 0)

/-- The detail of a sub-operation that decodes to no instruction (R149, R246, R263): 2 when a bit of f7 that must be zero, or
a flag that no such operation admits, is set, in ENG or HYP. -/
def noSubOpDetail (w : Word) : Nat :=
  let op := w.extractLsb' 25 7
  let f7 := w.extractLsb' 2 7
  if (op = 0x72 && f7 &&& 0x73 ≠ 0) || (op = 0x73 && f7 ≠ 0) then 2 else 0

/-- R149: a sub-operation that decodes to no instruction. -/
def execIllegalInstr (w : Word) (s : State) : StepOut :=
  syncInstr s (.illegalInstr w) { q := 0, ill := some (noSubOpDetail w) } fun c _ => s.advance c.u c.len

end Sys2Proof.Machine
end

