-- ==== Sys2Proof/Machine/Engine.lean ====
section
/-! DEFINITION. Engine operations: issue, checks, lids, copies, floods, completion and records (R50, R93, R246 to R262). -/
namespace Sys2Proof.Machine

/-! ### Fields of a block -/

/-- A little-endian field of an operation's image (R249). -/
def EngineOp.u (o : EngineOp) (off n : Nat) : Nat := leNat ((o.image.drop off).take n)

/-- A signed 64-bit field. -/
def EngineOp.s64 (o : EngineOp) (off : Nat) : Int := (BitVec.ofNat 64 (o.u off 8)).toInt

/-- Bytes of a range of an image are not all zero. -/
def EngineOp.dirty (o : EngineOp) (lo hi : Nat) : Bool := ((o.image.drop lo).take (hi - lo)).any (· ≠ 0)

/-- No address given (R249). -/
def noAddr : Nat := 0xFFFFFFFF

/-- The form of copy that an operation makes: its own, or that of the record it resumes (R258). -/
def EngineOp.form (o : EngineOp) : Nat := if o.kind = 8 then o.sub else o.kind

/-- A field that breaks a rule: its offset and ENG_PARAM detail (R252). -/
abbrev FieldFail := Nat × Nat

def failIf (b : Bool) (off det : Nat) : List FieldFail := if b then [(off, det)] else []

/-- The field with the lowest offset, with its lowest detail (R252). -/
def firstField : List FieldFail → Option FieldFail
  | [] => none
  | x :: xs => match firstField xs with
    | none => some x
    | some y => if x.1 < y.1 || (x.1 = y.1 && x.2 ≤ y.2) then some x else some y

/-- A range of an operation: half open, a destination or a source, global or in a block's scratchpad (R93). -/
structure EngRange where
  lo : Int
  hi : Int
  dest : Bool
  glob : Bool
  bid : Nat
  deriving DecidableEq, Repr

/-- A byte's place: a global address, or a scratch address of a block. -/
inductive Loc where
  | glob (va : DWord)
  | scr (bid a : Nat)
  deriving DecidableEq, Repr

/-- A place in a space from an address (R253). -/
def locOf (scratch : Bool) (bid : Nat) (a : Int) : Loc :=
  if scratch then .scr bid a.toNat else .glob (BitVec.ofInt 64 a)

/-! ### CPY and CPYS (R253, R255) -/

/-- Source and destination spaces: true for scratch. -/
def EngineOp.kindOff (o : EngineOp) : Nat := if o.form = 0 then 28 else 24
def EngineOp.srcScr (o : EngineOp) : Bool := o.u o.kindOff 2 % 2 = 1
def EngineOp.dstScr (o : EngineOp) : Bool := o.u o.kindOff 2 / 2 % 2 = 1

/-- Count k and strides k of a CPYS. -/
def EngineOp.cnt (o : EngineOp) (k : Nat) : Nat := o.u (32 + 4 * k) 4
def EngineOp.sStride (o : EngineOp) (k : Nat) : Int := o.s64 (48 + 8 * k)
def EngineOp.dStride (o : EngineOp) (k : Nat) : Int := o.s64 (72 + 8 * k)

/-- The bounding interval of a CPYS range. -/
def EngineOp.box (o : EngineOp) (base : Nat) (stride : Nat → Int) : Int × Int :=
  let sp := [0, 1, 2].map fun k => ((max (o.cnt k) 1 - 1 : Nat) : Int) * stride k
  ((base : Int) + (sp.map fun x => min 0 x).foldl (· + ·) 0,
   (base : Int) + (sp.map fun x => max 0 x).foldl (· + ·) 0 + max (o.u 26 1) 1)

/-- A scratch-space address or range of a CPY or CPYS that breaks its rules (R253). -/
def scratchFails (scr : Bool) (off addr : Nat) (r : Int × Int) (z : Nat) : List FieldFail :=
  if !scr then [] else if 2 ^ 32 ≤ addr then [(off, 1)] else failIf (r.1 < 0 || (z : Int) < r.2) off 2

/-- CPY: its failing fields and its ranges. -/
def EngineOp.chkCpy (o : EngineOp) (z : Nat) : List FieldFail × List EngRange :=
  let src := o.u 8 8
  let dst := o.u 16 8
  let len := o.u 24 4
  let rs : Int × Int := (src, src + len)
  let rd : Int × Int := (dst, dst + len)
  (failIf (o.u 28 2 / 4 ≠ 0) 28 0 ++ failIf (len = 0 || 2 ^ 31 < len) 24 3 ++ failIf (len % 4 ≠ 0) 24 1 ++
    failIf (src % 4 ≠ 0) 8 1 ++ failIf (dst % 4 ≠ 0) 16 1 ++ failIf (o.dirty 30 64) 30 0 ++
    scratchFails o.srcScr 8 src rs z ++ scratchFails o.dstScr 16 dst rd z,
   [{ lo := rs.1, hi := rs.2, dest := false, glob := !o.srcScr, bid := o.bid },
    { lo := rd.1, hi := rd.2, dest := true, glob := !o.dstScr, bid := o.bid }])

/-- CPYS: its failing fields and its ranges; a total over the limit is a fault of `n0` (log entry 18). -/
def EngineOp.chkCpys (o : EngineOp) (z : Nat) : List FieldFail × List EngRange :=
  let rs := o.box (o.u 8 8) o.sStride
  let rd := o.box (o.u 16 8) o.dStride
  (failIf (o.u 24 2 / 4 ≠ 0) 24 0 ++ failIf (o.u 26 1 = 0 || 16 < o.u 26 1) 26 3 ++
    failIf (o.cnt 0 = 0 || 2 ^ 31 < o.cnt 0 * o.cnt 1 * o.cnt 2 * o.u 26 1) 32 3 ++ failIf (o.cnt 1 = 0) 36 3 ++
    failIf (o.cnt 2 = 0) 40 3 ++ failIf (o.dirty 27 32) 27 0 ++ failIf (o.dirty 44 48) 44 0 ++
    failIf (o.dirty 96 128) 96 0 ++ scratchFails o.srcScr 8 (o.u 8 8) rs z ++ scratchFails o.dstScr 16 (o.u 16 8) rd z,
   [{ lo := rs.1, hi := rs.2, dest := false, glob := !o.srcScr, bid := o.bid },
    { lo := rd.1, hi := rd.2, dest := true, glob := !o.dstScr, bid := o.bid }])

/-! ### CPYG (R256) and BCAST (R257) -/

/-- CPYG: its failing fields and its ranges; a total over the limit is a fault of `rowb` (log entry 18). -/
def EngineOp.chkCpyg (o : EngineOp) (z : Nat) : List FieldFail × List EngRange :=
  let dst := o.u 16 4
  let idx := o.u 20 4
  let rowb := o.u 24 4
  let rows := o.u 28 4
  let dp := o.u 40 4
  let end_ := dst + (max rows 1 - 1) * dp + rowb
  (failIf (o.u 8 8 % 4 ≠ 0) 8 1 ++ failIf (z < end_) 16 2 ++ failIf (idx % 4 ≠ 0) 20 1 ++
    failIf (z < idx + 4 * rows) 20 2 ++ failIf (rowb % 4 ≠ 0) 24 1 ++
    failIf (rowb = 0 || 65536 < rowb || 2 ^ 31 < rows * rowb) 24 3 ++ failIf (rows = 0 || 65536 < rows) 28 3 ++
    failIf (o.u 32 8 % 4 ≠ 0) 32 1 ++ failIf (dp % 4 ≠ 0 || dp < rowb) 40 1 ++ failIf (o.dirty 44 64) 44 0,
   [{ lo := idx, hi := idx + 4 * rows, dest := false, glob := false, bid := o.bid },
    { lo := dst, hi := end_, dest := true, glob := false, bid := o.bid }])

/-- The target blocks of a BCAST. -/
def State.bcastTargets (s : State) (o : EngineOp) : List Nat :=
  (s.gang (s.block o.bid).gid).bids.filter fun b => o.u 24 1 % 2 = 1 || b ≠ o.bid

/-- BCAST: its failing fields and its ranges; an `rbar` that is no phase barrier's address is judged after the fields
(R51). -/
def State.chkBcast (s : State) (o : EngineOp) (z : Nat) : List FieldFail × List EngRange :=
  let src := o.u 8 4
  let dst := o.u 12 4
  let len := o.u 16 4
  let rbar := o.u 20 4
  (failIf (src % 4 ≠ 0) 8 1 ++ failIf (z < src + len) 8 2 ++ failIf (dst % 4 ≠ 0) 12 1 ++ failIf (z < dst + len) 12 2 ++
    failIf (len % 4 ≠ 0) 16 1 ++ failIf (len = 0 || 1048576 < len) 16 3 ++
    failIf (rbar ≠ noAddr && rbar % 4 ≠ 0) 20 1 ++ failIf (1 < o.u 24 1) 24 0 ++ failIf (o.dirty 25 64) 25 0,
   { lo := src, hi := src + len, dest := false, glob := false, bid := o.bid } ::
     (s.bcastTargets o).map fun b => { lo := dst, hi := dst + len, dest := true, glob := false, bid := b })

/-! ### CPYA (R259, R291, R292) and ACCLR (R260) -/

def EngineOp.isLoad (o : EngineOp) : Bool := o.u 28 1 % 2 = 1
def EngineOp.memScr (o : EngineOp) : Bool := o.u 28 1 / 2 % 2 = 1
def EngineOp.memTag (o : EngineOp) : Nat := o.u 29 1 % 16
def EngineOp.accTagOf (o : EngineOp) : Nat := o.u 29 1 / 16

/-- Bits of one element in memory. -/
def EngineOp.memBits (o : EngineOp) : Nat := if o.isLoad then 32 else (tagShape o.memTag).2

/-- Memory tags that fit the accumulator tag and the direction (R259). -/
def EngineOp.fmtFits (o : EngineOp) : Bool :=
  match o.isLoad, o.accTagOf with
  | false, 3 => [3, 4, 5, 6, 7, 8].contains o.memTag
  | false, 1 => [1, 9, 10].contains o.memTag
  | true, 3 => o.memTag = 3
  | true, 1 => o.memTag = 1
  | _, _ => false

/-- Bytes of one row in memory. -/
def EngineOp.rowBytes (o : EngineOp) : Nat := o.u 22 2 * o.memBits / 8

/-- A store of narrow elements also writes its count word (R292). -/
def EngineOp.countWord (o : EngineOp) : Bool := !o.isLoad && o.memTag ≠ 1 && o.memTag ≠ 3

/-- A memory tag of the spec, so that its elements have a width. -/
def EngineOp.memKnown (o : EngineOp) : Bool := o.isLoad || o.memTag ≤ 10

/-- The end of a CPYA's memory range. -/
def EngineOp.memEnd (o : EngineOp) : Nat :=
  let rows := o.u 20 2
  if o.countWord then o.u 8 8 + rows * o.u 24 4 + 4 else o.u 8 8 + (max rows 1 - 1) * o.u 24 4 + o.rowBytes

/-- CPYA: its failing fields and its ranges; rows that do not lie in range are a fault of `maddr` (log entry 18). -/
def EngineOp.chkCpya (o : EngineOp) (z : Nat) : List FieldFail × List EngRange :=
  let ma := o.u 8 8
  let rows := o.u 20 2
  let cols := o.u 22 2
  let pitch := o.u 24 4
  let known := o.accTagOf = 1 || o.accTagOf = 3
  let scr := o.memScr && ma < 2 ^ 32
  (failIf (o.dirty 37 64) 37 0 ++ failIf (o.u 28 1 / 4 ≠ 0) 28 0 ++ failIf (2 < o.u 30 1) 30 0 ++
    failIf (o.u 36 1 / 4 ≠ 0) 36 0 ++ failIf (!known) 29 0 ++ failIf (o.isLoad && o.u 30 1 ≠ 0) 30 1 ++
    failIf (rows = 0 || 512 < rows) 20 3 ++ failIf (cols = 0 || 512 < cols) 22 3 ++
    failIf (!o.isLoad && o.memKnown && cols * o.memBits % 32 ≠ 0) 22 1 ++
    (if o.isLoad then failIf (o.u 16 2 % 64 ≠ 0) 16 1 ++ failIf (o.u 18 2 % 64 ≠ 0) 18 1 ++
      failIf (rows % 64 ≠ 0) 20 1 ++ failIf (cols % 64 ≠ 0) 22 1 else []) ++
    failIf (pitch % 4 ≠ 0 || (o.memKnown && pitch < o.rowBytes)) 24 1 ++ failIf (ma % 4 ≠ 0) 8 1 ++
    failIf (scr && z < ma + rows * pitch) 8 1 ++ scratchFails o.memScr 8 ma (0, o.memEnd) z ++
    failIf (!o.isLoad && o.u 30 1 = 2 && z < o.u 32 4 + rows) 32 2,
   { lo := ma, hi := o.memEnd, dest := !o.isLoad, glob := !o.memScr, bid := o.bid } ::
     if !o.isLoad && o.u 30 1 = 2 then
       [{ lo := o.u 32 4, hi := o.u 32 4 + rows, dest := false, glob := false, bid := o.bid }] else [])

def EngineOp.chkAcclr (o : EngineOp) : List FieldFail × List EngRange :=
  (failIf (o.dirty 17 64) 17 0 ++ failIf (o.u 16 1 ≠ 1 && o.u 16 1 ≠ 3) 16 0 ++ failIf (o.u 8 2 % 64 ≠ 0) 8 1 ++
    failIf (o.u 10 2 % 64 ≠ 0) 10 1 ++ failIf (o.u 12 2 % 64 ≠ 0) 12 1 ++ failIf (o.u 14 2 % 64 ≠ 0) 14 1 ++
    failIf (o.u 12 2 = 0) 12 3 ++ failIf (o.u 14 2 = 0) 14 3, [])

/-! ### MMA and MMAG (R280 to R286) -/

/-- Formats of the mill (R281). -/
def millFmt (t : Nat) : Bool := [5, 6, 7, 8, 9].contains t

/-- Pairings of R281. -/
def millPair (a b : Nat) : Bool := a = b || ((a = 6 || a = 7) && (b = 6 || b = 7))

/-- The row indices of an MMAG as the scratchpad holds them (R286). -/
def State.gather (s : State) (o : EngineOp) : List Nat :=
  if o.kind ≠ 5 then []
  else (List.range (o.u 28 2)).map fun i => leNat (s.rdScratch o.bid (o.u 52 4 + 2 * i) 2)

/-- Byte offsets of the first and the last row of A. -/
def EngineOp.rowSpan (o : EngineOp) (idx : List Nat) : Nat × Nat :=
  if o.kind = 5 then (idx.foldl min (idx.headD 0), idx.foldl max 0) else (0, o.u 28 2 - 1)

/-- The scale tensor of an operand as R284 addresses it: its first byte and the byte past its last. -/
def scaleSpan (base shift xbase lo hi : Nat) : Nat × Nat :=
  (base + (lo - xbase) / 2 ^ shift, base + (hi - 1 - xbase) / 2 ^ shift + 1)

/-- The source ranges of an MMA or MMAG, each with the offset of the field that gives it (R282, R285); one without bytes is no
range. An index whose row lies outside is a fault of `a_base` (DESIGN CHOICE, log 18). -/
def EngineOp.millSpans (o : EngineOp) (idx : List Nat) : List (Nat × Nat × Nat) :=
  let ab := o.u 8 4
  let bb := o.u 16 4
  let r := o.rowSpan idx
  let a : Nat × Nat := (ab + r.1 * o.u 12 4, ab + r.2 * o.u 12 4 + o.u 32 4)
  let b : Nat × Nat := (bb, bb + (o.u 30 2 - 1) * o.u 20 4 + o.u 32 4)
  let sa := scaleSpan (o.u 40 4) (o.u 44 1) ab a.1 a.2
  let sb := scaleSpan (o.u 48 4) (o.u 45 1) bb b.1 b.2
  (if o.u 28 2 = 0 || o.u 32 4 = 0 then [] else
    (8, a.1, a.2) :: if o.u 40 4 = noAddr then [] else [(40, sa.1, sa.2)]) ++
  (if o.u 30 2 = 0 || o.u 32 4 = 0 then [] else
    (16, b.1, b.2) :: if o.u 48 4 = noAddr then [] else [(48, sb.1, sb.2)]) ++
    (if o.kind = 5 && o.u 28 2 ≠ 0 then [(52, o.u 52 4, o.u 52 4 + 2 * o.u 28 2)] else [])

/-- MMA and MMAG: their failing fields and their ranges; a pairing that R281 does not list is a fault of `b_fmt` (DESIGN
CHOICE, log 18). -/
def State.chkMill (s : State) (o : EngineOp) (z : Nat) : List FieldFail × List EngRange :=
  let af := o.u 24 1
  let bf := o.u 25 1
  let m := o.u 28 2
  let n := o.u 30 2
  let k := o.u 32 4
  let int8 := af = 9 || bf = 9
  let spans := o.millSpans (s.gather o)
  (failIf (o.dirty 27 28) 27 0 ++ failIf (o.dirty 46 48) 46 0 ++ failIf (o.dirty 56 128) 56 0 ++
    failIf (1 < o.u 26 1) 26 0 ++ failIf (!(millFmt af)) 24 0 ++ failIf (!(millFmt bf)) 25 0 ++
    failIf (o.kind = 4 && o.u 52 4 ≠ 0) 52 0 ++ failIf (millFmt af && millFmt bf && !(millPair af bf)) 25 1 ++
    failIf (o.u 8 4 % 32 ≠ 0) 8 1 ++ failIf (o.u 16 4 % 32 ≠ 0) 16 1 ++ failIf (m % 64 ≠ 0) 28 1 ++
    failIf (n % 64 ≠ 0) 30 1 ++ failIf (k % 256 ≠ 0) 32 1 ++ failIf (o.u 36 2 % 64 ≠ 0) 36 1 ++
    failIf (o.u 38 2 % 64 ≠ 0) 38 1 ++ failIf (o.u 12 4 % 32 ≠ 0 || o.u 12 4 < k) 12 1 ++
    failIf (o.u 20 4 % 32 ≠ 0 || o.u 20 4 < k) 20 1 ++ failIf (!int8 && 31 < o.u 44 1) 44 1 ++
    failIf (!int8 && 31 < o.u 45 1) 45 1 ++ failIf (int8 && o.u 40 4 ≠ noAddr) 40 1 ++
    failIf (int8 && o.u 48 4 ≠ noAddr) 48 1 ++ failIf (o.kind = 5 && o.u 52 4 % 4 ≠ 0) 52 1 ++
    failIf (m = 0 || 512 < m) 28 3 ++ failIf (n = 0 || 512 < n) 30 3 ++ failIf (k = 0 || 130816 < k) 32 3 ++
    spans.flatMap fun x => failIf (z < x.2.2) x.1 2,
   spans.map fun x => { lo := x.2.1, hi := x.2.2, dest := false, glob := false, bid := o.bid })

/-! ### The checks at issue (R247, R252, R258) -/

/-- Region of an accumulator operation relative to the block's rows: row0, rows, col0, cols. -/
def EngineOp.region (o : EngineOp) : Nat × Nat × Nat × Nat :=
  match o.kind with
  | 3 => (o.u 16 2, o.u 20 2, o.u 18 2, o.u 22 2)
  | 6 => (o.u 8 2, o.u 12 2, o.u 10 2, o.u 14 2)
  | _ => (o.u 36 2, o.u 28 2, o.u 38 2, o.u 30 2)

/-- Operations on the accumulator store. -/
def EngineOp.onAccStore (o : EngineOp) : Bool := o.kind = 3 || o.kind = 4 || o.kind = 5 || o.kind = 6

/-- A CPYA store starts at its turn (R50). -/
def EngineOp.startsLate (o : EngineOp) : Bool := o.kind = 3 && !o.isLoad

/-- A record that CPYR may resume (R258). -/
def resumable (status : Nat) : Bool :=
  status / 4096 % 16 ≤ 2 && [0x11, 0x12, 0x17, 0x16, 0x29].contains (status / 8 % 64)

/-- The failing fields and the ranges of an operation, by its form. -/
def State.fieldsOf (s : State) (o : EngineOp) (z : Nat) : List FieldFail × List EngRange :=
  match o.form with
  | 0 => o.chkCpy z
  | 1 => o.chkCpys z
  | 2 => o.chkCpyg z
  | 3 => o.chkCpya z
  | 6 => o.chkAcclr
  | 7 => s.chkBcast o z
  | _ => s.chkMill o z

/-- A barrier address that names a word of the allotment (R51). -/
def barValid (a z : Nat) : Bool := a % 16 = 0 && a + 16 ≤ z

/-- The first error of the checks at issue, in R252's order: its cause, `info` and `addr`. -/
def State.issueError (s : State) (o : EngineOp) (recBad stale : Bool) : Option (Nat × Nat × Nat) :=
  let b := s.block o.bid
  if recBad then some (cz 0x21 4, 0, 0)
  else if stale then some (cz 0x21 6, 0, 0)
  else
    match firstField (s.fieldsOf o b.zsize).1 with
    | some f => some (cz 0x21 f.2, f.1, 0)
    | none =>
      let r := o.region
      if o.onAccStore && (b.acclen < r.1 + r.2.1 || 512 < r.2.2.1 + r.2.2.2) then
        some (cz 0x20 0, r.1 + 2 ^ 16 * ((r.1 + r.2.1) % 2 ^ 16) + 2 ^ 32 * r.2.2.1 + 2 ^ 48 * ((r.2.2.1 + r.2.2.2) % 2 ^ 16), 0)
      else if o.f7.getLsbD 2 && !(barValid o.bar b.zsize) then some (cz 0x24 2, 0, o.bar)
      else if o.form = 7 && o.u 20 4 ≠ noAddr && !(barValid (o.u 20 4) b.zsize) then some (cz 0x24 2, 0, o.u 20 4)
      else none

/-- Total bytes of an operation as it announces them (R50, R292). -/
def State.totalOf (s : State) (o : EngineOp) : Nat :=
  match o.form with
  | 0 => o.u 24 4
  | 1 => o.cnt 0 * o.cnt 1 * o.cnt 2 * o.u 26 1
  | 2 => o.u 28 4 * o.u 24 4
  | 3 => o.u 20 2 * o.rowBytes + if o.countWord then 4 else 0
  | 7 => o.u 16 4 * (s.bcastTargets o).length
  | _ => 0

/-- Bytes of each operation's block, and of CPYR's record (R246). -/
def blockBytes : Nat → Nat
  | 1 | 4 | 5 => 128
  | 8 => 160
  | _ => 64

/-- The counter of an operation (R246). -/
def engCounter (kind : Nat) : Nat := if kind = 3 || kind = 4 || kind = 5 || kind = 6 then 3 else 2

/-! ### Barriers of engines (R49 to R51) -/

/-- An update of a barrier word by an engine, or its misuse, with its detail (R51): an arrival when none is pending, or landed
bytes beyond those expected. -/
def State.barUpdate (s : State) (bid a arrive tx done : Nat) : State × Option Nat :=
  let b := s.phaseBar bid a
  if b.pending < arrive then (s, some 0)
  else
    let b : PhaseBar := { b.arrive arrive tx with done := b.done + done }
    if 0 < done && b.exp < b.done then (s, some 1) else (s.setPhaseBar bid a b, none)

/-! ### Lids and starting (R50, R93, R247, R287) -/

/-- A range of an operation meets a lid in a way that makes it wait (R93). -/
def State.lidConflict (s : State) (o : EngineOp) (r : EngRange) : Bool :=
  if r.glob then s.globalLid o.part o.asid r.lo.toNat (r.hi.toNat - r.lo.toNat) (!r.dest)
  else s.scratchLid r.bid r.lo.toNat (r.hi.toNat - r.lo.toNat) (!r.dest)

/-- The core whose table takes a range's lid. -/
def State.lidCore (s : State) (o : EngineOp) (r : EngRange) : Nat := if r.glob then o.core else (s.block r.bid).core

/-- The lid tables have room for an operation's ranges. -/
def State.lidRoom (s : State) (o : EngineOp) (rs : List EngRange) : Bool :=
  (rs.map (s.lidCore o)).eraseDups.all fun c =>
    (s.lids.filter (·.core = c)).length + (rs.filter fun r => s.lidCore o r = c).length ≤ Config.coreLids

/-- Lids placed for an operation. -/
def State.placeLids (s : State) (id : Nat) (o : EngineOp) (rs : List EngRange) : State :=
  { s with lids := s.lids ++ rs.map fun r =>
      { core := s.lidCore o r, lo := r.lo.toNat, hi := r.hi.toNat, dest := r.dest, glob := r.glob, bid := r.bid,
        part := o.part, asid := o.asid, op := id } }

/-- The reservation table of a tile's mill has an entry free (R287). -/
def State.millRoom (s : State) (tile : Nat) : Bool :=
  (s.ops.filter fun o => o.2.tile = tile && (o.2.kind = 4 || o.2.kind = 5) && o.2.placed).length < 16

/-- A lane of an ENG marked as issued for. -/
def State.engMark (s : State) (wid lane : Nat) : State :=
  s.onWarp wid fun w => { w with engDone := w.engDone ||| (1#32 <<< lane) }

/-- A recorded fault of its own thread's earlier accesses keeps an operation from its first read (R84). -/
def State.opRecorded (s : State) (id : Nat) (o : EngineOp) : Bool :=
  !o.inTrap && (s.warp o.wid).records.any fun r => r.iid ≤ id && r.lanes.getLsbD o.lane

/-- The operation may make its first read (R84, R88): its thread's earlier accesses are complete, and, when ordered, the
warp's earlier operations have performed their writes. -/
def State.engMayRead (s : State) (id : Nat) (o : EngineOp) : Bool :=
  (s.accs.all fun a => !(a.1 < id && a.2.wid = o.wid && a.2.lanes.getLsbD o.lane && a.2.kind ≠ .pref)) &&
  !(s.opRecorded id o) &&
  (o.waitOps.all fun w => match s.ops.find w with
    | some p => p.st = .landed || p.st = .failed
    | none => true) &&
  !(s.coreRegs o.core).failed

/-- The start of an operation at the end of its issue (R50): its lids are placed, and it announces its bytes, a CPYA store
only at its turn; nothing when it must wait. -/
def State.startOp (s : State) (id : Nat) (o : EngineOp) : Option State :=
  let rs := (s.fieldsOf o (s.block o.bid).zsize).2
  if (o.kind = 5 && !(s.engMayRead id o)) || rs.any (s.lidConflict o) || !(s.lidRoom o rs) || ((o.kind = 4 || o.kind = 5) && !(s.millRoom o.tile)) then none
  else
    let s := s.placeLids id o rs
    let s := if o.arrives && o.kind ≠ 8 && !o.startsLate then
        (s.barUpdate o.bid o.bar 0 (if o.onAccStore then 0 else s.totalOf o) 0).1 else s
    let targets := if o.form = 7 then (s.bcastTargets o).map fun b => (b, 0, false) else []
    let s := s.onOp id fun o =>
      { o with placed := true, begun := !o.onAccStore, seq := s.nextId, total := s.totalOf o, targets := targets, gathered := s.gather o,
               st := if o.form = 7 && targets = [] then .landed else .running }
    let s := { s with nextId := s.nextId + 1 }
    some (s.engMark o.wid o.lane)

/-- ENG_OP_START (R50): an operation that waited at issue for its lids or its entry starts. -/
def execEngOpStart (op : Nat) (s : State) : Host.Outcome State Fault Refusal :=
  .next (match s.ops.find op with
    | some o => if o.st = .issued then (s.startOp op o).getD s else s
    | none => s)

/-! ### Issue (R246 to R248) -/

/-- The flags that an operation admits (R246). -/
def engFlagBad (kind : Nat) (f7 : BitVec 7) : Bool :=
  f7.extractLsb' 4 3 ≠ 0 || (f7.getLsbD 0 && !([0, 1, 3, 8].contains kind)) || (f7.getLsbD 1 && kind ≠ 4 && kind ≠ 5)

/-- The precise traps of ENG (R248). -/
def State.engTrap (s : State) (c : Ctx) (kind : Nat) (l : List (Th × DWord)) : Option Trap :=
  let n := blockBytes kind
  let bid (t : Th) : Nat := (s.warp t.wid).bid
  firstOf [
    trapOf ((l.filter fun x => (s.warp x.1.wid).orphan).map fun x => { t := x.1, cause := cz 0x28 0, tval := c.tval }),
    badAt (cz 0x10 1) l fun _ a => a.toNat % (if kind = 8 then 16 else 64) ≠ 0,
    badAt (cz 0x13 0) l fun t a => (s.block (bid t)).zsize < a.toNat + n,
    badAt (cz 0x15 0) l fun t a => s.scratchLid (bid t) a.toNat n true,
    badAt (cz 0x17 3) l fun t a => s.scratchUpset (bid t) a.toNat n]

/-- An operation as one thread issues it: its block is read, and for CPYR its record (R247, R258), whose `info` it keeps; a
record that may not be resumed gives it its cause. -/
def State.newOp (s : State) (c : Ctx) (kind : Nat) (f : FE) (t : Th) (pb : Nat) : EngineOp :=
  let w := s.warp t.wid
  let raw := s.rdScratch w.bid pb (blockBytes kind)
  let image := if kind = 8 then (raw.drop 32).take 128 else raw
  let z := (s.block w.bid).zsize
  let bar := leNat ((image.drop 4).take 4)
  { kind := kind, sub := if kind = 8 then leNat (raw.take 4) / 4096 % 16 else kind, wid := t.wid, idx := w.idx, bid := w.bid,
    core := w.core, tile := w.core / 4, part := s.partOf t.wid, asid := s.asidOf t.wid, tag := f.tag.toNat, f7 := f.f7,
    hyp := w.hyp, image := image, recAt := if kind = 8 then pb else leNat (image.take 4), bar := bar,
    st := .reading, cause := if kind = 8 && !(resumable (leNat (raw.take 4))) then cz 0x21 6 else 0,
    info := if kind = 8 then BitVec.ofNat 64 (leNat ((raw.drop 24).take 8)) else 0, chain := s.viewOf t.wid,
    done := if kind = 8 then leNat ((raw.drop 16).take 8) else 0,
    base := if kind = 8 then leNat ((raw.drop 16).take 8) else 0,
    arrives := f.f7.getLsbD 2 && barValid bar z, prio := (s.launchOf t.wid).prio,
    waitOps := if f.f7.getLsbD 3 then (s.ops.filter fun o => o.2.wid = t.wid && o.2.st ≠ .reading).map (·.1) else [],
    lane := t.lane, inTrap := c.trap }

/-- Counting, the tag, and the checks of R252: an operation counts from here on, failed or waiting to start. -/
def State.enterOp (s : State) (id : Nat) (o : EngineOp) : State :=
  let stale := o.cause ≠ 0
  let z := (s.block o.bid).zsize
  let recBad := o.kind ≠ 8 && o.recAt ≠ noAddr && (o.recAt % 16 ≠ 0 || z < o.recAt + 160)
  let o := if recBad then { o with recAt := noAddr } else o
  let o := match s.issueError o recBad stale with
    | some e => { o with st := EngSt.failed, hasErr := true, cause := e.1, info := BitVec.ofNat 64 e.2.1,
                         addr := BitVec.ofNat 64 e.2.2 }
    | none => { o with st := EngSt.issued }
  let s := { s with ops := s.ops.put id o }
  let s := s.count o.wid (engCounter o.kind) 1 id
  let s := s.onBlock o.bid fun b => { b with tags := b.tags ||| (1#64 <<< o.tag) }
  s.onCore o.core fun r => { r with tagmap := r.tagmap &&& ~~~(1#64 <<< o.tag) }

/-- The operation that a thread's ENG has at issue. -/
def State.atIssue (s : State) (t : Th) : Option (Nat × EngineOp) :=
  s.ops.find? fun o => o.2.wid = t.wid && o.2.lane = t.lane && o.2.atIssue

/-- An operation at issue goes on: it waits for counter room, is counted and checked, and starts (R247). One that reads its
index vector waits for its thread's accesses first (R84, R285). -/
def State.goIssue (s : State) (id : Nat) (o : EngineOp) : State × Bool :=
  let start (s : State) (o : EngineOp) : State × Bool := match s.startOp id o with
    | some s' => (s', true)
    | none => (s, false)
  if o.st ≠ .reading then start s o
  else if !(s.room o.wid (engCounter o.kind) 1) || (o.kind = 5 && !(s.engMayRead id o)) then (s, false)
  else
    let s := s.enterOp id o
    match s.ops.find id with
    | some o => if o.st = .failed then (s.engMark o.wid o.lane, true) else start s o
    | none => (s, true)

/-- One thread's part of an ENG: the state after it, and whether its operation has left issue (R247). -/
def State.engLane (s : State) (c : Ctx) (kind : Nat) (f : FE) (t : Th) : State × Bool :=
  if (s.warp t.wid).engDone.getLsbD t.lane then (s, true)
  else
    match s.atIssue t with
    | some o => s.goIssue o.1 o.2
    | none =>
      let id := s.nextId
      let o := s.newOp c kind f t (s.src c t f.pb 0).val.toNat
      { s with nextId := id + 1, ops := s.ops.put id o }.goIssue id o

/-- The threads of an ENG in ascending lane order, up to the first that waits. -/
def State.engLanes (s : State) (c : Ctx) (kind : Nat) (f : FE) : List Th → State × Bool
  | [] => (s, true)
  | t :: ts =>
    let r := s.engLane c kind f t
    if r.2 then r.1.engLanes c kind f ts else r

/-- An ENG whose threads have begun to issue goes on without new checks. -/
def State.engBegun (s : State) (act : List Th) : Bool :=
  act.any fun t => (s.warp t.wid).engDone.getLsbD t.lane || (s.atIssue t).isSome

/-- ENG: every active thread issues an operation of its own (R247). -/
def engInstr (s : State) (i : Instr) (kind : Nat) (f : FE) : StepOut :=
  let k : Checks := { q := f.q, ill := illOf (engFlagBad kind f.f7) false, opd := opdV f.x [f.pb] [] [] (f.pb = 53),
                      a := srcAny f.pb }
  syncInstr s i k fun c act =>
    let l := act.map fun t => (t, (s.src c t f.pb 0).val.zeroExtend 64)
    match (if s.engBegun act then none else s.engTrap c kind l) with
    | some tr => s.takeTrap c.u tr c.len
    | none =>
      if !(s.engBegun act) && s.behindAcquire c act then s.stall
      else if !(s.engBegun act) && s.recordHolds c act then s.releaseTrap c.u
      else
        let r := s.engLanes c kind f act
        if r.2 then
          (act.foldl (fun s t => s.onWarp t.wid fun w => { w with engDone := w.engDone &&& ~~~(1#32 <<< t.lane) }) r.1).advance
            c.u c.len
        else r.1.stall

/-- R253. -/
def execCpy (f : FE) (s : State) : StepOut := engInstr s (.cpy f) 0 f
/-- R255. -/
def execCpys (f : FE) (s : State) : StepOut := engInstr s (.cpys f) 1 f
/-- R256. -/
def execCpyg (f : FE) (s : State) : StepOut := engInstr s (.cpyg f) 2 f
/-- R259. -/
def execCpya (f : FE) (s : State) : StepOut := engInstr s (.cpya f) 3 f
/-- R261, R283. -/
def execMma (f : FE) (s : State) : StepOut := engInstr s (.mma f) 4 f
/-- R261, R286. -/
def execMmag (f : FE) (s : State) : StepOut := engInstr s (.mmag f) 5 f
/-- R260. -/
def execAcclr (f : FE) (s : State) : StepOut := engInstr s (.acclr f) 6 f
/-- R257. -/
def execBcast (f : FE) (s : State) : StepOut := engInstr s (.bcast f) 7 f
/-- R258. -/
def execCpyr (f : FE) (s : State) : StepOut := engInstr s (.cpyr f) 8 f

/-! ### Reads and writes of an engine (R88, R254, R262) -/

/-- A byte that an engine reads. -/
def State.engRead (s : State) (o : EngineOp) (l : Loc) : State × Except WalkFail Byte :=
  match l with
  | .scr bid a => (s, if s.scratchUpset bid a 1 then .error (noWalk (cz 0x17 3)) else .ok ((s.rdScratch bid a 1).headD 0))
  | .glob va =>
    if s.flipping o.part o.asid va || !(s.engDelivered o true va 0) then (s, .error (noWalk 0))
    else
      let r := s.translate o.part o.asid va .engineRead
      match r.2, (s.part o.part).homeTile va with
      | .error f, _ => (r.1, .error f)
      | .ok _, none => (r.1, .error (noWalk (cz 0x11 3)))
      | .ok lf, some tile =>
        match r.1.homeBytes none o.part o.asid tile o.chain lf va 1 with
        | .ok bs => (r.1.sliceTouch (s.part o.part) tile lf, .ok (bs.headD 0))
        | .error c => (r.1, .error (noWalk (if c = cz 0x16 0 then cz 0x16 1 else c)))

/-- How a write of an engine ends: performed, faulted, or waiting for a bias flip, or (`full`) for a version entry. -/
inductive EngWrite where
  | done (s : State)
  | fault (s : State) (f : WalkFail)
  | wait (s : State) (full : Bool)

/-- Bytes of one aligned word that an engine writes (R76, R88, R262, R301, R468). -/
def State.engWrite (s : State) (o : EngineOp) (l : Loc) (bytes : List Byte) : EngWrite :=
  match l with
  | .scr bid a => .done (s.wrScratch bid a bytes)
  | .glob va =>
    if s.flipping o.part o.asid va || !(s.engDelivered o true va 0) then .wait s false
    else
      let P := s.part o.part
      let flagged := o.f7.getLsbD 0 && o.hyp.extractLsb' 0 8 ≠ 0
      match (if flagged then P.effHyp (P.homePlace va) o.hyp else some 0) with
      | none => .done s
      | some h =>
        let hid := (h.extractLsb' 0 8).toNat
        let late := flagged && h ≠ o.hyp
        let order := o.stalled.map (·.order)
        let bs := bytes.zipIdx.map fun b => (b.2, b.1)
        let join (s : State) : EngWrite :=
          if s.versionRoom o.part o.asid va hid order then .done (s.versionJoin o.part o.asid h va.toNat bs) else .wait s true
        if late && hid ≠ 0 then join s
        else
          let r := s.translate o.part o.asid va .engineWrite
          let fails (s : State) (f : WalkFail) : EngWrite :=
            if !late then .fault s f
            else if s.fqHeld o.part then .wait s false else .done (s.versionLost o.part o.asid va f)
          match r.2, P.homeTile va with
          | .error f, _ => fails r.1 f
          | .ok _, none => fails r.1 (noWalk (cz 0x11 3))
          | .ok lf, some tile => if hid = 0 then .done (r.1.slicePut o.part o.asid va tile lf bs) else join r.1

/-- A version write of an operation waits for an entry, in the order of its arrival (R262, R296). -/
def State.stallOp (s : State) (id : Nat) (o : EngineOp) (va : DWord) : State :=
  if o.stalled.isSome then s
  else { s.onOp id fun o => { o with stalled := some { since := s.sliceTick o.part va, order := s.nextId, va := va } } with
    nextId := s.nextId + 1 }

/-! ### Copies (R253 to R258) -/

/-- The place of a global or scratch address an offset above another. -/
def Loc.plus (l : Loc) (n : Nat) : Loc :=
  match l with
  | .glob va => .glob (va + BitVec.ofNat 64 n)
  | .scr b a => .scr b (a + n)

/-- Byte i of an operation in its order: source and destination (R253, R255, R256). -/
def State.copyByte (s : State) (o : EngineOp) (i : Nat) : Loc × Loc :=
  match o.form with
  | 0 => ((locOf o.srcScr o.bid (o.u 8 8)).plus i, (locOf o.dstScr o.bid (o.u 16 8)).plus i)
  | 2 =>
    let rowb := o.u 24 4
    let r := i / rowb
    let ix := leNat (s.rdScratch o.bid (o.u 20 4 + 4 * r) 4)
    (.glob (BitVec.ofNat 64 (o.u 8 8 + ix * o.u 32 8 + i % rowb)), .scr o.bid (o.u 16 4 + r * o.u 40 4 + i % rowb))
  | _ =>
    let es := o.u 26 1
    let e := i / es
    let i0 : Int := (e % o.cnt 0 : Nat)
    let i1 : Int := (e / o.cnt 0 % o.cnt 1 : Nat)
    let i2 : Int := (e / o.cnt 0 / o.cnt 1 : Nat)
    let at_ (base : Nat) (st : Nat → Int) : Int := (base : Int) + i0 * st 0 + i1 * st 1 + i2 * st 2 + (i % es : Nat)
    (locOf o.srcScr o.bid (at_ (o.u 8 8) o.sStride), locOf o.dstScr o.bid (at_ (o.u 16 8) o.dStride))

/-- The two ranges of a copy share bytes. -/
def State.selfOverlap (s : State) (o : EngineOp) : Bool :=
  match (s.fieldsOf o (s.block o.bid).zsize).2 with
  | [a, b] => o.form ≠ 2 && a.glob = b.glob && a.lo < b.hi && b.lo < a.hi
  | _ => false

/-- The name of a place in `pre`. -/
def Loc.key : Loc → Nat
  | .glob va => 2 * va.toNat + 1
  | .scr _ a => 2 * a

/-- A source byte that is a destination byte of the operation too, found as `b` now (R254): by free choice what it held before
the operation, or what the operation writes there, which is a source byte again. -/
def State.overlapByte (s : State) (o : EngineOp) (b : Byte) : Nat → Loc → Byte
  | 0, _ => b
  | n + 1, l =>
    let keep := Config.freeBool (s.freeCtr + n)
    match o.pre.find l.key, (List.range o.total).reverse.find? fun j => (s.copyByte o j).2 = l with
    | some old, _ => if keep then old else b
    | none, some j =>
      let src := (s.copyByte o j).1
      match (if keep then .error (noWalk 0) else (s.engRead o src).2) with
      | .ok x => s.overlapByte o x n src
      | .error _ => b
    | none, none => b

/-- A source byte of a copy (R254). -/
def State.copyRead (s : State) (o : EngineOp) (l : Loc) : State × Except WalkFail Byte :=
  let r := s.engRead o l
  match r.2 with
  | .ok b =>
    if s.selfOverlap o then ({ r.1 with freeCtr := r.1.freeCtr + o.total }, .ok (r.1.overlapByte o b o.total l)) else r
  | .error _ => r

/-- How many bytes from byte i of the order lie in the same aligned destination word, at most `n`. -/
def State.grain (s : State) (o : EngineOp) (i : Nat) : Nat → Nat
  | 0 => 0
  | n + 1 =>
    let d := (s.copyByte o i).2
    if i + 1 < o.total && (s.copyByte o (i + 1)).2 = d.plus 1 && d.key / 2 % 4 ≠ 3 then 1 + s.grain o (i + 1) n else 1

/-- Source bytes of a grain, up to the first that fails. -/
def State.grainRead (s : State) (o : EngineOp) (i : Nat) : Nat → State × List Byte × Option (WalkFail × Loc)
  | 0 => (s, [], none)
  | n + 1 =>
    let l := (s.copyByte o i).1
    match s.copyRead o l with
    | (s, .error f) => (s, [], some (f, l))
    | (s, .ok b) =>
      let r := s.grainRead o (i + 1) n
      (r.1, b :: r.2.1, r.2.2)

/-- The address of a place as a record names it. -/
def Loc.addr : Loc → DWord
  | .glob va => va
  | .scr _ a => BitVec.ofNat 64 a

/-- An operation fails at a place: it issues no more reads or writes (R254). -/
def State.failOp (s : State) (id : Nat) (f : WalkFail) (addr : DWord) : State :=
  let s := match s.ops.find id with
    | some o => s.logMac o.part o.asid addr f.cause
    | none => s
  s.onOp id fun o => { o with st := .failed, hasErr := true, cause := f.cause, level := f.level, pte := f.pte, addr := addr,
                              stalled := none, faultAt := s.gtime }

/-- A version write of an operation has waited for too long, or is not waited for at a save (R262, R296): a handle that was
refuted, or that the slice has seen confirmed, lets it go on, since no trap records either (R301, R303). -/
def State.opCapacityFail (s : State) (id : Nat) (o : EngineOp) (detail : Nat) : State :=
  let P := s.part o.part
  match o.stalled with
  | some w =>
    if P.effBy (fun _ => true) o.hyp = none || P.effHyp (P.homePlace w.va) o.hyp ≠ some o.hyp then s
    else s.failOp id (noWalk (cz 0x29 detail)) w.va
  | none => s

/-- Bytes of an operation landed: they count as done, and on its barrier (R50); a misuse ends it (R51; log entry 18). -/
def State.landed (s : State) (id : Nat) (o : EngineOp) (n : Nat) : State :=
  let s := s.onOp id fun o => { o with done := o.done + n, stalled := none }
  if o.arrives && 0 < n then
    match s.barUpdate o.bid o.bar 0 0 n with
    | (s, none) => s
    | (s, some d) => s.failOp id (noWalk (cz 0x24 d)) (BitVec.ofNat 64 o.bar)
  else s

/-- The old bytes under a grain, kept where a later source byte may name them. -/
def State.keepPre (s : State) (id : Nat) (o : EngineOp) (d : Loc) (n : Nat) : State :=
  if s.selfOverlap o then
    let olds := (List.range n).filterMap fun i => match (s.engRead o (d.plus i)).2 with
      | .ok b => some ((d.plus i).key, b)
      | .error _ => none
    s.onOp id fun o => { o with pre := olds.foldl (fun m x => if (m.find x.1).isSome then m else m.put x.1 x.2) o.pre }
  else s

/-- An operation that a save does not wait for stands before one that it does (R404): a copy that an operation on the
accumulator store or a flood of its warp is ordered after. -/
def State.mustEnd (s : State) (id : Nat) : Bool :=
  s.ops.any fun p => 2 < p.2.form && p.2.st = .running && p.2.waitOps.contains id

/-- How far a copy that may land n bytes more gets: in a halted gang to the next 4 KiB boundary of its order (R404). -/
def State.landGoal (s : State) (id : Nat) (o : EngineOp) (n : Nat) : Nat :=
  if (s.gang (s.block o.bid).gid).st ≠ .halted || s.mustEnd id then o.done + n
  else min (o.done + n) ((o.done + 4095) / 4096 * 4096)

/-- One grain of a copy: the state after it, and whether the operation goes on. -/
def State.copyGrain (s : State) (id : Nat) (o : EngineOp) : State × Bool :=
  let n := min (s.grain o o.done 3) (s.landGoal id o 4 - o.done)
  let r := s.grainRead o o.done n
  let fails (s : State) : State := match r.2.2 with
    | some x => if x.1.cause = 0 then s else s.failOp id x.1 x.2.addr
    | none => s
  if r.2.1 = [] then (fails r.1, false)
  else
    let d := (s.copyByte o o.done).2
    match (r.1.keepPre id o d r.2.1.length).engWrite o d r.2.1 with
    | .done s => (fails (s.landed id o r.2.1.length), r.2.2.isNone)
    | .fault s f => (s.failOp id f d.addr, false)
    | .wait s full => (if full then s.stallOp id o d.addr else s, false)

/-- Grains until so many bytes of the operation are done (R254). -/
def State.copyLand (s : State) (id goal : Nat) : Nat → State
  | 0 => s
  | fuel + 1 =>
    match s.ops.find id with
    | none => s
    | some o =>
      if o.st ≠ .running then s
      else if o.total ≤ o.done then s.onOp id fun o => { o with st := .landed }
      else if goal ≤ o.done then s
      else
        let r := s.copyGrain id o
        if r.2 then r.1.copyLand id goal fuel else r.1

/-! ### Floods (R257) -/

/-- What a target of a flood has received. -/
def EngineOp.target (o : EngineOp) (bid : Nat) : Option (Nat × Bool) := (o.targets.find? fun t => t.1 = bid).map (·.2)

def EngineOp.setTarget (o : EngineOp) (bid n : Nat) (done : Bool) : EngineOp :=
  { o with targets := o.targets.map fun t => if t.1 = bid then (bid, n, done) else t }

/-- A misuse of a target's or of the issuer's barrier makes the flood complete with that error (R51). -/
def State.floodMisuse (s : State) (id a : Nat) (d : Option Nat) : State :=
  match d with
  | none => s
  | some d => s.onOp id fun o =>
    if o.hasErr then o else { o with hasErr := true, cause := cz 0x24 d, addr := BitVec.ofNat 64 a }

/-- Bytes of a flood land in one target (R257). -/
def State.floodLand (s : State) (id bid n : Nat) (o : EngineOp) : State :=
  match o.target bid with
  | none => s
  | some (_, true) => s
  | some (got, false) =>
    let n := min ((n + 3) / 4 * 4) (o.u 16 4 - got)
    let rbar := o.u 20 4
    if n = 0 then s
    else if !(s.engDelivered o false 0 bid) then s
    else if s.scratchUpset o.bid (o.u 8 4 + got) n then
      s.failOp id (noWalk (cz 0x17 3)) (BitVec.ofNat 64 (o.u 8 4 + got))
    else
      let ann := if rbar ≠ noAddr && got = 0 then s.barUpdate bid rbar 0 (o.u 16 4) 0 else (s, none)
      let s := ann.1.floodMisuse id rbar ann.2
      let s := s.wrScratch bid (o.u 12 4 + got) (s.rdScratch o.bid (o.u 8 4 + got) n)
      let s := s.latch 3 fun w => w.bid = bid
      let r := if rbar ≠ noAddr then s.barUpdate bid rbar 0 0 n else (s, none)
      let s := r.1.floodMisuse id rbar r.2
      let a := if o.arrives then s.barUpdate o.bid o.bar 0 0 n else (s, none)
      let s := a.1.floodMisuse id o.bar a.2
      s.onOp id fun o => { o.setTarget bid (got + n) false with done := o.done + n }

/-- BCAST_TARGET_DONE (R257): a target's copy is complete and arrives on its barrier; with the last the flood has landed. -/
def execBcastTargetDone (op bid : Nat) (s : State) : Host.Outcome State Fault Refusal :=
  .next (match s.ops.find op with
    | some o =>
      match o.target bid with
      | some (got, false) =>
        if o.form = 7 && o.st = .running && got = o.u 16 4 then
          let rbar := o.u 20 4
          let r := if rbar ≠ noAddr then s.barUpdate bid rbar 1 0 0 else (s, none)
          let s := (r.1.floodMisuse op rbar r.2).onOp op fun o => o.setTarget bid got true
          s.onOp op fun o => if o.targets.all fun t => t.2.2 then { o with st := .landed } else o
        else s
      | _ => s
    | none => s)

/-! ### Completion (R250 to R252) -/

/-- The record's bytes (R251). -/
def EngineOp.record (o : EngineOp) (rank : Nat) (keep : List Byte) : List Byte :=
  let img := if o.kind = 8 then [] else (o.image ++ List.replicate (128 - o.image.length) 0).take 128
  natLe 4 (o.cause + 2 ^ 12 * o.sub + 2 ^ 16 * o.tag + 2 ^ 22 * o.f7.toNat) ++ natLe 4 (o.idx + 2 ^ 4 * rank) ++
  natLe 8 o.addr.toNat ++ natLe 8 o.done ++ if o.kind = 8 then keep else natLe 8 o.info.toNat ++ img

/-- Causes that are trapped at observation (R252). -/
def observedCause (c : Nat) : Bool := c / 8 = 0x20 || c / 8 = 0x21 || c / 8 = 0x22

/-- Is the record of a failed operation written (R251, R258)? -/
def EngineOp.writesRecord (o : EngineOp) : Bool :=
  o.hasErr && o.recAt ≠ noAddr && o.cause ≠ cz 0x21 4 && o.cause ≠ cz 0x21 6

/-- The error of an operation goes to the fault queue too: a page fault (R390). -/
def EngineOp.queued (o : EngineOp) : Bool := o.hasErr && (o.cause / 8 = 0x11 || o.cause / 8 = 0x12)

/-- Step 2 of R250, and the fault-queue record of a page fault (R252). -/
def State.opRecord (s : State) (o : EngineOp) : State :=
  let rank := (s.block o.bid).rank
  let s := if o.writesRecord then
      s.wrScratch o.bid o.recAt (o.record rank (s.rdScratch o.bid (o.recAt + 24) 136)) else s
  if o.queued then
    (s.fqPush o.part
      { cause := o.cause, level := o.level, source := 4, gtime := some o.faultAt, tag := o.tag, tile := (s.part o.part).localCore o.core / 4,
        core := o.core % 4, warp := o.idx, block := rank, va := o.addr,
        launch := (s.launch (s.gang (s.block o.bid).gid).lid).serial, asid := o.asid, pte := o.pte,
        rec_ := if o.writesRecord then BitVec.ofNat 64 o.recAt else 0 }).1
  else s

/-- Step 5 of R250: the count falls and the tag becomes complete when no other operation names it. -/
def State.opTag (s : State) (id : Nat) (o : EngineOp) : State :=
  let s := { s with ops := s.ops.del id }
  let s := s.uncount o.wid id
  let busy := s.tagBusy o.core o.tag
  let bit : DWord := 1#64 <<< o.tag
  let s := s.onCore o.core fun r =>
    { r with tagfail := if o.hasErr then r.tagfail ||| bit else r.tagfail,
             tagmap := if busy then r.tagmap else r.tagmap ||| bit }
  let s := if busy then s else s.latch 1 fun w => w.core = o.core
  if o.hasErr && observedCause o.cause then
    { s with errs := s.errs ++ [{ bid := o.bid, wid := o.wid, tag := o.tag, op := id, cause := o.cause,
                                  trec := if o.writesRecord then (1#64 <<< 63) ||| BitVec.ofNat 64 o.recAt else 0 }] }
  else s

/-- The completion of an operation, in the order of R250. -/
def State.completeOp (s : State) (id : Nat) (o : EngineOp) : State :=
  let arr := o.arrives && o.kind ≠ 8
  let o := if arr && !o.hasErr && (s.phaseBar o.bid o.bar).pending = 0 then
      { o with hasErr := true, cause := cz 0x24 0, addr := BitVec.ofNat 64 o.bar } else o
  let s := s.opRecord o
  let s := { s with lids := s.lids.filter (·.op ≠ id) }
  let s := if arr then (s.barUpdate o.bid o.bar 1 0 0).1 else s
  (s.opTag id o)

/-- ENG_OP_COMPLETE (R250). -/
def execEngOpComplete (op : Nat) (s : State) : Host.Outcome State Fault Refusal :=
  .next (match s.ops.find op with
    | some o => if (o.st = .landed || o.st = .failed) && !(o.queued && s.fqHeld o.part) then s.completeOp op o else s
    | none => s)

end Sys2Proof.Machine
end

