-- ==== Sys2Proof/Machine/Launch.lean ====
section
/-! DEFINITION. Launches: kernel descriptors, the room their gangs need, parameter pages, completion counters, and what a
completion lets go on (R14 to R17, R20, R23, R136, R348, R352, R364, R366, R371, R375, R376). -/
namespace Sys2Proof.Machine

/-! ### Descriptors (R14 to R17, R134, R136) -/

def sumNat (l : List Nat) : Nat := l.foldl (· + ·) 0

/-- A little-endian field of a run of bytes. -/
def field (bs : List Byte) (off n : Nat) : Nat := leNat ((bs.drop off).take n)

/-- Every byte of a range is zero. -/
def zeros (bs : List Byte) (lo hi : Nat) : Bool := ((bs.drop lo).take (hi - lo)).all (· = 0)

/-- The role entries of a descriptor. -/
def rolesOf (bs : List Byte) (n : Nat) : List Role :=
  (List.range n).map fun i =>
    { code := field bs (32 + 4 * i) 1, warps := field bs (33 + 4 * i) 1, regs := field bs (34 + 4 * i) 2 }

/-- A descriptor's fields. -/
def KDesc.ofBytes (bs : List Byte) : KDesc :=
  { entry := BitVec.ofNat 64 (field bs 0 8), perTile := field bs 11 1, gx := field bs 12 2, gy := field bs 14 2,
    scratch := field bs 16 4, accum := field bs 20 2,
    trapframe := if field bs 22 2 = 0 then 65536 else field bs 22 2, params := field bs 24 4,
    roles := rolesOf bs (min (field bs 10 1) 4) }

/-- Warps of a block, its registers per lane, its allotment, and the gang's blocks (R14 to R17, R348). -/
def KDesc.nwarps (d : KDesc) : Nat := sumNat (d.roles.map (·.warps))
def KDesc.nregs (d : KDesc) : Nat := sumNat (d.roles.map fun r => r.warps * r.regs)
def KDesc.zsize (d : KDesc) : Nat := (d.scratch + d.nwarps * d.trapframe + 256 * 32 * d.nwarps + 1023) / 1024 * 1024
def KDesc.nblk (d : KDesc) : Nat := if d.perTile = 0 then 1 else d.gx * d.gy * d.perTile

/-- A role within R14 and R15. -/
def Role.ok (r : Role) : Bool := r.code ≤ 3 && 1 ≤ r.warps && r.regs % 8 = 0 && 48 ≤ r.regs && r.regs ≤ 256

/-- The limits of R14 to R17 and R134. -/
def KDesc.ok (d : KDesc) : Bool :=
  d.entry.extractLsb' 0 2 = 0 && d.perTile ≤ 4 &&
  (if d.perTile = 0 then d.gx = 0 && d.gy = 0 else 1 ≤ d.gx && 1 ≤ d.gy && d.nblk ≤ 1024) &&
  d.scratch ≤ 524288 && d.accum % 64 = 0 && d.accum ≤ 512 && d.trapframe % 64 = 0 && 256 ≤ d.trapframe &&
  d.trapframe ≤ 65536 && d.params ≤ 65536 && d.roles ≠ [] && d.roles.all Role.ok && d.nwarps ≤ 16 &&
  (d.roles.map (·.code)).eraseDups.length = d.roles.length

/-- The bytes of a descriptor keep R136. -/
def descOk (bs : List Byte) : Bool :=
  let n := field bs 10 1
  field bs 8 2 = 1 && 1 ≤ n && n ≤ 4 && zeros bs 28 32 && zeros bs 48 64 && zeros bs (32 + 4 * n) 48 && (KDesc.ofBytes bs).ok

/-! ### Room (R17, R20) -/

/-- Blocks that hold their place on a core, those of some gangs apart. -/
def State.holding (s : State) (but : List Nat) : List Block :=
  (s.blocks.filter fun b => !b.2.retired && !(but.contains b.2.gid) && match (s.gang b.2.gid).st with
    | .running | .halted => true
    | _ => false).map (·.2)

/-- The descriptor of a block. -/
def State.descOf (s : State) (b : Block) : KDesc := (s.launch (s.gang b.gid).lid).desc

/-- A core has room for one more block of a kernel beside some blocks (R20). -/
def State.coreFits (s : State) (bs : List Block) (d : KDesc) (core : Nat) : Bool :=
  let l := bs.filter fun b => b.core = core
  sumNat (l.map fun b => b.wids.length) + d.nwarps ≤ Config.coreWarps &&
  sumNat (l.map fun b => (s.descOf b).nregs) + d.nregs ≤ Config.coreRegs &&
  sumNat (l.map fun b => b.zsize) + d.zsize ≤ Config.coreScratch

/-- Accumulator rows from a base are free on a tile beside some ranges (R20). -/
def rowsFree (used : List (Nat × Nat)) (n base : Nat) : Bool :=
  base % 64 = 0 && base + n ≤ 512 && used.all fun u => !(meets base (base + n) u.1 (u.1 + u.2))

/-- The accumulator rows that blocks hold on a tile. -/
def rowsUsed (bs : List Block) (tile : Nat) : List (Nat × Nat) :=
  (bs.filter fun b => b.core / 4 = tile && 0 < b.acclen).map fun b => (b.accbase, b.acclen)

/-- May a core take work: all its quads work, and it has not failed (R410, R440). -/
def State.coreUp (s : State) (core : Nat) : Bool := (s.coreRegs core).health = 0xFF && !(s.coreRegs core).failed

/-- Bases for the blocks that some cores of one tile take, lowest first. -/
def basesFor (n : Nat) : List (Nat × Nat) → List Nat → Option (List (Nat × Nat))
  | _, [] => some []
  | used, c :: cs =>
    match ((List.range 9).map (64 * ·)).find? (rowsFree used n) with
    | none => none
    | some b => (basesFor n (if n = 0 then used else (b, n) :: used) cs).map fun r => (c, b) :: r

/-- A place for the blocks of a gang on one tile. -/
def State.tilePlace (s : State) (bs : List Block) (d : KDesc) (tile : Nat) : Option (List (Nat × Nat)) :=
  let n := max 1 d.perTile
  let cores := ((List.range 4).map (4 * tile + ·)).filter fun c => s.coreUp c && s.coreFits bs d c
  if cores.length < n then none else basesFor d.accum (rowsUsed bs tile) (cores.take n)

/-- The tiles of a gang whose south-west corner is a tile, in order of rank; none when they leave the pool or the partition
(R17). -/
def Part.rect (P : Part) (d : KDesc) (t0 : Nat) : Option (List Nat) :=
  if d.perTile = 0 then some [t0]
  else
    let l := (List.range d.gy).flatMap fun y => (List.range d.gx).map fun x => t0 + x + 40 * y
    if t0 % 40 + d.gx ≤ 40 && t0 / 40 + d.gy ≤ 39 && l.all P.tiles.contains then some l else none

/-- The places of all of a list of tiles, or none. -/
def State.tilesPlace (s : State) (bs : List Block) (d : KDesc) : List Nat → Option (List (Nat × Nat))
  | [] => some []
  | t :: ts =>
    match s.tilePlace bs d t, s.tilesPlace bs d ts with
    | some a, some b => some (a ++ b)
    | _, _ => none

/-- A place for a gang, if there is one (R20): by rank, a core and the first accumulator row. -/
def State.findPlace (s : State) (but : List Nat) (P : Part) (d : KDesc) : Option (List (Nat × Nat)) :=
  let bs := s.holding but
  P.tiles.findSome? fun t0 => (P.rect d t0).bind (s.tilesPlace bs d)

/-- A place of one tile's blocks keeps R17 and R20: cores of the tile, each another and each with room, and disjoint rows. -/
def State.tileOk (s : State) (bs : List Block) (d : KDesc) (tile : Nat) (l : List (Nat × Nat)) : Bool :=
  (l.map (·.1)).eraseDups.length = l.length &&
  l.all (fun x => x.1 / 4 = tile && s.coreFits bs d x.1) &&
  (List.range l.length).all fun i =>
    rowsFree (rowsUsed bs tile ++ (if d.accum = 0 then [] else ((l.take i).map fun x => (x.2, d.accum)))) d.accum
      ((l.getD i (0, 0)).2)

/-- A place offered for a gang keeps R17 and R20. -/
def State.placeOk (s : State) (P : Part) (d : KDesc) (places : List (Nat × Nat)) : Bool :=
  let n := max 1 d.perTile
  let bs := s.holding []
  places.length = d.nblk &&
  match places with
  | [] => false
  | x :: _ =>
    match (if P.tiles.contains (x.1 / 4) then P.rect d (x.1 / 4) else none) with
    | none => false
    | some ts => ts.zipIdx.all fun t => s.tileOk bs d t.1 ((places.drop (n * t.2)).take n)

/-- The kernel fits on the partition's tiles when nothing else is there (R364 code 3). -/
def State.canEver (s : State) (P : Part) (d : KDesc) : Bool :=
  let s0 : State := { s with cores := [] }
  P.tiles.any fun t0 => ((P.rect d t0).bind (s0.tilesPlace [] d)).isSome

/-! ### What the device reads (R363, R366, R468) -/

/-- Bytes that the device reads, line by line; with the failing address. -/
def State.devBytes (s : State) (p asid : Nat) (va : DWord) : Nat → Nat → State × Except (WalkFail × DWord) (List Byte)
  | 0, _ => (s, .ok [])
  | fuel + 1, n =>
    if n = 0 then (s, .ok [])
    else
      let m := min n (128 - va.toNat % 128)
      match s.deviceRead p asid va m with
      | (s, .error f) => (s, .error (f, va))
      | (s, .ok bs) =>
        match s.devBytes p asid (va + BitVec.ofNat 64 m) fuel (n - m) with
        | (s, .error e) => (s, .error e)
        | (s, .ok r) => (s, .ok (bs ++ r))

/-- A run of bytes. -/
def State.devRead (s : State) (p asid : Nat) (va : DWord) (n : Nat) : State × Except (WalkFail × DWord) (List Byte) :=
  s.devBytes p asid va (n / 128 + 2) n

/-! ### Queues and their errors (R362, R364) -/

def Part.queue (P : Part) (q : Nat) : Queue := P.queues.getD q {}

def State.onQueue (s : State) (p q : Nat) (f : Queue → Queue) : State :=
  s.onPart p fun P => { P with queues := P.queues.put q (f (P.queue q)) }

/-- The ASID of a queue (R361). -/
def Queue.asidNo (q : Queue) : Nat := q.asid.toNat % 16

/-- A queue in state 11 with an error code: what held its parsing is over, and `head` names the packet (R364). -/
def State.queueErr (s : State) (p q code : Nat) : State :=
  s.onQueue p q fun Q =>
    { Q with st := 3, err := code, wait := 0, head := if Q.conds ≠ [] || Q.drain.isSome then Q.headAt else Q.head,
             conds := [], drain := none }

/-- A record of a queue's fault (R390, R391). An access of the device that meets another fault, for which R391 leaves a record no
cause, is written as a table entry that could not be read would be (DESIGN CHOICE, log 92). -/
def State.queueRec (s : State) (p q asid src : Nat) (f : WalkFail) (va : DWord) : State :=
  let page := f.cause / 8 = 0x11 || f.cause / 8 = 0x12
  (s.fqPush p { cause := if page then f.cause else cz 0x11 5, level := f.level, source := src, va := va, asid := asid, queue := q, pte := f.pte }).1

/-- Queue error 4 (R364, R390); nothing yet while the access itself stalls for a bias flip, or the write of its record does (R100). -/
def State.queueFault (s : State) (p q src : Nat) (f : WalkFail) (va : DWord) : State :=
  if f.cause = 0 || s.fqHeld p then s
  else (s.queueRec p q ((s.part p).queue q).asidNo src f va).queueErr p q 4

/-- A counter's update at its home slice as a release, written through for host bias (R366, R368): the value added, or put in
its place; with the cause 0 it stalls for a bias flip (R100). -/
def State.counterUpdate (s : State) (p asid : Nat) (va v : DWord) (put : Bool) : State × Option WalkFail :=
  let r := s.translate p asid va .atomic
  if s.flipping p asid va then (s, some { cause := 0, level := 7, pte := 0 })
  else match r.2, (s.part p).homeTile va with
  | .error f, _ => (r.1, some f)
  | .ok _, none => (r.1, some { cause := cz 0x11 3, level := 7, pte := 0 })
  | .ok lf, some tile =>
    let s := r.1.forceBack p asid (lineOf va) tile lf
    match s.committed p asid tile lf va 8 with
    | .error c => (s, some { cause := c, level := lf.level, pte := lf.pte })
    | .ok bs =>
      let new := if put then v else BitVec.ofNat 64 (leNat bs) + v
      ((s.sliceWrite (s.part p) tile lf ((natLe 8 new.toNat).zipIdx.map fun b => (b.2, b.1))), none)

/-- A counter's update at an address stalls for a bias flip, or the record that it may make does (R100); no counter is 0. -/
def State.ctrHeld (s : State) (p asid : Nat) (va : DWord) : Bool := va ≠ 0 && (s.flipping p asid va || s.fqHeld p)

/-! ### Parameter pages (R75, R352) -/

/-- A virtual page that a fresh parameter page may take: homed and not mapped, so that it is no live launch's and no live
instance's either (`State.walk` answers for those; log entry 21). -/
def State.pageFree (s : State) (p asid page : Nat) : Bool :=
  let va : DWord := BitVec.ofNat 64 (page * 65536)
  ((s.part p).home va).isSome && (match s.walk p asid va with
    | .ok _ => false
    | .error _ => true)

/-- The virtual page where a fresh parameter page is mapped: the device's choice among the free ones (log entry 21): beside a
page that it picks, or in another terabyte. -/
def State.pickPage (s : State) (p asid : Nat) : Nat :=
  let p0 := Config.freeNat s.freeCtr % 2 ^ 36
  let near := (List.range 8192).map fun j => (p0 + j) % 2 ^ 36
  let far := (List.range 4096).map fun j => (p0 + j * 2 ^ 24) % 2 ^ 36
  ((near ++ far).find? (s.pageFree p asid)).getD p0

/-- A fresh parameter page that holds a block: its address and its name. -/
def State.paramPage (s : State) (p asid : Nat) (bytes : List Byte) : State × DWord × Nat :=
  let m := s.nextId
  let va : DWord := BitVec.ofNat 64 (s.pickPage p asid * 65536)
  ({ s with nextId := m + 1, freeCtr := s.freeCtr + 1, paramMem := Memory.wrN s.paramMem (m * 65536) bytes }, va, m)

/-- A parameter page given up. -/
def State.dropPage (s : State) (m : Nat) : State :=
  { s with paramMem := s.paramMem.filter fun b => b.1 / 65536 ≠ m }

/-! ### Starting a launch (R366) -/

/-- A launch enters the machine with its first gang waiting (R366, R373). -/
def State.addLaunch (s : State) (l : Launch) : State × Nat :=
  let lid := s.nextId
  let l := { l with serial := BitVec.ofNat 32 (s.part l.part).serial }
  let g : Gang := { lid := lid, idx := 0, since := l.ready, waitFrom := s.gtime, nblk := l.desc.nblk }
  let s := s.onPart l.part fun P => { P with serial := P.serial + 1 }
  ({ s with nextId := lid + 2, launches := s.launches.put lid l, gangs := s.gangs.put (lid + 1) g }, lid)

/-- Why a LAUNCH image cannot be started. -/
inductive LaunchFail where
  | code (err : Nat)
  | fault (f : WalkFail) (va : DWord)
  deriving DecidableEq, Repr

/-- The static rules of a LAUNCH packet (R364, R366). -/
def launchCheck (b : List Byte) : Option Nat :=
  if !(zeros b 2 4 && zeros b 40 64) || field b 24 8 % 8 ≠ 0 then some 2
  else if field b 4 4 = 0 || 31 < field b 1 1 then some 7
  else if field b 8 8 % 64 ≠ 0 then some 3
  else none

/-- The descriptor that a LAUNCH names (R364, R366). -/
def State.readDesc (s : State) (p asid : Nat) (b : List Byte) : State × Except LaunchFail KDesc :=
  match launchCheck b with
  | some e => (s, .error (.code e))
  | none =>
    match s.devRead p asid (BitVec.ofNat 64 (field b 8 8)) 64 with
    | (s, .error e) => (s, .error (.fault e.1 e.2))
    | (s, .ok d) =>
      if !(descOk d) || !(s.canEver (s.part p) (KDesc.ofBytes d)) then (s, .error (.code 3)) else (s, .ok (KDesc.ofBytes d))

/-- A LAUNCH image parsed and started: its descriptor read and its parameters copied to a fresh page, or to the page of
its graph instance (R366, R370, R371). -/
def State.startImage (s : State) (p asid : Nat) (b : List Byte) (src : LaunchSrc) (page : Option (DWord × Nat))
    (firedAt : Nat) : State × Except LaunchFail Nat :=
  match s.readDesc p asid b with
  | (s, .error e) => (s, .error e)
  | (s, .ok d) =>
    let got : State × Except LaunchFail (DWord × Nat) := match page with
      | some pg => (s, .ok pg)
      | none => match s.devRead p asid (BitVec.ofNat 64 (field b 16 8)) d.params with
        | (s, .error e) => (s, .error (.fault e.1 e.2))
        | (s, .ok bs) => let r := s.paramPage p asid bs; (r.1, .ok r.2)
    match got with
    | (s, .error e) => (s, .error e)
    | (s, .ok pg) =>
      let r := s.addLaunch
        { part := p, serial := 0, asid := asid, prio := field b 1 1, params := pg.1, pmem := pg.2,
          ctr := BitVec.ofNat 64 (field b 24 8), inc := BitVec.ofNat 64 (field b 32 8), gangs := field b 4 4, desc := d,
          src := src, firedAt := firedAt
          ready := match src with
            | .slot _ => firedAt
            | _ => s.gtime }
      (r.1, .ok r.2)

/-! ### Slots (R375, R376) -/

def Part.slot (P : Part) (k : Nat) : Slot := P.slots.getD k {}

def State.onSlot (s : State) (p k : Nat) (f : Slot → Slot) : State :=
  s.onPart p fun P => { P with slots := P.slots.put k (f (P.slot k)) }

/-- The launch of a firing becomes ready, as of that firing; one that cannot be parsed is dropped, a fault with a record of
source 5 (log entry 22); while what it reads or that record stalls for a bias flip, the firing is held (R100). -/
def State.slotStart (s : State) (p k firedAt : Nat) : State :=
  let asid := ((s.part p).queue 0).asidNo
  match s.startImage p asid ((s.part p).slot k).img (.slot k) none firedAt with
  | (s, .ok lid) => s.onSlot p k fun x => { x with cur := some lid }
  | (s, .error (.fault f va)) =>
    if f.cause = 0 || s.fqHeld p then s.onSlot p k fun x => { x with hold := some firedAt } else s.queueRec p 0 asid 5 f va
  | (s, .error (.code _)) => s

/-- The launch of a slot is over: the one that is held becomes ready (R375). -/
def State.slotFree (s : State) (p k : Nat) : State :=
  let x := (s.part p).slot k
  let s := s.onSlot p k fun x => { x with cur := none, hold := none }
  match x.hold with
  | some t => s.slotStart p k t
  | none => s

/-- A slot launch that runs longer than its budget counts once (R375). -/
def State.countOver (s : State) : State :=
  s.launches.foldl (fun s l =>
    match l.2.src, l.2.issuedAt with
    | .slot k, some t =>
      if !l.2.overCounted && t + ((s.part l.2.part).slot k).budget < s.gtime then
        (s.onLaunch l.1 fun l => { l with overCounted := true }).onSlot l.2.part k fun x => { x with overs := min (x.overs + 1) (2 ^ 32 - 1) }
      else s
    | _, _ => s) s

/-- The first instruction of a launch issues: a slot's worst delay is kept (R376). -/
def State.firstIssue (s : State) (wid : Nat) : State :=
  let lid := (s.gang (s.block (s.warp wid).bid).gid).lid
  let l := s.launch lid
  match l.issuedAt with
  | some _ => s
  | none =>
    let s := s.onLaunch lid fun l => { l with issuedAt := some s.gtime }
    match l.src with
    | .slot k => s.onSlot l.part k fun x => { x with late := max x.late (min (s.gtime - l.firedAt) (2 ^ 32 - 1)) }
    | _ => s

/-! ### Completion (R23, R366, R371) -/

def State.onInst (s : State) (p i : Nat) (f : GraphInst → GraphInst) : State :=
  s.onPart p fun P => { P with insts := match P.insts.find i with
    | some x => P.insts.put i (f x)
    | none => P.insts }

/-- A graph instance whose nodes are all complete: its counter, and it is gone (R371). -/
def State.instDone (s : State) (p i : Nat) (x : GraphInst) : State :=
  let r := if x.ctr = 0 then (s, none) else s.counterUpdate p x.asid x.ctr x.inc false
  let s := match r.2 with
    | some f => r.1.queueFault p x.q 5 f x.ctr
    | none => r.1
  ((s.onPart p fun P => { P with insts := P.insts.del i }).dropPage x.pmem)

/-- The update of an instance's counter that its last node's completion makes stalls (R100). -/
def State.instHeld (s : State) (p : Nat) (x : GraphInst) : Bool :=
  (x.nodes.filter (·.st ≠ 2)).length ≤ 1 && s.ctrHeld p x.asid x.ctr

/-- A node of an instance is complete; with the last the instance is (R371). -/
def State.nodeDone (s : State) (p i n : Nat) : State :=
  let s := s.onInst p i fun x => { x with nodes := x.nodes.zipIdx.map fun y => if y.2 = n then { y.1 with st := 2 } else y.1 }
  match (s.part p).insts.find i with
  | some x => if x.nodes.all (·.st = 2) then s.instDone p i x else s
  | none => s

/-- The queue whose state shows a launch's failed counter update. -/
def State.srcQueue (s : State) (l : Launch) : Option Nat :=
  match l.src with
  | .queue q => some q
  | .slot _ => none
  | .node i _ => ((s.part l.part).insts.find i).map (·.q)

/-- What the completion of a launch updates stalls for a bias flip (R100): its own counter, or that of the instance whose last
node it is. -/
def State.doneHeld (s : State) (l : Launch) : Bool :=
  s.ctrHeld l.part l.asid l.ctr || match l.src with
    | .node i _ => ((s.part l.part).insts.find i).any fun x => s.instHeld l.part x
    | _ => false

/-- A launch all of whose gangs have retired (R23, R366): its counter is updated as a release, and what waits on it goes on; a
slot's budget is judged once more (R375). -/
def State.launchDone (s : State) (lid : Nat) (l : Launch) : State :=
  let s := s.countOver
  let r := if l.ctr = 0 then (s, none) else s.counterUpdate l.part l.asid l.ctr l.inc false
  let s := match r.2, s.srcQueue l with
    | none, _ => r.1
    | some f, some q => r.1.queueFault l.part q 5 f l.ctr
    | some f, none => r.1.queueRec l.part 0 l.asid 5 f l.ctr
  let s := { s with launches := s.launches.del lid }
  match l.src with
  | .queue _ => s.dropPage l.pmem
  | .slot k => (s.dropPage l.pmem).slotFree l.part k
  | .node i n => s.nodeDone l.part i n

end Sys2Proof.Machine
end

