-- ==== Sys2Proof/Machine/Geo.lean ====
section
/-! DEFINITION. The exact geometric predicates (R271, R272, R306 to R313): determinants as polynomials in the perturbation
ε, stages, and the split by quad. -/
namespace Sys2Proof.Machine

/-! ### Polynomials in ε with integer coefficients: exponent and coefficient, exponents rising -/

abbrev Poly := Tbl Int

def Poly.addTerm (p : Poly) (e : Nat) (c : Int) : Poly := Tbl.put p e (Tbl.getD p e 0 + c)

def Poly.add (p q : Poly) : Poly := q.foldl (fun r t => Poly.addTerm r t.1 t.2) p

def Poly.neg (p : Poly) : Poly := p.map fun t => (t.1, -t.2)

def Poly.mul (p q : Poly) : Poly :=
  p.foldl (fun r t => q.foldl (fun r u => Poly.addTerm r (t.1 + u.1) (t.2 * u.2)) r) []

def Poly.const (v : Int) : Poly := [(0, v)]

/-- The sign of a polynomial for every sufficiently small ε > 0: that of its lowest non-zero coefficient. -/
def Poly.sign : Poly → Int
  | [] => 0
  | (_, c) :: r => if c = 0 then Poly.sign r else if c < 0 then -1 else 1

/-- A list without its n-th element. -/
def without {α : Type} : List α → Nat → List α
  | [], _ => []
  | _ :: xs, 0 => xs
  | x :: xs, n + 1 => x :: without xs n

/-- A determinant, expanded along its first row. -/
def detPoly : Nat → List (List Poly) → Poly
  | 0, _ => Poly.const 1
  | _, [] => Poly.const 1
  | n + 1, row :: rows =>
    (row.zipIdx).foldl (fun acc x =>
      let m := Poly.mul x.1 (detPoly n (rows.map fun r => without r x.2))
      Poly.add acc (if x.2 % 2 = 0 then m else Poly.neg m)) []

/-- The permanent of a matrix of magnitudes. -/
def permNat : Nat → List (List Nat) → Nat
  | 0, _ => 1
  | _, [] => 1
  | n + 1, row :: rows =>
    (row.zipIdx).foldl (fun acc x => acc + x.1 * permNat n (rows.map fun r => without r x.2)) 0

/-! ### Determinants of R306 -/

/-- A point with exact coordinates on one grid. -/
abbrev Pt := List Int

/-- The predicates. -/
inductive GeoOp where
  | orient2 | orient3 | incirc | insph | segx
  deriving DecidableEq, Repr

/-- Dimension, points of a and points of b (R271). -/
def GeoOp.dim : GeoOp → Nat
  | .orient2 | .incirc | .segx => 2
  | _ => 3

def GeoOp.nA : GeoOp → Nat
  | .orient2 | .segx => 2
  | .orient3 | .incirc => 3
  | .insph => 4

def GeoOp.nB : GeoOp → Nat
  | .segx => 2
  | _ => 1

def GeoOp.points (o : GeoOp) : Nat := o.nA + o.nB

/-- The difference of two points of polynomials. -/
def ptSub (p q : List Poly) : List Poly := (p.zip q).map fun x => Poly.add x.1 (Poly.neg x.2)

/-- A row with its lifted term. -/
def lifted (r : List Poly) : List Poly := r ++ [r.foldl (fun a x => Poly.add a (Poly.mul x x)) []]

/-- The rows of differences, before lifting: ORIENT2 from p0, the others from q. -/
def GeoOp.rows (o : GeoOp) (ps : List (List Poly)) : List (List Poly) :=
  match o with
  | .orient2 | .segx => (ps.drop 1).map fun p => ptSub p (ps.headD [])
  | _ => (ps.take o.nA).map fun p => ptSub p (ps.getLastD [])

/-- The determinant of R306 over points of polynomials. -/
def GeoOp.det (o : GeoOp) (ps : List (List Poly)) : Poly :=
  match o with
  | .orient2 | .segx => detPoly 2 (o.rows ps)
  | .orient3 => detPoly 3 (o.rows ps)
  | .incirc => detPoly 3 ((o.rows ps).map lifted)
  | .insph => detPoly 4 ((o.rows ps).map lifted)

/-- A point as constants. -/
def ptConst (p : Pt) : List Poly := p.map Poly.const

/-- The exact determinant. -/
def GeoOp.exact (o : GeoOp) (ps : List Pt) : Int := Tbl.getD (o.det (ps.map ptConst)) 0 0

/-- The permanent of R308. -/
def GeoOp.perm (o : GeoOp) (ps : List Pt) : Nat :=
  let rows := (o.rows (ps.map ptConst)).map fun r => r.map fun x => (Tbl.getD x 0 0).natAbs
  let lift (r : List Nat) : List Nat := r ++ [(r.map fun x => x * x).foldl (· + ·) 0]
  match o with
  | .orient2 | .segx => permNat 2 rows
  | .orient3 => permNat 3 rows
  | .incirc => permNat 3 (rows.map lift)
  | .insph => permNat 4 (rows.map lift)

/-- The rank of a point by its index (R311). -/
def rankOf (ix : List Nat) (i : Nat) : Nat := (ix.filter (· < ix.getD i 0)).length

/-- Perturbed points (R311), on a grid on which one is `unit`. -/
def perturb (dim : Nat) (unit : Int) (ps : List Pt) (ix : List Nat) : List (List Poly) :=
  ps.zipIdx.map fun p => p.1.zipIdx.map fun c => Poly.addTerm (Poly.const c.1) (2 ^ (dim * rankOf ix p.2 + c.2)) unit

/-- The sign of a determinant, perturbed when indices are given. -/
def GeoOp.sign (o : GeoOp) (unit : Int) (ps : List Pt) (ix : Option (List Nat)) : Int :=
  match ix with
  | none => (o.exact ps).sign
  | some ix => if o.exact ps ≠ 0 then (o.exact ps).sign else (o.det (perturb o.dim unit ps ix)).sign

/-! ### SEGX (R307, R312) -/

/-- Three of four points, and their indices. -/
def pick3 {α : Type} (d : α) (l : List α) (i j k : Nat) : List α := [l.getD i d, l.getD j d, l.getD k d]

/-- The four orientations of R312: p0 p1 q0, p0 p1 q1, q0 q1 p0, q0 q1 p1. -/
def segTriples : List (Nat × Nat × Nat) := [(0, 1, 2), (0, 1, 3), (2, 3, 0), (2, 3, 1)]

def segSigns (unit : Int) (ps : List Pt) (ix : Option (List Nat)) : List Int :=
  segTriples.map fun t => GeoOp.orient2.sign unit (pick3 [] ps t.1 t.2.1 t.2.2) (ix.map fun l => pick3 0 l t.1 t.2.1 t.2.2)

/-- Points in order by x, then y. -/
def ptLe (p q : Pt) : Bool := p.getD 0 0 < q.getD 0 0 || (p.getD 0 0 = q.getD 0 0 && p.getD 1 0 ≤ q.getD 1 0)

def ptMin (p q : Pt) : Pt := if ptLe p q then p else q
def ptMax (p q : Pt) : Pt := if ptLe p q then q else p

/-- A point lies on a closed segment. -/
def onSeg (a b p : Pt) : Bool :=
  GeoOp.orient2.exact [a, b, p] = 0 && ptLe (ptMin a b) p && ptLe p (ptMax a b)

/-- The code of R307. -/
def segCode (p0 p1 q0 q1 : Pt) : Nat :=
  let o := segSigns 1 [p0, p1, q0, q1] none
  let touch := onSeg q0 q1 p0 || onSeg q0 q1 p1 || onSeg p0 p1 q0 || onSeg p0 p1 q1
  if p0 = p1 || q0 = q1 then (if touch then 2 else 0)
  else if o.getD 0 0 = 0 && o.getD 1 0 = 0 then
    let lo := ptMax (ptMin p0 p1) (ptMin q0 q1)
    let hi := ptMin (ptMax p0 p1) (ptMax q0 q1)
    if lo = hi then 2 else if ptLe lo hi then 3 else 0
  else if o.getD 0 0 * o.getD 1 0 < 0 && o.getD 2 0 * o.getD 3 0 < 0 then 1
  else if touch then 2 else 0

/-! ### A lane's result and stage (R308, R311 to R313) -/

/-- The exponent of the finest grid of a list of finite values, at most 0. -/
def gridOf (l : List FVal) : Int :=
  (l.map fun x => match x with
    | .fin _ _ e => e
    | _ => 0).foldl min 0

/-- A list cut into points. -/
def cut {α : Type} (dim : Nat) : Nat → List α → List (List α)
  | 0, _ => []
  | n + 1, l => l.take dim :: cut dim n (l.drop dim)

/-- The stage of one determinant: its exact value and its permanent (R308). -/
def stageOf (wide : Bool) (det : Int) (perm : Nat) : Nat :=
  if det ≠ 0 && perm ≤ det.natAbs * 2 ^ (if wide then 48 else 20) then 1
  else if det ≠ 0 && perm ≤ det.natAbs * 2 ^ (if wide then 150 else 80) then 2
  else 3

/-- The stage of a predicate on points (R308). -/
def GeoOp.stage (o : GeoOp) (wide : Bool) (ps : List Pt) : Nat :=
  match o with
  | .segx => (segTriples.map fun t =>
      let l := pick3 [] ps t.1 t.2.1 t.2.2
      stageOf wide (GeoOp.orient2.exact l) (GeoOp.orient2.perm l)).foldl max 1
  | _ => stageOf wide (o.exact ps) (o.perm ps)

/-- The result of a lane with finite coordinates; `ix` holds its indices under `.sos` (R272, R311, R312). -/
def GeoOp.result (o : GeoOp) (unit : Int) (ps : List Pt) (ix : Option (List Nat)) : Int :=
  let ix := ix.bind fun l => if l.eraseDups.length = l.length then some l else none
  match o, ix with
  | .segx, none => segCode (ps.getD 0 []) (ps.getD 1 []) (ps.getD 2 []) (ps.getD 3 [])
  | .segx, some l =>
    let g := segSigns unit ps (some l)
    if g.getD 0 0 ≠ g.getD 1 0 && g.getD 2 0 ≠ g.getD 3 0 then 1 else 0
  | o, ix => o.sign unit ps ix

/-- A lane's value and stage. -/
def GeoOp.lane (o : GeoOp) (wide : Bool) (coords : List FVal) (ix : Option (List Nat)) : Word × Nat :=
  if coords.any fun x => x.isNan || x.isInf then (0x80000000, 1)
  else
    let g := gridOf coords
    let ps := cut o.dim o.points (coords.map fun x => sumOn g [x])
    (bits (o.result (2 ^ (-g).toNat) ps ix), o.stage wide ps)

/-- Ticks from issue to the end of a stage (R308). -/
def GeoOp.ends (o : GeoOp) (wide : Bool) (stage : Nat) : Nat :=
  match stage with
  | 1 => 12
  | 2 => 60
  | _ => 60 + match o with
    | .orient2 | .segx => if wide then 120 else 60
    | .orient3 | .incirc => if wide then 240 else 140
    | .insph => if wide then 420 else 240

/-! ### Issue (R271, R309) -/

/-- ILL_OPERAND of a predicate (R271). -/
def geoOpd (o : GeoOp) (f : V3) : Option Nat :=
  let wide := f.x.getLsbD 0
  let sos := f.x.getLsbD 1
  let ic := (xc f.x).toNat
  let w := if wide then 2 else 1
  let past (code n : Nat) : Bool := code < 48 && 48 < code + n
  let odd (code : BitVec 6) : Bool := code.toNat < 48 && code.getLsbD 0
  oneOf [(0, dstBad f.d || 48 ≤ f.a.toNat || 48 ≤ f.b.toNat || (sos && 48 ≤ ic)),
    (1, callsX f.d || callsX f.a || callsX f.b || (sos && callsX (xc f.x))),
    (2, wide && (odd f.a || odd f.b)),
    (3, f.x.extractLsb' 3 23 ≠ 0 || (!sos && ic ≠ 0)),
    (6, past f.a.toNat (w * o.dim * o.nA) || past f.b.toNat (w * o.dim * o.nB) || (sos && past ic o.points))]

/-- The checks of a predicate. -/
def geoChecks (o : GeoOp) (f : V3) : Checks :=
  let wide := f.x.getLsbD 0
  let w := if wide then 2 else 1
  let ok := if wide then f64Tag else f32Tag
  { q := f.q, ill := illZero f.m 7, opd := geoOpd o f,
    a := { code := f.a, n := w * o.dim * o.nA, ok := ok }, b := { code := f.b, n := w * o.dim * o.nB, ok := ok, det := 1 },
    c := if f.x.getLsbD 1 then { code := xc f.x, n := o.points } else {}, d := dst1 f.d }

/-- Coordinate i of a group of a thread. -/
def State.geoCoord (s : State) (c : Ctx) (t : Th) (wide : Bool) (code : BitVec 6) (i : Nat) : FVal :=
  if wide then val64 ((s.src c t code (2 * i + 1)).val ++ (s.src c t code (2 * i)).val) else val32 (s.src c t code i).val

/-- A thread's coordinates, a's points then b's. -/
def State.geoCoords (s : State) (c : Ctx) (o : GeoOp) (f : V3) (t : Th) : List FVal :=
  let wide := f.x.getLsbD 0
  ((List.range (o.dim * o.nA)).map (s.geoCoord c t wide f.a)) ++ (List.range (o.dim * o.nB)).map (s.geoCoord c t wide f.b)

/-- A thread's indices under `.sos`. -/
def State.geoIndex (s : State) (c : Ctx) (o : GeoOp) (f : V3) (t : Th) : Option (List Nat) :=
  if f.x.getLsbD 1 then some ((List.range o.points).map fun i => (s.src c t (xc f.x) i).val.toNat) else none

/-- The end tick of a quad of a home warp: that of the latest stage of its active lanes. -/
def quadEnd (o : GeoOp) (wide : Bool) (tick wid q : Nat) (l : List (Th × Word × Nat)) : Nat :=
  tick + o.ends wide (((l.filter fun x => x.1.wid = wid && x.1.lane / 4 = q).map (·.2.2)).foldl max 1)

/-- The unit is held with its results to come (R309). -/
def State.geoHold (s : State) (c : Ctx) (o : GeoOp) (f : V3) (act : List Th) : State :=
  let wide := f.x.getLsbD 0
  let l := act.map fun t => (t, o.lane wide (s.geoCoords c o f t) (s.geoIndex c o f t))
  let s' := l.foldl (fun s' x =>
    if sharedDst f.d && !(leads act x.1) then s'
    else s'.onWarp x.1.wid fun w => { w with geoOut := w.geoOut ++ [(x.1.lane, s.dreg c x.1 f.d, x.2.1)] }) s
  c.u.mem.foldl (fun s' p => s'.onSliver p.1 p.2 fun g =>
    { g with st := .geo, since := s.warpTick p.1, bound := quadEnd o wide (s.warpTick p.1) p.1 g.quad l }) s'

/-- A predicate. -/
def geoInstr (s : State) (i : Instr) (o : GeoOp) (f : V3) : StepOut :=
  syncInstr s i (geoChecks o f) fun c act =>
    let bad := act.filter fun t => (s.geoCoords c o f t).any fun x => x.isNan || x.isInf
    if !(f.x.getLsbD 2) && bad ≠ [] then s.takeTrap c.u { cause := cz 0x30 0, tval := c.tval, mask := bad } c.len
    else (s.geoHold c o f act).meterVec act

/-- R272, R306. -/
def execOrient2 (f : V3) (s : State) : StepOut := geoInstr s (.orient2 f) .orient2 f
/-- R272, R306. -/
def execOrient3 (f : V3) (s : State) : StepOut := geoInstr s (.orient3 f) .orient3 f
/-- R272, R306. -/
def execIncirc (f : V3) (s : State) : StepOut := geoInstr s (.incirc f) .incirc f
/-- R272, R306. -/
def execInsph (f : V3) (s : State) : StepOut := geoInstr s (.insph f) .insph f
/-- R272, R307. -/
def execSegx (f : V3) (s : State) : StepOut := geoInstr s (.segx f) .segx f

/-! ### The end of a stage (R309) -/

/-- Slivers of a part renumbered by end tick: the first keeps its number. -/
def Warp.splitBy (w : Warp) (k : Nat) (ends : List Nat) : Warp :=
  match ends with
  | [] => w
  | _ :: rest =>
    let r := rest.foldl (fun (r : List Group × Nat) b =>
      (r.1.map fun g => if g.pos = 0 && g.sliver = k && g.bound = b then { g with sliver := r.2 } else g, r.2 + 1))
      (w.groups, w.nextSliver)
    { w with groups := r.1, nextSliver := r.2 }

/-- A held part splits by the end ticks of its quads (R309). -/
def Warp.splitStages (w : Warp) (k : Nat) : Warp := w.splitBy k (((w.running k).map (·.bound)).eraseDups)

/-- Results of the lanes of a sliver written. -/
def State.geoWrite (s : State) (wid k : Nat) : State :=
  let lanes := (s.warp wid).sliverLanes k
  let s := (s.warp wid).geoOut.foldl (fun s x =>
    if lanes.getLsbD x.1 then s.setReg { wid := wid, lane := x.1 } x.2.1 { val := x.2.2, tag := 1 } else s) s
  s.onWarp wid fun w => { w with geoOut := w.geoOut.filter fun x => !(lanes.getLsbD x.1) }

/-- GEO_STAGE_END (R309): a held unit splits by quad at tick 12, and each part writes and goes on at its own end tick. -/
def execGeoStageEnd (wid sliver : Nat) (s : State) : Host.Outcome State Fault Refusal :=
  let u := s.unitAt { wid := wid, sliver := sliver }
  let gs := (s.partGroups u.mem).map (·.2)
  let ends := (gs.map (·.bound)).eraseDups
  let since := ((gs.head?).map (·.since)).getD 0
  .next (if gs = [] || gs.any (·.st ≠ .geo) || s.warpTick wid < since + 12 then s
    else if 1 < ends.length then
      u.mem.foldl (fun s p => s.onWarp p.1 fun w => w.splitStages p.2) (s.dissolve u.mem)
    else if s.warpTick wid < ends.headD 0 then s
    else (u.mem.foldl (fun s p => s.geoWrite p.1 p.2) s).advance u 2)

end Sys2Proof.Machine
end

