-- ==== Sys2Proof/Machine/Hyp.lean ====
section
/-! DEFINITION. Hypotheses: the HYP instructions, the home slice's judgement, wavefronts and completion (R95, R263 to
R270, R293 to R305). -/
namespace Sys2Proof.Machine

/-! ### The table as the home slice holds it (R264, R269, R293) -/

def hypId (h : BitVec 16) : Nat := (h.extractLsb' 0 8).toNat
def hypGen (h : BitVec 16) : BitVec 8 := h.extractLsb' 8 8
def mkHandle (id : Nat) (gen : BitVec 8) : BitVec 16 := gen ++ BitVec.ofNat 8 id

/-- An entry; the root and an id never allocated are not listed. -/
def Part.node (P : Part) (id : Nat) : HypNode := P.hyp.getD id {}

/-- A handle is valid (R264): the root's, or a live id's at its generation. -/
def Part.validH (P : Part) (h : BitVec 16) : Bool :=
  if hypId h = 0 then h = 0 else (P.node (hypId h)).st = .live && (P.node (hypId h)).gen = hypGen h

/-- The ancestor chain of a handle at the home slice, every accepted resolution taken in (R269). -/
def Part.homeChain (P : Part) (h : BitVec 16) : List Nat := P.chainBy (fun _ => true) h 17

/-- The parent of a handle at the home slice. -/
def Part.homeParent (P : Part) (h : BitVec 16) : BitVec 16 :=
  let up := (P.node (hypId h)).parent
  (P.effBy (fun _ => true) up).getD up

/-- The depth of a handle: the length of its chain (log entry 19). -/
def Part.depthOf (P : Part) (h : BitVec 16) : Nat := (P.homeChain h).length

/-- An ancestor mask of a list of ids, the root included (R299). -/
def ancMask (ids : List Nat) : BitVec 256 := ids.foldl (fun m i => m ||| (1#256 <<< i)) 1#256

/-! ### Requests (R264 to R268) -/

/-- Operand a of a HYP instruction: code 52 is the home warp's `%hyp` (R263). -/
def State.hypOpd (s : State) (c : Ctx) (t : Th) (a : BitVec 6) : BitVec 16 :=
  if a = 52 then (s.warp t.wid).hyp else (s.src c t a 0).val.extractLsb' 0 16

/-- A unit asks the home slice and is held for its reply (R264). -/
def State.ask (s : State) (c : Ctx) (act : List Th) (kind : Nat) (f : FH) : State :=
  let p := match act with
    | t :: _ => s.partOf t.wid
    | [] => 0
  let r : HypReq :=
    { mem := c.u.mem, kind := kind, part := p, handles := act.map fun t => (t.wid, t.lane, s.hypOpd c t f.a),
      dst := if kind = 0 then act.map fun t => (t.wid, t.lane, s.dreg c t f.d) else [], words := c.tval, len := c.len }
  let s := s.setSt c.u fun g => { g with st := .asking }
  { s with hreqs := s.hreqs.put s.nextId r, nextId := s.nextId + 1 }

/-- R265. -/
def execHnew (f : FH) (s : State) : StepOut :=
  let k : Checks := { q := f.q, ill := illOf (f.f7 ≠ 0) false, opd := opdV f.x [f.d, f.a] [f.d] [], a := srcAny f.a,
                      d := dst1 f.d }
  syncInstr s (.hnew f) k fun c act => s.ask c act 0 f

/-- R266. -/
def execHset (f : FH) (s : State) : StepOut :=
  let k : Checks := { q := f.q, ill := illOf (f.f7 ≠ 0) false, opd := opdV f.x [f.a] [] [], a := srcAny f.a, split := some 1 }
  syncInstr s (.hset f) k fun c act => s.ask c act 1 f

/-- R268: HCONF is a release before its requests. -/
def execHconf (f : FH) (s : State) : StepOut :=
  let k : Checks := { q := f.q, ill := illOf (f.f7 ≠ 0) false, opd := opdV f.x [f.a] [] [], a := srcAny f.a }
  syncInstr s (.hconf f) k fun c act =>
    match s.releaseHold c act with
    | some s' => s'
    | none => s.ask c act 3 f

/-- R268. -/
def execHref (f : FH) (s : State) : StepOut :=
  let k : Checks := { q := f.q, ill := illOf (f.f7 ≠ 0) false, opd := opdV f.x [f.a] [] [], a := srcAny f.a }
  syncInstr s (.href f) k fun c act => s.ask c act 4 f

/-! ### HGET, HCHK, HWAIT (R267, R270) -/

/-- The resolution that took a handle down. -/
def Part.resOf (P : Part) (h : BitVec 16) : Option Resolution :=
  (P.res.find? fun r => r.2.ids.contains h).map (·.2)

/-- The state of a handle in the replica of a core (R267). -/
def Part.replica (P : Part) (core : Nat) (h : BitVec 16) : Word :=
  let place := Place.core core
  let n := P.node (hypId h)
  let gone : Word := 0x02000000
  let body (st : Nat) : Word :=
    let up := (P.effHyp place n.parent).getD n.parent
    BitVec.ofNat 32 (2 ^ 24 * st + 2 ^ 20 * (P.chainAt place h 17).length + up.toNat)
  if hypId h = 0 then (if h = 0 then 0 else gone)
  else if n.gen ≠ hypGen h || n.st = .free then gone
  else
    match P.resOf h with
    | none => body 0
    | some r => if !(r.at_ place) then body 0 else if r.complete then gone else body 1

/-- R267. -/
def execHget (f : FH) (s : State) : StepOut :=
  let k : Checks := { q := f.q, ill := illOf (f.f7 ≠ 0) false, opd := opdV f.x [f.d, f.a] [f.d] [], a := srcAny f.a,
                      d := dst1 f.d }
  syncInstr s (.hget f) k fun c act =>
    (s.commit c f.d (act.map fun t =>
      let P := s.part (s.partOf t.wid)
      (t, out1 0 (P.replica (P.localCore (s.warp t.wid).core) (s.hypOpd c t f.a))))).advance c.u c.len

/-- R270. -/
def execHchk (f : FH) (s : State) : StepOut :=
  let k : Checks := { q := f.q, ill := illOf (f.f7 ≠ 0) false, opd := opdV f.x [f.d] [f.d] [], d := dst1 f.d }
  syncInstr s (.hchk f) k fun c act =>
    (s.commit c f.d (act.map fun t => (t, out1 1 (if (s.warp t.wid).orphan then 1 else 0)))).advance c.u c.len

/-- What HWAIT answers for a handle as it stood when the wait began (`mark`, log 90): none while its resolution is not
complete, 0 for one whose id had been allocated again by then (R270). -/
def Part.outcomeOf (P : Part) (mark : Nat) (h : BitVec 16) : Option Nat :=
  let n := P.node (hypId h)
  match P.resOf h with
  | some r =>
    if !r.complete then none
    else if r.reused.any fun x => x.1 = h && x.2 < mark then some 0
    else some (if r.confirm then 1 else 2)
  | none => if hypId h = 0 || n.gen ≠ hypGen h || n.st = .free then some 0 else none

/-- R270. -/
def execHwait (f : FH) (s : State) : StepOut :=
  let k : Checks := { q := f.q, ill := illOf (f.f7 ≠ 0) false, opd := opdV f.x [f.d, f.a] [f.d] [], a := srcAny f.a,
                      d := dst1 f.d }
  syncInstr s (.hwait f) k fun c act =>
    let out (t : Th) : Option Nat := (s.part (s.partOf t.wid)).outcomeOf (s.waitMark c.u) (s.hypOpd c t f.a)
    if act.all fun t => (out t).isSome then
      let acq := act.filter fun t => (out t).getD 0 ≠ 0
      match s.acqHold c acq with
      | some s' => s'
      | none =>
        ((s.acquire acq).commit c f.d (act.map fun t => (t, out1 1 (BitVec.ofNat 32 ((out t).getD 0))))).advance c.u c.len
    else (s.markUnit c.u).unmet c.u .blocked

/-! ### The home slice's judgement (R264 to R269) -/

/-- A request that fails: its cause and the threads that made it. -/
structure HypFail where
  cause : Nat
  who : List Th
  deriving DecidableEq, Repr

/-- The threads of a request. -/
def HypReq.threads (r : HypReq) (p : Nat × Nat × BitVec 16 → Bool) : List Th :=
  (r.handles.filter p).map fun x => { wid := x.1, lane := x.2.1 }

/-- The home warps of a request, each with the handle of its lowest active lane, in lane order (R265, R266). -/
def HypReq.perWarp (r : HypReq) : List (Nat × BitVec 16) :=
  (r.handles.map (·.1)).eraseDups.map fun wid => (wid, ((r.handles.find? fun x => x.1 = wid).map fun x => x.2.2).getD 0)

/-- The distinct handles of a request in lane order (R268). -/
def HypReq.distinct (r : HypReq) : List (BitVec 16) := (r.handles.map (·.2.2)).eraseDups

/-- The depths of live ids as their chains give them (log entry 19). -/
def Part.redepth (P : Part) : Part :=
  { P with hyp := P.hyp.map fun (x : Nat × HypNode) =>
      (x.1, if x.2.st = .live then { x.2 with depth := P.depthOf (mkHandle x.1 x.2.gen) } else x.2) }

/-- A resolution after an allocation: a handle `h` that it took down is stale from `now` on, and one of the new handle's name
is forgotten (R294). -/
def Resolution.reuse (r : Resolution) (h new : BitVec 16) (now : Nat) : Resolution :=
  { r with ids := r.ids.filter (· ≠ new),
           reused := if r.ids.contains h then (h, now) :: r.reused else r.reused.filter fun x => x.1 ≠ new }

/-- HNEW under a handle (R265): the partition after it and the new handle, or the cause that stops it. -/
def Part.hnew (P : Part) (now : Nat) (h : BitVec 16) : Except Nat (Part × BitVec 16) :=
  if !(P.validH h) then .error (cz 0x28 1)
  else if 15 ≤ P.depthOf h then .error (cz 0x2B 0)
  else
    match ((List.range 255).map (· + 1)).find? fun i => (P.node i).st = .free || (P.node i).st = .gone with
    | none => .error (cz 0x2C 0)
    | some i =>
      let gen := (P.node i).gen + 1
      let new := mkHandle i gen
      let res := (P.res.filter fun r => !(r.2.confirm && r.2.handle = new)).map fun r =>
        (r.1, r.2.reuse (mkHandle i (P.node i).gen) new now)
      .ok ({ P with hyp := P.hyp.put i { gen := gen, st := .live, parent := h, depth := P.depthOf h + 1 }, res := res }, new)

/-- HNEW for each home warp, as one batch. -/
def Part.hnews (P : Part) (now : Nat) (r : HypReq) : List (Nat × BitVec 16) → Except HypFail (Part × List (Nat × BitVec 16))
  | [] => .ok (P, [])
  | x :: xs =>
    match P.hnew now x.2 with
    | .error c => .error { cause := c, who := r.threads fun y => y.1 = x.1 }
    | .ok (P', h) =>
      match P'.hnews now r xs with
      | .error f => .error f
      | .ok (P'', l) => .ok (P'', (x.1, h) :: l)

/-- Handles of a node and its live descendants at the home slice. -/
def Part.subtree (P : Part) (h : BitVec 16) : List (BitVec 16) :=
  h :: ((P.hyp.filter fun x => x.2.st = .live && x.1 ≠ hypId h && (P.homeChain (mkHandle x.1 x.2.gen)).contains (hypId h)).map
    fun x => mkHandle x.1 x.2.gen)

/-- A resolution accepted (R269): its ids are resolving from now on. -/
def Part.resolve (P : Part) (confirm : Bool) (h : BitVec 16) (key : Nat) : Except Nat Part :=
  if hypId h = 0 && h = 0 then .error (cz 0x28 2)
  else if !(P.validH h) then .error (cz 0x28 1)
  else
    let ids := if confirm then [h] else P.subtree h
    let r : Resolution := { confirm := confirm, handle := h, parent := P.homeParent h, ids := ids }
    .ok ({ P with
      res := P.res.put key r
      hyp := P.hyp.map fun (x : Nat × HypNode) => (x.1, if ids.contains (mkHandle x.1 x.2.gen) then
        { x.2 with st := .resolving, outcome := if confirm then 1 else 2 } else x.2) }).redepth

/-- The resolutions of one instruction, as one batch (R268). -/
def Part.resolves (P : Part) (confirm : Bool) (r : HypReq) (key : Nat) : List (BitVec 16) → Except HypFail Part
  | [] => .ok P
  | h :: hs =>
    match P.resolve confirm h key with
    | .error c => .error { cause := c, who := r.threads fun y => y.2.2 = h }
    | .ok P' => P'.resolves confirm r (key + 1) hs

/-- The units that a request holds. -/
def State.askUnits (s : State) (r : HypReq) : List IssueUnit :=
  (r.mem.map fun p => s.unitAt { wid := p.1, sliver := p.2 }).eraseDups

/-- A reply: the request is gone and its unit may go on. -/
def State.replied (s : State) (id : Nat) (r : HypReq) : State :=
  let s := { s with hreqs := s.hreqs.del id }
  (r.mem.foldl (fun s p => s.onSliver p.1 p.2 fun g => { g with st := .running }) s)

/-- The instruction of a request retires. -/
def State.askDone (s : State) (id : Nat) (r : HypReq) : State :=
  let s := s.replied id r
  (s.askUnits r).foldl (fun s u => s.advance u r.len) s

/-- The instruction of a request traps (R264, R397). -/
def State.askTrap (s : State) (id : Nat) (r : HypReq) (f : HypFail) : State :=
  let s := s.replied id r
  let h := ((r.handles.find? fun x => f.who.contains { wid := x.1, lane := x.2.1 }).map (·.2.2)).getD 0
  let tval : DWord := if f.cause / 8 = 0x28 then h.zeroExtend 64 else r.words
  (s.askUnits r).foldl (fun s u =>
    s.takeTrap u { cause := f.cause, tval := tval, mask := u.th.filter f.who.contains } r.len) s

/-- The new handles written (R265). -/
def State.hnewWrite (s : State) (r : HypReq) (l : List (Nat × BitVec 16)) : State :=
  r.dst.foldl (fun s d =>
    s.setReg { wid := d.1, lane := d.2.1 } d.2.2
      { val := BitVec.setWidth 32 (((l.find? fun (x : Nat × BitVec 16) => x.1 = d.1).map fun x => x.2).getD 0), tag := 2 }) s

/-- HYP_REQUEST_AT_HOME (R264, R268, R269). -/
def execHypRequestAtHome (id : Nat) (s : State) : Host.Outcome State Fault Refusal :=
  .next (match s.hreqs.find id with
    | none => s
    | some r =>
      let P := s.part r.part
      if !(s.hypDelivered r) then s
      else match r.kind with
      | 0 => match P.hnews s.nextId r r.perWarp with
        | .error f => s.askTrap id r f
        | .ok (P', l) => (({ s with nextId := s.nextId + 1 }.onPart r.part fun _ => P').hnewWrite r l).askDone id r
      | 1 =>
        match r.perWarp.find? fun x => !(P.validH x.2) with
        | some x => s.askTrap id r { cause := cz 0x28 1, who := r.threads fun y => y.1 = x.1 }
        | none =>
          (r.perWarp.foldl (fun s x => s.onWarp x.1 fun w =>
            { w with hyp := x.2, anc := ancMask (P.homeChain x.2), orphan := false }) s).askDone id r
      | k =>
        match P.resolves (k = 3) r s.nextId r.distinct with
        | .error f => s.askTrap id r f
        | .ok P' =>
          let s := { s with nextId := s.nextId + r.distinct.length }
          (s.onPart r.part fun _ => P').askDone id r)

/-! ### Wavefronts (R268, R300) -/

/-- Versions of a confirmed handle at a slice join its parent, or the committed lines (R300). -/
def State.mergeVersion (s : State) (p : Nat) (r : Resolution) (v : Version) : State :=
  let s := { s with vers := s.vers.filter (· ≠ v) }
  let bytes := ((List.range 32).filter fun i => v.mask.getLsbD i).map fun i => (i, Memory.rd v.data i)
  let va := BitVec.ofNat 64 (v.sector * 32)
  if hypId r.parent ≠ 0 then s.versionJoin p v.asid r.parent (v.sector * 32) bytes
  else
    let t := s.translate p v.asid va .store
    match t.2, (s.part p).homeTile va with
    | .ok lf, some tile => t.1.slicePut p v.asid va tile lf bytes
    | .error f, _ => t.1.versionLost p v.asid va f
    | .ok _, none => t.1.versionLost p v.asid va (noWalk (cz 0x11 3))

/-- A resolution at a slice (R300). -/
def State.waveSlice (s : State) (p home : Nat) (r : Resolution) : State :=
  if r.confirm then
    (s.vers.filter fun v => v.part = p && (s.part p).homeOf v = home && v.hyp = r.handle).foldl (fun s v => s.mergeVersion p r v) s
  else { s with vers := s.vers.filter fun v => !(v.part = p && (s.part p).homeOf v = home && r.ids.contains v.hyp) }

/-- A resolution at a slice stalls: a version that it merges into the root lies in a page whose bias flips, or the record that
the merge may make does (R100, R389). -/
def State.waveStalls (s : State) (p : Nat) (r : Resolution) : Place → Bool
  | .slice home => r.confirm && hypId r.parent = 0 && s.vers.any fun v =>
      v.part = p && (s.part p).homeOf v = home && v.hyp = r.handle &&
      (s.flipping p v.asid (BitVec.ofNat 64 (v.sector * 32)) || s.fqHeld p)
  | .core _ => false

/-- One aligned 8 bytes of a confirmed id's copy over its parent's (R95, R268): what the core wrote as a version stands; of the
rest the one copy that has any stays, and where two differ neither does (R76, R81; log 88). -/
def L1Line.overUnit (l up : L1Line) (u : Nat) : L1Line :=
  let m := byteMask (8 * u) 8 &&& ~~~(wordBytesMask up.owned)
  let a := up.valid &&& m
  let new := l.valid &&& l.ver &&& m
  let b := l.valid &&& m &&& ~~~new
  let is := (List.range 8).map (8 * u + ·)
  let same := a = b && is.all fun i => !(a.getLsbD i) || Memory.rd l.data i = Memory.rd up.data i
  let take := if a = 0 then b ||| new else new
  { up with
    valid := (if a = 0 || b = 0 || same then up.valid else up.valid &&& ~~~m) ||| take
    ver := up.ver ||| new
    data := (is.filter fun i => take.getLsbD i).foldl (fun d i => Memory.wr d i (Memory.rd l.data i)) up.data }

/-- An L1 copy of a confirmed id over its parent's copy (R268). -/
def L1Line.overlay (up l : L1Line) : L1Line := (List.range 16).foldl (fun up u => l.overUnit up u) up

/-- The copy under its new id: the root has no versions. -/
def L1Line.under (l : L1Line) (hid : Nat) : L1Line := { l with hid := hid, ver := if hid = 0 then 0 else l.ver }

/-- One L1 copy retagged to a parent; a root copy gives back first the words that the core owns in the line (R79, R300). -/
def State.retag (s : State) (pid : Nat) (l : L1Line) : State :=
  let s := { s with l1 := s.l1.filter (· ≠ l) }
  match s.l1Find l.core l.part l.asid l.line pid with
  | none => s.l1Put (l.under pid)
  | some up =>
    let s := if up.owned = 0 then s else (s.l1Evict up)
    let up := (s.l1Find l.core l.part l.asid l.line pid).getD { up with owned := 0, dirty := 0 }
    s.l1Put ((up.overlay l).under pid)

/-- A resolution at a core (R268, R300). -/
def State.waveCore (s : State) (p core : Nat) (r : Resolution) : State :=
  let ids := r.ids.map hypId
  let mine (l : L1Line) : Bool := l.core = core && l.part = p && ids.contains l.hid
  let s := if r.confirm then (s.l1.filter mine).foldl (fun s l => s.retag (hypId r.parent) l) s
    else { s with l1 := s.l1.filter fun l => !(mine l) }
  { s with warps := s.warps.map fun x =>
      (x.1, if x.2.core = core && s.partOf x.1 = p then
        { x.2 with
          anc := ids.foldl (fun m i => m &&& ~~~(1#256 <<< i)) x.2.anc
          hyp := if r.confirm && x.2.hyp = r.handle then r.parent else x.2.hyp
          orphan := x.2.orphan || (!r.confirm && x.2.anc.getLsbD (hypId r.handle)) } else x.2) }

/-- The core of a partition's local number. -/
def Part.coreAt (P : Part) (k : Nat) : Nat := 4 * P.tiles.getD (k / 4) 0 + k % 4

/-- A resolution applied at a place. -/
def State.wave (s : State) (p key : Nat) (place : Place) (r : Resolution) : State :=
  let P := s.part p
  let s' := match place with
    | .slice t => s.waveSlice p t r
    | .core k => s.waveCore p (P.coreAt k) r
  (s'.onPart p fun P => { P with
    res := P.res.put key { r with
      applied := r.applied ++ [place]
      marks := match place with
        | .slice _ => r.marks
        | .core k => (k, s.nextId) :: r.marks } })

/-- The places of a partition (R300). -/
def Part.places (P : Part) : List Place :=
  (List.range P.tiles.length).map Place.slice ++ (List.range (4 * P.tiles.length)).map Place.core

/-- HYP_WAVEFRONT (R300): in the order of acceptance at each place (R269). -/
def execHypWavefront (part res : Nat) (place : Place) (s : State) : Host.Outcome State Fault Refusal :=
  .next (match (s.part part).res.find res with
    | some r =>
      let P := s.part part
      if !r.complete && !(r.applied.contains place) && P.places.contains place && !(s.waveStalls part r place) &&
          (P.res.all fun x => !(x.1 < res) || x.2.complete || x.2.applied.contains place) then s.wave part res place r
      else s
    | none => s)

/-- A handle is that of a resolution or of a descendant of it. -/
def Part.under (P : Part) (r : Resolution) (h : BitVec 16) : Bool :=
  r.ids.contains h || (P.chainBy (fun _ => false) h 17).contains (hypId r.handle)

/-- A core has acknowledged a wavefront (R300): no version write that it issued earlier under the handle or a descendant
is on its way. -/
def State.waveAcked (s : State) (p : Nat) (r : Resolution) (k mark : Nat) : Bool :=
  let P := s.part p
  (s.accs.all fun a => !(a.2.iid < mark && a.2.kind = .st && a.2.part = p && a.2.core = P.coreAt k && P.under r a.2.hyp &&
    a.2.st ≠ .answered && a.2.st ≠ .faulted)) &&
  (s.ops.all fun o => !(o.1 < mark && o.2.part = p && o.2.core = P.coreAt k && o.2.stalled.isSome && P.under r o.2.hyp))

/-- Every place of the partition has applied a resolution and acknowledged it. -/
def State.resDone (s : State) (p : Nat) (r : Resolution) : Bool :=
  ((s.part p).places.all r.applied.contains) && r.marks.all fun m => s.waveAcked p r m.1 m.2

/-- The table after a resolution is complete: its ids are gone, and children of a confirmed id name its parent. -/
def Part.hypGone (P : Part) (key : Nat) (r : Resolution) : Part :=
  let later (h : BitVec 16) : Bool := P.res.any fun x => key < x.1 && x.2.ids.contains h
  { P with
    res := P.res.put key { r with complete := true }
    hyp := P.hyp.map fun (x : Nat × HypNode) =>
      let h := mkHandle x.1 x.2.gen
      let n := if r.ids.contains h then { x.2 with st := .gone } else x.2
      (x.1, if r.confirm && n.parent = r.handle && (n.st = .live || later h) then { n with parent := r.parent } else n) }

/-- HYP_RESOLUTION_COMPLETE (R300). -/
def execHypResolutionComplete (part res : Nat) (s : State) : Host.Outcome State Fault Refusal :=
  .next (match (s.part part).res.find res with
    | some r =>
      if !r.complete && s.resDone part r then
        let s := s.onPart part fun P => P.hypGone res r
        { s with warps := s.warps.map fun (x : Nat × Warp) =>
            (x.1, if s.partOf x.1 = part then { x.2 with latch := x.2.latch ||| 0x8 } else x.2) }
      else s
    | none => s)

/-- The state of a saved `%hyp` as the home slice gives it at restore (R305): the handle and whether it is orphaned. -/
def Part.rebuildHyp (P : Part) (h : BitVec 16) : Nat → BitVec 16 × Bool
  | 0 => (h, true)
  | n + 1 =>
    let x := P.node (hypId h)
    if P.validH h then (h, false)
    else if hypId h = 0 || x.gen ≠ hypGen h || x.outcome ≠ 1 then (h, true)
    else P.rebuildHyp (((P.resOf h).map (·.parent)).getD x.parent) n

end Sys2Proof.Machine
end

