-- ==== Sys2Proof/Machine/Mill.lean ====
section
/-! DEFINITION. The accumulator store's operations: their order, CPYA and the epilogue, ACCLR, and the passes of the mill
with its arbiter, its scales and its redundant mode (R113, R122, R259 to R261, R280 to R292). -/
namespace Sys2Proof.Machine

/-! ### The accumulator store (R71, R113) -/

/-- The name of a cell of a tile's store: absolute row and column. -/
def accKey (tile row col : Nat) : Nat := tile * 2 ^ 18 + row * 512 + col

/-- The name of the subtile that holds a cell. -/
def accTagKey (tile row col : Nat) : Nat := tile * 64 + 8 * (row / 64) + col / 64

def State.accCell (s : State) (tile row col : Nat) : Word := s.acc.getD (accKey tile row col) 0

/-- A subtile's tag; one that nothing has written is F32 (R21, R113). -/
def State.subTag (s : State) (tile row col : Nat) : BitVec 4 := s.accTag.getD (accTagKey tile row col) 3

def State.setSubTag (s : State) (tile row col tag : Nat) : State :=
  { s with accTag := s.accTag.put (accTagKey tile row col) (BitVec.ofNat 4 tag) }

/-- A cell written; an uncorrectable error of what it replaces is gone (R433). -/
def State.setCell (s : State) (tile row col : Nat) (v : Word) : State :=
  { s with acc := s.acc.put (accKey tile row col) v
           upsets := s.upsets.filter fun u => u ≠ .accumulator tile row col }

def State.cellUpset (s : State) (tile row col : Nat) : Bool := s.upsets.contains (.accumulator tile row col)

/-- The absolute first row of an operation's region. -/
def State.firstRow (s : State) (o : EngineOp) : Nat := (s.block o.bid).accbase + o.region.1

/-! ### The order of R288 -/

/-- An operation writes the store. -/
def EngineOp.writesAcc (o : EngineOp) : Bool := o.kind ≠ 3 || o.isLoad

/-- Two operations' regions overlap and at least one writes. -/
def State.accClash (s : State) (o p : EngineOp) : Bool :=
  let a := o.region
  let b := p.region
  o.tile = p.tile && (o.writesAcc || p.writesAcc) &&
    meets (s.firstRow o) (s.firstRow o + a.2.1) (s.firstRow p) (s.firstRow p + b.2.1) &&
    meets a.2.2.1 (a.2.2.1 + a.2.2.2) b.2.2.1 (b.2.2.1 + b.2.2.2)

/-- An earlier queued operation of the tile is in the way. -/
def State.accBlocked (s : State) (o : EngineOp) : Bool :=
  s.ops.any fun p => p.2.onAccStore && p.2.placed && p.2.seq < o.seq && s.accClash o p.2

/-- The subtiles of an operation's region, by a cell of each. -/
def State.subtiles (s : State) (o : EngineOp) : List (Nat × Nat) :=
  let r := o.region
  let r0 := s.firstRow o
  (List.range 8).flatMap fun i => ((List.range 8).filter fun j =>
    meets (64 * i) (64 * i + 64) r0 (r0 + r.2.1) && meets (64 * j) (64 * j + 64) r.2.2.1 (r.2.2.1 + r.2.2.2)).map
      fun j => (64 * i, 64 * j)

/-- The cell tag of an MMA's formats (R281). -/
def EngineOp.millTag (o : EngineOp) : Nat := if o.u 24 1 = 9 then 1 else 3

/-- MMA accumulates into the cells. -/
def EngineOp.accumulates (o : EngineOp) : Bool := o.u 26 1 % 2 = 1

/-- The detail 5 check at an operation's turn, with the offset of the field it reports (R113, R259, R282; log entry 18). -/
def State.turnFail (s : State) (o : EngineOp) : Option Nat :=
  let all (tag : Nat) : Bool := (s.subtiles o).all fun x => s.subTag o.tile x.1 x.2 = BitVec.ofNat 4 tag
  match o.kind with
  | 3 => if !o.fmtFits || (!o.isLoad && !(all o.accTagOf)) then some 29 else none
  | 4 | 5 => if o.accumulates && !(all o.millTag) then some 26 else none
  | _ => none

/-- ACCLR's effect (R260). -/
def State.accClear (s : State) (o : EngineOp) : State :=
  let r := o.region
  let s := (List.range r.2.1).foldl (fun s i =>
    (List.range r.2.2.2).foldl (fun s j => s.setCell o.tile (s.firstRow o + i) (r.2.2.1 + j) 0) s) s
  (s.subtiles o).foldl (fun s x => s.setSubTag o.tile x.1 x.2 (o.u 16 1)) s

/-- An operation's turn has come: its tag check, then ACCLR acts, and a CPYA store announces its bytes (R50, R288). -/
def State.accTurn (s : State) (id : Nat) (o : EngineOp) : State :=
  match s.turnFail o with
  | some off =>
    s.onOp id fun o => { o with st := .failed, hasErr := true, cause := cz 0x21 5, info := BitVec.ofNat 64 off }
  | none =>
    if o.kind = 6 then (s.accClear o).onOp id fun o => { o with begun := true, st := .landed }
    else
      let s := if o.arrives && o.startsLate then (s.barUpdate o.bid o.bar 0 (s.totalOf o) 0).1 else s
      s.onOp id fun o => { o with begun := true }

/-- ACC_OP_TURN (R288). -/
def execAccOpTurn (op : Nat) (s : State) : Host.Outcome State Fault Refusal :=
  .next (match s.ops.find op with
    | some o =>
      if o.onAccStore && o.st = .running && !o.begun && !(s.accBlocked o) && s.engMayRead op o then s.accTurn op o else s
    | none => s)

/-! ### The epilogue (R291, R292) -/

/-- The scale code of a row of a CPYA store; none without a scale. -/
def State.rowScale (s : State) (o : EngineOp) (r : Nat) : Option Nat :=
  match o.u 30 1 with
  | 1 => some (o.u 31 1)
  | 2 => some (leNat (s.rdScratch o.bid (o.u 32 4 + r) 1))
  | _ => none

/-- The value of a cell under an accumulator tag. -/
def cellVal (tag : Nat) (v : Word) : FVal := if tag = 1 then .ofInt (int v) else val32 v

/-- A value divided by its scale 2^(code - 127); a code of 0xFF gives NaN. -/
def descale (x : FVal) : Option Nat → FVal
  | none => x
  | some c => if c = 0xFF then .nan else x.scale (127 - (c : Int))

/-- One element of a CPYA store, with its effects. -/
def EngineOp.element (o : EngineOp) (scale : Option Nat) (v : Word) : Nat × Effects :=
  if (o.memTag = 3 || o.memTag = 1) && o.u 30 1 = 0 then (v.toNat, fxNone)
  else convElem o.memTag (BitVec.ofNat 2 (o.u 36 1)) (descale (cellVal o.accTagOf v) scale)

/-- Word j of a row of a CPYA store, and how many of its elements were clamped. -/
def State.epiWord (s : State) (o : EngineOp) (r j : Nat) : Nat × Nat :=
  let n := (tagShape o.memTag).1
  let es := (List.range n).map fun e =>
    o.element (s.rowScale o r) (s.accCell o.tile (s.firstRow o + r) (o.region.2.2.1 + n * j + e))
  (packElems (tagShape o.memTag).2 (es.map (·.1)), (es.map (·.2.ov)).foldl (· + ·) 0)

/-- The cells behind a word of a row hold an uncorrectable error. -/
def State.epiUpset (s : State) (o : EngineOp) (r j : Nat) : Bool :=
  let n := (tagShape o.memTag).1
  (List.range n).any fun e => s.cellUpset o.tile (s.firstRow o + r) (o.region.2.2.1 + n * j + e)

/-- The memory address an offset above `maddr`. -/
def EngineOp.memAt (o : EngineOp) (n : Nat) : Loc := (locOf o.memScr o.bid (o.u 8 8)).plus n

/-- Row and word of the next word of a CPYA store; the count word stands in the row after the last. -/
def EngineOp.storeAt (o : EngineOp) : Nat × Nat := (o.done / o.rowBytes, o.done % o.rowBytes / 4)

/-- One word of a CPYA store: the state and whether it goes on. -/
def State.storeWord (s : State) (id : Nat) (o : EngineOp) : State × Bool :=
  let p := o.storeAt
  let last := o.countWord && p.1 = o.region.2.1
  let r := p.1
  let j := p.2
  let l := o.memAt (r * o.u 24 4 + 4 * j)
  if !last && s.epiUpset o r j then (s.failOp id (noWalk (cz 0x17 4)) 0, false)
  else if !last && o.u 30 1 = 2 && s.scratchUpset o.bid (o.u 32 4 + r) 1 then
    (s.failOp id (noWalk (cz 0x17 3)) (BitVec.ofNat 64 (o.u 32 4 + r)), false)
  else
    let v : Nat × Nat := if last then (o.sat, 0) else s.epiWord o r j
    match s.engWrite o l (natLe 4 v.1) with
    | .done s => ((s.onOp id fun o => { o with sat := o.sat + v.2 }).landed id { o with sat := o.sat + v.2 } 4, true)
    | .fault s f => (s.failOp id f l.addr, false)
    | .wait s full => (if full then s.stallOp id o l.addr else s, false)

/-- Four bytes that an engine reads. -/
def State.engWord (s : State) (o : EngineOp) (l : Loc) : Nat → State × Except (WalkFail × Loc) (List Byte)
  | 0 => (s, .ok [])
  | n + 1 =>
    match s.engRead o l with
    | (s, .error f) => (s, .error (f, l))
    | (s, .ok b) =>
      match s.engWord o (l.plus 1) n with
      | (s, .ok bs) => (s, .ok (b :: bs))
      | (s, .error f) => (s, .error f)

/-- One cell of a CPYA load; a subtile takes the tag with its last cell. -/
def State.loadCell (s : State) (id : Nat) (o : EngineOp) : State × Bool :=
  let w := o.done / 4
  let r := w / o.region.2.2.2
  let c := w % o.region.2.2.2
  match s.engWord o (o.memAt (r * o.u 24 4 + 4 * c)) 4 with
  | (s, .error f) => (if f.1.cause = 0 then s else s.failOp id f.1 f.2.addr, false)
  | (s, .ok bs) =>
    let row := s.firstRow o + r
    let col := o.region.2.2.1 + c
    let s := s.setCell o.tile row col (BitVec.ofNat 32 (leNat bs))
    let s := if row % 64 = 63 && col % 64 = 63 then s.setSubTag o.tile row col o.accTagOf else s
    (s.onOp id fun o => { o with done := o.done + 4 }, true)

/-- Words of a CPYA until so many bytes are done. -/
def State.cpyaLand (s : State) (id goal : Nat) : Nat → State
  | 0 => s
  | fuel + 1 =>
    match s.ops.find id with
    | none => s
    | some o =>
      if o.st ≠ .running then s
      else if o.total ≤ o.done then s.onOp id fun o => { o with st := .landed }
      else if goal ≤ o.done then s
      else
        let r := if o.isLoad then s.loadCell id o else s.storeWord id o
        if r.2 then r.1.cpyaLand id goal fuel else r.1

/-- HYP_CAPACITY_TIMEOUT (R262, R296): a version write that has waited 65,536 ticks of its slice faults. -/
def execHypCapacityTimeout (id : Nat) (s : State) : Host.Outcome State Fault Refusal :=
  .next (match s.accs.find id, s.ops.find id with
    | some a, _ => match a.st with
      | .waiting t _ => if t + 65536 ≤ s.sliceTick a.part a.va then s.capacityFail id a 0 else s
      | _ => s
    | none, some o => match o.stalled with
      | some w => if w.since + 65536 ≤ s.sliceTick o.part w.va then s.opCapacityFail id o 0 else s
      | none => s
    | none, none => s)

/-- COPY_CHUNK_LAND (R254, R257, R259): more of a copy, of a flood in one target, or of a CPYA lands. -/
def execCopyChunkLand (op bid n : Nat) (s : State) : Host.Outcome State Fault Refusal :=
  .next (match s.ops.find op with
    | some o =>
      if o.st = .running && o.begun && s.engMayRead op o then
        match o.form with
        | 3 => s.cpyaLand op (o.done + n) (n + 2)
        | 7 => s.floodLand op bid n o
        | 0 | 1 | 2 => s.copyLand op (s.landGoal op o n) (n + 2)
        | _ => s
      else s
    | none => s)

/-! ### The mill (R122, R281 to R290) -/

/-- Elements of one operand in a run of bytes, each with the offset of its first byte (R108, R281). -/
def millElems (fmt : Nat) (bs : List Byte) : List (Nat × Nat) :=
  match fmt with
  | 8 => bs.zipIdx.flatMap fun b => [(b.2, b.1.toNat % 16), (b.2, b.1.toNat / 16)]
  | 5 => (List.range (bs.length / 2)).map fun i => (2 * i, leNat ((bs.drop (2 * i)).take 2))
  | _ => bs.zipIdx.map fun b => (b.2, b.1.toNat)

/-- The scale code of the element at a scratch address (R284). -/
def State.millScale (s : State) (o : EngineOp) (ofA : Bool) (e : Nat) : Nat :=
  let base := o.u (if ofA then 40 else 48) 4
  if base = noAddr then 127
  else leNat (s.rdScratch o.bid (base + (e - o.u (if ofA then 8 else 16) 4) / 2 ^ o.u (if ofA then 44 else 45) 1) 1)

/-- An element times its scale. -/
def scaledVal (fmt code scale : Nat) : FVal := if scale = 0xFF then .nan else (elemVal fmt code).scale ((scale : Int) - 127)

/-- The elements of one K-step of a row of A or a column of B. -/
def State.millRow (s : State) (o : EngineOp) (ofA : Bool) (addr : Nat) : List FVal :=
  let fmt := o.u (if ofA then 24 else 25) 1
  (millElems fmt (s.rdScratch o.bid addr 256)).map fun e => scaledVal fmt e.2 (s.millScale o ofA (addr + e.1))

/-- The first byte of row i of A (R280, R286), and of column j of B. -/
def EngineOp.rowAt (o : EngineOp) (i : Nat) : Nat := o.u 8 4 + (if o.kind = 5 then o.gathered.getD i 0 else i) * o.u 12 4
def EngineOp.colAt (o : EngineOp) (j : Nat) : Nat := o.u 16 4 + j * o.u 20 4

/-- A cell after a pass (R122): the exact sum of the products and the prior value, rounded once in RNE; modulo 2^32 for
INT8. -/
def millCell (int8 : Bool) (a b : List FVal) (prior : Option Word) : Word :=
  let prods := (a.zip b).map fun x => (x.1.mul x.2).1
  if int8 then BitVec.ofInt 32 (sumOn 0 prods + (match prior with
    | some v => int v
    | none => 0))
  else
    (round32 0 (FVal.sum 0 (prods ++ match prior with
      | some v => [val32 v]
      | none => [])).1).1

/-- The pass that runs next: row block, column block and K-step (R283). -/
def EngineOp.triple (o : EngineOp) : Nat × Nat × Nat :=
  let mb := o.u 28 2 / 64
  let kb := o.u 32 4 / 256
  (o.passes % mb, o.passes / mb / kb, o.passes / mb % kb)

/-- Passes of an operation. -/
def EngineOp.allPasses (o : EngineOp) : Nat := o.u 28 2 / 64 * (o.u 30 2 / 64) * (o.u 32 4 / 256)

/-- An uncorrectable error in what a pass reads: its detail and scratch address. -/
def State.passUpset (s : State) (o : EngineOp) (mb nb ks : Nat) (prior : Bool) : Option (Nat × Nat) :=
  let bytes := ((List.range 64).map fun i => o.rowAt (64 * mb + i)) ++ (List.range 64).map fun j => o.colAt (64 * nb + j)
  match bytes.find? fun a => s.scratchUpset o.bid (a + 256 * ks) 256 with
  | some a => some (3, a + 256 * ks)
  | none =>
    let scales (ofA : Bool) (a : Nat) : Option Nat :=
      let base := o.u (if ofA then 40 else 48) 4
      if base = noAddr then none
      else ((List.range 256).map fun i =>
        base + (a + 256 * ks + i - o.u (if ofA then 8 else 16) 4) / 2 ^ o.u (if ofA then 44 else 45) 1).find?
          fun x => s.scratchUpset o.bid x 1
    match ((List.range 64).findSome? fun i => scales true (o.rowAt (64 * mb + i))),
        ((List.range 64).findSome? fun j => scales false (o.colAt (64 * nb + j))) with
    | some a, _ => some (3, a)
    | none, some a => some (3, a)
    | none, none =>
      if prior && ((List.range 64).any fun i => (List.range 64).any fun j =>
          s.cellUpset o.tile (s.firstRow o + 64 * mb + i) (o.region.2.2.1 + 64 * nb + j)) then some (4, 0) else none

/-- A pass writes its subtile (R283). -/
def State.passWrite (s : State) (o : EngineOp) (mb nb ks : Nat) (prior : Bool) : State :=
  let int8 := o.u 24 1 = 9
  let r0 := s.firstRow o + 64 * mb
  let c0 := o.region.2.2.1 + 64 * nb
  let as := (List.range 64).map fun i => s.millRow o true (o.rowAt (64 * mb + i) + 256 * ks)
  let bs := (List.range 64).map fun j => s.millRow o false (o.colAt (64 * nb + j) + 256 * ks)
  let cells := as.zipIdx.flatMap fun a => bs.zipIdx.map fun b =>
    (a.2, b.2, millCell int8 a.1 b.1 (if prior then some (s.accCell o.tile (r0 + a.2) (c0 + b.2)) else none))
  (cells.foldl (fun s x => s.setCell o.tile (r0 + x.1) (c0 + x.2.1) x.2.2) s).setSubTag o.tile r0 c0 o.millTag

/-- A failing pass of redundant mode (R290): its subtile stops being written, the tile's soft-error count grows. -/
def State.passFail (s : State) (id : Nat) (o : EngineOp) (mb nb : Nat) : State :=
  let s := { s with wafer := { s.wafer with soft := s.wafer.soft.put o.tile (s.wafer.soft.getD o.tile 0 + 1) } }
  if o.failedSub.contains (mb, nb) then s
  else
    let row := s.firstRow o + 64 * mb
    let col := o.region.2.2.1 + 64 * nb
    s.onOp id fun o =>
      { o with
        failedSub := (mb, nb) :: o.failedSub
        nfail := min 65535 (o.nfail + 1)
        hasErr := true
        cause := cz 0x22 0
        info := if o.hasErr then o.info else BitVec.ofNat 64 (row + 2 ^ 16 * col + 2 ^ 32 * o.passes) }

/-- The end of a pass: the next one, or the operation has landed, with the number of subtiles that failed (R290). -/
def State.passEnd (s : State) (id : Nat) : State :=
  s.onOp id fun o =>
    let o := { o with passes := o.passes + 1, turn := o.turn - 1 }
    if o.allPasses ≤ o.passes then
      { o with st := .landed, turn := 0,
               info := if o.hasErr then o.info + BitVec.ofNat 64 (2 ^ 48 * o.nfail) else o.info }
    else o

/-- The meter of an operation's format, and its elements per K-step (R281, R454). -/
def EngineOp.macMeter (o : EngineOp) : Nat :=
  match o.u 24 1 with
  | 8 => 1
  | 5 => 2
  | 9 => 3
  | _ => 0

def EngineOp.macStep (o : EngineOp) : Nat :=
  match o.u 24 1 with
  | 8 => 512
  | 5 => 128
  | _ => 256

/-- One pass of an operation; in redundant mode the two halves may differ. -/
def State.millRun (s : State) (id : Nat) (o : EngineOp) (mismatch : Bool) : State :=
  let t := o.triple
  let prior := o.accumulates || t.2.2 ≠ 0
  if o.f7.getLsbD 1 && mismatch then (s.passFail id o t.1 t.2.1).passEnd id
  else if o.failedSub.contains (t.1, t.2.1) then s.passEnd id
  else
    match s.passUpset o t.1 t.2.1 t.2.2 prior with
    | some x => s.failOp id (noWalk (cz 0x17 x.1)) (BitVec.ofNat 64 x.2)
    | none => ((s.passWrite o t.1 t.2.1 t.2.2 prior).passEnd id).meter o.part o.macMeter (4096 * o.macStep)

/-- Entries of a tile's reservation table. -/
def State.millEntries (s : State) (tile : Nat) : List (Nat × EngineOp) :=
  s.ops.filter fun o => o.2.tile = tile && (o.2.kind = 4 || o.2.kind = 5) && o.2.placed

/-- The effective priority of an entry (R287). -/
def EngineOp.effPrio (o : EngineOp) : Nat := min 63 (o.prio + o.granted / 64)

/-- The best of a list of entries: effective priority, then age (R287). -/
def bestEntry : List (Nat × EngineOp) → Option (Nat × EngineOp)
  | [] => none
  | x :: xs => match bestEntry xs with
    | none => some x
    | some y => if y.2.effPrio < x.2.effPrio || (x.2.effPrio = y.2.effPrio && x.2.seq < y.2.seq) then some x else some y

/-- The entry that the mill runs: the holder of a turn, else the arbiter's choice (R287). -/
def State.millGrant (s : State) (tile : Nat) : Option (Nat × EngineOp) :=
  let l := (s.millEntries tile).filter fun o => o.2.st = .running && o.2.begun
  match l.find? fun o => 0 < o.2.turn with
  | some o => some o
  | none => bestEntry l

/-- MILL_PASS (R283, R287): one pass of the granted operation of a tile. -/
def execMillPass (tile : Nat) (mismatch : Bool) (s : State) : Host.Outcome State Fault Refusal :=
  .next (match s.millGrant tile with
    | none => s
    | some (id, _) =>
      let s := s.onOp id fun o => if o.turn = 0 then { o with turn := 16, granted := 0 } else o
      let s := { s with ops := s.ops.map fun (x : Nat × EngineOp) =>
          (x.1, if x.1 ≠ id && x.2.tile = tile && (x.2.kind = 4 || x.2.kind = 5) && x.2.placed then
            { x.2 with granted := x.2.granted + 1 } else x.2) }
      match s.ops.find id with
      | some o => s.millRun id o mismatch
      | none => s)

end Sys2Proof.Machine
end

