-- ==== Sys2Proof/Machine/System.lean ====
section
/-! DEFINITION. Special registers, return from traps, TLBI, WIDLE and PARK (R60 to R69, R273 to R279, R387, R398, R401). -/
namespace Sys2Proof.Machine

/-! ### Special registers (R60 to R69) -/

/-- Who shares a special register (R63). -/
inductive Scope where
  | thread | warp | block | wide
  deriving DecidableEq, Repr

/-- A special register: 64 bits wide or not, its scope, its mode (0 U, 1 T, 2 P), its tag (R274). -/
structure SregInfo where
  wide : Bool := false
  scope : Scope
  mode : Nat := 0
  tag : BitVec 4 := 0
  deriving DecidableEq, Repr

/-- The map of R63. -/
def sregInfo (n : Nat) : Option SregInfo :=
  match n with
  | 0x000 | 0x001 | 0x002 => some { scope := .thread, tag := 2 }
  | 0x007 => some { scope := .warp, tag := 2 }
  | 0x003 | 0x004 => some { scope := .block, tag := 2 }
  | 0x005 | 0x006 | 0x008 => some { scope := .wide, tag := 2 }
  | 0x009 => some { wide := true, scope := .wide }
  | 0x010 | 0x011 => some { scope := .thread, tag := 2 }
  | 0x020 | 0x021 | 0x022 | 0x023 => some { scope := .thread }
  | 0x028 | 0x029 | 0x02A => some { scope := .thread, tag := 2 }
  | 0x100 | 0x101 => some { wide := true, scope := .wide }
  | 0x102 => some { scope := .wide, tag := 2 }
  | 0x200 | 0x201 => some { wide := true, scope := .wide }
  | 0x210 | 0x211 | 0x212 | 0x213 | 0x218 | 0x219 => some { scope := .warp, tag := 2 }
  | 0x21A | 0x21B | 0x220 => some { scope := .warp }
  | 0x228 | 0x229 => some { scope := .block, tag := 2 }
  | 0x230 => some { wide := true, scope := .wide }
  | 0x800 | 0x803 | 0x804 => some { scope := .warp, mode := 1 }
  | 0x801 | 0x802 | 0x805 => some { wide := true, scope := .warp, mode := 1 }
  | 0xC00 | 0xC01 => some { scope := .wide, mode := 2, tag := 2 }
  | 0xC02 => some { wide := true, scope := .wide, mode := 2 }
  | 0xC08 | 0xC09 | 0xC0A | 0xC0B => some { scope := .wide, mode := 2 }
  | _ => none

/-- A neighbour pointer (R69). -/
def State.nbrPointer (s : State) (p tile side : Nat) : Word :=
  match neighbour tile side with
  | none => 0x100
  | some t =>
    if !((s.part p).tiles.contains t) then 0x100
    else
      let a := s.siteOf tile
      let b := s.siteOf t
      let dx := ((b.1 : Int) - a.1) % 16
      let dy := ((b.2 : Int) - a.2) % 16
      BitVec.ofNat 32 (16 * dy.toNat + dx.toNat)

/-- `%gangshape` (R65). -/
def gangShape (d : KDesc) : Word := if d.perTile = 0 then 0 else BitVec.ofNat 32 (2 ^ 24 * d.perTile + 2 ^ 12 * d.gy + d.gx)

/-- The value of a special register for a thread (R62, R63, R274). -/
def State.sreg (s : State) (u : IssueUnit) (t : Th) (n : Nat) : DWord :=
  let w := s.warp t.wid
  let b := s.block w.bid
  let g := s.gang b.gid
  let l := s.launch g.lid
  let P := s.part l.part
  let z (x : Word) : DWord := x.zeroExtend 64
  let nat (x : Nat) : DWord := BitVec.ofNat 64 x
  match n with
  | 0x000 => nat t.lane
  | 0x001 => nat (t.lane / 4)
  | 0x002 => nat w.idx
  | 0x003 | 0x004 => nat b.rank
  | 0x005 => nat g.idx
  | 0x006 => z (gangShape l.desc)
  | 0x007 => nat w.role
  | 0x008 => z l.serial
  | 0x009 => l.params
  | 0x010 => nat u.depth
  | 0x011 => z (s.spReg t)
  | 0x020 | 0x021 | 0x022 | 0x023 => z (s.ixReg t (n - 0x020))
  | 0x028 | 0x029 | 0x02A => z (s.lcReg t (n - 0x028))
  | 0x100 => nat (s.tickOf w.core)
  | 0x101 => nat s.gtime
  | 0x102 => nat s.gtskew
  | 0x200 => (s.coreRegs w.core).tagmap
  | 0x201 => (s.coreRegs w.core).tagfail
  | 0x210 | 0x211 | 0x212 | 0x213 => nat (s.counter t.wid (n - 0x210))
  | 0x218 => z w.ovc
  | 0x219 => z w.nvc
  | 0x21A => z w.fpcr
  | 0x21B => z w.fpsr
  | 0x220 => w.hyp.zeroExtend 64
  | 0x228 => nat b.accbase
  | 0x229 => nat b.acclen
  | 0x230 => P.energy
  | 0x800 => z w.tcause
  | 0x801 => w.tpc
  | 0x802 => w.tval
  | 0x803 => z w.tmask
  | 0x804 => z w.tstat
  | 0x805 => w.trec
  | 0xC00 => nat l.part
  | 0xC01 => nat l.asid
  | 0xC02 => P.trapbase
  | 0xC08 | 0xC09 | 0xC0A | 0xC0B => z (s.nbrPointer l.part (w.core / 4) (n - 0xC08))
  | _ => 0

/-- ILL_OPERAND of SRD and SWR (R61, R144): an operand code's own details, or 4 for a number that is not in the map; which
where both apply is open (log entry 35). -/
def sregOpd (x : Word) (f : FS) (dst : List (BitVec 6)) : Option Nat :=
  oneOf [(0, dst.any dstBad), (2, f.m.getLsbD 0 && pairBad x f.d), (3, f.d = 55 && x.extractLsb' 6 26 ≠ 0),
    (4, (sregInfo f.sreg.toNat).isNone)]

/-- PRIV of SRD and SWR (R61). -/
def sregPriv (trap write : Bool) (n : Nat) : Option Nat :=
  match (sregInfo n).map (·.mode) with
  | some 1 => if trap then none else some 0
  | some 2 => if write then some 2 else if trap then none else some 1
  | _ => none

/-- R273, R274. -/
def execSrd (f : FS) (s : State) : StepOut :=
  let n := f.sreg.toNat
  let w := f.m.getLsbD 0
  let k : Checks := { q := f.q, ill := illOf (f.m.extractLsb' 1 4 ≠ 0) false, opd := sregOpd f.x f [f.d],
                      priv := sregPriv (s.trapMode s.unit) false n, d := if w then dst2 f.d else dst1 f.d }
  syncInstr s (.srd f) k fun c act =>
    let info := (sregInfo n).getD { scope := .wide }
    (s.commit c f.d (act.map fun t =>
      let v := s.sreg c.u t n
      (t, if w then out2 0 v else out1 (if info.wide then 0 else info.tag) (v.extractLsb' 0 32)))).advance c.u c.len

/-- A thread-scope register written (R63); the reserved bits of an index register stay zero (R5, R53). -/
def State.setThreadSreg (s : State) (t : Th) (n : Nat) (v : Word) : State :=
  s.onWarp t.wid fun w =>
    match n with
    | 0x011 => { w with sp := w.sp.put t.lane v }
    | 0x020 | 0x021 | 0x022 | 0x023 => { w with ix := w.ix.put (4 * t.lane + (n - 0x020)) (v &&& 0x00FFFFFF) }
    | 0x028 | 0x029 | 0x02A => { w with lc := w.lc.put (4 * t.lane + (n - 0x028)) v }
    | _ => w

/-- A warp-scope register written (R63, R66): reserved bits stay zero (R5); a write of `%tpc` gives up its kept header
(R141). -/
def State.setWarpSreg (s : State) (wid n : Nat) (wide : Bool) (v : DWord) : State :=
  let lo : Word := v.extractLsb' 0 32
  s.onWarp wid fun w =>
    match n with
    | 0x218 => { w with ovc := lo }
    | 0x219 => { w with nvc := lo }
    | 0x21A => { w with fpcr := lo &&& 0x3 }
    | 0x21B => { w with fpsr := lo &&& 0x1F }
    | 0x801 => { w with tpc := if wide then v else w.tpc.extractLsb' 32 32 ++ lo, tkept := none }
    | _ => w

/-- The UNIFORM_SPLIT_WRITE rule of an SWR (R61): `%tpc` is judged against the trap-mode set (R469). -/
def sregSplit (n : Nat) : Option Nat :=
  match sregInfo n with
  | some i => if n = 0x801 then none else if i.scope = .warp || i.scope = .block then some 2 else none
  | none => none

/-- The unit does not hold the whole trap-mode set (R469). -/
def State.setSplit (s : State) (u : IssueUnit) : Bool := (widsOf u.th).any fun wid => !(s.holdsTrapSet wid (lanesIn u.th wid))

/-- UNIFORM_SPLIT_WRITE detail 2 against the trap-mode set (R469). -/
def splitTrap (c : Ctx) (act : List Th) : Trap := { cause := cz 0x09 2, tval := c.tval, mask := act }

/-- R273, R274. -/
def execSwr (f : FS) (s : State) : StepOut :=
  let n := f.sreg.toNat
  let w := f.m.getLsbD 0
  let k : Checks := { q := f.q, ill := illOf (f.m.extractLsb' 1 4 ≠ 0) false, opd := sregOpd f.x f [],
                      priv := sregPriv (s.trapMode s.unit) true n, a := { code := f.d, n := if w then 2 else 1 },
                      split := sregSplit n }
  syncInstr s (.swr f) k fun c act =>
    if n = 0x801 && s.setSplit c.u then s.takeTrap c.u (splitTrap c act) c.len
    else
      let val (t : Th) : DWord := (if w then (s.src c t f.d 1).val else 0) ++ (s.src c t f.d 0).val
      let s' := act.foldl (fun s' t => s'.setThreadSreg t n ((val t).extractLsb' 0 32)) s
      let s' := (act.filter (leads act)).foldl (fun s' t => s'.setWarpSreg t.wid n w (val t)) s'
      s'.advance c.u c.len

/-! ### Return from a trap (R276) -/

/-- The checks of RTE, RTEX, TLBI and PARK (R275). -/
def sysChecks (s : State) (q : BitVec 2) : Checks := { q := q, priv := if s.trapMode s.unit then none else some 3 }

/-- Releases of a warp that recorded faults hold on their way (R84). -/
def State.heldRels (s : State) (wid : Nat) : List Nat := (s.accs.filter fun a => a.2.wid = wid && s.relHeld a.2).map (·.1)

/-- Held releases that may go on merge now, behind what their core has merged meanwhile (R79; log entry 61). -/
def State.remerge (s : State) (ids : List Nat) : State :=
  ids.foldl (fun s id => match s.accs.find id with
    | some a => { s with nextId := s.nextId + 1, accs := (s.accs.del id).put s.nextId a }
    | none => s) s

/-- The records of a set of lanes in the fault list dropped: their counts fall (R276). -/
def State.dropListed (s : State) (wid : Nat) (lanes : Word) : State :=
  let w := s.warp wid
  let s := s.remerge (s.heldRels wid)
  let s := w.faults.foldl (fun s r => s.uncountN wid r.iid (r.weight - (r.without lanes).weight)) s
  s.onWarp wid fun w => { w with faults := (w.faults.map fun r => r.without lanes).filter fun r => r.lanes ≠ 0 }

/-- The accesses of a record as they are issued again (R276, R399). -/
def State.reissued (s : State) (wid : Nat) (r : FaultRec) : List Access :=
  let w := s.warp wid
  let mk (l : FaultLane) : Access :=
    { kind := r.kind, iid := r.iid, wid := wid, core := w.core, bid := w.bid, part := s.partOf wid, asid := s.asidOf wid,
      lane := l.lane, lanes := 1#32 <<< l.lane, va := l.addr, size := sizeBytes r.m4, hyp := r.hyp,
      chain := (s.part (s.partOf wid)).handles r.hyp 17, batch := r.iid, pc := r.pc, hdr := r.hdr,
      m4 := r.m4, xw := r.xw, dst := [(l.lane, l.dst)], destCode := r.dest }
  match r.kind with
  | .ldu =>
    match r.each with
    | [] => []
    | l :: _ =>
      [{ mk l with lanes := r.lanes, dst := r.each.map fun x => (x.lane, x.dst), signed := sizeSigned r.m4 }]
  | .ldt => r.each.map fun l => { mk l with size := 4, tag := r.m4 }
  | .st => r.each.map fun l => { mk l with size := l.data.length, data := l.data, rel := r.m4.getLsbD 3, dst := [] }
  | .atom => r.each.map fun l =>
      { mk l with
        size := atomSize (atomOp r.xw), op := atomOp r.xw, acq := atomAcq r.xw, rel := atomRel r.xw,
        opcC := BitVec.ofNat 64 (leNat (l.data.take 8)), opcD := BitVec.ofNat 64 (leNat (l.data.drop 8)) }
  | .cwb => r.each.map fun l => { mk l with size := 128, dst := [] }
  | _ => r.each.map fun l => { mk l with signed := sizeSigned r.m4, acq := r.m4.getLsbD 3 }

/-- A handle that a re-issued access was recorded under is still live. -/
def Part.liveH (P : Part) (h : BitVec 16) : Bool :=
  let id := (h.extractLsb' 0 8).toNat
  if id = 0 then h = 0 else (P.hyp.getD id {}).st = .live && (P.hyp.getD id {}).gen = h.extractLsb' 8 8

/-- RTEX: the records of a set of lanes are issued again in recording order (R276). -/
def State.reissue (s : State) (wid : Nat) (lanes : Word) : State :=
  let P := s.part (s.partOf wid)
  let l := (s.warp wid).faults.flatMap fun r => s.reissued wid (r.without (~~~lanes))
  let l := l.map fun a => if P.liveH a.hyp then a else { a with st := AccSt.faulted, cause := cz 0x28 0 }
  let base := s.nextId
  let held := s.heldRels wid
  let s := { s with nextId := base + l.length, accs := l.zipIdx.foldl (fun m (a : Access × Nat) => m.put (base + a.2) a.1) s.accs }
  let s := s.remerge held
  s.onWarp wid fun w => { w with faults := (w.faults.map fun (r : FaultRec) => r.without lanes).filter fun r => r.lanes ≠ 0 }

/-- What keeps a return from taking effect: a part of the set, or a rewritten `%tpc` that names no header (R276, R469). -/
def State.returnTrap (s : State) (c : Ctx) (act : List Th) : Option Trap :=
  if s.setSplit c.u then some (splitTrap c act)
  else
    match c.u.mem with
    | [p] =>
      let w := s.warp p.1
      if w.tkept.isNone then s.landTrap (act.map fun t => (t, w.tpc)) else none
    | _ => none

/-- The unit leaves trap mode (R276): what happens to its records first, then it resumes. -/
def returnInstr (s : State) (i : Instr) (f : V3) (recs : State → Nat → Word → State) : StepOut :=
  syncInstr s i (sysChecks s f.q) fun c act =>
    let rewritten := c.u.mem.any fun p => (s.warp p.1).tkept.isNone
    if rewritten && s.landHeld (act.map fun t => (t, (s.warp t.wid).tpc)) then s.stall
    else match s.returnTrap c act with
    | some tr => s.takeTrap c.u tr c.len
    | none =>
      (c.u.mem.foldl (fun s p =>
        let lanes := (s.warp p.1).trapSet
        (recs s p.1 lanes).leaveTrap p.1 p.2) s)

/-- R276: RTE drops the records of its lanes. -/
def execRte (f : V3) (s : State) : StepOut := returnInstr s (.rte f) f State.dropListed

/-- R276: RTEX issues them again. -/
def execRtex (f : V3) (s : State) : StepOut := returnInstr s (.rtex f) f State.reissue

/-! ### Shootdowns (R277, R387) -/

/-- A range rounded out to pages and clipped (R277). -/
def sdRange (va : DWord) (len : Nat) : Nat × Nat :=
  (min (va.toNat / 65536 * 65536) (2 ^ 52), min ((va.toNat + len + 65535) / 65536 * 65536) (2 ^ 52))

/-- A translation maps a line of a slice's L2. -/
def Part.maps (P : Part) (e : TlbEntry) (l : L2Line) : Bool :=
  P.tiles[e.tile]? = some l.tile &&
    match P.leafAt e.pte (BitVec.ofNat 64 (e.page * levelBytes e.level)) e.level with
    | some lf => lf.space = l.space && lf.addr ≤ l.addr && l.addr < lf.addr + levelBytes e.level
    | none => false

/-- Slices write to their frames the dirty lines that the translations to be dropped map, and those that no translation
maps any longer (R96, R277; log entry 37). -/
def State.l2Flush (s : State) (p : Nat) (drop : TlbEntry → Bool) : State :=
  let P := s.part p
  let es := s.tlb.filter fun e => e.part = p
  (s.l2.filter fun l => P.tiles.contains l.tile && l.dirty ≠ 0 &&
      (es.any (fun e => drop e && P.maps e l) || !(es.any fun e => P.maps e l))).foldl
    (fun s l => (s.l2Write P l).l2Put { l with dirty := 0, data := [] }) s

/-- A translation of an ASID that maps a part of a range. -/
def TlbEntry.inRange (e : TlbEntry) (p asid lo hi : Nat) : Bool :=
  e.part = p && e.asid = asid && e.page * levelBytes e.level < hi && lo < (e.page + 1) * levelBytes e.level

/-- Words of a range that cores own come back to their slices and go on to their frames, and its L1 copies and
translations are dropped (R96, R277). -/
def State.purge (s : State) (p asid lo hi : Nat) : State :=
  let inR (line : Nat) : Bool := lo ≤ line * 128 && line * 128 < hi
  let s := (s.reg.filter fun r => r.part = p && r.asid = asid && inR r.line && r.mask ≠ 0).foldl (fun s r =>
    let va := BitVec.ofNat 64 (r.line * 128)
    let t := s.translate p asid va .cwb
    match t.2, (s.part p).homeTile va with
    | .ok lf, some tile => t.1.forceBack p asid r.line tile lf
    | _, _ => t.1.regPut { r with mask := 0 }) s
  let drop (e : TlbEntry) : Bool := e.inRange p asid lo hi
  let s := s.l2Flush p drop
  { s with
    l1 := s.l1.filter fun l => !(l.part = p && l.asid = asid && inR l.line)
    accs := s.accs.map fun a =>
      (a.1, if a.2.part = p && a.2.asid = asid && inR (lineOf a.2.va) then { a.2 with snap := [] } else a.2)
    tlb := s.tlb.filter fun e => !(drop e) }

/-- An access has been translated and not yet performed: it is at the owner of its line, or waits for a version entry. -/
def Access.translated (a : Access) : Bool :=
  match a.st with
  | .atOwner _ => true
  | .waiting _ _ => true
  | _ => false

/-- A shootdown begins (R387): it waits for the accesses that its dropped translations served, in its range or beside it. -/
def State.startShootdown (s : State) (p : Nat) (sd : Shootdown) : State :=
  let es := s.tlb.filter fun e => e.inRange p sd.asid sd.lo sd.hi
  let served (va : Nat) : Bool := (sd.lo ≤ va && va < sd.hi) || es.any fun e => e.inRange p sd.asid va (va + 1)
  let waits := (s.accs.filter fun a => a.2.part = p && a.2.asid = sd.asid && a.2.translated && served a.2.va.toNat).map (·.1)
  let s := s.purge p sd.asid sd.lo sd.hi
  let id := s.nextId
  { s with nextId := id + 1 }.onPart p fun P => { P with sds := P.sds.put id { sd with waits := waits } }

/-- Every access that a shootdown waits for is performed. -/
def State.sdDone (s : State) (sd : Shootdown) : Bool := sd.waits.all fun id => match s.accs.find id with
  | some a => !a.translated
  | none => true

/-- SHOOTDOWN_COMPLETE (R277, R387): the register counts a completion, or the TLBI of a unit retires. -/
def execShootdownComplete (part id : Nat) (s : State) : Host.Outcome State Fault Refusal :=
  .next (match (s.part part).sds.find id with
    | some sd =>
      if !(s.sdDone sd) then s
      else
        let s := s.onPart part fun P => { P with sds := P.sds.del id }
        if sd.fromHost then
          (s.onPart part fun P => { P with b2 := { P.b2 with
            sdbusy := P.sds.any fun x => x.2.fromHost, sddone := P.b2.sddone + 1 } })
        else if (s.part part).sds.any fun x => !x.2.fromHost && x.2.wid = sd.wid && x.2.sliver = sd.sliver then s
        else
          let s := s.onSliver sd.wid sd.sliver fun g => { g with st := .running }
          s.advance (s.unitAt { wid := sd.wid, sliver := sd.sliver }) sd.len
    | none => s)

/-- The threads of a TLBI that name a range: a length of zero has no effect (R277). -/
def State.tlbiActs (s : State) (c : Ctx) (f : V3) (act : List Th) : List Th :=
  if f.b = 52 then act else act.filter fun t => ((s.src c t f.b 1).val ++ (s.src c t f.b 0).val).toNat ≠ 0

/-- R277: a release, then a shootdown of each thread's range; the unit is held until they complete. -/
def execTlbi (f : V3) (s : State) : StepOut :=
  let k : Checks := { sysChecks s f.q with
    opd := opdV f.x [f.a, f.b] [] (f.b :: ownPair (globalBaseBad f.a) f.a) (globalBaseBad f.a), a := { code := f.a, n := 2 }, b := { code := f.b, n := 2 } }
  syncInstr s (.tlbi f) k fun c all =>
    let act := s.tlbiActs c f all
    match (if act = [] then some (s.advance c.u c.len) else s.releaseHold c act) with
    | some s' => s'
    | none =>
      let range (t : Th) : Nat × Nat :=
        if f.b = 52 then (0, 2 ^ 52)
        else sdRange ((s.src c t f.a 1).val ++ (s.src c t f.a 0).val) ((s.src c t f.b 1).val ++ (s.src c t f.b 0).val).toNat
      match c.u.mem with
      | [] => s
      | p :: _ =>
        let rs := (act.map range).eraseDups
        let s := s.setSt c.u fun g => { g with st := .asking }
        rs.foldl (fun s r => s.startShootdown (s.partOf p.1)
          { asid := s.asidOf p.1, lo := r.1, hi := r.2, fromHost := false, wid := p.1, sliver := p.2, len := c.len }) s

/-! ### WIDLE (R278) -/

/-- The lowest event code latched. -/
def latchCode (l : BitVec 5) : Nat := ((lowBit l.toNat 0 5).map (· + 1)).getD 0

/-- The least non-zero of a list; 0 when there is none. -/
def leastNonZero (l : List Nat) : Nat :=
  (l.filter (· ≠ 0)).foldl (fun m x => if m = 0 || x < m then x else m) 0

/-- Some group of the unit waits in WIDLE and its bound has passed. -/
def State.widleOver (s : State) (u : IssueUnit) : Bool :=
  (s.partGroups u.mem).any fun g => g.2.st = .widle && g.2.bound ≠ 0 && g.2.since + g.2.bound ≤ s.warpTick g.1

/-- R278. -/
def execWidle (f : V3) (s : State) : StepOut :=
  let k : Checks := { q := f.q, opd := opdV f.x [f.d, f.a] [f.d] [], a := srcAny f.a, d := dst1 f.d }
  syncInstr s (.widle f) k fun c act =>
    let wids := widsOf act
    if (wids.all fun wid => (s.warp wid).latch ≠ 0) || s.widleOver c.u then
      let outs := act.map fun t => (t, out1 2 (BitVec.ofNat 32 (latchCode (s.warp t.wid).latch)))
      let s := s.commit c f.d outs
      (wids.foldl (fun s wid => s.onWarp wid fun w => { w with latch := 0 }) s).advance c.u c.len
    else
      let t := leastNonZero (act.map fun t => (s.src c t f.a 0).val.toNat)
      let s := s.setSt c.u fun g => if g.st = .widle then g else { g with since := (s.warpTick ((c.u.mem.headD (0, 0)).1)), bound := t }
      s.unmet c.u .widle

/-- WIDLE_TIMEOUT (R278): the instruction at which the unit waits returns 0; not in a halted gang (R403). -/
def execWidleTimeout (wid sliver : Nat) (s : State) : Host.Outcome State Fault Refusal :=
  let f : Focus := { wid := wid, sliver := sliver }
  let u := s.unitAt f
  if s.widleOver u && (s.gang (s.block (s.warp wid).bid).gid).st = .running then
    match s.nextInstr u with
    | .ok (.widle i) => onNext (execWidle i { s with focus := f }) fun t => { t with focus := s.focus }
    | _ => .next s
  else .next s

/-! ### PARK, resumption, the watchdog (R279, R398, R401) -/

/-- R279: the unit's position is past PARK, and it is parked there. -/
def execPark (f : V3) (s : State) : StepOut :=
  syncInstr s (.park f) (sysChecks s f.q) fun c act =>
    if s.setSplit c.u then s.takeTrap c.u (splitTrap c act) c.len
    else
      let s := s.advance c.u c.len
      c.u.mem.foldl (fun s p => s.onSliver p.1 p.2 fun g => { g with st := .parked, skip := 0, since := s.warpTick p.1 }) s

/-- A parked group goes on (R398): past the words it skips. -/
def Group.unpark (g : Group) : Group :=
  if g.st ≠ .parked then g
  else
    let a := g.pc + BitVec.ofNat 64 (4 * g.skip)
    let g := { g with st := .running, skip := 0 }
    if g.pc = g.hdr || a = g.pc then g
    else if a = clauseEnd g.hdr g.hw then { g with pc := a, hdr := a, hw := 0, code := [], passed := false, waits := false }
    else { g with pc := a, waits := false }

/-- The parked units of a warp resume (R401); the watchdog counts anew. -/
def Warp.unpark (w : Warp) (tick : Nat) : Warp :=
  { w with wdogPark := false, trapSince := tick, groups := w.groups.map Group.unpark }

/-- A warp has a parked unit. -/
def Warp.parked (w : Warp) : Bool := w.groups.any fun g => g.st = .parked

/-- Does a write of FQHEAD resume the parked unit of a warp (R401)? -/
def Warp.resumes (w : Warp) (v : Word) : Bool :=
  match w.deliv with
  | none => true
  | some q => let d := (v - BitVec.ofNat 32 q).toNat; 1 ≤ d && d ≤ 2 ^ 31

/-- Parts of a warp's unit in trap mode that are not parked and will not be. -/
def Warp.unparked (w : Warp) : List Nat :=
  w.slivers.filter fun k => w.sliverLanes k &&& w.trapSet ≠ 0 &&
    (w.running k).any fun g => g.st ≠ .parked && g.parkNext.isNone

/-- The trap-mode unit of a warp, in a gang that runs, has been in trap mode for 2^24 ticks without PARK (R398, R403). -/
def State.watchdogDue (s : State) (wid : Nat) : Bool :=
  let w := s.warp wid
  (s.gang (s.block w.bid).gid).st = .running && w.trapSet ≠ 0 && w.trapSince + 2 ^ 24 ≤ s.warpTick wid && w.unparked ≠ []

/-- WATCHDOG_TIMEOUT (R398): every part of the trap-mode unit is parked before its next instruction. -/
def execWatchdogTimeout (wid : Nat) (s : State) : Host.Outcome State Fault Refusal :=
  .next (if s.watchdogDue wid then s.parkParts wid 1 0 (s.warp wid).unparked else s)

/-- A group that is a cause for its core to wake: it waits for something else than an event, or its bound has passed. -/
def State.wakes (s : State) (core : Nat) (g : Group) : Bool :=
  g.pos = 0 && (g.st ≠ .widle || (g.bound ≠ 0 && g.since + g.bound ≤ s.tickOf core))

/-- The sweep of a core's registers at its wake (R344): a corrected error counts, an uncorrectable one waits for its consumer. -/
def State.sweepRegs (s : State) (core : Nat) : State :=
  let mine (u : Upset) : Bool := match u with
    | .retained wid _ _ _ => (s.warp wid).core = core
    | _ => false
  (s.upsets.filter mine).foldl (fun s u => match u with
    | .retained wid lane n true => { s with upsets := s.upsets ++ [.register wid lane n] }
    | _ => { s with wafer := { s.wafer with soft := s.wafer.soft.put (core / 4) (min (s.wafer.soft.getD (core / 4) 0 + 1) (2 ^ 32 - 1)) } })
    { s with upsets := s.upsets.filter fun u => !(mine u) }

/-- CORE_WAKE (R278, R344): the core sweeps its registers and issues again; a wake with no other cause is an event of the warps that wait in WIDLE. -/
def execCoreWake (core : Nat) (s : State) : Host.Outcome State Fault Refusal :=
  .next (if (s.coreRegs core).asleep then
    let s := (s.sweepRegs core).onCore core fun r => { r with asleep := false }
    let mine := s.warps.filter fun w => w.2.core = core
    let cause := mine.any fun w => w.2.latch ≠ 0 || w.2.groups.any (s.wakes core)
    if cause then s
    else (s.latch 5 fun w => w.core = core && w.groups.any fun g => g.st = .widle)
  else s)

end Sys2Proof.Machine
end

