-- ==== Sys2Proof/Machine/Sched.lean ====
section
/-! DEFINITION. Placement, start and retirement of gangs, the swaps of a core's active set, pre-emption, restore and
abandonment (R20 to R24, R41, R44, R373, R374, R403 to R410). -/
namespace Sys2Proof.Machine

/-! ### The active set (R41, R44) -/

/-- Pending warps of a core that are ready, with the tick since which they are. -/
def State.readyPending (s : State) (core : Nat) : List (Nat × Nat) :=
  (s.coreWarpIds core false).filterMap fun wid => (s.warp wid).pendReady.map fun t => (wid, t)

/-- The pair with the least second part, the first of them. -/
def leastBy : List (Nat × Nat) → Option (Nat × Nat)
  | [] => none
  | x :: xs => match leastBy xs with
    | none => some x
    | some y => if x.2 ≤ y.2 then some x else some y

/-- A warp meets a long-latency dependence (R41). -/
def State.longDep (s : State) (wid : Nat) : Bool := (s.warp wid).depSince.isSome

/-- The active warp that is swapped first: the earliest dependence, then the lowest priority, then the youngest (R41). -/
def State.depBefore (s : State) (x y : Nat) : Bool :=
  let dx := ((s.warp x).depSince).getD 0
  let dy := ((s.warp y).depSince).getD 0
  if dx ≠ dy then dx < dy
  else
    let px := (s.launchOf x).prio
    let py := (s.launchOf y).prio
    px < py || (px = py && (s.warp y).age ≤ (s.warp x).age)

def State.firstDep (s : State) : List Nat → Option Nat
  | [] => none
  | x :: xs => match s.firstDep xs with
    | none => some x
    | some y => if s.depBefore x y then some x else some y

/-- Two warps change places. -/
def State.swapWarps (s : State) (out in_ : Nat) : State := ((s.toPending out).toActive in_)

/-- WARP_SWAP (R41). -/
def execWarpSwap (core : Nat) (s : State) : Host.Outcome State Fault Refusal :=
  .next (match s.firstDep ((s.coreWarpIds core true).filter s.longDep), leastBy (s.readyPending core) with
    | some out, some (in_, _) => s.swapWarps out in_
    | _, _ => s)

/-- The active warp that entered its set first: the model keeps the order of entry in the order of age of readiness (R44). -/
def State.longestActive (s : State) (core : Nat) : Option Nat :=
  (leastBy ((s.coreWarpIds core true).map fun wid => (wid, (s.warp wid).activeSince))).map (·.1)

/-- PENDING_WARP_PROMOTE (R44): a pending warp ready for 448 ticks takes the place of the warp longest in the set. -/
def execPendingWarpPromote (core : Nat) (s : State) : Host.Outcome State Fault Refusal :=
  .next (match leastBy (s.readyPending core), s.longestActive core with
    | some (in_, t), some out => if t + 448 ≤ s.tickOf core then s.swapWarps out in_ else s
    | _, _ => s)

/-! ### Who may be placed next (R373, R423, R451, R458) -/

/-- A partition places gangs: not quiesced, and neither locked nor in ERROR (R423). -/
def Part.placesNow (P : Part) : Bool := !P.quiesced && (P.td = .unlocked || P.td = .run)

/-- A gang that waits for a place. -/
def Gang.waits (g : Gang) : Bool := g.st = .waiting || g.st = .saved

/-- The waiting gang of a launch that comes first (R373). -/
def State.nextGang (s : State) (lid : Nat) : Option (Nat × Gang) :=
  (s.gangs.filter fun g => g.2.lid = lid && g.2.waits).foldl (fun (r : Option (Nat × Gang)) g => match r with
    | some x => if x.2.idx ≤ g.2.idx then some x else some g
    | none => some g) none

/-- Launches of two graph instances: neither waits for the other (R371). -/
def LaunchSrc.apart (a b : LaunchSrc) : Bool :=
  match a, b with
  | .node i _, .node j _ => i ≠ j
  | _, _ => false

/-- No earlier launch of the same queue, a node's among them, has a gang waiting: a gang that cannot be placed holds its queue
(R373), but no other graph instance (R371; log entry 98). -/
def State.headOfQueue (s : State) (lid : Nat) (l : Launch) : Bool :=
  (s.srcQueue l).isNone || s.launches.all fun x =>
    !(x.1 < lid && x.2.part = l.part && s.srcQueue x.2 = s.srcQueue l && !(x.2.src.apart l.src) && (s.nextGang x.1).isSome)

/-- Queue work of a capped partition whose allowance is used up is not placed (R458). -/
def Part.mayQueue (P : Part) (src : LaunchSrc) : Bool :=
  match src with
  | .slot _ => true
  | _ => P.energy ≠ 0

/-- The gangs that the scheduler of a partition considers (R373). -/
def State.offered (s : State) (p : Nat) : List (Nat × Gang) :=
  let P := s.part p
  if !P.placesNow then []
  else (s.launches.filter fun l => l.2.part = p && s.headOfQueue l.1 l.2 && P.mayQueue l.2.src).filterMap fun l =>
    s.nextGang l.1

/-- The order in which they are served: priority, then age (R373). -/
def State.servedBefore (s : State) (x y : Nat × Gang) : Bool :=
  let px := (s.launch x.2.lid).prio
  let py := (s.launch y.2.lid).prio
  py < px || (px = py && (x.2.since < y.2.since || (x.2.since = y.2.since && x.2.lid < y.2.lid)))

/-- A place for a gang now. -/
def State.placeFor (s : State) (g : Gang) : Option (List (Nat × Nat)) :=
  let l := s.launch g.lid
  s.findPlace [] (s.part l.part) l.desc

/-- Every gang that is served before this one has no place now. -/
def State.itsTurn (s : State) (gid : Nat) (g : Gang) : Bool :=
  let l := s.offered (s.launch g.lid).part
  (l.any fun x => x.1 = gid) && l.all fun x => !(s.servedBefore x (gid, g)) || (s.placeFor x.2).isNone

/-! ### Starting a gang (R21, R348) -/

/-- The role and the budget of warp i of a block (R14). -/
def roleAt : List Role → Nat → Role
  | [], _ => { code := 0, warps := 1, regs := 64 }
  | r :: rs, i => if i < r.warps then r else roleAt rs (i - r.warps)

/-- The groups of a warp at its start: one sliver of eight quads at the entry (R21). -/
def startGroups (entry : DWord) : List Group :=
  (List.range 8).map fun q => { quad := q, lanes := 0xF#32 <<< (4 * q), pc := entry, hdr := entry }

/-- A warp at its start (R21, R63). -/
def startWarp (d : KDesc) (bid core i age : Nat) : Warp :=
  let r := roleAt d.roles i
  { bid := bid, idx := i, core := core, role := r.code, budget := r.regs, age := age, groups := startGroups d.entry,
    sp := (List.range 32).map fun l => (l, BitVec.ofNat 32 (d.zsize - 256 * 32 * d.nwarps + 256 * (32 * i + l + 1))) }

/-- A block at its start, with its warps named from a number upward. -/
def startBlock (d : KDesc) (gid rank w0 : Nat) (at_ : Nat × Nat) : Block :=
  { gid := gid, rank := rank, core := at_.1, accbase := if d.accum = 0 then 0 else at_.2, acclen := d.accum,
    frame := d.trapframe, scr := d.scratch, zsize := d.zsize, wids := (List.range d.nwarps).map (w0 + ·) }

/-- The cells and tags of a block's accumulator rows at +0 and F32 (R21). -/
def State.clearRows (s : State) (tile base n : Nat) : State :=
  let inR (k : Nat) : Bool := k / 2 ^ 18 = tile && base ≤ k % 2 ^ 18 / 512 && k % 2 ^ 18 / 512 < base + n
  let inT (k : Nat) : Bool := k / 64 = tile && base ≤ 64 * (k % 64 / 8) && 64 * (k % 64 / 8) < base + n
  { s with
    acc := s.acc.filter fun x => !(inR x.1)
    accTag := s.accTag.filter fun x => !(inT x.1)
    upsets := s.upsets.filter fun u => match u with
      | .accumulator t r _ => !(t = tile && base ≤ r && r < base + n)
      | _ => true }

/-- A block that comes to a core takes the place of what retired blocks left there (log entry 97). -/
def State.overwrite (s : State) (core : Nat) : State := { s with relics := s.relics.filter fun r => r.block.core ≠ core }

/-- One block of a gang placed: ids `bid`, then its warps. -/
def State.placeBlock (s : State) (d : KDesc) (gid rank : Nat) (at_ : Nat × Nat) : State :=
  let bid := s.nextId
  let b := startBlock d gid rank (bid + 1) at_
  let s := { s with
    nextId := bid + 1 + d.nwarps
    blocks := s.blocks.put bid b
    warps := b.wids.zipIdx.foldl (fun (m : Tbl Warp) (x : Nat × Nat) => m.put x.1 (startWarp d bid at_.1 x.2 x.1)) s.warps }
  (((s.overwrite at_.1).clearRows (at_.1 / 4) b.accbase b.acclen).onGang gid fun g => { g with bids := g.bids ++ [bid] }).invalidate at_.1

/-- The next gang of a launch begins to wait (R373). -/
def State.queueGang (s : State) (g : Gang) : State :=
  let l := s.launch g.lid
  if g.idx + 1 < l.gangs then
    { s with
      nextId := s.nextId + 1
      gangs := s.gangs.put s.nextId { lid := g.lid, idx := g.idx + 1, since := l.ready, waitFrom := s.gtime, nblk := g.nblk } }
  else s

/-- GANG_PLACE (R20, R21, R90, R373): all of a gang's blocks at once; the start of a gang is an acquire. -/
def execGangPlace (gid : Nat) (places : List (Nat × Nat)) (s : State) : Host.Outcome State Fault Refusal :=
  .next (match s.gangs.find gid with
    | some g =>
      let l := s.launch g.lid
      if g.st = .waiting && s.itsTurn gid g && s.placeOk (s.part l.part) l.desc places && places.all fun x => s.coreUp x.1 then
        let s := s.onGang gid fun g => { g with st := .running }
        let s := places.zipIdx.foldl (fun s x => s.placeBlock l.desc gid x.2 x.1) s
        ((s.onLaunch g.lid fun l => { l with started := l.started + 1 }).queueGang g)
      else s
    | none => s)

/-! ### Retirement (R22, R23) -/

/-- Accesses that a block waits for before it retires: its stores and the like (R22). -/
def AccKind.isWrite : AccKind → Bool
  | .st | .stn | .atom | .atomn | .cwb => true
  | _ => false

/-- May a block retire (R22)? A store that has been recorded has not registered (R207; log entry 40). -/
def State.blockDone (s : State) (bid : Nat) (b : Block) : Bool :=
  !b.retired && (s.gang b.gid).st = .running &&
  (b.wids.all fun wid => (s.warp wid).live = 0 && (s.warp wid).records.all fun r => r.kind ≠ .st) &&
  (s.ops.all fun o => o.2.bid ≠ bid) &&
  s.accs.all fun a => !(a.2.bid = bid && a.2.kind.isWrite)

/-- Tags that no other block of a core has named: their error bits go with a block that is saved (R70, R406). -/
def State.ownTags (s : State) (bid : Nat) (b : Block) : DWord :=
  let rest := (s.blocks.filter fun x => x.1 ≠ bid && x.2.core = b.core && !x.2.retired).map fun x => x.2.tags
  b.tags &&& ~~~(rest.foldl (· ||| ·) 0)

/-- What a block that retires gives up: its warps, its scratchpad and its rows; its tags are complete, and their error
bits stay until TCLR (R22, R218). -/
def State.freeBlock (s : State) (bid : Nat) (b : Block) : State :=
  let s := { s with
    warps := s.warps.filter fun w => w.2.bid ≠ bid
    outst := s.outst.filter fun o => !(b.wids.contains o.wid)
    errs := s.errs.filter fun e => e.bid ≠ bid
    lids := s.lids.filter fun l => l.glob || l.bid ≠ bid
    upsets := s.upsets.filter fun u => match u with
      | .register wid _ _ | .retained wid _ _ _ => !(b.wids.contains wid)
      | .scratch x _ => x ≠ bid
      | _ => true
    blocks := s.blocks.put bid { b with retired := true, scratch := [], tags := 0 } }
  (s.clearRows (b.core / 4) b.accbase b.acclen).tidyMixed

/-- A gang all of whose blocks have retired is gone; with its launch's last the launch is complete (R22, R23). -/
def State.gangDone (s : State) (gid : Nat) : State :=
  let g := s.gang gid
  let s := { s with blocks := s.blocks.filter fun b => b.2.gid ≠ gid, gangs := s.gangs.del gid }
  let s := s.onLaunch g.lid fun l => { l with retired := l.retired + 1 }
  match s.launches.find g.lid with
  | some l => if l.gangs ≤ l.retired then s.launchDone g.lid l else s
  | none => s

/-- The values of a block's scratchpad and registers stay where they are when it retires (R324, R331; log entry 97). -/
def State.leaveRelic (s : State) (bid : Nat) (b : Block) : State :=
  { s with relics := s.relics ++ [{ bid := bid, block := b, warps := s.warps.filter fun w => w.2.bid = bid }] }

/-- The block's retirement completes its launch, and what that updates stalls for a bias flip (R100). -/
def State.retireHeld (s : State) (bid : Nat) (b : Block) : Bool :=
  let g := s.gang b.gid
  let l := s.launch g.lid
  (g.bids.all fun x => x = bid || (s.block x).retired) && l.gangs ≤ l.retired + 1 && s.doneHeld l

/-- BLOCK_RETIRE (R22, R23). -/
def execBlockRetire (bid : Nat) (s : State) : Host.Outcome State Fault Refusal :=
  .next (match s.blocks.find bid with
    | some b =>
      if s.blockDone bid b && !(s.retireHeld bid b) then
        let s := (s.leaveRelic bid b).freeBlock bid b
        (if (s.gang b.gid).bids.all fun x => (s.block x).retired then s.gangDone b.gid else s)
      else s
    | none => s)

/-! ### The halt (R403) -/

/-- Blocks of a gang that have not retired. -/
def State.gangBlocks (s : State) (gid : Nat) : Tbl Block := s.blocks.filter fun b => b.2.gid = gid && !b.2.retired

/-- Warps of a gang. -/
def State.gangWids (s : State) (gid : Nat) : List Nat := (s.gangBlocks gid).flatMap fun b => b.2.wids

/-- A group at the halt: a predicate in stage 2 or 3 is abandoned (R310), one in stage 1 writes at its end; a unit that has
met no header wait stands at its header again (R403). -/
def Group.halt (g : Group) : Group :=
  if g.st = .geo && g.bound ≠ g.since + 12 then { g with st := .running }
  else if g.st ≠ .geo && g.waits then { g with pc := g.hdr, hw := 0, code := [], st := .running, passed := true, waits := false }
  else g

/-- A warp at the halt: held predicates split first, and the results of abandoned ones are dropped. -/
def Warp.halt (w : Warp) : Warp :=
  let w := w.slivers.foldl (fun w k => if (w.running k).all fun g => g.st = .geo then w.splitStages k else w) w
  let keep := lanesOfGroups (w.groups.filter fun g => g.st = .geo && g.bound = g.since + 12)
  { w with geoOut := w.geoOut.filter fun x => keep.getLsbD x.1, groups := w.groups.map Group.halt }

/-- A gang is halted: mixed warps dissolve, predicates and table fetches are abandoned, operations at issue taken back (R403,
R408; log entry 93). -/
def State.haltGang (s : State) (gid : Nat) : State :=
  let wids := s.gangWids gid
  let s := s.dissolve (wids.flatMap fun wid => ((s.warp wid).slivers.map fun k => (wid, k)))
  let s := { s with
    accs := s.accs.filter fun (a : Nat × Access) => !(a.2.kind = AccKind.jtab && wids.contains a.2.wid)
    warps := s.warps.map fun (x : Nat × Warp) =>
      (x.1, if wids.contains x.1 then x.2.halt else x.2) }
  let s := wids.foldl (fun s wid => s.withdraw wid (BitVec.allOnes 32)) s
  (s.onGang gid fun g => { g with st := .halted })

/-- PREEMPT_REQUEST (R403): no unit of the gang issues from now on. -/
def execPreemptRequest (gid : Nat) (s : State) : Host.Outcome State Fault Refusal :=
  .next (match s.gangs.find gid with
    | some g => if g.st = .running then s.haltGang gid else s
    | none => s)

/-! ### Drains and the save (R404, R406, R407) -/

/-- A version write of a warp or of an engine that waits for room when its gang is pre-empted is recorded at once (R296, R304,
R395). -/
def State.failWaiting (s : State) (wids : List Nat) : State :=
  let s := (s.accs.filter fun a => a.2.order.isSome && wids.contains a.2.wid).foldl (fun s a => s.capacityFail a.1 a.2 1) s
  (s.ops.filter fun o => o.2.stalled.isSome && wids.contains o.2.wid).foldl (fun s o => s.opCapacityFail o.1 o.2 1) s

/-- An operation that waits for another before it begins: one that it is ordered after (R88), or one before it in the queue of
the accumulator store (R288). -/
def State.waitsFor (s : State) (o : EngineOp) (p : Nat × EngineOp) : Bool :=
  o.waitOps.contains p.1 || (o.onAccStore && p.2.onAccStore && p.2.placed && p.2.seq < o.seq && s.accClash o p.2)

/-- A recorded fault keeps an operation, or one that it waits for, from its first read until its handler has run (R84): the
operation is saved as it stands (log entry 23). -/
def State.opHeld (s : State) (id : Nat) (o : EngineOp) : Nat → Bool
  | 0 => false
  | n + 1 => o.st = .running && o.done = 0 &&
      (s.opRecorded id o || s.ops.any fun p => s.waitsFor o p && s.opHeld p.1 p.2 n)

/-- A copy stands at a 4 KiB boundary of its order, where it stops (R404). -/
def EngineOp.stopped (o : EngineOp) : Bool := o.form ≤ 2 && o.st = .running && o.done % 4096 = 0

/-- The operation may be saved as it stands. -/
def State.opSavable (s : State) (id : Nat) (o : EngineOp) : Bool :=
  (o.stopped && !(s.mustEnd id)) || s.opHeld id o s.ops.length

/-- Everything of R404 has drained: accesses, operations, replies and shootdowns. -/
def State.drained (s : State) (gid : Nat) : Bool :=
  let wids := s.gangWids gid
  (s.accs.all fun a => !(wids.contains a.2.wid) || s.relHeld a.2) &&
  (s.ops.all fun o => !(wids.contains o.2.wid) || s.opSavable o.1 o.2) &&
  (s.hreqs.all fun r => r.2.mem.all fun m => !(wids.contains m.1)) &&
  wids.all fun wid => (s.warp wid).groups.all fun g => g.st ≠ .asking && g.st ≠ .geo

/-- No core: the table that keeps a saved operation's global lids (R411). -/
def noCore : Nat := 4 * Config.poolTiles

/-- The cells of a block's rows, named from its first row. -/
def State.savedRows (s : State) (b : Block) : Tbl Word × Tbl (BitVec 4) :=
  let tile := b.core / 4
  ((s.acc.filter fun x => x.1 / 2 ^ 18 = tile && b.accbase ≤ x.1 % 2 ^ 18 / 512 && x.1 % 2 ^ 18 / 512 < b.accbase + b.acclen).map
      fun x => (x.1 % 2 ^ 18 - 512 * b.accbase, x.2),
   (s.accTag.filter fun x => x.1 / 64 = tile && b.accbase ≤ 64 * (x.1 % 64 / 8) && 64 * (x.1 % 64 / 8) < b.accbase + b.acclen).map
      fun x => (x.1 % 64 - b.accbase / 8, x.2))

/-- A continuation as it is saved: its record's cause is PREEMPT detail 0 while it waits (R404). -/
def EngineOp.saved (o : EngineOp) : EngineOp := { o with stalled := none }

/-- Bits of the tags of some operations. -/
def tagBits (l : Tbl EngineOp) : DWord := l.foldl (fun m o => if o.2.st = .reading then m else m ||| (1#64 <<< o.2.tag)) 0

/-- The image of a block (R406). -/
def State.imageOf (s : State) (bid : Nat) (b : Block) : BlockImage :=
  let ops := (s.ops.filter fun o => o.2.bid = bid).map fun (o : Nat × EngineOp) => (o.1, o.2.saved)
  { bid := bid, warps := s.warps.filter fun w => w.2.bid = bid, busy := tagBits ops,
    fail := (s.coreRegs b.core).tagfail &&& b.tags,
    lids := s.lids.filter fun l => ops.any fun o => o.1 = l.op,
    acc := (s.savedRows b).1, accTag := (s.savedRows b).2, conts := ops }

/-- A block leaves its core: its tags are free there, its global lids stay (R411). -/
def State.unplace (s : State) (bid : Nat) (b : Block) (im : BlockImage) : State :=
  let own := s.ownTags bid b
  let mine (l : Lid) : Bool := im.conts.any fun o => o.1 = l.op
  let s := { s with
    warps := s.warps.filter fun w => w.2.bid ≠ bid
    ops := s.ops.filter fun o => o.2.bid ≠ bid
    lids := (s.lids.filter fun l => !(mine l) || l.glob).map fun l => if mine l then { l with core := noCore } else l }
  let s := s.clearRows (b.core / 4) b.accbase b.acclen
  let busy := tagBits (s.ops.filter fun o => o.2.core = b.core)
  s.onCore b.core fun r => { r with tagmap := r.tagmap ||| (im.busy &&& ~~~busy), tagfail := r.tagfail &&& ~~~own }

/-- The gang's state leaves its cores as images (R404, R406). -/
def State.saveGang (s : State) (gid : Nat) : State :=
  let bs := s.gangBlocks gid
  let ims := bs.map fun b => s.imageOf b.1 b.2
  let s := (bs.zip ims).foldl (fun s x => s.unplace x.1.1 x.1.2 x.2) s
  (s.onGang gid fun g => { g with st := .saved, image := ims, waitFrom := s.gtime }).tidyMixed

/-- PREEMPT_SAVE (R404): waiting version writes are recorded, and once all has drained the gang is saved. -/
def execPreemptSave (gid : Nat) (s : State) : Host.Outcome State Fault Refusal :=
  .next (match s.gangs.find gid with
    | some g =>
      if g.st = .halted then
        let s := s.failWaiting (s.gangWids gid)
        if s.drained gid then s.saveGang gid else s
      else s
    | none => s)

/-! ### Victims (R374) -/

/-- Insertion in the reverse of the order of service. -/
def State.insertVictim (s : State) (x : Nat × Gang) : List (Nat × Gang) → List (Nat × Gang)
  | [] => [x]
  | y :: ys => if s.servedBefore y x then x :: y :: ys else y :: s.insertVictim x ys

/-- Running gangs of a partition below a priority, lowest priority first, then youngest. -/
def State.victims (s : State) (p prio : Nat) : List (Nat × Gang) :=
  let l := s.gangs.filter fun g => g.2.st = .running && (s.launch g.2.lid).part = p && (s.launch g.2.lid).prio < prio
  l.foldr s.insertVictim []

/-- The shortest run of victims whose going makes room for a kernel; none when there is none (R374). -/
def State.enough (s : State) (P : Part) (d : KDesc) (gone : List Nat) : List Nat → Option (List Nat)
  | [] => if (s.findPlace gone P d).isSome then some [] else none
  | v :: vs =>
    if (s.findPlace gone P d).isSome then some []
    else (s.enough P d (gone ++ [v]) vs).map fun r => v :: r

/-- PREEMPT_WAIT_TIMEOUT (R374): a gang has waited 50 µs of global time. -/
def execPreemptWaitTimeout (gid : Nat) (s : State) : Host.Outcome State Fault Refusal :=
  .next (match s.gangs.find gid with
    | some g =>
      let l := s.launch g.lid
      if g.waits && g.waitFrom + 50000 ≤ s.gtime && ((s.offered l.part).any fun x => x.1 = gid) then
        let halted := (s.gangs.filter fun x => x.2.st = .halted).map (·.1)
        match s.enough (s.part l.part) l.desc halted ((s.victims l.part l.prio).map (·.1)) with
        | some vs => vs.foldl State.haltGang s
        | none => s
      else s
    | none => s)

/-! ### Restore (R409, R410) -/

/-- A group of a restored warp: holds and timers start anew. -/
def Group.restore (tick : Nat) (g : Group) : Group :=
  { g with since := if g.st = .held then tick else g.since, looked := 0 }

/-- A warp as it comes back on a core (R305, R401, R403, R409). -/
def restoreWarp (P : Part) (tick core : Nat) (w : Warp) : Warp :=
  let h := P.rebuildHyp w.hyp 300
  let orphan := w.orphan || h.2
  let hyp := if orphan then w.hyp else h.1
  let w := { w with
    core := core, hyp := hyp, orphan := orphan, anc := ancMask (P.homeChain h.1), latch := w.latch ||| 0x10,
    faults := w.faults.map fun (r : FaultRec) => { r with arrived := tick }
    trapSince := tick, inActive := false, pendReady := none, depSince := none, readySince := []
    groups := w.groups.map (Group.restore tick) }
  if w.resume then { w.unpark tick with resume := false } else w

/-- One block comes back (R409). -/
def State.restoreBlock (s : State) (P : Part) (im : BlockImage) (at_ : Nat × Nat) : State :=
  let tile := at_.1 / 4
  let s := (s.overwrite at_.1).clearRows tile at_.2 (s.block im.bid).acclen
  let s := s.onBlock im.bid fun b => { b with core := at_.1, accbase := if b.acclen = 0 then 0 else at_.2 }
  let base := (s.block im.bid).accbase
  let s := { s with
    warps := im.warps.foldl (fun (m : Tbl Warp) (x : Nat × Warp) => m.put x.1 (restoreWarp P (s.tickOf at_.1) at_.1 x.2)) s.warps
    acc := im.acc.foldl (fun (m : Tbl Word) (x : Nat × Word) => m.put (x.1 + tile * 2 ^ 18 + 512 * base) x.2) s.acc
    accTag := im.accTag.foldl (fun (m : Tbl (BitVec 4)) (x : Nat × BitVec 4) => m.put (x.1 + 64 * tile + base / 8) x.2) s.accTag
    ops := im.conts.foldl (fun (m : Tbl EngineOp) (o : Nat × EngineOp) => m.put o.1 { o.2 with core := at_.1, tile := tile }) s.ops
    accs := s.accs.map fun (a : Nat × Access) => (a.1, if a.2.bid = im.bid then { a.2 with core := at_.1 } else a.2) }
  let s := s.onCore at_.1 fun r => { r with tagmap := r.tagmap &&& ~~~im.busy, tagfail := r.tagfail ||| im.fail }
  s.invalidate at_.1

/-- The lids of a restored gang's operations, in the tables of their cores (R409). -/
def State.restoreLids (s : State) (im : BlockImage) : State :=
  let ids := im.conts.map (·.1)
  { s with lids := (s.lids.filter fun l => !(ids.contains l.op)) ++ im.lids.map fun l =>
      { l with core := if l.glob then (s.block im.bid).core else (s.block l.bid).core } }

/-- The places of a restore by rank, for the blocks that have not retired. -/
def State.placeAt (s : State) (places : List (Nat × Nat)) (im : BlockImage) : Nat × Nat :=
  places.getD (s.block im.bid).rank (0, 0)

/-- A saved gang comes back on its cores (R24, R409). -/
def State.restoreGang (s : State) (gid : Nat) (g : Gang) (places : List (Nat × Nat)) : State :=
  let P := s.part (s.launch g.lid).part
  let s := g.image.foldl (fun s im => s.restoreBlock P im (s.placeAt places im)) s
  let s := g.image.foldl State.restoreLids s
  (s.onGang gid fun g => { g with st := .running, image := [] })

/-- GANG_RESTORE (R409, R410): refused by a core that reports fewer than 32 lanes when the image arrives. -/
def execGangRestore (gid : Nat) (places : List (Nat × Nat)) (s : State) : Host.Outcome State Fault Refusal :=
  .next (match s.gangs.find gid with
    | some g =>
      let l := s.launch g.lid
      if g.st = .saved && s.placeOk (s.part l.part) l.desc places then
        if places.any fun x => (s.coreRegs x.1).health ≠ 0xFF then
          s.onPart l.part fun P => { P with rshape := min 255 (P.rshape + 1) }
        else if s.itsTurn gid g && places.all fun x => !(s.coreRegs x.1).failed then s.restoreGang gid g places
        else s
      else s
    | none => s)

/-! ### Abandonment (R405) -/

/-- An operation of an abandoned launch ends: its lids are released, its tag is complete without its error bit, and no
record, arrival or fault-queue record is made (R405 step 3). -/
def State.dropOp (s : State) (id : Nat) (o : EngineOp) : State :=
  let s := { s with ops := s.ops.del id, lids := s.lids.filter fun l => l.op ≠ id }
  let busy := s.tagBusy o.core o.tag
  s.onCore o.core fun r => { r with
    tagmap := if busy then r.tagmap else r.tagmap ||| (1#64 <<< o.tag)
    tagfail := r.tagfail &&& ~~~(1#64 <<< o.tag) }

/-- What an abandoned gang leaves: its operations end, its loads' values and gang-remote accesses are dropped, its blocks are
freed (R405 steps 1 to 5). Global stores and atomics on their way stand. -/
def State.dropGang (s : State) (gid : Nat) (g : Gang) : State :=
  let bids := g.bids
  let wids := s.gangWids gid
  let s := s.dissolve (wids.flatMap fun wid => ((s.warp wid).slivers.map fun k => (wid, k)))
  let s := (s.ops.filter fun o => bids.contains o.2.bid).foldl (fun s o => s.dropOp o.1 o.2) s
  let ids := g.image.flatMap fun im => im.conts.map (·.1)
  let s := { s with
    lids := s.lids.filter fun l => !(ids.contains l.op)
    accs := (s.accs.filter fun (a : Nat × Access) => !(bids.contains a.2.bid && (a.2.kind.isRemote || a.2.kind = AccKind.jtab || a.2.kind = AccKind.pref ||
      a.2.st = AccSt.faulted))).map fun (a : Nat × Access) => (a.1, if bids.contains a.2.bid then { a.2 with dst := [] } else a.2)
    hreqs := s.hreqs.filter fun r => !(r.2.mem.any fun m => wids.contains m.1) }
  let s := (s.gangBlocks gid).foldl (fun (s : State) (b : Nat × Block) =>
    if g.image = [] then s.freeBlock b.1 b.2
    else { s with outst := s.outst.filter fun o => !(b.2.wids.contains o.wid), errs := s.errs.filter fun e => e.bid ≠ b.1 }) s
  { s with blocks := s.blocks.filter fun b => b.2.gid ≠ gid, gangs := s.gangs.del gid }

/-- A launch ends without completion (R405). -/
def State.abandon (s : State) (lid : Nat) : State :=
  match s.launches.find lid with
  | none => s
  | some l =>
    let s := (s.gangs.filter fun g => g.2.lid = lid).foldl (fun s g => s.dropGang g.1 g.2) s
    let s := { s with launches := s.launches.del lid }.tidyMixed
    match l.src with
    | .queue _ => s.dropPage l.pmem
    | .slot k => (s.dropPage l.pmem).onSlot l.part k fun x => { x with cur := none }
    | .node i _ => s.onPart l.part fun P => { P with insts := P.insts.del i }

/-- A launch that the PREEMPT policy ends now (R375, R401): its slot has a firing due while it runs. -/
def State.preemptDue (s : State) (lid : Nat) (l : Launch) : Bool :=
  match l.src with
  | .slot k =>
    let P := s.part l.part
    let x := P.slot k
    x.set && 2 ≤ x.policy && x.cur = some lid && x.next.any (· ≤ s.gtime) && P.energy ≠ 0 && (P.td = .unlocked || P.td = .run)
  | _ => false

/-- LAUNCH_ABANDON (R401, R405): a launch by itself is abandoned only under the PREEMPT policy of its slot, before the firing that
follows; STOP_INTERFACE and PART_DESTROY abandon every launch of a partition in their own steps. -/
def execLaunchAbandon (lid : Nat) (s : State) : Host.Outcome State Fault Refusal :=
  .next (match s.launches.find lid with
    | some l => match l.src with
      | .slot k => if s.preemptDue lid l then
          (s.abandon lid).onSlot l.part k fun x => { x with preempted := min (x.preempted + 1) (2 ^ 32 - 1) } else s
      | _ => s
    | none => s)

end Sys2Proof.Machine
end

