-- ==== Sys2Proof/Machine/Regs.lean ====
section
/-! DEFINITION. Register writes of the host: the TDISP gate (R425), the page-table port, shootdowns, the fault queue, way
masks, MSI-X and plain registers (R359 to R361, R379 to R394, R401, R424 to R426, R429, R438, R470). -/
namespace Sys2Proof.Machine

/-! ### The gate (R425, R426) -/

/-- A write of the VF by the host: private or shared page, in the locked set or not, trusted or not (R425). -/
def State.vfWrite (s : State) (p : Nat) (priv locked : Bool) (bar off : Nat) (trusted : Bool) (f : State → State) : State :=
  match s.parts.find p with
  | none => s
  | some P =>
    match P.td with
    | .unlocked => f s
    | .error => if priv then s else f s
    | _ =>
      if priv && !trusted then s.onPart p fun P => { P with pdrop := min 255 (P.pdrop + 1) }
      else if locked then
        s.onPart p fun P => { P with
          ldrop := min 65535 (P.ldrop + 1), tdlast := BitVec.ofNat 32 ((if bar = 2 then 65536 else 0) + off % 65536) }
      else f s

/-- A write of BAR2, all of it private (R379). -/
def State.bar2Write (s : State) (p off : Nat) (locked trusted : Bool) (f : Bar2 → Bar2) : State :=
  s.vfWrite p true locked 2 off trusted fun s => s.onPart p fun P => { P with b2 := f P.b2 }

/-- UNTRUSTED_PRIVATE_READ (R425): all ones are returned, and the read is counted. -/
def execUntrustedPrivateRead (part bar off : Nat) (s : State) : Host.Outcome State Fault Refusal :=
  .next (match s.parts.find part with
    | some P =>
      if (P.td = .locked || P.td = .run) && (bar = 2 || (bar = 0 && 0x1000 ≤ off && off < 0x3000)) then
        s.onPart part fun P => { P with pdrop := min 255 (P.pdrop + 1) }
      else s
    | none => s)

/-! ### The page-table port (R386) -/

/-- Bytes put over a run from an offset. -/
def patch (old : List Byte) (off : Nat) (new : List Byte) : List Byte :=
  old.zipIdx.map fun x => if off ≤ x.2 && x.2 < off + new.length then new.getD (x.2 - off) 0 else x.1

/-- One write that the port takes: `PTADDR`, staged bytes, or an entry to write. -/
def Bar2.portTake (b : Bar2) (first : Nat) (data : List Byte) : Bar2 :=
  let clear : List Byte := List.replicate 8 0
  if first = 8 then { b with ptaddr := BitVec.ofNat 64 (leNat data / 8 * 8), staging := clear }
  else
    let st := patch b.staging first data
    if first ≤ 7 && 7 < first + data.length then
      { b with ptpend := some (b.ptaddr, BitVec.ofNat 64 (leNat st)), staging := clear }
    else { b with staging := st }

/-- Writes of the port in order; while one is under way the others are held (R386). -/
def Bar2.portWrite (b : Bar2) (first : Nat) (data : List Byte) : Bar2 :=
  if b.ptpend.isSome then { b with ptheld := b.ptheld ++ [(first, data)] } else b.portTake first data

/-- Held writes taken, up to the next entry. -/
def Bar2.portNext (b : Bar2) : List (Nat × List Byte) → Bar2
  | [] => { b with ptheld := [] }
  | x :: xs => if b.ptpend.isSome then { b with ptheld := x :: xs } else (b.portTake x.1 x.2).portNext xs

/-- PTADDR_WRITE (R386). -/
def execPtaddrWrite (part : Nat) (v : DWord) (trusted : Bool) (s : State) : Host.Outcome State Fault Refusal :=
  .next (s.bar2Write part 0x1C0 false trusted fun b => b.portWrite 8 (natLe 8 v.toNat))

/-- PTDATA_WRITE (R386): one to eight bytes. -/
def execPtdataWrite (part first : Nat) (data : List Byte) (trusted : Bool) (s : State) : Host.Outcome State Fault Refusal :=
  .next (if first ≤ 7 && data ≠ [] && first + data.length ≤ 8 then
      s.bar2Write part (0x1C8 + first) false trusted fun b => b.portWrite first data
    else s)

/-- A PPA lies in a frame granted to the partition (R380, R386). -/
def Part.granted (P : Part) (ppa n : Nat) : Bool := P.frames.any fun f => f.1 ≤ ppa && ppa + n ≤ f.1 + f.2

/-- A bias flip of the leaf at an address runs (R389). -/
def Part.flipAt (P : Part) (a : Nat) : Bool := P.queues.any fun q => q.2.flip.any fun f => f.1 = a

/-- PORT_WRITE_COMPLETE (R386, R389, R451): the entry is replaced whole, and a held write goes on. -/
def execPortWriteComplete (part : Nat) (s : State) : Host.Outcome State Fault Refusal :=
  .next (let P := s.part part
    match P.b2.ptpend with
    | none => s
    | some (a, v) =>
      let at_ := if P.granted a.toNat 8 then P.mpa a.toNat else none
      if P.quiesced || at_.any P.flipAt then s
      else
        let s := match at_ with
          | some m => s.wrFrame P true 0 m (natLe 8 v.toNat)
          | none => s
        s.onPart part fun P =>
          let b := { P.b2 with ptpend := none, ptrefused := at_.isNone }
          { P with b2 := b.portNext b.ptheld })

/-! ### Shootdowns (R387) -/

/-- A go accepted: the range of `SDVA` and `SDLEN` in an ASID. -/
def State.sdStart (s : State) (part : Nat) (v : Word) : State :=
  let b := (s.part part).b2
  let r := if b.sdlen = 0 then (0, 2 ^ 52) else sdRange b.sdva b.sdlen.toNat
  let s := s.onPart part fun P => { P with b2 := { P.b2 with sdbusy := true, sdheld := none } }
  s.startShootdown part { asid := (v.extractLsb' 0 4).toNat, lo := r.1, hi := r.2, fromHost := true }

/-- SHOOTDOWN_GO (R387): dropped while one is busy, held during a quiesce (R452). -/
def execShootdownGo (part : Nat) (v : Word) (trusted : Bool) (s : State) : Host.Outcome State Fault Refusal :=
  .next (s.vfWrite part true false 2 0x190 trusted fun s =>
    let P := s.part part
    if !(v.getLsbD 31) || P.b2.sdbusy then s
    else if P.quiesced then s.onPart part fun P => { P with b2 := { P.b2 with sdbusy := true, sdheld := some v } }
    else s.sdStart part v)

/-! ### Page walks (R383 to R385) -/

/-- PAGE_WALK (R383): the translation's effect on the slice TLB and on the leaf's A and D bits. -/
def execPageWalk (part asid : Nat) (va : DWord) (kind : WalkKind) (s : State) : Host.Outcome State Fault Refusal :=
  .next (s.translate part asid va kind).1

/-! ### The fault queue (R390, R401) -/

/-- A size field that `FQCTL` takes. -/
def fqSizeOk (v : Word) : Bool := let n := (v.extractLsb' 0 5).toNat; n = 0 || (4 ≤ n && n ≤ 16)

/-- FQCTL_WRITE (R390, R424): reserved bits stay zero (R5). -/
def execFqctlWrite (part : Nat) (v : Word) (trusted : Bool) (s : State) : Host.Outcome State Fault Refusal :=
  .next (s.bar2Write part 0x108 true trusted fun b =>
    if fqSizeOk v then { b with fqctl := v &&& 0xFF9F, fqlost := 0 } else b)

/-- A parked warp, running or saved, that a write of `FQHEAD` resumes (R401). -/
def Warp.wake (w : Warp) (v : Word) (tick : Nat) (isSaved : Bool) : Warp :=
  if w.parked && w.resumes v then (if isSaved then { w with resume := true } else w.unpark tick) else w

/-- FQHEAD_WRITE (R390, R401): the parked units whose records are consumed resume. -/
def execFqheadWrite (part : Nat) (v : Word) (trusted : Bool) (s : State) : Host.Outcome State Fault Refusal :=
  .next (s.vfWrite part true false 2 0x110 trusted fun s =>
    let mine (lid : Nat) : Bool := (s.launch lid).part = part
    let s := s.onPart part fun P => { P with b2 := { P.b2 with fqhead := v } }
    { s with
      warps := s.warps.map fun (w : Nat × Warp) => (w.1, if s.partOf w.1 = part then w.2.wake v (s.tickOf w.2.core) false else w.2)
      gangs := s.gangs.map fun (g : Nat × Gang) =>
        (g.1, if mine g.2.lid then
          { g.2 with image := g.2.image.map fun (im : BlockImage) =>
            { im with warps := im.warps.map fun (w : Nat × Warp) => (w.1, w.2.wake v 0 true) } } else g.2) })

/-! ### Way masks (R392 to R394) -/

/-- WAY_MASK_WRITE (R394): the mask counts for fills from now on, and a sweep starts anew. -/
def execWayMaskWrite (part tile cls : Nat) (v : BitVec 16) (trusted : Bool) (s : State) : Host.Outcome State Fault Refusal :=
  .next (s.vfWrite part true false 2 (0x4000 + 32 * tile + 2 * cls) trusted fun s =>
    match (s.part part).tiles[tile]? with
    | some t =>
      if cls < 4 then
        { s with wafer := { s.wafer with wm := s.wafer.wm.put (4 * t + cls) v, sweep := s.wafer.sweep.put t 1 } }
      else s
    | none => s)

/-- WAY_SWEEP_COMPLETE (R394): every line outside its class's present mask is written back and invalid. -/
def execWaySweepComplete (part tile : Nat) (s : State) : Host.Outcome State Fault Refusal :=
  .next (match (s.part part).tiles[tile]? with
    | some t =>
      if (s.wafer.sweep.find t).isNone then s
      else
        let out := s.l2.filter fun l => l.tile = t && !((s.wayMask t l.cls).getLsbD l.way)
        let s := out.foldl (fun s l => (s.l2Write (s.part part) l).l2Drop l) s
        { s with wafer := { s.wafer with sweep := s.wafer.sweep.del t } }
    | none => s)

/-! ### MSI-X (R470) -/

/-- A pending vector is sent when neither it nor the function is masked. -/
def State.sendPending (s : State) (p vec : Nat) : State :=
  let P := s.part p
  let e := P.msix.getD vec {}
  if P.msixEn && !P.msixMask && !(e.ctl.getLsbD 0) && P.pba.getLsbD vec then
    { s.onPart p fun P => { P with pba := P.pba &&& ~~~(1#64 <<< vec) } with
      msgs := s.msgs ++ [{ part := p, vec := vec, addr := e.addr, data := e.data }] }
  else s

def State.sendAll (s : State) (p : Nat) : State := (List.range 64).foldl (fun s v => s.sendPending p v) s

/-- MSIX_VECTOR_UNMASK (R470): the vector's mask bit is cleared, and a pending message is sent. -/
def execMsixVectorUnmask (part vec : Nat) (s : State) : Host.Outcome State Fault Refusal :=
  .next (s.vfWrite part false false 0 (0x80C + 16 * vec) false fun s =>
    if vec < 64 then
      (s.onPart part fun P =>
        let e := P.msix.getD vec {}
        { P with msix := P.msix.put vec { e with ctl := e.ctl &&& 0xFFFFFFFE } }).sendPending part vec
    else s)

/-! ### Plain registers (R5, R359 to R361, R379, R424, R429, R438) -/

def Msix.bytes (e : Msix) : List Byte := natLe 8 e.addr.toNat ++ natLe 4 e.data.toNat ++ natLe 4 e.ctl.toNat
def Msix.ofBytes (b : List Byte) : Msix :=
  { addr := BitVec.ofNat 64 (field b 0 8), data := BitVec.ofNat 32 (field b 8 4), ctl := BitVec.ofNat 32 (field b 12 4) &&& 1 }

/-- Bytes 0 to 27 of a queue's descriptor (R361). -/
def Queue.bytes (q : Queue) : List Byte :=
  natLe 8 q.ring.toNat ++ natLe 8 q.tailp.toNat ++ natLe 8 q.headp.toNat ++ [q.lsize, q.asid, 0, 0]

def Queue.setBytes (q : Queue) (b : List Byte) : Queue :=
  { q with
    ring := BitVec.ofNat 64 (field b 0 8), tailp := BitVec.ofNat 64 (field b 8 8), headp := BitVec.ofNat 64 (field b 16 8),
    lsize := b.getD 24 0, asid := b.getD 25 0 &&& 0xF }

/-- A word of a table with some bytes replaced. -/
def patchWord (old n off : Nat) (data : List Byte) : Nat := leNat (patch (natLe n old) off data)

/-- The bytes of a write that fall in a window, with their offset in it. -/
def clip (off lo n : Nat) (data : List Byte) : Nat × List Byte :=
  if off < lo then (0, (data.drop (lo - off)).take n) else (off - lo, data.take (n - (off - lo)))

/-- A write of VF BAR0: the MSI-X table, and bytes 0 to 27 of a queue's descriptor while it is disabled. -/
def State.bar0Reg (s : State) (p off : Nat) (data : List Byte) (trusted : Bool) : State :=
  if off < 0x1000 then
    if 0x800 ≤ off && off < 0xC00 then
      let v := (off - 0x800) / 16
      s.vfWrite p false false 0 off trusted fun s =>
        (s.onPart p fun P => { P with
          msix := P.msix.put v (Msix.ofBytes (patch (P.msix.getD v {}).bytes ((off - 0x800) % 16) data)) }).sendPending p v
    else s
  else if off < 0x2000 then
    let q := (off - 0x1000) / 64
    let r := (off - 0x1000) % 64
    s.vfWrite p true (decide (r < 28)) 0 off trusted fun s =>
      if r < 28 && ((s.part p).queue q).st = 0 then
        s.onQueue p q fun Q => Q.setBytes (patch Q.bytes r (data.take (28 - r)))
      else s
  else s.vfWrite p (decide (off < 0x3000)) false 0 off trusted id

/-- A write of VF BAR2: the ASID table, the home map, `FQBASE`, `SDVA` and `SDLEN`. -/
def State.bar2Reg (s : State) (p off : Nat) (data : List Byte) (trusted : Bool) : State :=
  if off < 0x100 then
    s.bar2Write p off true trusted fun b =>
      if off % 16 < 8 then
        let x : DWord := BitVec.ofNat 64 (patchWord (b.asids.getD (off / 16) 0).toNat 8 (off % 16) data)
        { b with asids := b.asids.put (off / 16) (x &&& 0xFFFFFFFFFFFF0001) }
      else b
  else if 0x1000 ≤ off && off < 0x3000 then
    s.bar2Write p off true trusted fun b =>
      (List.range 4).foldl (fun b i =>
        let h := (off - 0x1000) / 2 + i
        let c := clip off (0x1000 + 2 * h) 2 data
        if c.2 = [] || 4095 < h then b
        else
          let x : BitVec 16 := BitVec.ofNat 16 (patchWord (b.homes.getD h 0).toNat 2 c.1 c.2)
          { b with homes := b.homes.put h (x &&& 0x87FF) }) b
  else
    let r := off % 8
    match off / 8 * 8 with
    | 0x100 => s.bar2Write p off true trusted fun b => { b with fqbase := BitVec.ofNat 64 (patchWord b.fqbase.toNat 8 r data) }
    | 0x180 => s.bar2Write p off false trusted fun b => { b with sdva := BitVec.ofNat 64 (patchWord b.sdva.toNat 8 r data) }
    | 0x188 => s.bar2Write p off false trusted fun b => { b with sdlen := BitVec.ofNat 64 (patchWord b.sdlen.toNat 8 r data) }
    | _ => s.vfWrite p true false 2 off trusted id

/-- A write of the physical function: `YREQ`, `RSEL` and `RWARN` (R429, R438). -/
def State.pfReg (s : State) (off : Nat) (data : List Byte) : State :=
  let g := s.grm
  let r := off % 4
  if off < 0x100 then
    { s with grm := { g with yreq := Memory.wrN g.yreq off (data.take (0x100 - off)) } }
  else match off / 4 * 4 with
    | 0x5008 => { s with grm := { g with rsel := BitVec.ofNat 32 (patchWord g.rsel.toNat 4 r data) &&& 0x7FF } }
    | 0x5018 => { s with grm := { g with rwarn := BitVec.ofNat 32 (patchWord g.rwarn.toNat 4 r data) } }
    | _ => s

/-- The MSI-X Message Control word in a VF's configuration space: enable and function mask (R470; log entry 24). -/
def State.msixControl (s : State) (p : Nat) (v : DWord) : State :=
  (s.onPart p fun P => { P with msixEn := v.getLsbD 15, msixMask := v.getLsbD 14 }).sendAll p

/-- REGISTER_WRITE (R5, R359, R379, R424, R429): `bar` 6 names configuration space (log entry 24). -/
def execRegisterWrite (fn : Fn) (bar off size : Nat) (v : DWord) (trusted : Bool) (s : State) :
    Host.Outcome State Fault Refusal :=
  let data := natLe (min size 8) v.toNat
  .next (match fn, bar with
    | .pf, 0 => s.pfReg off data
    | .pf, _ => s
    | .vf p, 0 => s.bar0Reg p off data trusted
    | .vf p, 2 => s.bar2Reg p off data trusted
    | .vf p, 6 => if (s.parts.find p).isSome && off ≤ 2 && 4 ≤ off + size then s.msixControl p (v >>> (8 * (2 - off))) else s
    | .vf _, _ => s)

end Sys2Proof.Machine
end

