-- ==== Sys2Proof/Machine/Queue.lean ====
section
/-! DEFINITION. Queues: tail watching, packets, graphs, bias flips, the control word, and the time-triggered table (R90,
R100, R361 to R375, R389, R458, R468). -/
namespace Sys2Proof.Machine

/-! ### Parsing (R363, R364, R423) -/

/-- A queue of a partition parses now: enabled, in state 01, with nothing that holds it (R362, R423, R451). -/
def Part.parses (P : Part) (q : Nat) : Bool :=
  let Q := P.queue q
  P.placesNow && Q.en && Q.st = 1 && Q.conds = [] && Q.drain.isNone && Q.flip.isNone && Q.owed.isNone

/-- Slots that the tail covers, modulo 2^32 (R363). -/
def Queue.covered (Q : Queue) : Nat := (Q.tail - Q.head).toNat

/-- The address of the slot of a count. -/
def Queue.slotAt (Q : Queue) (n : Word) : DWord := Q.ring + BitVec.ofNat 64 (64 * (n.toNat % 2 ^ Q.lsize.toNat))

/-- A read of the queue; one that fails is error 4 (R364), one that stalls for a bias flip comes again (R100). -/
def State.queueRead (s : State) (p q : Nat) (va : DWord) (n : Nat) : State × Option (List Byte) :=
  match s.devRead p ((s.part p).queue q).asidNo va n with
  | (s, .ok bs) => (s, some bs)
  | (s, .error e) => (s.queueFault p q 5 e.1 e.2, none)

/-- The packet at `head`, when the tail covers it and is in range (R363); none while the head write behind it would stall for
a bias flip (R100). -/
def State.headPacket (s : State) (p q : Nat) : State × Option (List Byte) :=
  let Q := (s.part p).queue q
  if !((s.part p).parses q) || Q.covered = 0 || s.ctrHeld p Q.asidNo Q.headp then (s, none)
  else if 2 ^ Q.lsize.toNat < Q.covered then (s.queueErr p q 6, none)
  else s.queueRead p q (Q.slotAt Q.head) 64

/-- `head` past some slots, written at `headp` when that is given; a write that fails is dropped with a record (R363,
R468). -/
def State.passSlots (s : State) (p q n : Nat) : State :=
  let s := s.onQueue p q fun Q => { Q with headAt := Q.head, head := Q.head + BitVec.ofNat 32 n }
  let Q := (s.part p).queue q
  if Q.headp = 0 then s
  else
    match s.deviceWrite p Q.asidNo Q.headp (natLe 4 Q.head.toNat) with
    | .ok s => s
    | .error f => s.queueRec p q Q.asidNo 5 f Q.headp

/-- The queue stalls behind a packet that it has passed, with a `wait` code (R362). -/
def State.stallQueue (s : State) (p q wait : Nat) (f : Queue → Queue) : State :=
  s.onQueue p q fun Q => f { Q with st := 2, wait := wait, since := s.gtime }

/-- The stall is over. -/
def State.unstall (s : State) (p q : Nat) : State :=
  s.onQueue p q fun Q => if Q.st = 2 then { Q with st := 1, wait := 0 } else Q

/-- TAIL_LINE_INVALIDATION (R363, R364): the tail is read again; it must be in range, and a covered packet's type known. -/
def execTailLineInvalidation (part q : Nat) (s : State) : Host.Outcome State Fault Refusal :=
  .next (if !((s.part part).parses q) then s
    else
      match s.queueRead part q ((s.part part).queue q).tailp 4 with
      | (s, none) => s
      | (s, some bs) =>
        match (s.onQueue part q fun Q => { Q with tail := BitVec.ofNat 32 (leNat bs) }).headPacket part q with
        | (s, some b) => if 5 < field b 0 1 then s.queueErr part q 1 else s
        | (s, none) => s)

/-- A packet of one type at `head`, handed to its meaning. -/
def State.onPacket (s : State) (p q type : Nat) (f : State → List Byte → State) : State :=
  match s.headPacket p q with
  | (s', some b) => if field b 0 1 = type then f s' b else s
  | (s', none) => s'

/-! ### NOP and LAUNCH (R365, R366) -/

/-- PACKET_NOP (R365). -/
def execPacketNop (part q : Nat) (s : State) : Host.Outcome State Fault Refusal :=
  .next (s.onPacket part q 0 fun s b => if zeros b 1 64 then s.passSlots part q 1 else s.queueErr part q 2)

/-- PACKET_LAUNCH (R366). -/
def execPacketLaunch (part q : Nat) (s : State) : Host.Outcome State Fault Refusal :=
  .next (s.onPacket part q 1 fun s b =>
    match s.startImage part ((s.part part).queue q).asidNo b (.queue q) none 0 with
    | (s, .ok _) => s.passSlots part q 1
    | (s, .error (.code e)) => s.queueErr part q e
    | (s, .error (.fault f va)) => s.queueFault part q 5 f va)

/-! ### FENCE (R367) -/

/-- Slots of a FENCE of n conditions. -/
def fenceSlots (n : Nat) : Nat := if n ≤ 3 then 1 else 1 + (n - 3 + 3) / 4

/-- The error of a condition's `where` word. -/
def condBad (w : Nat) : Option Nat :=
  if w % 8 ≠ 0 || 2 ^ 56 ≤ w then some 2 else if 2 < w / 2 ^ 52 % 16 then some 5 else none

/-- The conditions in a FENCE's bytes from 16 up, or its error. -/
def condsOf (n : Nat) (body : List Byte) : Except Nat (List (DWord × DWord)) :=
  let l := (List.range (body.length / 16)).map fun i => (field body (16 * i) 8, field body (16 * i + 8) 8)
  if (l.drop n).any fun c => c.1 ≠ 0 || c.2 ≠ 0 then .error 2
  else match (l.take n).findSome? fun c => condBad c.1 with
    | some e => .error e
    | none => .ok ((l.take n).map fun c => (BitVec.ofNat 64 c.1, BitVec.ofNat 64 c.2))

/-- The slots after a FENCE's first. -/
def State.fenceBody (s : State) (p q : Nat) : Nat → Nat → State × Option (List Byte)
  | _, 0 => (s, some [])
  | i, k + 1 =>
    let Q := (s.part p).queue q
    match s.queueRead p q (Q.slotAt (Q.head + BitVec.ofNat 32 i)) 64 with
    | (s, none) => (s, none)
    | (s, some b) =>
      match s.fenceBody p q (i + 1) k with
      | (s, some r) => (s, some (b ++ r))
      | (s, none) => (s, none)

/-- PACKET_FENCE (R363, R367): parsing is held until its conditions have been observed true. -/
def execPacketFence (part q : Nat) (s : State) : Host.Outcome State Fault Refusal :=
  .next (s.onPacket part q 2 fun s b =>
    let n := field b 1 1
    if n = 0 || 12 < n then s.queueErr part q 5
    else if ((s.part part).queue q).covered < fenceSlots n then s
    else if !(zeros b 2 16) then s.queueErr part q 2
    else
      match s.fenceBody part q 1 (fenceSlots n - 1) with
      | (s, none) => s
      | (s, some rest) =>
        match condsOf n (b.drop 16 ++ rest) with
        | .error e => s.queueErr part q e
        | .ok cs => (s.passSlots part q (fenceSlots n)).stallQueue part q 1 fun Q => { Q with conds := cs })

/-- A condition holds of a counter's value. -/
def condMet (c : DWord × DWord) (v : DWord) : Bool :=
  match (c.1.extractLsb' 52 4).toNat with
  | 0 => decide (c.2.toNat ≤ v.toNat)
  | 1 => decide (v = c.2)
  | _ => decide (v ≠ c.2)

/-- Conditions read again in order; those met are dropped, one whose read stalls for a bias flip stays (R100). -/
def State.rereadConds (s : State) (p q : Nat) : List (DWord × DWord) → State × Option (List (DWord × DWord))
  | [] => (s, some [])
  | c :: cs =>
    let va : DWord := c.1 &&& 0x000FFFFFFFFFFFF8
    let held := s.flipping p ((s.part p).queue q).asidNo va
    match s.queueRead p q va 8 with
    | (s, got) =>
      if got.isNone && !held then (s, none)
      else
        match s.rereadConds p q cs with
        | (s, none) => (s, none)
        | (s, some r) => (s, some (if got.any fun bs => condMet c (BitVec.ofNat 64 (leNat bs)) then r else c :: r))

/-- FENCE_CONDITION_MET (R367): each pending counter is read at its home slice. -/
def execFenceConditionMet (part q : Nat) (s : State) : Host.Outcome State Fault Refusal :=
  .next (let Q := (s.part part).queue q
    if Q.conds = [] || Q.st ≠ 2 || !((s.part part).placesNow) then s
    else
      match s.rereadConds part q Q.conds with
      | (s, none) => s
      | (s, some cs) =>
        let s := s.onQueue part q fun Q => { Q with conds := cs }
        if cs = [] then s.unstall part q else s)

/-! ### SIGNAL (R368) -/

/-- The rules of a SIGNAL packet (R364 code 2). -/
def signalBad (b : List Byte) : Bool :=
  let fl := field b 1 1
  8 ≤ fl || 63 < field b 2 1 || !(zeros b 3 8) || !(zeros b 24 64) || field b 8 8 % 8 ≠ 0 ||
    (field b 8 8 = 0 && fl ≠ 4)

/-- A SIGNAL's update, then its interrupt; the fault of an update that fails. -/
def State.signalDo (s : State) (p asid : Nat) (b : List Byte) : State × Option WalkFail :=
  let fl := field b 1 1
  let va := BitVec.ofNat 64 (field b 8 8)
  let r := if va = 0 then (s, none) else s.counterUpdate p asid va (BitVec.ofNat 64 (field b 16 8)) (decide (fl / 2 % 2 = 1))
  match r.2 with
  | some f => (r.1, some f)
  | none => (if fl / 4 % 2 = 1 then r.1.raise p (field b 2 1) else r.1, none)

/-- Launches and graph instances that a queue has started and that are not complete. -/
def State.earlier (s : State) (p q : Nat) : List Nat :=
  ((s.launches.filter fun l => l.2.part = p && l.2.src = .queue q).map (·.1)) ++
  (((s.part p).insts.filter fun i => i.2.q = q).map (·.1))

/-- A SIGNAL that nothing holds any more. -/
def State.signalGo (s : State) (p q : Nat) (b : List Byte) : State × Bool :=
  match s.signalDo p ((s.part p).queue q).asidNo b with
  | (s, some f) => (s.queueFault p q 5 f (BitVec.ofNat 64 (field b 8 8)), false)
  | (s, none) => (s, true)

/-- PACKET_SIGNAL (R368): with `drain` it waits for every earlier launch and graph of its queue, and later packets wait
for it. -/
def execPacketSignal (part q : Nat) (s : State) : Host.Outcome State Fault Refusal :=
  .next (match ((s.part part).queue q).drain with
    | some (b, ids) =>
      if !((s.part part).placesNow) || ((s.part part).queue q).st ≠ 2 || (s.earlier part q).any ids.contains then s
      else
        match s.signalGo part q b with
        | (s, true) => (s.onQueue part q fun Q => { Q with drain := none }).unstall part q
        | (s, false) => s
    | none =>
      s.onPacket part q 3 fun s b =>
        if signalBad b then s.queueErr part q 2
        else if field b 1 1 % 2 = 1 && s.earlier part q ≠ [] then
          let ids := s.earlier part q
          (s.passSlots part q 1).stallQueue part q 0 fun Q => { Q with drain := some (b, ids) }
        else
          match s.signalGo part q b with
          | (s, true) => s.passSlots part q 1
          | (s, false) => s)

/-! ### Graphs (R370, R371) -/

/-- The error of a node's packet image (R364, R370). -/
def nodeBad (b : List Byte) : Option Nat :=
  match field b 0 1 with
  | 1 => launchCheck b
  | 3 => if signalBad b || field b 1 1 % 2 = 1 then some 2 else none
  | _ => some 7

/-- The nodes of a graph object read and checked, each LAUNCH with its descriptor (log entry 25). -/
def State.readNodes (s : State) (p q : Nat) (obj : DWord) : Nat → Nat → State × Option (List GNode)
  | _, 0 => (s, some [])
  | i, k + 1 =>
    match s.queueRead p q (obj + BitVec.ofNat 64 (64 + 128 * i)) 72 with
    | (s, none) => (s, none)
    | (s, some b) =>
      let after := field b 64 8
      if 2 ^ i ≤ after then (s.queueErr p q 7, none)
      else
        match nodeBad (b.take 64) with
        | some e => (s.queueErr p q e, none)
        | none =>
          let d : State × Except LaunchFail KDesc :=
            if field b 0 1 = 1 then s.readDesc p ((s.part p).queue q).asidNo (b.take 64) else (s, .ok {})
          match d with
          | (s, .error (.code e)) => (s.queueErr p q e, none)
          | (s, .error (.fault f va)) => (s.queueFault p q 5 f va, none)
          | (s, .ok d) =>
            match s.readNodes p q obj (i + 1) k with
            | (s, none) => (s, none)
            | (s, some r) => (s, some ({ pkt := b.take 64, after := BitVec.ofNat 64 after, desc := d } :: r))

/-- The rules of a GRAPH packet. -/
def graphBad (b : List Byte) : Option Nat :=
  if !(zeros b 1 8 && zeros b 28 32 && zeros b 48 64) || field b 32 8 % 8 ≠ 0 || 256 < field b 24 2 then some 2
  else if field b 8 8 % 64 ≠ 0 then some 7
  else none

/-- The rules of a graph object's header, with its packet's patch. -/
def objBad (h b : List Byte) : Option Nat :=
  if field h 0 2 = 0 || 64 < field h 0 2 then some 7
  else if !(zeros h 2 8 && zeros h 20 64) || 65536 < field h 16 4 || field h 16 4 < field b 26 2 + field b 24 2 then some 2
  else none

/-- A graph's parameter block with the patch over it (R371). -/
def State.graphParams (s : State) (p q : Nat) (h b : List Byte) : State × Option (List Byte) :=
  match s.queueRead p q (BitVec.ofNat 64 (field h 8 8)) (field h 16 4) with
  | (s, none) => (s, none)
  | (s, some ps) =>
    if field b 16 8 = 0 then (s, some ps)
    else
      match s.queueRead p q (BitVec.ofNat 64 (field b 16 8)) (field b 24 2) with
      | (s, none) => (s, none)
      | (s, some patchBytes) => (s, some (patch ps (field b 26 2) patchBytes))

/-- A replay becomes an instance (R371). -/
def State.startGraph (s : State) (p q : Nat) (b : List Byte) : State :=
  let obj := BitVec.ofNat 64 (field b 8 8)
  match s.queueRead p q obj 64 with
  | (s, none) => s
  | (s, some h) =>
    match objBad h b with
    | some e => s.queueErr p q e
    | none =>
      match s.readNodes p q obj 0 (field h 0 2) with
      | (s, none) => s
      | (s, some nodes) =>
        match s.graphParams p q h b with
        | (s, none) => s
        | (s, some ps) =>
          let asid := ((s.part p).queue q).asidNo
          let r := s.paramPage p asid ps
          let x : GraphInst := { obj := obj, q := q, asid := asid, params := r.2.1, pmem := r.2.2, nodes := nodes,
                                 ctr := BitVec.ofNat 64 (field b 32 8), inc := BitVec.ofNat 64 (field b 40 8) }
          let s := r.1
          let s := { s.onPart p fun P => { P with insts := P.insts.put s.nextId x } with nextId := s.nextId + 1 }
          s.passSlots p q 1

/-- PACKET_GRAPH (R371): a fifth instance of one graph object stalls its queue, since it first did so (R362). -/
def execPacketGraph (part q : Nat) (s : State) : Host.Outcome State Fault Refusal :=
  let Q := (s.part part).queue q
  let again := Q.st = 2 && Q.wait = 3
  let s' := if again then s.unstall part q else s
  let t := s'.onPacket part q 4 fun s b =>
    match graphBad b with
    | some e => s.queueErr part q e
    | none =>
      if 4 ≤ ((s.part part).insts.filter fun i => i.2.obj = BitVec.ofNat 64 (field b 8 8)).length then
        s.stallQueue part q 3 fun R => if again then { R with since := Q.since } else R
      else s.startGraph part q b
  .next (if (t.part part).queue q = (s'.part part).queue q then t.onQueue part q fun _ => Q else t)

/-- Every node that a node follows is complete. -/
def GraphInst.free (x : GraphInst) (n : Nat) : Bool :=
  match x.nodes[n]? with
  | some y => y.st = 0 && x.nodes.zipIdx.all fun z => !(y.after.getLsbD z.2) || z.1.st = 2
  | none => false

/-- A node's LAUNCH starts. -/
def State.startNode (s : State) (p i n : Nat) (x : GraphInst) (y : GNode) : State :=
  let b := y.pkt
  (s.addLaunch
    { part := p, serial := 0, asid := x.asid, prio := field b 1 1, params := x.params, pmem := x.pmem,
      ctr := BitVec.ofNat 64 (field b 24 8), inc := BitVec.ofNat 64 (field b 32 8), gangs := field b 4 4, desc := y.desc,
      src := .node i n, ready := s.gtime }).1

/-- GRAPH_NODE_START (R371). -/
def execGraphNodeStart (part inst node : Nat) (s : State) : Host.Outcome State Fault Refusal :=
  .next (match (s.part part).insts.find inst with
    | none => s
    | some x =>
      match (if x.free node && (s.part part).placesNow then x.nodes[node]? else none) with
      | none => s
      | some y =>
        if field y.pkt 0 1 ≠ 1 && (s.ctrHeld part x.asid (BitVec.ofNat 64 (field y.pkt 8 8)) || s.instHeld part x) then s
        else
        let s := s.onInst part inst fun x => { x with nodes := x.nodes.zipIdx.map fun z =>
          if z.2 = node then { z.1 with st := 1 } else z.1 }
        if field y.pkt 0 1 = 1 then s.startNode part inst node x y
        else
          match s.signalDo part x.asid y.pkt with
          | (s, some f) => (s.queueFault part x.q 5 f (BitVec.ofNat 64 (field y.pkt 8 8))).nodeDone part inst node
          | (s, none) => s.nodeDone part inst node)

/-! ### Bias flips (R100, R369, R389) -/

/-- The leaf that a BIAS names: its entry's address, or why it cannot be flipped (R389). -/
def State.biasLeaf (s : State) (p asid : Nat) (va : DWord) : Except WalkFail (Leaf × Nat) :=
  match s.walk p asid va with
  | .error f => .error f
  | .ok (lf, at_) =>
    if lf.level = 0 && (lf.space = 1 || lf.space = 2) then .ok (lf, at_)
    else .error { cause := cz 0x11 2, level := lf.level, pte := lf.pte }

/-- PACKET_BIAS (R369, R389): parsing stops until the flip completes. -/
def execPacketBias (part q : Nat) (s : State) : Host.Outcome State Fault Refusal :=
  .next (s.onPacket part q 5 fun s b =>
    let va := BitVec.ofNat 64 (field b 8 8)
    if 1 < field b 1 1 || !(zeros b 2 8) || !(zeros b 24 64) || field b 8 8 % 65536 ≠ 0 || field b 16 8 % 8 ≠ 0 then
      s.queueErr part q 2
    else
      match s.biasLeaf part ((s.part part).queue q).asidNo va with
      | .error f => s.queueFault part q 6 f va
      | .ok (_, at_) =>
        (s.passSlots part q 1).stallQueue part q 0 fun Q =>
          { Q with flip := some (at_, va, BitVec.ofNat 64 (field b 16 8), decide (field b 1 1 = 1)) })

/-- The page's lines leave the slices, written back (R100). -/
def State.purgePage (s : State) (P : Part) (space base : Nat) : State :=
  (s.l2.filter fun l => l.space = space && base ≤ l.addr && l.addr < base + 65536).foldl
    (fun s l => (s.l2Write P l).l2Drop l) s

/-- The losing side is drained: a flip to host bias forces owned words back and purges the page (R100). -/
def State.flipDrain (s : State) (p asid : Nat) (va : DWord) (lf : Leaf) (toDev : Bool) : State :=
  let s := if toDev then s
    else
      (s.reg.filter fun r => r.part = p && r.asid = asid && r.line / 512 = va.toNat / 65536 && r.mask ≠ 0).foldl (fun s r =>
        match (s.part p).homeTile va with
        | some tile => s.forceBack p asid r.line tile { lf with addr := lf.addr / 65536 * 65536 + r.line % 512 * 128 }
        | none => s) s
  s.purgePage (s.part p) lf.space (lf.addr / 65536 * 65536)

/-- The bias written into the leaf at its frame, and into every slice's cached copy (R389). -/
def State.setBias (s : State) (p at_ : Nat) (toDev : Bool) : State :=
  let f (x : DWord) : DWord := if toDev then x ||| 0x80 else x &&& ~~~(0x80 : DWord)
  let s := match s.rdFrame (s.part p) true 0 at_ 8 with
    | .ok bs => s.wrFrame (s.part p) true 0 at_ (natLe 8 (f (BitVec.ofNat 64 (leNat bs))).toNat)
    | .error _ => s
  { s with tlb := s.tlb.map fun e => if e.part = p && e.addr = at_ then { e with pte := f e.pte } else e }

/-- No access of a page is with its owner, so that the stall of a flip has drained it. -/
def State.pageQuiet (s : State) (p asid : Nat) (va : DWord) : Bool :=
  s.accs.all fun a => !(a.2.part = p && a.2.asid = asid && a.2.va.toNat / 65536 = va.toNat / 65536 &&
    match a.2.st with
    | .atOwner _ => true
    | _ => false)

/-- The counter of a flip that is complete (R369, R389), unless its update stalls for another flip (R100). -/
def State.payFlip (s : State) (p q : Nat) : State :=
  let Q := (s.part p).queue q
  match Q.owed with
  | none => s
  | some ctr =>
    if s.ctrHeld p Q.asidNo ctr then s
    else
      let s := s.onQueue p q fun Q => { Q with owed := none }
      match (if ctr = 0 then (s, none) else s.counterUpdate p Q.asidNo ctr 1 false) with
      | (s, none) => s.unstall p q
      | (s, some f) => (s.queueFault p q 5 f ctr).onQueue p q fun Q => { Q with head := Q.headAt }

/-- BIAS_FLIP_COMPLETE (R100, R369, R389): the flip, then its counter. -/
def execBiasFlipComplete (part q : Nat) (s : State) : Host.Outcome State Fault Refusal :=
  .next (let Q := (s.part part).queue q
    match Q.flip with
    | none => s.payFlip part q
    | some (at_, va, ctr, toDev) =>
      if !(s.pageQuiet part Q.asidNo va) then s
      else
        let s := match s.walk part Q.asidNo va with
          | .ok (lf, _) => s.flipDrain part Q.asidNo va lf toDev
          | .error _ => s
        ((s.setBias part at_ toDev).onQueue part q fun Q => { Q with flip := none, owed := some ctr }).payFlip part q)

/-! ### The control word (R361, R362) -/

/-- `abort` (R362): parsing stops at once; a flip that runs goes on. -/
def State.abortQueue (s : State) (p q : Nat) : State :=
  s.onQueue p q fun Q => { Q with en := false, st := 0, wait := 0, conds := [], drain := none }

/-- QCTL_ABORT (R362). -/
def execQctlAbort (part q : Nat) (trusted : Bool) (s : State) : Host.Outcome State Fault Refusal :=
  .next (s.vfWrite part true false 0 (0x101C + 64 * q) trusted fun s => s.abortQueue part q)

/-- QCTL_RESUME (R362, R364): error 8 is not cleared. -/
def execQctlResume (part q : Nat) (trusted : Bool) (s : State) : Host.Outcome State Fault Refusal :=
  .next (s.vfWrite part true false 0 (0x101C + 64 * q) trusted fun s =>
    let Q := (s.part part).queue q
    if Q.st = 3 && Q.err ≠ 8 then s.onQueue part q fun Q => { Q with st := 1, err := 0 } else s)

/-- A descriptor that may be enabled (R364 code 8). -/
def Queue.descOk (Q : Queue) : Bool :=
  4 ≤ Q.lsize.toNat && Q.lsize.toNat ≤ 16 && Q.ring.toNat % 4096 = 0 && Q.tailp.toNat % 128 = 0 && Q.headp.toNat % 8 = 0

/-- QCTL_EN (R362, R364): a write of 0 while `en` is 1 acts as `abort`. -/
def execQctlEn (part q : Nat) (en trusted : Bool) (s : State) : Host.Outcome State Fault Refusal :=
  .next (s.vfWrite part true false 0 (0x101C + 64 * q) trusted fun s =>
    let Q := (s.part part).queue q
    if en then
      if Q.en then s
      else if !Q.descOk then s.onQueue part q fun Q => { Q with en := true, st := 3, err := 8 }
      else s.onQueue part q fun Q => { Q with en := true, st := 1, err := 0, wait := 0, tail := Q.head }
    else if Q.en then s.abortQueue part q else s)

/-- QUEUE_HEAD_WRITE (R361): while the state is 00 or 11. -/
def execQueueHeadWrite (part q : Nat) (v : Word) (trusted : Bool) (s : State) : Host.Outcome State Fault Refusal :=
  .next (s.vfWrite part true false 0 (0x1024 + 64 * q) trusted fun s =>
    let Q := (s.part part).queue q
    if Q.st = 0 || Q.st = 3 then s.onQueue part q fun Q => { Q with head := v } else s)

/-! ### The time-triggered table (R375, R458) -/

/-- The next firing of a slot after one of a time. -/
def Slot.after (x : Slot) (t : Nat) : Option Nat := if x.period = 0 then none else some (t + x.period)

/-- A firing that the policy judges (R375). -/
def State.slotJudge (s : State) (p k t : Nat) : State :=
  let x := (s.part p).slot k
  match x.cur with
  | none => s.slotStart p k t
  | some lid =>
    match x.policy with
    | 0 => s.onSlot p k fun x => { x with skipped := min (x.skipped + 1) (2 ^ 32 - 1) }
    | 1 =>
      if x.hold.isSome then s.onSlot p k fun x => { x with skipped := min (x.skipped + 1) (2 ^ 32 - 1) }
      else s.onSlot p k fun x => { x with hold := some t }
    | _ =>
      ((s.abandon lid).onSlot p k fun x => { x with preempted := min (x.preempted + 1) (2 ^ 32 - 1) }).slotStart p k t

/-- SLOT_FIRE (R375, R423, R458): at start + k x period of Griermor's time; while the allowance is used up the firing is
deferred to the window start. A firing that only a stall held starts first (R100). -/
def execSlotFire (part slot : Nat) (s : State) : Host.Outcome State Fault Refusal :=
  .next (let P := s.part part
    let x := P.slot slot
    let live := x.set && (P.td = .unlocked || P.td = .run)
    match (if live && x.cur.isNone then x.hold else none) with
    | some t => (s.onSlot part slot fun x => { x with hold := none }).slotStart part slot t
    | none =>
    match (if live then x.next else none) with
    | none => s
    | some t =>
      if s.gtime < t then s
      else
        let s := s.onSlot part slot fun x => { x with fired := x.fired + 1, last := s.gtime, next := x.after t }
        if P.energy = 0 then s.onPart part fun P => { P with deferred := P.deferred ++ [(slot, t)] }
        else s.slotJudge part slot t)

end Sys2Proof.Machine
end

