-- ==== Sys2Proof/Machine/Quiesce.lean ====
section
/-! DEFINITION. The logical pool (R442, R443), connected shapes (R444, R450), and the quiesce protocol with what it is run
for: other tiles under the same numbers, checkpoints and recovery (R437, R439, R440, R451 to R453). -/
namespace Sys2Proof.Machine

/-! ### The pool (R442, R443) -/

/-- The state of a logical tile. -/
def State.tileSt (s : State) (t : Nat) : TileSt := s.wafer.tile.getD t .free

def State.setTile (s : State) (t : Nat) (x : TileSt) : State := { s with wafer := { s.wafer with tile := s.wafer.tile.put t x } }

/-- Logical tiles that are free, in order. -/
def State.freeTiles (s : State) : List Nat := (List.range Config.poolTiles).filter fun t => s.tileSt t = .free

/-- Spares held, in order. -/
def State.spares (s : State) : List Nat := (List.range Config.poolTiles).filter fun t => s.tileSt t = .spare

/-- A core of the tile was declared failed (R440). -/
def State.tileFailed (s : State) (t : Nat) : Bool := (List.range 4).any fun c => (s.coreRegs (4 * t + c)).failed

/-- Free tiles of Griermor's choice become spares until 24 are held (R443). -/
def State.topSpares (s : State) : Nat → State
  | 0 => s
  | n + 1 =>
    let l := s.freeTiles
    if 24 ≤ s.spares.length || l = [] then s
    else
      let t := l.getD (Config.freeNat s.freeCtr % l.length) 0
      ({ s.setTile t .spare with freeCtr := s.freeCtr + 1 }).topSpares n

/-- So many tiles of a list that are connected with some tiles, nearest first, if there are. -/
def growFrom (own avail avoid : List Nat) (n : Nat) : Option (List Nat) :=
  let all := own ++ avail
  let l := ((layersOf all avoid (n + 1) own own).flatten.filter fun t => !(own.contains t)).take n
  if l.length = n then some l else none

/-- Islands that some tiles span. -/
def State.spans (s : State) (l : List Nat) : Nat := ((l.map s.islandOf).eraseDups).length

/-- So many tiles of some islands, connected with those they join, or by themselves where they join none (R444). -/
def State.shapeIn (s : State) (own avail avoid : List Nat) (n : Nat) (islands : List Nat) : Option (List Nat) :=
  let l := avail.filter fun t => islands.contains (s.islandOf t)
  if n = 0 then some []
  else if own = [] then l.findSome? fun t => (growFrom [t] (l.filter (· ≠ t)) avoid (n - 1)).map (t :: ·)
  else growFrom own l avoid n

/-- The first of a list's subsets of so many members that a function answers for. -/
def firstSubset {α β : Type} (f : List α → Option β) : List α → Nat → List α → Option β
  | _, 0, acc => f acc
  | [], _ + 1, _ => none
  | x :: xs, k + 1, acc => match firstSubset f xs k (acc ++ [x]) with
    | some y => some y
    | none => firstSubset f xs (k + 1) acc

/-- A shape of so many tiles that spans the fewest islands (R450); an island has 16 tiles (R442). -/
def State.bestShape (s : State) (own avail avoid : List Nat) (n : Nat) : Option (List Nat) :=
  let islands := (avail.map s.islandOf).eraseDups
  if (s.shapeIn own avail avoid n islands).isNone then none
  else (List.range (islands.length + 1)).findSome? fun k =>
    if 16 * k < n then none else firstSubset (s.shapeIn own avail avoid n) islands k []

/-- Connected tiles that Griermor chooses among some, numbered by row and column (R444, R450). -/
def State.chooseTiles (s : State) (avail avoid : List Nat) (n : Nat) : Option (List Nat) :=
  (s.bestShape [] avail avoid n).map rising

/-- Sum of the distances between the tiles of a shape (R453). -/
def totalHops (tiles avoid : List Nat) : Nat :=
  sumNat (tiles.map fun t => sumNat ((distances tiles avoid t).zipIdx.map fun l => l.1.length * l.2))

/-- A list with the tile of one number replaced. -/
def putTile (tiles : List Nat) (i t : Nat) : List Nat := tiles.zipIdx.map fun x => if x.2 = i then t else x.1

/-- Spares whose addition in the place of a local tile keeps the partition connected with the fewest route hops (R453). -/
def State.bestSpares (s : State) (P : Part) (i : Nat) : List Nat :=
  let l := (s.spares.filter fun t => !(s.tileFailed t)).filter fun t => connectedOver (putTile P.tiles i t) s.wafer.linkDown
  let h (t : Nat) : Nat := totalHops (putTile P.tiles i t) s.wafer.linkDown
  l.filter fun t => l.all fun u => h t ≤ h u

/-! ### Steps 1 to 3 (R451) -/

/-- Every running gang of a partition is halted (R403). -/
def State.haltAll (s : State) (p : Nat) : State :=
  ((s.gangs.filter fun g => g.2.st = .running && (s.launch g.2.lid).part = p).map (·.1)).foldl State.haltGang s

/-- A quiesce begins. -/
def State.quiesce (s : State) (p : Nat) : State :=
  (s.onPart p fun P => { P with quiesced := true, qsince := s.gtime }).haltAll p

/-- A quiesce is asked for: it begins now, or after those before it (R452). -/
def State.askJob (s : State) (p : Nat) (j : Job) : State :=
  let idle := (s.part p).jobs = []
  let s := s.onPart p fun P => { P with jobs := P.jobs ++ [j] }
  if idle && !(s.part p).quiesced then s.quiesce p else s

/-- Steps 1 to 3 are complete: every gang is saved, all traffic has drained, and no resolution is under way. -/
def State.calm (s : State) (p : Nat) : Bool :=
  let P := s.part p
  P.quiesced &&
  (s.gangs.all fun g => (s.launch g.2.lid).part ≠ p || (g.2.st ≠ .running && g.2.st ≠ .halted)) &&
  (s.accs.all fun a => a.2.part ≠ p || s.isSaved a.2.bid) && (s.ops.all fun o => o.2.part ≠ p) &&
  (s.hreqs.all fun r => r.2.part ≠ p) && (P.res.all fun r => r.2.complete) && P.sds = [] &&
  P.queues.all fun q => q.2.flip.isNone

/-! ### Step 4 (R451) -/

/-- Owned words of some lines come back to their slices. -/
def State.reclaim (s : State) (p : Nat) (which : Registry → Bool) : State :=
  (s.reg.filter fun r => r.part = p && r.mask ≠ 0 && which r).foldl (fun s r =>
    let va := BitVec.ofNat 64 (r.line * 128)
    let t := s.translate p r.asid va .cwb
    match t.2, (s.part p).homeTile va with
    | .ok lf, some tile => t.1.forceBack p r.asid r.line tile lf
    | _, _ => t.1.regPut { r with mask := 0 }) s

/-- Dirty lines of some slices are written back; the lines stay. -/
def State.l2Clean (s : State) (P : Part) (tiles : List Nat) : State :=
  (s.l2.filter fun l => tiles.contains l.tile && l.dirty ≠ 0).foldl
    (fun s l => (s.l2Write P l).l2Put { l with dirty := 0, data := [] }) s

/-- The cores and the slices of leaving tiles give up what they hold, and every slice TLB is dropped. -/
def State.leaveTiles (s : State) (p : Nat) (leave : List Nat) : State :=
  let P := s.part p
  let s := s.reclaim p fun r => leave.contains (r.core / 4) ||
    ((P.homeTile (BitVec.ofNat 64 (r.line * 128))).any leave.contains)
  let s := s.l2Clean P leave
  { s with
    l1 := s.l1.filter fun l => !(leave.contains (l.core / 4))
    l2 := s.l2.filter fun l => !(leave.contains l.tile)
    tlb := s.tlb.filter fun e => e.part ≠ p }

/-! ### Steps 5 and 6 (R451) -/

/-- Where the vault of a tile goes: to another tile, nowhere, or it stays. -/
inductive Fate where
  | stays
  | goes (tile : Nat)
  | ends
  deriving DecidableEq, Repr

/-- The fate of a tile when a partition's list of tiles changes. -/
def fateOf (old new : List Nat) (t : Nat) : Fate :=
  if old.contains t then
    match new[old.idxOf t]? with
    | some u => if u = t then .stays else .goes u
    | none => .ends
  else .stays

/-- A module physical address after a change. -/
def moveAddr (f : Nat → Fate) (a : Nat) : Option Nat :=
  match f (a / 2 ^ 33) with
  | .stays => some a
  | .goes u => some (u * 2 ^ 33 + a % 2 ^ 33)
  | .ends => none

/-- A table whose keys change; entries without a new key are gone. -/
def Tbl.rekey {α : Type} (t : Tbl α) (f : Nat → Option Nat) : Tbl α :=
  t.foldl (fun m x => match f x.1 with
    | some k => m.put k x.2
    | none => m) []

/-- Memory whose addresses change; bytes without a new address are gone. -/
def Memory.rekey (m : Memory) (f : Nat → Option Nat) : Memory :=
  m.foldl (fun n x => match f x.1 with
    | some k => Memory.wr n k x.2
    | none => n) []

/-- The seal key of a line of the vaults after a change. -/
def moveSeal (f : Nat → Fate) (k : Nat) : Option Nat :=
  if k % 4 = 0 then (moveAddr f (k / 4 * 128)).map (sealKey 0) else some k

/-- Vaults, their seals and errors, the lines cached from them and the way masks follow their tile numbers. -/
def State.moveVaults (s : State) (f : Nat → Fate) : State :=
  let byTile (n : Nat) (k : Nat) : Option Nat := match f (k / n) with
    | .stays => some k
    | .goes u => some (n * u + k % n)
    | .ends => none
  { s with
    vault := Memory.rekey s.vault (moveAddr f)
    seals := Tbl.rekey s.seals (moveSeal f)
    l2 := s.l2.filterMap fun (l : L2Line) => if l.space = 0 then (moveAddr f l.addr).map fun a => { l with addr := a } else some l
    upsets := s.upsets.filterMap fun u => match u with
      | .line 0 a => (moveAddr f a).map (Upset.line 0)
      | u => some u
    wafer := { s.wafer with wm := Tbl.rekey s.wafer.wm (byTile 4), sweep := Tbl.rekey s.wafer.sweep (byTile 1) } }

/-- Route tables of some tiles written from their masters (R445, R447). -/
def State.writeRoutes (s : State) (tiles : List Nat) : State :=
  { s with wafer := { s.wafer with route := s.wafer.route.filter fun x => !(tiles.contains (x.1 / 4096)) } }

/-- What steps 4, 6 and 7 do to a partition whose tiles stay: every slice TLB is dropped, and the route tables are written
from their masters and read back (R451). -/
def State.refit (s : State) (p : Nat) : State :=
  { s with tlb := s.tlb.filter fun e => e.part ≠ p }.writeRoutes (s.part p).tiles

/-- The registers of the cores of tiles that are scrubbed (R430, R450). -/
def State.scrubCores (s : State) (tiles : List Nat) : State :=
  { s with cores := s.cores.map fun (c : Nat × Core) =>
      (c.1, if tiles.contains (c.1 / 4) then { c.2 with tagmap := BitVec.allOnes 64, tagfail := 0 } else c.2) }

/-- The state of a tile that a partition gives up (R443). -/
def State.leftTile (s : State) (t : Nat) : TileSt := if s.tileFailed t then .dead else .free

/-- Home-map entries that name removed tiles become invalid (R388, R451). -/
def Bar2.trimHomes (b : Bar2) (n : Nat) : Bar2 :=
  { b with homes := b.homes.map fun (h : Nat × BitVec 16) =>
      (h.1, if n ≤ (h.2.extractLsb' 0 11).toNat then h.2 &&& 0x7FFF else h.2) }

/-- Steps 4 to 7: a partition takes another list of tiles (R451). -/
def State.retile (s : State) (p : Nat) (new : List Nat) : State :=
  let old := (s.part p).tiles
  let f := fateOf old new
  let leave := old.filter fun t => f t ≠ .stays
  let s := (s.leaveTiles p leave).moveVaults f
  let s := (old.filter fun t => !(new.contains t)).foldl (fun s t => s.setTile t (s.leftTile t)) s
  let s := new.foldl (fun s t => s.setTile t (.assigned p)) s
  let s := s.onPart p fun P => { P with tiles := new, avoid := s.wafer.linkDown, b2 := P.b2.trimHomes new.length }
  ((s.scrubCores (old.filter fun t => !(new.contains t))).writeRoutes (old ++ new)).topSpares 24

/-! ### Step 8 (R451, R452) -/

/-- The partition resumes; a held shootdown starts, and the next quiesce asked for begins. -/
def State.resume (s : State) (p : Nat) : State :=
  let s := s.onPart p fun P => { P with quiesced := false, jobs := P.jobs.drop 1 }
  let s := match (s.part p).b2.sdheld with
    | some v => s.sdStart p v
    | none => s
  (if (s.part p).jobs = [] then s else s.quiesce p)

/-! ### Checkpoints (R439) -/

/-- Gangs of a partition. -/
def State.partGangs (s : State) (p : Nat) : Tbl Gang := s.gangs.filter fun g => (s.launch g.2.lid).part = p

/-- Parameter pages of a partition's launches and instances. -/
def State.partPages (s : State) (p : Nat) : List Nat :=
  ((s.launches.filter fun l => l.2.part = p).map fun l => l.2.pmem) ++ (s.part p).insts.map fun i => i.2.pmem

/-- The partition physical address of a vault address of a partition. -/
def Part.ppaOf (P : Part) (a : Nat) : Option Nat :=
  if P.tiles.contains (a / 2 ^ 33) then some (P.localTile (a / 2 ^ 33) * 2 ^ 33 + a % 2 ^ 33) else none

def sealPpa (f : Nat → Option Nat) (k : Nat) : Option Nat := if k % 4 = 0 then (f (k / 4 * 128)).map (sealKey 0) else none

/-- A count of a saved gang's warp. -/
def State.savedOf (s : State) (p : Nat) (o : Outst) : Bool :=
  (s.partGangs p).any fun g => g.2.image.any fun im => im.warps.any fun w => w.1 = o.wid

/-- What a checkpoint keeps (log entry 26). -/
def State.checkpointOf (s : State) (p : Nat) : Checkpoint :=
  let P := s.part p
  let gangs := s.partGangs p
  let pages := s.partPages p
  { launches := s.launches.filter fun l => l.2.part = p
    gangs := gangs
    blocks := s.blocks.filter fun b => gangs.any fun g => g.1 = b.2.gid
    accs := s.accs.filter fun a => a.2.part = p
    outst := s.outst.filter (s.savedOf p)
    params := s.paramMem.filter fun c => pages.contains (c.1 / 65536)
    queues := P.queues
    insts := P.insts
    hyp := P.hyp
    res := P.res
    vers := s.vers.filter fun v => v.part = p
    mem := Memory.rekey s.vault P.ppaOf
    seals := Tbl.rekey s.seals (sealPpa P.ppaOf) }

/-- Words owned by cores and dirty lines go to the vaults (R439; log entry 26). -/
def State.writeAll (s : State) (p : Nat) : State :=
  let s := s.reclaim p fun _ => true
  s.l2Clean (s.part p) (s.part p).tiles

/-- The generation's record at the fault queue (R439). -/
def State.checkpointRecord (s : State) (p : Nat) : State :=
  (s.fqPush p { source := 7, va := BitVec.ofNat 64 (s.part p).ckptGen }).1

/-- A checkpoint is taken, the partition resumes, and its record is written (R439). -/
def State.checkpoint (s : State) (p : Nat) : State :=
  let s := (s.writeAll p).refit p
  let k := s.checkpointOf p
  ((s.onPart p fun P => { P with ckpt := some k, ckptGen := P.ckptGen + 1 }).resume p).checkpointRecord p

/-- A partition's caches and ownership are gone. -/
def State.dropCaches (s : State) (p : Nat) : State :=
  let tiles := (s.part p).tiles
  { s with
    l1 := s.l1.filter fun l => l.part ≠ p
    l2 := s.l2.filter fun l => !(tiles.contains l.tile)
    reg := s.reg.filter fun r => r.part ≠ p
    tlb := s.tlb.filter fun e => e.part ≠ p }

/-- Entries of a table put over another's. -/
def Tbl.merged {α : Type} (t u : Tbl α) : Tbl α := u.foldl (fun m x => m.put x.1 x.2) t

/-- The listed bytes of one memory put over another's. -/
def Memory.merged (m n : Memory) : Memory := n.foldl (fun m x => Memory.wr m x.1 x.2) m

/-- A partition restored from a checkpoint: memory is rewritten, and owner-lost marks are cleared (R440, R441). -/
def State.restorePart (s : State) (p : Nat) (k : Checkpoint) : State :=
  let P := s.part p
  let s := s.dropCaches p
  let gangs := s.partGangs p
  let pages := s.partPages p
  let mine (a : Nat) : Bool := P.tiles.contains (a / 2 ^ 33)
  let s : State := { s with
    launches := Tbl.merged (s.launches.filter fun (l : Nat × Launch) => l.2.part ≠ p) k.launches
    gangs := Tbl.merged (s.gangs.filter fun (g : Nat × Gang) => !(gangs.any fun x => x.1 = g.1)) k.gangs
    blocks := Tbl.merged (s.blocks.filter fun (b : Nat × Block) => !(gangs.any fun x => x.1 = b.2.gid)) k.blocks
    accs := Tbl.merged (s.accs.filter fun (a : Nat × Access) => a.2.part ≠ p) k.accs
    outst := (s.outst.filter fun (o : Outst) => !(s.savedOf p o)) ++ k.outst
    paramMem := Memory.merged (s.paramMem.filter fun c => !(pages.contains (c.1 / 65536))) k.params
    vers := s.vers.filter (fun v => v.part ≠ p) ++ k.vers
    vault := Memory.merged (s.vault.filter fun c => !(mine c.1)) (Memory.rekey k.mem P.mpa)
    seals := Tbl.merged (s.seals.filter fun (x : Nat × Nat) => !(x.1 % 4 = 0 && mine (x.1 / 4 * 128))) (Tbl.rekey k.seals (sealPpa P.mpa)) }
  s.onPart p fun P => { P with queues := k.queues, insts := k.insts, hyp := k.hyp, res := k.res }

/-! ### Recovery (R437, R440, R453) -/

/-- A partition that cannot be moved stays quiesced in ERROR (R453). -/
def State.stuckInError (s : State) (p : Nat) : State :=
  s.onPart p fun P => { P with td := .error, jobs := [] }

/-- Other tiles under the same numbers: the placement count grows (R428 index 5). -/
def State.replace (s : State) (p : Nat) (new : List Nat) : State :=
  (s.retile p new).onPart p fun P => { P with placeCount := P.placeCount + 1 }

/-- Tiles that a partition may be compacted onto: its own that work, and free ones (R453). -/
def State.compactable (s : State) (P : Part) : List Nat :=
  (List.range Config.poolTiles).filter fun t => !(s.tileFailed t) && (P.tiles.contains t || s.tileSt t = .free)

/-- A new list for a partition one of whose tiles must go: the best spare, else a compaction (R453). -/
def State.newTiles (s : State) (P : Part) (i : Nat) (spare : Option Nat) : Option (List Nat) :=
  let l := s.bestSpares P i
  match (match spare with
    | some t => if l.contains t then some t else none
    | none => l.head?) with
  | some t => some (putTile P.tiles i t)
  | none =>
    let avail := s.compactable P
    match s.chooseTiles avail s.wafer.linkDown P.tiles.length with
    | some l => some l
    | none => s.spares.findSome? fun t => s.chooseTiles (t :: avail) s.wafer.linkDown P.tiles.length

/-- The recovery of a partition one of whose cores has failed (R440): restored from its latest checkpoint, or migrated. -/
def State.recover (s : State) (p i : Nat) : State :=
  let P := s.part p
  if P.policy = 0 then
    ((match P.ckpt with
      | some k => s.restorePart p k
      | none => s).resume p)
  else
    match s.newTiles P i none with
    | some new => (s.replace p new).resume p
    | none => s.stuckInError p

/-- Route tables that avoid the links taken down; a partition that they would cut is compacted (R437; log entry 27). -/
def State.reembed (s : State) (p : Nat) : State :=
  let P := s.part p
  if connectedOver P.tiles s.wafer.linkDown then
    ((s.onPart p fun P => { P with avoid := s.wafer.linkDown }).refit p).resume p
  else
    match s.chooseTiles (s.compactable P) s.wafer.linkDown P.tiles.length with
    | some new => (s.replace p new).resume p
    | none => s.stuckInError p

/-- A failure during a quiesce joins it: recoveries that wait are carried out before the partition resumes (R452). -/
def State.joinMigrations (s : State) (p : Nat) : State :=
  let P := s.part p
  match P.jobs with
  | j :: rest =>
    if P.policy = 1 then
      let s := s.onPart p fun P => { P with jobs := j :: rest.filter fun x => match x with
        | .recover _ => false
        | _ => true }
      rest.foldl (fun s x => match x with
        | .recover i => match s.newTiles (s.part p) i none with
          | some new => s.replace p new
          | none => s.onPart p fun P => { P with td := .error }
        | _ => s) s
    else s
  | [] => s

/-- The quiesces that no verb waits for: each whose partition has become calm goes through its steps 4 to 8. -/
def State.runJobs (s : State) : State :=
  s.parts.foldl (fun s x =>
    let p := x.1
    if !(s.calm p) then s
    else match (s.part p).jobs.head? with
      | some .checkpoint => (s.joinMigrations p).checkpoint p
      | some .reembed => (s.joinMigrations p).reembed p
      | some (.recover i) => s.recover p i
      | _ => s) s

end Sys2Proof.Machine
end

