-- ==== Sys2Proof/Machine/Sha.lean ====
section
/-! DEFINITION. SHA-384 as FIPS 180-4 gives it: the digest of the locked set, of measurements and of meter snapshots
(R424, R428, R455, R467). The constants are worked out from what they are, and the eight working variables are the last four
terms of two sequences. -/
namespace Sys2Proof.Machine

/-- The first prime numbers, up to 409, the 80th. -/
def primesTo409 : List Nat := (List.range 410).filter fun n => 2 ≤ n && (List.range n).all fun d => d < 2 || n % d ≠ 0

/-- The first 64 bits of the fractional part of the k-th root of a number, digit after digit from the top. -/
def fracRoot (k n : Nat) : DWord :=
  BitVec.ofNat 64 ((List.range 70).foldr (fun i r => if (r + 2 ^ i) ^ k ≤ n * 2 ^ (64 * k) then r + 2 ^ i else r) 0)

/-- The round constants: cube roots of the first 80 primes. -/
def shaK : List DWord := primesTo409.map (fracRoot 3)

/-- What SHA-384 begins with: square roots of the ninth to the sixteenth prime. -/
def shaStart : List DWord := ((primesTo409.drop 8).take 8).map (fracRoot 2)

/-- The exclusive or of some rotations of a word to the right. -/
def spun (x : DWord) (ns : List Nat) : DWord := (ns.map x.rotateRight).foldl (· ^^^ ·) 0

/-- Bits of y where x has ones, of z elsewhere; and the majority of three. -/
def bitChoice (x y z : DWord) : DWord := z ^^^ (x &&& (y ^^^ z))
def bitMajority (x y z : DWord) : DWord := (x &&& y) ||| (z &&& (x ||| y))

/-- The 80 words of a block's schedule, latest first. -/
def shaWords (block : List Byte) : List DWord :=
  let first := (List.range 16).map fun i => BitVec.ofNat 64 (leNat ((block.drop (8 * (15 - i))).take 8).reverse)
  (List.range 64).foldl (fun w _ =>
    let near := w.getD 1 0
    let far := w.getD 14 0
    (w.getD 15 0 + (spun far [1, 8] ^^^ far >>> 7) + w.getD 6 0 + (spun near [19, 61] ^^^ near >>> 6)) :: w) first

/-- One term more of the two sequences, latest first: what is common to both joins the older one's fourth-last term. -/
def shaTerm (v : List DWord × List DWord) (kw : DWord) : List DWord × List DWord :=
  let p := fun i => v.1.getD i 0
  let q := fun i => v.2.getD i 0
  let common := kw + q 3 + spun (q 0) [14, 18, 41] + bitChoice (q 0) (q 1) (q 2)
  ((common + spun (p 0) [28, 34, 39] + bitMajority (p 0) (p 1) (p 2)) :: v.1.take 3, (p 3 + common) :: v.2.take 3)

/-- A block of 128 bytes taken into the hash. -/
def shaBlock (h : List DWord) (block : List Byte) : List DWord :=
  let v := (List.zipWith (· + ·) shaK (shaWords block).reverse).foldl shaTerm (h.take 4, h.drop 4)
  List.zipWith (· + ·) h (v.1 ++ v.2)

/-- A message with its padding: a one bit, zeros, and its length in bits. -/
def shaPad (m : List Byte) : List Byte :=
  let n := m.length
  m ++ 0x80 :: List.replicate ((239 - n % 128) % 128) 0 ++ (natLe 16 (n * 8)).reverse

/-- The SHA-384 digest of a message: 48 bytes. -/
def sha384 (m : List Byte) : List Byte :=
  let p := shaPad m
  let h := (List.range (p.length / 128)).foldl (fun h i => shaBlock h (p.drop (128 * i))) shaStart
  (h.take 6).flatMap fun w => (natLe 8 w.toNat).reverse

end Sys2Proof.Machine
end

