-- ==== Sys2Proof/Machine/Security.lean ====
section
/-! DEFINITION. The TDISP interface of a partition and the SPDM responder (R418, R423 to R428, R467). -/
namespace Sys2Proof.Machine

/-! ### Measurements (R424, R428, R467) -/

/-- Bytes of a firmware image, which the spec names and does not give (log entry 13). -/
def firmware (k : Nat) : List Byte :=
  (List.range (leNat ((List.range 4).map (Config.blob (10 + k))))).map (Config.blob k)

/-- The bytes of a slot of the table as they are measured (log entry 29). -/
def Slot.bytes (x : Slot) : List Byte :=
  natLe 8 x.start ++ natLe 8 x.period ++ natLe 8 x.budget ++ natLe 1 x.policy ++ (x.img ++ List.replicate 64 0).take 64

/-- The locked set (R424): ASID table and home map, queue descriptors, `FQBASE` and `FQCTL`, the slot table. -/
def Part.lockedSet (P : Part) : List Byte :=
  ((List.range 16).flatMap fun a => natLe 16 (P.b2.asids.getD a 0).toNat) ++
  ((List.range 4096).flatMap fun h => natLe 2 (P.b2.homes.getD h 0).toNat) ++
  ((List.range 64).flatMap fun q => (P.queue q).bytes) ++
  natLe 8 P.b2.fqbase.toNat ++ natLe 4 P.b2.fqctl.toNat ++
  (List.range 64).flatMap fun k => (P.slot k).bytes

/-- The entry of a tile in the shape report (R467). -/
def State.tileEntry (s : State) (t : Nat) : List Byte :=
  natLe 1 (t % 40) ++ natLe 1 (t / 40) ++ natLe 1 (s.islandOf t) ++ [0] ++
  (List.range 4).map fun c => (s.coreRegs (4 * t + c)).health

/-- The content of measurement index 4 (R467). -/
def State.shapeReport (s : State) (p : Nat) : List Byte :=
  let P := s.part p
  natLe 1 p ++ natLe 1 (if P.compat then 1 else 0) ++ natLe 2 P.tiles.length ++ sha384 (firmware 1) ++ sha384 (firmware 2) ++
  natLe 4 0 ++ P.tiles.flatMap s.tileEntry

/-- The module's signature of a message: 96 bytes (R428, R455, R467). -/
def signed (m : List Byte) : List Byte := (List.range 96).map (Config.signature (sha384 m))

/-- Granted frames, one PPA for each 64 KiB, rising (R428 index 6; log entry 29). -/
def Part.frameList (P : Part) : List Byte :=
  P.frames.flatMap fun f => (List.range (f.2 / 65536)).flatMap fun i => natLe 8 (f.1 + 65536 * i)

/-- The raw content of a measurement index (R428). -/
def State.content (s : State) (p : Nat) : Nat → List Byte
  | 1 => firmware 1
  | 2 => firmware 2
  | 3 => (s.part p).lockDigest
  | 4 => s.shapeReport p
  | 5 => natLe 8 (s.part p).placeCount
  | 6 => (s.part p).frameList
  | _ => []

/-- A measurement: the digest of its content; index 3 is the digest taken at the lock (R424, R428). -/
def State.measurement (s : State) (p i : Nat) : List Byte := if i = 3 then (s.part p).lockDigest else sha384 (s.content p i)

/-! ### TDISP (R423) -/

/-- ERROR: no queue parses, and every gang is pre-empted and held. -/
def State.toError (s : State) (p : Nat) : State :=
  let t := (s.part p).td
  if t = .locked || t = .run then (s.onPart p fun P => { P with td := .error }).haltAll p else s

/-- A transition asked for inside the partition's SPDM session. -/
def State.inSession (s : State) (p : Nat) (f : State → State) : State :=
  match s.parts.find p with
  | some P => if P.spdm.session = 2 && !s.grm.asleep then f s else s
  | none => s

/-- LOCK_INTERFACE (R423, R424): with a bound IDE selective stream. -/
def execLockInterface (part : Nat) (stream : Option Nat) (s : State) : Host.Outcome State Fault Refusal :=
  .next (s.inSession part fun s =>
    if (s.part part).td = .unlocked && stream.isSome && (s.part part).spdm.stream = stream then
      s.onPart part fun P => { P with td := .locked, stream := stream, lockDigest := sha384 P.lockedSet,
                                      ldrop := 0, pdrop := 0, tdlast := 0 }
    else s)

/-- The first firing of a slot at or after a time; a single firing that has passed is over. -/
def Slot.nextFrom (x : Slot) (now : Nat) : Option Nat :=
  if now ≤ x.start then some x.start
  else if x.period = 0 then none
  else some (x.start + (now - x.start + x.period - 1) / x.period * x.period)

/-- A slot whose firings begin anew from a time; one that has fired its only time stays over. -/
def Slot.wakeFrom (x : Slot) (now : Nat) : Slot :=
  { x with next := match x.next with
    | some t => if t < now then x.nextFrom now else some t
    | none => none }

/-- START_INTERFACE (R423): queues parse, slots fire. -/
def execStartInterface (part : Nat) (s : State) : Host.Outcome State Fault Refusal :=
  .next (s.inSession part fun s =>
    if (s.part part).td = .locked then
      (s.onPart part fun P => { P with
        td := .run
        slots := P.slots.map fun (x : Nat × Slot) => (x.1, x.2.wakeFrom s.gtime) })
    else s)

/-- Every launch of a partition, and every graph instance, ends without completion (R405). -/
def State.abandonAll (s : State) (p : Nat) : State :=
  let s := ((s.launches.filter fun l => l.2.part = p).map (·.1)).foldl State.abandon s
  let s := ((s.part p).insts.map fun i => i.2.pmem).foldl State.dropPage s
  s.onPart p fun P => { P with insts := [], deferred := [], slots := P.slots.map fun (x : Nat × Slot) =>
    (x.1, { x.2 with cur := none, hold := none }) }

/-- L1 and L2 lines of a partition become invalid without write-back; owner-lost marks stay. -/
def State.loseCaches (s : State) (p : Nat) : State :=
  let tiles := (s.part p).tiles
  { s with
    l1 := s.l1.filter fun l => l.part ≠ p
    l2 := s.l2.filter fun l => !(tiles.contains l.tile)
    accs := s.accs.map fun (a : Nat × Access) => (a.1, if a.2.part = p then { a.2 with snap := [] } else a.2)
    reg := (s.reg.map fun (r : Registry) => if r.part = p then { r with mask := 0 } else r).filter fun (r : Registry) =>
      r.mask ≠ 0 || r.lost ≠ 0 }

/-- Three fresh keys for a partition (R418). -/
def State.freshKeys (s : State) (p : Nat) : State :=
  { s.onPart p (fun P => { P with key := s.grm.keySerial }) with grm := { s.grm with keySerial := s.grm.keySerial + 1 } }

/-- STOP_INTERFACE (R423): from any state. -/
def execStopInterface (part : Nat) (s : State) : Host.Outcome State Fault Refusal :=
  .next (s.inSession part fun s =>
    let s := (List.range 64).foldl (fun s q => s.abortQueue part q) (s.abandonAll part)
    let s := (s.loseCaches part).freshKeys part
    (s.onPart part fun P => { P with td := .unlocked, stream := none }))

/-- TDISP_ERROR_EVENT (R423): an IDE integrity failure. -/
def execTdispErrorEvent (part : Nat) (s : State) : Host.Outcome State Fault Refusal := .next (s.toError part)

/-! ### SPDM (R428) -/

/-- An SPDM request that a partition's responder answers. -/
def State.spdm (s : State) (p : Nat) (f : Part → Spdm → Spdm) : State :=
  if s.grm.asleep then s else s.onPart p fun P => { P with spdm := f P P.spdm }

/-- The answer to a request out of its turn (log entry 29). -/
def outOfTurn : List Byte := [0x7F, 0x04]

/-- A request that needs the algorithms negotiated. -/
def Spdm.afterAlgs (x : Spdm) (r : List Byte) : Spdm := { x with rsp := if x.algs then r else outOfTurn }

/-- The certificate chain (log entry 13). -/
def certChain : List Byte := (List.range (leNat ((List.range 2).map (Config.blob 20)))).map (Config.blob 21)

/-- Bytes that the standard, not the spec, lays out (log entry 13). -/
def answerBytes (k n : Nat) : List Byte := (List.range n).map (Config.blob k)

/-- GET_VERSION: the connection begins anew; the version is 1.2. -/
def execGetVersion (part : Nat) (s : State) : Host.Outcome State Fault Refusal :=
  .next (s.spdm part fun _ x => { x with version := true, caps := false, algs := false, rsp := [0x00, 0x12] })

/-- GET_CAPABILITIES. -/
def execGetCapabilities (part : Nat) (s : State) : Host.Outcome State Fault Refusal :=
  .next (s.spdm part fun _ x =>
    if x.version then { x with caps := true, rsp := answerBytes 30 4 } else { x with rsp := outOfTurn })

/-- NEGOTIATE_ALGORITHMS: ECDSA P-384, SHA-384 and AES-256-GCM. -/
def execNegotiateAlgorithms (part : Nat) (s : State) : Host.Outcome State Fault Refusal :=
  .next (s.spdm part fun _ x =>
    if x.caps then { x with algs := true, rsp := answerBytes 31 4 } else { x with rsp := outOfTurn })

/-- GET_DIGESTS: the digest of the certificate chain. -/
def execGetDigests (part : Nat) (s : State) : Host.Outcome State Fault Refusal :=
  .next (s.spdm part fun _ x => x.afterAlgs (sha384 certChain))

/-- GET_CERTIFICATE. -/
def execGetCertificate (part : Nat) (s : State) : Host.Outcome State Fault Refusal :=
  .next (s.spdm part fun _ x => x.afterAlgs certChain)

/-- CHALLENGE: the digest of the chain, signed. -/
def execChallenge (part : Nat) (s : State) : Host.Outcome State Fault Refusal :=
  .next (s.spdm part fun _ x => x.afterAlgs (sha384 certChain ++ signed certChain))

/-- GET_MEASUREMENTS: one block, its raw content when asked for, or all six (index 255); index 0 asks for their number. -/
def execGetMeasurements (part index : Nat) (raw : Bool) (s : State) : Host.Outcome State Fault Refusal :=
  let one (i : Nat) : List Byte := if raw then s.content part i else s.measurement part i
  .next (s.spdm part fun _ x => x.afterAlgs
    (if index = 0 then [6]
     else if index = 255 then (List.range 6).flatMap fun i => one (i + 1)
     else if index ≤ 6 then one index
     else outOfTurn))

/-- KEY_EXCHANGE: a session begins, with the IDE stream bound in it; out of turn while one stands (log entry 29). -/
def execKeyExchange (part stream : Nat) (s : State) : Host.Outcome State Fault Refusal :=
  .next (s.spdm part fun P x =>
    if x.algs && x.session = 0 then { x with session := 1, stream := some stream, rsp := answerBytes (40 + P.key) 96 ++ signed certChain }
    else { x with rsp := outOfTurn })

/-- FINISH: the session is established. -/
def execFinish (part : Nat) (s : State) : Host.Outcome State Fault Refusal :=
  .next (s.spdm part fun _ x => if x.session = 1 then { x with session := 2, rsp := [] } else { x with rsp := outOfTurn })

/-- END_SESSION (R423, R428): a session that ends moves a locked or running interface to ERROR. -/
def execEndSession (part : Nat) (s : State) : Host.Outcome State Fault Refusal :=
  .next (if s.grm.asleep || (s.part part).spdm.session = 0 then s
    else (s.onPart part fun P => { P with spdm := { P.spdm with session := 0, stream := none, rsp := [] } }).toError part)

end Sys2Proof.Machine
end

