-- ==== Sys2Proof/Machine/Fleet.lean ====
section
/-! DEFINITION. The verbs of the Yelyar mailbox (R429 to R432, R443, R444, R449 to R453, R455, R457, R466, R467). A verb's
event is the go on `YCTL` with that verb's code in `YREQ`; one that quiesces runs on when its partition has become calm. -/
namespace Sys2Proof.Machine

/-! ### Requests and responses (R429, R449) -/

/-- The bytes of `YREQ`. -/
def State.request (s : State) : List Byte := Memory.rdN s.grm.yreq 0 256

/-- The response's first eight bytes: partition, tile count, quiesce time in microseconds. -/
def State.rspHead (s : State) (p us : Nat) : List Byte :=
  natLe 2 p ++ natLe 2 ((s.parts.find p).map (·.tiles.length) |>.getD 0) ++ natLe 4 us

/-- A verb completes with a status and the bytes of its response from byte 8. -/
def State.respond (s : State) (p status us : Nat) (tail : List Byte) : State :=
  { s with grm := { s.grm with
      ybusy := false, ystatus := status
      yrsp := Memory.wrN [] 0 ((s.rspHead p us ++ tail ++ List.replicate 256 0).take 256) } }

/-- What a verb comes to: a state, a status, and response bytes. -/
structure VerbEnd where
  s : State
  status : Nat := 0
  rsp : List Byte := []

/-- A go on a verb: dropped while one is busy; denied while the module sleeps (R429, R432). -/
def State.go (s : State) (code : Nat) (f : List Byte → Nat → State) : State :=
  let q := s.request
  if s.grm.ybusy || field q 0 2 ≠ code then s
  else if s.grm.asleep && code ≠ 14 then s.respond (field q 2 2) 3 0 []
  else f q (field q 2 2)

/-- A verb that is over at once. -/
def State.verb (s : State) (code : Nat) (f : List Byte → Nat → VerbEnd) : State :=
  s.go code fun q p => let r := f q p; r.s.respond p r.status 0 r.rsp

/-- A verb on a partition that exists, in some of its states; else status 2 or 3. -/
def State.partVerb (s : State) (code : Nat) (ok : TdSt → Bool) (f : List Byte → Nat → Part → VerbEnd) : State :=
  s.verb code fun q p => match s.parts.find p with
    | none => { s := s, status := 2 }
    | some P => if ok P.td then f q p P else { s := s, status := 3 }

def anyState (_ : TdSt) : Bool := true
def unlockedOnly (t : TdSt) : Bool := t = .unlocked

/-! ### Rectangles (R444, R449, R450) -/

/-- The tiles of a rectangle, row by row; none when it leaves the pool. -/
def rectOf (lx ly w h : Nat) : Option (List Nat) :=
  if lx + w ≤ 40 && ly + h ≤ 39 then some ((List.range h).flatMap fun y => (List.range w).map fun x => lx + x + 40 * (ly + y))
  else none

/-- The tiles of a request's rectangle list, in order; none when one leaves the pool or two overlap. -/
def rectTiles (q : List Byte) : Option (List Nat) :=
  let l := (List.range (field q 8 1)).map fun k =>
    rectOf (field q (16 + 8 * k) 2) (field q (18 + 8 * k) 2) (field q (20 + 8 * k) 2) (field q (22 + 8 * k) 2)
  if 30 < field q 8 1 || l.any Option.isNone then none
  else
    let ts := (l.filterMap id).flatten
    if ts.eraseDups.length = ts.length then some ts else none

/-- The new tiles that a verb names, or its status: `own` are the tiles they must be connected with, `may` those it may
take, and `chosen` Griermor's choice when the request gives no rectangle (log entry 30). -/
def namedTiles (q : List Byte) (n : Nat) (own : List Nat) (may : Nat → Bool) (chosen : List Nat) :
    Except Nat (List Nat) :=
  if field q 8 1 = 0 then
    let l := rising chosen
    if l.length = n && l.all may && connected (own ++ l) then .ok l else .error 4
  else match rectTiles q with
    | none => .error 2
    | some l =>
      if l.length ≠ n || !(connected (own ++ l)) then .error 2
      else if l.all may then .ok l
      else .error 4

/-- The request gives no rectangle, tiles could be chosen, and the choice offered is none that spans the fewest islands
(R450): no event of the device. -/
def State.noChoice (s : State) (q : List Byte) (n : Nat) (own chosen : List Nat) : Bool :=
  field q 8 1 = 0 && match s.bestShape own s.freeTiles [] n with
    | none => false
    | some best => match namedTiles q n own (fun t => s.tileSt t = .free) chosen with
      | .ok l => decide (s.spans best < s.spans l)
      | .error _ => true

/-! ### PART_CREATE (R430, R444, R449, R450, R457) -/

/-- The number of a new partition, or the status. -/
def State.newNumber (s : State) (p : Nat) : Except Nat Nat :=
  if p = 0xFFFF then
    match (List.range 64).find? fun k => (s.parts.find k).isNone with
    | some k => .ok k
    | none => .error 4
  else if 63 < p || (s.parts.find p).isSome then .error 2 else .ok p

/-- The arguments of PART_CREATE keep their rules. -/
def createOk (q : List Byte) : Bool :=
  field q 6 1 < 4 && field q 7 1 < 8 && zeros q 9 12 && 1 ≤ field q 4 2 && field q 4 2 ≤ 1536 && field q 8 1 ≤ 30

/-- `%energy` at a window start (R457). -/
def allowance (share : Nat) : DWord := if share = 0 then BitVec.allOnes 64 else BitVec.ofNat 64 (share * 1000)

/-- A partition at its creation, with fresh keys (R418, R430). -/
def State.addPart (s : State) (p : Nat) (q : List Byte) (tiles : List Nat) : State :=
  let P : Part :=
    { tiles := tiles, compat := decide (field q 6 1 % 2 = 1), policy := field q 6 1 / 2, port := field q 7 1,
      key := s.grm.keySerial, share := field q 12 4, energy := allowance (field q 12 4), avoid := s.wafer.linkDown }
  let s := tiles.foldl (fun s t => s.setTile t (.assigned p)) s
  { s with parts := s.parts.put p P, grm := { s.grm with keySerial := s.grm.keySerial + 1 } }

/-- PART_CREATE; `tiles` is Griermor's choice when the request gives no rectangle. -/
def execPartCreate (tiles : List Nat) (s : State) : Host.Outcome State Fault Refusal :=
  .next (s.go 1 fun q p =>
    match (if createOk q then s.newNumber p else .error 2) with
    | .error e => s.respond p e 0 []
    | .ok k =>
      if s.noChoice q (field q 4 2) [] tiles then s
      else match namedTiles q (field q 4 2) [] (fun t => s.tileSt t = .free) tiles with
        | .error e => s.respond p e 0 []
        | .ok l => (s.addPart k q l).respond k 0 0 (natLe 2 k))

/-! ### PART_DESTROY (R430) -/

/-- Everything that belongs to a partition is gone: launches, keys, caches, vault lines. -/
def State.dropPart (s : State) (p : Nat) : State :=
  let s := s.abandonAll p
  let tiles := (s.part p).tiles
  let mine (a : Nat) : Bool := tiles.contains (a / 2 ^ 33)
  let s := (s.dropCaches p).scrubCores tiles
  let s : State := { s with
    accs := s.accs.filter fun (a : Nat × Access) => a.2.part ≠ p
    ops := s.ops.filter fun (o : Nat × EngineOp) => o.2.part ≠ p
    hreqs := s.hreqs.filter fun (r : Nat × HypReq) => r.2.part ≠ p
    vers := s.vers.filter fun v => v.part ≠ p
    lids := s.lids.filter fun l => l.part ≠ p
    vault := s.vault.filter fun c => !(mine c.1)
    seals := s.seals.filter fun (x : Nat × Nat) => !(x.1 % 4 = 0 && mine (x.1 / 4 * 128))
    upsets := s.upsets.filter fun u => match u with
      | .line 0 a => !(mine a)
      | _ => true
    wafer := { s.wafer with
      wm := s.wafer.wm.filter fun (x : Nat × BitVec 16) => !(tiles.contains (x.1 / 4))
      sweep := s.wafer.sweep.filter fun (x : Nat × Nat) => !(tiles.contains x.1) }
    parts := s.parts.del p }
  ((tiles.foldl (fun s t => s.setTile t (s.leftTile t)) s).writeRoutes tiles).topSpares 24

/-- PART_DESTROY. -/
def execPartDestroy (s : State) : Host.Outcome State Fault Refusal :=
  .next (s.partVerb 2 anyState fun _ p _ => { s := (s.dropPart p) })

/-! ### Verbs that quiesce (R451) -/

/-- A verb on a partition whose quiesce begins: the mailbox is busy until it is over. -/
def State.beginVerb (s : State) (p : Nat) (j : Job) : State :=
  { s with grm := { s.grm with ybusy := true, yrun := s.request } }.askJob p j

/-- The job of a running verb whose partition is calm: it is carried out, the partition resumes, and the response is
given. -/
def State.endVerb (s : State) (mine : Job → Bool) (f : State → Nat → Job → VerbEnd) : State :=
  match s.parts.find? fun x => (x.2.jobs.head?.any mine) && s.calm x.1 with
  | none => s
  | some (p, P) =>
    match P.jobs with
    | [] => s
    | j :: _ =>
      let us := (s.gtime - P.qsince) / 1000
      let r := f (s.joinMigrations p) p j
      (r.s.resume p).respond p r.status us r.rsp

/-- A change of shape moves a locked or running interface to ERROR (R430). -/
def Part.reshaped (P : Part) : Part := { P with td := if P.td = .locked || P.td = .run then .error else P.td }

/-- PART_GROW (R430, R444, R450). -/
def execPartGrow (tiles : List Nat) (s : State) : Host.Outcome State Fault Refusal :=
  let isGrow (j : Job) : Bool := match j with
    | .grow _ => true
    | _ => false
  .next (if s.grm.ybusy then
      s.endVerb isGrow fun s p j => match j with
        | .grow l =>
          if l.all fun t => s.tileSt t = .free then
            { s := (s.retile p ((s.part p).tiles ++ l)).onPart p Part.reshaped }
          else { s := s, status := 4 }
        | _ => { s := s }
    else
      s.go 3 fun q p => match s.parts.find p with
        | none => s.respond p 2 0 []
        | some P =>
          if field q 4 2 = 0 || 1536 < P.tiles.length + field q 4 2 then s.respond p 2 0 []
          else if s.noChoice q (field q 4 2) P.tiles tiles then s
          else match namedTiles q (field q 4 2) P.tiles (fun t => s.tileSt t = .free) tiles with
            | .error e => s.respond p e 0 []
            | .ok l => s.beginVerb p (.grow l))

/-- The shape without its highest tiles may be given: connected, with no granted frame and no version there (R450). -/
def State.mayShrink (s : State) (p m : Nat) : Bool :=
  let P := s.part p
  let n := P.tiles.length - m
  connected (P.tiles.take n) && (P.frames.all fun f => f.1 / 2 ^ 33 < n) &&
  s.vers.all fun v => v.part ≠ p || (s.part p).homeOf v < n

/-- PART_SHRINK (R430, R444, R450). -/
def execPartShrink (s : State) : Host.Outcome State Fault Refusal :=
  let isShrink (j : Job) : Bool := match j with
    | .shrink _ => true
    | _ => false
  .next (if s.grm.ybusy then
      s.endVerb isShrink fun s p j => match j with
        | .shrink m =>
          if s.mayShrink p m then
            { s := (s.retile p ((s.part p).tiles.take ((s.part p).tiles.length - m))).onPart p Part.reshaped }
          else { s := s, status := 2 }
        | _ => { s := s }
    else
      s.go 4 fun q p => match s.parts.find p with
        | none => s.respond p 2 0 []
        | some P =>
          let m := field q 4 2
          if m = 0 || P.tiles.length ≤ m || !(s.mayShrink p m) then s.respond p 2 0 []
          else s.beginVerb p (.shrink m))

/-- A job that gives a partition other tiles. -/
def isMove (j : Job) : Bool := match j with
  | .move _ => true
  | _ => false

/-- Other tiles under the same numbers, when they are still to be had. -/
def State.endMove (s : State) (p : Nat) (j : Job) (rsp : List Nat → List Byte) : VerbEnd :=
  match j with
  | .move l =>
    if l.all fun t => s.tileSt t = .assigned p || s.tileSt t = .free || s.tileSt t = .spare then
      { s := s.replace p l, rsp := rsp l }
    else { s := s, status := 4 }
  | _ => { s := s }

/-- PART_COMPACT (R430, R444, R450): its own tiles and free ones; with no rectangle Griermor chooses. -/
def execPartCompact (s : State) : Host.Outcome State Fault Refusal :=
  .next (if s.grm.ybusy then
      (if field s.grm.yrun 0 2 = 5 then s.endVerb isMove fun s p j => s.endMove p j fun _ => [] else s)
    else
      s.go 5 fun q p => match s.parts.find p with
        | none => s.respond p 2 0 []
        | some P =>
          match namedTiles q P.tiles.length [] (fun t => s.tileSt t = .free || P.tiles.contains t)
              ((s.chooseTiles s.freeTiles [] P.tiles.length).getD []) with
          | .error e => s.respond p e 0 []
          | .ok l => s.beginVerb p (.move l))

/-- The local tile of the PART_MIGRATE under way. -/
def State.migrated (s : State) : Nat := field s.grm.yrun 4 2

/-- The new list of a PART_MIGRATE, or its status; `spare` is Griermor's choice among the best. -/
def State.migration (s : State) (q : List Byte) (P : Part) (spare : Nat) : Except Nat (List Nat) :=
  let i := field q 4 2
  if field q 6 1 = 0xFF && field q 7 1 = 0xFF then
    match s.newTiles P i (some spare) with
    | some l => .ok l
    | none => .error 4
  else
    let t := field q 6 1 + 40 * field q 7 1
    if 40 ≤ field q 6 1 || 39 ≤ field q 7 1 || !(connected (putTile P.tiles i t)) then .error 2
    else if s.tileSt t = .free then .ok (putTile P.tiles i t)
    else .error 4

/-- A migration onto a spare that is impossible leaves the partition quiesced in ERROR (R453). -/
def State.cannotMigrate (s : State) (q : List Byte) (p e : Nat) : State :=
  if e = 4 && field q 6 1 = 0xFF && field q 7 1 = 0xFF then ((s.quiesce p).stuckInError p).respond p 4 0 []
  else s.respond p e 0 []

/-- PART_MIGRATE (R430, R450, R453). -/
def execPartMigrate (spare : Nat) (s : State) : Host.Outcome State Fault Refusal :=
  .next (if s.grm.ybusy then
      (if field s.grm.yrun 0 2 = 6 then
        s.endVerb isMove fun s p j => s.endMove p j fun l =>
          let t := l.getD s.migrated 0
          natLe 1 (t % 40) ++ natLe 1 (t / 40)
      else s)
    else
      s.go 6 fun q p => match s.parts.find p with
        | none => s.respond p 2 0 []
        | some P =>
          if P.tiles.length ≤ field q 4 2 then s.respond p 2 0 []
          else if field q 6 1 = 0xFF && field q 7 1 = 0xFF && s.bestSpares P (field q 4 2) ≠ [] &&
              !((s.bestSpares P (field q 4 2)).contains spare) then s
          else match s.migration q P spare with
            | .error e => s.cannotMigrate q p e
            | .ok l => s.beginVerb p (.move l))

/-! ### MEM_GRANT, MEM_RECLAIM, QUEUE_BIND, SLOT_SET (R375, R430, R449) -/

/-- The frames of a request: multiples of 64 KiB within one vault of the partition, below 6 GiB. -/
def Part.framesOk (P : Part) (q : List Byte) : Bool :=
  let a := field q 8 8
  let n := field q 16 8
  a % 65536 = 0 && n % 65536 = 0 && 0 < n && a / 2 ^ 33 < P.tiles.length && a % 2 ^ 33 + n ≤ Config.vaultBytes

/-- Granted ranges with one more, kept rising and apart. -/
def grantRange (a n : Nat) : List (Nat × Nat) → List (Nat × Nat)
  | [] => [(a, n)]
  | f :: fs =>
    if a + n < f.1 then (a, n) :: f :: fs
    else if f.1 + f.2 < a then f :: grantRange a n fs
    else grantRange (min a f.1) (max (a + n) (f.1 + f.2) - min a f.1) fs

/-- Granted ranges without one. -/
def revokeRange (a n : Nat) (l : List (Nat × Nat)) : List (Nat × Nat) :=
  l.flatMap fun f =>
    (if f.1 < a then [(f.1, min f.2 (a - f.1))] else []) ++
    (if a + n < f.1 + f.2 then [(max f.1 (a + n), f.1 + f.2 - max f.1 (a + n))] else [])

/-- MEM_GRANT. -/
def execMemGrant (s : State) : Host.Outcome State Fault Refusal :=
  .next (s.partVerb 7 anyState fun q p P =>
    if P.framesOk q then
      { s := s.onPart p fun P => { P with frames := grantRange (field q 8 8) (field q 16 8) P.frames } }
    else { s := s, status := 2 })

/-- Frames zeroed with fresh MACs: no line of them is cached, sealed under an old key or in error. -/
def State.zeroFrames (s : State) (lo n : Nat) : State :=
  let inR (a : Nat) : Bool := lo ≤ a && a < lo + n
  { s with
    vault := s.vault.filter fun c => !(inR c.1)
    seals := s.seals.filter fun (x : Nat × Nat) => !(x.1 % 4 = 0 && inR (x.1 / 4 * 128))
    l2 := s.l2.filter fun l => !(l.space = 0 && inR l.addr)
    upsets := s.upsets.filter fun u => match u with
      | .line 0 a => !(inR a)
      | _ => true }

/-- MEM_RECLAIM: in CONFIG_UNLOCKED; frames that were never granted are a bad argument. -/
def execMemReclaim (s : State) : Host.Outcome State Fault Refusal :=
  .next (s.partVerb 8 unlockedOnly fun q p P =>
    let a := field q 8 8
    let n := field q 16 8
    match (if P.framesOk q && P.granted a n then P.mpa a else none) with
    | some m => { s := (s.zeroFrames m n).onPart p fun P => { P with frames := revokeRange a n P.frames } }
    | none => { s := s, status := 2 })

/-- QUEUE_BIND. -/
def execQueueBind (s : State) : Host.Outcome State Fault Refusal :=
  .next (s.partVerb 9 unlockedOnly fun q p _ =>
    if field q 4 1 < 64 && field q 5 1 < 8 then
      { s := s.onPart p fun P => { P with ports := P.ports.put (field q 4 1) (field q 5 1) } }
    else { s := s, status := 2 })

/-- A slot as SLOT_SET writes it: its counters are zero, and it fires first at or after the present time. -/
def newSlot (q : List Byte) (old : Slot) (now : Nat) : Slot :=
  let x : Slot := { set := true, start := field q 8 8, period := field q 16 8, budget := field q 24 8, policy := field q 32 1,
                    img := (q.drop 64).take 64, cur := old.cur }
  { x with next := x.nextFrom now }

/-- SLOT_SET (R375, R376). -/
def execSlotSet (s : State) : Host.Outcome State Fault Refusal :=
  .next (s.partVerb 10 unlockedOnly fun q p _ =>
    if field q 4 1 < 64 && field q 32 1 < 3 && field q 64 1 = 1 then
      { s := s.onSlot p (field q 4 1) fun x => newSlot q x s.gtime }
    else { s := s, status := 2 })

/-! ### METER_READ, SHAPE_REPORT (R432, R449, R455, R467) -/

/-- A snapshot from byte 0 to 255 (R455). -/
def State.snapshot (s : State) (p : Nat) (P : Part) : List Byte :=
  let body := s.rspHead p 0 ++ natLe 8 (P.mseq + 1) ++ natLe 8 s.gtime ++
    ((List.range 11).flatMap fun k => natLe 8 (P.meters.getD k 0)) ++
    (if P.mseq = 0 then List.replicate 48 0 else sha384 P.lastSnap)
  body ++ signed body

/-- METER_READ: while the module sleeps the last snapshot is returned. -/
def execMeterRead (s : State) : Host.Outcome State Fault Refusal :=
  let q := s.request
  let p := field q 2 2
  .next (if s.grm.asleep then
      (if s.grm.ybusy || field q 0 2 ≠ 11 then s
       else match s.parts.find p with
        | some P => s.respond p 3 0 (P.lastSnap.drop 8)
        | none => s.respond p 3 0 [])
    else s.partVerb 11 anyState fun _ p P =>
      let b := s.snapshot p P
      { s := s.onPart p (fun P => { P with mseq := P.mseq + 1, lastSnap := b }), rsp := b.drop 8 })

/-- SHAPE_REPORT. -/
def execShapeReport (s : State) : Host.Outcome State Fault Refusal :=
  .next (s.partVerb 12 anyState fun q p P =>
    let off := field q 8 4
    let kept := if off = 0 then some (s.shapeReport p ++ signed (s.shapeReport p)) else P.shape
    match kept with
    | none => { s := s, status := 2 }
    | some r =>
      if off % 8 ≠ 0 || r.length ≤ off then { s := s, status := 2 }
      else { s := s.onPart p (fun P => { P with shape := kept }),
             rsp := natLe 4 r.length ++ natLe 4 off ++ (r.drop off).take 240 })

/-! ### Deep sleep (R431, R432) -/

/-- A partition goes to sleep: its caches are written back and dropped, its session ends, its keys are wrapped. -/
def State.sleepPart (s : State) (p : Nat) : State :=
  let s := s.writeAll p
  let tiles := (s.part p).tiles
  let s := { s with
    l1 := s.l1.filter fun l => l.part ≠ p
    l2 := s.l2.filter fun l => !(tiles.contains l.tile) }.refit p
  s.onPart p fun P => { P with spdm := {}, wrapped := some P.td }

/-- SLEEP_PREPARE (R431): every partition is quiesced, and when all are calm the module goes to sleep. -/
def execSleepPrepare (s : State) : Host.Outcome State Fault Refusal :=
  let ps := s.parts.map (·.1)
  let asked := s.parts.all fun x => x.2.jobs.head? = some .sleep || (x.2.quiesced && x.2.jobs = [])
  .next (if s.grm.ybusy then
      (if field s.grm.yrun 0 2 = 13 && asked && ps.all s.calm then
        let s := ps.foldl State.sleepPart s
        { s with grm := { s.grm with asleep := true } }.respond (field s.grm.yrun 2 2) 0 0 []
      else s)
    else
      s.go 13 fun _ _ =>
        let s := { s with grm := { s.grm with ybusy := true, yrun := s.request } }
        s.parts.foldl (fun s x => if x.2.quiesced && x.2.jobs = [] then s else s.askJob x.1 .sleep) s)

/-- What the sweep of the retained arrays finds: a version's hypothesis is refuted, a registry entry's words are
owner-lost (R432). -/
def State.sweepUpset (s : State) : Upset → State
  | .version p asid sector id =>
    match s.versionAt p asid sector id with
    | some v => match (s.part p).resolve false v.hyp s.nextId with
      | .ok P' => { s with nextId := s.nextId + 1 }.onPart p fun _ => P'
      | .error _ => s
    | none => s
  | .owner p asid line =>
    match s.regFind p asid line with
    | some r => s.regPut { r with lost := BitVec.allOnes 32, mask := 0 }
    | none => s.regPut { part := p, asid := asid, line := line, core := 0, mask := 0, lost := BitVec.allOnes 32 }
  | _ => s

/-- An error that the sweep at wake finds. -/
def isRetained : Upset → Bool
  | .version _ _ _ _ | .owner _ _ _ => true
  | _ => false

/-- A partition wakes: CONFIG_LOCKED if it was locked or running, else as it was (R432). -/
def State.wakePart (s : State) (p : Nat) : State :=
  let s := s.onPart p fun P => { P with
    td := match P.wrapped with
      | some .run => .locked
      | some t => t
      | none => P.td
    wrapped := none }
  if (s.part p).jobs.head? = some .sleep then s.resume p else s

/-- WAKE (R432). -/
def execWake (s : State) : Host.Outcome State Fault Refusal :=
  .next (s.go 14 fun _ p =>
    if !s.grm.asleep then s.respond p 3 0 []
    else
      let s := { s with grm := { s.grm with asleep := false } }
      let s := { (s.upsets.filter isRetained).foldl State.sweepUpset s with upsets := s.upsets.filter fun u => !(isRetained u) }
      ((s.parts.map (·.1)).foldl State.wakePart s).respond p 0 0 [])

/-- UNKNOWN_VERB (R429): a code outside the verb table. -/
def execUnknownVerb (s : State) : Host.Outcome State Fault Refusal :=
  let q := s.request
  let code := field q 0 2
  .next (if s.grm.ybusy || (1 ≤ code && code ≤ 14) then s
    else s.respond (field q 2 2) (if s.grm.asleep then 3 else 1) 0 [])

end Sys2Proof.Machine
end

