-- ==== Sys2Proof/Machine/Power.lean ====
section
/-! DEFINITION. Energy, allowances, islands, module time, and module reset (R377, R442, R443, R454, R456 to R461). -/
namespace Sys2Proof.Machine

/-! ### Energy (R454, R456, R457) -/

/-- Event counts of a partition since the last estimate. -/
def Part.newCounts (P : Part) : List Nat := (List.range 9).map fun k => P.meters.getD k 0 - P.lastCount.getD k 0

/-- The static term in nanojoules: each island's power times the partition's tiles in it, over 16 (R456). -/
def State.staticEnergy (s : State) (P : Part) (power : List Nat) : Nat :=
  sumNat (P.tiles.map fun t => power.getD (s.islandOf t) 0 * 62500)

/-- The estimate in nanojoules with what was carried over (R456; log entry 14). -/
def State.estimate (s : State) (P : Part) (power : List Nat) : Nat :=
  Config.energyEstimate 0 P.newCounts + s.staticEnergy P power + P.energyRem

/-- A meter that has grown, stopped at all ones (R454). -/
def addMeter (m : Tbl Nat) (k n : Nat) : Tbl Nat := m.put k (min (m.getD k 0 + n) (2 ^ 64 - 1))

/-- One millisecond of a partition: bytes counted on its links, tile time, energy, and what is left of its allowance. -/
def State.milliPart (s : State) (power : List Nat) (p : Nat) (P : Part) : State :=
  let grown := (List.range 3).foldl (fun m i => addMeter m (6 + i) (Config.freeNat (s.freeCtr + i))) P.meters
  let P := { P with meters := grown }
  let e := s.estimate P power
  let mj := e / 1000000
  let left := if P.share = 0 then P.energy else BitVec.ofNat 64 (P.energy.toNat - mj)
  let m := addMeter (addMeter P.meters 9 P.tiles.length) 10 mj
  let P := { P with meters := m, lastCount := P.meters, energyRem := e % 1000000, energy := left }
  { s with parts := s.parts.put p P, freeCtr := s.freeCtr + 3 }

/-- ENERGY_TICK (R456): once in a millisecond of global time; `islandPower` is each island's static power in W. -/
def execEnergyTick (islandPower : List Nat) (s : State) : Host.Outcome State Fault Refusal :=
  .next (if s.grm.lastMs < s.gtime / 1000000 then
      let s := { s with grm := { s.grm with lastMs := s.grm.lastMs + 1 } }
      s.parts.foldl (fun s x => s.milliPart islandPower x.1 x.2) s
    else s)

/-- A partition's window begins: its allowance is whole again, and deferred firings are judged (R457, R458). -/
def State.newWindow (s : State) (p : Nat) (P : Part) : State :=
  if P.share = 0 then s
  else
    let s := s.onPart p fun P => { P with energy := allowance P.share, deferred := [] }
    P.deferred.foldl (fun s d => s.slotJudge p d.1 d.2) s

/-- ALLOWANCE_WINDOW_START (R457): where `%gtime` reaches a multiple of 10^9. -/
def execAllowanceWindowStart (s : State) : Host.Outcome State Fault Refusal :=
  .next (if s.grm.lastSec < s.gtime / 1000000000 then
      let s := { s with grm := { s.grm with lastSec := s.gtime / 1000000000 } }
      (s.parts.foldl (fun s x => s.newWindow x.1 x.2) s)
    else s)

/-! ### Islands (R458 to R460) -/

/-- Partitions that hold a tile of an island. -/
def State.islandParts (s : State) (i : Nat) : List Nat :=
  (s.parts.filter fun x => x.2.tiles.any fun t => s.islandOf t = i).map (·.1)

/-- Every partition of the island has used up its allowance (R458). -/
def State.overBudget (s : State) (i : Nat) : Bool :=
  s.islandParts i ≠ [] && (s.islandParts i).all fun p => (s.part p).share ≠ 0 && (s.part p).energy = 0

def State.onIsland (s : State) (i : Nat) (f : Island → Island) : State :=
  { s with grm := { s.grm with islands := s.grm.islands.put i (f (s.island i)) } }

/-- Power readings averaged over 10 ms, as the status shows them. -/
def State.readPower (s : State) (avg10 : List Nat) : State :=
  (List.range 100).foldl (fun s i => s.onIsland i fun x => { x with power := min (avg10.getD i 0) 65535 }) s

/-- The island draws the most power of those that can still be lowered (R459). -/
def State.drawsMost (s : State) (i : Nat) (avg10 : List Nat) : Bool :=
  (List.range 100).all fun j => 3 ≤ (s.island j).step || avg10.getD j 0 ≤ avg10.getD i 0

/-- Why an island is lowered now: 2 island limit, 3 module limit, 1 budget, in this order (R459; log entry 32). -/
def State.downCause (s : State) (i : Nat) (avg10 : List Nat) (mod100 mod1 : Nat) : Option Nat :=
  let x := s.island i
  let paced := x.lowered = 0 || decide (x.changed + 1000000 ≤ s.gtime)
  if paced && 300 < avg10.getD i 0 then some 2
  else if s.drawsMost i avg10 && ((paced && 30000 < mod100) || 34000 < mod1) then some 3
  else if x.step = 0 && s.overBudget i then some 1
  else none

/-- ISLAND_STEP_DOWN (R459). -/
def execIslandStepDown (island : Nat) (avg10 : List Nat) (mod100 mod1 : Nat) (s : State) : Host.Outcome State Fault Refusal :=
  let s := s.readPower avg10
  .next (match (if island < 100 && (s.island island).step < 3 then s.downCause island avg10 mod100 mod1 else none) with
    | some c => s.onIsland island fun x =>
        { x.setStep (x.step + 1) s.tick with cause := c, lowered := min (x.lowered + 1) 65535, changed := s.gtime }
    | none => s)

/-- ISLAND_STEP_UP (R459): one step in 10 ms, once every cause has cleared. -/
def execIslandStepUp (island : Nat) (avg10 : List Nat) (mod100 mod1 : Nat) (s : State) : Host.Outcome State Fault Refusal :=
  let s := s.readPower avg10
  let x := s.island island
  let floor := if s.overBudget island then 1 else 0
  .next (if island < 100 && floor < x.step && avg10.getD island 0 ≤ 300 && mod100 ≤ 30000 && mod1 ≤ 34000 &&
        x.changed + 10000000 ≤ s.gtime then
      s.onIsland island fun x => { x.setStep (x.step - 1) s.tick with
        cause := if x.step = 1 then 0 else if x.step = 2 && floor = 1 then 1 else x.cause
        changed := s.gtime }
    else s)

/-! ### Time (R377, R461) -/

/-- A correction within 100 ppm of the millisecond between two exchanges. -/
def within100 (x : Int) : Int := max (-100) (min 100 x)

/-- PTP_EXCHANGE (R377, R461): the skew bound never exceeds 4,000 ps; a correction is slewed, while a grandmaster is
locked. -/
def execPtpExchange (skew : Nat) (adj : Int) (s : State) : Host.Outcome State Fault Refusal :=
  .next { s with gtskew := min skew 4000, grm := { s.grm with pendOff := if s.grm.lock then within100 adj else 0 } }

/-- PTP_MESSAGE_RECEIVE (R461): the offset in ps, and whether a grandmaster is selected. -/
def execPtpMessageReceive (off : Int) (selected : Bool) (s : State) : Host.Outcome State Fault Refusal :=
  .next { s with grm := { s.grm with
    toff := BitVec.ofInt 64 off, lock := selected && decide (off.natAbs ≤ 1000000) } }

/-- GRANDMASTER_LOST (R377, R461): module time runs free. -/
def execGrandmasterLost (s : State) : Host.Outcome State Fault Refusal :=
  .next { s with grm := { s.grm with lock := false, pendOff := 0 } }

/-! ### Module reset (R442, R443) -/

/-- The site that a binding gives a logical tile; no binding is the identity. -/
def siteIn (binding : List (Nat × Nat)) (t : Nat) : Nat × Nat := binding.getD t (t % 40, t / 40)

/-- Hops between the sites of two tiles. -/
def siteHops (a b : Nat × Nat) : Nat := (a.1 - b.1) + (b.1 - a.1) + (a.2 - b.2) + (b.2 - a.2)

/-- A binding keeps the rules of R442 when the sites of a list do not work. -/
def bindingOk (dead : List Nat) (binding : List (Nat × Nat)) : Bool :=
  let sites := (List.range Config.poolTiles).map (siteIn binding)
  (sites.all fun x => x.1 < 40 && x.2 < 40 && !(dead.contains (x.1 + 40 * x.2))) &&
  sites.eraseDups.length = Config.poolTiles &&
  (dead ≠ [] || (List.range Config.poolTiles).all fun t => siteIn binding t = (t % 40, t / 40)) &&
  (List.range Config.poolTiles).all fun t => [0, 1].all fun side => match neighbour t side with
    | some u => siteHops (siteIn binding t) (siteIn binding u) ≤ 3
    | none => true

/-- The sites that differ from the identity. -/
def siteTable (binding : List (Nat × Nat)) : Tbl (Nat × Nat) :=
  ((List.range Config.poolTiles).filter fun t => siteIn binding t ≠ (t % 40, t / 40)).map fun t => (t, siteIn binding t)

/-- MODULE_RESET (R442, R443): the machine after reset, with the binding and the spares that Griermor chose; host and
peer memory are not the module's. -/
def execModuleReset (dead : List Nat) (binding : List (Nat × Nat)) (spares : List Nat) (s : State) :
    Host.Outcome State Fault Refusal :=
  let l := rising spares
  .next (if bindingOk dead binding && l.length = 24 && l.all (· < Config.poolTiles) then
      { State.reset with
        wafer := { tile := l.map fun t => (t, TileSt.spare), site := siteTable binding }
        hostMem := s.hostMem
        peerMem := s.peerMem
        seals := s.seals.filter fun x => x.1 % 4 = 1 || x.1 % 4 = 2 }
    else s)

end Sys2Proof.Machine
end

