-- ==== Sys2Proof/Machine/Ras.lean ====
section
/-! DEFINITION. Errors, their logs, failed cores and links, and the sieve's log with resends and repair (R410, R433 to
R441, R445 to R448, R463). -/
namespace Sys2Proof.Machine

/-! ### Logs (R438, R447) -/

/-- A bus-log entry. -/
def State.busLog (s : State) (addr tile group retries outcome lane : Nat) : State :=
  let g := s.grm
  let e := natLe 8 addr ++ natLe 2 tile ++ natLe 1 group ++ natLe 1 retries ++ natLe 1 outcome ++ natLe 1 lane ++ natLe 2 0 ++
    s.logTail g.bltail
  { s with grm := { g with blog := g.blog.put (g.bltail.toNat % 256) e, bltail := g.bltail + 1 } }

/-- A sieve-log entry (R447, R463). -/
def State.sieveLog (s : State) (tile plane port owner tag reason dst source kind : Nat) : State :=
  let g := s.grm
  let e := natLe 2 tile ++ natLe 1 plane ++ natLe 1 port ++ natLe 1 owner ++ natLe 1 tag ++ natLe 1 reason ++ [0] ++
    natLe 2 dst ++ natLe 2 source ++ natLe 1 kind ++ natLe 3 0 ++ s.logTail g.svtail
  { s with grm := { g with svlog := g.svlog.put (g.svtail.toNat % 256) e, svtail := g.svtail + 1 } }

/-! ### Route entries (R447, R448) -/

/-- An entry written in a router's table; the table lists those that differ from the master. -/
def State.setRoute (s : State) (P : Part) (tile plane dst v : Nat) : State :=
  let k := routeKey tile plane dst
  let r := if P.masterEntry tile dst = v then s.wafer.route.del k else s.wafer.route.put k (BitVec.ofNat 4 v)
  { s with wafer := { s.wafer with route := r } }

/-- RTINJ (R447): one entry of the router that `RSEL` names; dropped when its tile is not assigned. -/
def execRtinj (v : Word) (s : State) : Host.Outcome State Fault Refusal :=
  let tile := (s.grm.rsel.extractLsb' 0 11).toNat
  .next (match (if v.getLsbD 31 then s.tileOwner tile else none) with
    | some p => s.setRoute (s.part p) tile (if v.getLsbD 15 then 1 else 0) (v.extractLsb' 0 11).toNat (v.extractLsb' 11 4).toNat
    | none => s)

/-- A drop is logged, and a comparison of route tables is asked for (R446, R448). -/
def State.drop (s : State) (p : Nat) (k : Packet) (tile plane port reason : Nat) : State :=
  let owner := s.tileOwner tile
  let s := s.sieveLog tile plane port (owner.getD 0xFF) p reason k.dst ((s.part p).localTile k.source) k.kind
  if reason = 2 then s
  else
    let ps := p :: (match owner with
      | some o => if o = p then [] else [o]
      | none => [])
    { s with grm := { s.grm with repairs := s.grm.repairs ++ [(s.gtime, ps)] } }

/-- The tiles that an engine operation sends its next packets to: the home slices of its next source and destination, or
the tiles of a flood's targets. -/
def State.engineDsts (s : State) (o : EngineOp) : List Nat :=
  let P := s.part o.part
  let slices (ls : List Loc) : List Nat := ls.filterMap fun l => match l with
    | .glob va => P.home va
    | .scr _ _ => none
  match o.form with
  | 0 | 1 | 2 => slices [(s.copyByte o o.done).1, (s.copyByte o o.done).2]
  | 3 => slices [if o.isLoad then o.memAt (o.done / 4 / o.region.2.2.2 * o.u 24 4 + 4 * (o.done / 4 % o.region.2.2.2))
                 else o.memAt (o.storeAt.1 * o.u 24 4 + 4 * o.storeAt.2)]
  | 7 => (o.targets.filter fun t => !t.2.2).map fun t => P.localTile ((s.block t.1).core / 4)
  | _ => []

/-- A packet of an engine operation (R447 kind 5) that a router drops now, with the place and the reason of the drop. -/
def State.engineDrop (s : State) (o : EngineOp) : Option (Packet × Nat × Nat × Nat × Nat) :=
  (s.engineDsts o).findSome? fun dst =>
    let k : Packet := { source := o.core / 4, dst := dst, plane := 0, kind := 5 }
    match s.packet o.part k.source dst 0 with
    | .drop tile plane port reason => some (k, tile, plane, port, reason)
    | _ => none

/-- SIEVE_DROP (R446): a packet on its way that a router drops; it is neither delivered, nor acknowledged, nor answered. -/
def execSieveDrop (id : Nat) (s : State) : Host.Outcome State Fault Refusal :=
  .next (match s.accs.find id, s.ops.find id, s.hreqs.find id with
    | some a, _, _ =>
      if (a.st = .sent || a.st = .answered) && a.dropped.isNone then
        match s.accWay a with
        | .drop tile plane port reason =>
          let s1 := s.drop a.part (s.packetOf a) tile plane port reason
          { s1 with accs := s1.accs.map fun x =>
              (x.1, if x.1 = id || (a.rides x.2 && x.2.dropped.isNone) then { x.2 with dropped := some s.gtime } else x.2) }
        | _ => s
      else s
    | none, some o, _ =>
      if o.st = .running && o.dropped.isNone then
        match s.engineDrop o with
        | some (k, tile, plane, port, reason) =>
          (s.drop o.part k tile plane port reason).onOp id fun o => { o with dropped := some s.gtime }
        | none => s
      else s
    | none, none, some r =>
      if r.dropped.isNone then
        match s.hypWay r with
        | .drop tile plane port reason =>
          let s1 := s.drop r.part (s.hypPacket r) tile plane port reason
          { s1 with hreqs := s1.hreqs.put id { r with dropped := some s.gtime } }
        | _ => s
      else s
    | none, none, none => s)

/-- PACKET_RESEND (R437). -/
def execPacketResend (id : Nat) (s : State) : Host.Outcome State Fault Refusal :=
  let again (d : Option Nat) : Option Nat := if resendDue s.gtime d then none else d
  let s1 := (s.onAcc id fun a => { a with dropped := again a.dropped }).onOp id fun o => { o with dropped := again o.dropped }
  .next (match s1.hreqs.find id with
    | some r => { s1 with hreqs := s1.hreqs.put id { r with dropped := again r.dropped } }
    | none => s1)

/-- One entry restored and logged (R448, R463). -/
def State.repairEntry (s : State) (k : Nat) : State :=
  let tile := k / 4096
  let dst := k % 2048
  let p := (s.tileOwner tile).getD 0xFF
  let s := { s with wafer := { s.wafer with route := s.wafer.route.del k } }
  s.sieveLog tile (k / 2048 % 2) ((s.part p).masterEntry tile dst) p p 3 dst 0 0

/-- ROUTE_REPAIR (R448, R463): the first comparison asked for; entries in order of router, then of destination. -/
def execRouteRepair (s : State) : Host.Outcome State Fault Refusal :=
  .next (match s.grm.repairs with
    | [] => s
    | (_, ps) :: rest =>
      let s := { s with grm := { s.grm with repairs := rest } }
      let bad := (s.wafer.route.map (·.1)).filter fun k => (s.tileOwner (k / 4096)).any ps.contains
      bad.foldl State.repairEntry s)

/-! ### Links (R437) -/

/-- Partitions that use a link: both its ends are theirs. -/
def Part.usesLink (P : Part) (tile port : Nat) : Bool :=
  P.tiles.contains tile && (neighbour tile (entrySide port)).any P.tiles.contains

/-- FLIT_CRC_REPLAY (R437): replays are counted; after 16 failures the link is taken down, and the partitions that use it
are re-embedded under a quiesce. The event also goes on with quiesces that are calm. -/
def execFlitCrcReplay (tile port fails : Nat) (s : State) : Host.Outcome State Fault Refusal :=
  let link := linkKey tile (entrySide port)
  let s1 : State := if fails = 0 then s else
    { s with wafer := { s.wafer with net := s.wafer.net.put tile (min (s.wafer.net.getD tile 0 + fails) (2 ^ 32 - 1)) } }
  let downs := 16 ≤ fails && 1 ≤ port && port ≤ 4 && (neighbour tile (entrySide port)).isSome && !(s1.wafer.linkDown.contains link)
  .next ((if downs then
      let s := { s1 with wafer := { s1.wafer with linkDown := link :: s1.wafer.linkDown } }
      (s.parts.filter fun x => x.2.usesLink tile port).foldl (fun s x => s.askJob x.1 .reembed) s
    else s1).runJobs)

/-! ### The vault bus (R436) -/

/-- VAULT_BEAT_PARITY_FAIL (R436): `fails` of the retries fail; after the fourth the lane is swapped, or the line of the
beat is uncorrectable. -/
def execVaultBeatParityFail (tile addr group fails lane : Nat) (s : State) : Host.Outcome State Fault Refusal :=
  let line := tile * 2 ^ 33 + addr % 2 ^ 33 / 128 * 128
  let g := group % 32
  let used := s.wafer.spareLane.getD tile 0
  .next (if fails < 4 then s.busLog line tile g (fails + 1) 0 0xFF
    else if used.getLsbD g then
      { s.busLog line tile g 4 2 0xFF with upsets := s.upsets ++ [.line 0 line] }
    else
      let s := s.busLog line tile g 4 1 (lane % 32)
      { s with wafer := { s.wafer with spareLane := s.wafer.spareLane.put tile (used ||| (1#32 <<< g)) } })

/-! ### Failed cores (R410, R440) -/

/-- A flood of a failed core arrives at the barriers of the targets that it has not finished, with the bytes that it
announced there (R440, R441; log entry 31). -/
def State.arriveFlood (s : State) (o : EngineOp) : State :=
  let rbar := o.u 20 4
  let len := o.u 16 4
  let s := if rbar = noAddr then s
    else (o.targets.filter fun t => !t.2.2).foldl (fun s t =>
      (s.barUpdate t.1 rbar 1 0 (if t.2.1 = 0 then 0 else len - t.2.1)).1) s
  if o.arrives && o.placed then (s.barUpdate o.bid o.bar 0 0 (o.total - o.done)).1 else s

/-- An operation of a failed core issues no further read or write, and completes in error without a record (R440). -/
def State.failCoreOp (s : State) (id : Nat) (o : EngineOp) : State :=
  if o.st = .landed || o.st = .failed then s
  else if o.st = .reading then s.takeBack id o
  else
    let s := if o.form = 7 && o.st = .running then s.arriveFlood o else s
    s.onOp id fun o => { o with st := .failed, hasErr := true, cause := 0, recAt := noAddr, stalled := none }

/-- A core is declared failed (R440): its owned words are owner-lost, requests that it was to answer are answered so, its
lids are released and its operations end; its partition is quiesced for its recovery. -/
def State.failCore (s : State) (core : Nat) : State :=
  if (s.coreRegs core).failed then s
  else
    let tile := core / 4
    let s := s.onCore core fun r => { r with failed := true, asleep := false }
    let s := s.loseOwned core
    let s := s.accs.foldl (fun s a => if a.2.st = .atOwner core then s.failLoad a.1 a.2 (noWalk (cz 0x16 0)) else s) s
    let s := { s with lids := s.lids.filter fun l => l.core ≠ core }
    let s := (s.ops.filter fun o => o.2.core = core).foldl (fun s o => s.failCoreOp o.1 o.2) s
    match s.tileOwner tile with
    | some p => (s.askJob p (.recover ((s.part p).localTile tile)))
    | none => (if s.tileSt tile = .dead then s else s.setTile tile .dead).topSpares 24

/-- CORE_FAILURE (R440); the event also goes on with quiesces that are calm. -/
def execCoreFailure (core : Nat) (s : State) : Host.Outcome State Fault Refusal :=
  .next ((if core < 4 * Config.poolTiles then s.failCore core else s).runJobs)

/-! ### Samples of the error counts (R433, R439) -/

/-- An error found: a corrected one counts, one in a DRAM array or on a vault line is logged; an uncorrectable one waits
for its consumer, one at retention voltage for the sweep of a core that sleeps in native mode (R344); a self-test that
has been asked for rewrites the core's health (R410, R433, R438). -/
def State.found (s : State) : Upset → State
  | .corrected tile addr layer kind =>
    let s := { s with wafer := { s.wafer with soft := s.wafer.soft.put tile (min (s.wafer.soft.getD tile 0 + 1) (2 ^ 32 - 1)) } }
    if kind < 2 then s.arrayLog addr tile (some layer) kind else s
  | .line sp a =>
    let s := { s with upsets := s.upsets ++ [.line sp (a / 128 * 128)] }
    if sp = 0 then s.arrayLog (a / 128 * 128) (a / 2 ^ 33) none 2 else s
  | .quads core m =>
    if (s.coreRegs core).selfTest then
      let s := s.onCore core fun r => { r with health := m, selfTest := false }
      if m = 0xFF then s else s.failCore core
    else s
  | .retained wid lane n bad =>
    if (s.coreRegs (s.warp wid).core).asleep && !(s.part (s.partOf wid)).compat then
      { s with upsets := s.upsets ++ [.retained wid lane n bad] }
    else s
  | u => { s with upsets := s.upsets ++ [u] }

/-- The window of `RWARN` in milliseconds, and its threshold. -/
def Griermor.window (g : Griermor) : Nat := (g.rwarn.extractLsb' 16 16).toNat
def Griermor.thresh (g : Griermor) : Nat := (g.rwarn.extractLsb' 0 16).toNat

/-- Samples of a tile that a window still needs: those in it, and the newest before it. -/
def recent (l : List (Nat × Nat × Nat)) (tile from_ : Nat) : List (Nat × Nat × Nat) :=
  let mine := l.filter fun x => x.1 = tile
  let inside := mine.filter fun x => from_ < x.2.1
  let before := mine.filter fun x => x.2.1 ≤ from_
  (match before.getLast? with
    | some x => [x]
    | none => []) ++ inside

/-- How much a tile's count has risen since the start of a window. -/
def State.risen (s : State) (tile now : Nat) : Nat :=
  let base := match (recent s.wafer.softLog tile (now - s.grm.window)).head? with
    | some x => x.2.2
    | none => 0
  s.wafer.soft.getD tile 0 - base

/-- A warning of a tile that a sample raises: its cores are to test themselves (R410), and the partition that holds it is
checkpointed. -/
def State.warn (s : State) (now tile : Nat) : State :=
  if s.grm.thresh ≤ s.risen tile now && !(s.wafer.warned.any fun w => w.1 = tile && now < w.2 + s.grm.window) then
    let s := { s with wafer := { s.wafer with warned := (tile, now) :: (s.wafer.warned.filter fun w => w.1 ≠ tile) } }
    let s := (List.range 4).foldl (fun s i => s.onCore (4 * tile + i) fun r => { r with selfTest := true }) s
    match s.tileOwner tile with
    | some p => s.askJob p .checkpoint
    | none => s
  else s

/-- A sample of every tile's count (R439). -/
def State.sampleSoft (s : State) (now : Nat) : State :=
  let tiles := s.wafer.soft.map (·.1)
  let s := tiles.foldl (fun s t => s.warn now t) s
  let kept := tiles.flatMap fun t => recent s.wafer.softLog t (now - s.grm.window) ++ [(t, now, s.wafer.soft.getD t 0)]
  { s with grm := { s.grm with lastSample := now }, wafer := { s.wafer with softLog := kept } }

/-- SOFT_ERROR_SAMPLE (R439): errors found since the last sample, and once in a millisecond the sample; the event also
goes on with quiesces that are calm. -/
def execSoftErrorSample (errors : List Upset) (s : State) : Host.Outcome State Fault Refusal :=
  let s := errors.foldl State.found s
  let now := s.gtime / 1000000
  .next ((if s.grm.lastSample < now && !s.grm.asleep then s.sampleSoft now else s).runJobs)

end Sys2Proof.Machine
end

