-- ==== Sys2Proof/Machine/Rejoin.lean ====
section
/-! DEFINITION. Release and fusion of held parts, and mixed warps (R29 to R31, R469). -/
namespace Sys2Proof.Machine

/-- A state in which a running group does not keep the others held (R29). -/
def GroupSt.settled : GroupSt → Bool
  | .held | .atBar | .atGbar | .blocked | .widle | .parked => true
  | _ => false

/-- Lanes of the warp's trap-mode set among a group's. -/
def Warp.trapGroup (w : Warp) (g : Group) : Bool := w.trapSet &&& g.lanes ≠ 0

/-- Every non-exited thread is held, blocked, deferred behind such a group, in trap mode or parked (R29). -/
def Warp.allSettled (w : Warp) : Bool := w.groups.all fun g => g.pos ≠ 0 || g.st.settled || w.trapGroup g

/-- The same for the trap-mode set alone, at one header (R469). -/
def Warp.setSettled (w : Warp) (hdr : DWord) : Bool :=
  w.groups.all fun g => g.pos ≠ 0 || !(w.trapGroup g) ||
    match g.st with
    | .held => g.hdr = hdr
    | st => st.settled

/-- May the hold of a group end now (R29, R469)? -/
def Warp.holdOver (w : Warp) (g : Group) : Bool :=
  g.st = .held && (if w.trapGroup g then w.setSettled g.hdr else w.allSettled)

/-- Some hold of the warp ends (R29). -/
def Warp.rejoinDue (w : Warp) : Bool := w.groups.any w.holdOver

/-- A deferred group at the place of a released one that fuses with it (R30). -/
def Warp.fusesWith (w : Warp) (h g : Group) : Bool :=
  0 < g.pos && g.quad = h.quad && g.pc = h.pc && g.hdr = h.hdr && g.depth = h.depth &&
  (g.st = .held || (g.st = .running && g.pc = g.hdr)) && w.trapGroup g = w.trapGroup h

/-- Deferred groups of a quad renumbered in their order. -/
def renumber (q : Nat) : List Group → Nat → List Group
  | [], _ => []
  | g :: gs, n =>
    if g.quad = q && 0 < g.pos then { g with pos := n } :: renumber q gs (n + 1) else g :: renumber q gs n

/-- Insertion by place in the queue. -/
def insertPos (g : Group) : List Group → List Group
  | [] => [g]
  | h :: t => if g.pos ≤ h.pos then g :: h :: t else h :: insertPos g t

/-- A group released: it goes on past its header. -/
def Group.release (g : Group) : Group := { g with st := .running, passed := true, looked := 0 }

/-- Released running groups take the lanes of the deferred groups that fuse with them (R30). -/
def Warp.absorb (w : Warp) (ended : Group → Bool) : Warp :=
  let heads := w.groups.filter fun g => g.pos = 0 && ended g
  let gone (g : Group) : Bool := heads.any fun h => w.fusesWith h g
  let gs := (w.groups.filter fun g => !(gone g)).map fun g =>
    if g.pos = 0 && ended g then
      { g.release with lanes := lanesOfGroups (g :: w.groups.filter fun x => w.fusesWith g x) }
    else if ended g then g.release else g
  let gs := gs.foldr insertPos []
  { w with groups := (List.range 8).foldl (fun gs q => renumber q gs 1) gs }

/-- Running groups of released parts at one place form one sliver (R30). -/
def Warp.fuseAt (w : Warp) (keys : List (DWord × Nat × Bool)) : Warp :=
  keys.foldl (fun w k =>
    let isIn (g : Group) : Bool :=
      g.pos = 0 && g.passed && g.st = .running && g.pc = k.1 && g.hdr = k.1 && g.depth = k.2.1 && w.trapGroup g = k.2.2
    match w.groups.find? isIn with
    | none => w
    | some h => { w with groups := w.groups.map fun g => if isIn g then { g with sliver := h.sliver } else g }) w

/-- Every group that a predicate selects is released, and parts at one place fuse (R29, R30). -/
def Warp.releaseHeld (w : Warp) (ended : Group → Bool) : Warp :=
  let keys := ((w.groups.filter ended).map fun g => (g.pc, g.depth, w.trapGroup g)).eraseDups
  (w.absorb ended).fuseAt keys

/-- Warps of a list in age order. -/
def insertAge (x : Nat × Warp) : List (Nat × Warp) → List (Nat × Warp)
  | [] => [x]
  | y :: ys => if x.2.age < y.2.age || (x.2.age = y.2.age && x.1 ≤ y.1) then x :: y :: ys else y :: insertAge x ys

/-- A held sliver that may join a mixed warp at a header (R31). -/
def State.mixable (s : State) (w : Warp) (k : Nat) (hdr : DWord) (depth : Nat) : Bool :=
  let gs := w.running k
  gs ≠ [] && gs.all fun g => g.st = .held && g.hdr = hdr && g.depth = depth && g.since + 64 ≤ s.tickOf w.core &&
    !(w.trapGroup g)

/-- The parts of a mixed warp that begins with a released sliver: held slivers of other home warps of the block, oldest
first, on quads not taken yet (R31). -/
def State.mixParts (s : State) (wid k : Nat) : List (Nat × Nat) :=
  let w := s.warp wid
  match w.running k with
  | [] => []
  | g :: _ =>
    let others := ((s.blockWarps w.bid).filter fun x => x.1 ≠ wid && x.2.role = w.role).foldr insertAge []
    let cand := others.flatMap fun x => (x.2.slivers.filter fun j => s.mixable x.2 j g.hdr g.depth).map fun j => (x.1, j)
    (cand.foldl (fun (r : List (Nat × Nat) × List Nat) p =>
      let qs := (s.warp p.1).quadsOf p.2
      if qs.any r.2.contains then r else (r.1 ++ [p], r.2 ++ qs)) ([(wid, k)], w.quadsOf k)).1

/-- A mixed warp formed around a released sliver that does not hold every thread of its home warp (R31); the slivers it takes
are released and fuse as R30 says. -/
def State.formMixed (s : State) (wid k : Nat) : State :=
  let w := s.warp wid
  let parts := s.mixParts wid k
  if w.sliverLanes k = w.live || parts.length < 2 || (w.running k).any w.trapGroup ||
      s.mixed.any (fun m => m.parts.contains (wid, k)) then s
  else
    let took := (parts.drop 1).map fun p => (p.1, ((s.warp p.1).quadsOf p.2).headD 0)
    let s := (parts.drop 1).foldl (fun s p => s.onWarp p.1 fun w =>
      w.releaseHeld fun g => g.pos = 0 && g.sliver = p.2 && g.st = .held) s
    let now := took.map fun q => (q.1, (((s.warp q.1).groups.find? fun g => g.pos = 0 && g.quad = q.2).map (·.sliver)).getD 0)
    { s with mixed := { core := w.core, parts := ((wid, k) :: now).eraseDups } :: s.mixed }

/-- Slivers of a warp that stand released at their header. -/
def Warp.releasedSlivers (w : Warp) : List Nat :=
  w.slivers.filter fun k => (w.running k).all fun g => g.passed && g.pc = g.hdr && g.st = .running

/-- A release, with mixed warps where the core forms them (R29 to R31). -/
def State.release (s : State) (wid : Nat) (mix : Bool) (ended : Group → Bool) : State :=
  let s := s.onWarp wid fun w => w.releaseHeld ended
  let s := if mix then ((s.warp wid).releasedSlivers).foldl (fun s k => s.formMixed wid k) s else s
  s.tidyMixed

/-- REJOIN_RELEASE (R29): the holds that are over end. -/
def execRejoinRelease (wid : Nat) (mix : Bool) (s : State) : Host.Outcome State Fault Refusal :=
  .next (if (s.warp wid).rejoinDue then s.release wid mix (s.warp wid).holdOver else s)

/-- A hold that has lasted 1,024 ticks (R29). -/
def State.holdLate (s : State) (wid : Nat) (g : Group) : Bool := g.st = .held && g.since + 1024 ≤ s.warpTick wid

/-- REJOIN_TIMEOUT (R29): every part of the home warp held at that header is released, deferred parts too; whether the core
forms a mixed warp with them is open (R31). -/
def execRejoinTimeout (wid sliver : Nat) (s : State) : Host.Outcome State Fault Refusal :=
  .next (match (s.warp wid).groups.find? fun g => g.sliver = sliver && s.holdLate wid g with
    | some h =>
      ({ s with freeCtr := s.freeCtr + 1 } : State).release wid (Config.freeBool s.freeCtr) fun g => g.st = .held && g.hdr = h.hdr
    | none => s)

end Sys2Proof.Machine
end

