-- ==== Sys2Proof/Machine/Special.lean ====
section
/-! DEFINITION. The special functions RCP to TANHA (R127, R187). The special results are exact; elsewhere the result is a
free value within the accuracy of R127 (log entry 11), judged against an approximation with 100 correct bits. -/
namespace Sys2Proof.Machine

/-- One in the fixed-point numbers used here: 128 fraction bits. -/
def fxOne : Nat := 2 ^ 128

/-- ln 2, π and 1 / ln 2 in that format. -/
def fxLn2 : Nat := 0xb17217f7d1cf79abc9e3b39803f2f6af
def fxPi : Nat := 0x3243f6a8885a308d313198a2e03707344
def fxLog2e : Nat := 0x171547652b82fe1777d0ffda0d23a7d11

/-- The Taylor sum of e^t from term k down. -/
def expSum (t : Nat) : Nat → Nat → Nat
  | 0, acc => acc
  | k + 1, acc => expSum t k (fxOne + t * acc / fxOne / (k + 1))

/-- 2^(X / 2^128) as a value. -/
def exp2Fixed (x : Int) : FVal :=
  let k := x.fdiv fxOne
  let f := (x - k * fxOne).toNat
  .fin false (expSum (f * fxLn2 / fxOne) 40 fxOne) (k - 128)

/-- A finite value in fixed point, rounded down. -/
def toFixed (neg : Bool) (m : Nat) (e : Int) : Int :=
  let v : Int := if neg then -(m : Int) else m
  if 0 ≤ e + 128 then v * 2 ^ (e + 128).toNat else v.fdiv (2 ^ (-(e + 128)).toNat)

/-- The odd series z + z³/3 + z⁵/5 + … from term k down. -/
def atanhSum (z2 : Nat) : Nat → Nat → Nat
  | 0, acc => acc
  | k + 1, acc => atanhSum z2 k (fxOne / (2 * k + 1) + z2 * acc / fxOne)

/-- log₂ of m × 2^e as a value. -/
def log2Fixed (m : Nat) (e : Int) : FVal :=
  let l := Nat.log2 m
  let y := m * 2 ^ (128 - l)
  let z := (y - fxOne) * fxOne / (y + fxOne)
  let ln := 2 * (z * atanhSum (z * z / fxOne) 45 0 / fxOne)
  let v : Int := ((l : Int) + e) * fxOne + (ln * fxLog2e / fxOne : Nat)
  .fin (decide (v < 0)) v.natAbs (-128)

/-- The series of sin t / t from term k down, in t². -/
def sinSum (t2 : Int) : Nat → Int → Int
  | 0, acc => acc
  | k + 1, acc => sinSum t2 k (fxOne - t2 * acc / fxOne / ((2 * k + 2) * (2 * k + 3)))

/-- sin (π X / 2^128) as a value. -/
def sinPi (x : Int) : FVal :=
  let q := x.fmod (2 * fxOne)
  let neg := decide ((fxOne : Int) ≤ q)
  let q := if neg then q - fxOne else q
  let q := if (fxOne : Int) < 2 * q then fxOne - q else q
  let t := q * fxPi / fxOne
  .fin neg (t * sinSum (t * t / fxOne) 20 fxOne / fxOne).natAbs (-128)

/-- tanh of m × 2^e, m positive, as a value. -/
def tanhFixed (neg : Bool) (m : Nat) (e : Int) : FVal :=
  let x := toFixed false m e
  if 20 * (fxOne : Int) ≤ x then .fin neg 1 0
  else
    match exp2Fixed (2 * x * fxLog2e / fxOne) with
    | .fin _ r k =>
      let u := r * 2 ^ (k + 128).toNat
      .fin neg ((u - fxOne) * fxOne / (u + fxOne)) (-128)
    | v => v

/-- An approximation with 100 correct bits of a function of a finite operand, none of the special cases. -/
def approxOf (fn : Nat) (neg : Bool) (m : Nat) (e : Int) : FVal :=
  match fn with
  | 0 => .fin neg (2 ^ 200 / m) (-200 - e)
  | 1 => if e % 2 = 0 then .fin false (Nat.sqrt (2 ^ 400 / m)) (-200 - e / 2)
         else .fin false (Nat.sqrt (2 ^ 400 / (2 * m))) (-200 - (e - 1) / 2)
  | 2 => if e % 2 = 0 then .fin false (Nat.sqrt (m * 2 ^ 400)) (e / 2 - 200)
         else .fin false (Nat.sqrt (2 * m * 2 ^ 400)) ((e - 1) / 2 - 200)
  | 3 => let x := toFixed neg m e
         if x < -300 * (fxOne : Int) then .fin false 1 (-300) else exp2Fixed x
  | 4 => log2Fixed m e
  | 5 => sinPi (toFixed neg m e)
  | 6 => sinPi (toFixed neg m e + 2 ^ 127)
  | _ => tanhFixed neg m e

/-- The accuracy of R127 for a result near a value: ulps of its binade, at most 2^-149 on the subnormal grid, or an
absolute bound. -/
def accuracy (fn : Nat) (inner : Bool) (a : FVal) : FVal :=
  let top := match a with
    | .fin _ m e => topExp m e
    | _ => 0
  let ulps (k : Nat) : FVal := if top < -126 then .fin false 1 (-149) else .fin false k (top - 23)
  match fn with
  | 0 | 1 | 2 => ulps 1
  | 3 => ulps 2
  | 4 => if inner then .fin false 1 (-22) else ulps 2
  | 5 | 6 => .fin false 1 (-22)
  | _ => .fin false 1 (-21)

/-- Lowest exponent of three values. -/
def grid3 (x y z : FVal) : Int := (minExp [x, y, z]).getD 0

/-- Is a finite F32 within a bound of a value? R127 bounds the error alone, so that a zero has either sign. -/
def withinBound (y a b : FVal) : Bool :=
  match y with
  | .fin .. =>
    let g := grid3 y a b
    decide ((sumOn g [y, a.neg]).natAbs ≤ (sumOn g [b]).natAbs)
  | _ => false

def canon32 : Word := 0x7FC00000
def signed32 (neg : Bool) (mag : Word) : Word := if neg then mag ||| 0x80000000 else mag

/-- The integer a finite value equals, if it is one. -/
def intOf (neg : Bool) (m : Nat) (e : Int) : Option Int :=
  if 0 ≤ e then some (if neg then -((m * 2 ^ e.toNat : Nat) : Int) else (m * 2 ^ e.toNat : Nat))
  else if m % 2 ^ (-e).toNat = 0 then some (if neg then -((m / 2 ^ (-e).toNat : Nat) : Int) else (m / 2 ^ (-e).toNat : Nat))
  else none

/-- The special results of R127 for an infinity. -/
def specialInf (fn : Nat) (neg : Bool) : Word × Effects :=
  match fn with
  | 0 => (signed32 neg 0, fxNone)
  | 1 => if neg then (canon32, fxNv) else (0, fxNone)
  | 2 | 4 => if neg then (canon32, fxNv) else (0x7F800000, fxNone)
  | 3 => (if neg then 0 else 0x7F800000, fxNone)
  | 5 | 6 => (canon32, fxNv)
  | _ => (signed32 neg 0x3F800000, fxNone)

/-- The special results of R127 for a zero. -/
def specialZero (fn : Nat) (neg : Bool) : Word × Effects :=
  match fn with
  | 0 | 1 => (signed32 neg 0x7F800000, fxDz)
  | 3 | 6 => (0x3F800000, fxNone)
  | 4 => (0xFF800000, fxDz)
  | _ => (signed32 neg 0, fxNone)

/-- The special results of R127 for a finite operand that is not zero. -/
def specialFin (fn : Nat) (neg : Bool) (m : Nat) (e : Int) : Option (Word × Effects) :=
  match fn with
  | 0 => if FVal.lt (.fin false (m * (2 ^ 24 - 1)) (e + 104)) (.fin false 1 0) then some (signed32 neg 0x7F800000, fxNone) else none
  | 1 | 2 => if neg then some (canon32, fxNv) else none
  | 3 =>
    if !neg && 7 ≤ topExp m e then some (0x7F800000, fxNone)
    else (intOf neg m e).bind fun k => if -149 ≤ k then some ((round32 0 (.fin false 1 k)).1, fxNone) else none
  | 4 =>
    if neg then some (canon32, fxNv)
    else if m = 2 ^ Nat.log2 m then some ((round32 0 (.ofInt (topExp m e))).1, fxNone) else none
  | 5 =>
    match intOf neg m e, intOf neg m (e + 1) with
    | some _, _ => some (signed32 neg 0, fxNone)
    | none, some n => some (signed32 (n % 4 = 3) 0x3F800000, fxNone)
    | none, none => none
  | 6 =>
    match intOf neg m e, intOf neg m (e + 1) with
    | some n, _ => some (signed32 (n % 2 = 1) 0x3F800000, fxNone)
    | none, some _ => some (0, fxNone)
    | none, none => none
  | _ => none

/-- A special function of an F32 word: function number as m (R148). -/
def specialOf (fn : Nat) (x : Word) : Word × Effects :=
  match val32 x with
  | .nan => (canon32, fxNone)
  | .inf s => specialInf fn s
  | .fin s 0 _ => specialZero fn s
  | .fin s m e =>
    match specialFin fn s m e with
    | some r => r
    | none =>
      let a := approxOf fn s m e
      let inner := !(FVal.lt (.fin false m e) (.fin false 1 (-1))) && !(FVal.lt (.fin false 1 1) (.fin false m e))
      let y := Config.special fn x
      (if withinBound (val32 y) a (accuracy fn inner a) then y else (round32 0 a).1, fxNone)

/-- The checks of a special function (R176). -/
def chkSpecial (f : V3) : Checks := chk1 f none f32Tag

/-- R187. -/
def execRcp (f : V3) (s : State) : StepOut :=
  alu s (.rcp f) (chkSpecial f) fun v => outF32 (specialOf 0 v.A)

/-- R187. -/
def execRsq (f : V3) (s : State) : StepOut :=
  alu s (.rsq f) (chkSpecial f) fun v => outF32 (specialOf 1 v.A)

/-- R187. -/
def execSqrta (f : V3) (s : State) : StepOut :=
  alu s (.sqrta f) (chkSpecial f) fun v => outF32 (specialOf 2 v.A)

/-- R187. -/
def execExp2 (f : V3) (s : State) : StepOut :=
  alu s (.exp2 f) (chkSpecial f) fun v => outF32 (specialOf 3 v.A)

/-- R187. -/
def execLog2 (f : V3) (s : State) : StepOut :=
  alu s (.log2 f) (chkSpecial f) fun v => outF32 (specialOf 4 v.A)

/-- R187. -/
def execSinp (f : V3) (s : State) : StepOut :=
  alu s (.sinp f) (chkSpecial f) fun v => outF32 (specialOf 5 v.A)

/-- R187. -/
def execCosp (f : V3) (s : State) : StepOut :=
  alu s (.cosp f) (chkSpecial f) fun v => outF32 (specialOf 6 v.A)

/-- R187. -/
def execTanha (f : V3) (s : State) : StepOut :=
  alu s (.tanha f) (chkSpecial f) fun v => outF32 (specialOf 7 v.A)

end Sys2Proof.Machine
end

