-- ==== Sys2Proof/Machine/Dispatch.lean ====
section
/-! DEFINITION. One arm per constructor of Instr: each a direct call of its meaning. -/
namespace Sys2Proof.Machine

def exec (i : Instr) (s : State) : Host.Outcome State Fault Refusal :=
  match i with
  | .nop f => Sys2Proof.Machine.execNop f s
  | .iadd f => Sys2Proof.Machine.execIadd f s
  | .isub f => Sys2Proof.Machine.execIsub f s
  | .iaddc f => Sys2Proof.Machine.execIaddc f s
  | .isubb f => Sys2Proof.Machine.execIsubb f s
  | .imul f => Sys2Proof.Machine.execImul f s
  | .imulh f => Sys2Proof.Machine.execImulh f s
  | .imad f => Sys2Proof.Machine.execImad f s
  | .imin f => Sys2Proof.Machine.execImin f s
  | .imax f => Sys2Proof.Machine.execImax f s
  | .iabs f => Sys2Proof.Machine.execIabs f s
  | .bitAnd f => Sys2Proof.Machine.execBitAnd f s
  | .bitOr f => Sys2Proof.Machine.execBitOr f s
  | .bitXor f => Sys2Proof.Machine.execBitXor f s
  | .andn f => Sys2Proof.Machine.execAndn f s
  | .shl f => Sys2Proof.Machine.execShl f s
  | .shr f => Sys2Proof.Machine.execShr f s
  | .rot f => Sys2Proof.Machine.execRot f s
  | .shf f => Sys2Proof.Machine.execShf f s
  | .popc f => Sys2Proof.Machine.execPopc f s
  | .clz f => Sys2Proof.Machine.execClz f s
  | .brev f => Sys2Proof.Machine.execBrev f s
  | .bfx f => Sys2Proof.Machine.execBfx f s
  | .bfi f => Sys2Proof.Machine.execBfi f s
  | .sel f => Sys2Proof.Machine.execSel f s
  | .mov f => Sys2Proof.Machine.execMov f s
  | .movi f => Sys2Proof.Machine.execMovi f s
  | .movhi f => Sys2Proof.Machine.execMovhi f s
  | .lea f => Sys2Proof.Machine.execLea f s
  | .icmpS f => Sys2Proof.Machine.execIcmpS f s
  | .icmpN f => Sys2Proof.Machine.execIcmpN f s
  | .iaddi f => Sys2Proof.Machine.execIaddi f s
  | .plop f => Sys2Proof.Machine.execPlop f s
  | .pmov f => Sys2Proof.Machine.execPmov f s
  | .umov f => Sys2Proof.Machine.execUmov f s
  | .tag f => Sys2Proof.Machine.execTag f s
  | .fadd f => Sys2Proof.Machine.execFadd f s
  | .fsub f => Sys2Proof.Machine.execFsub f s
  | .fmul f => Sys2Proof.Machine.execFmul f s
  | .ffma f => Sys2Proof.Machine.execFfma f s
  | .fmin f => Sys2Proof.Machine.execFmin f s
  | .fmax f => Sys2Proof.Machine.execFmax f s
  | .fcmp f => Sys2Proof.Machine.execFcmp f s
  | .frnd f => Sys2Proof.Machine.execFrnd f s
  | .f2i f => Sys2Proof.Machine.execF2i f s
  | .i2f f => Sys2Proof.Machine.execI2f f s
  | .fcvt f => Sys2Proof.Machine.execFcvt f s
  | .fclass f => Sys2Proof.Machine.execFclass f s
  | .fscale f => Sys2Proof.Machine.execFscale f s
  | .dadd f => Sys2Proof.Machine.execDadd f s
  | .dmul f => Sys2Proof.Machine.execDmul f s
  | .dfma f => Sys2Proof.Machine.execDfma f s
  | .dcmp f => Sys2Proof.Machine.execDcmp f s
  | .rcp f => Sys2Proof.Machine.execRcp f s
  | .rsq f => Sys2Proof.Machine.execRsq f s
  | .sqrta f => Sys2Proof.Machine.execSqrta f s
  | .exp2 f => Sys2Proof.Machine.execExp2 f s
  | .log2 f => Sys2Proof.Machine.execLog2 f s
  | .sinp f => Sys2Proof.Machine.execSinp f s
  | .cosp f => Sys2Proof.Machine.execCosp f s
  | .tanha f => Sys2Proof.Machine.execTanha f s
  | .hadd2 f => Sys2Proof.Machine.execHadd2 f s
  | .hfma2 f => Sys2Proof.Machine.execHfma2 f s
  | .qadd4 f => Sys2Proof.Machine.execQadd4 f s
  | .qmul4 f => Sys2Proof.Machine.execQmul4 f s
  | .dot4 f => Sys2Proof.Machine.execDot4 f s
  | .dot8 f => Sys2Proof.Machine.execDot8 f s
  | .idot4 f => Sys2Proof.Machine.execIdot4 f s
  | .idot8 f => Sys2Proof.Machine.execIdot8 f s
  | .pcvt f => Sys2Proof.Machine.execPcvt f s
  | .pscale f => Sys2Proof.Machine.execPscale f s
  | .pamax f => Sys2Proof.Machine.execPamax f s
  | .shfl f => Sys2Proof.Machine.execShfl f s
  | .vote f => Sys2Proof.Machine.execVote f s
  | .ired f => Sys2Proof.Machine.execIred f s
  | .kclr f => Sys2Proof.Machine.execKclr f s
  | .kadd f => Sys2Proof.Machine.execKadd f s
  | .kmad f => Sys2Proof.Machine.execKmad f s
  | .krnd f => Sys2Proof.Machine.execKrnd f s
  | .ksave f => Sys2Proof.Machine.execKsave f s
  | .kload f => Sys2Proof.Machine.execKload f s
  | .scan f => Sys2Proof.Machine.execScan f s
  | .matchLanes f => Sys2Proof.Machine.execMatchLanes f s
  | .orient2 f => Sys2Proof.Machine.execOrient2 f s
  | .orient3 f => Sys2Proof.Machine.execOrient3 f s
  | .incirc f => Sys2Proof.Machine.execIncirc f s
  | .insph f => Sys2Proof.Machine.execInsph f s
  | .segx f => Sys2Proof.Machine.execSegx f s
  | .ld f => Sys2Proof.Machine.execLd f s
  | .st f => Sys2Proof.Machine.execSt f s
  | .lds f => Sys2Proof.Machine.execLds f s
  | .sts f => Sys2Proof.Machine.execSts f s
  | .ldn f => Sys2Proof.Machine.execLdn f s
  | .stn f => Sys2Proof.Machine.execStn f s
  | .ldu f => Sys2Proof.Machine.execLdu f s
  | .atom f => Sys2Proof.Machine.execAtom f s
  | .atoms f => Sys2Proof.Machine.execAtoms f s
  | .atomn f => Sys2Proof.Machine.execAtomn f s
  | .pref f => Sys2Proof.Machine.execPref f s
  | .fence f => Sys2Proof.Machine.execFence f s
  | .cwb f => Sys2Proof.Machine.execCwb f s
  | .bar f => Sys2Proof.Machine.execBar f s
  | .gbar f => Sys2Proof.Machine.execGbar f s
  | .pharr f => Sys2Proof.Machine.execPharr f s
  | .phwait f => Sys2Proof.Machine.execPhwait f s
  | .wait f => Sys2Proof.Machine.execWait f s
  | .twait f => Sys2Proof.Machine.execTwait f s
  | .tany f => Sys2Proof.Machine.execTany f s
  | .tfind f => Sys2Proof.Machine.execTfind f s
  | .tclr f => Sys2Proof.Machine.execTclr f s
  | .bra f => Sys2Proof.Machine.execBra f s
  | .brx f => Sys2Proof.Machine.execBrx f s
  | .jtab f => Sys2Proof.Machine.execJtab f s
  | .call f => Sys2Proof.Machine.execCall f s
  | .callx f => Sys2Proof.Machine.execCallx f s
  | .ret f => Sys2Proof.Machine.execRet f s
  | .loop f => Sys2Proof.Machine.execLoop f s
  | .brk f => Sys2Proof.Machine.execBrk f s
  | .exitThread f => Sys2Proof.Machine.execExitThread f s
  | .yield f => Sys2Proof.Machine.execYield f s
  | .trapCode f => Sys2Proof.Machine.execTrapCode f s
  | .bpt f => Sys2Proof.Machine.execBpt f s
  | .cpy f => Sys2Proof.Machine.execCpy f s
  | .cpys f => Sys2Proof.Machine.execCpys f s
  | .cpyg f => Sys2Proof.Machine.execCpyg f s
  | .cpya f => Sys2Proof.Machine.execCpya f s
  | .mma f => Sys2Proof.Machine.execMma f s
  | .mmag f => Sys2Proof.Machine.execMmag f s
  | .acclr f => Sys2Proof.Machine.execAcclr f s
  | .bcast f => Sys2Proof.Machine.execBcast f s
  | .cpyr f => Sys2Proof.Machine.execCpyr f s
  | .hnew f => Sys2Proof.Machine.execHnew f s
  | .hset f => Sys2Proof.Machine.execHset f s
  | .hget f => Sys2Proof.Machine.execHget f s
  | .hconf f => Sys2Proof.Machine.execHconf f s
  | .href f => Sys2Proof.Machine.execHref f s
  | .hchk f => Sys2Proof.Machine.execHchk f s
  | .hwait f => Sys2Proof.Machine.execHwait f s
  | .srd f => Sys2Proof.Machine.execSrd f s
  | .swr f => Sys2Proof.Machine.execSwr f s
  | .rte f => Sys2Proof.Machine.execRte f s
  | .rtex f => Sys2Proof.Machine.execRtex f s
  | .tlbi f => Sys2Proof.Machine.execTlbi f s
  | .widle f => Sys2Proof.Machine.execWidle f s
  | .park f => Sys2Proof.Machine.execPark f s
  | .ldt f => Sys2Proof.Machine.execLdt f s
  | .rejoinRelease wid mix => Sys2Proof.Machine.execRejoinRelease wid mix s
  | .rejoinTimeout wid sliver => Sys2Proof.Machine.execRejoinTimeout wid sliver s
  | .warpSwap core => Sys2Proof.Machine.execWarpSwap core s
  | .pendingWarpPromote core => Sys2Proof.Machine.execPendingWarpPromote core s
  | .gangPlace gid places => Sys2Proof.Machine.execGangPlace gid places s
  | .blockRetire bid => Sys2Proof.Machine.execBlockRetire bid s
  | .storeRegistration id => Sys2Proof.Machine.execStoreRegistration id s
  | .storeAcknowledge id => Sys2Proof.Machine.execStoreAcknowledge id s
  | .loadAtHomeSlice id => Sys2Proof.Machine.execLoadAtHomeSlice id s
  | .ownerForward id => Sys2Proof.Machine.execOwnerForward id s
  | .loadReply id => Sys2Proof.Machine.execLoadReply id s
  | .atomicAtHomeSlice id => Sys2Proof.Machine.execAtomicAtHomeSlice id s
  | .gangRemoteArrival id => Sys2Proof.Machine.execGangRemoteArrival id s
  | .hostSnoop peer addr data => Sys2Proof.Machine.execHostSnoop peer addr data s
  | .faultRecordArrive id => Sys2Proof.Machine.execFaultRecordArrive id s
  | .faultTrapTimeout wid => Sys2Proof.Machine.execFaultTrapTimeout wid s
  | .engOpStart op => Sys2Proof.Machine.execEngOpStart op s
  | .copyChunkLand op bid n => Sys2Proof.Machine.execCopyChunkLand op bid n s
  | .engOpComplete op => Sys2Proof.Machine.execEngOpComplete op s
  | .accOpTurn op => Sys2Proof.Machine.execAccOpTurn op s
  | .millPass tile mismatch => Sys2Proof.Machine.execMillPass tile mismatch s
  | .bcastTargetDone op bid => Sys2Proof.Machine.execBcastTargetDone op bid s
  | .versionWriteAtSlice id => Sys2Proof.Machine.execVersionWriteAtSlice id s
  | .hypCapacityTimeout id => Sys2Proof.Machine.execHypCapacityTimeout id s
  | .hypRequestAtHome id => Sys2Proof.Machine.execHypRequestAtHome id s
  | .hypWavefront part res place => Sys2Proof.Machine.execHypWavefront part res place s
  | .hypResolutionComplete part res => Sys2Proof.Machine.execHypResolutionComplete part res s
  | .geoStageEnd wid sliver => Sys2Proof.Machine.execGeoStageEnd wid sliver s
  | .widleTimeout wid sliver => Sys2Proof.Machine.execWidleTimeout wid sliver s
  | .coreWake core => Sys2Proof.Machine.execCoreWake core s
  | .watchdogTimeout wid => Sys2Proof.Machine.execWatchdogTimeout wid s
  | .preemptRequest gid => Sys2Proof.Machine.execPreemptRequest gid s
  | .preemptSave gid => Sys2Proof.Machine.execPreemptSave gid s
  | .preemptWaitTimeout gid => Sys2Proof.Machine.execPreemptWaitTimeout gid s
  | .gangRestore gid places => Sys2Proof.Machine.execGangRestore gid places s
  | .launchAbandon lid => Sys2Proof.Machine.execLaunchAbandon lid s
  | .tailLineInvalidation part q => Sys2Proof.Machine.execTailLineInvalidation part q s
  | .packetNop part q => Sys2Proof.Machine.execPacketNop part q s
  | .packetLaunch part q => Sys2Proof.Machine.execPacketLaunch part q s
  | .packetFence part q => Sys2Proof.Machine.execPacketFence part q s
  | .fenceConditionMet part q => Sys2Proof.Machine.execFenceConditionMet part q s
  | .packetSignal part q => Sys2Proof.Machine.execPacketSignal part q s
  | .packetGraph part q => Sys2Proof.Machine.execPacketGraph part q s
  | .graphNodeStart part inst node => Sys2Proof.Machine.execGraphNodeStart part inst node s
  | .packetBias part q => Sys2Proof.Machine.execPacketBias part q s
  | .biasFlipComplete part q => Sys2Proof.Machine.execBiasFlipComplete part q s
  | .qctlAbort part q trusted => Sys2Proof.Machine.execQctlAbort part q trusted s
  | .qctlResume part q trusted => Sys2Proof.Machine.execQctlResume part q trusted s
  | .qctlEn part q en trusted => Sys2Proof.Machine.execQctlEn part q en trusted s
  | .queueHeadWrite part q v trusted => Sys2Proof.Machine.execQueueHeadWrite part q v trusted s
  | .slotFire part slot => Sys2Proof.Machine.execSlotFire part slot s
  | .ptpExchange skew adj => Sys2Proof.Machine.execPtpExchange skew adj s
  | .ptaddrWrite part v trusted => Sys2Proof.Machine.execPtaddrWrite part v trusted s
  | .ptdataWrite part first data trusted => Sys2Proof.Machine.execPtdataWrite part first data trusted s
  | .shootdownGo part v trusted => Sys2Proof.Machine.execShootdownGo part v trusted s
  | .shootdownComplete part id => Sys2Proof.Machine.execShootdownComplete part id s
  | .pageWalk part asid va kind => Sys2Proof.Machine.execPageWalk part asid va kind s
  | .fqctlWrite part v trusted => Sys2Proof.Machine.execFqctlWrite part v trusted s
  | .fqheadWrite part v trusted => Sys2Proof.Machine.execFqheadWrite part v trusted s
  | .wayMaskWrite part tile cls v trusted => Sys2Proof.Machine.execWayMaskWrite part tile cls v trusted s
  | .waySweepComplete part tile => Sys2Proof.Machine.execWaySweepComplete part tile s
  | .msixVectorUnmask part vec => Sys2Proof.Machine.execMsixVectorUnmask part vec s
  | .registerWrite fn bar off size v trusted => Sys2Proof.Machine.execRegisterWrite fn bar off size v trusted s
  | .lockInterface part stream => Sys2Proof.Machine.execLockInterface part stream s
  | .startInterface part => Sys2Proof.Machine.execStartInterface part s
  | .stopInterface part => Sys2Proof.Machine.execStopInterface part s
  | .tdispErrorEvent part => Sys2Proof.Machine.execTdispErrorEvent part s
  | .getVersion part => Sys2Proof.Machine.execGetVersion part s
  | .getCapabilities part => Sys2Proof.Machine.execGetCapabilities part s
  | .negotiateAlgorithms part => Sys2Proof.Machine.execNegotiateAlgorithms part s
  | .getDigests part => Sys2Proof.Machine.execGetDigests part s
  | .getCertificate part => Sys2Proof.Machine.execGetCertificate part s
  | .challenge part => Sys2Proof.Machine.execChallenge part s
  | .getMeasurements part index raw => Sys2Proof.Machine.execGetMeasurements part index raw s
  | .keyExchange part stream => Sys2Proof.Machine.execKeyExchange part stream s
  | .finish part => Sys2Proof.Machine.execFinish part s
  | .endSession part => Sys2Proof.Machine.execEndSession part s
  | .partCreate tiles => Sys2Proof.Machine.execPartCreate tiles s
  | .partGrow tiles => Sys2Proof.Machine.execPartGrow tiles s
  | .partMigrate spare => Sys2Proof.Machine.execPartMigrate spare s
  | .rtinj v => Sys2Proof.Machine.execRtinj v s
  | .softErrorSample errors => Sys2Proof.Machine.execSoftErrorSample errors s
  | .coreFailure core => Sys2Proof.Machine.execCoreFailure core s
  | .vaultBeatParityFail tile addr group fails lane => Sys2Proof.Machine.execVaultBeatParityFail tile addr group fails lane s
  | .flitCrcReplay tile port fails => Sys2Proof.Machine.execFlitCrcReplay tile port fails s
  | .packetResend id => Sys2Proof.Machine.execPacketResend id s
  | .sieveDrop id => Sys2Proof.Machine.execSieveDrop id s
  | .energyTick islandPower => Sys2Proof.Machine.execEnergyTick islandPower s
  | .islandStepDown island avg10 mod100 mod1 => Sys2Proof.Machine.execIslandStepDown island avg10 mod100 mod1 s
  | .islandStepUp island avg10 mod100 mod1 => Sys2Proof.Machine.execIslandStepUp island avg10 mod100 mod1 s
  | .moduleReset dead binding spares => Sys2Proof.Machine.execModuleReset dead binding spares s
  | .illegalInstr w => Sys2Proof.Machine.execIllegalInstr w s
  | .untrustedPrivateRead part bar off => Sys2Proof.Machine.execUntrustedPrivateRead part bar off s
  | .portWriteComplete part => Sys2Proof.Machine.execPortWriteComplete part s
  | .ptpMessageReceive off selected => Sys2Proof.Machine.execPtpMessageReceive off selected s
  | .loopEndOfBody => Sys2Proof.Machine.execLoopEndOfBody s
  | .clauseFetch => Sys2Proof.Machine.execClauseFetch s
  | .partDestroy => Sys2Proof.Machine.execPartDestroy s
  | .partShrink => Sys2Proof.Machine.execPartShrink s
  | .partCompact => Sys2Proof.Machine.execPartCompact s
  | .memGrant => Sys2Proof.Machine.execMemGrant s
  | .memReclaim => Sys2Proof.Machine.execMemReclaim s
  | .queueBind => Sys2Proof.Machine.execQueueBind s
  | .slotSet => Sys2Proof.Machine.execSlotSet s
  | .meterRead => Sys2Proof.Machine.execMeterRead s
  | .shapeReport => Sys2Proof.Machine.execShapeReport s
  | .sleepPrepare => Sys2Proof.Machine.execSleepPrepare s
  | .wake => Sys2Proof.Machine.execWake s
  | .routeRepair => Sys2Proof.Machine.execRouteRepair s
  | .allowanceWindowStart => Sys2Proof.Machine.execAllowanceWindowStart s
  | .unknownVerb => Sys2Proof.Machine.execUnknownVerb s
  | .grandmasterLost => Sys2Proof.Machine.execGrandmasterLost s

end Sys2Proof.Machine
end

