-- ==== Sys2Proof/Machine/Agenda.lean ====
section
/-! DEFINITION. How the chosen unit goes on, which unit is chosen, and which events of the module come next. The order of events that the spec leaves open is the order of the
list `agenda`, plain data of the state; what follows is one order that the machine takes when the list is empty (log
entry 2). An event that may not happen yet leaves the state as it is. -/
namespace Sys2Proof.Machine

/-! ### Events of one unit, warp or core that are due at a tick -/

/-- Rejoin holds that end (R29); whether a core forms mixed warps is open (R31). -/
def State.rejoinEvents (s : State) (wid : Nat) (w : Warp) : List Instr :=
  (if w.rejoinDue then [.rejoinRelease wid (Config.freeBool s.freeCtr)] else []) ++
  ((w.groups.filter (s.holdLate wid)).map fun g => .rejoinTimeout wid g.sliver)

/-- A predicate's unit has reached its split or its end (R309). -/
def State.geoDue (s : State) (wid k : Nat) : Bool :=
  let gs := (s.partGroups (s.partsOf { wid := wid, sliver := k })).map (·.2)
  let ends := (gs.map (·.bound)).eraseDups
  gs ≠ [] && (gs.all (·.st = .geo)) && ((gs.head?).map (·.since)).getD 0 + 12 ≤ s.warpTick wid &&
  (1 < ends.length || ends.headD 0 ≤ s.warpTick wid)

/-- Predicates of a warp that have reached their split or their end (R309, R403). -/
def State.geoEvents (s : State) (wid : Nat) (w : Warp) : List Instr :=
  (w.slivers.filter fun k => s.geoDue wid k).map fun k => .geoStageEnd wid k

/-- Events of a running warp that are due now. -/
def State.warpEvents (s : State) (wid : Nat) (w : Warp) : List Instr :=
  s.rejoinEvents wid w ++ s.geoEvents wid w ++
  (if s.watchdogDue wid then [.watchdogTimeout wid] else []) ++
  (if (s.timeoutUnit wid).isSome then [.faultTrapTimeout wid] else [])

/-- Swaps of a core that are due now (R41, R44). -/
def State.coreEvents (s : State) (core : Nat) : List Instr :=
  (match s.firstDep ((s.coreWarpIds core true).filter s.longDep), leastBy (s.readyPending core) with
    | some _, some _ => [.warpSwap core]
    | _, _ => []) ++
  match leastBy (s.readyPending core), s.longestActive core with
  | some (_, t), some _ => if t + 448 ≤ s.tickOf core then [.pendingWarpPromote core] else []
  | _, _ => []

/-- Events that are due before another instruction issues. -/
def State.prompt (s : State) : List Instr :=
  (s.warps.flatMap fun x => match (s.gang (s.block x.2.bid).gid).st with
    | .running => s.warpEvents x.1 x.2
    | .halted => s.geoEvents x.1 x.2
    | _ => []) ++
  s.coresUsed.flatMap s.coreEvents

/-! ### Events of memory, engines and hypotheses -/

/-- The next event of an access (R80, R92, R199, R207, R296, R437, R446). -/
def State.accEvents (s : State) (id : Nat) (a : Access) : List Instr :=
  if a.dropped.isSome then (if resendDue s.gtime a.dropped then [.packetResend id] else [])
  else if !(s.delivered a) && (a.st = .sent || a.st = .answered) then [.sieveDrop id]
  else match a.st with
    | .sent =>
      if a.kind.isLoad then [.loadAtHomeSlice id]
      else if a.kind.isRemote then [.gangRemoteArrival id]
      else if a.kind = .atom then [.atomicAtHomeSlice id]
      else if a.kind = .st && a.hyp.extractLsb' 0 8 ≠ 0 then [.versionWriteAtSlice id]
      else [.storeRegistration id]
    | .waiting t _ => if t + 65536 ≤ s.sliceTick a.part a.va then [.hypCapacityTimeout id] else [.versionWriteAtSlice id]
    | .atOwner _ => [.ownerForward id]
    | .answered => if a.kind = .st || a.kind = .stn || a.kind = .cwb then [.storeAcknowledge id] else [.loadReply id]
    | .faulted => [.faultRecordArrive id]
    | .failed _ => []

/-- The next events of an engine operation (R50, R250, R254, R257, R288). -/
def State.opEvents (s : State) (id : Nat) (o : EngineOp) : List Instr :=
  match o.st with
  | .reading => []
  | .issued => [.engOpStart id]
  | .running =>
    if o.dropped.isSome then (if resendDue s.gtime o.dropped then [.packetResend id] else [])
    else
      [.sieveDrop id, .accOpTurn id, .copyChunkLand id o.bid 4096] ++
      (o.targets.flatMap fun t => [.copyChunkLand id t.1 4096, .bcastTargetDone id t.1]) ++
      (if o.kind = 4 || o.kind = 5 then [.millPass o.tile false] else []) ++
      (match o.stalled with
        | some w => if w.since + 65536 ≤ s.sliceTick o.part w.va then [.hypCapacityTimeout id] else []
        | none => []) ++ [.engOpComplete id]
  | .landed | .failed => [.engOpComplete id]

/-- The next event of a hypothesis request (R264, R437, R446). -/
def State.hypEvents (s : State) (id : Nat) (r : HypReq) : List Instr :=
  if r.dropped.isSome then (if resendDue s.gtime r.dropped then [.packetResend id] else [])
  else if s.hypDelivered r then [.hypRequestAtHome id]
  else [.sieveDrop id]

/-- Wavefronts and completions of a partition's resolutions, and its shootdowns (R300, R387). -/
def Part.hypEvents (p : Nat) (P : Part) : List Instr :=
  ((P.res.filter fun r => !r.2.complete).flatMap fun r =>
    ((P.places.filter fun x => !(r.2.applied.contains x)).map fun x => .hypWavefront p r.1 x) ++
    [.hypResolutionComplete p r.1]) ++
  P.sds.map fun x => .shootdownComplete p x.1

/-! ### Events of gangs, queues, slots and Griermor -/

/-- The next event of a gang (R20, R374, R404, R409). -/
def State.gangEvents (s : State) (gid : Nat) (g : Gang) : List Instr :=
  match g.st with
  | .halted => [.preemptSave gid]
  | .waiting | .saved =>
    if !(s.itsTurn gid g) then []
    else match s.placeFor g with
      | some pl => if g.st = .waiting then [.gangPlace gid pl] else [.gangRestore gid pl]
      | none => [.preemptWaitTimeout gid]
  | _ => []

/-- The next events of a queue (R363 to R371, R389). -/
def Queue.events (p q : Nat) (Q : Queue) : List Instr :=
  (if Q.flip.isSome || Q.owed.isSome then [.biasFlipComplete p q] else []) ++
  (if !Q.en then []
   else if Q.st = 1 then
    (if Q.covered = 0 then [.tailLineInvalidation p q]
     else [.packetNop p q, .packetLaunch p q, .packetFence p q, .packetSignal p q, .packetGraph p q, .packetBias p q,
           .tailLineInvalidation p q])
   else if Q.st = 2 then
    (if Q.conds ≠ [] then [.fenceConditionMet p q] else if Q.drain.isSome then [.packetSignal p q]
     else if Q.wait = 3 then [.packetGraph p q] else [])
   else [])

/-- Slots of a partition whose time has come, with the launches that they may have to end (R375), or that hold a firing that
nothing but a stall held (R100). -/
def Part.slotEvents (p now : Nat) (P : Part) : List Instr :=
  (P.slots.filter fun x => x.2.set && (x.2.next.any (· ≤ now) || (x.2.cur.isNone && x.2.hold.isSome))).flatMap fun x =>
    (match x.2.cur with
      | some lid => if 2 ≤ x.2.policy then [.launchAbandon lid] else []
      | none => []) ++ [.slotFire p x.1]

/-- Nodes of a partition's instances that may start (R371). -/
def Part.nodeEvents (p : Nat) (P : Part) : List Instr :=
  P.insts.flatMap fun i => ((List.range i.2.nodes.length).filter i.2.free).map fun n => .graphNodeStart p i.1 n

/-- Events of a partition. -/
def State.partEvents (s : State) (p : Nat) (P : Part) : List Instr :=
  P.hypEvents p ++ (P.queues.flatMap fun q => q.2.events p q.1) ++ P.slotEvents p s.gtime ++ P.nodeEvents p ++
  (if P.b2.ptpend.isSome then [.portWriteComplete p] else []) ++
  (P.tiles.zipIdx.filter fun t => (s.wafer.sweep.find t.1).isSome).map fun t => .waySweepComplete p t.2

/-- The verb that runs goes on (R451). -/
def State.verbEvents (s : State) : List Instr :=
  if !s.grm.ybusy then []
  else match field s.grm.yrun 0 2 with
    | 3 => [.partGrow []]
    | 4 => [.partShrink]
    | 5 => [.partCompact]
    | 6 => [.partMigrate 0]
    | 13 => [.sleepPrepare]
    | _ => []

/-- Static power of the islands as measured: open (R456). -/
def State.measured (s : State) : List Nat := (List.range 100).map fun i => Config.freeNat (s.freeCtr + i) % 300

/-- Griermor's own events (R439, R448, R456, R457). -/
def State.griermorEvents (s : State) : List Instr :=
  (if s.grm.lastMs < s.gtime / 1000000 then [.energyTick s.measured] else []) ++
  (if s.grm.lastSec < s.gtime / 1000000000 then [.allowanceWindowStart] else []) ++
  (if s.grm.lastSample < s.gtime / 1000000 || s.parts.any fun x => x.2.jobs ≠ [] then [.softErrorSample []] else []) ++
  (if s.grm.repairs ≠ [] then [.routeRepair] else []) ++ s.verbEvents

/-- A sleeping core with a cause to wake (R278). -/
def State.wakeEvents (s : State) : List Instr :=
  (s.cores.filter fun c => c.2.asleep && s.warps.any fun w => w.2.core = c.1 && (w.2.latch ≠ 0 || w.2.groups.any (s.wakes c.1))).map
    fun c => .coreWake c.1

/-- Waits of WIDLE that are over (R278). -/
def State.widleEvents (s : State) : List Instr :=
  (s.warps.filter fun x => s.mayIssue x.2).flatMap fun x =>
    (x.2.slivers.filter fun k => s.widleOver (s.unitAt { wid := x.1, sliver := k })).map fun k => .widleTimeout x.1 k

/-- Everything that may happen next. -/
def State.due (s : State) : List Instr :=
  (s.accs.flatMap fun a => s.accEvents a.1 a.2) ++ (s.ops.flatMap fun o => s.opEvents o.1 o.2) ++
  (s.hreqs.flatMap fun r => s.hypEvents r.1 r.2) ++ (s.parts.flatMap fun p => s.partEvents p.1 p.2) ++
  ((s.blocks.filter fun b => !b.2.retired).map fun b => .blockRetire b.1) ++
  (s.gangs.flatMap fun g => s.gangEvents g.1 g.2) ++ s.griermorEvents ++ s.wakeEvents ++ s.widleEvents

/-! ### The chosen unit goes on -/

/-- The header's waits of a unit at its clause's first instruction are met, or none is left (R138). -/
def State.headerMet (s : State) (u : IssueUnit) : Bool :=
  !u.waits || s.waitMet (s.trapMode u) (u.mem.map (·.1)) (headerBounds u.hw)

/-- The unit's instruction issues, its header's waits behind it. -/
def State.passWaits (s : State) (u : IssueUnit) : State := s.setSt u fun g => { g with waits := false, st := .running }

/-- The unit was found not ready, and nothing of its warps' groups has changed. -/
def State.heldBack (s : State) (u : IssueUnit) : StepOut → Bool
  | .next t => t.tried.contains s.focus && u.mem.all fun p => decide ((t.warp p.1).groups = (s.warp p.1).groups)
  | _ => false

/-- The unit's next instruction, or the trap of its fetch: while the header's waits are not met it is held as soon as it is
ready otherwise (R138, R333). A word fetched again from a page whose bias flips waits (R100). -/
def State.issueNext (s : State) (u : IssueUnit) : StepOut :=
  let flips (a : DWord) : Bool := u.mem.any fun m => s.flipping (s.partOf m.1) (s.asidOf m.1) a
  if u.code = [] && (flips u.pc || flips (u.pc + 4)) then .next s.stall else
  let go (s : State) : StepOut := match s.nextInstr u with
    | .error e => .next (s.fetchTrap u e.1 e.2)
    | .ok i => exec i s
  if !u.waits then go s
  else
    let s' := s.passWaits u
    let r := go s'
    if s'.heldBack u r then .next s.stall
    else if s.headerMet u then r
    else .next (s.waitUnmet u (s.trapMode u) (u.mem.map (·.1)) (headerBounds u.hw))

/-- A part of the unit is to be parked before its next instruction (R398, R400). -/
def State.parkDue (s : State) (u : IssueUnit) : Bool := (s.partGroups u.mem).any fun g => g.2.parkNext.isSome

/-- Its parts are parked; a second part that the same time-out parks leaves the registers as they are. -/
def State.parkUnit (s : State) (u : IssueUnit) : State :=
  u.mem.foldl (fun s p =>
    match ((s.warp p.1).running p.2).findSome? (·.parkNext) with
    | some (d, n) =>
      let again := d = 1 && (s.warp p.1).wdogPark
      let s := s.onSliver p.1 p.2 fun g => { g with parkNext := none, st := .parked, skip := 0, since := s.warpTick p.1 }
      if again then s else s.watchdogPark p.1 p.2 d n 0
    | none => s) s

/-- A unit stands at an instruction: not at a header, an end of a body, a due trap or a due park. -/
def State.stands (s : State) (u : IssueUnit) : Bool :=
  !(s.parkDue u) && !(s.bodyDue u) && !(s.listDue u) && u.pc ≠ u.hdr

/-- The chosen unit goes on: a due park (R398), the end of a loop body (R36), a due trap (R399), the fetch of its clause (R140) or its next
instruction. -/
def State.goOn (s : State) : StepOut :=
  let u := s.unit
  if s.parkDue u then .next (s.parkUnit u)
  else if s.bodyDue u then exec .loopEndOfBody s
  else if s.listDue u then .next (s.takeRecorded u)
  else if u.pc = u.hdr then exec .clauseFetch s
  else s.issueNext u

/-! ### Readiness (R41, R42) -/

/-- A unit at an instruction could issue it now. -/
def State.isReady (s : State) (f : Focus) : Bool :=
  match { s with focus := f, tried := [] }.goOn with
  | .next t => !(t.tried.contains f)
  | _ => true

/-- A unit of a pending warp could issue, through at most n headers and ends of bodies. -/
def State.couldIssue (s : State) (f : Focus) : Nat → Bool
  | 0 => false
  | n + 1 =>
    if (s.partGroups (s.partsOf f)).any fun g => !(g.2.st.mayRun) then false
    else if s.stands (s.unitAt f) then s.isReady f
    else match { s with focus := f, tried := [] }.goOn with
      | .next t => t.couldIssue f n
      | _ => true

/-- Since when the pending warps of cores that run are ready (R41, R44). -/
def State.stampPending (s : State) : State :=
  { s with warps := s.warps.map fun (x : Nat × Warp) =>
      (x.1, if x.2.inActive || !(s.onRun x.2) then x.2
        else { x.2 with
          pendReady := if (s.unitsOf x.1 x.2).any fun f => s.couldIssue f 4 then some (x.2.pendReady.getD (s.tickOf x.2.core))
            else none }) }

/-- A warp meets a long-latency dependence at the end of a tick: every unit of it was found not ready, and one waits in a
barrier or was blocked in this tick (R41). -/
def State.depAt (s : State) (wid : Nat) (w : Warp) : Option Nat :=
  if !((s.unitsOf wid w).all s.tried.contains) then none
  else if w.groups.any fun g => g.pos = 0 && g.inBar then some (w.depSince.getD (s.tickOf w.core))
  else w.depSince

/-- The dependences of the active warps at the end of a tick (R41). -/
def State.stampDeps (s : State) : State :=
  { s with warps := s.warps.map fun (x : Nat × Warp) => (x.1, if x.2.inActive then { x.2 with depSince := s.depAt x.1 x.2 } else x.2) }

/-! ### Ticks -/

/-- States in which a unit is blocked (R278). -/
def GroupSt.isBlocked : GroupSt → Bool
  | .blocked | .waiting | .widle | .atBar | .atGbar => true
  | _ => false

/-- Every resident warp of a core is blocked, so the core may sleep (R278). -/
def State.maySleep (s : State) (core : Nat) : Bool :=
  !(s.coreRegs core).asleep &&
  (s.warps.filter fun w => w.2.core = core).all fun w => w.2.latch = 0 && w.2.groups.all fun g => g.st.isBlocked

/-- Cores may go to sleep. -/
def State.sleepers (s : State) : State :=
  if Config.freeBool s.freeCtr then
    (s.coresUsed.filter s.maySleep).foldl (fun s c => s.onCore c fun r => { r with asleep := true }) s
  else s

/-- A list from its n-th place on, then what stood before. -/
def rotate {α : Type} (n : Nat) (l : List α) : List α := l.drop n ++ l.take n

/-- A tick begins: the active sets are brought within their bounds, and each core whose clock runs has a turn (R2, R40, R42).
The order of the cores within a tick is open. -/
def State.beginTick (s : State) : State :=
  let s := { s.tickOn with landing := false, chosen := false, issued := false, tried := [], ready := [] }
  let s := (s.coresUsed.foldl (fun s c => s.balance c 8) s).stampPending
  let cores := s.coresUsed.filter s.runs
  { s with
    freeCtr := s.freeCtr + 1
    turns := (rotate (Config.freeNat s.freeCtr % (cores.length + 1)) cores).map fun c => { core := c } }

/-- A tick ends: what happens at it lands before the next one (R62). The events of other parts of the module have their turn
in ticks in which no unit issued, and in every sixteenth tick (log entry 2). -/
def State.endTick (s : State) : State :=
  let s := s.stampDeps
  let s := if s.issued then s else s.sleepers.countOver
  { s with
    landing := true, chosen := false, turns := [], freeCtr := s.freeCtr + 1
    agenda := s.prompt ++ if s.issued && s.tick % 16 ≠ 0 then [] else s.due }

/-! ### The next choice -/

/-- A unit found ready, with the tick since which it is (R42). -/
def State.markReady (s : State) (f : Focus) : State :=
  { s.onWarp f.wid fun w => { w with readySince := w.readySince.put f.sliver ((w.readySince.find f.sliver).getD (s.tickOf w.core)) }
    with ready := f :: s.ready }

/-- Units of a core not looked at in this tick. -/
def State.unseen (s : State) (core : Nat) : List Focus :=
  s.cands.filter fun f => (s.warp f.wid).core = core && !(s.tried.contains f) && !(s.ready.contains f)

/-- A unit goes on next. -/
def State.choose (s : State) (f : Focus) : State := { s with focus := f, chosen := true }

/-- The units of a core are looked at: those that are ready are marked, and the first that is not, or that has still to come to
its instruction, goes on. -/
def State.lookAll (s : State) : List Focus → State × Bool
  | [] => (s, false)
  | f :: fs =>
    if s.stands (s.unitAt f) && s.isReady f then (s.markReady f).lookAll fs else (s.choose f, true)

/-- The choice of a core's turn (R42, R43): the units are looked at first, then the best ready one issues; the turn ends when
none is left. -/
def State.takeTurn (s : State) (t : Turn) (ts : List Turn) : State :=
  let r := if t.quads.isNone then s.lookAll (s.unseen t.core) else (s, false)
  if r.2 then r.1
  else
    match r.1.pickIn t with
    | some f => (r.1.onCore t.core fun c => { c with yielded := [] }).choose f
    | none => { r.1 with turns := ts }

/-- The next choice: a tick begins, a core takes its turn, or the tick ends. -/
def State.resched (s : State) : State :=
  if s.landing then s.beginTick
  else match s.turns with
    | t :: ts => { s with chosen := false }.takeTurn t ts
    | [] => s.endTick

/-- The turn that a unit has issued in: a second unit may issue beside a first of class ALU without S (R43). -/
def State.useTurn (s : State) (u : IssueUnit) (quads : List Nat) : List Turn :=
  match s.turns with
  | t :: ts => if t.quads.isNone && coIssues u.hw then { t with quads := some quads } :: ts else ts
  | [] => []

/-- After a unit's instruction: it was found not ready, or it has issued and its core's turn is used. -/
def State.afterIssue (s : State) (u : IssueUnit) (f : Focus) (quads : List Nat) : State :=
  let s := { s.onWarp f.wid fun w => { w with readySince := w.readySince.del f.sliver } with
    chosen := false, ready := s.ready.filter (· ≠ f) }
  if s.tried.contains f then s
  else { (s.onWarp f.wid fun w => { w with lastSliver := f.sliver }).firstIssue f.wid with
    issued := true, turns := s.useTurn u quads }

/-- The step of the chosen unit: it goes on, and what comes next is chosen anew. -/
def State.runFocus (s : State) : StepOut :=
  let u := s.unit
  onNext s.goOn fun t => if s.stands u then t.afterIssue u s.focus (s.quadsAt s.focus) else { t with chosen := false }

/-- After an event: a tick passes before another unit issues (R62). -/
def State.eventDone (s : State) : State := { s with landing := true, chosen := false, turns := [] }

end Sys2Proof.Machine
end

