-- ==== Sys2Proof/Machine/Boot.lean ====
section
/-! DEFINITION. A machine in which one instruction of one warp issues next: what partition creation, memory grants, the page
tables, the home map and a placed launch leave when a program has been loaded from outside (log entry 34). -/
namespace Sys2Proof.Machine

/-- The clause's header: one clause of the instruction's words and class, with no waits (R137, R138). -/
def bootHeader (w0 : Word) : Word :=
  BitVec.ofNat 32 (0xF003FFC0 + wordCount w0 * 2 ^ 24 + opGroup w0 * 2 ^ 21)

/-- Bytes of partition memory before the launch: the level-2 table at PPA 0x10000 names the level-1 table at 0x20000, whose
first entry maps 256 MiB from VA 0 to PPA 0x1000_0000 (R382); the clause stands at VA 0x1000. -/
def bootMemory (w0 w1 : Word) (m : Memory) : Memory :=
  let m := Memory.wrN m 0x10000 (natLe 8 0x20001)
  let m := Memory.wrN m 0x20000 (natLe 8 0x10000C1F)
  Memory.wrN m 0x10001000 (natLe 4 (bootHeader w0).toNat ++ natLe 4 w0.toNat ++ natLe 4 w1.toNat)

/-- The partition: logical tile 0, ASID 0 with its root table, the home map's first entry (R381, R388). -/
def bootPart (P : Part) : Part :=
  { P with
    tiles := [0]
    b2 := { P.b2 with asids := P.b2.asids.put 0 0x10001, homes := P.b2.homes.put 0 0x8000 }
    frames := [(0, 0x20000000)] }

/-- The kernel: one block of one warp (R14, R348). -/
def bootDesc : KDesc := { entry := 0x1000, roles := [{ code := 0, warps := 1, regs := 64 }] }

/-- The warp: its first quad runs as a sliver of its own inside the clause, past its header. -/
def bootWarp (w0 : Word) (bid age : Nat) : Warp :=
  let w := startWarp bootDesc bid 0 0 age
  { w with
    inActive := true
    exited := 0xFFFFFFF0
    groups := [{ quad := 0, lanes := 0xF, pc := 0x1004, hdr := 0x1000, hw := bootHeader w0 }] }

/-- The state with an instruction's two words where the next step fetches them. -/
def State.boot (s : State) (w0 w1 : Word) : State :=
  let n := s.nextId
  let P := bootPart (s.parts.getD 0 { tiles := [0], key := s.grm.keySerial })
  let l : Launch := { part := 0, serial := 1, asid := 0, prio := 0, params := 0xFFFFFFFF0000, pmem := 0, gangs := 1, started := 1,
                      desc := bootDesc, src := .queue 0 }
  { s with
    agenda := []
    focus := { wid := n + 3, sliver := 0 }
    chosen := true
    tried := []
    ready := []
    turns := [{ core := 0 }]
    landing := false
    nextId := n + 4
    parts := s.parts.put 0 P
    wafer := { s.wafer with tile := s.wafer.tile.put 0 (.assigned 0) }
    vault := bootMemory w0 w1 s.vault
    launches := s.launches.put n l
    gangs := s.gangs.put (n + 1) { lid := n, idx := 0, st := .running, bids := [n + 2] }
    blocks := s.blocks.put (n + 2) (startBlock bootDesc (n + 1) 0 (n + 3) (0, 0))
    warps := s.warps.put (n + 3) (bootWarp w0 (n + 2) n) }

end Sys2Proof.Machine
end

