-- ==== Sys2Proof/Machine/Step.lean ====
section
/-! DEFINITION. The step: the next event of the agenda, else the chosen unit goes on, else the next choice is made. -/
namespace Sys2Proof.Machine

/-- One step of the module. -/
def step (s : State) : StepOut :=
  match s.agenda with
  | e :: rest => onNext (exec e { s with agenda := rest }) State.eventDone
  | [] => if s.canIssue s.focus then s.runFocus else .next s.resched

/-- An instruction whose bits are w, stored in the clause that the chosen unit is in (log entry 34): the first word is bits
31..0, the extension word bits 63..32, and every bit from nbits up is zero. -/
def State.withFetchWord (s : State) (nbits w : Nat) : State :=
  s.boot (BitVec.ofNat 32 (w % 2 ^ nbits)) (BitVec.ofNat 32 (w % 2 ^ nbits / 2 ^ 32))

end Sys2Proof.Machine
end

