-- ==== Sys2Proof/Machine/Image.lean ====
section
/-! DEFINITION. The bytes of saved images (R406 to R408): what Griermor writes to the reserved frames of the partition's own
vaults, as a view of the state. Where those frames lie the spec does not say, and no program reads them (log entry 72). -/
namespace Sys2Proof.Machine

/-- A run brought to a length: zeros follow it (R407: every byte not named is zero). -/
def fit (n : Nat) (l : List Byte) : List Byte := (l ++ List.replicate n 0).take n

/-- Tags as nibbles, two in a byte, the first low. -/
def nibbles : List (BitVec 4) → List Byte
  | a :: b :: l => (b ++ a) :: nibbles l
  | [a] => [a.zeroExtend 8]
  | [] => []

/-- The kind of a record (R399). -/
def AccKind.recCode : AccKind → Nat
  | .st => 1
  | .atom => 2
  | .ldu => 3
  | .ldt => 4
  | .cwb => 5
  | _ => 0

/-- The 32 bytes of a faulting lane (R399). -/
def FaultLane.bytes (l : FaultLane) : List Byte := fit 32 (natLe 8 l.addr.toNat ++ fit 16 l.data)

/-- The 1,088 bytes of a record (R399). -/
def FaultRec.bytes (r : FaultRec) : List Byte :=
  let lane (i : Nat) : List Byte := match r.each.find? (·.lane = i) with
    | some l => l.bytes
    | none => fit 32 []
  fit 64 (natLe 4 (r.cause + 2 ^ 9 * r.m4.toNat + 2 ^ 13 * r.kind.recCode + if r.ordered then 2 ^ 16 else 0) ++
    natLe 4 r.lanes.toNat ++ natLe 8 r.pc.toNat ++ natLe 8 r.hdr.toNat ++ natLe 2 r.hyp.toNat ++ natLe 1 r.dest.toNat ++
    natLe 1 0 ++ natLe 4 r.xw.toNat ++ natLe 8 (r.fqseq.getD (2 ^ 64 - 1))) ++
  fit 1024 ((List.range 32).flatMap lane)

/-- The state of a group (R408). -/
def Warp.groupCode (w : Warp) (g : Group) : Nat :=
  match g.st with
  | .held => 2
  | .atBar | .atGbar => 3
  | .widle => 4
  | .parked => 6
  | .heldTrap => 7
  | _ => if g.pos ≠ 0 then 1 else if w.trapGroup g then 5 else 0

/-- The sliver of a group as its image numbers it: equal for the running groups of one sliver alone (R408). -/
def Warp.sliverNo (w : Warp) (g : Group) : Nat :=
  if g.pos = 0 then w.slivers.idxOf g.sliver else 8 + w.groups.idxOf g

/-- The 32 bytes of a lane group (R408). -/
def Warp.groupBytes (w : Warp) (g : Group) : List Byte :=
  fit 32 (natLe 8 g.pc.toNat ++ natLe 8 g.hdr.toNat ++ natLe 4 g.lanes.toNat ++ natLe 1 g.depth ++ natLe 1 (w.groupCode g) ++
    natLe 1 g.pos ++ natLe 1 (w.sliverNo g) ++ natLe 4 (if g.inBar then g.gen else 0))

/-- A loop frame (R407). -/
def Frame.bytes (f : Frame) : List Byte :=
  fit 16 (natLe 8 f.start.toNat ++ natLe 1 f.len ++ natLe 1 f.depth ++ natLe 1 (if f.active = 0 then 0 else 1))

/-- Flags of a warp image: trap mode, orphaned, parked, WATCHDOG park, resume pending (R407). -/
def Warp.imageFlags (w : Warp) : Nat :=
  (if w.trapSet = 0 then 0 else 1) + (if w.orphan then 2 else 0) + (if w.groups.any (·.st = .parked) then 4 else 0) +
  (if w.wdogPark then 8 else 0) + if w.resume then 16 else 0

/-- Registers of a file, then their tags (R407). -/
def regsThenTags (l : List Reg) : List Byte := (l.flatMap fun r => natLe 4 r.val.toNat) ++ nibbles (l.map (·.tag))

/-- The 40 bytes of a lane (R407). -/
def Warp.laneBytes (w : Warp) (lane : Nat) : List Byte :=
  let depth := ((w.groups.find? fun g => g.lanes.getLsbD lane).map (·.depth)).getD 0
  fit 40 (natLe 2 (w.p.getD lane 0).toNat ++ natLe 2 0 ++ ((List.range 4).flatMap fun i => natLe 4 (w.ix.getD (4 * lane + i) 0).toNat) ++
    ((List.range 3).flatMap fun i => natLe 4 (w.lc.getD (4 * lane + i) 0).toNat) ++ natLe 4 (w.sp.getD lane 0).toNat ++ natLe 1 depth)

/-- The image of a warp (R407), of the block with a rank. -/
def Warp.image (w : Warp) (rank : Nat) : List Byte :=
  let vreg (n lane : Nat) : Reg := w.v.getD (512 * lane + n) {}
  fit 0x40 (natLe 2 1 ++ natLe 1 w.groups.length ++ natLe 1 w.faults.length ++ natLe 2 w.budget ++ natLe 1 w.role ++
    natLe 1 w.imageFlags ++ natLe 4 w.ovc.toNat ++ natLe 4 w.nvc.toNat ++ natLe 4 w.fpcr.toNat ++ natLe 4 w.fpsr.toNat ++
    natLe 4 w.hyp.toNat ++ natLe 4 (w.idx + 2 ^ 4 * rank) ++ natLe 32 w.anc.toNat) ++
  fit 0x40 (natLe 4 w.tcause.toNat ++ natLe 4 w.tmask.toNat ++ natLe 4 w.tstat.toNat ++ natLe 4 0 ++ natLe 8 w.tpc.toNat ++
    natLe 8 w.tval.toNat ++ natLe 8 w.trec.toNat ++ natLe 1 w.latch.toNat) ++
  fit 0x80 ((List.range 3).flatMap fun l => (w.frames.getD l {}).bytes) ++
  fit 0xC0 ((w.ka.getD 0 {}).image ++ (w.ka.getD 1 {}).image) ++
  fit 0x120 (regsThenTags ((List.range 64).map fun n => w.w.getD n {})) ++
  fit 0x120 (regsThenTags ((List.range 8).map fun n => w.k.getD n {})) ++
  fit 0x400 (w.groups.flatMap w.groupBytes) ++
  fit 0x800 ((List.range 32).flatMap w.laneBytes) ++
  fit 0x2200 (w.faults.flatMap FaultRec.bytes) ++
  fit (128 * w.budget) ((List.range w.budget).flatMap fun n => (List.range 32).flatMap fun l => natLe 4 (vreg n l).val.toNat) ++
  fit (16 * w.budget) ((List.range w.budget).flatMap fun n => nibbles ((List.range 32).map fun l => (vreg n l).tag))

/-- A continuation: the operation's record under PREEMPT detail 0 (R404, R406); a CPYR's with the `info` and image that its own
record holds (R258). -/
def EngineOp.continuation (o : EngineOp) (rank : Nat) : List Byte :=
  fit 160 ({ o with cause := cz 0x38 0, addr := 0, info := 0 }.record rank (natLe 8 o.info.toNat ++ o.image))

/-- A lid of a block image (R406). -/
def BlockImage.lidBytes (im : BlockImage) (l : Lid) : List Byte :=
  let tag := ((im.conts.find l.op).map (·.tag)).getD 0
  fit 32 (natLe 8 l.lo ++ natLe 8 l.hi ++
    natLe 2 ((if l.dest then 1 else 0) + (if l.glob then 2 else 0) + 256 * tag))

/-- A run brought to the next 1 KiB boundary (R406). -/
def toKib (l : List Byte) : List Byte := fit ((l.length + 1023) / 1024 * 1024) l

/-- The image of a block of a saved gang (R406): the header, the accumulator rows and their subtile tags, the allotment, and
the warps in `%warp` order. -/
def BlockImage.bytes (im : BlockImage) (b : Block) : List Byte :=
  let head := fit 64 (natLe 2 1 ++ natLe 2 b.wids.length ++ natLe 4 b.zsize ++ natLe 2 b.acclen ++ natLe 2 im.lids.length ++
      natLe 2 im.conts.length ++ natLe 2 0 ++ natLe 8 im.busy.toNat ++ natLe 8 im.fail.toNat) ++
    fit 0x400 (im.lids.flatMap im.lidBytes) ++ im.conts.flatMap fun o => o.2.continuation b.rank
  let rows := (List.range (512 * b.acclen)).flatMap fun k => natLe 4 (im.acc.getD k 0).toNat
  let tags := (List.range (b.acclen / 64 * 8)).map fun k => (im.accTag.getD k 3).zeroExtend 8
  let warps := b.wids.map fun wid => match im.warps.find wid with
    | some w => toKib (w.image b.rank)
    | none => []
  toKib head ++ toKib rows ++ toKib tags ++ toKib (Memory.rdN b.scratch 0 b.zsize) ++ warps.flatten

end Sys2Proof.Machine
end

