-- ==== Sys2Proof/Safety.lean ====
section
/-! DEFINITION. What counts as a safe run, in the terms the statements use: a step that goes on, and the facts about the
module's state that every step keeps. -/
namespace Sys2Proof.Machine

/-- The step answers a next state. -/
def StepGoesOn (s : State) : Prop := ∃ t, step s = .next t

/-- A run of n steps meets no fault and no refusal. -/
def RunGoesOn : Nat → State → Prop
  | 0, _ => True
  | n + 1, s => ∃ t, step s = .next t ∧ RunGoesOn n t

/-- Each of the module's memories is in its canonical form (log entry 6). -/
def State.memoriesOk (s : State) : Prop :=
  Memory.wf s.vault = true ∧ Memory.wf s.hostMem = true ∧ Memory.wf s.peerMem = true ∧ Memory.wf s.paramMem = true

/-- The bound of the module's time error is at most 4 µs (R377, R461). -/
def State.skewOk (s : State) : Prop := s.gtskew ≤ 4000

/-- What every step keeps. -/
def State.Sound (s : State) : Prop := s.memoriesOk ∧ s.skewOk

/-! ### Where a thread stands -/

/-- A thread stands at a place: a group of its warp holds its lane there (R25). -/
def State.At (s : State) (th : Th) (tg : Tgt) : Prop :=
  ∃ g ∈ (s.warp th.wid).groups, g.lanes.getLsbD th.lane = true ∧ g.pc = tg.pc ∧ g.hdr = tg.hdr ∧ g.depth = tg.depth

/-! ### What an instruction leaves as it was -/

/-- Two names of registers name one register: a vector register belongs to its lane, a uniform or trap-scratch register to
its home warp (R52, R58, R59). -/
def SameReg (t : Th) (r : DReg) (u : Th) (q : DReg) : Prop :=
  t.wid = u.wid ∧ match r, q with
    | .v n, .v m => t.lane = u.lane ∧ n = m
    | .w n, .w m => n = m
    | .k n, .k m => n = m
    | _, _ => False

/-- A register number that an operand can name (R52, R53). -/
def DReg.small : DReg → Prop
  | .v n => n < 512
  | _ => True

/-- A warp without its groups, which move as the program counter does. -/
def Warp.still (w : Warp) : Warp := { w with groups := [], nextSliver := 0, depSince := none }

/-- A warp without its groups, registers, predicates and the counts and flags of R66 and R120. -/
def Warp.frozen (w : Warp) : Warp :=
  { w.still with v := [], w := [], k := [], p := [], ovc := 0, nvc := 0, fpsr := 0 }

/-- The state without its warps, the units formed of them, and the partitions' meters. -/
def State.frozen (s : State) : State := { s with warps := [], mixed := [], tried := [], parts := [], upsets := [] }

/-- A partition without its meters (R454). -/
def Part.frozen (P : Part) : Part := { P with meters := [] }

/-- Nothing has changed but warps and meters; in particular no byte of memory, no access in flight, no cache line, no
engine operation, no queue and no log. -/
structure OnlyWarps (s t : State) : Prop where
  rest : t.frozen = s.frozen
  parts : ∀ p, (t.parts.find p).map Part.frozen = (s.parts.find p).map Part.frozen
  upsets : ∀ u ∈ s.upsets, (∀ w l n, u ≠ .register w l n) → u ∈ t.upsets

/-- Nothing of a warp has changed but what a register form may write: registers, predicates, `%ovc`, `%nvc` and `%fpsr`. -/
def RestOfWarps (s t : State) : Prop := ∀ wid, (t.warps.find wid).map Warp.frozen = (s.warps.find wid).map Warp.frozen

/-- The registers of some threads, named by an operand code and their count, are the only ones that have changed. -/
def RegsKept (s t : State) (c : Ctx) (act : List Th) (code : BitVec 6) (n : Nat) : Prop :=
  ∀ th r, DReg.small r → (∀ u ∈ act, ∀ j < n, ¬ SameReg u ((s.dreg c u code).plus j) th r) → t.getReg th r = s.getReg th r

/-- The predicates that results name are the only ones that have changed. -/
def PredsKept (s t : State) (act : List Th) (out : Th → Out) : Prop :=
  ∀ th n, (∀ u ∈ act, u = th → n ∉ (out u).preds.map (·.1)) → t.pred th n = s.pred th n

/-- What delivering the results of some threads adds to a home warp (R66, R120). -/
def fxOfWarp (act : List Th) (out : Th → Out) (wid : Nat) : Effects :=
  joinAll ((act.filter fun t => t.wid = wid).map fun t => (out t).fx)

/-- The counts and flags of each home warp grow by what the results add, and only by that (R66, R120). -/
def FlagsGrow (s t : State) (act : List Th) (out : Th → Out) : Prop :=
  ∀ wid, (t.warp wid).ovc = satAdd (s.warp wid).ovc (fxOfWarp act out wid).ov ∧
    (t.warp wid).nvc = satAdd (s.warp wid).nvc (fxOfWarp act out wid).nv ∧
    (t.warp wid).fpsr = (s.warp wid).fpsr ||| (fxOfWarp act out wid).flags.zeroExtend 32

/-- An instruction has computed: each active thread's destination holds its result (R152), a uniform destination that of
each home warp's lowest active lane (R153), the predicates hold theirs, the counts and flags grow, every thread of the unit
goes on with the next word (R224), and nothing else changes. -/
structure Computes (s t : State) (c : Ctx) (act : List Th) (code : BitVec 6) (n : Nat) (out : Th → Out) : Prop where
  regs : ∀ th ∈ act, (sharedDst code = true → leads act th = true) → s.dreg c th code ≠ .discard →
    ∀ j r, (out th).regs[j]? = some r → t.getReg th ((s.dreg c th code).plus j) = r
  preds : ∀ th ∈ act, ∀ p ∈ (out th).preds, t.pred th p.1 = p.2
  flags : FlagsGrow s t act out
  moved : ∀ th ∈ c.u.th, t.At th (fallThrough c.u c.len)
  regsKept : RegsKept s t c act code n
  predsKept : PredsKept s t act out
  warpsKept : RestOfWarps s t
  rest : OnlyWarps s t

/-- What a compare gives each thread: the active ones combine, the others are cleared by `.unc` (R152, R167). -/
def cmpOuts (d : BitVec 6) (act : List Th) (sem : Th → Out) (t : Th) : Out :=
  if act.contains t then sem t else { preds := [(2 * cmpPair d, false), (2 * cmpPair d + 1, false)] }

/-- An instruction whose checks pass (R150) for its active threads answers a next state of which `post` holds. -/
def Completes (i : Instr) (k : Checks) (post : State → Ctx → List Th → State → Prop) : Prop :=
  ∀ s act, s.gate (s.ctx i) k = .go act → ∃ t, exec i s = .next t ∧ post s (s.ctx i) act t

/-- An instruction that gives each active thread what `sem` makes of its operands, in the registers that `code` names. -/
def Gives (i : Instr) (k : Checks) (code : BitVec 6) (n : Nat) (sem : Vals → Out) : Prop :=
  Completes i k fun s c act t => Computes s t c act code n fun th => sem (s.vals c k th)

/-- An instruction that gives each active thread what `sem` makes of it and of the whole set of active threads. -/
def GivesAll (i : Instr) (k : Checks) (code : BitVec 6) (n : Nat) (sem : State → Ctx → List Th → Th → Out) : Prop :=
  Completes i k fun s c act t => Computes s t c act code n (sem s c act)

/-- A compare: the active threads combine their result with the pair, and `.unc` clears the pair of the others. -/
def GivesPair (i : Instr) (d : BitVec 6) (k : Checks) (sem : Vals → Out) : Prop :=
  Completes i { k with unc := cmpType d = 1 } fun s c act t =>
    Computes s t c (if cmpType d = 1 then act ++ c.u.th.filter (fun u => !(act.contains u)) else act) 52 0
      (cmpOuts d act fun u => sem (s.vals c k u))

/-! ### Frames of the other instructions -/

/-- What a statement's frame lets change: of each warp, partition, block, gang, launch, operation and core what its map
forgets, of each access what `acc` does not keep, accesses and operations under the numbers `newId`, warps, blocks, gangs and
launches under the numbers `newPlace`, of the rest what `rest` forgets, and the pending errors that `upset` names. -/
structure MayChange where
  warp : Warp → Warp := id
  part : Part → Part := id
  block : Block → Block := id
  gang : Gang → Gang := id
  launch : Launch → Launch := id
  op : EngineOp → EngineOp := id
  core : Core → Core := id
  acc : Access → Option Access := some
  newId : Nat → Prop := fun _ => False
  newPlace : Nat → Prop := fun _ => False
  rest : State → State := id
  upset : Upset → Prop := fun _ => False

/-- The state without the tables that a frame speaks of one by one, and without the units formed of the warps. -/
def State.bare (s : State) : State :=
  { s with warps := [], parts := [], blocks := [], gangs := [], launches := [], ops := [], cores := [], accs := [], upsets := [],
           mixed := [], tried := [] }

/-- Two tables hold the same under a map, but for some new keys. -/
def SameTbl {α β : Type} (new : Nat → Prop) (f : α → β) (a b : Tbl α) : Prop :=
  ∀ k, ¬ new k → (b.find k).map f = (a.find k).map f

/-- Nothing has changed but what the frame names and where the groups of the warps stand. -/
structure Leaves (s t : State) (F : MayChange := {}) : Prop where
  warps : SameTbl F.newPlace (fun w => F.warp w.still) s.warps t.warps
  parts : SameTbl (fun _ => False) F.part s.parts t.parts
  blocks : SameTbl F.newPlace F.block s.blocks t.blocks
  gangs : SameTbl F.newPlace F.gang s.gangs t.gangs
  launches : SameTbl F.newPlace F.launch s.launches t.launches
  ops : SameTbl F.newId F.op s.ops t.ops
  cores : ∀ c, F.core (t.coreRegs c) = F.core (s.coreRegs c)
  accs : ∀ k, ¬ F.newId k → (t.accs.find k).bind F.acc = (s.accs.find k).bind F.acc
  upsets : ∀ u ∈ s.upsets, ¬ F.upset u → u ∈ t.upsets
  rest : F.rest t.bare = F.rest s.bare

/-- Every thread of the unit goes on with the next word (R224). -/
def GoesOn (t : State) (c : Ctx) : Prop := ∀ th ∈ c.u.th, t.At th (fallThrough c.u c.len)

/-- An instruction whose checks pass, and whose further conditions hold, answers a next state of which `post` holds. -/
def Performs (i : Instr) (k : Checks) (ok : State → Ctx → List Th → Prop) (post : State → Ctx → List Th → State → Prop) :
    Prop :=
  ∀ s act, s.gate (s.ctx i) k = .go act → ok s (s.ctx i) act → ∃ t, exec i s = .next t ∧ post s (s.ctx i) act t

/-- An instruction whose checks pass, and for which some trap is due, takes that trap: its next state is that of the shared
trap entry (R396 to R398), which a statement of its own describes. -/
def Traps (i : Instr) (k : Checks) (trap : State → Ctx → List Th → Option Trap) : Prop :=
  ∀ s act tr, s.gate (s.ctx i) k = .go act → trap s (s.ctx i) act = some tr →
    exec i s = .next (s.takeTrap (s.ctx i).u tr (s.ctx i).len)

/-! ### Scratchpad writes -/

/-- The byte that a list of writes leaves at an address of a block: the last write that covers it decides (R198). -/
def lastWrite (l : List (Nat × Nat × List Byte)) (bid a : Nat) : Option Byte :=
  l.reverse.findSome? fun x => if x.1 = bid ∧ x.2.1 ≤ a then x.2.2[a - x.2.1]? else none

/-- Every byte of every block's scratchpad is what the writes left there, else what it was. -/
def ScratchIs (s t : State) (l : List (Nat × Nat × List Byte)) : Prop :=
  ∀ bid a, Memory.rd (t.block bid).scratch a = (lastWrite l bid a).getD (Memory.rd (s.block bid).scratch a)

/-- A block without its scratchpad. -/
def Block.noScratch (b : Block) : Block := { b with scratch := [] }

/-- An error of the scratchpad. -/
def Upset.inScratch : Upset → Prop
  | .scratch _ _ => True
  | _ => False

/-! ### Accesses sent -/

/-- The accesses of an instruction are on their way, each under a number of its own, the accesses of one home warp under
one instruction number, which its counter counts once (R199), all of them of one batch (R198); the unit goes on and nothing
else changes. -/
structure Sent (s : State) (c : Ctx) (ctr : Option Nat) (l : List Access) (t : State) : Prop where
  sent : ∀ j a, l[j]? = some a →
    t.accs.find (s.nextId + (l.map (·.wid)).eraseDups.length + j) =
      some { a with iid := s.nextId + (l.map (·.wid)).eraseDups.idxOf a.wid, batch := s.nextId }
  counted : ∀ wid k, t.counter wid k = s.counter wid k + if ctr = some k ∧ wid ∈ l.map (·.wid) then 1 else 0
  goes : GoesOn t c
  leaves : Leaves s t { newId := fun k => s.nextId ≤ k
                        rest := fun x => { x with outst := [], nextId := 0 } }

/-- No access has a number that is still to be given. -/
def State.fresh (s : State) : Prop := ∀ p ∈ s.accs, p.1 < s.nextId

/-- Is this byte address one that an access covers? -/
def covers (n : Nat) (l : List (Th × DWord)) (va : Nat) : Prop := ∃ x ∈ l, x.2.toNat ≤ va ∧ va < x.2.toNat + n

/-- Registers that hold words: the j-th register the j-th word, with a tag (R197, R203). -/
def HoldsWords (t : State) (th : Th) (dst : List DReg) (words : List Word) (tag : BitVec 4) : Prop :=
  ∀ (j : Nat) (r : DReg) (w : Word), dst[j]? = some r → words[j]? = some w → r ≠ .discard → t.getReg th r = { val := w, tag := tag }

/-- Every register is as it was but those listed for some threads. -/
def OtherRegsKept (s t : State) (l : List (Th × List DReg)) : Prop :=
  ∀ th r, DReg.small r → (∀ x ∈ l, ∀ q ∈ x.2, ¬ SameReg x.1 q th r) → t.getReg th r = s.getReg th r

/-- A warp without its registers. -/
def Warp.noRegs (w : Warp) : Warp := { w with v := [], w := [], k := [] }

/-- An error of a register. -/
def Upset.inRegister : Upset → Prop
  | .register _ _ _ => True
  | _ => False

/-! ### Acquires -/

/-- An L1 line of a core that has invalidated: of its bytes only those of words it owns or has merged into stay valid (R83,
R298). -/
def L1Line.afterAcquire (s : State) (cores : List Nat) (l : L1Line) : L1Line :=
  if l.core ∈ cores then
    { l with valid := l.valid &&& wordBytesMask (l.owned ||| s.mergedWords l.core l.part l.asid l.hid l.line) }
  else l

/-- Some cores have invalidated (R83): every byte of theirs that they do not own is gone, also from the replies on their way;
nothing else has changed. -/
structure Acquired (s : State) (cores : List Nat) (t : State) : Prop where
  lines : ∀ l, l ∈ t.l1 ↔ ∃ x ∈ s.l1, x.afterAcquire s cores = l ∧ (cores ≠ [] → l.valid ≠ 0)
  snaps : ∀ k, t.accs.find k = (s.accs.find k).map fun a => if a.core ∈ cores then { a with snap := [] } else a
  rest : { t with l1 := [], accs := [] } = { s with l1 := [], accs := [] }

/-- The cores of some threads. -/
def State.homeCores (s : State) (act : List Th) : List Nat := act.map fun t => (s.warp t.wid).core

/-- An acquire is done for some threads, and the unit goes on. -/
def AcquiresAndGoesOn (s : State) (c : Ctx) (act : List Th) (t : State) : Prop :=
  ∃ m, Acquired s (s.homeCores act) m ∧ GoesOn t c ∧ Leaves m t

/-! ### Units that wait -/

/-- The unit has not moved: each of its threads stands where it stood, in a group that waits as `st` says; nothing else has
changed. -/
def Stays (s : State) (c : Ctx) (st : GroupSt) (t : State) : Prop :=
  (∀ th ∈ c.u.th, (∀ tg, s.At th tg → t.At th tg) ∧
    ∃ g ∈ (t.warp th.wid).groups, g.lanes.getLsbD th.lane = true ∧ g.st = st) ∧
  Leaves s t

/-- A lane of a warp belongs to the running groups of a unit. -/
def State.inUnit (s : State) (u : IssueUnit) (wid lane : Nat) : Prop :=
  ∃ k, (wid, k) ∈ u.mem ∧ ((s.warp wid).sliverLanes k).getLsbD lane = true

/-! ### Warps without some of their parts -/

/-- A warp whose loop levels are forgotten, but not the frames' bodies. -/
def Warp.noLevels (w : Warp) : Warp := { w with frames := w.frames.map fun p => (p.1, { p.2 with active := 0 }) }

/-- A warp without what a trap writes. -/
def Warp.noTrap (w : Warp) : Warp :=
  { w with trapSet := 0, trapSince := 0, wdogPark := false, tcause := 0, tpc := 0, tval := 0, tmask := 0, tstat := 0, trec := 0,
           tkept := none, deliv := none, k := [] }

end Sys2Proof.Machine
end

