-- ==== Sys2Proof/Certificates/Slice0/Obligations.lean ====
section
/-! DEFINITION. The statements for the provers. `Completes`, `Gives` and `Computes` (Sys2Proof/Safety.lean) say what it is for
an instruction whose checks pass to answer a next state: its results in the destination of each active thread, whatever
register the operand code names, and everything else as it was. -/

open Sys2Proof Sys2Proof.Machine

/-! ## Integer, bit, move and predicate instructions -/

/-- The sum that IADD, ISUB and IADDI deliver (R158): wrapped, or clamped with one count in `%ovc` and the flags of and nx. -/
def integerSum (sat uns : Bool) (e : Int) (a b : Word) : Out :=
  if !sat then out1 1 (bits (a.toNat + e * b.toNat))
  else
    let lo : Int := if uns then 0 else -(2 ^ 31)
    let hi : Int := if uns then 2 ^ 32 - 1 else 2 ^ 31 - 1
    let v : Int := if uns then a.toNat + e * b.toNat else a.toInt + e * b.toInt
    out1 1 (bits (max lo (min hi v))) (if v < lo ∨ hi < v then { flags := 0x05, ov := 1 } else {})

/-- R158 to R160: IADD, ISUB, IADDI, IADDC, ISUBB, IMUL, IMULH, IMAD, IMIN, IMAX and IABS; results I32, counted only where R158
and R160 say so. -/
def Obligations.IntegerArithmetic : Prop :=
  (∀ f, Gives (.iadd f) (chk2 f (illZero f.m 4) intTag) f.d 1 fun v =>
    integerSum (f.m.getLsbD 0) (f.m.getLsbD 1) 1 v.A v.B) ∧
  (∀ f, Gives (.isub f) (chk2 f (illZero f.m 4) intTag) f.d 1 fun v =>
    integerSum (f.m.getLsbD 0) (f.m.getLsbD 1) (-1) v.A v.B) ∧
  (∀ f, Gives (.iaddi f) { q := f.q, opd := opdV f.x [f.d, f.a] [f.d] [], a := srcInt f.a, d := dst1 f.d } f.d 1 fun v =>
    out1 1 (bits (v.A.toNat + (f.imm.signExtend 32).toNat))) ∧
  (∀ f, Gives (.iaddc f) (chk2 f none intTag) f.d 1 fun v =>
    let ci : Int := if v.P (2 * f.m.toNat) then 1 else 0
    let u : Int := v.A.toNat + v.B.toNat + ci
    let w : Int := v.A.toInt + v.B.toInt + ci
    { regs := [{ val := bits u, tag := 1 }],
      preds := [(2 * f.m.toNat, decide (2 ^ 32 ≤ u)), (2 * f.m.toNat + 1, decide (w < -(2 ^ 31) ∨ 2 ^ 31 - 1 < w))] }) ∧
  (∀ f, Gives (.isubb f) (chk2 f none intTag) f.d 1 fun v =>
    let ci : Int := if v.P (2 * f.m.toNat) then 1 else 0
    let u : Int := v.A.toNat - v.B.toNat - ci
    let w : Int := v.A.toInt - v.B.toInt - ci
    { regs := [{ val := bits u, tag := 1 }],
      preds := [(2 * f.m.toNat, decide (u < 0)), (2 * f.m.toNat + 1, decide (w < -(2 ^ 31) ∨ 2 ^ 31 - 1 < w))] }) ∧
  (∀ f, Gives (.imul f) (chk2 f (illZero f.m 7) intTag) f.d 1 fun v => out1 1 (bits (v.A.toInt * v.B.toInt))) ∧
  (∀ f, Gives (.imulh f) (chk2 f (illZero f.m 6) intTag) f.d 1 fun v =>
    out1 1 (bits (if f.m.getLsbD 0 then (v.A.toNat * v.B.toNat / 2 ^ 32 : Nat) else (v.A.toInt * v.B.toInt).fdiv (2 ^ 32)))) ∧
  (∀ f, Gives (.imad f) (chk3 f (illZero f.m 7) intTag) f.d 1 fun v =>
    out1 1 (bits (v.A.toInt * v.B.toInt + v.C.toInt))) ∧
  (∀ f, Gives (.imin f) (chk2 f (illZero f.m 6) intTag) f.d 1 fun v =>
    out1 1 (if (if f.m.getLsbD 0 then decide (v.A.toNat ≤ v.B.toNat) else decide (v.A.toInt ≤ v.B.toInt)) then v.A else v.B)) ∧
  (∀ f, Gives (.imax f) (chk2 f (illZero f.m 6) intTag) f.d 1 fun v =>
    out1 1 (if (if f.m.getLsbD 0 then decide (v.B.toNat ≤ v.A.toNat) else decide (v.B.toInt ≤ v.A.toInt)) then v.A else v.B)) ∧
  (∀ f, Gives (.iabs f) (chk1 f (illZero f.m 6) intTag) f.d 1 fun v =>
    if f.m.getLsbD 0 then
      out1 1 (bits (min (2 ^ 31 - 1) v.A.toInt.natAbs)) (if v.A.toInt = -(2 ^ 31) then { flags := 0x05, ov := 1 } else {})
    else out1 1 (bits v.A.toInt.natAbs))

/-- R161, R162, R163: AND, OR, XOR, ANDN, POPC, CLZ, BREV, SHL, SHR, ROT, SHF, BFX, BFI; results RAW, nothing counted. -/
def Obligations.BitAndShiftResults : Prop :=
  (∀ f, Gives (.bitAnd f) (chk2 f (illZero f.m 7) anyTag) f.d 1 fun v => out1 0 (v.A &&& v.B)) ∧
  (∀ f, Gives (.bitOr f) (chk2 f (illZero f.m 7) anyTag) f.d 1 fun v => out1 0 (v.A ||| v.B)) ∧
  (∀ f, Gives (.bitXor f) (chk2 f (illZero f.m 7) anyTag) f.d 1 fun v => out1 0 (v.A ^^^ v.B)) ∧
  (∀ f, Gives (.andn f) (chk2 f (illZero f.m 7) anyTag) f.d 1 fun v => out1 0 (v.A &&& ~~~v.B)) ∧
  (∀ f, Gives (.popc f) (chk1 f (illZero f.m 7) anyTag) f.d 1 fun v =>
    out1 0 (BitVec.ofNat 32 ((List.range 32).countP fun i => v.A.getLsbD i))) ∧
  (∀ f, Gives (.clz f) (chk1 f (illZero f.m 7) anyTag) f.d 1 fun v =>
    out1 0 (if v.A = 0 then 32 else BitVec.ofNat 32 (31 - Nat.log2 v.A.toNat))) ∧
  (∀ f, Gives (.brev f) (chk1 f (illZero f.m 7) anyTag) f.d 1 fun v => out1 0 v.A.reverse) ∧
  (∀ f, Gives (.shl f) (chk2 f (illZero f.m 7) anyTag) f.d 1 fun v =>
    out1 0 (if 32 ≤ v.B.toNat then 0 else bits (v.A.toNat * 2 ^ v.B.toNat : Nat))) ∧
  (∀ f, Gives (.shr f) (chk2 f (illZero f.m 6) anyTag) f.d 1 fun v =>
    out1 0 (if f.m.getLsbD 0 then bits (v.A.toInt / 2 ^ min v.B.toNat 31)
      else if 32 ≤ v.B.toNat then 0 else bits (v.A.toNat / 2 ^ v.B.toNat : Nat))) ∧
  (∀ f, Gives (.rot f) (chk2 f (illZero f.m 6) anyTag) f.d 1 fun v =>
    let c := if f.m.getLsbD 0 then 32 - v.B.toNat % 32 else v.B.toNat % 32
    out1 0 (bits (v.A.toNat * 2 ^ c + v.A.toNat / 2 ^ (32 - c) : Nat))) ∧
  (∀ f, Gives (.shf f) (chk3 f (illZero f.m 6) anyTag) f.d 1 fun v =>
    let x := v.A.toNat * 2 ^ 32 + v.B.toNat
    out1 0 (if 64 ≤ v.C.toNat then 0 else if f.m.getLsbD 0 then bits (x / 2 ^ v.C.toNat : Nat)
      else bits (x * 2 ^ v.C.toNat % 2 ^ 64 / 2 ^ 32 : Nat))) ∧
  (∀ f, Gives (.bfx f)
    { q := f.q, ill := illZero f.m 6, opd := opdX f.x [f.d, f.a] [f.d] [] (f.x.extractLsb' 10 22 ≠ 0), a := srcAny f.a,
      d := dst1 f.d } f.d 1 fun v =>
    let pos := (f.x.extractLsb' 0 5).toNat
    let len := (f.x.extractLsb' 5 5).toNat
    let g : Nat := v.A.toNat / 2 ^ pos % 2 ^ len
    out1 0 (bits (if f.m.getLsbD 0 ∧ 0 < len ∧ 2 ^ (len - 1) ≤ g then (g : Int) - 2 ^ len else g))) ∧
  (∀ f, Gives (.bfi f)
    { q := f.q, ill := illZero f.m 7, opd := opdX f.x [f.d, f.a, f.b] [f.d] [] (f.x.extractLsb' 10 22 ≠ 0), a := srcAny f.a,
      b := srcAny f.b 1, d := dst1 f.d } f.d 1 fun v =>
    let pos := (f.x.extractLsb' 0 5).toNat
    let len := (f.x.extractLsb' 5 5).toNat
    let mask : Word := bits ((2 ^ len - 1) * 2 ^ pos % 2 ^ 32 : Nat)
    out1 0 ((v.A &&& ~~~mask) ||| (bits (v.B.toNat * 2 ^ pos : Nat) &&& mask)))

/-- R157, R164, R165, R168 to R171: SEL, MOV, MOVI, MOVHI, LEA, UMOV and TAG, with the tags they carry; NOP, PLOP and PMOV in
both directions. -/
def Obligations.MovesAndPredicateMoves : Prop :=
  (∀ f, Gives (.mov f) (chk1 f (illZero f.m 7) anyTag) f.d 1 fun v => { regs := [v.a 0] }) ∧
  (∀ f, Completes (.sel f) (chk2 f (illZero f.m 6) anyTag) fun s c act t =>
    Computes s t c act f.d 1 fun th =>
      { regs := [if s.pred th (2 * (c.u.hw.extractLsb' 18 3).toNat + (f.m.getLsbD 0).toNat)
          then s.src c th f.a 0 else s.src c th f.b 0] }) ∧
  (∀ f, Gives (.movi f) { q := f.q, opd := opdV f.x [f.d] [f.d] [], d := dst1 f.d } f.d 1 fun _ =>
    out1 1 (bits f.imm.toInt)) ∧
  (∀ f, Gives (.movhi f)
    { q := f.q, ill := illOf (f.imm.getLsbD 16) false, opd := opdV f.x [f.d] [f.d] [], more := [srcAny f.d], d := dst1 f.d }
    f.d 1 fun v => out1 0 (bits (f.imm.toNat % 2 ^ 16 * 2 ^ 16 + (v.d 0).val.toNat % 2 ^ 16 : Nat))) ∧
  (∀ f, Gives (.lea f)
    { q := f.q, opd := opdV f.x [f.d, f.a, f.b] [f.d] [f.d, f.a], a := { code := f.a, n := 2, ok := intTag },
      b := srcInt f.b 1, d := dst2 f.d } f.d 2 fun v =>
    out2 1 (BitVec.ofInt 64 ((v.A.toNat + 2 ^ 32 * (v.a 1).val.toNat : Nat) + v.B.toInt * 2 ^ f.m.toNat))) ∧
  (∀ f, Gives (.umov f)
    { q := f.q, ill := illZero f.m 6,
      opd := opdV f.x [f.d, f.a] [f.d] [] (if f.m.getLsbD 0 then 52 ≤ f.a.toNat || f.d.toNat < 55 else f.a.toNat < 55 || 53 ≤ f.d.toNat),
      a := srcAny f.a, d := dst1 f.d } f.d 1 fun v => { regs := [v.a 0] }) ∧
  (∀ f, f.m.getLsbD 0 = false → Gives (.tag f) (chk1 f (illZero f.m 6) anyTag) f.d 1 fun v =>
    out1 2 (BitVec.ofNat 32 (v.a 0).tag.toNat)) ∧
  (∀ f, f.m.getLsbD 0 = true → f.b.extractLsb' 0 4 ≠ 13#4 → Gives (.tag f)
    { q := f.q, ill := illOf (f.m &&& 6 ≠ 0 || hiBits f.b) false,
      opd := opdV f.x [f.d] [f.d] [] false (f.b.extractLsb' 0 4 = 15#4), d := dst1 f.d } f.d 1 fun v =>
    { regs := [{ val := (v.d 0).val, tag := f.b.extractLsb' 0 4 }] }) ∧
  (∀ f, f.m.getLsbD 0 = true → f.b.extractLsb' 0 4 = 13#4 → Gives (.tag f)
    { q := f.q, ill := illOf (f.m &&& 6 ≠ 0 || hiBits f.b) false,
      opd := opdV f.x [f.d] [f.d] (if f.d = 55 then [f.d] else []) false (oddReg f.d), d := dst2 f.d } f.d 2 fun v =>
    { regs := [{ val := (v.d 0).val, tag := 13 }, { val := (v.d 1).val, tag := 13 }] }) ∧
  (∀ f, Completes (.nop f) { q := f.q, ill := illZero f.m 7 } fun s c _ t =>
    t = s.advance c.u c.len ∧ ∀ th ∈ c.u.th, t.At th (fallThrough c.u c.len)) ∧
  (∀ f, Gives (.plop f)
    { q := f.q, ill := illOf (f.m ≠ 0 || hiBits f.d || hiBits f.a || hiBits f.b) false,
      opd := opdX f.x [] [] [] (f.x.extractLsb' 12 20 ≠ 0) } 52 0 fun v =>
    { preds := [((f.d.extractLsb' 0 4).toNat,
        f.x.getLsbD (4 * (v.P (f.a.extractLsb' 0 4).toNat).toNat + 2 * (v.P (f.b.extractLsb' 0 4).toNat).toNat +
          (v.P (f.x.extractLsb' 8 4).toNat).toNat))] }) ∧
  (∀ f, f.m.getLsbD 0 = false → Gives (.pmov f)
    { q := f.q, ill := illOf (f.m &&& 6 ≠ 0 || hiBits f.a) false, opd := opdV f.x [f.d] [f.d] [], d := dst1 f.d } f.d 1
    fun v => out1 1 (if v.P (f.a.extractLsb' 0 4).toNat then 1 else 0)) ∧
  (∀ f, f.m.getLsbD 0 = true → Gives (.pmov f)
    { q := f.q, ill := illOf (f.m &&& 6 ≠ 0 || hiBits f.d) false, opd := opdV f.x [f.a] [] [], a := srcAny f.a } 52 0
    fun v => { preds := [((f.d.extractLsb' 0 4).toNat, v.A.getLsbD 0)] })

/-- The pair that a compare writes from its result c and the pair's prior values f and g, by its combining type (R167). -/
def combined (d : BitVec 6) (v : Vals) (c : Bool) (fx : Effects) : Out :=
  let k := (d.extractLsb' 0 3).toNat
  let f := v.P (2 * k)
  let g := v.P (2 * k + 1)
  let r : Bool × Bool := match (d.extractLsb' 3 3).toNat with
    | 2 => (f && c, g && c)
    | 3 => (f || c, g || c)
    | 4 => (f && c, g && !c)
    | 5 => (f || c, g || !c)
    | 6 => (c, c)
    | _ => (c, !c)
  { preds := [(2 * k, r.1), (2 * k + 1, r.2)], fx := fx }

/-- The condition of ICMP (R166). -/
def integerCondition (m : BitVec 3) (x y : Int) : Bool :=
  match m.toNat with
  | 0 => decide (x = y)
  | 1 => decide (x ≠ y)
  | 2 => decide (x < y)
  | 3 => decide (x ≤ y)
  | 4 => decide (y < x)
  | 5 => decide (y ≤ x)
  | 6 => false
  | _ => true

/-- The condition of FCMP and DCMP with the flag that it raises: nv for an ordered relation with a NaN (R181). -/
def floatCondition (m : BitVec 3) (x y : FVal) : Bool × Effects :=
  let un := x.isNan || y.isNan
  let nv : Effects := if un then { flags := 0x10 } else {}
  match m.toNat with
  | 0 => (!un && x.eq y, {})
  | 1 => (un || !(x.eq y), {})
  | 2 => (!un && x.lt y, nv)
  | 3 => (!un && !(y.lt x), nv)
  | 4 => (!un && y.lt x, nv)
  | 5 => (!un && !(x.lt y), nv)
  | 6 => (un, {})
  | _ => (!un, {})

/-- The checks of FCMP and DCMP with sources of some register count and tag rule. -/
def floatCompareChecks (f : V3) (pairs : List (BitVec 6)) (a b : Opd) : Checks :=
  { q := f.q, ill := illOf false (cmpType f.d = 7), opd := opdV f.x [f.a, f.b] [] pairs, a := a, b := b }

/-- R166, R167, R181: ICMP.S, ICMP.N, FCMP and DCMP write their pair as their combining type says, and write no register. -/
def Obligations.ComparesCombinePairs : Prop :=
  (∀ f, GivesPair (.icmpS f) f.d (icmpChecks f) fun v =>
    combined f.d v (integerCondition f.m v.A.toInt v.B.toInt) {}) ∧
  (∀ f, GivesPair (.icmpN f) f.d (icmpChecks f) fun v =>
    combined f.d v (integerCondition f.m v.A.toNat v.B.toNat) {}) ∧
  (∀ f, GivesPair (.fcmp f) f.d (floatCompareChecks f [] (srcF32 f.a) (srcF32 f.b 1)) fun v =>
    let r := floatCondition f.m (val32 v.A) (val32 v.B)
    combined f.d v r.1 r.2) ∧
  (∀ f, GivesPair (.dcmp f) f.d (floatCompareChecks f [f.a, f.b] (srcF64 f.a) (srcF64 f.b 1)) fun v =>
    let r := floatCondition f.m (val64 v.A64) (val64 v.B64)
    combined f.d v r.1 r.2)

/-! ## Floating-point instructions -/

/-- An F32 operand after its absolute value and negation (R174). -/
def modified (ab ng : Bool) (x : FVal) : FVal := if ng then (if ab then x.abs else x).neg else if ab then x.abs else x

/-- The F32 result of an exact value, with the effects of forming it and of rounding it once (R114 to R117, R173). -/
def roundedF32 (rm : BitVec 2) (r : FVal × Effects) : Out := out1 3 (round32 rm r.1).1 (r.2.join (round32 rm r.1).2)

/-- The F64 result of an exact value. -/
def roundedF64 (rm : BitVec 2) (r : FVal × Effects) : Out := out2 13 (round64 rm r.1).1 (r.2.join (round64 rm r.1).2)

/-- The exact x × y + z (R121, R178): a sum of the exact product and z, with the effects of both. -/
def exactFused (rm : BitVec 2) (x y z : FVal) : FVal × Effects :=
  ((FVal.sum rm [(x.mul y).1, z]).1, (x.mul y).2.join (FVal.sum rm [(x.mul y).1, z]).2)

/-- The mode of FFMA and DFMA (R172). -/
def fusedMode (x : Word) (rm : BitVec 2) : BitVec 2 := if x.getLsbD 5 then x.extractLsb' 3 2 else rm

/-- The checks of FFMA and DFMA. -/
def fusedChecks (f : V3) (pairs : List (BitVec 6)) (a b c d : Opd) : Checks :=
  { q := f.q, ill := illZero f.m 7,
    opd := opdX f.x [f.d, f.a, f.b, f.x.extractLsb' 26 6] [f.d] pairs
      (f.x.extractLsb' 6 20 ≠ 0 || (!(f.x.getLsbD 5) && f.x.extractLsb' 3 2 ≠ 0)),
    a := a, b := b, c := c, d := d }

/-- R172, R177 to R180, R185: FADD, FSUB, FMUL, FFMA, FMIN, FMAX, FSCALE, FRND, FCLASS. -/
def Obligations.SingleFloatResults : Prop :=
  (∀ f, Gives (.fadd f) (chk2 f none f32Tag) f.d 1 fun v =>
    roundedF32 v.rm (FVal.sum v.rm
      [modified (f.m.getLsbD 1) (f.m.getLsbD 0) (val32 v.A), modified (f.m.getLsbD 2) false (val32 v.B)])) ∧
  (∀ f, Gives (.fsub f) (chk2 f none f32Tag) f.d 1 fun v =>
    roundedF32 v.rm (FVal.sum v.rm
      [modified (f.m.getLsbD 1) (f.m.getLsbD 0) (val32 v.A), (modified (f.m.getLsbD 2) false (val32 v.B)).neg])) ∧
  (∀ f, Gives (.fmul f) (chk2 f none f32Tag) f.d 1 fun v =>
    roundedF32 v.rm ((modified (f.m.getLsbD 1) (f.m.getLsbD 0) (val32 v.A)).mul
      (modified (f.m.getLsbD 2) false (val32 v.B)))) ∧
  (∀ f, Gives (.ffma f) (fusedChecks f [] (srcF32 f.a) (srcF32 f.b 1) (srcF32 (f.x.extractLsb' 26 6) 2) (dst1 f.d)) f.d 1
    fun v =>
      let rm := fusedMode f.x v.rm
      roundedF32 rm (exactFused rm (modified false (f.x.getLsbD 0) (val32 v.A)) (modified false (f.x.getLsbD 1) (val32 v.B))
        (modified false (f.x.getLsbD 2) (val32 v.C)))) ∧
  (∀ f, Gives (.fmin f) (chk2 f none f32Tag) f.d 1 fun v =>
    out1 3 (pickMinMax false (modBits (f.m.getLsbD 1) (f.m.getLsbD 0) v.A) (modBits (f.m.getLsbD 2) false v.B))) ∧
  (∀ f, Gives (.fmax f) (chk2 f none f32Tag) f.d 1 fun v =>
    out1 3 (pickMinMax true (modBits (f.m.getLsbD 1) (f.m.getLsbD 0) v.A) (modBits (f.m.getLsbD 2) false v.B))) ∧
  (∀ f, Gives (.fscale f)
    { q := f.q, ill := illZero f.m 7, opd := opdV f.x [f.d, f.a, f.b] [f.d] [], a := srcF32 f.a, b := srcInt f.b 1,
      d := dst1 f.d } f.d 1 fun v => roundedF32 v.rm ((val32 v.A).scale (max (-4000) (min 4000 v.B.toInt)), {})) ∧
  (∀ f, Gives (.frnd f) (chk1 f (illZero f.m 4) f32Tag) f.d 1 fun v => out1 3 (roundToInt (f.m.extractLsb' 0 2) v.A)) ∧
  (∀ f, Gives (.fclass f) (chk1 f (illZero f.m 7) f32Tag) f.d 1 fun v => out1 1 (1#32 <<< classBit v.A))

/-- R186: DADD, DMUL and DFMA over register pairs. -/
def Obligations.DoubleFloatResults : Prop :=
  (∀ f, Gives (.dadd f)
    { q := f.q, opd := opdV f.x [f.d, f.a, f.b] [f.d] [f.d, f.a, f.b], a := srcF64 f.a, b := srcF64 f.b 1, d := dst2 f.d }
    f.d 2 fun v => roundedF64 v.rm (FVal.sum v.rm
      [modified (f.m.getLsbD 1) (f.m.getLsbD 0) (val64 v.A64), modified (f.m.getLsbD 2) false (val64 v.B64)])) ∧
  (∀ f, Gives (.dmul f)
    { q := f.q, opd := opdV f.x [f.d, f.a, f.b] [f.d] [f.d, f.a, f.b], a := srcF64 f.a, b := srcF64 f.b 1, d := dst2 f.d }
    f.d 2 fun v => roundedF64 v.rm ((modified (f.m.getLsbD 1) (f.m.getLsbD 0) (val64 v.A64)).mul
      (modified (f.m.getLsbD 2) false (val64 v.B64)))) ∧
  (∀ f, Gives (.dfma f)
    (fusedChecks f [f.d, f.a, f.b, f.x.extractLsb' 26 6] (srcF64 f.a) (srcF64 f.b 1) (srcF64 (f.x.extractLsb' 26 6) 2)
      (dst2 f.d)) f.d 2 fun v =>
      let rm := fusedMode f.x v.rm
      roundedF64 rm (exactFused rm (modified false (f.x.getLsbD 0) (val64 v.A64)) (modified false (f.x.getLsbD 1) (val64 v.B64))
        (modified false (f.x.getLsbD 2) (val64 v.C64))))

/-- R182, R183, R184, R192, R193: F2I, I2F, FCVT and PCVT. -/
def Obligations.FormatConversions : Prop :=
  (∀ f, Gives (.f2i f) (chk1 f none f32Tag) f.d 1 fun v =>
    let lim : Int × Int := if f.m.getLsbD 0 then (0, 2 ^ 32 - 1) else (-(2 ^ 31), 2 ^ 31 - 1)
    let r := toInteger lim.1 lim.2 (f.m.extractLsb' 1 2) (val32 v.A)
    out1 (if f.m.getLsbD 0 then 2 else 1) (bits r.1) r.2) ∧
  (∀ f, Gives (.i2f f) (chk1 f (illZero f.m 6) intTag) f.d 1 fun v =>
    roundedF32 v.rm (.ofInt (if f.m.getLsbD 0 then v.A.toNat else v.A.toInt), {})) ∧
  (∀ f : V3, let a := (f.x.extractLsb' 0 4).toNat
    let b := (f.x.extractLsb' 4 4).toNat
    Gives (.fcvt f)
      { q := f.q, ill := illOf (f.m ≠ 0) false (a ≠ 15 && b ≠ 15 && !(fcvtPair a b)),
        opd := opdX f.x [f.d, f.a] [f.d] ((if a = 13 then [f.a] else []) ++ if b = 13 then [f.d] else [])
          (f.x.extractLsb' 10 22 ≠ 0) false (a = 15 || b = 15),
        a := { code := f.a, n := if a = 13 then 2 else 1, ok := rawOr a }, d := { code := f.d, n := if b = 13 then 2 else 1 } }
      f.d (if b = 13 then 2 else 1) (convert a b (f.x.extractLsb' 8 2))) ∧
  (∀ f : V3, let a := (f.x.extractLsb' 0 4).toNat
    let b := (f.x.extractLsb' 4 4).toNat
    let na := groupOf a b
    let nb := groupOf b a
    Gives (.pcvt f)
      { q := f.q, ill := illOf (f.m ≠ 0) false (a ≠ 15 && b ≠ 15 && !(pcvtPair a b)),
        opd := opdX f.x [f.d, f.a] [f.d] [] (f.x.extractLsb' 18 14 ≠ 0) (groupBad f.a na || groupBad f.d nb)
          (a = 15 || b = 15) (1 < na && f.a.toNat < 48 && 48 < f.a.toNat + na || 1 < nb && f.d.toNat < 48 && 48 < f.d.toNat + nb),
        a := { code := f.a, n := na, ok := rawOr a }, d := { code := f.d, n := nb } }
      f.d nb (pcvtOut a b (f.x.extractLsb' 8 8).toNat (f.x.extractLsb' 16 2)))

/-- The number that a finite value is; 0 for the others. -/
def ratOf : FVal → ℚ
  | .fin s m e => (if s then -1 else 1) * m * 2 ^ e
  | _ => 0

/-- A word with a sign put before a magnitude: RCP to TANHA's zeros, ones and infinities. -/
def withSign (neg : Bool) (mag : Word) : Word := if neg then mag ||| 0x80000000 else mag

/-- The special results of R127 for a word and what is delivered, for functions 0 RCP, 1 RSQ, 2 SQRTA, 3 EXP2, 4 LOG2, 5 SINP,
6 COSP and 7 TANHA (R148): NaN, infinities, zeros, negative operands, and the exact cases, with the flags nv (16) and dz (8). -/
def SpecialCases (fn : Nat) (x : Word) (r : Word × Effects) : Prop :=
  let neg := x.getLsbD 31
  let v := ratOf (val32 x)
  let nv : Word × Effects := (0x7FC00000, { flags := 0x10 })
  let one : Word := 0x3F800000
  let inf : Word := 0x7F800000
  let is := fun (w : Word) => r = (w, {})
  ((val32 x).isNan = true → is 0x7FC00000) ∧
  (val32 x = .inf neg → match fn with
    | 0 => is (withSign neg 0)
    | 1 => if neg then r = nv else is 0
    | 2 => if neg then r = nv else is inf
    | 3 => is (if neg then 0 else inf)
    | 4 => if neg then r = nv else is inf
    | 5 => r = nv
    | 6 => r = nv
    | _ => is (withSign neg one)) ∧
  (x.extractLsb' 0 31 = 0 → match fn with
    | 0 => r = (withSign neg inf, { flags := 0x08 })
    | 1 => r = (withSign neg inf, { flags := 0x08 })
    | 3 => is one
    | 4 => r = (withSign true inf, { flags := 0x08 })
    | 6 => is one
    | _ => is (withSign neg 0)) ∧
  (v ≠ 0 → match fn with
    | 0 => (2 ^ 24 - 1) * 2 ^ 104 < 1 / |v| → is (withSign neg inf)
    | 1 => v < 0 → r = nv
    | 2 => v < 0 → r = nv
    | 3 => (128 ≤ v → is inf) ∧
        ∀ k : ℤ, -149 ≤ k → k ≤ 127 → v = k → ratOf (val32 r.1) = 2 ^ k ∧ r.2 = {}
    | 4 => (v < 0 → r = nv) ∧ ∀ k : ℤ, v = 2 ^ k → ratOf (val32 r.1) = k ∧ r.2 = {}
    | 5 => ∀ k : ℤ, (v = k → is (withSign neg 0)) ∧ (v = k + 1 / 2 → is (withSign (k % 2 = 1) one))
    | 6 => ∀ k : ℤ, (v = k → is (withSign (k % 2 = 1) one)) ∧ (v = k + 1 / 2 → is 0)
    | _ => True)

/-- An ulp of a number's binade, or 2^-149 for so many of them on the subnormal grid (R127). -/
def ulps (k : ℚ) (a : ℚ) : ℚ := if |a| < 2 ^ (-126 : ℤ) then 2 ^ (-149 : ℤ) else k * 2 ^ (Int.log 2 |a| - 23)

/-- R127's accuracy of a function for an operand v whose result is a. -/
def accuracy127 (fn : Nat) (v a : ℚ) : ℚ :=
  match fn with
  | 0 => ulps 1 a
  | 1 => ulps 1 a
  | 2 => ulps 1 a
  | 3 => ulps 2 a
  | 4 => if 1 / 2 ≤ v ∧ v ≤ 2 then 2 ^ (-22 : ℤ) else ulps 2 a
  | 5 => 2 ^ (-22 : ℤ)
  | 6 => 2 ^ (-22 : ℤ)
  | _ => 2 ^ (-21 : ℤ)

/-- The operands of a function, finite and not zero, for which R127 gives an accuracy. -/
def domain127 (fn : Nat) (v : ℚ) : Prop :=
  match fn with
  | 0 => 1 / |v| ≤ (2 ^ 24 - 1) * 2 ^ 104
  | 1 => 0 < v
  | 2 => 0 < v
  | 3 => v < 128
  | 4 => 0 < v
  | _ => True

/-- What R127 asks of a function for an operand: its special results, and elsewhere a finite result without flags, within the
accuracy of the rule. The exact result is the model's approximation of it, which keeps 100 correct bits (log entry 11). -/
def Within127 (fn : Nat) (x : Word) (r : Word × Effects) : Prop :=
  SpecialCases fn x r ∧
  ∀ s m e, val32 x = .fin s m e → m ≠ 0 → domain127 fn (ratOf (val32 x)) →
    let a := ratOf (approxOf fn s m e)
    r.2 = {} ∧ (∃ t n d, val32 r.1 = .fin t n d) ∧ |ratOf (val32 r.1) - a| ≤ accuracy127 fn (ratOf (val32 x)) a

/-- R127, R187: RCP, RSQ, SQRTA, EXP2, LOG2, SINP, COSP and TANHA complete, and each gives every active thread a result that is
one function of its operand (the same input gives the same bits), with R127's special results and accuracy. -/
def Obligations.SpecialFunctionResults : Prop :=
  ∃ R : Nat → Word → Word × Effects, (∀ fn < 8, ∀ x, Within127 fn x (R fn x)) ∧
  (∀ f, Gives (.rcp f) (chk1 f none f32Tag) f.d 1 fun v => out1 3 (R 0 v.A).1 (R 0 v.A).2) ∧
  (∀ f, Gives (.rsq f) (chk1 f none f32Tag) f.d 1 fun v => out1 3 (R 1 v.A).1 (R 1 v.A).2) ∧
  (∀ f, Gives (.sqrta f) (chk1 f none f32Tag) f.d 1 fun v => out1 3 (R 2 v.A).1 (R 2 v.A).2) ∧
  (∀ f, Gives (.exp2 f) (chk1 f none f32Tag) f.d 1 fun v => out1 3 (R 3 v.A).1 (R 3 v.A).2) ∧
  (∀ f, Gives (.log2 f) (chk1 f none f32Tag) f.d 1 fun v => out1 3 (R 4 v.A).1 (R 4 v.A).2) ∧
  (∀ f, Gives (.sinp f) (chk1 f none f32Tag) f.d 1 fun v => out1 3 (R 5 v.A).1 (R 5 v.A).2) ∧
  (∀ f, Gives (.cosp f) (chk1 f none f32Tag) f.d 1 fun v => out1 3 (R 6 v.A).1 (R 6 v.A).2) ∧
  (∀ f, Gives (.tanha f) (chk1 f none f32Tag) f.d 1 fun v => out1 3 (R 7 v.A).1 (R 7 v.A).2)

/-- The floating tags of HADD2 and HFMA2, and of QADD4, QMUL4 and DOT4's operands (R175, R188 to R190). -/
def halfFormat (b : Bool) : Nat := if b then 5 else 4
def byteFormat (b : Bool) : Nat := if b then 7 else 6

/-- R188 to R191, R194, R195: HADD2, HFMA2, QADD4, QMUL4, DOT4, DOT8, IDOT4, IDOT8, PSCALE, PAMAX. -/
def Obligations.PackedResults : Prop :=
  (∀ f, let g := halfFormat (f.m.getLsbD 0)
    Gives (.hadd2 f) (chk2 f (illZero f.m 6) (exactTag g)) f.d 1 fun v =>
      packedMap g v.rm fun i => FVal.sum v.rm [elAt g v.A i, elAt g v.B i]) ∧
  (∀ f, let g := halfFormat (f.m.getLsbD 0)
    Gives (.hfma2 f) (chk3 f (illZero f.m 6) (exactTag g)) f.d 1 fun v =>
      packedMap g v.rm fun i => exactFused v.rm (elAt g v.A i) (elAt g v.B i) (elAt g v.C i)) ∧
  (∀ f, let g := byteFormat (f.m.getLsbD 0)
    Gives (.qadd4 f) (chk2 f (illZero f.m 6) (exactTag g)) f.d 1 fun v =>
      packedMap g v.rm fun i => FVal.sum v.rm [elAt g v.A i, elAt g v.B i]) ∧
  (∀ f, let g := byteFormat (f.m.getLsbD 0)
    Gives (.qmul4 f) (chk2 f (illZero f.m 6) (exactTag g)) f.d 1 fun v =>
      packedMap g v.rm fun i => (elAt g v.A i).mul (elAt g v.B i)) ∧
  (∀ f, let g := byteFormat (f.m.getLsbD 0)
    let h := byteFormat (f.m.getLsbD 1)
    Gives (.dot4 f) (chkDot f (illZero f.m 4) g h f32Tag) f.d 1 fun v =>
      roundedF32 v.rm (dotSum g h 4 v.rm v.A v.B (val32 v.C))) ∧
  (∀ f, Gives (.dot8 f) (chkDot f (illZero f.m 7) 8 8 f32Tag) f.d 1 fun v =>
    roundedF32 v.rm (dotSum 8 8 8 v.rm v.A v.B (val32 v.C))) ∧
  (∀ f, let g := if f.m.getLsbD 0 then 9 else 10
    let h := if f.m.getLsbD 1 then 9 else 10
    Gives (.idot4 f) (chkDot f none g h intTag) f.d 1 (intDotOut f.m g h 4)) ∧
  (∀ f, let g := if f.m.getLsbD 0 then 11 else 12
    let h := if f.m.getLsbD 1 then 11 else 12
    Gives (.idot8 f) (chkDot f none g h intTag) f.d 1 (intDotOut f.m g h 8)) ∧
  (∀ f : V3, Gives (.pscale f)
    { q := f.q, ill := illZero f.m 7, opd := opdV f.x [f.d, f.a, f.b] [f.d] [] (f.a = 52 || f.a = 53 || f.a = 54),
      a := { code := f.a, n := 1, ok := packedFloatTag }, b := srcInt f.b 1, d := dst1 f.d } f.d 1 fun v =>
    let g := (v.a 0).tag.toNat
    packedMap g v.rm fun i => ((elAt g v.A i).scale (max (-4000) (min 4000 v.B.toInt)), {})) ∧
  (∀ f : V3, Gives (.pamax f)
    { q := f.q, ill := illZero f.m 7, opd := opdV f.x [f.d, f.a, f.b] [f.d] [] (f.a = 52 || f.a = 53 || f.a = 54),
      a := { code := f.a, n := 1, ok := packedFloatTag }, b := { code := f.b, n := 1, ok := fun ta t => t = ta, det := 1 },
      d := dst1 f.d } f.d 1 fun v =>
    let g := (v.a 0).tag.toNat
    let sh := tagShape g
    out1 (v.a 0).tag (packWith sh.2 sh.1 fun i => (maxMag g (elem v.A sh.2 i) (elem v.B sh.2 i), {})).1)

/-- R114: rounding m × 2^-k to an integer. The result is one of the two neighbours, exact exactly when the flag says so;
RNE takes the nearer, and of two equally near the even one; RZ the lower magnitude, RD and RU the one towards its side. -/
def Obligations.RoundingPicksTheRightNeighbour : Prop :=
  ∀ (mode : BitVec 2) (neg : Bool) (m k : Nat), let r := roundShift mode neg m k
    (r.2 = false ↔ r.1 * 2 ^ k = m) ∧
    (r.2 = true → (r.1 = m / 2 ^ k ∨ r.1 = m / 2 ^ k + 1)) ∧
    (r.2 = true → mode = 0 → (2 * (r.1 * 2 ^ k) ≤ 2 * m + 2 ^ k ∧ 2 * m ≤ 2 * (r.1 * 2 ^ k) + 2 ^ k) ∧
      (2 * (m % 2 ^ k) = 2 ^ k → r.1 % 2 = 0)) ∧
    (r.2 = true → mode = 1 → r.1 = m / 2 ^ k) ∧
    (r.2 = true → mode = 2 → r.1 = if neg then m / 2 ^ k + 1 else m / 2 ^ k) ∧
    (r.2 = true → mode = 3 → r.1 = if neg then m / 2 ^ k else m / 2 ^ k + 1)

/-! ## Across the threads of a home warp -/

/-- The word that MATCH delivers (R238) and the result of VOTE (R236), over the active threads of a home warp. -/
def activeOfHome (act : List Th) (t : Th) : List Th := act.filter fun u => u.wid = t.wid

/-- R235 to R238, R243, R245: SHFL, VOTE, IRED, MATCH, KRND and SCAN. SHFL completes when no register that it reads in
another thread waits for a load or is marked. -/
def Obligations.CrossLaneResults : Prop :=
  (∀ (f : V3) s act, s.gate (s.ctx (.shfl f))
      { q := f.q, ill := illOf false (3 < f.m.toNat), opd := opdV f.x [f.d, f.a, f.b] [f.d] [], a := srcAny f.a,
        b := srcAny f.b 1, d := dst1 f.d } = .go act →
    (∀ t ∈ act, s.busy (s.shflSrc (s.ctx (.shfl f)) f t) (s.dreg (s.ctx (.shfl f)) t f.a) = false ∧
      ((s.ctx (.shfl f)).trap = true ∨
        s.marked (s.shflSrc (s.ctx (.shfl f)) f t) (s.dreg (s.ctx (.shfl f)) t f.a) = false)) →
    ∃ t, exec (.shfl f) s = .next t ∧ Computes s t (s.ctx (.shfl f)) act f.d 1 fun th =>
      { regs := [s.shflRead (s.ctx (.shfl f)) th (s.shflSrc (s.ctx (.shfl f)) f th) f.a] }) ∧
  (∀ f : V3, GivesAll (.vote f)
    { q := f.q, ill := illOf (f.m ≠ 3 && hiBits f.a) (5 < f.m.toNat),
      opd := opdV f.x [f.d] [f.d] [] (f.m = 2 && f.d.toNat < 55), d := dst1 f.d } f.d 1 fun s _ act t =>
    let h := activeOfHome act t
    let yes := h.filter fun u => s.pred u (f.a.extractLsb' 0 4).toNat
    match f.m.toNat with
    | 0 => out1 1 (if yes = [] then 0 else 1)
    | 1 => out1 1 (if yes.length = h.length then 1 else 0)
    | 2 => out1 0 (maskOf (yes.map (·.lane)))
    | 3 => out1 1 (if h.head? = some t then 1 else 0)
    | 4 => out1 2 (BitVec.ofNat 32 yes.length)
    | _ => out1 2 (BitVec.ofNat 32 (yes.filter (·.lane < t.lane)).length)) ∧
  (∀ f, GivesAll (.ired f) (chk1 f none intTag) f.d 1 fun s c act t =>
    out1 1 (reduce f.m.toNat ((activeOfHome act t).map fun u => (s.src c u f.a 0).val))) ∧
  (∀ f, GivesAll (.matchLanes f) (chk1 f (illZero f.m 7) anyTag) f.d 1 fun s c act t =>
    let g := (activeOfHome act t).filter fun u => (s.src c u f.a 0).val = (s.src c t f.a 0).val
    out1 0 (BitVec.ofNat 32 (2048 * (g.filter (·.lane < t.lane)).length + 32 * g.length + ((g.head?.map (·.lane)).getD 0)))) ∧
  (∀ f : V3, GivesAll (.krnd f)
    { q := f.q, ill := illOf false (4 < f.m.toNat),
      opd := opdV f.x [f.d] [f.d] (if f.m.getLsbD 2 then [f.d] else []) (1 < f.b.toNat),
      d := { code := f.d, n := if f.m.getLsbD 2 then 2 else 1 } } f.d (if f.m.getLsbD 2 then 2 else 1) fun s _ _ t =>
    let r := (s.kacc t.wid f.b.toNat).deliver (f.m.getLsbD 2) (f.m.extractLsb' 0 2)
    if f.m.getLsbD 2 then out2 13 (BitVec.ofNat 64 r.1) r.2 else out1 3 (BitVec.ofNat 32 r.1) r.2) ∧
  (∀ f : V3, GivesAll (.scan f)
    { q := f.q, ill := illZero f.m 4, opd := opdV f.x [f.d, f.a] [f.d] [] (1 < f.b.toNat), a := srcF32 f.a, d := dst1 f.d }
    f.d 1 fun s c act t =>
    let xs := ((activeOfHome act t).filter (·.lane ≤ t.lane)).map fun u => val32 (s.src c u f.a 0).val
    let r := (scanSum (s.kacc t.wid f.b.toNat) xs).deliver false (f.m.extractLsb' 0 2)
    out1 3 (BitVec.ofNat 32 r.1) r.2)

/-! ## Exact accumulators -/

/-- The exact value of a finite term in units of 2^-320. -/
def termInt (x : FVal) : Int :=
  match x with
  | .fin .. => sumOn (-320) [x]
  | _ => 0

/-- R123, R124: adding terms gives the exact sum modulo 2^640, ORs the status bits, and sets ovf exactly when some partial
sum leaves the range. R126: an image read back is the accumulator. -/
def Obligations.AccumulatorsSumExactly : Prop :=
  (∀ (k : KAcc) (xs : List FVal), let r := xs.foldl KAcc.add k
    r.val = BitVec.ofInt 640 (k.int + (xs.map termInt).sum) ∧
    (r.st.getLsbD 1 = true ↔ k.st.getLsbD 1 = true ∨ FVal.inf false ∈ xs) ∧
    (r.st.getLsbD 2 = true ↔ k.st.getLsbD 2 = true ∨ FVal.inf true ∈ xs) ∧
    (r.st.getLsbD 3 = true ↔ k.st.getLsbD 3 = true ∨ FVal.nan ∈ xs) ∧
    (r.st.getLsbD 0 = true ↔ k.st.getLsbD 0 = true ∨
      ∃ j ≤ xs.length, let v := k.int + ((xs.take j).map termInt).sum; v < -(2 ^ 639) ∨ 2 ^ 639 ≤ v)) ∧
  ∀ k : KAcc, k.image.length = 96 ∧ KAcc.ofImage k.image = k

/-- Accumulator number n of each home warp with active threads has become what `sem` makes of those threads and of what it
held; every other accumulator and everything else is as it was. -/
def AccsBecome (n : BitVec 6) (sem : State → Ctx → List Th → KAcc → KAcc) (s : State) (c : Ctx) (act : List Th) (t : State) :
    Prop :=
  (∀ wid m, t.kacc wid m = if wid ∈ act.map (·.wid) ∧ m = n.toNat then sem s c (act.filter (·.wid = wid)) (s.kacc wid m)
    else s.kacc wid m) ∧
  GoesOn t c ∧ Leaves s t { warp := fun w => { w with ka := [] }, part := Part.frozen }

/-- The threads whose addresses an image access uses: the lowest active lane of each home warp, with its address. -/
def imageAt (s : State) (c : Ctx) (act : List Th) (code : BitVec 6) : List (Th × Nat) :=
  (act.filter (leads act)).map fun t => (t, (s.src c t code 0).val.toNat)

/-- No release of the active threads is still to be performed, nor recorded outside trap mode (R83, R84). -/
def noRelease (s : State) (c : Ctx) (act : List Th) : Prop :=
  ∀ t ∈ act, s.relPending t = false ∧ (c.trap = true ∨ s.relRecorded t = false)

/-- No acquire of the active threads is still to be performed or recorded (R83, R97). -/
def noAcquire (s : State) (c : Ctx) (act : List Th) : Prop :=
  ∀ t ∈ act, s.acqPending t = false ∧ (c.trap = true ∨ s.acqRecorded t = false)

/-- No image access of R244 traps, and none waits behind an acquire: aligned to 16, within the block's scratchpad, under no lid that bars it, and, for a read,
without an uncorrectable error. -/
def imagesFine (code : BitVec 6) (store : Bool) (s : State) (c : Ctx) (act : List Th) : Prop :=
  noAcquire s c act ∧ ∀ x ∈ imageAt s c act code, let bid := (s.warp x.1.wid).bid
    x.2 % 16 = 0 ∧ x.2 + 96 ≤ (s.block bid).zsize ∧ s.scratchLid bid x.2 96 (!store) = false ∧
    (store = true ∨ s.scratchUpset bid x.2 96 = false)

/-- R240 to R242, R244: KCLR, KADD, KMAD, KSAVE and KLOAD. -/
def Obligations.AccumulatorInstructions : Prop :=
  (∀ f : V3, Completes (.kclr f)
    { q := f.q, ill := illZero f.m 7, opd := oneOf [(0, decide (1 < f.d.toNat))], split := some 3 }
    (AccsBecome f.d fun _ _ _ _ => {})) ∧
  (∀ f : V3, Completes (.kadd f)
    { q := f.q, ill := illOf false (f.m = 7), opd := opdV f.x [f.a] [] [] (1 < f.d.toNat),
      a := { code := f.a, n := 1, ok := rawOr (kaddTag f.m.toNat) } }
    (AccsBecome f.d fun s c h k => (h.flatMap fun t => kaddTerms f.m.toNat (s.src c t f.a 0).val).foldl KAcc.add k)) ∧
  (∀ f : V3, Completes (.kmad f)
    { q := f.q, ill := illZero f.m 6, opd := opdV f.x [f.a, f.b] [] [] (1 < f.d.toNat), a := srcF32 f.a, b := srcF32 f.b 1 }
    (AccsBecome f.d fun s c h k => (h.map fun t =>
      let p := ((val32 (s.src c t f.a 0).val).mul (val32 (s.src c t f.b 0).val)).1
      if f.m.getLsbD 0 then p.neg else p).foldl KAcc.add k)) ∧
  (∀ f : V3, Performs (.ksave f)
    { q := f.q, ill := illZero f.m 7, opd := opdV f.x [f.a] [] [] (decide (1 < f.b.toNat) || f.a = 53), a := srcAny f.a }
    (imagesFine f.a true)
    fun s c act t =>
      ScratchIs s t ((imageAt s c act f.a).map fun x => ((s.warp x.1.wid).bid, x.2, (s.kacc x.1.wid f.b.toNat).image)) ∧
      GoesOn t c ∧ Leaves s t { block := Block.noScratch, part := Part.frozen, upset := Upset.inScratch }) ∧
  (∀ f : V3, Performs (.kload f)
    { q := f.q, ill := illZero f.m 6, opd := opdV f.x [f.a] [] [] (decide (1 < f.d.toNat) || f.a = 53), a := srcAny f.a,
      split := if f.m.getLsbD 0 then none else some 3 }
    (imagesFine f.a false)
    fun s c act t =>
      (∀ x ∈ imageAt s c act f.a, let im := KAcc.ofImage (s.rdScratch (s.warp x.1.wid).bid x.2 96)
        let k := s.kacc x.1.wid f.d.toNat
        if f.m.getLsbD 0 then
          (t.kacc x.1.wid f.d.toNat).val = k.val + im.val ∧
          (t.kacc x.1.wid f.d.toNat).st = k.st ||| im.st |||
            (if k.int + im.int < -(2 ^ 639) ∨ 2 ^ 639 ≤ k.int + im.int then 1 else 0)
        else t.kacc x.1.wid f.d.toNat = im) ∧
      (∀ wid m, wid ∉ act.map (·.wid) ∨ m ≠ f.d.toNat → t.kacc wid m = s.kacc wid m) ∧
      GoesOn t c ∧ Leaves s t { warp := fun w => { w with ka := [] }, part := Part.frozen })

/-! ## Memory instructions at issue -/

/-- The conditions under which a scratchpad access of some bytes at an address of a block goes on (R73, R74, R94, R433). -/
def scratchFine (s : State) (bid a n kind : Nat) : Prop :=
  a % n = 0 ∧ a + n ≤ (s.block bid).zsize ∧ s.scratchLid bid a n (kind = 0) = false ∧
  (kind = 1 ∨ s.scratchUpset bid a n = false)

/-- R18, R73, R74, R94, R202, R207: exactly when the checks that a memory instruction makes of its addresses let it go on,
and when nothing holds it at issue. -/
def Obligations.WhenAnAccessGoesOn : Prop :=
  (∀ (s : State) (l : List (Th × DWord)) (n : Nat) (atomic : Bool), s.globalBad l n atomic = none ↔
    ∀ x ∈ l, (s.warp x.1.wid).orphan = false ∧ (atomic = true → (s.warp x.1.wid).hyp.extractLsb' 0 8 = 0) ∧
      x.2.toNat % n = 0) ∧
  (∀ (s : State) (l : List (Th × DWord)) (n kind : Nat), s.scratchBad l n kind = none ↔
    ∀ x ∈ l, scratchFine s (s.warp x.1.wid).bid x.2.toNat n kind) ∧
  (∀ (s : State) (c : Ctx) (l : List (Th × DWord)) (n kind tgt : Nat) (code : BitVec 6),
    s.remoteBad c l n kind tgt code = none ↔
      ∀ x ∈ l, ∃ bid, s.targetOf c x.1 tgt code = .ok bid ∧ scratchFine s bid x.2.toNat n kind) ∧
  (∀ (s : State) (c : Ctx) (act : List Th) (ctr : Nat) (global rel : Bool), s.memHold c act ctr global rel = none ↔
    noAcquire s c act ∧
    (rel = true → (c.trap = true ∨ ∀ t ∈ act, (s.warp t.wid).faults = []) ∧ ∀ t ∈ act, s.quiet t = true) ∧
    (global = true → c.trap = true ∨ ∀ t ∈ act, (s.warp t.wid).faults.length < 8) ∧
    ∀ t ∈ act, s.counter t.wid ctr < counterMax ctr)

/-- R150, R202: which trap the address checks raise. A thread of an orphaned warp decides first, then an atomic under a
hypothesis, then alignment (for a scratchpad access alignment, then the bound); the trap names the first failing check, the
lowest failing lane's address, and exactly the lanes that fail that check. -/
def Obligations.AccessTrapsInOrder : Prop :=
  (∀ (s : State) (l : List (Th × DWord)) (n : Nat) (atomic : Bool),
    let orphans := l.filter fun x => (s.warp x.1.wid).orphan
    let hyps := l.filter fun x => atomic && (s.warp x.1.wid).hyp.extractLsb' 0 8 ≠ 0
    let odd := l.filter fun x => x.2.toNat % n ≠ 0
    (∀ x r, orphans = x :: r → s.globalBad l n atomic =
      some { cause := cz 0x28 0, tval := x.2, mask := orphans.map (·.1) }) ∧
    (∀ x r, orphans = [] → hyps = x :: r → s.globalBad l n atomic =
      some { cause := cz 0x2A 0, tval := x.2, mask := hyps.map (·.1) }) ∧
    (∀ x r, orphans = [] → hyps = [] → odd = x :: r → s.globalBad l n atomic =
      some { cause := cz 0x10 0, tval := x.2, mask := odd.map (·.1) })) ∧
  (∀ (s : State) (l : List (Th × DWord)) (n kind : Nat),
    let odd := l.filter fun x => x.2.toNat % n ≠ 0
    let out := l.filter fun x => (s.block (s.warp x.1.wid).bid).zsize < x.2.toNat + n
    (∀ x r, odd = x :: r → s.scratchBad l n kind = some { cause := cz 0x10 1, tval := x.2, mask := odd.map (·.1) }) ∧
    (∀ x r, odd = [] → out = x :: r → s.scratchBad l n kind =
      some { cause := cz 0x13 kind, tval := x.2, mask := out.map (·.1) })) ∧
  (∀ f : FM, Traps (.ld f) (chkLoad f (sizeBytes f.m) (illLoad f.m true) true)
    fun s c act => s.globalBad (s.laneAddrs f (sizeBytes f.m) true c act) (sizeBytes f.m) false) ∧
  (∀ f : FM, Traps (.st f) (chkStore f (sizeBytes f.m) (illStore f.m true) true)
    fun s c act => s.globalBad (s.laneAddrs f (sizeBytes f.m) true c act) (sizeBytes f.m) false) ∧
  (∀ f : FM, Traps (.lds f) (chkLoad f (sizeBytes f.m) (illLoad f.m false) false)
    fun s c act => s.scratchBad (s.laneAddrs f (sizeBytes f.m) false c act) (sizeBytes f.m) 0) ∧
  (∀ f : FM, Traps (.sts f) (chkStore f (sizeBytes f.m) (illStore f.m false) false)
    fun s c act => s.scratchBad (s.laneAddrs f (sizeBytes f.m) false c act) (sizeBytes f.m) 1)

/-- A load's access as it leaves. -/
def loadAccess (s : State) (c : Ctx) (act : List Th) (f : FM) (kind : AccKind) (n : Nat) (signed acq : Bool) (tag : BitVec 4)
    (x : Th × DWord) : Access :=
  { s.accOf c x.1 kind x.2 n f.m with
    dst := [(x.1.lane, s.loadDst c act x.1 f.d n)], destCode := f.d, tag := tag, signed := signed, acq := acq }

/-- No word of the L1 that some accesses would read holds an uncorrectable error (R435). -/
def noL1Upset (s : State) (l : List Access) : Prop :=
  ∀ a ∈ l, a.acq = true ∨ s.l1Upset a.core a.part a.asid a.va.toNat a.size = false

/-- Loads issued (R80, R199, R203): a load that the core's L1 holds whole, with no earlier access of its thread to a common
byte on its way, has written its registers; every other is on its way whole, and its registers wait for it; each home warp
counts the instruction once; no memory has changed. -/
structure LoadsIssued (s : State) (c : Ctx) (l : List Access) (t : State) : Prop where
  hits : ∀ a ∈ l, ∀ bs, s.loadLook a = some bs → ∀ d ∈ a.dst,
    HoldsWords t { wid := a.wid, lane := d.1 } d.2 (loadWords a.size a.signed bs) a.tag
  misses : ∀ a ∈ l, s.loadLook a = none →
    ∃ id iid, s.nextId ≤ id ∧ t.accs.find id = some { a with iid := iid, batch := s.nextId } ∧
      ∀ d ∈ a.dst, ∀ r ∈ d.2, t.busy { wid := a.wid, lane := d.1 } r = true
  counted : ∀ wid k, t.counter wid k = s.counter wid k +
    if k = 0 ∧ ∃ a ∈ l, a.wid = wid ∧ s.loadLook a = none then 1 else 0
  regs : OtherRegsKept s t ((l.filter fun a => (s.loadLook a).isSome).flatMap fun a =>
    a.dst.map fun d => ({ wid := a.wid, lane := d.1 }, d.2))
  goes : GoesOn t c
  leaves : Leaves s t { warp := Warp.noRegs, newId := fun k => s.nextId ≤ k
                        rest := fun x => { x with outst := [], nextId := 0 }, upset := Upset.inRegister }

/-- R203 to R205: LD, LDT and LDU. -/
def Obligations.GlobalLoads : Prop :=
  (∀ f : FM, let n := sizeBytes f.m
    Performs (.ld f) (chkLoad f n (illLoad f.m true) true)
      (fun s c act => s.globalBad (s.laneAddrs f n true c act) n false = none ∧ s.memHold c act 0 true false = none ∧
        noL1Upset s ((s.laneAddrs f n true c act).map (loadAccess s c act f .ld n (sizeSigned f.m) (f.m.getLsbD 3) 0)))
      fun s c act t => LoadsIssued s c
        ((s.laneAddrs f n true c act).map (loadAccess s c act f .ld n (sizeSigned f.m) (f.m.getLsbD 3) 0)) t) ∧
  (∀ f : FM, Performs (.ldt f) (chkLoad f 4 none true (f.m = 13 || f.m = 15))
    (fun s c act => s.globalBad (s.laneAddrs f 4 true c act) 4 false = none ∧ s.memHold c act 0 true false = none ∧
      noL1Upset s ((s.laneAddrs f 4 true c act).map (loadAccess s c act f .ldt 4 false false f.m)))
    fun s c act t => LoadsIssued s c ((s.laneAddrs f 4 true c act).map (loadAccess s c act f .ldt 4 false false f.m)) t) ∧
  (∀ f : FM, let n := sizeBytes f.m
    let accs := fun (s : State) (c : Ctx) (act : List Th) => (s.laneAddrs f n true c (act.filter (leads act))).map fun x =>
      { s.accOf c x.1 .ldu x.2 n f.m with
        lanes := lanesIn act x.1.wid
        dst := (act.filter fun u => u.wid = x.1.wid).map fun u => (u.lane, s.loadDst c act u f.d n)
        destCode := f.d, signed := sizeSigned f.m }
    Performs (.ldu f) (chkLoad f n (illLoad f.m false) true)
      (fun s c act => s.globalBad (s.laneAddrs f n true c (act.filter (leads act))) n false = none ∧
        s.memHold c act 0 true false = none ∧ noL1Upset s (accs s c act))
      fun s c act t => LoadsIssued s c (accs s c act) t)

/-- R78, R206: ST. Each active thread's store is on its way with its bytes, and a core's view of every byte that no store
covers is what it was; no frame, L2 line or L1 line has changed yet. -/
def Obligations.GlobalStores : Prop :=
  ∀ f : FM, let n := sizeBytes f.m
    Performs (.st f) (chkStore f n (illStore f.m true) true)
      (fun s c act => s.globalBad (s.laneAddrs f n true c act) n false = none ∧
        s.memHold c act 1 true (f.m.getLsbD 3) = none)
      fun s c act t =>
        Sent s c (some 1) ((s.laneAddrs f n true c act).map fun x =>
          { s.accOf c x.1 .st x.2 n f.m with data := s.dataBytes c x.1 f.d n, rel := f.m.getLsbD 3 }) t ∧
        (s.fresh → ∀ core p asid hid va, ¬ covers n (s.laneAddrs f n true c act) va →
          t.l1Byte core p asid hid va = s.l1Byte core p asid hid va)

/-- R91, R198, R203, R206: LDS and STS act on the block's scratchpad at issue. -/
def Obligations.ScratchLoadsAndStores : Prop :=
  (∀ f : FM, let n := sizeBytes f.m
    Performs (.lds f) (chkLoad f n (illLoad f.m false) false)
      (fun s c act => s.scratchBad (s.laneAddrs f n false c act) n 0 = none ∧ s.memHold c act 0 false false = none)
      fun s c act t =>
        (∀ x ∈ s.laneAddrs f n false c act, HoldsWords t x.1 (s.loadDst c act x.1 f.d n)
          (loadWords n (sizeSigned f.m) (s.rdScratch (s.warp x.1.wid).bid x.2.toNat n)) 0) ∧
        OtherRegsKept s t (act.map fun th => (th, s.loadDst c act th f.d n)) ∧
        GoesOn t c ∧ Leaves s t { warp := Warp.noRegs, upset := Upset.inRegister }) ∧
  (∀ f : FM, let n := sizeBytes f.m
    Performs (.sts f) (chkStore f n (illStore f.m false) false)
      (fun s c act => s.scratchBad (s.laneAddrs f n false c act) n 1 = none ∧ s.memHold c act 1 false false = none)
      fun s c act t =>
        ScratchIs s t ((s.laneAddrs f n false c act).map fun x =>
          ((s.warp x.1.wid).bid, x.2.toNat, s.dataBytes c x.1 f.d n)) ∧
        GoesOn t c ∧ Leaves s t { block := Block.noScratch, upset := Upset.inScratch })

/-- R92, R203, R206: LDN and STN are sent to the block that their target names. -/
def Obligations.RemoteLoadsAndStores : Prop :=
  (∀ f : FM, let n := sizeBytes f.m
    let tgt := remoteTgt f.x
    Performs (.ldn f)
      { q := f.q, ill := illOf (f.m.getLsbD 3) (f.m.extractLsb' 0 3 = 7) (4 < tgt), opd := remoteOpd f n true,
        a := srcAny f.base, more := rankOpd tgt (xc f.x), d := dataOpd f.d n }
      (fun s c act => s.remoteBad c (s.laneAddrs f n false c act) n 0 tgt (xc f.x) = none ∧
        s.memHold c act 0 false false = none)
      fun s c act t => ∃ target : Th → Nat, (∀ th ∈ act, s.targetOf c th tgt (xc f.x) = .ok (target th)) ∧
        Sent s c (some 0) ((s.laneAddrs f n false c act).map fun x =>
          { s.accOf c x.1 .ldn x.2 n f.m with
            target := target x.1, dst := [(x.1.lane, s.loadDst c act x.1 f.d n)], destCode := f.d,
            signed := sizeSigned f.m }) t) ∧
  (∀ f : FM, let n := sizeBytes f.m
    let tgt := remoteTgt f.x
    Performs (.stn f)
      { q := f.q, ill := illOf (f.m.getLsbD 3) ([1, 3, 7].contains (f.m.extractLsb' 0 3).toNat) (4 < tgt),
        opd := remoteOpd f n false, a := srcAny f.base, more := dataOpd f.d n :: rankOpd tgt (xc f.x) }
      (fun s c act => s.remoteBad c (s.laneAddrs f n false c act) n 1 tgt (xc f.x) = none ∧
        s.memHold c act 1 false false = none)
      fun s c act t => ∃ target : Th → Nat, (∀ th ∈ act, s.targetOf c th tgt (xc f.x) = .ok (target th)) ∧
        Sent s c (some 1) ((s.laneAddrs f n false c act).map fun x =>
          { s.accOf c x.1 .stn x.2 n f.m with target := target x.1, data := s.dataBytes c x.1 f.d n }) t)

/-- R83, R84: an atomic with an order waits: a release for its threads' accesses and records, an acquire for their
releases, outside trap mode also the recorded ones. -/
def orderFine (s : State) (c : Ctx) (act : List Th) (acq rel : Bool) : Prop :=
  (rel = true → s.releaseHold c act = none) ∧ (acq = true → noRelease s c act)

/-- R198, R208, R209: ATOM and ATOMN are sent; ATOMS acts at issue, thread after thread in lane order, each on the bytes that
the threads before it left, and delivers the old value. -/
def Obligations.Atomics : Prop :=
  (∀ f : FM, let n := atomSize (atomOp f.x)
    Performs (.atom f) (chkAtom f 14 true (f.x.extractLsb' 6 20 ≠ 0) false [])
      (fun s c act => s.globalBad (s.laneAddrs f n true c act) n true = none ∧
        s.memHold c act (atomCtr f) true (atomRel f.x) = none)
      fun s c act t => Sent s c (some (atomCtr f)) ((s.laneAddrs f n true c act).map (s.atomAcc c act f .atom)) t) ∧
  (∀ f : FM, let n := atomSize (atomOp f.x)
    Performs (.atoms f) (chkAtom f 13 false (f.x.extractLsb' 6 20 ≠ 0) false [])
      (fun s c act => s.scratchBad (s.laneAddrs f n false c act) n 2 = none ∧
        s.memHold c act (atomCtr f) false false = none ∧ orderFine s c act (atomAcq f.x) (atomRel f.x))
      fun s c act t => ∃ old : List DWord, old.length = act.length ∧
        let news := (s.laneAddrs f n false c act).zip old
        let writes := news.map fun y => ((s.warp y.1.1.wid).bid, y.1.2.toNat,
          natLe n (atomNew (atomOp f.x) y.2 (s.atomSrc c y.1.1 (xc f.x) n) (s.casPrior c y.1.1 f)).toNat)
        (∀ j y, news[j]? = some y → ∀ k < n, (natLe n y.2.toNat)[k]? =
          some ((lastWrite (writes.take j) (s.warp y.1.1.wid).bid (y.1.2.toNat + k)).getD
            (Memory.rd (s.block (s.warp y.1.1.wid).bid).scratch (y.1.2.toNat + k)))) ∧
        ScratchIs s t writes ∧
        (∀ y ∈ news, HoldsWords t y.1.1 (s.loadDst c act y.1.1 f.d n) (loadWords n false (natLe n y.2.toNat)) 0) ∧
        OtherRegsKept s t (act.map fun th => (th, s.loadDst c act th f.d n)) ∧
        GoesOn t c ∧
        Leaves s t { warp := Warp.noRegs, block := Block.noScratch
                     upset := fun u => Upset.inScratch u ∨ Upset.inRegister u
                     acc := fun a => some (if atomAcq f.x then { a with snap := [] } else a)
                     rest := fun x => if atomAcq f.x then { x with l1 := [] } else x }) ∧
  (∀ f : FM, let n := atomSize (atomOp f.x)
    let tgt := atomnTgt f.x
    Performs (.atomn f)
      (chkAtom f 13 false (f.x.extractLsb' 9 11 ≠ 0 || (tgt ≠ 4 && atomnRank f.x ≠ 0)) (4 < tgt)
        (if tgt = 4 then [atomnRank f.x] else []))
      (fun s c act => s.remoteBad c (s.laneAddrs f n false c act) n 2 tgt (atomnRank f.x) = none ∧
        s.memHold c act (atomCtr f) false false = none ∧ orderFine s c act (atomAcq f.x) (atomRel f.x))
      fun s c act t => ∃ target : Th → Nat, (∀ th ∈ act, s.targetOf c th tgt (atomnRank f.x) = .ok (target th)) ∧
        Sent s c (some (atomCtr f)) ((s.laneAddrs f n false c act).map fun x =>
          { s.atomAcc c act f .atomn x with target := target x.1 }) t)

/-- R210, R211: PREF and CWB send one access to the line of each active thread; PREF never traps after R150's step 4,
counts in no counter, and drops a thread whose address it cannot form; outside trap mode it waits for a place in the fault
list (R399). -/
def Obligations.PrefetchAndWriteBack : Prop :=
  (∀ (f : FM) (s : State), let c := s.ctx (.pref f)
    let k : Checks := { q := f.q, ill := illOf (f.m &&& 0xE ≠ 0) false, opd := memOpd f.x 52 f.base 1 false true,
                        a := { code := f.base, n := 2 } }
    k.static = none → s.waitsReg c k (s.active c f.q) = false →
    (c.trap = true ∨ ∀ th ∈ s.active c f.q, (s.warp th.wid).faults.length < 8) →
    ∃ t, exec (.pref f) s = .next t ∧
      Sent s c none (((s.active c f.q).filter fun th => (s.ixBad th k.a).isNone && !(s.warp th.wid).orphan &&
          !((s.regsOf c th k.a).any (s.marked th))).map fun th =>
        { s.accOf c th .pref (lineAddr (s.globalAddr c th f.base f.off 128)) 128 f.m with
          op := (f.m.getLsbD 0).toNat }) t) ∧
  (∀ f : V3, let addrs := fun (s : State) (c : Ctx) (act : List Th) =>
      act.map fun th => (th, (s.src c th f.a 1).val ++ (s.src c th f.a 0).val)
    Performs (.cwb f)
      { q := f.q, ill := illZero f.m 7, opd := opdV f.x [f.a] [] [f.a], a := { code := f.a, n := 2 } }
      (fun s c act => (∀ th ∈ act, (s.warp th.wid).orphan = false) ∧ s.memHold c act 1 true false = none)
      fun s c act t => Sent s c (some 1) ((addrs s c act).map fun x => s.accOf c x.1 .cwb (lineAddr x.2) 128 0) t)

/-! ## Fences, waits, barriers and completion tags -/

/-- What each kind of fence waits for, and that it found no engine error (R83, R84, R89, R252): 0 acquire, 1 release, 2 both,
3 the stream, 4 the engines. -/
def fenceFine (s : State) (c : Ctx) (act : List Th) (kind : Nat) : Prop :=
  let acq := noRelease s c act ∧ noAcquire s c act
  let rel := (c.trap = true ∨ ∀ t ∈ act, (s.warp t.wid).faults = []) ∧ ∀ t ∈ act, s.quiet t = true
  match kind with
  | 0 => acq
  | 1 => rel
  | 2 => rel ∧ acq
  | 3 => ∀ t ∈ act, s.remotePending t = false
  | _ => acq ∧ (∀ p ∈ s.ops, ∀ t ∈ act, p.2.wid = t.wid → p.2.st = .reading) ∧ ∀ e ∈ s.errs, ∀ t ∈ act, e.wid ≠ t.wid

/-- The bounds of a WAIT hold for a home warp's counters (R213): loads, stores, copies and tiles, each unless its field is all
ones. -/
def waitHolds (f : WT) (s : State) (trap : Bool) (wid : Nat) : Prop :=
  (f.l.toNat ≠ 63 → s.counterSeen trap wid 0 ≤ f.l.toNat) ∧ (f.s.toNat ≠ 63 → s.counterSeen trap wid 1 ≤ f.s.toNat) ∧
  (f.c.toNat ≠ 63 → s.counterSeen trap wid 2 ≤ f.c.toNat) ∧ (f.t.toNat ≠ 31 → s.counterSeen trap wid 3 ≤ f.t.toNat)

/-- R212, R213: FENCE and WAIT. A fence that acquires invalidates its cores' L1; a wait that is not met holds the unit where
it is. -/
def Obligations.FencesAndWaits : Prop :=
  (∀ f : V3, Performs (.fence f) { q := f.q, ill := illOf false (4 < f.m.toNat) }
    (fun s c act => fenceFine s c act f.m.toNat)
    fun s c act t =>
      if f.m.toNat = 1 ∨ f.m.toNat = 3 then GoesOn t c ∧ Leaves s t else AcquiresAndGoesOn s c act t) ∧
  (∀ f : WT, Performs (.wait f) { q := f.q } (fun s c act => ∀ th ∈ act, waitHolds f s c.trap th.wid)
    fun s c _ t => GoesOn t c ∧ Leaves s t) ∧
  (∀ (f : WT) s act, s.gate (s.ctx (.wait f)) { q := f.q } = .go act →
    (∃ th ∈ act, ¬ waitHolds f s (s.ctx (.wait f)).trap th.wid) →
    ((s.ctx (.wait f)).trap = true ∨ s.unitRecords (s.ctx (.wait f)).u = []) →
    ∃ t, exec (.wait f) s = .next t ∧ Stays s (s.ctx (.wait f)) .waiting t)

/-- A thread waits in a barrier at a generation: `.atBar` its block's, `.atGbar` its gang's. -/
def waitsAt (s : State) (st : GroupSt) (gen wid lane : Nat) : Prop :=
  ∃ g ∈ (s.warp wid).groups, g.st = st ∧ g.gen = gen ∧ g.lanes.getLsbD lane = true

/-- A barrier over some blocks, at a generation, has completed: no thread of the blocks waits in it any more, and every live
thread of theirs had arrived, in this unit or before it. -/
def barrierDone (s t : State) (u : IssueUnit) (st : GroupSt) (gen : Nat) (bids : List Nat) : Prop :=
  (∀ wid w, t.warps.find wid = some w → w.bid ∈ bids → ∀ g ∈ w.groups, g.st ≠ st) ∧
  ∀ wid w, s.warps.find wid = some w → w.bid ∈ bids → ∀ lane, w.live.getLsbD lane = true →
    s.inUnit u wid lane ∨ waitsAt s st gen wid lane

/-- What a barrier may change beside the groups of warps: generations, and by its acquire the L1 (R83). -/
def barrierFrame : MayChange :=
  { block := fun b => { b with barGen := 0 }, gang := fun g => { g with gbarGen := 0 }
    acc := fun a => some { a with snap := [] }, rest := fun x => { x with l1 := [] } }

/-- A unit has arrived at its block's barrier (R47). -/
def arrivedAtBar (s : State) (c : Ctx) (_ : List Th) (t : State) : Prop :=
  GoesOn t c ∧ Leaves s t barrierFrame ∧
  ∀ th ∈ c.u.th, let b := (s.warp th.wid).bid
    waitsAt t .atBar (s.block b).barGen th.wid th.lane ∨
    barrierDone s t c.u .atBar (s.block b).barGen [b] ∧
      (s.blocks.find b ≠ none → (t.block b).barGen = (s.block b).barGen + 1)

/-- The trap of BAR and GBAR in trap mode (R214). -/
def barTrap (_ : State) (c : Ctx) (act : List Th) : Option Trap :=
  if c.trap then some { cause := cz 0x24 3, tval := c.tval, mask := act } else none

/-- R47, R48, R214: BAR and GBAR. Outside trap mode, and once nothing of its threads is on its way, the unit arrives: it
stands past the instruction, and each of its threads either waits in the barrier, or the barrier has completed, which it does
only when every live thread of the block (of the gang's blocks) has arrived. In a gang of one block a GBAR is a BAR. In trap
mode they trap. -/
def Obligations.Barriers : Prop :=
  (∀ f : V3, let k : Checks := { q := f.q, ill := illOf (f.q ≠ 0 || f.m ≠ 0) false }
    Performs (.bar f) k (fun s c act => c.trap = false ∧ s.releaseHold c act = none) arrivedAtBar ∧
    Traps (.bar f) k barTrap) ∧
  (∀ f : V3, let k : Checks := { q := f.q, ill := illOf (f.q ≠ 0 || f.m ≠ 0) false }
    Performs (.gbar f) k (fun s c act => c.trap = false ∧ s.releaseHold c act = none ∧
      ∀ th ∈ c.u.th, (s.gang (s.block (s.warp th.wid).bid).gid).bids.length ≤ 1) arrivedAtBar ∧
    Performs (.gbar f) k (fun s c act => c.trap = false ∧ s.releaseHold c act = none ∧
      ∃ th ∈ c.u.th, 1 < (s.gang (s.block (s.warp th.wid).bid).gid).bids.length)
      (fun s c _ t => GoesOn t c ∧ Leaves s t barrierFrame ∧
        ∀ th ∈ c.u.th, let b := (s.warp th.wid).bid
          waitsAt t .atGbar (s.gang (s.block b).gid).gbarGen th.wid th.lane ∨
          ∃ g, b ∈ (s.gang g).bids ∧ barrierDone s t c.u .atGbar (s.gang g).gbarGen (s.gang g).bids ∧
            (s.gangs.find g ≠ none → (t.gang g).gbarGen = (s.gang g).gbarGen + 1)) ∧
    Traps (.gbar f) k barTrap)

/-- The checks of PHARR and PHWAIT. -/
def phaseChecks (f : V3) (ill : Option Nat) (b : Opd) : Checks :=
  { q := f.q, ill := ill, opd := opdV f.x [f.a, f.b] [] [], a := srcAny f.a, b := b }

/-- R49, R215 to R217: PHARR and PHWAIT. Every word that active threads name gets one update: their number of arrivals and
the sum of the bytes they announce, then it completes if it is ready; a wait whose epochs have passed acquires and goes on, and
one whose epoch has not passed stays. -/
def Obligations.PhaseBarriers : Prop :=
  (∀ f : V3, Performs (.pharr f) (phaseChecks f (illZero f.m 6) (srcInt f.b 1))
    (fun s c act => s.phaseTrap c true (s.phaseWords c act f.a) = none ∧ noAcquire s c act ∧
      (f.m.getLsbD 0 = true → s.releaseHold c act = none) ∧ ∀ t ∈ act, ∀ u ∈ act, (s.warp t.wid).bid = (s.warp u.wid).bid)
    fun s c act t =>
      (∀ th ∈ act, let w := s.barAddr c th f.a
        let here := act.filter fun u => s.barAddr c u f.a = w
        t.phaseBar (s.warp th.wid).bid w =
          (((s.phaseBar (s.warp th.wid).bid w).arrive here.length
            ((here.map fun u => (s.src c u f.b 0).val.toNat).foldl (· + ·) 0)).settle).1) ∧
      (∀ bid a, (∀ th ∈ act, (s.warp th.wid).bid = bid → ¬ (s.barAddr c th f.a ≤ a ∧ a < s.barAddr c th f.a + 16)) →
        Memory.rd (t.block bid).scratch a = Memory.rd (s.block bid).scratch a) ∧
      GoesOn t c ∧ Leaves s t { warp := fun w => { w with latch := 0 }, block := Block.noScratch, upset := Upset.inScratch }) ∧
  (∀ f : V3, Performs (.phwait f) (phaseChecks f (illZero f.m 7) (srcAny f.b))
    (fun s c act => s.phaseTrap c false (s.phaseWords c act f.a) = none ∧
      (∀ th ∈ act, let d := ((s.phaseBar (s.warp th.wid).bid (s.barAddr c th f.a)).epoch + 2 ^ 16 -
          (s.src c th f.b 0).val.toNat % 2 ^ 16) % 2 ^ 16
        1 ≤ d ∧ d ≤ 2 ^ 15) ∧ noRelease s c act ∧ noAcquire s c act)
    AcquiresAndGoesOn) ∧
  (∀ (f : V3) s act, s.gate (s.ctx (.phwait f)) (phaseChecks f (illZero f.m 7) (srcAny f.b)) = .go act →
    s.phaseTrap (s.ctx (.phwait f)) false (s.phaseWords (s.ctx (.phwait f)) act f.a) = none →
    noAcquire s (s.ctx (.phwait f)) act → (∃ th ∈ act, (s.phaseBar (s.warp th.wid).bid (s.barAddr (s.ctx (.phwait f)) th f.a)).epoch =
      (s.src (s.ctx (.phwait f)) th f.b 0).val.toNat % 2 ^ 16) →
    ∃ t, exec (.phwait f) s = .next t ∧ Stays s (s.ctx (.phwait f)) .blocked t)

/-- What TANY and TFIND report (R220): the lowest complete tag of the mask, 256 more when it failed; 64 when none is. -/
def tagFound (complete fail mask : DWord) (r : Nat) : Prop :=
  (r = 64 ∧ complete &&& mask = 0) ∨
  ∃ i < 64, (complete &&& mask).getLsbD i = true ∧ (∀ j < i, (complete &&& mask).getLsbD j = false) ∧
    r = i + if fail.getLsbD i then 256 else 0

/-- R218 to R221: TWAIT, TANY, TFIND and TCLR. -/
def Obligations.CompletionTags : Prop :=
  (∀ f : V3, Performs (.twait f)
    { q := f.q, ill := illZero f.m 7, opd := opdV f.x [f.d, f.a] [f.d] [f.d, f.a], a := maskOpd f.a, d := dst2 f.d }
    (fun s c act => (∀ th ∈ act, s.maskOp c th f.a &&& ~~~(s.tagsOf th).1 = 0) ∧
      (∀ e ∈ s.errs, ∀ th ∈ act, s.seesTag c f.a th e = false) ∧
      let named := act.filter fun th => s.maskOp c th f.a ≠ 0
      noRelease s c named ∧ noAcquire s c named)
    fun s c act t => ∃ m, Acquired s (s.homeCores (act.filter fun th => s.maskOp c th f.a ≠ 0)) m ∧
      Computes m t c act f.d 2 fun th => out2 0 ((s.tagsOf th).2 &&& s.maskOp c th f.a)) ∧
  (∀ f : V3, Performs (.tany f) (chkFind f)
    (fun s c act => (∀ th ∈ act, s.maskOp c th f.a = 0 ∨ (s.tagsOf th).1 &&& s.maskOp c th f.a ≠ 0) ∧
      (∀ e ∈ s.errs, ∀ th ∈ act, s.seesTag c f.a th e = false) ∧
      let named := act.filter fun th => s.maskOp c th f.a ≠ 0
      noRelease s c named ∧ noAcquire s c named)
    fun s c act t => ∃ (m : State) (r : Th → Nat), Acquired s (s.homeCores (act.filter fun th => s.maskOp c th f.a ≠ 0)) m ∧
      (∀ th ∈ act, tagFound (s.tagsOf th).1 (s.tagsOf th).2 (s.maskOp c th f.a) (r th)) ∧
      Computes m t c act f.d 1 fun th => out1 2 (BitVec.ofNat 32 (r th))) ∧
  (∀ f : V3, Completes (.tfind f) (chkFind f) fun s c act t => ∃ r : Th → Nat,
    (∀ th ∈ act, tagFound (s.tagsOf th).1 (s.tagsOf th).2 (s.maskOp c th f.a) (r th)) ∧
    Computes s t c act f.d 1 fun th => out1 2 (BitVec.ofNat 32 (r th))) ∧
  (∀ f : V3, let k : Checks := { q := f.q, ill := illZero f.m 7, opd := opdV f.x [f.a] [] [f.a], a := maskOpd f.a }
    let union := fun (s : State) (c : Ctx) (act : List Th) => (act.map fun th => s.maskOp c th f.a).foldl (· ||| ·) 0
    Performs (.tclr f) k
      (fun s c act => ∃ core, (∀ th ∈ act, (s.warp th.wid).core = core) ∧
        union s c act &&& ~~~(s.coreRegs core).tagmap = 0)
      (fun s c act t => (∀ th ∈ act, (t.coreRegs (s.warp th.wid).core).tagfail =
          (s.coreRegs (s.warp th.wid).core).tagfail &&& ~~~(union s c act)) ∧
        (∀ core, core ∉ s.homeCores act → t.coreRegs core = s.coreRegs core) ∧
        GoesOn t c ∧ Leaves s t { core := fun r => { r with tagfail := 0 } }) ∧
    Traps (.tclr f) k fun s c act => act.head?.bind fun th =>
      let busy := union s c act &&& ~~~(s.tagsOf th).1
      if busy = 0 then none else some { cause := cz 0x23 0, tval := busy, mask := act })

/-! ## Control flow -/

/-- A thread may land at an address (R141, R222): aligned, fetchable, and a clause header. -/
def canLand (s : State) (th : Th) (a : DWord) : Prop :=
  a.extractLsb' 0 2 = 0 ∧ ∃ w, s.fetch (s.partOf th.wid) (s.asidOf th.wid) a = .ok w ∧ w.extractLsb' 28 4 = 0xF

/-- A thread lands at an address at once: it may, and no flip of the bias of the address's page runs (R100, R389). -/
def landsNow (s : State) (th : Th) (a : DWord) : Prop :=
  canLand s th a ∧ s.flipping (s.partOf th.wid) (s.asidOf th.wid) a = false

/-- Every thread of the unit has moved at once (R224): those of a list to the header of their target at a call depth, the
others to the next word. -/
def Moved (c : Ctx) (l : List (Th × DWord)) (depth : Nat) (t : State) : Prop :=
  ∀ th ∈ c.u.th, (∀ a, (th, a) ∈ l → t.At th (atHeader a depth)) ∧
    ((∀ a, (th, a) ∉ l) → t.At th (fallThrough c.u c.len))

/-- Branches are taken (R37, R224, R225): the threads move, and a thread whose target leaves the body of a level active for it
at its call depth leaves that level and the higher ones. -/
def Branches (s : State) (c : Ctx) (l : List (Th × DWord)) (t : State) : Prop :=
  Moved c l c.u.depth t ∧
  (∀ th k, t.levelOn th k = true ↔ s.levelOn th k = true ∧ ¬ ∃ a lo, (th, a) ∈ l ∧ lo ≤ k ∧ lo < 3 ∧
    s.levelOn th lo = true ∧ (s.frame th.wid lo).depth = c.u.depth ∧
    ¬ ((s.frame th.wid lo).start.toNat ≤ a.toNat ∧ a.toNat < (s.frame th.wid lo).endAt.toNat)) ∧
  Leaves s t { warp := Warp.noLevels }

/-- The targets of BRA and CALL (R222): the word's own address and four times the offset. -/
def relative (f : FJ) (c : Ctx) (act : List Th) : List (Th × DWord) :=
  act.map fun th => (th, c.u.pc + f.off.signExtend 64 * 4)

/-- The targets of BRX and CALLX: the pair a. -/
def indirect (f : V3) (s : State) (c : Ctx) (act : List Th) : List (Th × DWord) :=
  act.map fun th => (th, (s.src c th f.a 1).val ++ (s.src c th f.a 0).val)

/-- The checks of JTAB. -/
def jtabChecks (f : V3) : Checks :=
  { q := f.q, ill := illZero f.m 7,
    opd := opdX f.x [f.a] [] (ownPair (pairTgt (xc f.x)) (xc f.x)) (f.x.extractLsb' 16 10 ≠ 0) (pairTgt (xc f.x)),
    a := srcAny f.a, b := { code := xc f.x, n := 2 } }

/-- R222 to R226: BRA, BRX and JTAB. A JTAB first sends the fetch of each thread's entry (a thread whose index is not below
the count goes on with the next word); once every entry is there, the threads move by their entries. -/
def Obligations.Branching : Prop :=
  (∀ f : FJ, Performs (.bra f) { q := f.q } (fun s c act => ∀ x ∈ relative f c act, landsNow s x.1 x.2)
    fun s c act t => Branches s c (relative f c act) t) ∧
  (∀ f : V3, Performs (.brx f) (chkTgt f) (fun s c act => ∀ x ∈ indirect f s c act, landsNow s x.1 x.2)
    fun s c act t => Branches s c (indirect f s c act) t) ∧
  (∀ (f : V3) (off : Th → Word), Performs (.jtab f) (jtabChecks f)
    (fun s c act => ∀ x ∈ s.jtabEntries c act f,
      (∃ a, s.jtabAcc x.1 = some a ∧ a.st = .answered ∧ off x.1 = BitVec.ofNat 32 (leNat a.data)) ∧
      landsNow (s.jtabDrop c.u.th) x.1 (x.2.1 + (off x.1).signExtend 64 * 4))
    fun s c act t => Branches (s.jtabDrop c.u.th) c
      ((s.jtabEntries c act f).map fun x => (x.1, x.2.1 + (off x.1).signExtend 64 * 4)) t) ∧
  (∀ f : V3, Performs (.jtab f) (jtabChecks f)
    (fun s c act => noAcquire s c act ∧ s.jtabEntries c act f ≠ [] ∧ ∀ x ∈ s.jtabEntries c act f, s.jtabAcc x.1 = none ∧
      (s.jtabSend c x).st = .sent)
    fun s c act t => (∀ x ∈ s.jtabEntries c act f, ∃ a, t.jtabAcc x.1 = some a ∧ a.va = x.2.2 ∧ a.size = 4) ∧
      (∀ th ∈ c.u.th, ∀ tg, s.At th tg → t.At th tg) ∧
      (∀ wid k, t.counter wid k = s.counter wid k) ∧
      Leaves s t { newId := fun k => s.nextId ≤ k, rest := fun x => { x with nextId := 0 } })

/-- The conditions of a push (R227): a call depth below 31, and eight bytes under the stack pointer that lie in the thread's
stack and under no lid. -/
def canPush (s : State) (c : Ctx) (th : Th) : Prop :=
  let a := s.spReg th - 8
  let bid := (s.warp th.wid).bid
  c.u.depth ≠ 31 ∧ s.stackBase th + 8 ≤ (s.spReg th).toNat ∧ a.toNat % 8 = 0 ∧ a.toNat + 8 ≤ (s.block bid).zsize ∧
  s.scratchLid bid a.toNat 8 false = false

/-- The conditions of a pop (R228). -/
def canPop (s : State) (c : Ctx) (th : Th) : Prop :=
  let a := (s.spReg th).toNat
  let bid := (s.warp th.wid).bid
  c.u.depth ≠ 0 ∧ a % 8 = 0 ∧ a + 8 ≤ s.stackTop th ∧ s.scratchLid bid a 8 true = false ∧ s.scratchUpset bid a 8 = false

/-- A call (R227): each active thread's return address, the next word's, is at its new stack pointer, eight lower, and the
thread is at its target one call deeper. -/
def Calls (s : State) (c : Ctx) (act : List Th) (l : List (Th × DWord)) (t : State) : Prop :=
  ScratchIs s t (act.map fun th => ((s.warp th.wid).bid, (s.spReg th - 8).toNat,
    natLe 8 ((fallThrough c.u c.len).pc.toNat % 2 ^ 52))) ∧
  (∀ th, t.spReg th = if th ∈ act then s.spReg th - 8 else s.spReg th) ∧
  Moved c l (c.u.depth + 1) t ∧
  Leaves s t { warp := fun w => { w with sp := [] }, block := Block.noScratch, upset := Upset.inScratch }

/-- R227, R228: CALL, CALLX and RET. -/
def Obligations.CallsAndReturns : Prop :=
  (∀ f : FJ, Performs (.call f) { q := f.q }
    (fun s c act => noAcquire s c act ∧ (∀ th ∈ act, canPush s c th) ∧ ∀ x ∈ relative f c act, landsNow s x.1 x.2)
    fun s c act t => Calls s c act (relative f c act) t) ∧
  (∀ f : V3, Performs (.callx f) (chkTgt f)
    (fun s c act => noAcquire s c act ∧ (∀ th ∈ act, canPush s c th) ∧ ∀ x ∈ indirect f s c act, landsNow s x.1 x.2)
    fun s c act t => Calls s c act (indirect f s c act) t) ∧
  (∀ f : V3, let back := fun (s : State) (act : List Th) =>
      act.map fun th => (th, BitVec.ofNat 64 (leNat (s.rdScratch (s.warp th.wid).bid (s.spReg th).toNat 8)))
    Performs (.ret f) { q := f.q, ill := illZero f.m 7 }
      (fun s c act => noAcquire s c act ∧ (∀ th ∈ act, canPop s c th) ∧ ∀ x ∈ back s act, landsNow s x.1 x.2)
      fun s c act t => Moved c (back s act) (c.u.depth - 1) t ∧
        (∀ th, t.spReg th = if th ∈ act then s.spReg th + 8 else s.spReg th) ∧
        Leaves s t { warp := fun w => { w with sp := [] } })

/-- A LOOP may begin for a thread of the unit (R38): no level from its own up is active for the thread, the body lies in those
of its active levels below, and a level that other threads have active has the same body start and depth. -/
def canLoop (s : State) (c : Ctx) (act : List Th) (lvl : Nat) (start end_ : DWord) (th : Th) : Prop :=
  (∀ k < 3, lvl ≤ k → s.levelOn th k = false) ∧
  (∀ k < 3, k < lvl → s.levelOn th k = true →
    (s.frame th.wid k).start.toNat ≤ start.toNat ∧ end_.toNat ≤ (s.frame th.wid k).endAt.toNat) ∧
  (th ∈ act → (∀ l < 32, l ≠ th.lane → (s.frame th.wid lvl).active.getLsbD l = false) ∨
    (s.frame th.wid lvl).start = start ∧ (s.frame th.wid lvl).depth = c.u.depth)

/-- R35 to R38, R229, R230: LOOP, BRK, and what the end of a body does. -/
def Obligations.Loops : Prop :=
  (∀ f : FL, let lvl := f.lvl.toNat
    let start := fun (c : Ctx) => clauseEnd c.u.hdr c.u.hw
    let stop := fun (c : Ctx) => clauseEnd c.u.hdr c.u.hw + BitVec.ofNat 64 (4 * f.len.toNat)
    let cnt := fun (s : State) (c : Ctx) (th : Th) => (s.src c th f.cnt 0).val
    Performs (.loop f)
      { q := f.q, ill := illOf (f.f7 ≠ 0) (f.lvl = 3 || f.len = 0), opd := opdV f.x [f.cnt] [] [], a := srcInt f.cnt }
      (fun s c act => (∀ th ∈ c.u.th, canLoop s c act lvl (start c) (stop c) th) ∧
        ∀ th ∈ act, landsNow s th (start c) ∧ landsNow s th (stop c))
      fun s c act t =>
        Moved c (act.map fun th => (th, if cnt s c th = 0 then stop c else start c)) c.u.depth t ∧
        (∀ th ∈ act, t.lcReg th lvl = cnt s c th) ∧
        (∀ th k, th.lane < 32 → k < 4 → th ∉ act ∨ k ≠ lvl → t.lcReg th k = s.lcReg th k) ∧
        (∀ th k, t.levelOn th k = true ↔ s.levelOn th k = true ∨ (th ∈ act ∧ k = lvl ∧ cnt s c th ≠ 0)) ∧
        (∀ th ∈ act, (t.frame th.wid lvl).start = start c ∧ (t.frame th.wid lvl).depth = c.u.depth ∧
          ((s.frame th.wid lvl).active = 0 → (t.frame th.wid lvl).len = f.len.toNat)) ∧
        (∀ wid k, k ≠ lvl → t.frame wid k = s.frame wid k) ∧
        Leaves s t { warp := fun w => { w with lc := [], frames := [] } }) ∧
  (∀ f : V3, let lvl := (f.m.extractLsb' 0 2).toNat
    Performs (.brk f) { q := f.q, ill := illOf (f.m.getLsbD 2) (lvl = 3) }
      (fun s c act => ∀ th ∈ act, s.levelOn th lvl = true ∧ (s.frame th.wid lvl).depth = c.u.depth)
      fun s c act t => Moved c (act.map fun th => (th, (s.frame th.wid lvl).endAt)) c.u.depth t ∧
        (∀ th k, t.levelOn th k = true ↔ s.levelOn th k = true ∧ ¬ (th ∈ act ∧ lvl ≤ k)) ∧
        Leaves s t { warp := Warp.noLevels }) ∧
  (∀ s : State, let u := s.unit
    (∀ th ∈ u.th, ∀ l, s.bodyEnd u th = some (l, true) → landsNow s th (s.frame th.wid l).start) →
    ∃ t, exec .loopEndOfBody s = .next t ∧
      (∀ th ∈ u.th, ∀ l again, s.bodyEnd u th = some (l, again) →
        t.lcReg th l = (if s.lcReg th l = 0 then 0 else s.lcReg th l - 1) ∧ t.levelOn th l = again ∧
        (again = true → t.At th (atHeader (s.frame th.wid l).start u.depth))) ∧
      ((∀ th ∈ u.th, ∀ l, s.bodyEnd u th ≠ some (l, true)) → ∀ th tg, s.At th tg → t.At th tg) ∧
      Leaves s t { warp := fun w => { w.noLevels with lc := [] } })

/-- What an EXIT may change beside its lanes: a barrier that it completes, and in trap mode the warp's fault records. -/
def exitFrame (trap : Bool) : MayChange :=
  { barrierFrame with
    warp := fun w => { w.noLevels with
      exited := 0, trapSet := 0, faults := if trap then [] else w.faults, aside := if trap then [] else w.aside,
      wdogPark := !trap && w.wdogPark, deliv := if trap then none else w.deliv }
    rest := fun x => { x with l1 := [], outst := if trap then [] else x.outst } }

/-- R22, R231, R232: EXIT and YIELD. The active threads leave their warps' groups for good; the others go on and nothing else
changes, where no unit waits to enter its handler once these threads have left trap mode (R59). A YIELD goes on, and its core's
next choice passes the unit over. -/
def Obligations.ExitAndYield : Prop :=
  (∀ f : V3, Performs (.exitThread f) { q := f.q, ill := illZero f.m 7 }
    (fun s c act => c.trap = true ∨
      ∀ th ∈ act, ∀ r ∈ (s.warp th.wid).faults, r.lanes.getLsbD th.lane = false)
    fun s c act t =>
      (∀ th ∈ act, (t.warp th.wid).exited.getLsbD th.lane = true ∧
        ∀ g ∈ (t.warp th.wid).groups, g.lanes.getLsbD th.lane = false) ∧
      (∀ wid lane, { wid := wid, lane := lane : Th } ∉ act →
        (t.warp wid).exited.getLsbD lane = (s.warp wid).exited.getLsbD lane) ∧
      ((c.trap = true → ∀ th ∈ act, (s.warp th.wid).heldTraps = []) →
        (∀ th ∈ c.u.th, th ∉ act → t.At th (fallThrough c.u c.len)) ∧ Leaves s t (exitFrame c.trap))) ∧
  (∀ f : V3, Completes (.yield f) { q := f.q, ill := illZero f.m 7 } fun s c _ t =>
    let core := (s.warp s.focus.wid).core
    GoesOn t c ∧ (t.coreRegs core).yielded = (s.focus, false) :: (s.coreRegs core).yielded ∧
    Leaves s t { core := fun r => { r with yielded := [] } })

/-! ## Traps -/

/-- What a warp in trap mode has saved (R63, R68, R396, R397): cause, value, lane mask, where its threads were and under which
header word, the record's address and number, and in trap-scratch registers 0 and 1 the frame's address and size. -/
def TrapSaved (s : State) (wid : Nat) (lanes : Word) (tr : Trap) (at_ : Tgt) (hw : Word) (mix : Bool) (w : Warp) : Prop :=
  w.trapSet = lanes ∧ w.tcause = BitVec.ofNat 32 tr.cause ∧ w.tval = tr.tval ∧ w.tmask = lanesIn tr.mask wid ∧
  w.tpc = at_.pc ∧ w.tkept = some (at_.hdr, hw) ∧ w.trec = tr.trec ∧ w.deliv = tr.deliv ∧
  w.tstat = tstatOf tr.recorded mix at_.depth lanes ∧
  w.k.getD 0 {} = { val := BitVec.ofNat 32 (s.frameAt wid) } ∧
  w.k.getD 1 {} = { val := BitVec.ofNat 32 (s.block (s.warp wid).bid).frame }

/-- What a trap entry may change: its warp, and the table fetches of its lanes, which it gives up (R226). -/
def trapFrame : MayChange :=
  { warp := Warp.noTrap, acc := fun _ => none }

/-- No lane of a unit has an engine operation that its ENG has not issued completely (R247). -/
def noneAtIssue (s : State) (wid : Nat) (lanes : Word) : Prop :=
  ∀ p ∈ s.ops, p.2.wid = wid → lanes.getLsbD p.2.lane = true → p.2.atIssue = false

/-- The operations at issue of some lanes have been taken back, and no other (log entry 93). -/
def TookBack (s : State) (wid : Nat) (lanes : Word) (t : State) : Prop :=
  (∀ p ∈ t.ops, p ∈ s.ops ∧ (p.2.wid = wid → lanes.getLsbD p.2.lane = true → p.2.atIssue = false)) ∧
  ∀ p ∈ s.ops, (∀ q ∈ s.ops, q.1 = p.1 → q.2.wid = wid → lanes.getLsbD q.2.lane = true → q.2.atIssue = false) → p ∈ t.ops

/-- No access has gone but table fetches, and none has come. -/
def AccessesKept (s t : State) : Prop := (∀ p ∈ t.accs, p ∈ s.accs) ∧ ∀ p ∈ s.accs, p.2.kind ≠ .jtab → p ∈ t.accs

/-- R33, R59, R396 to R398, R469: taking a trap. A part of a unit whose warp is not in trap mode enters the handler of the
cause's class, 64 bytes apart from the partition's trap base, with everything saved; where no header can be fetched there it
parks under WATCHDOG detail 2. A part of the trap-mode set parks under WATCHDOG detail 0, with `%tpc`, `%tmask` and `%trec` as
they were. A part beside a trap-mode set of its warp waits with its trap as it is; an ENG that the part was issuing begins
again. -/
def Obligations.TakingATrap : Prop :=
  ∀ (s : State) (wid k : Nat) (tr : Trap) (at_ : Tgt) (hw : Word) (mix : Bool) (skip : Nat), s.warps.find wid ≠ none →
    let lanes := (s.warp wid).sliverLanes k
    let entry := (s.part (s.partOf wid)).trapbase + BitVec.ofNat 64 (tr.cause / 8 * 64)
    let t := s.enterTrap wid k tr at_ hw mix skip
    ((s.warp wid).trapSet = 0 → canLand s { wid := wid, lane := 0 } entry →
      TrapSaved s wid lanes tr at_ hw mix (t.warp wid) ∧
      (∀ g ∈ (t.warp wid).groups, g.pos = 0 → g.sliver = k →
        g.pc = entry ∧ g.hdr = entry ∧ g.st = .running) ∧
      AccessesKept s t ∧ TookBack s wid lanes t ∧ (noneAtIssue s wid lanes → Leaves s t trapFrame)) ∧
    ((s.warp wid).trapSet = 0 → ¬ canLand s { wid := wid, lane := 0 } entry →
      (t.warp wid).tcause = BitVec.ofNat 32 (cz 0x3A 2) ∧ (t.warp wid).tval = BitVec.ofNat 64 tr.cause ∧
      (t.warp wid).wdogPark = true ∧ (t.warp wid).tpc = at_.pc ∧
      ∀ g ∈ (t.warp wid).groups, g.pos = 0 → g.sliver = k → g.st = .parked) ∧
    ((s.warp wid).trapSet &&& lanes ≠ 0 →
      (t.warp wid).tcause = BitVec.ofNat 32 (cz 0x3A 0) ∧ (t.warp wid).tval = BitVec.ofNat 64 tr.cause ∧
      (t.warp wid).wdogPark = true ∧ (t.warp wid).tpc = (s.warp wid).tpc ∧ (t.warp wid).tmask = (s.warp wid).tmask ∧
      (t.warp wid).trec = (s.warp wid).trec ∧ (t.warp wid).trapSet = (s.warp wid).trapSet ∧
      ∀ g ∈ (t.warp wid).groups, g.pos = 0 → g.sliver = k → g.st = .parked) ∧
    ((s.warp wid).trapSet ≠ 0 → (s.warp wid).trapSet &&& lanes = 0 →
      (t.warp wid).heldTraps = (s.warp wid).heldTraps ++
        [{ sliver := k, cause := tr.cause, tval := tr.tval, mask := lanesIn tr.mask wid, recorded := tr.recorded,
           trec := tr.trec, deliv := tr.deliv, pc := at_.pc, hdr := at_.hdr, hw := hw, depth := at_.depth, mix := mix,
           skip := skip }] ∧
      (∀ g ∈ (t.warp wid).groups, g.pos = 0 → g.sliver = k → g.st = .heldTrap) ∧
      Leaves s t { warp := fun w => { w with heldTraps := [] } })

/-- A unit of one warp, outside trap mode, has taken a trap at a position under a header word: it is in the handler with
everything saved. -/
def InHandler (s : State) (u : IssueUnit) (tr : Trap) (at_ : Tgt) (hw : Word) (t : State) : Prop :=
  ∃ p, u.mem = [p] ∧ TrapSaved s p.1 ((s.warp p.1).sliverLanes p.2) tr at_ hw false (t.warp p.1) ∧
    (∀ th ∈ u.th, t.At th (atHeader (s.handlerAt p.1 tr.cause) u.depth)) ∧
    AccessesKept s t ∧ (noneAtIssue s p.1 ((s.warp p.1).sliverLanes p.2) → Leaves s t trapFrame)

/-- A unit of one warp that is not in trap mode, none of whose threads runs at another call depth, and whose partition has a
handler for a cause. -/
def hasHandler (s : State) (u : IssueUnit) (cause : Nat) : Prop :=
  ∃ p, u.mem = [p] ∧ (s.warp p.1).trapSet = 0 ∧ canLand s { wid := p.1, lane := 0 } (s.handlerAt p.1 cause) ∧
    ∀ g ∈ (s.warp p.1).groups, g.pos = 0 → g.sliver = p.2 → g.depth = u.depth

/-- R149, R233: TRAP, BPT and an undefined sub-operation trap. TRAP raises class 0x3C plus bits 4 to 3 of its code with the
code's low bits as detail, BPT class 0x39, each with the code as `%tval` and the next word as `%tpc`; an undefined
sub-operation raises ILLEGAL_INSTR at itself, detail 2 when it is one of ENG or HYP in which a bit is set that must be zero,
else detail 0. -/
def Obligations.SoftwareTraps : Prop :=
  (∀ f : V3, let code := (f.b.extractLsb' 0 5).toNat
    let cause := cz (0x3C + code / 8) (code % 8)
    Performs (.trapCode f) { q := f.q, ill := illOf (f.b.getLsbD 5 || f.m.extractLsb' 1 2 ≠ 0) false }
      (fun s c _ => hasHandler s c.u cause)
      fun s c act t =>
        InHandler s c.u { cause := cause, tval := BitVec.ofNat 64 code, mask := act } (fallThrough c.u c.len) 0 t) ∧
  (∀ f : V3, Performs (.bpt f) { q := f.q, ill := illOf (f.b.getLsbD 5 || f.m.extractLsb' 1 2 ≠ 0) false }
    (fun s c _ => hasHandler s c.u (cz 0x39 0))
    fun s c act t => InHandler s c.u
      { cause := cz 0x39 0, tval := BitVec.ofNat 64 (f.b.extractLsb' 0 5).toNat, mask := act } (fallThrough c.u c.len) 0 t) ∧
  (∀ (w : Word) (s : State), let c := s.ctx (.illegalInstr w)
    let op := (w.extractLsb' 25 7).toNat
    let f7 := w.extractLsb' 2 7
    let det := if op = 0x72 ∧ f7 &&& 0x73 ≠ 0 ∨ op = 0x73 ∧ f7 ≠ 0 then 2 else 0
    c.u.th ≠ [] → hasHandler s c.u (cz 0 det) → ∃ t, exec (.illegalInstr w) s = .next t ∧
      InHandler s c.u { cause := cz 0 det, tval := c.tval, mask := c.u.th }
        { pc := c.u.pc, hdr := c.u.hdr, depth := c.u.depth } c.u.hw t)

/-! ## Engine operations -/

/-- The checks of an ENG (R246). -/
def engChecks (kind : Nat) (f : FE) : Checks :=
  { q := f.q, ill := illOf (engFlagBad kind f.f7) false, opd := opdV f.x [f.pb] [] [] (f.pb = 53), a := srcAny f.pb }

/-- Where a thread's block stands, as an address of an access (R247). -/
def engAddrs (f : FE) (s : State) (c : Ctx) (act : List Th) : List (Th × DWord) :=
  act.map fun th => (th, (s.src c th f.pb 0).val.zeroExtend 64)

/-- No thread of the unit has begun to issue an ENG, no precise trap of R248 is due, and nothing of R83, R84 or R207 holds the
unit. -/
def engReady (kind : Nat) (f : FE) (s : State) (c : Ctx) (act : List Th) : Prop :=
  s.engBegun act = false ∧ s.engTrap c kind (engAddrs f s c act) = none ∧ s.behindAcquire c act = false ∧
  s.recordHolds c act = false

/-- What an ENG may change beside its own operations: its tag and its block's, lids, barrier words that it announces bytes on
and what follows from them. -/
def engFrame (s : State) : MayChange :=
  { warp := fun w => { w with engDone := 0, latch := 0 }
    block := fun b => { b with scratch := [], tags := 0 }
    core := fun r => { r with tagmap := 0 }
    newId := fun k => s.nextId ≤ k
    rest := fun x => { x with outst := [], nextId := 0, lids := [] }
    upset := Upset.inScratch }

/-- R246, R247: every active thread has issued an operation of its own: it stands in the table, the counter has grown by one for
each, its tag is no longer complete, and the unit goes on. -/
def EngineIssued (kind : Nat) (f : FE) (s : State) (c : Ctx) (act : List Th) (t : State) : Prop :=
  (∀ th ∈ act, ∃ id o, s.nextId ≤ id ∧ t.ops.find id = some o ∧ o.kind = kind ∧ o.wid = th.wid ∧ o.lane = th.lane ∧
    o.tag = f.tag.toNat ∧ o.f7 = f.f7 ∧ o.atIssue = false ∧
    (t.coreRegs (s.warp th.wid).core).tagmap.getLsbD f.tag.toNat = false) ∧
  (∀ wid k, t.counter wid k = s.counter wid k +
    if k = engCounter kind then (act.filter fun th => th.wid = wid).length else 0) ∧
  GoesOn t c ∧ Leaves s t (engFrame s)

/-- The address of a thread's block, or of its record (R247, R258). -/
def engBlockAt (f : FE) (s : State) (c : Ctx) (th : Th) : Nat := (s.src c th f.pb 0).val.toNat

/-- A thread's operation as it reads its block, and the first error of R252's checks with it, if any. -/
def engOpOf (kind : Nat) (f : FE) (s : State) (c : Ctx) (th : Th) : EngineOp × Option (Nat × Nat × Nat) :=
  let o := s.newOp c kind f th (engBlockAt f s c th)
  let recBad := decide (kind ≠ 8) && decide (o.recAt ≠ noAddr) &&
    (decide (o.recAt % 16 ≠ 0) || decide ((s.block o.bid).zsize < o.recAt + 160))
  let stale := decide (kind = 8) && !(resumable (leNat (s.rdScratch o.bid (engBlockAt f s c th) 4)))
  let o := if recBad then { o with recAt := noAddr } else o
  (o, s.issueError o recBad stale)

/-- The ranges on which a thread's operation places lids (R93): none when it fails at issue. -/
def engRangesOf (kind : Nat) (f : FE) (s : State) (c : Ctx) (th : Th) : List EngRange :=
  let o := engOpOf kind f s c th
  if o.2 = none then (s.fieldsOf o.1 (s.block o.1.bid).zsize).2 else []

/-- Two ranges of one space share bytes and one of them is a destination (R93). -/
def rangesClash (r q : EngRange) : Prop :=
  r.glob = q.glob ∧ (r.glob = false → r.bid = q.bid) ∧ meets r.lo.toNat r.hi.toNat q.lo.toNat q.hi.toNat = true ∧
  (r.dest = true ∨ q.dest = true)

/-- The scratchpad bytes that a thread's ENG reads at issue: its block or record and, for MMAG, its index vector. -/
def engReads (kind : Nat) (f : FE) (s : State) (c : Ctx) (th : Th) : List (Nat × Nat) :=
  let pb := engBlockAt f s c th
  let o := (engOpOf kind f s c th).1
  (pb, pb + blockBytes kind) :: if kind = 5 then [(o.u 52 4, o.u 52 4 + 2 * o.u 28 2)] else []

/-- No thread of an ENG waits at issue (R84, R93, R247, R285, R287): the counters have room for all of them; no lid, and no range
of another of the threads, bars a range; the lid tables and the mill have room for all; no barrier word on which one announces
bytes is read by another; and an MMAG may read its index vector. -/
structure NoneWaits (kind : Nat) (f : FE) (s : State) (c : Ctx) (act : List Th) : Prop where
  room : ∀ th ∈ act, s.counter th.wid (engCounter kind) + (act.filter fun u => u.wid = th.wid).length ≤
    counterMax (engCounter kind)
  free : ∀ th ∈ act, ∀ r ∈ engRangesOf kind f s c th, s.lidConflict (engOpOf kind f s c th).1 r = false
  apart : ∀ th ∈ act, ∀ u ∈ act, th ≠ u → ∀ r ∈ engRangesOf kind f s c th, ∀ q ∈ engRangesOf kind f s c u,
    ¬ rangesClash r q
  table : ∀ core, let mine := act.flatMap fun th =>
      (engRangesOf kind f s c th).filter fun r => s.lidCore (engOpOf kind f s c th).1 r = core
    mine = [] ∨ (s.lids.filter fun l => l.core = core).length + mine.length ≤ Config.coreLids
  mill : kind = 4 ∨ kind = 5 → ∀ th ∈ act, let tile := (s.warp th.wid).core / 4
    (s.ops.filter fun o => o.2.tile = tile && (o.2.kind = 4 || o.2.kind = 5) && o.2.placed).length +
      (act.filter fun u => (s.warp u.wid).core / 4 = tile).length ≤ 16
  words : ∀ th ∈ act, ∀ u ∈ act, th ≠ u → (engOpOf kind f s c th).1.arrives = true →
    (s.warp th.wid).bid = (s.warp u.wid).bid → ∀ x ∈ engReads kind f s c u,
    meets (engOpOf kind f s c th).1.bar ((engOpOf kind f s c th).1.bar + 16) x.1 x.2 = false
  index : kind = 5 → ∀ th ∈ act, s.quiet th = true ∧ (s.coreRegs (s.warp th.wid).core).failed = false ∧
    (c.trap = true ∨ ∀ r ∈ (s.warp th.wid).records, r.lanes.getLsbD th.lane = false) ∧
    (f.f7.getLsbD 3 = true → (∀ u ∈ act, u.wid = th.wid → u = th) ∧
      ∀ p ∈ s.ops, p.2.wid = th.wid → p.2.st = .reading ∨ p.2.st = .landed ∨ p.2.st = .failed)

/-- A thread's operation, once its ENG has issued: its block is the bytes at its address, and it has failed exactly when one of
R252's checks fails, with that check's cause; else it has started (R50). -/
def OperationOf (kind : Nat) (f : FE) (s : State) (c : Ctx) (th : Th) (t : State) : Prop :=
  ∃ id p, s.nextId ≤ id ∧ t.ops.find id = some p ∧ p.wid = th.wid ∧ p.lane = th.lane ∧
    p.image = (engOpOf kind f s c th).1.image ∧
    (kind ≠ 8 → p.image = s.rdScratch (s.warp th.wid).bid (engBlockAt f s c th) (blockBytes kind)) ∧
    match (engOpOf kind f s c th).2 with
    | some e => p.st = .failed ∧ p.cause = e.1
    | none => p.placed = true ∧ p.total = s.totalOf (engOpOf kind f s c th).1 ∧ (p.st = .running ∨ p.st = .landed)

/-- An ENG whose threads all issue: where none of them waits every thread's operation is as its block says; and so that they all
issue, whatever they wait for at first, once each in turn finds nothing to wait for (`engLanes`, R247). -/
def IssuesEngine (i : Instr) (kind : Nat) (f : FE) : Prop :=
  Performs i (engChecks kind f) (fun s c act => engReady kind f s c act ∧ NoneWaits kind f s c act)
    (fun s c act t => EngineIssued kind f s c act t ∧ ∀ th ∈ act, OperationOf kind f s c th t) ∧
  Performs i (engChecks kind f) (fun s c act => engReady kind f s c act ∧ (s.engLanes c kind f act).2 = true)
    (EngineIssued kind f)

/-- R246 to R248, R252 to R260: the nine ENG instructions issue their operations. -/
def Obligations.EngineInstructions : Prop :=
  (∀ f, IssuesEngine (.cpy f) 0 f) ∧ (∀ f, IssuesEngine (.cpys f) 1 f) ∧ (∀ f, IssuesEngine (.cpyg f) 2 f) ∧
  (∀ f, IssuesEngine (.cpya f) 3 f) ∧ (∀ f, IssuesEngine (.mma f) 4 f) ∧ (∀ f, IssuesEngine (.mmag f) 5 f) ∧
  (∀ f, IssuesEngine (.acclr f) 6 f) ∧ (∀ f, IssuesEngine (.bcast f) 7 f) ∧ (∀ f, IssuesEngine (.cpyr f) 8 f)

/-- An operation may start (R50, R93, R285, R287): no lid bars its ranges, the lid tables and, for the mill, the reservation
table have room, and an MMAG may read its index vector. -/
def canStart (s : State) (id : Nat) (o : EngineOp) : Prop :=
  let rs := (s.fieldsOf o (s.block o.bid).zsize).2
  (∀ r ∈ rs, s.lidConflict o r = false) ∧ s.lidRoom o rs = true ∧ ((o.kind = 4 ∨ o.kind = 5) → s.millRoom o.tile = true) ∧
  (o.kind = 5 → s.engMayRead id o = true)

/-- A running operation may land bytes (R84, R88, R254). -/
def landing (s : State) (id : Nat) (o : EngineOp) : Prop :=
  s.ops.find id = some o ∧ o.st = .running ∧ o.begun = true ∧ s.engMayRead id o = true

/-- R50, R93, R250, R253, R254, R257: how an operation starts, lands and completes. Starting places a lid on every range;
a copy inside a scratchpad lands in order, whole words at a time, and changes no other byte; completion takes the lids away,
lets the count fall, and completes the tag when no other operation of the core names it. -/
def Obligations.EngineProgress : Prop :=
  (∀ (s : State) (id : Nat) (o : EngineOp), s.ops.find id = some o → o.st = .issued → canStart s id o →
    ∃ t p, exec (.engOpStart id) s = .next t ∧ t.ops.find id = some p ∧ p.placed = true ∧ p.st ≠ .issued ∧
      p.image = o.image ∧ p.total = s.totalOf o ∧
      t.lids = s.lids ++ (s.fieldsOf o (s.block o.bid).zsize).2.map fun r =>
        { core := s.lidCore o r, lo := r.lo.toNat, hi := r.hi.toNat, dest := r.dest, glob := r.glob, bid := r.bid,
          part := o.part, asid := o.asid, op := id }) ∧
  (∀ (s : State) (id bid n : Nat) (o : EngineOp), landing s id o → o.form = 0 → o.srcScr = true → o.dstScr = true →
    o.arrives = false → o.done ≤ o.total → o.total = o.u 24 4 → s.blocks.find o.bid ≠ none → s.selfOverlap o = false →
    (s.gang (s.block o.bid).gid).st ≠ .halted →
    (∀ i < o.total, s.scratchUpset o.bid (o.u 8 8 + i) 1 = false) →
    ∃ t p, exec (.copyChunkLand id bid n) s = .next t ∧ t.ops.find id = some p ∧
      min (o.done + n) o.total ≤ p.done ∧ p.done ≤ o.total ∧
      (∀ i, o.done ≤ i → i < p.done → Memory.rd (t.block o.bid).scratch (o.u 16 8 + i) =
        Memory.rd (s.block o.bid).scratch (o.u 8 8 + i)) ∧
      ∀ b a, (b = o.bid → ¬ (o.u 16 8 + o.done ≤ a ∧ a < o.u 16 8 + p.done)) →
        Memory.rd (t.block b).scratch a = Memory.rd (s.block b).scratch a) ∧
  (∀ (s : State) (id bid got : Nat) (o : EngineOp), s.ops.find id = some o → o.form = 7 → o.st = .running →
    o.target bid = some (got, false) → got = o.u 16 4 → o.u 20 4 = noAddr →
    ∃ t p, exec (.bcastTargetDone id bid) s = .next t ∧ t.ops.find id = some p ∧ p.target bid = some (got, true) ∧
      (p.st = .landed ↔ ∀ x ∈ p.targets, x.2.2 = true) ∧ Leaves s t { op := fun o => { o with targets := [], st := .landed } }) ∧
  (∀ (s : State) (id : Nat) (o : EngineOp), s.ops.find id = some o → (o.st = .landed ∨ o.st = .failed) → o.arrives = false →
    o.tag < 64 → (o.queued = true → s.fqHeld o.part = false) →
    ∃ t, exec (.engOpComplete id) s = .next t ∧ t.ops.find id = none ∧ t.lids = s.lids.filter (fun l => l.op ≠ id) ∧
      (∀ k, k ≠ id → t.ops.find k = s.ops.find k) ∧
      (t.coreRegs o.core).tagfail.getLsbD o.tag = ((s.coreRegs o.core).tagfail.getLsbD o.tag || o.hasErr) ∧
      ((∀ p ∈ s.ops, p.1 ≠ id → p.2.core = o.core → p.2.tag ≠ o.tag) →
        (t.coreRegs o.core).tagmap.getLsbD o.tag = true) ∧
      ((∃ p ∈ s.ops, p.1 ≠ id ∧ p.2.core = o.core ∧ p.2.tag = o.tag ∧ p.2.st ≠ .reading) →
        (t.coreRegs o.core).tagmap = (s.coreRegs o.core).tagmap) ∧
      (∀ c, c ≠ o.core → t.coreRegs c = s.coreRegs c))

/-- The cells of an operation's region (R71, R260): absolute rows and columns of its tile. -/
def inRegion (s : State) (o : EngineOp) (row col : Nat) : Prop :=
  s.firstRow o ≤ row ∧ row < s.firstRow o + o.region.2.1 ∧ o.region.2.2.1 ≤ col ∧ col < o.region.2.2.1 + o.region.2.2.2

/-- R122, R259 to R261, R281 to R290: operations on the accumulator store. At its turn an ACCLR clears exactly its region, an
operation whose tags do not fit fails with ENG_PARAM detail 5, and any other may begin; one pass of the mill gives each cell of
its subtile the exact sum of the products of a K-step and, but for the first K-step of an operation that does not accumulate,
the cell's own value, rounded once, and changes no other cell. -/
def Obligations.AccumulatorStore : Prop :=
  (∀ (s : State) (id : Nat) (o : EngineOp), s.ops.find id = some o → o.onAccStore = true → o.st = .running →
    o.begun = false → s.accBlocked o = false → s.engMayRead id o = true →
    ∃ t p, exec (.accOpTurn id) s = .next t ∧ t.ops.find id = some p ∧
      (∀ off, s.turnFail o = some off → p.st = .failed ∧ p.cause = cz 0x21 5 ∧ p.info = BitVec.ofNat 64 off ∧ t.acc = s.acc) ∧
      (s.turnFail o = none → p.begun = true ∧ (o.kind ≠ 6 → p.st = .running ∧ t.acc = s.acc) ∧
        (o.kind = 6 → p.st = .landed ∧ (s.firstRow o + o.region.2.1 ≤ 512 → o.region.2.2.1 + o.region.2.2.2 ≤ 512 →
          ∀ tile row col, row < 512 → col < 512 →
            (tile = o.tile → inRegion s o row col → t.accCell tile row col = 0) ∧
            (¬ (tile = o.tile ∧ inRegion s o row col) → t.accCell tile row col = s.accCell tile row col))))) ∧
  (∀ (s : State) (tile id : Nat) (g o : EngineOp) (mismatch : Bool), s.millGrant tile = some (id, g) →
    s.ops.find id = some o → o.tile = tile → (o.f7.getLsbD 1 = false ∨ mismatch = false) →
    let mb := o.triple.1
    let nb := o.triple.2.1
    let ks := o.triple.2.2
    let prior := o.accumulates || decide (ks ≠ 0)
    let r0 := s.firstRow o + 64 * mb
    let c0 := o.region.2.2.1 + 64 * nb
    o.failedSub.contains (mb, nb) = false → s.passUpset o mb nb ks prior = none → r0 + 64 ≤ 512 → c0 + 64 ≤ 512 →
    ∃ t p, exec (.millPass tile mismatch) s = .next t ∧ t.ops.find id = some p ∧ p.passes = o.passes + 1 ∧
      (o.allPasses ≤ p.passes → p.st = .landed) ∧ t.subTag tile r0 c0 = BitVec.ofNat 4 o.millTag ∧
      (∀ i < 64, ∀ j < 64, t.accCell tile (r0 + i) (c0 + j) =
        millCell (o.u 24 1 = 9) (s.millRow o true (o.rowAt (64 * mb + i) + 256 * ks))
          (s.millRow o false (o.colAt (64 * nb + j) + 256 * ks))
          (if prior then some (s.accCell tile (r0 + i) (c0 + j)) else none)) ∧
      ∀ tl row col, row < 512 → col < 512 →
        ¬ (tl = tile ∧ r0 ≤ row ∧ row < r0 + 64 ∧ c0 ≤ col ∧ col < c0 + 64) → t.accCell tl row col = s.accCell tl row col)

/-! ## Hypotheses -/

/-- The checks of a HYP instruction that reads a handle a and may have a destination (R263). -/
def hypChecks (f : FH) (dst : Bool) (split : Option Nat) : Checks :=
  if dst then
    { q := f.q, ill := illOf (f.f7 ≠ 0) false, opd := opdV f.x [f.d, f.a] [f.d] [], a := srcAny f.a, d := dst1 f.d, split := split }
  else { q := f.q, ill := illOf (f.f7 ≠ 0) false, opd := opdV f.x [f.a] [] [], a := srcAny f.a, split := split }

/-- The handle that a thread names (R263): its home warp's `%hyp` for code 52, else the low half of operand a. -/
def handleOf (s : State) (c : Ctx) (f : FH) (th : Th) : BitVec 16 :=
  if f.a = 52 then (s.warp th.wid).hyp else (s.src c th f.a 0).val.extractLsb' 0 16

/-- The unit has asked the hypothesis home slice and is held for its reply (R264). -/
def Asks (kind : Nat) (f : FH) (s : State) (c : Ctx) (act : List Th) (t : State) : Prop :=
  (∃ r, t.hreqs.find s.nextId = some r ∧ r.kind = kind ∧ r.mem = c.u.mem ∧ r.len = c.len ∧
    r.handles = act.map (fun th => (th.wid, th.lane, handleOf s c f th))) ∧
  (∀ th ∈ c.u.th, (∀ tg, s.At th tg → t.At th tg) ∧
    ∃ g ∈ (t.warp th.wid).groups, g.lanes.getLsbD th.lane = true ∧ g.st = .asking) ∧
  Leaves s t { rest := fun x => { x with hreqs := [], nextId := 0 } }

/-- The threads of the unit belong to one home warp's sliver. -/
def oneWarp (c : Ctx) : Prop := ∃ p, c.u.mem = [p]

/-- The partition whose table an instruction's request reaches: that of its lowest active thread. -/
def askedPart (s : State) (act : List Th) : Nat := ((act.head?).map fun th => s.partOf th.wid).getD 0

/-- The packet of a unit's request arrives at the partition's local tile 0 (R293, R446). -/
def reachesHome (s : State) (c : Ctx) (act : List Th) : Prop :=
  s.packet (askedPart s act) (((c.u.mem.head?.map fun m => (s.warp m.1).core).getD 0) / 4) 0 0 = .arrives

/-- An instruction that asks the home slice is over once the slice has judged what it asked, with nothing else between: its
checks and the further conditions make both steps go on where its packet arrives, and of the state after them `post` holds. -/
def CompletesAtHome (i : Instr) (k : Checks) (ok : State → Ctx → List Th → Prop)
    (post : State → Ctx → List Th → State → Prop) : Prop :=
  ∀ s act, s.gate (s.ctx i) k = .go act → reachesHome s (s.ctx i) act → ok s (s.ctx i) act →
    ∃ m t, exec i s = .next m ∧ exec (.hypRequestAtHome s.nextId) m = .next t ∧ post s (s.ctx i) act t

/-- What an instruction that asks the home slice changes beside the table: numbers and the request, which has gone. -/
def askFrame : MayChange :=
  { part := fun P => { P with hyp := [], res := [] }, rest := fun x => { x with hreqs := [], nextId := 0 } }

/-- HNEW by threads of one home warp (R265): the lowest active lane's handle is valid and of a depth below 15, and i is the
lowest id from 1 that is free or gone. Every active thread receives the id's next generation as its handle, tagged N32; the new
node is live under that parent. -/
def AllocatesHandle (f : FH) (h : BitVec 16) (i : Nat) : Prop :=
  CompletesAtHome (.hnew f) (hypChecks f true none)
    (fun s c act => let P := s.part (askedPart s act)
      oneWarp c ∧ s.parts.find (askedPart s act) ≠ none ∧ act.head?.map (handleOf s c f) = some h ∧
      P.validH h = true ∧ P.depthOf h < 15 ∧ 1 ≤ i ∧ i ≤ 255 ∧ ((P.node i).st = .free ∨ (P.node i).st = .gone) ∧
      ∀ j, 1 ≤ j → j < i → (P.node j).st = .live ∨ (P.node j).st = .resolving)
    fun s c act t => let P := s.part (askedPart s act)
      let Q := t.part (askedPart s act)
      GoesOn t c ∧
      (∀ th ∈ act, s.dreg c th f.d ≠ .discard →
        t.getReg th (s.dreg c th f.d) = { val := (mkHandle i ((P.node i).gen + 1)).zeroExtend 32, tag := 2 }) ∧
      RegsKept s t c act f.d 1 ∧
      (Q.node i).st = .live ∧ (Q.node i).gen = (P.node i).gen + 1 ∧ (Q.node i).parent = h ∧
      (∀ j, j ≠ i → Q.node j = P.node j) ∧
      Leaves s t { askFrame with warp := Warp.noRegs, upset := Upset.inRegister }

/-- HSET (R266): where the handle of each home warp's lowest active lane is valid, that handle is the warp's hypothesis, its
ancestor mask holds the root and the handle's chain, and the warp is no orphan. -/
def SetsHypothesis (f : FH) : Prop :=
  CompletesAtHome (.hset f) (hypChecks f false (some 1))
    (fun s c act => ∀ th ∈ act, leads act th = true → (s.part (askedPart s act)).validH (handleOf s c f th) = true)
    fun s c act t =>
      (∀ th ∈ act, leads act th = true →
        (t.warp th.wid).hyp = handleOf s c f th ∧ (t.warp th.wid).orphan = false ∧
        ∀ i < 256, (t.warp th.wid).anc.getLsbD i =
          (decide (i = 0) || decide (i ∈ (s.part (askedPart s act)).homeChain (handleOf s c f th)))) ∧
      (oneWarp c → GoesOn t c) ∧
      Leaves s t { askFrame with part := id, warp := fun w => { w with hyp := 0, anc := 0, orphan := false } }

/-- HCONF or HREF whose active threads name one valid handle other than the root (R268): it is resolving from now on with its
outcome, 1 confirmed or 2 refuted. -/
def ResolvesHandle (i : Instr) (f : FH) (confirm : Bool) (h : BitVec 16) : Prop :=
  CompletesAtHome i (hypChecks f false none)
    (fun s c act => (confirm = true → s.releaseHold c act = none) ∧ s.parts.find (askedPart s act) ≠ none ∧
      (∀ th ∈ act, handleOf s c f th = h) ∧ h ≠ 0 ∧ (s.part (askedPart s act)).validH h = true)
    fun s c act t =>
      ((t.part (askedPart s act)).node (hypId h)).st = .resolving ∧
      ((t.part (askedPart s act)).node (hypId h)).outcome = (if confirm then 1 else 2) ∧
      (oneWarp c → GoesOn t c) ∧ Leaves s t askFrame

/-- What HGET reads of a handle in the replica of a core (R267): zero for the root; 2 in bits 25 to 24 and nothing else for a
handle that is gone, free, of a stale generation, or no root's; else 0, or 1 once a resolution of it has reached the core, with
its depth and parent there. -/
def ReplicaSays (P : Part) (core : Nat) (h : BitVec 16) (r : Word) : Prop :=
  let n := P.node (hypId h)
  let known := hypId h ≠ 0 ∧ n.gen = hypGen h ∧ n.st ≠ .free
  let here := fun q : Resolution => q.complete = true ∨ .core core ∈ q.applied
  (h = 0 → r = 0) ∧ (h ≠ 0 → ¬ known → r = 0x02000000) ∧
  (known → ∀ q, P.resOf h = some q → q.complete = true → r = 0x02000000) ∧
  (known → (∀ q, P.resOf h = some q → q.complete = false) → (P.chainAt (.core core) h 17).length ≤ 15 →
    r.extractLsb' 26 6 = 0 ∧ r.extractLsb' 16 4 = 0 ∧
    ((∃ q, P.resOf h = some q ∧ here q) → r.extractLsb' 24 2 = 1) ∧
    ((∀ q, P.resOf h = some q → ¬ here q) → r.extractLsb' 24 2 = 0) ∧
    (r.extractLsb' 20 4).toNat = (P.chainAt (.core core) h 17).length ∧
    r.extractLsb' 0 16 = (P.effHyp (.core core) n.parent).getD n.parent)

/-- What HWAIT answers for a handle, if it need not wait (R270): 0 for the root, a free id, a stale generation, or a handle whose id
had been allocated again before the wait began; else 1 or 2 once its resolution is complete. -/
def OutcomeSays (P : Part) (mark : Nat) (h : BitVec 16) (r : Option Nat) : Prop :=
  let n := P.node (hypId h)
  let nothing := hypId h = 0 ∨ n.gen ≠ hypGen h ∨ n.st = .free
  (P.resOf h = none → (nothing → r = some 0) ∧ (¬ nothing → r = none)) ∧
  ∀ q, P.resOf h = some q →
    (q.complete = false → r = none) ∧
    (q.complete = true → (∀ x ∈ q.reused, x.1 = h → mark ≤ x.2) → r = some (if q.confirm then 1 else 2)) ∧
    (q.complete = true → (∃ x ∈ q.reused, x.1 = h ∧ x.2 < mark) → r = some 0)

/-- R263 to R268, R270: the HYP instructions. HNEW, HSET, HCONF and HREF ask the home slice, HCONF as a release, and complete with
its judgement; HGET, HCHK and HWAIT deliver what the core's replica, `%orphan` and the outcome say, HWAIT as an acquire for a
resolved handle; an HWAIT whose handle is not resolved stays. -/
def Obligations.HypothesisInstructions : Prop :=
  (∀ f h i, AllocatesHandle f h i) ∧ (∀ f, SetsHypothesis f) ∧
  (∀ f h, ResolvesHandle (.hconf f) f true h) ∧ (∀ f h, ResolvesHandle (.href f) f false h) ∧
  (∀ P core h, ReplicaSays P core h (P.replica core h)) ∧
  (∀ P mark h, OutcomeSays P mark h (P.outcomeOf mark h)) ∧
  (∀ f, Completes (.hnew f) (hypChecks f true none) (Asks 0 f)) ∧
  (∀ f, Completes (.hset f) (hypChecks f false (some 1)) (Asks 1 f)) ∧
  (∀ f, Performs (.hconf f) (hypChecks f false none)
    (fun s c act => (c.trap = true ∨ ∀ t ∈ act, (s.warp t.wid).faults = []) ∧ ∀ t ∈ act, s.quiet t = true) (Asks 3 f)) ∧
  (∀ f, Completes (.href f) (hypChecks f false none) (Asks 4 f)) ∧
  (∀ f, Completes (.hget f) (hypChecks f true none) fun s c act t => Computes s t c act f.d 1 fun th =>
    let P := s.part (s.partOf th.wid)
    out1 0 (P.replica (P.localCore (s.warp th.wid).core) (handleOf s c f th))) ∧
  (∀ f : FH, Completes (.hchk f)
    { q := f.q, ill := illOf (f.f7 ≠ 0) false, opd := opdV f.x [f.d] [f.d] [], d := dst1 f.d } fun s c act t =>
      Computes s t c act f.d 1 fun th => out1 1 (if (s.warp th.wid).orphan then 1 else 0)) ∧
  (∀ (f : FH) (out : Th → Nat), Performs (.hwait f) (hypChecks f true none)
    (fun s c act => (∀ th ∈ act, (s.part (s.partOf th.wid)).outcomeOf (s.waitMark c.u) (handleOf s c f th) = some (out th)) ∧
      let acq := act.filter fun th => out th ≠ 0
      noRelease s c acq ∧ noAcquire s c acq)
    fun s c act t => ∃ m, Acquired s (s.homeCores (act.filter fun th => out th ≠ 0)) m ∧
      Computes m t c act f.d 1 fun th => out1 1 (BitVec.ofNat 32 (out th))) ∧
  (∀ (f : FH) s act, s.gate (s.ctx (.hwait f)) (hypChecks f true none) = .go act →
    (∃ th ∈ act, (s.part (s.partOf th.wid)).outcomeOf (s.waitMark (s.ctx (.hwait f)).u)
      (handleOf s (s.ctx (.hwait f)) f th) = none) →
    ∃ t, exec (.hwait f) s = .next t ∧ Stays s (s.ctx (.hwait f)) .blocked t)

/-- The reply to a request of a one-part unit: the request is gone and the unit's threads go on. -/
def Replied (s : State) (id : Nat) (r : HypReq) (t : State) : Prop :=
  t.hreqs.find id = none ∧ ∀ p, r.mem = [p] → ∀ th ∈ (s.unitAt { wid := p.1, sliver := p.2 }).th,
    t.At th (fallThrough (s.unitAt { wid := p.1, sliver := p.2 }) r.len)

/-- R264, R265, R268, R269, R293: the home slice's judgement. HNEW under a valid handle of depth below 15 takes the lowest id
that is free or gone, at its next generation, live, with that parent; a resolution of a valid handle other than the root makes
its ids resolving with their outcome; otherwise each fails with its cause. -/
def Obligations.HypothesisJudgement : Prop :=
  (∀ (P : Part) (now : Nat) (h : BitVec 16),
    (P.validH h = false → P.hnew now h = .error (cz 0x28 1)) ∧
    (P.validH h = true → 15 ≤ P.depthOf h → P.hnew now h = .error (cz 0x2B 0)) ∧
    (P.validH h = true → P.depthOf h < 15 → (∀ i, 1 ≤ i → i ≤ 255 → (P.node i).st = .live ∨ (P.node i).st = .resolving) →
      P.hnew now h = .error (cz 0x2C 0)) ∧
    (∀ i, P.validH h = true → P.depthOf h < 15 → 1 ≤ i → i ≤ 255 → (P.node i).st = .free ∨ (P.node i).st = .gone →
      (∀ j, 1 ≤ j → j < i → (P.node j).st = .live ∨ (P.node j).st = .resolving) →
      ∃ P', P.hnew now h = .ok (P', mkHandle i ((P.node i).gen + 1)) ∧ (P'.node i).st = .live ∧
        (P'.node i).gen = (P.node i).gen + 1 ∧ (P'.node i).parent = h ∧ ∀ j, j ≠ i → P'.node j = P.node j)) ∧
  (∀ (P : Part) (confirm : Bool) (h : BitVec 16) (key : Nat),
    (h = 0 → P.resolve confirm h key = .error (cz 0x28 2)) ∧
    (h ≠ 0 → P.validH h = false → P.resolve confirm h key = .error (cz 0x28 1)) ∧
    (h ≠ 0 → P.validH h = true → ∃ P', P.resolve confirm h key = .ok P' ∧
      (P'.node (hypId h)).st = .resolving ∧ (P'.node (hypId h)).outcome = (if confirm then 1 else 2) ∧
      (∀ r, P'.res.find key = some r → r.handle = h ∧ r.confirm = confirm ∧ r.applied = [] ∧ r.complete = false) ∧
      (confirm = true → ∀ i < 256, i ≠ hypId h → (P'.node i).st = (P.node i).st))) ∧
  (∀ (s : State) (id : Nat) (r : HypReq) (P P' : Part) (l : List (Nat × BitVec 16)), s.hreqs.find id = some r →
    s.hypDelivered r = true → s.parts.find r.part = some P → r.kind = 0 → P.hnews s.nextId r r.perWarp = .ok (P', l) →
    ∃ t, exec (.hypRequestAtHome id) s = .next t ∧ t.parts.find r.part = some P' ∧ Replied s id r t ∧
      ∀ wid lane d, r.dst = [(wid, lane, d)] → d ≠ .discard → DReg.small d → s.warps.find wid ≠ none →
        t.getReg { wid := wid, lane := lane } d =
          { val := BitVec.setWidth 32 (((l.find? fun x => x.1 = wid).map fun x => x.2).getD 0), tag := 2 }) ∧
  (∀ (s : State) (id wid : Nat) (h : BitVec 16) (r : HypReq), s.hreqs.find id = some r → s.hypDelivered r = true → r.kind = 1 →
    r.perWarp = [(wid, h)] → (s.part r.part).validH h = true → s.warps.find wid ≠ none →
    ∃ t, exec (.hypRequestAtHome id) s = .next t ∧ Replied s id r t ∧ (t.warp wid).hyp = h ∧ (t.warp wid).orphan = false ∧
      ∀ i < 256, (t.warp wid).anc.getLsbD i = (decide (i = 0) || decide (i ∈ (s.part r.part).homeChain h))) ∧
  (∀ (s : State) (id : Nat) (r : HypReq) (P P' : Part), s.hreqs.find id = some r → s.hypDelivered r = true → s.parts.find r.part = some P →
    1 < r.kind → P.resolves (r.kind = 3) r s.nextId r.distinct = .ok P' →
    ∃ t, exec (.hypRequestAtHome id) s = .next t ∧ t.parts.find r.part = some P' ∧ Replied s id r t)

/-- R268, R269, R270, R300: a resolution's wavefront and its completion. A refutation drops the versions of its ids at a slice,
and at a core marks as orphans exactly the warps whose chain holds the refuted id; a confirmation moves a core's warps of that
handle to the parent; earlier resolutions reach a place first, and a slice at which the flip of a page's bias holds a merge waits; when every place has applied and acknowledged it, its ids are
gone and the partition's warps see the event. -/
def Obligations.HypothesisResolution : Prop :=
  (∀ (s : State) (p key : Nat) (place : Place) (P : Part) (r : Resolution), s.parts.find p = some P →
    P.res.find key = some r → r.complete = false → place ∉ r.applied → place ∈ P.places → s.waveStalls p r place = false →
    (∀ x ∈ P.res, x.1 < key → x.2.complete = true ∨ place ∈ x.2.applied) →
    ∃ t, exec (.hypWavefront p key place) s = .next t ∧
      (∃ q, (t.part p).res.find key = some q ∧ q.applied = r.applied ++ [place] ∧ q.complete = false) ∧
      (∀ tile, place = .slice tile → r.confirm = false → ∀ v, v ∈ t.vers ↔ v ∈ s.vers ∧
        ¬ (v.part = p ∧ P.homeOf v = tile ∧ v.hyp ∈ r.ids)) ∧
      (∀ k, place = .core k → ∀ wid w, s.warps.find wid = some w → w.core = P.coreAt k → s.partOf wid = p →
        (t.warp wid).orphan = (w.orphan || (!r.confirm && w.anc.getLsbD (hypId r.handle))) ∧
        (t.warp wid).hyp = (if r.confirm ∧ w.hyp = r.handle then r.parent else w.hyp)) ∧
      (∀ wid w, s.warps.find wid = some w → s.partOf wid ≠ p → t.warps.find wid = some w)) ∧
  (∀ (s : State) (p key : Nat) (P : Part) (r : Resolution), s.parts.find p = some P → P.res.find key = some r →
    r.complete = false → s.resDone p r = true →
    ∃ t, exec (.hypResolutionComplete p key) s = .next t ∧
      (∃ q, (t.part p).res.find key = some q ∧ q.complete = true) ∧
      (∀ h ∈ r.ids, ∀ n, P.hyp.find (hypId h) = some n → n.gen = hypGen h → ((t.part p).node (hypId h)).st = .gone) ∧
      ∀ wid w, s.warps.find wid = some w → (t.warp wid).latch = if s.partOf wid = p then w.latch ||| 0x8 else w.latch)

/-! ## Exact geometric predicates -/

/-- An active thread with a coordinate that is a NaN or an infinity (R271). -/
def nonFinite (s : State) (c : Ctx) (o : GeoOp) (f : V3) (th : Th) : Bool :=
  (s.geoCoords c o f th).any fun x => x.isNan || x.isInf

/-- Value and stage of each active thread (R272, R308). -/
def geoResults (s : State) (c : Ctx) (o : GeoOp) (f : V3) (act : List Th) : List (Th × Word × Nat) :=
  act.map fun th => (th, o.lane (f.x.getLsbD 0) (s.geoCoords c o f th) (s.geoIndex c o f th))

/-- R309: the unit is held where it stands, each quad until the end of the latest stage of its active threads, and the results
are kept for their destinations, of which none is written yet. -/
def PredicateHeld (o : GeoOp) (f : V3) (s : State) (c : Ctx) (act : List Th) (t : State) : Prop :=
  let l := geoResults s c o f act
  (∀ th ∈ c.u.th, (∀ tg, s.At th tg → t.At th tg) ∧
    ∃ g ∈ (t.warp th.wid).groups, g.lanes.getLsbD th.lane = true ∧ g.st = .geo ∧ g.since = s.warpTick th.wid ∧
      g.bound = quadEnd o (f.x.getLsbD 0) (s.warpTick th.wid) th.wid g.quad l) ∧
  (∀ wid, (t.warp wid).geoOut = (s.warp wid).geoOut ++
    (l.filter fun x => x.1.wid = wid && (!(sharedDst f.d) || leads act x.1)).map fun x => (x.1.lane, s.dreg c x.1 f.d, x.2.1)) ∧
  Leaves s t { warp := fun w => { w with geoOut := [] }, part := Part.frozen }

/-- A predicate that holds its unit, or, without `.q`, raises GEO_NONFINITE for the threads with a coordinate that is no
number (R271). -/
def HoldsPredicate (i : Instr) (o : GeoOp) (f : V3) : Prop :=
  Performs i (geoChecks o f) (fun s c act => f.x.getLsbD 2 = true ∨ ∀ th ∈ act, nonFinite s c o f th = false)
    (PredicateHeld o f) ∧
  Traps i (geoChecks o f) fun s c act =>
    if f.x.getLsbD 2 = false ∧ ∃ th ∈ act, nonFinite s c o f th = true then
      some { cause := cz 0x30 0, tval := c.tval, mask := act.filter (nonFinite s c o f) }
    else none

/-- A predicate that stage 1 decides for every active thread is over 12 ticks later (R309), with nothing else between: each
destination holds its thread's value, tagged I32, and the unit goes on. -/
def CompletesPredicate (i : Instr) (o : GeoOp) (f : V3) : Prop :=
  ∀ s act wid k n, let c := s.ctx i
    s.gate c (geoChecks o f) = .go act → c.u.mem = [(wid, k)] → (s.warp wid).geoOut = [] →
    (f.x.getLsbD 2 = true ∨ ∀ th ∈ act, nonFinite s c o f th = false) → (∀ x ∈ geoResults s c o f act, x.2.2 = 1) →
    ∃ m, exec i s = .next m ∧ (m.warpTick wid + 12 ≤ { m with tick := n }.warpTick wid →
      ∃ t, exec (.geoStageEnd wid k) { m with tick := n } = .next t ∧ (∀ th ∈ c.u.th, t.At th (fallThrough c.u c.len)) ∧
        ∀ x ∈ geoResults s c o f act, s.dreg c x.1 f.d ≠ .discard → (sharedDst f.d = false ∨ leads act x.1 = true) →
          t.getReg x.1 (s.dreg c x.1 f.d) = { val := x.2.1, tag := 1 })

/-- R271, R272, R308, R309: ORIENT2, ORIENT3, INCIRC, INSPH, SEGX, and the end of a stage. An instruction keeps its
results and holds its unit, and completes at the end of its stage: at tick 12 a unit whose quads end
at different ticks splits by end tick and writes nothing; a part whose end tick has come writes its results, tagged I32, and
goes on past the extension word. -/
def Obligations.GeometricPredicates : Prop :=
  (∀ f, HoldsPredicate (.orient2 f) .orient2 f) ∧
  (∀ f, HoldsPredicate (.orient3 f) .orient3 f) ∧
  (∀ f, HoldsPredicate (.incirc f) .incirc f) ∧
  (∀ f, HoldsPredicate (.insph f) .insph f) ∧
  (∀ f, HoldsPredicate (.segx f) .segx f) ∧
  (∀ f, CompletesPredicate (.orient2 f) .orient2 f) ∧ (∀ f, CompletesPredicate (.orient3 f) .orient3 f) ∧
  (∀ f, CompletesPredicate (.incirc f) .incirc f) ∧ (∀ f, CompletesPredicate (.insph f) .insph f) ∧
  (∀ f, CompletesPredicate (.segx f) .segx f) ∧
  (∀ (s : State) (wid k since b : Nat), let u := s.unitAt { wid := wid, sliver := k }
    let gs := (s.warp wid).running k
    u.mem = [(wid, k)] → gs ≠ [] → (∀ g ∈ gs, g.st = .geo ∧ g.since = since ∧ g.bound = b) → since + 12 ≤ s.warpTick wid → b ≤ s.warpTick wid →
    (∀ x ∈ (s.warp wid).geoOut, ∀ y ∈ (s.warp wid).geoOut,
      SameReg { wid := wid, lane := x.1 } x.2.1 { wid := wid, lane := y.1 } y.2.1 → x = y) →
    (∀ x ∈ (s.warp wid).geoOut, DReg.small x.2.1) →
    ∃ t, exec (.geoStageEnd wid k) s = .next t ∧ (∀ th ∈ u.th, t.At th (fallThrough u 2)) ∧
      (∀ x ∈ (s.warp wid).geoOut, ((s.warp wid).sliverLanes k).getLsbD x.1 = true → x.2.1 ≠ .discard →
        t.getReg { wid := wid, lane := x.1 } x.2.1 = { val := x.2.2, tag := 1 }) ∧
      OtherRegsKept s t (((s.warp wid).geoOut.filter fun x => ((s.warp wid).sliverLanes k).getLsbD x.1).map
        fun x => ({ wid := wid, lane := x.1 }, [x.2.1])) ∧
      (t.warp wid).geoOut = (s.warp wid).geoOut.filter (fun x => !(((s.warp wid).sliverLanes k).getLsbD x.1)) ∧
      Leaves s t { warp := fun w => { w.noRegs with geoOut := [] }, upset := Upset.inRegister }) ∧
  (∀ (s : State) (wid k since : Nat), let u := s.unitAt { wid := wid, sliver := k }
    let gs := (s.warp wid).running k
    u.mem = [(wid, k)] → (∀ g ∈ gs, g.st = .geo ∧ g.since = since) → since + 12 ≤ s.warpTick wid →
    (∃ g ∈ gs, ∃ h ∈ gs, g.bound ≠ h.bound) → (∀ g ∈ (s.warp wid).groups, g.sliver < (s.warp wid).nextSliver) →
    ∃ t, exec (.geoStageEnd wid k) s = .next t ∧ (∀ th tg, s.At th tg → t.At th tg) ∧
      (∀ g ∈ (t.warp wid).groups, ∀ h ∈ (t.warp wid).groups, g.pos = 0 → h.pos = 0 → g.sliver = h.sliver →
        (g.sliver = k ∨ (s.warp wid).nextSliver ≤ g.sliver) → g.st = .geo ∧ g.bound = h.bound) ∧
      Leaves s t)

/-- The determinant of three rows. -/
def det3 (r s t : Int × Int × Int) : Int :=
  r.1 * (s.2.1 * t.2.2 - s.2.2 * t.2.1) - r.2.1 * (s.1 * t.2.2 - s.2.2 * t.1) + r.2.2 * (s.1 * t.2.1 - s.2.1 * t.1)

/-- The determinant of four rows, each three differences and their squared length. -/
def det4 (r s t u : (Int × Int × Int) × Int) : Int :=
  r.2 * -det3 s.1 t.1 u.1 + s.2 * det3 r.1 t.1 u.1 - t.2 * det3 r.1 s.1 u.1 + u.2 * det3 r.1 s.1 t.1

/-- R272, R306 to R308, R311: the exact determinants, the permanents' rule for the stages, the signs, and what a coordinate
that is no number gives. The degenerate segments and the collinear ones of SEGX have the codes of R307. -/
def Obligations.GeometricDeterminants : Prop :=
  (∀ x0 y0 x1 y1 xq yq : Int, GeoOp.orient2.exact [[x0, y0], [x1, y1], [xq, yq]] =
    (x1 - x0) * (yq - y0) - (y1 - y0) * (xq - x0)) ∧
  (∀ x0 y0 z0 x1 y1 z1 x2 y2 z2 xq yq zq : Int,
    GeoOp.orient3.exact [[x0, y0, z0], [x1, y1, z1], [x2, y2, z2], [xq, yq, zq]] =
      det3 (x0 - xq, y0 - yq, z0 - zq) (x1 - xq, y1 - yq, z1 - zq) (x2 - xq, y2 - yq, z2 - zq)) ∧
  (∀ x0 y0 x1 y1 x2 y2 xq yq : Int,
    let row := fun x y : Int => (x - xq, y - yq, (x - xq) ^ 2 + (y - yq) ^ 2)
    GeoOp.incirc.exact [[x0, y0], [x1, y1], [x2, y2], [xq, yq]] = det3 (row x0 y0) (row x1 y1) (row x2 y2)) ∧
  (∀ x0 y0 z0 x1 y1 z1 x2 y2 z2 x3 y3 z3 xq yq zq : Int,
    let row := fun x y z : Int => ((x - xq, y - yq, z - zq), (x - xq) ^ 2 + (y - yq) ^ 2 + (z - zq) ^ 2)
    GeoOp.insph.exact [[x0, y0, z0], [x1, y1, z1], [x2, y2, z2], [x3, y3, z3], [xq, yq, zq]] =
      det4 (row x0 y0 z0) (row x1 y1 z1) (row x2 y2 z2) (row x3 y3 z3)) ∧
  (∀ x0 y0 x1 y1 xq yq : Int, GeoOp.orient2.perm [[x0, y0], [x1, y1], [xq, yq]] =
    ((x1 - x0) * (yq - y0)).natAbs + ((y1 - y0) * (xq - x0)).natAbs) ∧
  (∀ (o : GeoOp) (wide : Bool) (ps : List Pt), o ≠ .segx →
    (o.stage wide ps = 1 ↔ o.exact ps ≠ 0 ∧ o.perm ps ≤ (o.exact ps).natAbs * 2 ^ (if wide then 48 else 20)) ∧
    (o.stage wide ps = 3 ↔ o.exact ps = 0 ∨ (o.exact ps).natAbs * 2 ^ (if wide then 150 else 80) < o.perm ps)) ∧
  (∀ (o : GeoOp) (unit : Int) (ps : List Pt) (ix : Option (List Nat)), o ≠ .segx → (ix = none ∨ o.exact ps ≠ 0) →
    o.result unit ps ix = (o.exact ps).sign) ∧
  (∀ (o : GeoOp) (wide : Bool) (l : List FVal) (ix : Option (List Nat)),
    (∃ x ∈ l, x.isNan = true ∨ x.isInf = true) → o.lane wide l ix = (0x80000000, 1)) ∧
  (∀ px py qx qy : Int, segCode [px, py] [px, py] [qx, qy] [qx, qy] = if px = qx ∧ py = qy then 2 else 0) ∧
  (∀ a b c d : Int, a < b → c < d → segCode [a, 0] [b, 0] [c, 0] [d, 0] =
    if b < c ∨ d < a then 0 else if b = c ∨ d = a then 2 else 3) ∧
  (∀ a b c d : Int, a < b → c < d → segCode [a, 0] [b, 0] [0, c] [0, d] =
    if b < 0 ∨ 0 < a ∨ d < 0 ∨ 0 < c then 0 else if a = 0 ∨ b = 0 ∨ c = 0 ∨ d = 0 then 2 else 1)

/-! ## Checks, special registers, returns from traps -/

/-- R150, R152, R203: the checks of one instruction in their order, shown for IADD with direct registers. A bit of the minor
code that must be zero raises ILLEGAL_INSTR detail 2 and a destination that is none ILL_OPERAND detail 0, for every thread
that issues it, whatever the guards; without an active thread it only goes on; a register that an access in flight will write
keeps it where it is; then the lowest lane with a register whose tag IADD does not take decides FORMAT_MISMATCH, by the lower of
its failing registers; then a uniform destination needs every thread of its home warps. -/
def Obligations.ChecksInOrder : Prop :=
  ∀ (f : V3) (s : State), let c := s.ctx (.iadd f)
    let act := s.active c f.q
    let reads := f.a.toNat < 48 ∧ f.b.toNat < 48
    let regs := fun th : Th => [s.dreg c th f.d, .v f.a.toNat, .v f.b.toNat]
    let tagOf := fun (th : Th) (n : Nat) => (s.getReg th (.v n)).tag.toNat
    let bad := act.filter fun th => decide (2 < tagOf th f.a.toNat) || decide (2 < tagOf th f.b.toNat)
    let free := (∀ th ∈ act, ∀ r ∈ regs th, s.busy th r = false) ∧
      (c.trap = true ∨ ∀ th ∈ act, ∀ r ∈ regs th, s.marked th r = false)
    let trap := fun (cause : Nat) (tval : DWord) (mask : List Th) =>
      exec (.iadd f) s = .next (s.takeTrap c.u { cause := cause, tval := tval, mask := mask } c.len)
    (f.m.getLsbD 2 = true → trap (cz 0x00 2) c.tval c.u.th) ∧
    (f.m.getLsbD 2 = false → reads → f.d = 53 → trap (cz 0x03 0) c.tval c.u.th) ∧
    (f.m.getLsbD 2 = false → reads → f.d.toNat < 48 → act = [] →
      ∃ t, exec (.iadd f) s = .next t ∧ GoesOn t c ∧ Leaves s t) ∧
    (f.m.getLsbD 2 = false → reads → f.d.toNat < 48 → (∃ th ∈ act, ∃ r ∈ regs th, s.busy th r = true) →
      ∃ t, exec (.iadd f) s = .next t ∧ (∀ th tg, s.At th tg → t.At th tg) ∧ s.focus ∈ t.tried ∧ Leaves s t) ∧
    (f.m.getLsbD 2 = false → reads → f.d.toNat < 48 → free → ∀ th l, bad = th :: l →
      let ofA := 2 < tagOf th f.a.toNat ∧ (¬ 2 < tagOf th f.b.toNat ∨ f.a.toNat ≤ f.b.toNat)
      let first := if ofA then f.a.toNat else f.b.toNat
      trap (cz 0x0A (if ofA then 0 else 1)) (BitVec.ofNat 64 (256 * first + tagOf th first)) bad) ∧
    (f.m.getLsbD 2 = false → reads → 56 ≤ f.d.toNat → free → c.trap = false → act ≠ [] → bad = [] →
      s.complete c.u = false → trap (cz 0x09 0) c.tval act)

/-- The checks of SRD and SWR (R61, R273). -/
def srdChecks (s : State) (f : FS) : Checks :=
  { q := f.q, ill := illOf (f.m.extractLsb' 1 4 ≠ 0) false, opd := sregOpd f.x f [f.d],
    priv := sregPriv (s.trapMode s.unit) false f.sreg.toNat, d := if f.m.getLsbD 0 then dst2 f.d else dst1 f.d }

def swrChecks (s : State) (f : FS) : Checks :=
  { q := f.q, ill := illOf (f.m.extractLsb' 1 4 ≠ 0) false, opd := sregOpd f.x f [],
    priv := sregPriv (s.trapMode s.unit) true f.sreg.toNat, a := { code := f.d, n := if f.m.getLsbD 0 then 2 else 1 },
    split := sregSplit f.sreg.toNat }

/-- R60 to R68, R273, R274: SRD delivers the value of the register that its number names: the low word with the register's tag, or
both words as RAW; SWR writes the registers that R63 lists as RW and no other, the index registers, `%fpcr` and `%fpsr` without
their reserved bits, the low half of `%tpc` alone unless the transfer is of 64 bits. Trap-mode registers are privileged outside trap mode. -/
def Obligations.SpecialRegisters : Prop :=
  (∀ (f : FS) s act, s.gate (s.ctx (.srd f)) (srdChecks s f) = .go act →
    ∃ t, exec (.srd f) s = .next t ∧
      Computes s t (s.ctx (.srd f)) act f.d (if f.m.getLsbD 0 then 2 else 1) fun th =>
        let v := s.sreg s.unit th f.sreg.toNat
        if f.m.getLsbD 0 then out2 0 v
        else out1 (match sregInfo f.sreg.toNat with
          | some i => if i.wide then 0 else i.tag
          | none => 0) (v.extractLsb' 0 32)) ∧
  (∀ (f : FS) s act, let c := s.ctx (.swr f)
    let n := f.sreg.toNat
    let lo := fun th : Th => (s.src c th f.d 0).val
    s.gate c (swrChecks s f) = .go act → (n = 0x801 → s.setSplit c.u = false) →
    ∃ t, exec (.swr f) s = .next t ∧ GoesOn t c ∧
      (∀ th, t.spReg th = if th ∈ act ∧ n = 0x011 then lo th else s.spReg th) ∧
      (∀ th j, j < 4 → t.ixReg th j = if th ∈ act ∧ n = 0x020 + j then lo th &&& 0x00FFFFFF else s.ixReg th j) ∧
      (∀ th j, j < 3 → t.lcReg th j = if th ∈ act ∧ n = 0x028 + j then lo th else s.lcReg th j) ∧
      (∀ th ∈ act, leads act th = true →
        (t.warp th.wid).ovc = (if n = 0x218 then lo th else (s.warp th.wid).ovc) ∧
        (t.warp th.wid).nvc = (if n = 0x219 then lo th else (s.warp th.wid).nvc) ∧
        (t.warp th.wid).fpcr = (if n = 0x21A then lo th &&& 3 else (s.warp th.wid).fpcr) ∧
        (t.warp th.wid).fpsr = (if n = 0x21B then lo th &&& 31 else (s.warp th.wid).fpsr) ∧
        (t.warp th.wid).tpc = (if n = 0x801 then
            (if f.m.getLsbD 0 then (s.src c th f.d 1).val else (s.warp th.wid).tpc.extractLsb' 32 32) ++ lo th
          else (s.warp th.wid).tpc) ∧
        (t.warp th.wid).tkept = (if n = 0x801 then none else (s.warp th.wid).tkept)) ∧
      (∀ wid, (∀ th ∈ act, th.wid ≠ wid) → (t.warp wid).still = (s.warp wid).still) ∧
      Leaves s t { warp := fun w => { w with sp := [], ix := [], lc := [], ovc := 0, nvc := 0, fpcr := 0, fpsr := 0, tpc := 0,
                                             tkept := none } }) ∧
  (∀ (f : FS) s, let c := s.ctx (.srd f)
    f.m.extractLsb' 1 4 = 0 → f.d.toNat < 48 → (f.m.getLsbD 0 = true → f.d.getLsbD 0 = false) → c.trap = false →
    (0x800 ≤ f.sreg.toNat ∧ f.sreg.toNat ≤ 0x805 → exec (.srd f) s =
      .next (s.takeTrap c.u { cause := cz 0x04 0, tval := c.tval, mask := c.u.th } c.len)) ∧
    (0xC00 ≤ f.sreg.toNat ∧ f.sreg.toNat ≤ 0xC02 → exec (.srd f) s =
      .next (s.takeTrap c.u { cause := cz 0x04 1, tval := c.tval, mask := c.u.th } c.len))) ∧
  (∀ (s : State) (u : IssueUnit) (th : Th),
    s.sreg u th 0x000 = BitVec.ofNat 64 th.lane ∧ s.sreg u th 0x001 = BitVec.ofNat 64 (th.lane / 4) ∧
    s.sreg u th 0x010 = BitVec.ofNat 64 u.depth ∧ s.sreg u th 0x100 = BitVec.ofNat 64 (s.tickOf (s.warp th.wid).core) ∧
    s.sreg u th 0x101 = BitVec.ofNat 64 s.gtime ∧ s.sreg u th 0x102 = BitVec.ofNat 64 s.gtskew ∧
    s.sreg u th 0x200 = (s.coreRegs (s.warp th.wid).core).tagmap ∧
    (∀ k < 4, s.sreg u th (0x210 + k) = BitVec.ofNat 64 (s.counter th.wid k)) ∧
    s.sreg u th 0x801 = (s.warp th.wid).tpc ∧ s.sreg u th 0x802 = (s.warp th.wid).tval)

/-- What a return from a trap leaves in a warp's fault list of its own records (R276): those of its lanes are gone. -/
def keptRecords (w : Warp) : List FaultRec := (w.faults.map fun r => r.without w.trapSet).filter fun r => r.lanes ≠ 0

/-- A unit has left trap mode (R59, R141, R276, R399, R400): it runs on at `%tpc`, under the kept header while no SWR has
written `%tpc`, else at a header; its records are gone, and those held aside have joined the list as far as it has room for 8;
other warps are as they were. -/
def LeavesTrap (s : State) (wid : Nat) (u : IssueUnit) (t : State) : Prop :=
  let w := s.warp wid
  (t.warp wid).wdogPark = false ∧ (t.warp wid).aside = w.aside.drop (8 - (keptRecords w).length) ∧
  (t.warp wid).faults = keptRecords w ++
    (w.aside.take (8 - (keptRecords w).length)).map (fun r => { r with arrived := s.warpTick wid }) ∧
  (∀ th ∈ u.th, ∃ g ∈ (t.warp wid).groups, g.lanes.getLsbD th.lane = true ∧ g.pc = w.tpc ∧ g.st = .running ∧
    g.hdr = (w.tkept.getD (w.tpc, 0)).1 ∧ g.hw = (w.tkept.getD (w.tpc, 0)).2) ∧
  ∀ q, q ≠ wid → t.warps.find q = s.warps.find q

/-- No unit of the warp is in trap mode any longer, for none was held for trap entry (R276). -/
def OutOfTrap (s : State) (wid : Nat) (t : State) : Prop :=
  (s.warp wid).heldTraps = [] ∧ (t.warp wid).trapSet = 0 ∧ (t.warp wid).deliv = none

/-- The unit of the warp that has waited longest for trap entry is in its handler, with the trap it was held with (R59, R276). -/
def HeldOneEnters (s : State) (wid : Nat) (h : HeldTrap) (t : State) : Prop :=
  TrapSaved s wid ((s.warp wid).sliverLanes h.sliver)
    { cause := h.cause, tval := h.tval, mask := (lanesOf h.mask).map fun l => { wid := wid, lane := l }, recorded := h.recorded,
      trec := h.trec, deliv := h.deliv } { pc := h.pc, hdr := h.hdr, depth := h.depth } h.hw h.mix (t.warp wid) ∧
  (t.warp wid).heldTraps = (s.warp wid).heldTraps.tail ∧
  ∀ g ∈ (t.warp wid).groups, g.pos = 0 → g.sliver = h.sliver → g.pc = s.handlerAt wid h.cause ∧ g.st = .running

/-- A unit in trap mode that may return (R276, R469): it is the whole set, and a `%tpc` that an SWR has written names a
header. -/
def mayReturn (s : State) (c : Ctx) (act : List Th) : Prop :=
  s.setSplit c.u = false ∧ ∀ p ∈ c.u.mem, (s.warp p.1).tkept ≠ none ∨ ∀ th ∈ act, landsNow s th (s.warp p.1).tpc

/-- How many accesses of an instruction a return drops (R276). -/
def droppedCount (w : Warp) (iid : Nat) : Nat :=
  ((w.faults.filter fun r => r.iid = iid).map fun r => r.weight - (r.without w.trapSet).weight).sum

/-- What a return may change beside the groups. -/
def returnFrame (s : State) : MayChange :=
  { warp := fun w => { w with trapSet := 0, wdogPark := false, deliv := none, faults := [], aside := [] }
    newId := fun k => s.nextId ≤ k
    rest := fun x => { x with outst := [], nextId := 0 } }

/-- R276, R59, R141, R400, R469: RTE and RTEX. RTE drops the records of its lanes and their counts fall; RTEX issues them again,
each for its recorded address, data and handle, and no count falls; one whose handle is no longer live faults again. A unit of
the warp that was held for trap entry then enters its handler. -/
def Obligations.ReturnsFromTraps : Prop :=
  (∀ (f : V3) s act wid k, let c := s.ctx (.rte f)
    s.gate c (sysChecks s f.q) = .go act → c.u.mem = [(wid, k)] → mayReturn s c act → (∀ o ∈ s.outst, o.left ≠ 0) →
    s.heldRels wid = [] → (s.warp wid).heldTraps = [] →
    ∃ t, exec (.rte f) s = .next t ∧ LeavesTrap s wid c.u t ∧ OutOfTrap s wid t ∧ t.accs = s.accs ∧
      t.outst = (s.outst.map fun o => if o.wid = wid then { o with left := o.left - droppedCount (s.warp wid) o.iid } else o).filter
        (fun o => o.left ≠ 0) ∧
      Leaves s t (returnFrame s)) ∧
  (∀ (f : V3) s act wid k, let c := s.ctx (.rtex f)
    s.gate c (sysChecks s f.q) = .go act → c.u.mem = [(wid, k)] → mayReturn s c act → s.heldRels wid = [] →
    (s.warp wid).heldTraps = [] →
    ∃ t, exec (.rtex f) s = .next t ∧ LeavesTrap s wid c.u t ∧ OutOfTrap s wid t ∧ t.outst = s.outst ∧
      (∀ r ∈ (s.warp wid).faults, ∀ l ∈ r.each, (s.warp wid).trapSet.getLsbD l.lane = true → r.kind ≠ .ldu →
        ∃ id a, s.nextId ≤ id ∧ t.accs.find id = some a ∧ a.kind = r.kind ∧ a.iid = r.iid ∧ a.wid = wid ∧ a.lane = l.lane ∧
          a.va = l.addr ∧ a.hyp = r.hyp ∧ (r.kind = .st → a.data = l.data) ∧
          a.st = if (s.part (s.partOf wid)).liveH r.hyp then .sent else .faulted) ∧
      (∀ r ∈ (s.warp wid).faults, r.kind = .ldu → (∃ l ∈ r.each, (s.warp wid).trapSet.getLsbD l.lane = true) →
        ∃ id a, s.nextId ≤ id ∧ t.accs.find id = some a ∧ a.kind = .ldu ∧ a.iid = r.iid ∧ a.wid = wid ∧ a.hyp = r.hyp ∧
          a.lanes = r.lanes &&& (s.warp wid).trapSet) ∧
      Leaves s t (returnFrame s)) ∧
  (∀ (i : Instr) (f : V3) s act wid k h hs, (i = .rte f ∨ i = .rtex f) → let c := s.ctx i
    s.gate c (sysChecks s f.q) = .go act → c.u.mem = [(wid, k)] → mayReturn s c act → (s.warp wid).heldTraps = h :: hs →
    h.sliver ≠ k → canLand s { wid := wid, lane := 0 } (s.handlerAt wid h.cause) →
    ∃ t, exec i s = .next t ∧ LeavesTrap s wid c.u t ∧ HeldOneEnters s wid h t) ∧
  (∀ (f : V3) s, let c := s.ctx (.rte f)
    c.trap = false → exec (.rte f) s = .next (s.takeTrap c.u { cause := cz 0x04 3, tval := c.tval, mask := c.u.th } c.len))

/-- The warps of some threads without their latched events (R278). -/
def LatchesCleared (s : State) (act : List Th) (m : State) : Prop :=
  (∀ wid, m.warps.find wid = (s.warps.find wid).map fun w => if wid ∈ widsOf act then { w with latch := 0 } else w) ∧
  { m with warps := [] } = { s with warps := [] }

/-- The event code that a latch answers: the lowest one latched, 0 for none (R278). -/
def lowestEvent (l : BitVec 5) : Nat :=
  if l.getLsbD 0 then 1 else if l.getLsbD 1 then 2 else if l.getLsbD 2 then 3 else if l.getLsbD 3 then 4
  else if l.getLsbD 4 then 5 else 0

/-- The length of a range of TLBI (R277). -/
def tlbiLength (f : V3) (s : State) (c : Ctx) (th : Th) : Nat := ((s.src c th f.b 1).val ++ (s.src c th f.b 0).val).toNat

/-- The checks of TLBI (R277). -/
def tlbiChecks (s : State) (f : V3) : Checks :=
  { sysChecks s f.q with
    opd := opdV f.x [f.a, f.b] [] (f.b :: ownPair (globalBaseBad f.a) f.a) (globalBaseBad f.a), a := { code := f.a, n := 2 },
    b := { code := f.b, n := 2 } }

/-- The checks of WIDLE (R278). -/
def widleChecks (f : V3) : Checks := { q := f.q, opd := opdV f.x [f.d, f.a] [f.d] [], a := srcAny f.a, d := dst1 f.d }

/-- WIDLE has answered: each warp's events are cleared, and each thread holds the lowest of its warp. -/
def WidleAnswers (f : V3) (s : State) (c : Ctx) (act : List Th) (t : State) : Prop :=
  ∃ m, LatchesCleared s act m ∧
    Computes m t c act f.d 1 fun th => out1 2 (BitVec.ofNat 32 (lowestEvent (s.warp th.wid).latch))

/-- Corrected errors of the registers that a core keeps while it sleeps. -/
def correctedAsleep (s : State) (core : Nat) : Nat :=
  (s.upsets.filter fun u => match u with
    | .retained wid _ _ false => (s.warp wid).core = core
    | _ => false).length

/-- A range of TLBI (R277): whole 64-KiB pages, clipped at 2^52. -/
def tlbiRange (f : V3) (s : State) (c : Ctx) (th : Th) : Nat × Nat :=
  let va := ((s.src c th f.a 1).val ++ (s.src c th f.a 0).val).toNat
  let len := tlbiLength f s c th
  if f.b = 52 then (0, 2 ^ 52) else (min (va / 2 ^ 16 * 2 ^ 16) (2 ^ 52), min ((va + len + (2 ^ 16 - 1)) / 2 ^ 16 * 2 ^ 16) (2 ^ 52))

/-- R277 to R279, R387, R398: PARK, WIDLE, TLBI, a core's wake and the watchdog. A parked unit stands past its instruction; WIDLE
answers and clears the events latched, or waits, a timeout answering as the instruction does; TLBI holds its unit until every
shootdown it began is complete, and a purge leaves no translation and no copy of its range. -/
def Obligations.ParkingIdlingAndShootdowns : Prop :=
  (∀ (f : V3) s act wid k, let c := s.ctx (.park f)
    s.gate c (sysChecks s f.q) = .go act → c.u.mem = [(wid, k)] → s.setSplit c.u = false →
    (∀ g ∈ (s.warp wid).running k, g.lanes ≠ 0) → ∃ t, exec (.park f) s = .next t ∧ GoesOn t c ∧
      (∀ th ∈ c.u.th, ∃ g ∈ (t.warp wid).groups, g.lanes.getLsbD th.lane = true ∧ g.st = .parked ∧ g.skip = 0) ∧ Leaves s t) ∧
  (∀ f : V3,
    Performs (.widle f) (widleChecks f)
      (fun s c act => (∀ th ∈ act, (s.warp th.wid).latch ≠ 0) ∨ s.widleOver c.u = true) (WidleAnswers f) ∧
    Performs (.widle f) (widleChecks f)
      (fun s c act => (∃ th ∈ act, (s.warp th.wid).latch = 0) ∧ s.widleOver c.u = false ∧
        ∀ p ∈ c.u.mem, ∀ g ∈ (s.warp p.1).running p.2, g.st ≠ .widle)
      (fun s c act t => Stays s c .widle t ∧
        ∀ th ∈ c.u.th, ∃ g ∈ (t.warp th.wid).groups, g.lanes.getLsbD th.lane = true ∧ g.st = .widle ∧
          g.since = s.warpTick (c.u.mem.headD (0, 0)).1 ∧
          (g.bound = 0 ↔ ∀ u ∈ act, (s.src c u f.a 0).val = 0) ∧
          ∀ u ∈ act, (s.src c u f.a 0).val ≠ 0 → g.bound ≤ (s.src c u f.a 0).val.toNat)) ∧
  (∀ (s : State) (wid k : Nat) (i : V3) (act : List Th), let f : Focus := { wid := wid, sliver := k }
    let at_ : State := { s with focus := f }
    (s.gang (s.block (s.warp wid).bid).gid).st = .running → s.widleOver (s.unitAt f) = true →
    s.nextInstr (s.unitAt f) = .ok (.widle i) → at_.gate (at_.ctx (.widle i)) (widleChecks i) = .go act →
    ∃ t, exec (.widleTimeout wid k) s = .next t ∧ t.focus = s.focus ∧
      WidleAnswers i at_ (at_.ctx (.widle i)) act { t with focus := f }) ∧
  (∀ (f : V3) s act wid k, let c := s.ctx (.tlbi f)
    let ranged := act.filter fun th => f.b = 52 || tlbiLength f s c th ≠ 0
    s.gate c (tlbiChecks s f) = .go act →
    (ranged = [] → ∃ t, exec (.tlbi f) s = .next t ∧ GoesOn t c ∧ Leaves s t) ∧
    (ranged ≠ [] → c.u.mem = [(wid, k)] → s.releaseHold c ranged = none →
    ∃ t, exec (.tlbi f) s = .next t ∧
      (∀ th ∈ c.u.th, (∀ tg, s.At th tg → t.At th tg) ∧
        ∃ g ∈ (t.warp wid).groups, g.lanes.getLsbD th.lane = true ∧ g.st = .asking) ∧
      ∀ th ∈ ranged, s.parts.find (s.partOf wid) ≠ none → ∃ id sd, (t.part (s.partOf wid)).sds.find id = some sd ∧
        (sd.lo, sd.hi) = tlbiRange f s c th ∧ sd.asid = s.asidOf wid ∧ sd.fromHost = false ∧ sd.wid = wid ∧ sd.sliver = k ∧
        sd.len = c.len) ∧
    (ranged ≠ [] → c.u.mem = [(wid, k)] → s.releaseHold c ranged = none → s.parts.find (s.partOf wid) ≠ none → s.accs = [] →
      (∀ x ∈ (s.part (s.partOf wid)).sds, ¬ (x.2.fromHost = false ∧ x.2.wid = wid ∧ x.2.sliver = k)) →
      (∃ r, ∀ th ∈ ranged, tlbiRange f s c th = r) →
      ∃ m t, exec (.tlbi f) s = .next m ∧ exec (.shootdownComplete (s.partOf wid) s.nextId) m = .next t ∧
        (t.part (s.partOf wid)).sds.find s.nextId = none ∧ ∀ th ∈ c.u.th, t.At th (fallThrough c.u c.len))) ∧
  (∀ (s : State) (p asid lo hi : Nat), let t := s.purge p asid lo hi
    (∀ e ∈ t.tlb, ¬ (e.part = p ∧ e.asid = asid ∧ e.page * levelBytes e.level < hi ∧
      lo < (e.page + 1) * levelBytes e.level)) ∧
    (∀ l ∈ t.l1, ¬ (l.part = p ∧ l.asid = asid ∧ lo ≤ l.line * 128 ∧ l.line * 128 < hi)) ∧
    (∀ r ∈ t.reg, r.part = p → r.asid = asid → lo ≤ r.line * 128 → r.line * 128 < hi → r.mask = 0) ∧ t.vers = s.vers) ∧
  (∀ (s : State) (p id : Nat) (P : Part) (sd : Shootdown), s.parts.find p = some P → P.sds.find id = some sd →
    s.sdDone sd = true →
    (sd.fromHost = true → ∃ t, exec (.shootdownComplete p id) s = .next t ∧ (t.part p).sds.find id = none ∧
      (t.part p).b2.sddone = P.b2.sddone + 1) ∧
    (sd.fromHost = false → (∀ x ∈ P.sds, x.1 ≠ id → ¬ (x.2.fromHost = false ∧ x.2.wid = sd.wid ∧ x.2.sliver = sd.sliver)) →
      (s.unitAt { wid := sd.wid, sliver := sd.sliver }).mem = [(sd.wid, sd.sliver)] →
      ∃ t, exec (.shootdownComplete p id) s = .next t ∧ (t.part p).sds.find id = none ∧
        ∀ th ∈ (s.unitAt { wid := sd.wid, sliver := sd.sliver }).th,
          t.At th (fallThrough (s.unitAt { wid := sd.wid, sliver := sd.sliver }) sd.len))) ∧
  (∀ (s : State) (core : Nat), (s.coreRegs core).asleep = true →
    ∃ t, exec (.coreWake core) s = .next t ∧ (t.coreRegs core).asleep = false ∧
      (∀ wid lane n, .retained wid lane n true ∈ s.upsets → (s.warp wid).core = core → .register wid lane n ∈ t.upsets) ∧
      (∀ wid lane n bad, .retained wid lane n bad ∈ t.upsets → (s.warp wid).core ≠ core) ∧
      t.wafer.soft.getD (core / 4) 0 = (if correctedAsleep s core = 0 then s.wafer.soft.getD (core / 4) 0
        else min (s.wafer.soft.getD (core / 4) 0 + correctedAsleep s core) (2 ^ 32 - 1)) ∧
      (∀ x, x ≠ core → t.coreRegs x = s.coreRegs x) ∧
      (∀ wid w, s.warps.find wid = some w → t.warps.find wid = some w ∨
        (t.warps.find wid = some { w with latch := w.latch ||| 0x10 } ∧ w.core = core ∧ w.latch = 0)) ∧
      ((∀ w ∈ s.warps, w.2.core = core → w.2.latch = 0 ∧ ∀ g ∈ w.2.groups, g.st = .widle ∧ g.bound = 0) →
        ∀ wid w, s.warps.find wid = some w → w.core = core → w.groups ≠ [] → (t.warp wid).latch = 0x10)) ∧
  (∀ (s : State) (wid : Nat), (s.gang (s.block (s.warp wid).bid).gid).st = .running → (s.warp wid).trapSet ≠ 0 →
    (s.warp wid).trapSince + 2 ^ 24 ≤ s.warpTick wid →
    (∀ g ∈ (s.warp wid).groups, g.st ≠ .asking ∧ g.st ≠ .geo ∧ g.parkNext = none ∧ g.st ≠ .parked) →
    (∀ g ∈ (s.warp wid).groups, ∀ h ∈ (s.warp wid).groups, g.pos = 0 → h.pos = 0 → g.quad = h.quad → g = h) → (∃ g ∈ (s.warp wid).groups, g.pos = 0 ∧ g.quad < 8 ∧
      g.lanes &&& (s.warp wid).trapSet ≠ 0) →
    ∃ t, exec (.watchdogTimeout wid) s = .next t ∧ (t.warp wid).tcause = BitVec.ofNat 32 (cz 0x3A 1) ∧ (t.warp wid).tval = 0 ∧
      (t.warp wid).wdogPark = true ∧ (t.warp wid).tpc = (s.warp wid).tpc ∧ (t.warp wid).tmask = (s.warp wid).tmask ∧
      (∀ g ∈ (t.warp wid).groups, g.pos = 0 → g.quad < 8 → g.lanes &&& (s.warp wid).trapSet ≠ 0 → g.st = .parked) ∧
      ∀ th tg, s.At th tg → t.At th tg)

/-! ## Accesses on their way -/

/-- An error of a line of a frame. -/
def inLine : Upset → Prop
  | .line _ _ => True
  | _ => False

/-- What an access performed at a home slice may change: memory below the cores, with its tables, caches and meters, and how
far the accesses have come. (A line that a full L1 gives up is chosen by a free value: `freeCtr`, log entry 61.) -/
def homeFrame : MayChange :=
  { part := Part.frozen
    acc := fun a => some { a with snap := [], st := .sent, data := [], cause := 0, level := 7, pte := 0, answer := 0, faultAt := 0 }
    rest := fun x => { x with nextId := 0, freeCtr := 0, vault := [], hostMem := [], peerMem := [], seals := [], tlb := [], l1 := [],
                              l2 := [], reg := [] }
    upset := inLine }

/-- An access whose packet has arrived, that nothing orders behind another and no bias flip stalls (R81, R83, R84, R100, R446),
and whose page its home slice has translated (R383). -/
def atHome (s : State) (id : Nat) (a : Access) (kind : WalkKind) (lf : Leaf) (tile : Nat) : Prop :=
  s.accs.find id = some a ∧ s.mayPerform id a = true ∧ (s.translate a.part a.asid a.va kind).2 = .ok lf ∧
  (s.part a.part).homeTile a.va = some tile

/-- The core of an access has room for its line under an id in the L1, or holds it (R1). -/
def roomInL1 (s : State) (a : Access) (hid : Nat) : Prop :=
  (s.l1Find a.core a.part a.asid (lineOf a.va) hid).isSome = true ∨ (s.l1.filter fun l => l.core = a.core).length < Config.l1Lines

/-- The bytes of an access lie in one line. -/
def inOneLine (a : Access) : Prop := 0 < a.size ∧ a.va.toNat % 128 + a.size ≤ 128

/-- The access has been performed; it is otherwise as it was, but for the line it brings. -/
def Performed (a : Access) (data : List Byte) (id : Nat) (t : State) : Prop :=
  ∃ b, t.accs.find id = some b ∧ b.st = .answered ∧ b.data = data ∧
    { b with st := a.st, data := a.data, snap := [], answer := a.answer } = { a with snap := [] }

/-- The access is complete: it is gone, and its instruction's count falls with its last one (R199). -/
def Finished (s : State) (id : Nat) (a : Access) (t : State) : Prop :=
  t.accs.find id = none ∧
  t.outst = (s.outst.map fun o => if o.wid = a.wid && o.iid = a.iid then { o with left := o.left - 1 } else o).filter
    fun o => o.left ≠ 0

/-- R78 to R80, R199, R209: a root store registers, its core becomes the owner of its words and a read at the home slice gives
its bytes (on a host-bias page the bytes are written through, R99); its acknowledgement completes it; a load is answered, or
forwarded to another owner; an atomic answers the old value and leaves the new one; a failed translation is recorded with its
cause (R207); and bytes written at a slice read back there. -/
def Obligations.AccessesAtHome : Prop :=
  (∀ (s : State) (id : Nat) (a : Access) (lf : Leaf) (tile : Nat), atHome s id a .store lf tile → a.kind = .st →
    a.hyp.extractLsb' 0 8 = 0 → a.st = .sent → s.storeFail id a = none → (s.coreRegs a.core).failed = false →
    a.data.length = a.size → inOneLine a →
    ∃ t, exec (.storeRegistration id) s = .next t ∧ Performed a a.data id t ∧
      (lf.devBias = true → t.committed a.part a.asid tile lf a.va a.size = .ok a.data ∧
        ∃ r, t.regFind a.part a.asid (lineOf a.va) = some r ∧ r.core = a.core ∧ r.mask &&& a.words = a.words) ∧
      (lf.devBias = false → roomInL1 s a 0 → ∀ i b, a.data[i]? = some b → Memory.rd (t.space lf.space) (lf.addr + i) = b) ∧
      Leaves s t homeFrame) ∧
  (∀ (s : State) (id : Nat) (a : Access) (f : WalkFail), s.accs.find id = some a → s.mayPerform id a = true → a.st = .sent →
    (s.translate a.part a.asid a.va (match a.kind with
      | .st => .store
      | .atom => .atomic
      | _ => .load)).2 = .error f →
    (a.kind = .st ∧ a.hyp.extractLsb' 0 8 = 0) ∨ a.kind = .atom ∨ a.kind = .ld ∨ a.kind = .ldu ∨ a.kind = .ldt →
    ∃ t b, exec (match a.kind with
        | .st => .storeRegistration id
        | .atom => .atomicAtHomeSlice id
        | _ => .loadAtHomeSlice id) s = .next t ∧ t.accs.find id = some b ∧ b.st = .faulted ∧ b.cause = f.cause) ∧
  (∀ (s : State) (id : Nat) (a : Access), s.accs.find id = some a → a.st = .answered → s.delivered a = true →
    a.kind = .st ∨ a.kind = .stn ∨ a.kind = .cwb →
    ∃ t, exec (.storeAcknowledge id) s = .next t ∧ Finished s id a t ∧
      Leaves s t { newId := fun k => k = id, rest := fun x => { x with outst := [] } }) ∧
  (∀ (s : State) (id : Nat) (a : Access) (lf : Leaf) (tile : Nat), atHome s id a .load lf tile → a.kind.isLoad = true →
    a.st = .sent → s.accLid id a true = false → ¬ (a.kind = .pref ∧ a.op = 1) →
    (∀ c, s.foreignOwner a = some c → ∃ t, exec (.loadAtHomeSlice id) s = .next t ∧
      t.accs.find id = some { a with st := .atOwner c } ∧ Leaves s t homeFrame) ∧
    (∀ bs, s.foreignOwner a = none →
      (s.translate a.part a.asid a.va .load).1.homeBytes (some a.core) a.part a.asid tile a.chain lf a.va
        (if a.kind = .pref then 128 else a.size) = .ok bs →
      ∃ t, exec (.loadAtHomeSlice id) s = .next t ∧ Performed a bs id t ∧ Leaves s t homeFrame)) ∧
  (∀ (s : State) (id c : Nat) (a : Access) (lf : Leaf) (tile : Nat) (bs : List Byte), s.accs.find id = some a →
    a.st = .atOwner c → (s.translate a.part a.asid a.va .load).2 = .ok lf → (s.part a.part).homeTile a.va = some tile →
    (s.coreRegs c).failed = false →
    s.homeBytes (some a.core) a.part a.asid tile a.chain lf a.va (if a.kind = .pref then 128 else a.size) = .ok bs →
    ∃ t, exec (.ownerForward id) s = .next t ∧ Performed a bs id t ∧ Leaves s t homeFrame) ∧
  (∀ (s : State) (id : Nat) (a : Access) (lf : Leaf) (tile : Nat) (old : List Byte), atHome s id a .atomic lf tile →
    a.kind = .atom → a.st = .sent → s.storeFail id a = none → a.size = 4 ∨ a.size = 8 → lf.addr % 128 + a.size ≤ 128 →
    lf.devBias = true ∨ s.l2Find tile lf.space (lf.addr / 128 * 128) = none →
    ((s.translate a.part a.asid a.va .atomic).1.forceBack a.part a.asid (lineOf a.va) tile lf).committed a.part a.asid tile lf
      a.va a.size = .ok old →
    ∃ t, exec (.atomicAtHomeSlice id) s = .next t ∧ Performed a old id t ∧
      t.slice (s.part a.part) tile lf a.size =
        .ok (natLe a.size (atomNew a.op (BitVec.ofNat 64 (leNat old)) a.opcC a.opcD).toNat) ∧
      Leaves s t homeFrame) ∧
  (∀ (s : State) (P : Part) (tile : Nat) (lf : Leaf) (bs : List Byte), bs ≠ [] → lf.addr % 128 + bs.length ≤ 128 →
    s.lineUpset lf.space lf.addr = false →
    lf.devBias = true ∨ s.l2Find tile lf.space (lf.addr / 128 * 128) = none →
    (s.sliceWrite P tile lf (bs.zipIdx.map fun b => (b.2, b.1))).slice P tile lf bs.length = .ok bs)

/-- The registers that a reply writes are named once, by numbers that an operand can name. -/
def clearDst (a : Access) : Prop :=
  (∀ x ∈ a.dst, x.2.Nodup ∧ ∀ q ∈ x.2, DReg.small q) ∧ a.dst.Nodup ∧
  ∀ x ∈ a.dst, ∀ y ∈ a.dst, x ≠ y → ∀ q ∈ x.2, ∀ r ∈ y.2,
    ¬ SameReg { wid := a.wid, lane := x.1 } q { wid := a.wid, lane := y.1 } r

/-- What a reply may change: registers of its warp, the copies of its core and the counts. -/
def replyFrame (id : Nat) : MayChange :=
  { warp := Warp.noRegs, acc := fun a => some { a with snap := [] }, newId := fun k => k = id
    rest := fun x => { x with outst := [], l1 := [] }, upset := Upset.inRegister }

/-- What it may change when a full L1 gives up a line for the reply's: that line's words may go back to their slice too. -/
def evictFrame (id : Nat) : MayChange :=
  { homeFrame with
    warp := Warp.noRegs, newId := fun k => k = id, rest := fun x => { homeFrame.rest x with outst := [] }
    upset := fun u => inLine u ∨ Upset.inRegister u }

/-- R17, R18, R80, R83, R92, R197, R206, R209: a value returns to its registers, with its tag, and its instruction is complete; an
acquire then leaves its core only what it owns. A gang-remote access is performed at its target in stream order. A host store
ends the slices' copies of its lines. -/
def Obligations.RepliesAndRemoteAccesses : Prop :=
  (∀ (s : State) (id : Nat) (a : Access), s.accs.find id = some a → a.st = .answered → s.delivered a = true → clearDst a →
    s.warps.find a.wid ≠ none →
    a.kind = .ld ∨ a.kind = .ldu ∨ a.kind = .ldt ∨ a.kind = .ldn ∨ a.kind = .atom ∨ a.kind = .atomn →
    ∃ t, exec (.loadReply id) s = .next t ∧
      (∀ x ∈ a.dst, HoldsWords t { wid := a.wid, lane := x.1 } x.2 (loadWords a.size a.signed a.data) a.tag) ∧
      OtherRegsKept s t (a.dst.map fun x => ({ wid := a.wid, lane := x.1 }, x.2)) ∧ Finished s id a t ∧
      (a.acq = true → a.kind ≠ .ldn → ∀ l ∈ t.l1, l.core = a.core →
        l.valid &&& ~~~(wordBytesMask (l.owned ||| s.mergedWords l.core l.part l.asid l.hid l.line)) = 0) ∧
      Leaves s t (evictFrame id) ∧ ((a.acq = true ∨ ∀ hid, roomInL1 s a hid) → Leaves s t (replyFrame id))) ∧
  (∀ (s : State) (id : Nat) (a : Access), s.accs.find id = some a → a.st = .sent → s.delivered a = true →
    s.streamHead id a = true → s.blocks.find a.target ≠ none →
    (a.kind = .ldn → (s.block a.target).retired = false → ∃ t, exec (.gangRemoteArrival id) s = .next t ∧
      Performed a (s.rdScratch a.target a.va.toNat a.size) id t ∧ Leaves s t homeFrame) ∧
    (a.kind = .stn → ∃ t, exec (.gangRemoteArrival id) s = .next t ∧ Performed a a.data id t ∧
      ScratchIs s t [(a.target, a.va.toNat, a.data)] ∧
      (∀ wid w, s.warps.find wid = some w →
        (t.warp wid).latch = if w.bid = a.target then w.latch ||| 4 else w.latch) ∧
      Leaves s t { homeFrame with warp := fun w => { w with latch := 0 }, block := Block.noScratch, upset := Upset.inScratch }) ∧
    (a.kind = .atomn → ∃ t, exec (.gangRemoteArrival id) s = .next t ∧
      Performed a (natLe a.size (leNat (s.rdScratch a.target a.va.toNat (atomSize a.op)))) id t ∧
      ScratchIs s t [(a.target, a.va.toNat, natLe (atomSize a.op)
        (atomNew a.op (BitVec.ofNat 64 (leNat (s.rdScratch a.target a.va.toNat (atomSize a.op)))) a.opcC a.opcD).toNat)])) ∧
  (∀ (s : State) (peer : Bool) (addr : DWord) (data : List Byte), let sp := if peer then 2 else 1
    ∃ t, exec (.hostSnoop peer addr data) s = .next t ∧
      (∀ i b, data[i]? = some b → Memory.rd (t.space sp) (addr.toNat + i) = b) ∧
      (∀ l ∈ t.l2, ¬ (l.space = sp ∧ ∃ i < data.length, (addr.toNat + i) / 128 * 128 = l.addr)) ∧
      Leaves s t homeFrame)

/-- An access of a list of faulted ones holds a lane. -/
def laneAmong (l : List (Nat × Access)) (lane : Nat) : Bool := l.any fun x => x.2.lanes.getLsbD lane

/-- R207, R296, R301, R399, R400, R437, R446: versions, recorded faults and dropped packets. A version write joins its sector's
entry, waits for an entry, or, when its hypothesis was refuted, is dropped, and is acknowledged but while it waits; one that
was confirmed into the root is committed there; one that has waited 65,536 ticks faults, unless its hypothesis was resolved
meanwhile. The faulted accesses of an instruction become one record, in the list or held aside, and keep their counts;
a record 256 ticks old is taken as a trap at its unit's position. A packet that the sieve drops, of
an access, an engine operation or a hypothesis request, is logged, and may be sent again after 16 µs; until then nothing of
it is done. -/
def Obligations.VersionsFaultsAndDrops : Prop :=
  (∀ (s : State) (id : Nat) (a : Access) (lf : Leaf) (tile : Nat) (h : BitVec 16), atHome s id a .store lf tile → a.kind = .st →
    a.hyp.extractLsb' 0 8 ≠ 0 → a.st = .sent → s.accLid id a false = false →
    (s.part a.part).effHyp ((s.part a.part).homePlace a.va) a.hyp = some h → h.extractLsb' 0 8 ≠ 0 →
    let room := s.versionRoom a.part a.asid a.va (h.extractLsb' 0 8).toNat none
    ∃ t, exec (.versionWriteAtSlice id) s = .next t ∧
      (room = true → a.data.length = a.size → a.va.toNat % 32 + a.size ≤ 32 → 0 < a.size → Performed a a.data id t ∧
        ∃ v ∈ t.vers, v.part = a.part ∧ v.asid = a.asid ∧ v.sector = a.va.toNat / 32 ∧ v.hyp.extractLsb' 0 8 = h.extractLsb' 0 8 ∧
          ∀ i b, a.data[i]? = some b → v.mask.getLsbD (a.va.toNat % 32 + i) = true ∧
            Memory.rd v.data (a.va.toNat % 32 + i) = b) ∧
      (room = false → t.accs.find id = some { a with st := .waiting (s.sliceTick a.part a.va) s.nextId } ∧ t.vers = s.vers)) ∧
  (∀ (s : State) (id : Nat) (a : Access), s.accs.find id = some a → s.mayPerform id a = true → a.kind = .st →
    a.hyp.extractLsb' 0 8 ≠ 0 → a.st = .sent →
    (s.part a.part).effHyp ((s.part a.part).homePlace a.va) a.hyp = none →
    ∃ t, exec (.versionWriteAtSlice id) s = .next t ∧ Performed a a.data id t ∧ t.vers = s.vers ∧ Leaves s t homeFrame) ∧
  (∀ (s : State) (id : Nat) (a : Access) (lf : Leaf) (tile : Nat) (h : BitVec 16), atHome s id a .store lf tile → a.kind = .st →
    a.hyp.extractLsb' 0 8 ≠ 0 → a.st = .sent → (s.part a.part).effHyp ((s.part a.part).homePlace a.va) a.hyp = some h →
    h.extractLsb' 0 8 = 0 → a.data.length = a.size → inOneLine a → lf.addr % 128 + a.size ≤ 128 →
    s.lineUpset lf.space lf.addr = false → lf.devBias = true ∨ s.l2Find tile lf.space (lf.addr / 128 * 128) = none →
    ∃ t, exec (.versionWriteAtSlice id) s = .next t ∧ Performed a a.data id t ∧ t.vers = s.vers ∧ Leaves s t homeFrame ∧
      ((∀ hid, roomInL1 s a hid) → t.slice (s.part a.part) tile lf a.size = .ok a.data)) ∧
  (∀ (s : State) (id since n : Nat) (a : Access), s.accs.find id = some a → a.st = .waiting since n →
    since + 65536 ≤ s.sliceTick a.part a.va →
    let P := s.part a.part
    ∃ t b, exec (.hypCapacityTimeout id) s = .next t ∧ t.accs.find id = some b ∧
      (P.effHyp (P.homePlace a.va) a.hyp = some a.hyp → P.effBy (fun _ => true) a.hyp ≠ none →
        b.st = .faulted ∧ b.cause = cz 0x29 0) ∧
      (P.effBy (fun _ => true) a.hyp = none → b.st = .answered) ∧
      (P.effBy (fun _ => true) a.hyp ≠ none → P.effHyp (P.homePlace a.va) a.hyp ≠ some a.hyp → t = s)) ∧
  (∀ (s : State) (id : Nat) (a : Access) (w : Warp), s.accs.find id = some a → a.st = .faulted → s.warps.find a.wid = some w →
    s.allJudged a.wid a.iid = true → a.inTrap = false → s.fqHeld a.part = false →
    let l := s.faultedOf a.wid a.iid
    ∃ t r joined, exec (.faultRecordArrive id) s = .next t ∧
      (t.warp a.wid).faults = w.faults ++ joined ∧ (t.warp a.wid).faults.length ≤ max 8 w.faults.length ∧
      (joined ++ (t.warp a.wid).aside).length = w.aside.length + 1 ∧ (r ∈ joined ∨ r ∈ (t.warp a.wid).aside) ∧
      (∀ q ∈ joined, q = r ∨ ∃ q' ∈ w.aside, q = { q' with arrived := s.warpTick a.wid }) ∧
      (∀ q ∈ joined, w.trapSet &&& q.lanes = 0) ∧
      (∀ q ∈ (t.warp a.wid).aside, w.trapSet &&& q.lanes ≠ 0 ∨ 8 ≤ (t.warp a.wid).faults.length) ∧
      (∀ x, l.head? = some x → r.cause = x.2.cause ∧ r.pc = x.2.pc ∧ r.hyp = x.2.hyp ∧ r.kind = x.2.kind) ∧
      (∀ lane < 32, r.lanes.getLsbD lane = laneAmong l lane) ∧ r.arrived = s.warpTick a.wid ∧ t.outst = s.outst ∧
      ∀ x ∈ t.accs, ¬ (x.2.wid = a.wid ∧ x.2.iid = a.iid ∧ x.2.st = .faulted)) ∧
  (∀ (s : State) (wid k : Nat) (r : FaultRec), let u := s.unitAt { wid := wid, sliver := k }
    s.timeoutUnit wid = some k → u.mem = [(wid, k)] → (s.warp wid).oldestRec (lanesIn u.th wid) = some r →
    hasHandler s u r.cause →
    ∃ t, exec (.faultTrapTimeout wid) s = .next t ∧
      TrapSaved s wid ((s.warp wid).sliverLanes k) (s.recTrap wid r) { pc := u.pc, hdr := u.hdr, depth := u.depth } u.hw false
        (t.warp wid) ∧
      (∀ th ∈ u.th, t.At th (atHeader (s.handlerAt wid r.cause) u.depth)) ∧ (t.warp wid).deliv = r.fqseq) ∧
  (∀ (s : State) (id tile plane port reason : Nat) (a : Access), s.accs.find id = some a → a.st = .sent ∨ a.st = .answered →
    a.dropped = none → s.accWay a = .drop tile plane port reason →
    ∃ t, exec (.sieveDrop id) s = .next t ∧ t.accs.find id = some { a with dropped := some s.gtime } ∧
      t.grm.svtail = s.grm.svtail + 1 ∧ (reason ≠ 2 → t.grm.repairs.length = s.grm.repairs.length + 1) ∧
      Leaves s t { acc := fun a => some { a with dropped := none },
                   rest := fun x => { x with grm := { x.grm with svlog := [], svtail := 0, repairs := [] } } }) ∧
  (∀ (s : State) (id since : Nat) (a : Access), s.accs.find id = some a → a.dropped = some since → since + 16000 ≤ s.gtime →
    ∃ t, exec (.packetResend id) s = .next t ∧ t.accs.find id = some { a with dropped := none }) ∧
  (∀ (s : State) (id tile plane port reason : Nat) (o : EngineOp) (k : Packet), s.accs.find id = none → s.ops.find id = some o →
    o.st = .running → o.dropped = none → s.engineDrop o = some (k, tile, plane, port, reason) →
    ∃ t, exec (.sieveDrop id) s = .next t ∧ t.ops.find id = some { o with dropped := some s.gtime } ∧ k.kind = 5 ∧
      Leaves s t { op := fun o => { o with dropped := none },
                   rest := fun x => { x with grm := { x.grm with svlog := [], svtail := 0, repairs := [] } } }) ∧
  (∀ (s : State) (id tile plane port reason : Nat) (r : HypReq), s.accs.find id = none → s.ops.find id = none →
    s.hreqs.find id = some r → r.dropped = none → s.hypWay r = .drop tile plane port reason →
    ∃ t, exec (.sieveDrop id) s = .next t ∧ t.hreqs.find id = some { r with dropped := some s.gtime } ∧
      t.grm.svtail = s.grm.svtail + 1 ∧
      Leaves s t { rest := fun x => { x with hreqs := [], grm := { x.grm with svlog := [], svtail := 0, repairs := [] } } }) ∧
  (∀ (s : State) (id : Nat) (r : HypReq), s.hreqs.find id = some r → s.hypDelivered r = false →
    exec (.hypRequestAtHome id) s = .next s)

/-! ## Warps, gangs, launches -/

/-- R28 to R32, R41, R44, R138, R140: entering a clause, rejoin holds and the swaps of a core's active set. A clause whose words
decode is entered at its first word, with its header's waits still to be met there; a rejoin header holds a unit first, and of a
mixed warp the parts whose home warps have a part held there; a hold that is over releases its groups where they stand, and
those at one place and call depth become one sliver; after 1,024 ticks every part held at that header goes on. -/
def Obligations.ClausesRejoinsAndSwaps : Prop :=
  (∀ (s : State) (m : Nat × Nat) (l : List (Nat × Nat)) (h : Word) (code : List Word), let u := s.unit
    let p := s.partOf m.1
    let asid := s.asidOf m.1
    u.mem = m :: l → s.flipping p asid u.hdr = false → s.flipping p asid (u.hdr + BitVec.ofNat 64 (4 * clauseN h)) = false →
    s.fetch p asid u.hdr = .ok h → isHeader h = true → headerFault h = none →
    s.clauseWords p asid (u.hdr + 4) (clauseN h) = (code, none) → clauseFault (clauseN h) (clauseClass h) 1 code = none →
    (isRejoin h = false ∨ s.allPassed u = true ∨ (l ≠ [] ∧ s.leavers u = []) →
      ∃ t, exec .clauseFetch s = .next t ∧
        (∀ th ∈ u.th, ∃ g ∈ (t.warp th.wid).groups, g.lanes.getLsbD th.lane = true ∧ g.pc = u.hdr + 4 ∧ g.hw = h ∧
          g.code = code ∧ g.st = .running ∧ g.waits = true) ∧
        Leaves s t { homeFrame with core := fun r => { r with yielded := [] } }) ∧
    (isRejoin h = true → s.allPassed u = false → l = [] →
      ∃ t, exec .clauseFetch s = .next t ∧ (∀ th tg, s.At th tg → t.At th tg) ∧
        (∀ th ∈ u.th, ∃ g ∈ (t.warp th.wid).groups, g.lanes.getLsbD th.lane = true ∧ g.st = .held ∧ g.since = s.warpTick m.1) ∧
        Leaves s t homeFrame) ∧
    (isRejoin h = true → s.allPassed u = false → l ≠ [] → s.leavers u ≠ [] →
      ∃ t, exec .clauseFetch s = .next t ∧ (∀ th tg, s.At th tg → t.At th tg) ∧
        (∀ q ∈ s.leavers u, ∀ lane, ((s.warp q.1).sliverLanes q.2).getLsbD lane = true →
          ∃ g ∈ (t.warp q.1).groups, g.lanes.getLsbD lane = true ∧ g.st = .held) ∧
        Leaves s t homeFrame)) ∧
  (∀ (s : State) (m : Nat × Nat) (l : List (Nat × Nat)) (h : Word), let u := s.unit
    u.mem = m :: l → s.flipping (s.partOf m.1) (s.asidOf m.1) u.hdr = false → s.fetch (s.partOf m.1) (s.asidOf m.1) u.hdr = .ok h → isHeader h = false →
    exec .clauseFetch s = .next (s.takeTrap u { cause := cz 0x01 1, tval := u.hdr, mask := u.th } 1)) ∧
  (∀ (s : State) (wid : Nat) (mix : Bool), (s.warp wid).rejoinDue = true →
    ∃ t, exec (.rejoinRelease wid mix) s = .next t ∧ (∀ th tg, s.At th tg → t.At th tg) ∧
      (∀ g ∈ (s.warp wid).groups, (s.warp wid).holdOver g = true → ∀ lane, g.lanes.getLsbD lane = true →
        ∃ x ∈ (t.warp wid).groups, x.lanes.getLsbD lane = true ∧ x.st = .running ∧ x.passed = true ∧ x.pc = g.pc ∧
          x.depth = g.depth) ∧
      (∀ g ∈ (s.warp wid).groups, ∀ h ∈ (s.warp wid).groups, (s.warp wid).holdOver g = true → (s.warp wid).holdOver h = true →
        g.pos = 0 → h.pos = 0 → g.pc = g.hdr → h.pc = h.hdr → g.pc = h.pc → g.depth = h.depth →
        (s.warp wid).trapGroup g = (s.warp wid).trapGroup h → ∀ i j, g.lanes.getLsbD i = true → h.lanes.getLsbD j = true →
        ∃ x ∈ (t.warp wid).groups, ∃ y ∈ (t.warp wid).groups, x.lanes.getLsbD i = true ∧ y.lanes.getLsbD j = true ∧
          x.sliver = y.sliver ∧ x.pc = g.pc ∧ y.pc = g.pc) ∧
      Leaves s t) ∧
  (∀ (s : State) (wid k : Nat) (hdr : DWord), (∃ g ∈ (s.warp wid).groups, g.sliver = k ∧ s.holdLate wid g = true) →
    (∀ g ∈ (s.warp wid).groups, g.sliver = k → s.holdLate wid g = true → g.hdr = hdr) →
    ∃ t, exec (.rejoinTimeout wid k) s = .next t ∧ (∀ th tg, s.At th tg → t.At th tg) ∧
      (∀ g ∈ (s.warp wid).groups, g.st = .held → g.hdr = hdr → ∀ lane, g.lanes.getLsbD lane = true →
        ∃ x ∈ (t.warp wid).groups, x.lanes.getLsbD lane = true ∧ x.st = .running ∧ x.passed = true ∧ x.pc = g.pc) ∧
      Leaves s t { rest := fun x => { x with freeCtr := 0 } }) ∧
  (∀ (s : State) (core out inn n : Nat), Tbl.sorted s.warps = true → leastBy (s.readyPending core) = some (inn, n) →
    let swapped := fun t : State => (t.warp out).inActive = false ∧ (t.warp inn).inActive = true ∧
      (t.warp inn).activeSince = s.tickOf core ∧ (∀ wid, wid ≠ out → wid ≠ inn → t.warps.find wid = s.warps.find wid) ∧
      (∀ th tg, s.At th tg → t.At th tg) ∧
      Leaves s t { warp := fun w => { w with inActive := false, activeSince := 0, pendReady := none, readySince := [] } }
    (s.firstDep ((s.coreWarpIds core true).filter s.longDep) = some out →
      ∃ t, exec (.warpSwap core) s = .next t ∧ swapped t) ∧
    (s.longestActive core = some out → n + 448 ≤ s.tickOf core → ∃ t, exec (.pendingWarpPromote core) s = .next t ∧ swapped t))

/-- A warp as a gang's start leaves it (R21, R63): every thread at the entry, nothing exited, no trap, registers clear. -/
def Started (d : KDesc) (bid core i : Nat) (w : Warp) : Prop :=
  w.bid = bid ∧ w.core = core ∧ w.idx = i ∧ w.exited = 0 ∧ w.trapSet = 0 ∧ w.v = [] ∧ w.w = [] ∧ w.p = [] ∧ w.hyp = 0 ∧
  w.fpcr = 0 ∧ w.ovc = 0 ∧
  (∀ lane < 32, (∃ g ∈ w.groups, g.lanes.getLsbD lane = true ∧ g.pc = d.entry ∧ g.hdr = d.entry ∧ g.depth = 0 ∧
      g.st = .running ∧ g.pos = 0 ∧ g.sliver = 0) ∧
    w.sp.getD lane 0 = BitVec.ofNat 32 (d.zsize - 256 * 32 * d.nwarps + 256 * (32 * i + lane + 1)))

/-- Where a gang's halt leaves a group (R403): a unit that has met no header wait of its clause stands at its header again. -/
def haltedAt (s : State) (gid wid : Nat) (g : Group) : Tgt :=
  { pc := if wid ∈ s.gangWids gid ∧ g.st ≠ .geo ∧ g.waits = true then g.hdr else g.pc, hdr := g.hdr, depth := g.depth }

/-- No operation of a gang is still at issue, and no other has gone (log entry 93). -/
def HaltTookBack (s : State) (gid : Nat) (t : State) : Prop :=
  (∀ p ∈ t.ops, p ∈ s.ops ∧ (p.2.wid ∈ s.gangWids gid → p.2.lane < 32 → p.2.atIssue = false)) ∧
  ∀ p ∈ s.ops, (∀ q ∈ s.ops, q.1 = p.1 → q.2.wid ∈ s.gangWids gid → q.2.atIssue = false) → p ∈ t.ops

/-- R20 to R24, R373, R374, R403 to R410: a gang is placed whole, each block on its core with its warps at the entry, and the
launch's next gang waits; a block that is done gives up its warps, whose values stay where they were (log entry 97), the last
one its gang; a pre-emption halts a gang, whose predicates in stage 2 or 3 issue again, and saves it once all has drained; a
restore brings every warp back with its registers, or is refused by a core with fewer lanes; a gang that has waited 50 µs halts
the shortest run of victims that makes room; a launch is abandoned by itself only under its slot's PREEMPT policy, and leaves no
gang. The image of a warp of budget b has 0x3200 + 144 b bytes, its first register at 0x3200 with
lane L at 4 L. -/
def Obligations.GangsAndLaunches : Prop :=
  (∀ (s : State) (gid : Nat) (g : Gang) (places : List (Nat × Nat)), let l := s.launch g.lid
    s.gangs.find gid = some g → g.st = .waiting → g.bids = [] → gid < s.nextId → s.itsTurn gid g = true →
    s.placeOk (s.part l.part) l.desc places = true → (∀ x ∈ places, s.coreUp x.1 = true) →
    ∃ t, exec (.gangPlace gid places) s = .next t ∧ (t.gang gid).st = .running ∧ (t.gang gid).bids.length = places.length ∧
      places.length = l.desc.nblk ∧
      (∀ (j : Nat) (x : Nat × Nat), places[j]? = some x → ∃ bid, (t.gang gid).bids[j]? = some bid ∧ s.nextId ≤ bid ∧
        (t.block bid).gid = gid ∧ (t.block bid).rank = j ∧ (t.block bid).core = x.1 ∧ (t.block bid).retired = false ∧
        (t.block bid).wids.length = l.desc.nwarps ∧
        ∀ (i wid : Nat), (t.block bid).wids[i]? = some wid → ∃ w, t.warps.find wid = some w ∧ Started l.desc bid x.1 i w) ∧
      (s.launches.find g.lid ≠ none → (t.launch g.lid).started = l.started + 1) ∧
      (g.idx + 1 < l.gangs → ∃ x ∈ t.gangs, x.2.lid = g.lid ∧ x.2.idx = g.idx + 1 ∧ x.2.st = .waiting)) ∧
  (∀ (s : State) (bid : Nat) (b : Block), s.blocks.find bid = some b → s.blockDone bid b = true → s.retireHeld bid b = false →
    b.gid < s.nextId → ∃ t, exec (.blockRetire bid) s = .next t ∧
      (∃ r ∈ t.relics, r.bid = bid ∧ r.block = b ∧ r.warps = s.warps.filter fun w => w.2.bid = bid) ∧
      (∀ w ∈ t.warps, w.2.bid ≠ bid) ∧ (∀ w ∈ s.warps, w.2.bid ≠ bid → ∃ x ∈ t.warps, x.1 = w.1) ∧
      ((∃ x ∈ (s.gang b.gid).bids, x ≠ bid ∧ (s.block x).retired = false) → (t.block bid).retired = true ∧
        t.gangs = s.gangs ∧ t.launches = s.launches) ∧
      ((∀ x ∈ (s.gang b.gid).bids, x = bid ∨ (s.block x).retired = true) → t.gangs.find b.gid = none ∧
        ∀ x ∈ t.blocks, x.2.gid ≠ b.gid)) ∧
  (∀ (s : State) (gid : Nat) (g : Gang), s.gangs.find gid = some g → g.st = .running →
    ∃ t, exec (.preemptRequest gid) s = .next t ∧ (t.gang gid).st = .halted ∧
      (∀ th, ∀ x ∈ (s.warp th.wid).groups, x.lanes.getLsbD th.lane = true → t.At th (haltedAt s gid th.wid x)) ∧
      (∀ wid ∈ s.gangWids gid, ∀ x ∈ (t.warp wid).groups, x.st = .geo → x.bound = x.since + 12) ∧ HaltTookBack s gid t ∧
      (∀ a ∈ t.accs, ¬ (a.2.kind = .jtab ∧ a.2.wid ∈ s.gangWids gid)) ∧ AccessesKept s t ∧
      ((∀ wid ∈ s.gangWids gid, noneAtIssue s wid (BitVec.allOnes 32)) →
        Leaves s t { warp := fun w => { w with geoOut := [] }, gang := fun g => { g with st := .waiting }, acc := fun _ => none })) ∧
  (∀ (s : State) (gid : Nat) (g : Gang), s.gangs.find gid = some g → g.st = .halted →
    (s.failWaiting (s.gangWids gid)).drained gid = true →
    ∃ t, exec (.preemptSave gid) s = .next t ∧ (t.gang gid).st = .saved ∧
      (∀ w ∈ t.warps, ∀ b ∈ s.gangBlocks gid, w.2.bid ≠ b.1) ∧
      ∀ wid w, s.warps.find wid = some w → (∃ b ∈ s.gangBlocks gid, b.1 = w.bid) →
        ∃ im ∈ (t.gang gid).image, im.bid = w.bid ∧ im.warps.find wid = some w) ∧
  (∀ (s : State) (gid : Nat) (g : Gang) (vs : List Nat), let l := s.launch g.lid
    s.gangs.find gid = some g → g.waits = true → g.waitFrom + 50000 ≤ s.gtime → (∃ x ∈ s.offered l.part, x.1 = gid) →
    s.enough (s.part l.part) l.desc ((s.gangs.filter fun x => x.2.st = .halted).map (·.1))
      ((s.victims l.part l.prio).map (·.1)) = some vs →
    ∃ t, exec (.preemptWaitTimeout gid) s = .next t ∧ (∀ v ∈ vs, (t.gang v).st = .halted) ∧
      ∀ q, q ∉ vs → t.gangs.find q = s.gangs.find q) ∧
  (∀ (s : State) (gid : Nat) (g : Gang) (places : List (Nat × Nat)), let l := s.launch g.lid
    s.gangs.find gid = some g → g.st = .saved → s.placeOk (s.part l.part) l.desc places = true →
    (s.itsTurn gid g = true → (∀ x ∈ places, (s.coreRegs x.1).failed = false) → (∀ x ∈ places, (s.coreRegs x.1).health = 0xFF) →
      (∀ x ∈ g.image, ∀ y ∈ g.image, ∀ wid, x.warps.find wid ≠ none → y.warps.find wid ≠ none → x = y) →
      (∀ x ∈ g.image, Tbl.sorted x.warps = true) →
      ∃ t, exec (.gangRestore gid places) s = .next t ∧ (t.gang gid).st = .running ∧ (t.gang gid).image = [] ∧
        ∀ im ∈ g.image, ∀ wid w, im.warps.find wid = some w → ∃ x, t.warps.find wid = some x ∧
          x.core = (places.getD (s.block im.bid).rank (0, 0)).1 ∧ x.v = w.v ∧ x.w = w.w ∧ x.k = w.k ∧ x.p = w.p ∧ x.sp = w.sp ∧
          x.ka = w.ka ∧ x.frames = w.frames ∧ x.trapSet = w.trapSet ∧ x.tpc = w.tpc ∧ x.latch.getLsbD 4 = true) ∧
    ((∃ x ∈ places, (s.coreRegs x.1).health ≠ 0xFF) → s.parts.find l.part ≠ none →
      ∃ t, exec (.gangRestore gid places) s = .next t ∧ t.gangs = s.gangs ∧ t.warps = s.warps ∧
        (t.part l.part).rshape = min 255 ((s.part l.part).rshape + 1))) ∧
  (∀ (s : State) (lid k : Nat) (l : Launch), s.launches.find lid = some l → Tbl.sorted s.gangs = true → l.src = .slot k →
    (s.preemptDue lid l = false → exec (.launchAbandon lid) s = .next s) ∧
    (s.preemptDue lid l = true → ∃ t, exec (.launchAbandon lid) s = .next t ∧ t.launches.find lid = none ∧
      (∀ g ∈ t.gangs, g.2.lid ≠ lid) ∧ ((t.part l.part).slot k).cur = none ∧
      ((t.part l.part).slot k).preempted = min (((s.part l.part).slot k).preempted + 1) (2 ^ 32 - 1) ∧
      (∀ g ∈ s.gangs, g.2.lid = lid → g.2.image = [] → ∀ b ∈ s.gangBlocks g.1, ∀ w ∈ t.warps, w.2.bid ≠ b.1) ∧
      t.vault = s.vault ∧ t.hostMem = s.hostMem)) ∧
  ∀ (w : Warp) (rank : Nat), (w.image rank).length = 0x3200 + 144 * w.budget ∧
    ∀ n < w.budget, ∀ lane < 32, ((w.image rank).drop (0x3200 + 128 * n + 4 * lane)).take 4 =
      natLe 4 (w.v.getD (512 * lane + n) {}).val.toNat

/-! ## Queues -/

/-- What a packet, or what follows from one, may change: its partition's queues, instances, slots and logs, memory below the
cores, and launches and gangs that it starts. -/
def hostFrame (s : State) : MayChange :=
  { homeFrame with
    part := fun P => { P.frozen with queues := [], b2 := {}, pba := 0, insts := [], serial := 0, slots := [] }
    newPlace := fun k => s.nextId ≤ k
    rest := fun x => { x with nextId := 0, vault := [], hostMem := [], peerMem := [], paramMem := [], seals := [], tlb := [],
                              l1 := [], l2 := [], reg := [], msgs := [], freeCtr := 0, grm := {} } }

/-- The queue stands in the error state with a code, its head at the packet (R362, R364). -/
def InError (s : State) (p q code : Nat) (t : State) : Prop :=
  ((t.part p).queue q).st = 3 ∧ ((t.part p).queue q).err = code ∧ ((t.part p).queue q).head = ((s.part p).queue q).head

/-- The queue has gone past n slots and parses on (R363). -/
def Passed (s : State) (p q n : Nat) (t : State) : Prop :=
  ((t.part p).queue q).head = ((s.part p).queue q).head + BitVec.ofNat 32 n ∧ ((t.part p).queue q).st = 1

/-- The queue has gone past n slots and waits (R362, R363). -/
def StalledPast (s : State) (p q n wait : Nat) (t : State) : Prop :=
  ((t.part p).queue q).head = ((s.part p).queue q).head + BitVec.ofNat 32 n ∧ ((t.part p).queue q).st = 2 ∧
  ((t.part p).queue q).wait = wait

/-- R362 to R368: the tail is read again, one out of range is error 6 and a packet of an unknown type error 1; NOP, LAUNCH, FENCE
and SIGNAL. A packet whose reserved bytes are not zero is error 2; a LAUNCH starts a launch with the packet's priority, gangs and
completion counter; a FENCE holds parsing until its conditions have been seen true; a SIGNAL updates its counter, with `drain`
after the queue's earlier launches. -/
def Obligations.QueuePackets : Prop :=
  (∀ (s m m2 : State) (p q : Nat) (bs b : List Byte), let Q := (s.part p).queue q
    let v : Word := BitVec.ofNat 32 (leNat bs)
    s.parts.find p ≠ none → (s.part p).parses q = true → s.ctrHeld p Q.asidNo Q.headp = false →
    s.queueRead p q Q.tailp 4 = (m, some bs) →
    (2 ^ Q.lsize.toNat < (v - Q.head).toNat → ∃ t, exec (.tailLineInvalidation p q) s = .next t ∧ InError s p q 6 t) ∧
    ((v - Q.head).toNat ≤ 2 ^ Q.lsize.toNat →
      (m.onQueue p q fun Q => { Q with tail := v }).headPacket p q = (m2, some b) →
      ∃ t, exec (.tailLineInvalidation p q) s = .next t ∧ ((t.part p).queue q).tail = v ∧
        (5 < field b 0 1 → InError s p q 1 t) ∧
        (field b 0 1 ≤ 5 → ((t.part p).queue q).st = 1 ∧ ((t.part p).queue q).head = Q.head))) ∧
  (∀ (s m : State) (p q : Nat) (b : List Byte), s.parts.find p ≠ none → s.headPacket p q = (m, some b) → field b 0 1 = 0 →
    (zeros b 1 64 = true → ∃ t, exec (.packetNop p q) s = .next t ∧ Passed s p q 1 t ∧ Leaves s t (hostFrame s)) ∧
    (zeros b 1 64 = false → ∃ t, exec (.packetNop p q) s = .next t ∧ InError s p q 2 t ∧ Leaves s t (hostFrame s))) ∧
  (∀ (s m m2 : State) (p q : Nat) (b : List Byte), s.parts.find p ≠ none → s.headPacket p q = (m, some b) →
    field b 0 1 = 1 →
    (∀ lid, m.startImage p ((s.part p).queue q).asidNo b (.queue q) none 0 = (m2, .ok lid) →
      ∃ t l, exec (.packetLaunch p q) s = .next t ∧ Passed s p q 1 t ∧ t.launches.find lid = some l ∧ l.part = p ∧
        l.src = .queue q ∧ l.prio = field b 1 1 ∧ l.gangs = field b 4 4 ∧ l.asid = ((s.part p).queue q).asidNo ∧
        l.ctr = BitVec.ofNat 64 (field b 24 8) ∧ l.inc = BitVec.ofNat 64 (field b 32 8) ∧
        l.serial = BitVec.ofNat 32 (s.part p).serial ∧
        (∃ g ∈ t.gangs, g.2.lid = lid ∧ g.2.idx = 0 ∧ g.2.st = .waiting) ∧ Leaves s t (hostFrame s)) ∧
    (∀ e, launchCheck b = some e → ∃ t, exec (.packetLaunch p q) s = .next t ∧ InError s p q e t ∧
      Leaves s t (hostFrame s))) ∧
  (∀ (s m m2 : State) (p q : Nat) (b rest : List Byte) (cs : List (DWord × DWord)), let n := field b 1 1
    s.parts.find p ≠ none → s.headPacket p q = (m, some b) → field b 0 1 = 2 → 1 ≤ n → n ≤ 12 → zeros b 2 16 = true →
    fenceSlots n ≤ ((s.part p).queue q).covered → m.fenceBody p q 1 (fenceSlots n - 1) = (m2, some rest) →
    condsOf n (b.drop 16 ++ rest) = .ok cs →
    ∃ t, exec (.packetFence p q) s = .next t ∧ StalledPast s p q (fenceSlots n) 1 t ∧ ((t.part p).queue q).conds = cs ∧
      Leaves s t (hostFrame s)) ∧
  (∀ (s m : State) (p q : Nat) (cs : List (DWord × DWord)), let Q := (s.part p).queue q
    s.parts.find p ≠ none → Q.conds ≠ [] → Q.st = 2 → (s.part p).placesNow = true → s.rereadConds p q Q.conds = (m, some cs) →
    ∃ t, exec (.fenceConditionMet p q) s = .next t ∧ ((t.part p).queue q).conds = cs ∧
      ((t.part p).queue q).st = (if cs = [] then 1 else 2) ∧ Leaves s t (hostFrame s)) ∧
  (∀ (w v x : DWord), (w.extractLsb' 52 4 = 0 → (condMet (w, v) x = true ↔ v.toNat ≤ x.toNat)) ∧
    (w.extractLsb' 52 4 = 1 → (condMet (w, v) x = true ↔ x = v)) ∧
    (w.extractLsb' 52 4 = 2 → (condMet (w, v) x = true ↔ x ≠ v))) ∧
  (∀ (s m m2 : State) (p q : Nat) (b : List Byte), s.parts.find p ≠ none → ((s.part p).queue q).drain = none →
    s.headPacket p q = (m, some b) → field b 0 1 = 3 →
    (signalBad b = true → ∃ t, exec (.packetSignal p q) s = .next t ∧ InError s p q 2 t ∧ Leaves s t (hostFrame s)) ∧
    (signalBad b = false → field b 1 1 % 2 = 0 ∨ m.earlier p q = [] → m.signalGo p q b = (m2, true) →
      ∃ t, exec (.packetSignal p q) s = .next t ∧ Passed s p q 1 t ∧ Leaves s t (hostFrame s)) ∧
    (signalBad b = false → field b 1 1 % 2 = 1 → m.earlier p q ≠ [] →
      ∃ t, exec (.packetSignal p q) s = .next t ∧ StalledPast s p q 1 0 t ∧
        ((t.part p).queue q).drain = some (b, m.earlier p q) ∧ Leaves s t (hostFrame s))) ∧
  (∀ (s m : State) (p q : Nat) (b : List Byte) (ids : List Nat), s.parts.find p ≠ none →
    ((s.part p).queue q).drain = some (b, ids) → (s.part p).placesNow = true → ((s.part p).queue q).st = 2 →
    (∀ i ∈ s.earlier p q, i ∉ ids) → s.signalGo p q b = (m, true) →
    ∃ t, exec (.packetSignal p q) s = .next t ∧ ((t.part p).queue q).drain = none ∧ Passed s p q 0 t ∧
      Leaves s t (hostFrame s)) ∧
  (∀ (s : State) (p asid tile : Nat) (va v : DWord) (put : Bool) (lf : Leaf) (old : List Byte),
    s.flipping p asid va = false → (s.translate p asid va .atomic).2 = .ok lf → (s.part p).homeTile va = some tile →
    lf.addr % 128 + 8 ≤ 128 → lf.devBias = true ∨ s.l2Find tile lf.space (lf.addr / 128 * 128) = none →
    ((s.translate p asid va .atomic).1.forceBack p asid (lineOf va) tile lf).committed p asid tile lf va 8 = .ok old →
    ∃ t, s.counterUpdate p asid va v put = (t, none) ∧
      t.slice (s.part p) tile lf 8 = .ok (natLe 8 (if put then v else BitVec.ofNat 64 (leNat old) + v).toNat))

/-- R100, R361, R362, R364, R369 to R371, R375, R389, R458: GRAPH and its nodes, BIAS and its flip, the control word, the head and
a slot's firing. A replay becomes an instance with the graph's nodes and its patched parameters, a fifth one of an object waits;
a node starts once the nodes it follows are complete; a flip leaves the leaf and every cached copy with the bias asked for;
`abort` stops parsing at once; a descriptor that cannot be enabled is error 8. -/
def Obligations.GraphsFlipsAndControl : Prop :=
  (∀ (s m m1 m2 m3 : State) (p q : Nat) (b h ps : List Byte) (nodes : List GNode),
    let Q := (s.part p).queue q
    let s0 := if Q.st = 2 ∧ Q.wait = 3 then s.unstall p q else s
    let obj : DWord := BitVec.ofNat 64 (field b 8 8)
    s.parts.find p ≠ none → s0.headPacket p q = (m, some b) → field b 0 1 = 4 → graphBad b = none →
    (4 ≤ ((s.part p).insts.filter fun i => i.2.obj = obj).length →
      ∃ t, exec (.packetGraph p q) s = .next t ∧ StalledPast s p q 0 3 t ∧ (t.part p).insts = (s.part p).insts ∧
        ((t.part p).queue q).since = if Q.st = 2 ∧ Q.wait = 3 then Q.since else s.gtime) ∧
    (((s.part p).insts.filter fun i => i.2.obj = obj).length < 4 →
      m.queueRead p q obj 64 = (m1, some h) → objBad h b = none → m1.readNodes p q obj 0 (field h 0 2) = (m2, some nodes) →
      m2.graphParams p q h b = (m3, some ps) →
      ∃ t id x, exec (.packetGraph p q) s = .next t ∧ Passed s p q 1 t ∧ (t.part p).insts.find id = some x ∧ x.obj = obj ∧
        x.q = q ∧ x.nodes = nodes ∧ x.ctr = BitVec.ofNat 64 (field b 32 8) ∧ x.inc = BitVec.ofNat 64 (field b 40 8) ∧
        (∀ i c, ps[i]? = some c → Memory.rd t.paramMem (x.pmem * 65536 + i) = c) ∧
        Leaves s t (hostFrame s))) ∧
  (∀ (s : State) (p i n : Nat) (x : GraphInst) (y : GNode), s.parts.find p ≠ none → (s.part p).insts.find i = some x →
    x.nodes[n]? = some y → y.st = 0 → (∀ (j : Nat) (z : GNode), x.nodes[j]? = some z → y.after.getLsbD j = true → z.st = 2) →
    (s.part p).placesNow = true →
    (field y.pkt 0 1 = 1 → ∃ t lid l r, exec (.graphNodeStart p i n) s = .next t ∧ t.launches.find lid = some l ∧
      l.src = .node i n ∧ l.params = x.params ∧ l.pmem = x.pmem ∧ l.prio = field y.pkt 1 1 ∧ l.gangs = field y.pkt 4 4 ∧
      l.desc = y.desc ∧ (t.part p).insts.find i = some r ∧ r.nodes[n]? = some { y with st := 1 } ∧
      (∀ j, j ≠ n → r.nodes[j]? = x.nodes[j]?) ∧ Leaves s t (hostFrame s)) ∧
    (∀ m, field y.pkt 0 1 ≠ 1 → s.ctrHeld p x.asid (BitVec.ofNat 64 (field y.pkt 8 8)) = false → (∃ j z, j ≠ n ∧ x.nodes[j]? = some z ∧ z.st ≠ 2) →
      (s.onInst p i fun x => { x with nodes := x.nodes.zipIdx.map fun z => if z.2 = n then { z.1 with st := 1 } else z.1 }).signalDo
        p x.asid y.pkt = (m, none) →
      ∃ t r, exec (.graphNodeStart p i n) s = .next t ∧ (t.part p).insts.find i = some r ∧
        r.nodes[n]? = some { y with st := 2 } ∧ (∀ j, j ≠ n → r.nodes[j]? = x.nodes[j]?))) ∧
  (∀ (s m : State) (p q : Nat) (b : List Byte) (lf : Leaf) (at_ : Nat), let va : DWord := BitVec.ofNat 64 (field b 8 8)
    s.parts.find p ≠ none → s.headPacket p q = (m, some b) → field b 0 1 = 5 → field b 1 1 ≤ 1 → zeros b 2 8 = true →
    zeros b 24 64 = true → field b 8 8 % 65536 = 0 → field b 16 8 % 8 = 0 →
    m.biasLeaf p ((s.part p).queue q).asidNo va = .ok (lf, at_) →
    ∃ t, exec (.packetBias p q) s = .next t ∧ StalledPast s p q 1 0 t ∧
      ((t.part p).queue q).flip = some (at_, va, BitVec.ofNat 64 (field b 16 8), decide (field b 1 1 = 1)) ∧
      Leaves s t (hostFrame s)) ∧
  (∀ (s : State) (p q at_ : Nat) (va : DWord) (toDev : Bool), let Q := (s.part p).queue q
    s.parts.find p ≠ none → Q.flip = some (at_, va, 0, toDev) → Q.st = 2 → s.pageQuiet p Q.asidNo va = true →
    ∃ t, exec (.biasFlipComplete p q) s = .next t ∧ ((t.part p).queue q).flip = none ∧ Passed s p q 0 t ∧
      (∀ e ∈ t.tlb, e.part = p → e.addr = at_ → e.pte.getLsbD 7 = toDev) ∧
      (∀ bs, t.rdFrame (t.part p) true 0 at_ 8 = .ok bs → (BitVec.ofNat 64 (leNat bs)).getLsbD 7 = toDev) ∧
      Leaves s t (hostFrame s)) ∧
  (∀ (s m : State) (p q : Nat) (ctr : DWord), let Q := (s.part p).queue q
    s.parts.find p ≠ none → Q.flip = none → Q.owed = some ctr → Q.st = 2 → ctr ≠ 0 → s.ctrHeld p Q.asidNo ctr = false →
    (s.onQueue p q fun Q => { Q with owed := none }).counterUpdate p Q.asidNo ctr 1 false = (m, none) →
    ∃ t, exec (.biasFlipComplete p q) s = .next t ∧ ((t.part p).queue q).owed = none ∧ Passed s p q 0 t ∧
      Leaves s t (hostFrame s)) ∧
  (∀ (s : State) (p q : Nat) (P : Part) (trusted : Bool), let Q := P.queue q
    s.parts.find p = some P → P.td = .unlocked ∨ ((P.td = .locked ∨ P.td = .run) ∧ trusted = true) →
    let now := fun t : State => (t.part p).queue q
    let others := fun t : State => (∀ j, j ≠ q → (t.part p).queue j = P.queue j) ∧
      Leaves s t { part := fun P => { P with queues := [] } }
    (∃ t, exec (.qctlAbort p q trusted) s = .next t ∧
      now t = { Q with en := false, st := 0, wait := 0, conds := [], drain := none } ∧ others t) ∧
    (Q.st = 3 → Q.err ≠ 8 → ∃ t, exec (.qctlResume p q trusted) s = .next t ∧ now t = { Q with st := 1, err := 0 } ∧ others t) ∧
    (Q.st = 3 → Q.err = 8 → exec (.qctlResume p q trusted) s = .next s) ∧
    (Q.en = false → 4 ≤ Q.lsize.toNat → Q.lsize.toNat ≤ 16 → Q.ring.toNat % 4096 = 0 → Q.tailp.toNat % 128 = 0 →
      Q.headp.toNat % 8 = 0 → ∃ t, exec (.qctlEn p q true trusted) s = .next t ∧
      now t = { Q with en := true, st := 1, err := 0, wait := 0, tail := Q.head } ∧ others t) ∧
    (Q.en = false → Q.lsize.toNat < 4 ∨ 16 < Q.lsize.toNat ∨ Q.ring.toNat % 4096 ≠ 0 ∨ Q.tailp.toNat % 128 ≠ 0 ∨
        Q.headp.toNat % 8 ≠ 0 → ∃ t, exec (.qctlEn p q true trusted) s = .next t ∧
      now t = { Q with en := true, st := 3, err := 8 } ∧ others t) ∧
    (Q.en = true → ∃ t, exec (.qctlEn p q false trusted) s = .next t ∧
      now t = { Q with en := false, st := 0, wait := 0, conds := [], drain := none } ∧ others t) ∧
    (∀ v, Q.st = 0 ∨ Q.st = 3 → ∃ t, exec (.queueHeadWrite p q v trusted) s = .next t ∧ now t = { Q with head := v } ∧
      others t) ∧
    (∀ v, Q.st = 1 ∨ Q.st = 2 → exec (.queueHeadWrite p q v trusted) s = .next s)) ∧
  (∀ (s : State) (p k at_ : Nat) (P : Part), let x := P.slot k
    s.parts.find p = some P → x.set = true → P.td = .unlocked ∨ P.td = .run → (x.cur = none → x.hold = none) →
    x.next = some at_ → at_ ≤ s.gtime →
    let fired := fun t : State => ((t.part p).slot k).fired = x.fired + 1 ∧ ((t.part p).slot k).last = s.gtime ∧
      ((t.part p).slot k).next = if x.period = 0 then none else some (at_ + x.period)
    (P.energy = 0 → ∃ t, exec (.slotFire p k) s = .next t ∧ fired t ∧ (t.part p).deferred = P.deferred ++ [(k, at_)]) ∧
    (∀ lid, P.energy ≠ 0 → x.cur = some lid → x.policy = 0 → ∃ t, exec (.slotFire p k) s = .next t ∧ fired t ∧
      ((t.part p).slot k).skipped = min (x.skipped + 1) (2 ^ 32 - 1) ∧ ((t.part p).slot k).cur = some lid) ∧
    (∀ lid, P.energy ≠ 0 → x.cur = some lid → x.policy = 1 → x.hold = none → ∃ t, exec (.slotFire p k) s = .next t ∧
      fired t ∧ ((t.part p).slot k).hold = some at_) ∧
    (∀ m lid, P.energy ≠ 0 → x.cur = none →
      (s.onSlot p k fun x => { x with fired := x.fired + 1, last := s.gtime, next := x.after at_ }).startImage p
        (P.queue 0).asidNo x.img (.slot k) none at_ = (m, .ok lid) →
      ∃ t l, exec (.slotFire p k) s = .next t ∧ fired t ∧ ((t.part p).slot k).cur = some lid ∧
        t.launches.find lid = some l ∧ l.src = .slot k ∧ l.firedAt = at_ ∧ l.ready = at_ ∧ l.prio = field x.img 1 1) ∧
    (∀ lid, P.energy ≠ 0 → x.cur = some lid → 2 ≤ x.policy → lid < s.nextId → ∃ t, exec (.slotFire p k) s = .next t ∧ fired t ∧
      ((t.part p).slot k).preempted = min (x.preempted + 1) (2 ^ 32 - 1) ∧ t.launches.find lid = none)) ∧
  (∀ (s m : State) (p k at_ lid : Nat) (P : Part), let x := P.slot k
    s.parts.find p = some P → x.set = true → P.td = .unlocked ∨ P.td = .run → x.cur = none → x.hold = some at_ →
    (s.onSlot p k fun x => { x with hold := none }).startImage p (P.queue 0).asidNo x.img (.slot k) none at_ = (m, .ok lid) →
    ∃ t, exec (.slotFire p k) s = .next t ∧ ((t.part p).slot k).cur = some lid ∧ ((t.part p).slot k).hold = none ∧
      ((t.part p).slot k).fired = x.fired)

/-! ## Registers of the host -/

/-- The host's write of a register is taken (R425): always while the interface is unlocked; in ERROR of the shared page alone;
while it is locked or runs, trusted or to the shared page, and not to the locked set. -/
def taken (P : Part) (priv locked trusted : Bool) : Prop :=
  P.td = .unlocked ∨ (P.td = .error ∧ priv = false) ∨
  ((P.td = .locked ∨ P.td = .run) ∧ (priv = true → trusted = true) ∧ locked = false)

/-- R5, R359, R361, R379 to R394, R401, R424 to R426, R429, R438, R470: the registers of the host. A write that the gate of R425
does not take is counted and changes nothing else; the page-table port stages bytes and writes an entry whole, in granted frames only;
a shootdown begins from `SDVA` and `SDLEN`; a page walk sets A and D and fills a TLB; the fault queue, way masks and their
sweep, and an unmasked vector's message; writes of `FQHEAD` resume parked units. -/
def Obligations.HostRegisters : Prop :=
  (∀ (s : State) (p : Nat) (P : Part), s.parts.find p = some P → P.td = .locked ∨ P.td = .run →
    let dropped := fun t : State => (t.part p).pdrop = min 255 (P.pdrop + 1) ∧
      Leaves s t { part := fun P => { P with pdrop := 0 } }
    (∀ bar off, bar = 2 ∨ (bar = 0 ∧ 0x1000 ≤ off ∧ off < 0x3000) →
      ∃ t, exec (.untrustedPrivateRead p bar off) s = .next t ∧ dropped t) ∧
    (∀ v, ∃ t, exec (.ptaddrWrite p v false) s = .next t ∧ dropped t) ∧
    (∀ v, ∃ t, exec (.shootdownGo p v false) s = .next t ∧ dropped t) ∧
    (∀ q, ∃ t, exec (.qctlAbort p q false) s = .next t ∧ dropped t) ∧
    (∀ v, ∃ t, exec (.fqctlWrite p v true) s = .next t ∧ (t.part p).ldrop = min 65535 (P.ldrop + 1) ∧
      (t.part p).tdlast = 0x10108 ∧ Leaves s t { part := fun P => { P with ldrop := 0, tdlast := 0 } })) ∧
  (∀ (s : State) (p : Nat) (P : Part) (trusted : Bool), s.parts.find p = some P → taken P true false trusted →
    P.b2.ptpend = none →
    (∀ v, ∃ t, exec (.ptaddrWrite p v trusted) s = .next t ∧
      (t.part p).b2 = { P.b2 with ptaddr := BitVec.ofNat 64 (v.toNat / 8 * 8), staging := List.replicate 8 0 } ∧
      Leaves s t { part := fun P => { P with b2 := {} } }) ∧
    (∀ data : List Byte, data.length = 8 → P.b2.staging.length = 8 →
      ∃ t, exec (.ptdataWrite p 0 data trusted) s = .next t ∧
        (t.part p).b2.ptpend = some (P.b2.ptaddr, BitVec.ofNat 64 (leNat data)) ∧
        (t.part p).b2.staging = List.replicate 8 0 ∧ Leaves s t { part := fun P => { P with b2 := {} } })) ∧
  (∀ (s : State) (p : Nat) (P : Part) (a v : DWord), s.parts.find p = some P → P.b2.ptpend = some (a, v) →
    P.quiesced = false → P.b2.ptheld = [] → (∀ at_, P.mpa a.toNat = some at_ → P.flipAt at_ = false) →
    ∃ t, exec (.portWriteComplete p) s = .next t ∧ (t.part p).b2.ptpend = none ∧
      (∀ at_, P.granted a.toNat 8 = true → P.mpa a.toNat = some at_ → (t.part p).b2.ptrefused = false ∧
        t.vault = (s.wrFrame P true 0 at_ (natLe 8 v.toNat)).vault ∧
        (s.lineUpset 0 at_ = false → t.entryAt P at_ 0 = .ok v)) ∧
      (P.granted a.toNat 8 = false ∨ P.mpa a.toNat = none → (t.part p).b2.ptrefused = true ∧ t.vault = s.vault)) ∧
  (∀ (s : State) (p : Nat) (P : Part) (v : Word) (trusted : Bool), s.parts.find p = some P → taken P true false trusted →
    v.getLsbD 31 = true → P.b2.sdbusy = false → P.quiesced = false →
    ∃ t id sd, exec (.shootdownGo p v trusted) s = .next t ∧ (t.part p).b2.sdbusy = true ∧
      (t.part p).sds.find id = some sd ∧ sd.fromHost = true ∧ sd.asid = (v.extractLsb' 0 4).toNat ∧
      (sd.lo, sd.hi) = if P.b2.sdlen = 0 then (0, 2 ^ 52) else
        (min (P.b2.sdva.toNat / 65536 * 65536) (2 ^ 52),
         min ((P.b2.sdva.toNat + P.b2.sdlen.toNat + 65535) / 65536 * 65536) (2 ^ 52))) ∧
  (∀ (s : State) (p asid : Nat) (va : DWord) (kind : WalkKind) (lf : Leaf) (at_ : Nat),
    va.extractLsb' 52 12 = 0 → s.tlbHit p (((s.part p).home va).getD 0) asid va = none →
    s.walk p asid va = .ok (lf, at_) → lf.space ≠ 3 → permit lf.pte kind = none → 0 < Config.tlbEntries →
    ∃ t e, exec (.pageWalk p asid va kind) s = .next t ∧ e ∈ t.tlb ∧ e.part = p ∧ e.asid = asid ∧ e.level = lf.level ∧
      e.addr = at_ ∧ e.page = va.toNat / levelBytes lf.level ∧
      e.pte = lf.pte ||| (if writesPage kind then 0xC00 else 0x400) ∧ Leaves s t homeFrame) ∧
  (∀ (s : State) (p : Nat) (P : Part) (v : Word) (trusted : Bool), s.parts.find p = some P →
    (taken P true true trusted → (v.extractLsb' 0 5 = 0 ∨ (4 ≤ (v.extractLsb' 0 5).toNat ∧ (v.extractLsb' 0 5).toNat ≤ 16)) →
      ∃ t, exec (.fqctlWrite p v trusted) s = .next t ∧
        (t.part p).b2 = { P.b2 with fqctl := v &&& 0xFF9F, fqlost := 0 } ∧ Leaves s t { part := fun P => { P with b2 := {} } }) ∧
    (taken P true false trusted → ∃ t, exec (.fqheadWrite p v trusted) s = .next t ∧ (t.part p).b2.fqhead = v ∧
      ∀ wid w, s.warps.find wid = some w → s.partOf wid = p → w.deliv = none →
        ∀ g ∈ (t.warp wid).groups, g.st ≠ .parked) ∧
    (∀ tile k t0 m, taken P true false trusted → P.tiles[tile]? = some t0 → k < 4 →
      ∃ t, exec (.wayMaskWrite p tile k m trusted) s = .next t ∧ t.wayMask t0 k = m ∧ t.wafer.sweep.find t0 = some 1 ∧
        Leaves s t { rest := fun x => { x with wafer := { x.wafer with wm := [], sweep := [] } } })) ∧
  (∀ (s : State) (p tile t0 : Nat) (P : Part), s.parts.find p = some P → P.tiles[tile]? = some t0 →
    s.wafer.sweep.find t0 ≠ none →
    ∃ t, exec (.waySweepComplete p tile) s = .next t ∧ t.wafer.sweep.find t0 = none ∧
      (∀ l ∈ t.l2, l.tile = t0 → (s.wayMask t0 l.cls).getLsbD l.way = true) ∧ (∀ l ∈ t.l2, l ∈ s.l2)) ∧
  (∀ (s : State) (p vec : Nat) (P : Part), let e := P.msix.getD vec {}
    s.parts.find p = some P → vec < 64 → P.msixEn = true → P.msixMask = false → P.pba.getLsbD vec = true →
    ∃ t, exec (.msixVectorUnmask p vec) s = .next t ∧ (t.part p).pba.getLsbD vec = false ∧
      ((t.part p).msix.getD vec {}).ctl = e.ctl &&& 0xFFFFFFFE ∧
      t.msgs = s.msgs ++ [{ part := p, vec := vec, addr := e.addr, data := e.data }]) ∧
  (∀ (s : State) (p : Nat) (P : Part) (v : DWord) (trusted : Bool), s.parts.find p = some P →
    (taken P true false trusted → ∃ t, exec (.registerWrite (.vf p) 2 0x180 8 v trusted) s = .next t ∧
      (t.part p).b2 = { P.b2 with sdva := v }) ∧
    (taken P true true trusted → ∃ t, exec (.registerWrite (.vf p) 2 0x100 8 v trusted) s = .next t ∧
      (t.part p).b2 = { P.b2 with fqbase := v }) ∧
    (∀ k < 16, taken P true true trusted → ∃ t, exec (.registerWrite (.vf p) 2 (16 * k) 8 v trusted) s = .next t ∧
      (t.part p).b2.asids.getD k 0 = v &&& 0xFFFFFFFFFFFF0001) ∧
    (∃ t, exec (.registerWrite .pf 0 0x5008 4 v trusted) s = .next t ∧ t.grm.rsel = v.setWidth 32 &&& 0x7FF ∧
      Leaves s t { rest := fun x => { x with grm := { x.grm with rsel := 0 } } }))

/-! ## Security -/

/-- A request that a partition's responder answers changes the responder alone (R428). -/
def Answers (i : Instr) (s : State) (p : Nat) (x : Spdm) : Prop :=
  ∃ t, exec i s = .next t ∧ (t.part p).spdm = x ∧ Leaves s t { part := fun P => { P with spdm := {} } }

/-- No gang of a partition runs, and none of its queues parses (R423). -/
def HaltedInError (s : State) (p : Nat) (t : State) : Prop :=
  (t.part p).td = .error ∧ (∀ q, (t.part p).parses q = false) ∧
  (∀ k g h, s.gangs.find k = some g → (s.launch g.lid).part = p → t.gangs.find k = some h → h.st ≠ .running) ∧
  t.vault = s.vault ∧ t.hostMem = s.hostMem

/-- R418, R423, R424, R426, R428: the interface of a partition, moved within its SPDM session, and its responder. A lock
measures the locked set and clears the counts; a start lets queues parse; an integrity failure, or a session that ends, halts
every gang; a stop leaves no launch, no cached line, no enabled queue and a fresh key, without a write-back. The digests and
signatures of the responder are those of R428; the bytes that its standard lays out, and the answer out of turn, a key
exchange while a session stands being one, are the model's (log entries 13 and 29). -/
def Obligations.SecurityInterface : Prop :=
  (∀ (s : State) (p : Nat) (P : Part), s.parts.find p = some P → P.spdm.session = 2 → s.grm.asleep = false →
    (∀ n, P.td = .unlocked → P.spdm.stream = some n →
      ∃ t, exec (.lockInterface p (some n)) s = .next t ∧
        t.part p = { P with td := .locked, stream := some n, lockDigest := sha384 P.lockedSet, ldrop := 0, pdrop := 0,
                            tdlast := 0 } ∧
        Leaves s t { part := fun P => { P with td := .unlocked, stream := none, lockDigest := [], ldrop := 0, pdrop := 0,
                                               tdlast := 0 } }) ∧
    (∀ x, x = none ∨ P.td ≠ .unlocked ∨ P.spdm.stream ≠ x → exec (.lockInterface p x) s = .next s) ∧
    (P.td = .locked → ∃ t, exec (.startInterface p) s = .next t ∧ (t.part p).td = .run ∧
      (∀ q, (t.part p).parses q = true ↔ P.quiesced = false ∧ (P.queue q).en = true ∧ (P.queue q).st = 1 ∧
        (P.queue q).conds = [] ∧ (P.queue q).drain = none ∧ (P.queue q).flip = none ∧ (P.queue q).owed = none) ∧
      Leaves s t { part := fun P => { P with td := .unlocked, slots := [] } }) ∧
    (P.td ≠ .locked → exec (.startInterface p) s = .next s) ∧
    (Tbl.sorted s.launches = true → ∃ t, exec (.stopInterface p) s = .next t ∧
      (t.part p).td = .unlocked ∧ (t.part p).stream = none ∧ (∀ l ∈ t.launches, l.2.part ≠ p) ∧
      (∀ l ∈ s.launches, l.2.part ≠ p → l ∈ t.launches) ∧ (t.part p).insts = [] ∧
      (∀ q < 64, ((t.part p).queue q).en = false ∧ ((t.part p).queue q).st = 0) ∧
      (∀ l ∈ t.l1, l.part ≠ p) ∧ (∀ l ∈ t.l2, l.tile ∉ P.tiles) ∧ t.vault = s.vault ∧ t.hostMem = s.hostMem ∧
      (t.part p).key = s.grm.keySerial ∧ t.grm.keySerial = s.grm.keySerial + 1)) ∧
  (∀ (s : State) (p : Nat) (P : Part), s.parts.find p = some P →
    (P.spdm.session ≠ 2 → exec (.stopInterface p) s = .next s ∧ exec (.startInterface p) s = .next s) ∧
    (P.td = .locked ∨ P.td = .run → ∃ t, exec (.tdispErrorEvent p) s = .next t ∧ HaltedInError s p t) ∧
    (P.td = .unlocked ∨ P.td = .error → exec (.tdispErrorEvent p) s = .next s)) ∧
  (∀ (s : State) (p : Nat) (P : Part), let x := P.spdm
    s.parts.find p = some P → s.grm.asleep = false →
    Answers (.getVersion p) s p { x with version := true, caps := false, algs := false, rsp := [0x00, 0x12] } ∧
    (x.version = true → Answers (.getCapabilities p) s p { x with caps := true, rsp := answerBytes 30 4 }) ∧
    (x.caps = true → Answers (.negotiateAlgorithms p) s p { x with algs := true, rsp := answerBytes 31 4 }) ∧
    (x.version = false → Answers (.getCapabilities p) s p { x with rsp := outOfTurn }) ∧
    (x.caps = false → Answers (.negotiateAlgorithms p) s p { x with rsp := outOfTurn }) ∧
    (x.algs = false → Answers (.getMeasurements p 1 false) s p { x with rsp := outOfTurn }) ∧
    (x.algs = false ∨ x.session ≠ 0 → ∀ n, Answers (.keyExchange p n) s p { x with rsp := outOfTurn }) ∧
    (x.algs = true →
      Answers (.getDigests p) s p { x with rsp := sha384 certChain } ∧
      Answers (.getCertificate p) s p { x with rsp := certChain } ∧
      Answers (.challenge p) s p { x with rsp := sha384 certChain ++ signed certChain } ∧
      Answers (.getMeasurements p 1 false) s p { x with rsp := sha384 (firmware 1) } ∧
      Answers (.getMeasurements p 2 false) s p { x with rsp := sha384 (firmware 2) } ∧
      (∀ raw, Answers (.getMeasurements p 3 raw) s p { x with rsp := P.lockDigest }) ∧
      Answers (.getMeasurements p 4 true) s p { x with rsp := s.shapeReport p } ∧
      Answers (.getMeasurements p 5 true) s p { x with rsp := natLe 8 P.placeCount } ∧
      Answers (.getMeasurements p 6 true) s p { x with rsp := P.frameList } ∧
      (x.session = 0 → ∀ n, Answers (.keyExchange p n) s p { x with
        session := 1, stream := some n, rsp := answerBytes (40 + P.key) 96 ++ signed certChain })) ∧
    (x.session = 1 → Answers (.finish p) s p { x with session := 2, rsp := [] }) ∧
    (x.session ≠ 1 → Answers (.finish p) s p { x with rsp := outOfTurn }) ∧
    (x.session ≠ 0 → ∃ t, exec (.endSession p) s = .next t ∧
      (t.part p).spdm = { x with session := 0, stream := none, rsp := [] } ∧
      (P.td = .locked ∨ P.td = .run → HaltedInError s p t) ∧
      (P.td = .unlocked ∨ P.td = .error → (t.part p).td = P.td ∧ Leaves s t { part := fun P => { P with spdm := {} } })))

/-! ## Verbs -/

/-- A go on a verb that the mailbox takes: it is not busy, the module is awake, and the request names the verb's code (R429). -/
def Goes (s : State) (code : Nat) : Prop := s.grm.ybusy = false ∧ s.grm.asleep = false ∧ field s.request 0 2 = code

/-- The partition that a request names (R449). -/
def named (s : State) : Nat := field s.request 2 2

/-- The mailbox has a response: not busy, a status, the partition, its tile count, the quiesce time and the verb's fields, with
zeros to byte 255 (R429, R449). -/
def Responds (p status us : Nat) (tail : List Byte) (t : State) : Prop :=
  t.grm.ybusy = false ∧ t.grm.ystatus = status ∧
  Memory.rdN t.grm.yrsp 0 256 =
    ((natLe 2 p ++ natLe 2 (((t.parts.find p).map fun (P : Part) => P.tiles.length).getD 0) ++ natLe 4 us ++ tail ++
      List.replicate 256 0).take 256)

/-- What a verb on a partition may change: the mailbox, and of the partitions what a map forgets. -/
def verbFrame (part : Part → Part := id) : MayChange :=
  { part := part, rest := fun x => { x with grm := { x.grm with ybusy := false, ystatus := 0, yrsp := [] } } }

/-- A verb has only refused: its status is the response, and nothing else changes. -/
def Declines (i : Instr) (s : State) (p status : Nat) : Prop :=
  ∃ t, exec i s = .next t ∧ Responds p status 0 [] t ∧ Leaves s t verbFrame

/-- A quiesce for a verb's job is asked for, and begins when no other is before it (R451). -/
def Begins (s : State) (p : Nat) (P : Part) (j : Job) (t : State) : Prop :=
  t.grm.ybusy = true ∧ t.grm.yrun = s.request ∧ (t.part p).jobs = P.jobs ++ [j] ∧ (t.part p).tiles = P.tiles ∧
  (P.jobs = [] → (t.part p).quiesced = true ∧
    ∀ k g h, P.quiesced = false → s.gangs.find k = some g → (s.launch g.lid).part = p → t.gangs.find k = some h →
      h.st ≠ .running)

/-- The one job of a calm partition is a verb's, and the mailbox is busy with it (R451); the jobs of other partitions are no
verb's, since verbs run one at a time (R429). -/
def MayEnd (s : State) (p : Nat) (P : Part) (j : Job) (code : Nat) : Prop :=
  Tbl.sorted s.parts = true ∧ s.parts.find p = some P ∧ s.grm.ybusy = true ∧ field s.grm.yrun 0 2 = code ∧ P.jobs = [j] ∧
  s.calm p = true ∧
  ∀ x ∈ s.parts, x.1 ≠ p → ∀ k ∈ x.2.jobs, k = .checkpoint ∨ k = .reembed ∨ ∃ i, k = .recover i

/-- The partition has its tiles, has resumed, and the response gives the time since the quiesce began (R449, R451). -/
def Reshaped (s : State) (p : Nat) (P : Part) (tiles : List Nat) (tail : List Byte) (t : State) : Prop :=
  (t.part p).tiles = tiles ∧ (t.part p).quiesced = false ∧ (t.part p).jobs = [] ∧
  (∀ x ∈ tiles, t.tileSt x = .assigned p) ∧ (∀ x ∈ P.tiles, x ∉ tiles → t.tileSt x ≠ .assigned p) ∧
  Responds p 0 ((s.gtime - P.qsince) / 1000) tail t

/-- Every byte of the partition's memory is, at its partition physical address, what it was once the leaving tiles had written
back (R451 steps 4 and 5), when no shootdown was held that the partition carries out as it resumes (R387). -/
def MemoryMoved (s : State) (p : Nat) (P : Part) (tiles : List Nat) (t : State) : Prop :=
  let m := s.leaveTiles p (P.tiles.filter fun x => fateOf P.tiles tiles x ≠ .stays)
  P.b2.sdheld = none → P.tiles.eraseDups = P.tiles → tiles.eraseDups = tiles → (∀ c ∈ m.vault, c.1 / 2 ^ 33 ∈ tiles → c.1 / 2 ^ 33 ∈ P.tiles) →
  Memory.wf m.vault = true → ∀ ppa a b, P.mpa ppa = some a → (t.part p).mpa ppa = some b →
    Memory.rd t.vault b = Memory.rd m.vault a

/-- The state of an interface after a change of shape (R430). -/
def tdAfterReshape (x : TdSt) : TdSt := if x = .locked ∨ x = .run then .error else x

/-- R375, R418, R429 to R432, R443, R444, R449 to R453, R455, R457, R467: the verbs of the mailbox. Each has the effect that
R430 gives it on the partition that the request names; one that is not allowed in the partition's state, names no partition, or
has a bad argument answers with the status of R429 and changes nothing else; a go while the mailbox is busy is dropped. A verb
that changes a partition's tiles quiesces it first and answers when it has resumed. Which tiles, spares and numbers Griermor
chooses among those that R450 and R453 allow is an argument of the event (log entry 30). -/
def Obligations.PartitionVerbs : Prop :=
  (∀ s : State, s.grm.ybusy = true → exec .memGrant s = .next s ∧ exec .queueBind s = .next s ∧ exec .wake s = .next s) ∧
  (∀ s : State, s.grm.asleep = true → s.grm.ybusy = false →
    (field s.request 0 2 = 7 → Declines .memGrant s (named s) 3) ∧
    (field s.request 0 2 = 2 → Declines .partDestroy s (named s) 3)) ∧
  (∀ s : State, s.parts.find (named s) = none →
    (Goes s 2 → Declines .partDestroy s (named s) 2) ∧ (Goes s 7 → Declines .memGrant s (named s) 2) ∧
    (∀ tiles, Goes s 3 → Declines (.partGrow tiles) s (named s) 2) ∧ (Goes s 4 → Declines .partShrink s (named s) 2)) ∧
  (∀ (s : State) (P : Part), s.parts.find (named s) = some P → P.td ≠ .unlocked →
    (Goes s 8 → Declines .memReclaim s (named s) 3) ∧ (Goes s 9 → Declines .queueBind s (named s) 3) ∧
    (Goes s 10 → Declines .slotSet s (named s) 3)) ∧
  -- PART_CREATE, PART_DESTROY
  (∀ (s : State) (tiles : List Nat), let q := s.request
    let free := fun x => decide (s.tileSt x = .free)
    Goes s 1 →
    (createOk q = false → Declines (.partCreate tiles) s (named s) 2) ∧
    (∀ e, createOk q = true → s.newNumber (named s) = .error e → Declines (.partCreate tiles) s (named s) e) ∧
    (∀ k l, createOk q = true → s.newNumber (named s) = .ok k → s.noChoice q (field q 4 2) [] tiles = false → namedTiles q (field q 4 2) [] free tiles = .ok l →
      ∃ t P, exec (.partCreate tiles) s = .next t ∧ t.parts.find k = some P ∧ P.tiles = l ∧ P.td = .unlocked ∧
        P.key = s.grm.keySerial ∧ t.grm.keySerial = s.grm.keySerial + 1 ∧ P.compat = (field q 6 1).testBit 0 ∧
        P.policy = field q 6 1 / 2 ∧ P.port = field q 7 1 ∧ P.share = field q 12 4 ∧ P.placeCount = 0 ∧ P.frames = [] ∧
        Responds k 0 0 (natLe 2 k) t ∧ (∀ x, t.tileSt x = if x ∈ l then .assigned k else s.tileSt x) ∧
        (∀ j, j ≠ k → t.parts.find j = s.parts.find j) ∧ t.vault = s.vault ∧ t.warps = s.warps)) ∧
  (∀ (s : State) (p : Nat) (P : Part), s.parts.find p = some P → named s = p → Goes s 2 → Tbl.sorted s.launches = true →
    ∃ t, exec .partDestroy s = .next t ∧ Responds p 0 0 [] t ∧ t.parts.find p = none ∧
      (∀ j, j ≠ p → t.parts.find j = s.parts.find j) ∧ (∀ l ∈ t.launches, l.2.part ≠ p) ∧
      (∀ a, Memory.rd t.vault a = if a / 2 ^ 33 ∈ P.tiles then 0 else Memory.rd s.vault a) ∧
      (∀ l ∈ t.l2, l.tile ∉ P.tiles) ∧ (∀ x ∈ P.tiles, s.tileFailed x = true → t.tileSt x = .dead) ∧
      (∀ x ∈ P.tiles, s.tileFailed x = false → t.tileSt x = .free ∨ t.tileSt x = .spare)) ∧
  -- PART_GROW, PART_SHRINK, PART_COMPACT, PART_MIGRATE
  (∀ (s : State) (p : Nat) (P : Part) (tiles l : List Nat), let q := s.request
    s.parts.find p = some P → named s = p →
    (Goes s 3 → 0 < field q 4 2 → P.tiles.length + field q 4 2 ≤ 1536 → s.noChoice q (field q 4 2) P.tiles tiles = false →
      namedTiles q (field q 4 2) P.tiles (fun x => decide (s.tileSt x = .free)) tiles = .ok l →
      ∃ t, exec (.partGrow tiles) s = .next t ∧ Begins s p P (.grow l) t) ∧
    (Goes s 4 → 0 < field q 4 2 → field q 4 2 < P.tiles.length → s.mayShrink p (field q 4 2) = true →
      ∃ t, exec .partShrink s = .next t ∧ Begins s p P (.shrink (field q 4 2)) t) ∧
    (Goes s 4 → field q 4 2 = 0 ∨ P.tiles.length ≤ field q 4 2 → Declines .partShrink s p 2) ∧
    (Goes s 5 → namedTiles q P.tiles.length [] (fun x => decide (s.tileSt x = .free) || P.tiles.contains x)
        ((s.chooseTiles s.freeTiles [] P.tiles.length).getD []) = .ok l →
      ∃ t, exec .partCompact s = .next t ∧ Begins s p P (.move l) t) ∧
    (∀ spare, Goes s 6 → field q 4 2 < P.tiles.length → field q 6 2 ≠ 0xFFFF →
      let x := field q 6 1 + 40 * field q 7 1
      (field q 6 1 < 40 → field q 7 1 < 39 → connected (putTile P.tiles (field q 4 2) x) = true → s.tileSt x = .free →
        ∃ t, exec (.partMigrate spare) s = .next t ∧ Begins s p P (.move (putTile P.tiles (field q 4 2) x)) t) ∧
      (40 ≤ field q 6 1 ∨ 39 ≤ field q 7 1 → Declines (.partMigrate spare) s p 2)) ∧
    (∀ spare, Goes s 6 → field q 4 2 < P.tiles.length → field q 6 1 = 0xFF → field q 7 1 = 0xFF →
      (spare ∈ s.bestSpares P (field q 4 2) →
        ∃ t, exec (.partMigrate spare) s = .next t ∧ Begins s p P (.move (putTile P.tiles (field q 4 2) spare)) t) ∧
      (s.newTiles P (field q 4 2) (some spare) = none → s.bestSpares P (field q 4 2) = [] →
        ∃ t, exec (.partMigrate spare) s = .next t ∧ Responds p 4 0 [] t ∧ (t.part p).quiesced = true ∧
          (t.part p).td = .error))) ∧
  (∀ (s : State) (p : Nat) (P : Part),
    (∀ l tiles, MayEnd s p P (.grow l) 3 → (∀ x ∈ l, s.tileSt x = .free) →
      ∃ t, exec (.partGrow tiles) s = .next t ∧ Reshaped s p P (P.tiles ++ l) [] t ∧ (t.part p).td = tdAfterReshape P.td) ∧
    (∀ m, MayEnd s p P (.shrink m) 4 → s.mayShrink p m = true →
      ∃ t, exec .partShrink s = .next t ∧ Reshaped s p P (P.tiles.take (P.tiles.length - m)) [] t ∧
        (t.part p).td = tdAfterReshape P.td) ∧
    (∀ l, (∀ x ∈ l, s.tileSt x = .assigned p ∨ s.tileSt x = .free ∨ s.tileSt x = .spare) →
      (MayEnd s p P (.move l) 5 → ∃ t, exec .partCompact s = .next t ∧ Reshaped s p P l [] t ∧ (t.part p).td = P.td ∧
        (t.part p).placeCount = P.placeCount + 1 ∧ MemoryMoved s p P l t) ∧
      (∀ spare, MayEnd s p P (.move l) 6 → ∃ t, exec (.partMigrate spare) s = .next t ∧
        Reshaped s p P l (natLe 1 (l.getD (field s.grm.yrun 4 2) 0 % 40) ++ natLe 1 (l.getD (field s.grm.yrun 4 2) 0 / 40)) t ∧
        (t.part p).td = P.td ∧ (t.part p).placeCount = P.placeCount + 1 ∧ MemoryMoved s p P l t))) ∧
  -- MEM_GRANT, MEM_RECLAIM, QUEUE_BIND, SLOT_SET
  (∀ (s : State) (p : Nat) (P : Part), let q := s.request
    let a := field q 8 8
    let n := field q 16 8
    s.parts.find p = some P → named s = p →
    (Goes s 7 → P.framesOk q = true → ∃ t, exec .memGrant s = .next t ∧ Responds p 0 0 [] t ∧
      (∀ b k, (a ≤ b ∧ b + k ≤ a + n) ∨ P.granted b k = true → (t.part p).granted b k = true) ∧
      Leaves s t (verbFrame fun P => { P with frames := [] })) ∧
    (Goes s 7 → P.framesOk q = false → Declines .memGrant s p 2) ∧
    (∀ m, Goes s 8 → P.td = .unlocked → P.framesOk q = true → P.granted a n = true → P.mpa a = some m →
      ∃ t, exec .memReclaim s = .next t ∧ Responds p 0 0 [] t ∧
        (∀ x, Memory.rd t.vault x = if m ≤ x ∧ x < m + n then 0 else Memory.rd s.vault x) ∧
        (∀ b k, 0 < k → ((t.part p).granted b k = true ↔ P.granted b k = true ∧ (b + k ≤ a ∨ a + n ≤ b))) ∧
        Leaves s t { verbFrame fun P => { P with frames := [] } with
          upset := fun u => match u with
            | .line _ _ => True
            | _ => False
          rest := fun x => { x with vault := [], seals := [], l2 := [], grm := { x.grm with ybusy := false, ystatus := 0, yrsp := [] } } }) ∧
    (Goes s 9 → P.td = .unlocked → field q 4 1 < 64 → field q 5 1 < 8 →
      ∃ t, exec .queueBind s = .next t ∧ Responds p 0 0 [] t ∧ (t.part p).ports.find (field q 4 1) = some (field q 5 1) ∧
        Leaves s t (verbFrame fun P => { P with ports := [] })) ∧
    (Goes s 10 → P.td = .unlocked → field q 4 1 < 64 → field q 32 1 < 3 → field q 64 1 = 1 →
      ∃ t x, exec .slotSet s = .next t ∧ Responds p 0 0 [] t ∧ (t.part p).slot (field q 4 1) = x ∧ x.set = true ∧
        x.start = field q 8 8 ∧ x.period = field q 16 8 ∧ x.budget = field q 24 8 ∧ x.policy = field q 32 1 ∧
        x.img = (q.drop 64).take 64 ∧ x.fired = 0 ∧ x.skipped = 0 ∧ x.preempted = 0 ∧ x.overs = 0 ∧ x.late = 0 ∧
        (s.gtime ≤ x.start → x.next = some x.start) ∧ (∀ j, j ≠ field q 4 1 → (t.part p).slot j = P.slot j) ∧
        Leaves s t (verbFrame fun P => { P with slots := [] }))) ∧
  -- METER_READ, SHAPE_REPORT
  (∀ (s : State) (p : Nat) (P : Part), let q := s.request
    s.parts.find p = some P → named s = p →
    (Goes s 11 → ∃ t, exec .meterRead s = .next t ∧ t.grm.ystatus = 0 ∧ (t.part p).mseq = P.mseq + 1 ∧
      Memory.rdN t.grm.yrsp 8 8 = natLe 8 (P.mseq + 1) ∧ Memory.rdN t.grm.yrsp 16 8 = natLe 8 s.gtime ∧
      (∀ k < 11, Memory.rdN t.grm.yrsp (24 + 8 * k) 8 = natLe 8 (P.meters.getD k 0)) ∧
      Memory.rdN t.grm.yrsp 112 48 = (if P.mseq = 0 then List.replicate 48 0 else sha384 P.lastSnap) ∧
      Memory.rdN t.grm.yrsp 0 256 = (t.part p).lastSnap ∧
      (t.part p).lastSnap.drop 160 = signed ((t.part p).lastSnap.take 160) ∧
      Leaves s t (verbFrame fun P => { P with mseq := 0, lastSnap := [] })) ∧
    (Goes s 12 → field q 8 4 = 0 → let r := s.shapeReport p ++ signed (s.shapeReport p)
      ∃ t, exec .shapeReport s = .next t ∧ Responds p 0 0 (natLe 4 r.length ++ natLe 4 0 ++ r.take 240) t ∧
        (t.part p).shape = some r ∧ Leaves s t (verbFrame fun P => { P with shape := none })) ∧
    (∀ r, let off := field q 8 4
      Goes s 12 → 0 < off → P.shape = some r → off % 8 = 0 → off < r.length →
      ∃ t, exec .shapeReport s = .next t ∧ Responds p 0 0 (natLe 4 r.length ++ natLe 4 off ++ (r.drop off).take 240) t ∧
        Leaves s t verbFrame) ∧
    (Goes s 12 → field q 8 4 % 8 ≠ 0 → Declines .shapeReport s p 2)) ∧
  -- SLEEP_PREPARE, WAKE, a code outside the table
  (∀ (s : State) (p : Nat) (P : Part), s.parts.find p = some P → Tbl.sorted s.parts = true →
    (Goes s 13 → P.quiesced = false → P.jobs = [] →
      ∃ t, exec .sleepPrepare s = .next t ∧ t.grm.ybusy = true ∧ (t.part p).jobs = [.sleep] ∧ (t.part p).quiesced = true) ∧
    (s.grm.ybusy = true → field s.grm.yrun 0 2 = 13 → (∀ x ∈ s.parts, s.calm x.1 = true ∧ x.2.jobs = [.sleep]) →
      ∃ t, exec .sleepPrepare s = .next t ∧ t.grm.asleep = true ∧ t.grm.ybusy = false ∧ t.grm.ystatus = 0 ∧
        (t.part p).wrapped = some P.td ∧ (t.part p).spdm = {}) ∧
    (s.grm.ybusy = false → s.grm.asleep = true → field s.request 0 2 = 14 →
      ∃ t, exec .wake s = .next t ∧ t.grm.asleep = false ∧ t.grm.ystatus = 0 ∧ (t.part p).wrapped = none ∧
        (t.part p).td = match P.wrapped with
          | some .run => .locked
          | some x => x
          | none => P.td)) ∧
  (∀ s : State, s.grm.ybusy = false → field s.request 0 2 = 0 ∨ 14 < field s.request 0 2 →
    Declines .unknownVerb s (named s) (if s.grm.asleep then 3 else 1))

/-! ## Errors, failures and the route tables -/

/-- No partition has a quiesce to go on with. -/
def noJobs (s : State) : Prop := ∀ x ∈ s.parts, x.2.jobs = []

/-- No sample of the error counts is due (R439). -/
def noSample (s : State) : Prop := s.gtime / 1000000 ≤ s.grm.lastSample

/-- A partition's only job goes on: the partition is calm, and no other partition has one (R451). -/
def JobRuns (s : State) (p : Nat) (P : Part) (j : Job) : Prop :=
  Tbl.sorted s.parts = true ∧ s.parts.find p = some P ∧ P.jobs = [j] ∧ s.calm p = true ∧
  ∀ x ∈ s.parts, x.1 ≠ p → x.2.jobs = []

/-- A partition with a gang that runs, and no quiesce as yet. -/
def running (s : State) (p : Nat) (P : Part) : Prop :=
  Tbl.sorted s.parts = true ∧ s.parts.find p = some P ∧ P.quiesced = false ∧
  ∃ k g, s.gangs.find k = some g ∧ g.st = .running ∧ (s.launch g.lid).part = p

/-- A partition's quiesce has begun for a job (R451). -/
def Quiescing (s : State) (p : Nat) (j : Job) (t : State) : Prop :=
  (t.part p).quiesced = true ∧ (t.part p).jobs.head? = some j ∧
  ∀ k g h, s.gangs.find k = some g → (s.launch g.lid).part = p → t.gangs.find k = some h → h.st ≠ .running

/-- An entry of the bus log (R438). -/
def busEntry (s : State) (line tile group retries outcome lane : Nat) : List Byte :=
  natLe 8 line ++ natLe 2 tile ++ natLe 1 group ++ natLe 1 retries ++ natLe 1 outcome ++ natLe 1 lane ++ [0, 0] ++
    natLe 8 s.gtime ++ natLe 8 s.grm.bltail.toNat

/-- The bus log has one entry more. -/
def BusLogged (s : State) (e : List Byte) (t : State) : Prop :=
  t.grm.bltail = s.grm.bltail + 1 ∧ t.grm.blog.find (s.grm.bltail.toNat % 256) = some e

/-- A frame for the error logs and the counts of tiles. -/
def rasFrame : MayChange :=
  { upset := fun _ => False
    rest := fun x => { x with freeCtr := 0, grm := { x.grm with blog := [], bltail := 0, alog := [], altail := 0, svlog := [], svtail := 0,
                                                                repairs := [] }
                              wafer := { x.wafer with soft := [], spareLane := [], net := [], route := [] } } }

/-- R410, R433, R436 to R441, R446 to R448, R451, R453, R463: errors and their logs, and what follows from a failure. `RTINJ`
writes one route entry; a comparison restores and logs every entry that differs; a corrected error counts, an uncorrectable one
waits for its consumer; a warning quiesces the partition that holds the tile and asks for the self-test of its cores, and the quiesce's checkpoint is followed by its
record; a failed core loses its lids, its operations and its owned words, and its partition is restored from its checkpoint or
moved to other tiles; a link that fails 16 replays is taken down and its partition avoids it from then on; a beat's failed
retries end in a pass, a swapped lane or a lost line. Griermor's choices are Config's (log entries 27, 30, 31). -/
def Obligations.ErrorsAndFailures : Prop :=
  (∀ (s : State) (v : Word), let tile := (s.grm.rsel.extractLsb' 0 11).toNat
    let k := routeKey tile (if v.getLsbD 15 then 1 else 0) (v.extractLsb' 0 11).toNat
    (∀ p, v.getLsbD 31 = true → s.tileOwner tile = some p →
      ∃ t, exec (.rtinj v) s = .next t ∧
        t.routeEntry (t.part p) tile (if v.getLsbD 15 then 1 else 0) (v.extractLsb' 0 11).toNat = (v.extractLsb' 11 4).toNat ∧
        (∀ j, j ≠ k → t.wafer.route.find j = s.wafer.route.find j) ∧ Leaves s t rasFrame) ∧
    (v.getLsbD 31 = false ∨ s.tileOwner tile = none → exec (.rtinj v) s = .next s)) ∧
  (∀ (s : State) (since : Nat) (ps : List Nat) (rest : List (Nat × List Nat)),
    s.grm.repairs = (since, ps) :: rest → Tbl.sorted s.wafer.route = true →
    let bad := (s.wafer.route.map (·.1)).filter fun (k : Nat) => (s.tileOwner (k / 4096)).any fun p => ps.contains p
    ∃ t, exec .routeRepair s = .next t ∧ t.grm.repairs = rest ∧
      (∀ k, t.wafer.route.find k = if k ∈ bad then none else s.wafer.route.find k) ∧
      t.grm.svtail = s.grm.svtail + BitVec.ofNat 32 bad.length ∧
      (∀ (j k p : Nat), bad[j]? = some k → bad.length ≤ j + 256 → s.tileOwner (k / 4096) = some p →
        let n : Word := s.grm.svtail + BitVec.ofNat 32 j
        t.grm.svlog.find (n.toNat % 256) = some
          (natLe 2 (k / 4096) ++ natLe 1 (k / 2048 % 2) ++ natLe 1 ((s.part p).masterEntry (k / 4096) (k % 2048)) ++
            natLe 1 p ++ natLe 1 p ++ [3, 0] ++ natLe 2 (k % 2048) ++ [0, 0, 0, 0, 0, 0] ++ natLe 8 s.gtime ++
            natLe 8 n.toNat)) ∧ Leaves s t rasFrame) ∧
  -- samples
  (∀ s : State, noSample s → noJobs s →
    (∀ tile addr layer kind, ∃ t, exec (.softErrorSample [.corrected tile addr layer kind]) s = .next t ∧
      t.wafer.soft.getD tile 0 = min (s.wafer.soft.getD tile 0 + 1) (2 ^ 32 - 1) ∧
      (∀ j, j ≠ tile → t.wafer.soft.getD j 0 = s.wafer.soft.getD j 0) ∧
      (kind < 2 → t.grm.altail = s.grm.altail + 1 ∧ t.grm.alog.find (s.grm.altail.toNat % 256) = some
        (natLe 8 addr ++ natLe 2 tile ++ natLe 1 layer ++ natLe 1 kind ++ [0, 0, 0, 0] ++ natLe 8 s.gtime ++
          natLe 8 s.grm.altail.toNat)) ∧ Leaves s t rasFrame) ∧
    (∀ sp a, ∃ t, exec (.softErrorSample [.line sp a]) s = .next t ∧ t.lineUpset sp a = true ∧ Leaves s t rasFrame) ∧
    (∀ core, (s.coreRegs core).selfTest = true →
      ∃ t, exec (.softErrorSample [.quads core 0xFF]) s = .next t ∧ (t.coreRegs core).health = 0xFF ∧
        (t.coreRegs core).selfTest = false ∧ Leaves s t { core := fun c => { c with health := 0, selfTest := false } }) ∧
    (∀ core m, (s.coreRegs core).selfTest = false →
      ∃ t, exec (.softErrorSample [.quads core m]) s = .next t ∧ (t.coreRegs core).health = (s.coreRegs core).health ∧
        Leaves s t)) ∧
  (∀ (s : State) (p tile : Nat) (P : Part), let now := s.gtime / 1000000
    noJobs s → running s p P → s.grm.lastSample < now → s.grm.asleep = false → s.tileOwner tile = some p →
    tile ∈ s.wafer.soft.map (·.1) → s.grm.thresh ≤ s.risen tile now → (∀ x ∈ s.wafer.warned, x.1 = tile → x.2 + s.grm.window ≤ now) →
    ∃ t, exec (.softErrorSample []) s = .next t ∧ Quiescing s p .checkpoint t ∧ t.grm.lastSample = now ∧
      ∀ i < 4, (t.coreRegs (4 * tile + i)).selfTest = true) ∧
  (∀ (s : State) (p : Nat) (P : Part), JobRuns s p P .checkpoint → noSample s →
    ∃ (m t : State), exec (.softErrorSample []) s = .next t ∧ t = (m.fqPush p { source := 7, va := BitVec.ofNat 64 (P.ckptGen + 1) }).1 ∧
      (m.part p).ckptGen = P.ckptGen + 1 ∧ (m.part p).quiesced = false ∧ (m.part p).jobs = [] ∧ (m.part p).hyp = P.hyp ∧
      (∃ k : Checkpoint, (m.part p).ckpt = some k ∧ k.hyp = P.hyp ∧ k.queues = P.queues) ∧ (t.part p).ckptGen = P.ckptGen + 1) ∧
  -- failed cores
  (∀ (s : State) (core p : Nat) (P : Part), let lost := fun t : State =>
      (t.coreRegs core).failed = true ∧ Quiescing s p (.recover (P.localTile (core / 4))) t ∧
      (∀ l ∈ t.l1, l.core ≠ core) ∧ (∀ l ∈ t.lids, l.core ≠ core) ∧
      (∀ id o, s.ops.find id = some o → o.core = core → o.st ≠ .landed → o.st ≠ .failed → o.st ≠ .reading →
        ∃ r, t.ops.find id = some r ∧ r.st = .failed ∧ r.hasErr = true) ∧
      (∀ id a, s.accs.find id = some a → a.st = .atOwner core → a.kind = .ld →
        ∃ r, t.accs.find id = some r ∧ r.st = .faulted ∧ r.cause = cz 0x16 0) ∧
      (∀ r l w, r ∈ s.reg → r.core = core → (∀ x ∈ s.reg, x.part = r.part → x.asid = r.asid → x.line = r.line → x = r) →
        s.l1Find core r.part r.asid r.line 0 = some l → r.mask.getLsbD w = true → (dirtyWords l.dirty).getLsbD w = true →
        ∃ q, t.regFind r.part r.asid r.line = some q ∧ q.lost.getLsbD w = true ∧ q.mask = 0)
    noJobs s → running s p P → s.tileOwner (core / 4) = some p → (s.coreRegs core).failed = false →
    Tbl.sorted s.accs = true → Tbl.sorted s.ops = true →
    (core < 4 * Config.poolTiles → ∃ t, exec (.coreFailure core) s = .next t ∧ lost t) ∧
    (∀ m, m ≠ 0xFF → (s.coreRegs core).selfTest = true → noSample s →
      ∃ t, exec (.softErrorSample [.quads core m]) s = .next t ∧ (t.coreRegs core).health = m ∧ lost t)) ∧
  (∀ (s : State) (p i : Nat) (P : Part), JobRuns s p P (.recover i) → noSample s → P.b2.sdheld = none →
    (∀ k, P.policy = 0 → P.ckpt = some k → P.tiles.eraseDups = P.tiles → Memory.wf k.mem = true →
      ∃ t, exec (.softErrorSample []) s = .next t ∧ (t.part p).quiesced = false ∧ (t.part p).queues = k.queues ∧
        (t.part p).hyp = k.hyp ∧ (t.part p).res = k.res ∧ (t.part p).tiles = P.tiles ∧ (∀ r ∈ t.reg, r.part ≠ p) ∧
        (∀ x ∈ t.launches, x.2.part = p → x ∈ k.launches) ∧
        (∀ ppa b, P.mpa ppa = some b → Memory.rd t.vault b = Memory.rd k.mem ppa)) ∧
    (∀ new, P.policy ≠ 0 → s.newTiles P i none = some new →
      ∃ t, exec (.softErrorSample []) s = .next t ∧ (t.part p).tiles = new ∧ (t.part p).quiesced = false ∧
        (t.part p).placeCount = P.placeCount + 1 ∧ (∀ x ∈ new, t.tileSt x = .assigned p) ∧
        (∀ x ∈ P.tiles, x ∉ new → s.tileFailed x = true → t.tileSt x = .dead) ∧ MemoryMoved s p P new t) ∧
    (P.policy ≠ 0 → s.newTiles P i none = none →
      ∃ t, exec (.softErrorSample []) s = .next t ∧ (t.part p).td = .error ∧ (t.part p).quiesced = true)) ∧
  -- links and the vault bus
  (∀ (s : State) (tile port fails : Nat), noJobs s → fails < 16 →
    ∃ t, exec (.flitCrcReplay tile port fails) s = .next t ∧
      t.wafer.net.getD tile 0 = (if fails = 0 then s.wafer.net.getD tile 0 else min (s.wafer.net.getD tile 0 + fails) (2 ^ 32 - 1)) ∧
      (∀ j, j ≠ tile → t.wafer.net.getD j 0 = s.wafer.net.getD j 0) ∧ Leaves s t rasFrame) ∧
  (∀ (s : State) (tile port fails p u : Nat) (P : Part), let link := linkKey tile (entrySide port)
    noJobs s → running s p P → 16 ≤ fails → 1 ≤ port → port ≤ 4 → neighbour tile (entrySide port) = some u →
    link ∉ s.wafer.linkDown → tile ∈ P.tiles → u ∈ P.tiles →
    ∃ t, exec (.flitCrcReplay tile port fails) s = .next t ∧ link ∈ t.wafer.linkDown ∧ Quiescing s p .reembed t) ∧
  (∀ (s : State) (p : Nat) (P : Part) (tile port : Nat), JobRuns s p P .reembed →
    connectedOver P.tiles s.wafer.linkDown = true →
    ∃ t, exec (.flitCrcReplay tile port 0) s = .next t ∧ (t.part p).avoid = s.wafer.linkDown ∧ (t.part p).tiles = P.tiles ∧
      (t.part p).quiesced = false ∧ (∀ x ∈ P.tiles, ∀ plane < 2, ∀ dst < 2048, t.wafer.route.find (routeKey x plane dst) = none)) ∧
  (∀ (s : State) (tile addr group fails lane : Nat), group < 32 → lane < 32 →
    let line := tile * 2 ^ 33 + addr % 2 ^ 33 / 128 * 128
    (fails < 4 → ∃ t, exec (.vaultBeatParityFail tile addr group fails lane) s = .next t ∧
      BusLogged s (busEntry s line tile group (fails + 1) 0 0xFF) t ∧ Leaves s t rasFrame) ∧
    (4 ≤ fails → (s.wafer.spareLane.getD tile 0).getLsbD group = false →
      ∃ t, exec (.vaultBeatParityFail tile addr group fails lane) s = .next t ∧
        BusLogged s (busEntry s line tile group 4 1 lane) t ∧
        (t.wafer.spareLane.getD tile 0) = (s.wafer.spareLane.getD tile 0 ||| (1#32 <<< group)) ∧ Leaves s t rasFrame) ∧
    (4 ≤ fails → (s.wafer.spareLane.getD tile 0).getLsbD group = true →
      ∃ t, exec (.vaultBeatParityFail tile addr group fails lane) s = .next t ∧
        BusLogged s (busEntry s line tile group 4 2 0xFF) t ∧ t.lineUpset 0 line = true ∧ Leaves s t rasFrame))

/-! ## Energy, frequency steps, time and reset -/

/-- What an island's step has become, and why (R459, R460); the power readings are those of the event. -/
def Stepped (s : State) (i : Nat) (avg10 : List Nat) (x : Island) (t : State) : Prop :=
  t.island i = { x with power := min (avg10.getD i 0) 65535 } ∧
  (∀ j < 100, j ≠ i → t.island j = { s.island j with power := min (avg10.getD j 0) 65535 }) ∧
  Leaves s t { rest := fun x => { x with grm := { x.grm with islands := [] } } }

/-- R377, R442, R443, R454, R456 to R461: a millisecond's energy and tile time, the allowance of a window, the steps of an
island, module time and its grandmaster, and module reset. The dynamic term of the estimate is Config's, calibrated per module
(log entry 14); the powers, offsets and choices of Griermor are arguments of the events (log entries 30, 32, 33). -/
def Obligations.EnergyPowerAndTime : Prop :=
  (∀ (s : State) (p : Nat) (P : Part) (power : List Nat), Tbl.sorted s.parts = true → s.parts.find p = some P →
    s.grm.lastMs < s.gtime / 1000000 →
    ∃ (t : State) (P' : Part), exec (.energyTick power) s = .next t ∧ t.grm.lastMs = s.grm.lastMs + 1 ∧ P'.frozen = P.frozen ∧
      (∀ k, P.meters.getD k 0 ≤ 2 ^ 64 - 1 → P.meters.getD k 0 ≤ P'.meters.getD k 0) ∧
      (∀ k, k < 6 ∨ 8 < k → P'.meters.getD k 0 = P.meters.getD k 0) ∧
      let e := Config.energyEstimate 0 P'.newCounts + s.staticEnergy P power + P.energyRem
      (t.part p).energyRem = e % 1000000 ∧
      (t.part p).meters.getD 9 0 = min (P.meters.getD 9 0 + P.tiles.length) (2 ^ 64 - 1) ∧
      (t.part p).meters.getD 10 0 = min (P.meters.getD 10 0 + e / 1000000) (2 ^ 64 - 1) ∧
      (t.part p).energy = (if P.share = 0 then P.energy else BitVec.ofNat 64 (P.energy.toNat - e / 1000000)) ∧
      Leaves s t { part := fun P => { P with meters := [], lastCount := [], energyRem := 0, energy := 0 }
                   rest := fun x => { x with freeCtr := 0, grm := { x.grm with lastMs := 0 } } }) ∧
  (∀ (s : State) (p : Nat) (P : Part), Tbl.sorted s.parts = true → s.parts.find p = some P →
    s.grm.lastSec < s.gtime / 1000000000 →
    ∃ t, exec .allowanceWindowStart s = .next t ∧ t.grm.lastSec = s.gtime / 1000000000 ∧
      (P.share ≠ 0 → (t.part p).energy = BitVec.ofNat 64 (P.share * 1000) ∧ (t.part p).deferred = []) ∧
      (P.share = 0 → (t.part p).energy = P.energy)) ∧
  (∀ (s : State) (i : Nat) (avg10 : List Nat) (mod100 mod1 : Nat), let x := s.island i
    let paced := x.lowered = 0 ∨ x.changed + 1000000 ≤ s.gtime
    let lower := fun (c : Nat) => { x with step := x.step + 1, counted := x.ticks s.tick, from_ := s.tick, cause := c
                                           lowered := min (x.lowered + 1) 65535, changed := s.gtime }
    i < 100 → x.step < 3 →
    (paced → 300 < avg10.getD i 0 →
      ∃ t, exec (.islandStepDown i avg10 mod100 mod1) s = .next t ∧ Stepped s i avg10 (lower 2) t) ∧
    (avg10.getD i 0 ≤ 300 → (∀ j < 100, (s.island j).step < 3 → avg10.getD j 0 ≤ avg10.getD i 0) →
      (paced ∧ 30000 < mod100) ∨ 34000 < mod1 →
      ∃ t, exec (.islandStepDown i avg10 mod100 mod1) s = .next t ∧ Stepped s i avg10 (lower 3) t) ∧
    (avg10.getD i 0 ≤ 300 → mod100 ≤ 30000 → mod1 ≤ 34000 → x.step = 0 → s.islandParts i ≠ [] →
      (∀ p ∈ s.islandParts i, (s.part p).share ≠ 0 ∧ (s.part p).energy = 0) →
      ∃ t, exec (.islandStepDown i avg10 mod100 mod1) s = .next t ∧ Stepped s i avg10 (lower 1) t) ∧
    (avg10.getD i 0 ≤ 300 → mod100 ≤ 30000 → mod1 ≤ 34000 → x.step ≠ 0 →
      ∃ t, exec (.islandStepDown i avg10 mod100 mod1) s = .next t ∧ Stepped s i avg10 x t)) ∧
  (∀ (s : State) (i : Nat) (avg10 : List Nat) (mod100 mod1 : Nat), let x := s.island i
    i < 100 → avg10.getD i 0 ≤ 300 → mod100 ≤ 30000 → mod1 ≤ 34000 → x.changed + 10000000 ≤ s.gtime →
    (0 < x.step → s.overBudget i = false →
      ∃ t c, exec (.islandStepUp i avg10 mod100 mod1) s = .next t ∧ (x.step = 1 → c = 0) ∧
        Stepped s i avg10 { x with step := x.step - 1, counted := x.ticks s.tick, from_ := s.tick, cause := c, changed := s.gtime } t) ∧
    (1 < x.step → s.overBudget i = true →
      ∃ t c, exec (.islandStepUp i avg10 mod100 mod1) s = .next t ∧ (x.step = 2 → c = 1) ∧
        Stepped s i avg10 { x with step := x.step - 1, counted := x.ticks s.tick, from_ := s.tick, cause := c, changed := s.gtime } t) ∧
    (x.step = 1 → s.overBudget i = true →
      ∃ t, exec (.islandStepUp i avg10 mod100 mod1) s = .next t ∧ Stepped s i avg10 x t)) ∧
  (∀ (x : Island) (k n m : Nat), (x.setStep k n).ticks n = x.ticks n ∧
    (k = 0 → (x.setStep k n).ticks (n + m) = x.ticks n + m) ∧
    (k ≤ 3 → 4 * ((x.setStep k n).ticks (n + m) - x.ticks n) ≤ (4 - k) * m + 3 ∧
      (4 - k) * m ≤ 4 * ((x.setStep k n).ticks (n + m) - x.ticks n) + 3)) ∧
  (∀ (s : State) (skew : Nat) (adj : Int),
    ∃ t, exec (.ptpExchange skew adj) s = .next t ∧ t.gtskew = min skew 4000 ∧ t.gtime = s.gtime ∧
      (-100 ≤ t.grm.pendOff ∧ t.grm.pendOff ≤ 100) ∧
      (s.grm.lock = true → -100 ≤ adj → adj ≤ 100 → t.grm.pendOff = adj) ∧ (s.grm.lock = false → t.grm.pendOff = 0) ∧
      Leaves s t { rest := fun x => { x with gtskew := 0, grm := { x.grm with pendOff := 0 } } }) ∧
  (∀ (s : State) (off : Int) (selected : Bool),
    ∃ t, exec (.ptpMessageReceive off selected) s = .next t ∧ t.grm.toff = BitVec.ofInt 64 off ∧
      (t.grm.lock = true ↔ selected = true ∧ -1000000 ≤ off ∧ off ≤ 1000000) ∧
      Leaves s t { rest := fun x => { x with grm := { x.grm with toff := 0, lock := false } } }) ∧
  (∀ s : State, ∃ t, exec .grandmasterLost s = .next t ∧ t.grm.lock = false ∧ t.grm.pendOff = 0 ∧ t.gtime = s.gtime ∧
    Leaves s t { rest := fun x => { x with grm := { x.grm with lock := false, pendOff := 0 } } }) ∧
  (∀ (s : State) (dead spares : List Nat) (binding : List (Nat × Nat)), bindingOk dead binding = true → spares.length = 24 →
    spares.eraseDups = spares → (∀ x ∈ spares, x < 1560) →
    ∃ t, exec (.moduleReset dead binding spares) s = .next t ∧
      (∀ x < 1560, t.tileSt x = if x ∈ spares then .spare else .free) ∧
      (∀ x < 1560, t.siteOf x = binding.getD x (x % 40, x / 40)) ∧ t.parts = [] ∧ t.warps = [] ∧ t.launches = [] ∧ t.cores = [] ∧
      t.accs = [] ∧ t.ops = [] ∧ t.l1 = [] ∧ t.l2 = [] ∧ t.tlb = [] ∧ t.reg = [] ∧ t.grm = {} ∧ t.gtime = 0 ∧ t.gtskew = 4000 ∧
      t.hostMem = s.hostMem ∧ t.peerMem = s.peerMem)

/-! ## Reset, and what every step keeps -/

/-- R376, R426, R429, R438, R442, R443, R447, R454, R460, R461: the machine right after reset. No partition exists; 24 tiles are
spares and 1,536 are free, every tile on the site of its own coordinates (which tiles are spares, and that every site works, is
the model's choice: log entry 7); the management registers have the values that their tables give; the time error is the bound
of 4,000 ps. `Sound` holds. -/
def Obligations.ResetState : Prop :=
  State.reset.Sound ∧
  ((List.range 1560).filter fun x => State.reset.tileSt x = .spare).length = 24 ∧
  ((List.range 1560).filter fun x => State.reset.tileSt x = .free).length = 1536 ∧
  (∀ x, State.reset.siteOf x = (x % 40, x / 40)) ∧
  State.reset.parts = [] ∧ State.reset.launches = [] ∧ State.reset.gangs = [] ∧ State.reset.blocks = [] ∧ State.reset.warps = [] ∧
  State.reset.accs = [] ∧ State.reset.ops = [] ∧ State.reset.lids = [] ∧ State.reset.l1 = [] ∧ State.reset.l2 = [] ∧
  State.reset.tlb = [] ∧ State.reset.reg = [] ∧
  (∀ i, State.reset.island i = { step := 0, cause := 0, lowered := 0, power := 0, changed := 0 }) ∧
  State.reset.grm.thresh = 64 ∧ State.reset.grm.window = 100 ∧ State.reset.grm.altail = 0 ∧ State.reset.grm.bltail = 0 ∧
  State.reset.grm.svtail = 0 ∧ State.reset.grm.rsel = 0 ∧ State.reset.grm.lock = false ∧ State.reset.grm.toff = 0 ∧
  State.reset.grm.ybusy = false ∧ State.reset.grm.asleep = false ∧ State.reset.gtskew = 4000 ∧
  (∀ x, State.reset.wafer.soft.getD x 0 = 0 ∧ State.reset.wafer.spareLane.getD x 0 = 0 ∧ State.reset.wafer.net.getD x 0 = 0)

/-- From every state in which each memory has its canonical form and the time error is within 4 µs, whichever unit, event or
idle turn is next, a step goes on, and what it goes on to is such a state again: no state of the module stops it, every trap,
record, park and drop being a next state (R377, R395 to R401, R461). -/
def Obligations.StepKeepsSound : Prop := ∀ s : State, s.Sound → ∃ t, step s = .next t ∧ t.Sound

/-! ## Encodings -/

/-- The bytes of words as memory stores them, lowest address first (R4). -/
def storedBytes (ws : List Word) : List Byte :=
  ws.flatMap fun w => [w.extractLsb' 0 8, w.extractLsb' 8 8, w.extractLsb' 16 8, w.extractLsb' 24 8]

/-- R4, R143, R145, R147, R148: what is encoded decodes to what it was, with every field at every value, of every well-formed
instruction; and what decodes is well formed and encodes to the words it was read from, so that no word has two meanings.
An instruction has one word or two, and no word of the header space is one. -/
def Obligations.DecodeOfEncode : Prop :=
  (∀ (i : Instr) (w x : Word), WellFormed i = true → encode i = [w] → decode w x = some (i, 1)) ∧
  (∀ (i : Instr) (w x : Word), WellFormed i = true → encode i = [w, x] → decode w x = some (i, 2)) ∧
  (∀ (i : Instr) (rest : List Byte), WellFormed i = true → encode i ≠ [] →
    decodeBytes (storedBytes (encode i) ++ rest) = some (i, rest)) ∧
  (∀ (w x : Word) (i : Instr) (n : Nat), decode w x = some (i, n) →
    WellFormed i = true ∧ (n = 1 ∧ encode i = [w] ∨ n = 2 ∧ encode i = [w, x])) ∧
  (∀ w x : Word, decode w x = none ↔ 0x78 ≤ w.toNat / 2 ^ 25)

/-- R145, R147, R148: words written out field by field, as the formats of R145 place them, decode to what they stand for. -/
def Obligations.WordsOfEachFormat : Prop :=
  decode 0b0000001_000101_000110_000111_001_00_10 0 = some (.iadd { d := 5, a := 6, b := 7, m := 1, h := 0, q := 2 }, 1) ∧
  decode 0b0000111_000001_000010_000011_000_00_00 0x14000000 =
    some (.imad { d := 1, a := 2, b := 3, m := 0, h := 0, q := 0, x := 0x14000000 }, 2) ∧
  decode 0b0000001_000101_110110_000111_000_00_00 0xDEADBEEF =
    some (.iadd { d := 5, a := 54, b := 7, m := 0, h := 0, q := 0, x := 0xDEADBEEF }, 2) ∧
  decode 0b0110101_001000_001001_000000_011_00_00 0 = some (.exp2 { d := 8, a := 9, b := 0, m := 3, h := 0, q := 0 }, 1) ∧
  decode 0b0011111_001010_001011_11111111011_01 0 = some (.iaddi { d := 10, a := 11, imm := 0x7FB, q := 1 }, 1) ∧
  decode 0b0011010_001100_10000000000000001_00 0 = some (.movi { d := 12, imm := 0x10001, q := 0 }, 1) ∧
  decode 0b1010001_001101_001110_1111110_1100_00 0 = some (.ld { d := 13, base := 14, off := 0x7E, m := 12, q := 0 }, 1) ∧
  decode 0b1011000_001101_001110_0000010_0000_00 0x3C000025 =
    some (.atom { d := 13, base := 14, off := 2, m := 0, q := 0, x := 0x3C000025 }, 2) ∧
  decode 0b1100111_11111111111111111111110_11 0 = some (.bra { off := 0x7FFFFE, q := 3 }, 1) ∧
  decode 0b1101101_010000_00001010_01_0000000_00 0 = some (.loop { cnt := 16, len := 10, lvl := 1, f7 := 0, q := 0 }, 1) ∧
  decode 0b1100010_111111_000011_111111_11111_00 0 = some (.wait { l := 63, s := 3, c := 63, t := 31, q := 0 }, 1) ∧
  decode 0b1110100_010010_000000000100_00001_00 0 = some (.srd { d := 18, sreg := 4, m := 1, q := 0 }, 1) ∧
  decode 0b1110010_0000_010011_101010_0000100_00 0 = some (.cpy { pb := 19, tag := 42, f7 := 4, q := 0 }, 1) ∧
  decode 0b1110011_0010_010100_010101_0000000_00 0 = some (.hget { d := 20, a := 21, f7 := 0, q := 0 }, 1) ∧
  decode 0b1110110_000000_010110_010111_010_00_00 0 = some (.tlbi { d := 0, a := 22, b := 23, m := 2, h := 0, q := 0 }, 1) ∧
  decode 0b1110001_000000_000000_000111_000_00_00 0 = some (.trapCode { d := 0, a := 0, b := 7, m := 0, h := 0, q := 0 }, 1) ∧
  decode 0b1110001_000000_000000_000111_001_00_00 0 = some (.bpt { d := 0, a := 0, b := 7, m := 1, h := 0, q := 0 }, 1) ∧
  decode 0b1110010_1001_000000_000000_0000000_00 0 = some (.illegalInstr 0b1110010_1001_000000_000000_0000000_00, 1) ∧
  decode 0b1111000_0000000000000000000000000 0 = none

/-! ## The step -/

/-- The word of the unit's clause at an address: as decoded with the clause's header, else as memory gives it (R140, R141). -/
def clauseWord (s : State) (u : IssueUnit) (a : DWord) (w : Word) : Prop :=
  (u.code ≠ [] ∧ u.code[(a - u.hdr).toNat / 4 - 1]? = some w) ∨
  (u.code = [] ∧ ∃ p, u.mem.head? = some p ∧ s.fetch (s.partOf p.1) (s.asidOf p.1) a = .ok w)

/-- A word that the unit would fetch again lies in no page whose bias flips (R100). -/
def fetchesNow (s : State) (u : IssueUnit) : Prop :=
  u.code = [] → ∀ m ∈ u.mem, s.flipping (s.partOf m.1) (s.asidOf m.1) u.pc = false ∧
    s.flipping (s.partOf m.1) (s.asidOf m.1) (u.pc + 4) = false

/-- The words at the unit's program counter decode to an instruction (R143). -/
def readsInstr (s : State) (u : IssueUnit) (i : Instr) : Prop :=
  (∃ w, clauseWord s u u.pc w ∧ decode w 0 = some (i, 1)) ∨
  ∃ w x y, clauseWord s u u.pc w ∧ clauseWord s u (u.pc + 4) x ∧ decode w 0 = some y ∧ y.2 = 2 ∧ decode w x = some (i, 2)

/-- A step runs the decoded instruction (R42, R138, R140, R143, R333). With no event at hand, the unit that the scheduler has
chosen runs the instruction whose word, or words, stand at its program counter, and the next choice follows (`afterIssue`); at a
clause's first instruction its header's waits must be met too, once it is ready otherwise. At a clause's header the step fetches
the clause; at a due park, the end of a loop body, or a full list of recorded faults, it takes that turn instead (R36, R398,
R399). An event at hand is what happens, and a tick passes before another unit issues (R62; log entry 2); with no unit chosen
the next choice is made. -/
def Obligations.StepRunsDecodedInstruction : Prop :=
  (∀ (s : State) (i : Instr), let u := s.unit
    let after := fun t : State => t.afterIssue u s.focus (s.quadsAt s.focus)
    s.agenda = [] → s.canIssue s.focus = true → s.stands u = true → fetchesNow s u → readsInstr s u i →
    (u.waits = false → step s = onNext (exec i s) after) ∧
    (u.waits = true → let m := s.passWaits u
      m.heldBack u (exec i m) = false →
      (s.waitMet (s.trapMode u) (u.mem.map (·.1)) (headerBounds u.hw) = true → step s = onNext (exec i m) after) ∧
      (s.waitMet (s.trapMode u) (u.mem.map (·.1)) (headerBounds u.hw) = false →
        step s = .next (after (s.waitUnmet u (s.trapMode u) (u.mem.map (·.1)) (headerBounds u.hw)))))) ∧
  (∀ (s : State) (w : Word), let u := s.unit
    s.agenda = [] → s.canIssue s.focus = true → s.stands u = true → fetchesNow s u → u.waits = false →
    clauseWord s u u.pc w → 0x78 ≤ w.toNat / 2 ^ 25 →
    step s = .next ((s.takeTrap u { cause := cz 0x01 7, tval := u.pc, mask := u.th } 1).afterIssue u s.focus (s.quadsAt s.focus))) ∧
  (∀ s : State, let u := s.unit
    let next := fun t : State => { t with chosen := false }
    s.agenda = [] → s.canIssue s.focus = true →
    (s.parkDue u = true → step s = .next (next (s.parkUnit u))) ∧
    (s.parkDue u = false → s.bodyDue u = true → step s = onNext (exec .loopEndOfBody s) next) ∧
    (s.parkDue u = false → s.bodyDue u = false → s.listDue u = true → step s = .next (next (s.takeRecorded u))) ∧
    (s.parkDue u = false → s.bodyDue u = false → s.listDue u = false → u.pc = u.hdr →
      step s = onNext (exec .clauseFetch s) next)) ∧
  (∀ s : State, s.agenda = [] → s.canIssue s.focus = false → step s = .next s.resched) ∧
  (∀ (s : State) (e : Instr) (rest : List Instr), s.agenda = e :: rest →
    step s = onNext (exec e { s with agenda := rest }) fun t => { t with landing := true, chosen := false, turns := [] })
end

