-- ==== Sys2Proof/Laws/Tbl.lean ====
section
/-! SUPPORT. What the operations over sparse tables and memories do: reads after writes, and the canonical form, which every
operation keeps. -/
namespace Sys2Proof.Laws
open Sys2Proof.Machine

variable {α : Type}

/-! ### Reads after writes -/

@[simp] theorem find_put_same (t : Tbl α) (k : Nat) (x : α) : (Tbl.put t k x).find k = some x := by
  induction t with
  | nil => simp [Tbl.put, Tbl.find]
  | cons h t ih =>
    obtain ⟨k', v⟩ := h
    simp only [Tbl.put]
    split
    · simp [Tbl.find]
    · split
      · simp [Tbl.find]
      · next h1 h2 => simp [Tbl.find, ih, h2]

theorem find_put_ne (t : Tbl α) {k q : Nat} (x : α) (h : q ≠ k) : (Tbl.put t k x).find q = Tbl.find t q := by
  induction t with
  | nil => simp [Tbl.put, Tbl.find, h]
  | cons p t ih =>
    obtain ⟨k', v⟩ := p
    simp only [Tbl.put]
    split
    · simp [Tbl.find, h]
    · split
      · next h1 h2 => subst h2; simp [Tbl.find, h]
      · simp [Tbl.find, ih]

theorem find_put (t : Tbl α) (k q : Nat) (x : α) :
    (Tbl.put t k x).find q = if q = k then some x else Tbl.find t q := by
  split
  · next h => subst h; simp
  · next h => exact find_put_ne t x h

@[simp] theorem find_del_same (t : Tbl α) (k : Nat) : (Tbl.del t k).find k = none := by
  induction t with
  | nil => rfl
  | cons p t ih =>
    obtain ⟨k', v⟩ := p
    simp only [Tbl.del]
    split
    · exact ih
    · next h => simp [Tbl.find, h, ih]

theorem find_del_ne (t : Tbl α) {k q : Nat} (h : q ≠ k) : (Tbl.del t k).find q = Tbl.find t q := by
  induction t with
  | nil => rfl
  | cons p t ih =>
    obtain ⟨k', v⟩ := p
    simp only [Tbl.del]
    split
    · next hk => subst hk; simp [Tbl.find, h, ih]
    · simp [Tbl.find, ih]

@[simp] theorem getD_put_same (t : Tbl α) (k : Nat) (x d : α) : (Tbl.put t k x).getD k d = x := by
  simp [Tbl.getD]

theorem getD_put_ne (t : Tbl α) {k q : Nat} (x d : α) (h : q ≠ k) : (Tbl.put t k x).getD q d = Tbl.getD t q d := by
  simp [Tbl.getD, find_put_ne t x h]

/-! ### Keys rise -/

theorem above_put {b : Nat} {t : Tbl α} {k : Nat} {x : α} (h : Tbl.above b t = true) (hk : b < k) :
    Tbl.above b (Tbl.put t k x) = true := by
  induction t with
  | nil => simp [Tbl.put, Tbl.above, hk]
  | cons p t ih =>
    obtain ⟨k', v⟩ := p
    simp only [Tbl.above, Bool.and_eq_true, decide_eq_true_eq] at h
    simp only [Tbl.put]
    split
    · simp [Tbl.above, hk, h]
    · split
      · simp [Tbl.above, hk, h]
      · simp [Tbl.above, h.1, ih h.2]

theorem above_weaken {b c : Nat} {t : Tbl α} (h : Tbl.above c t = true) (hb : b ≤ c) : Tbl.above b t = true := by
  induction t with
  | nil => rfl
  | cons p t ih =>
    obtain ⟨k', v⟩ := p
    simp only [Tbl.above, Bool.and_eq_true, decide_eq_true_eq] at h ⊢
    exact ⟨by omega, ih h.2⟩

theorem sorted_put {t : Tbl α} (h : Tbl.sorted t = true) (k : Nat) (x : α) : Tbl.sorted (Tbl.put t k x) = true := by
  induction t with
  | nil => simp [Tbl.put, Tbl.sorted, Tbl.above]
  | cons p t ih =>
    obtain ⟨k', v⟩ := p
    simp only [Tbl.sorted, Bool.and_eq_true] at h
    simp only [Tbl.put]
    split
    · next hk => simp [Tbl.sorted, Tbl.above, h, hk, above_weaken h.1 (Nat.le_of_lt hk)]
    · split
      · next h1 h2 => subst h2; simp [Tbl.sorted, h]
      · next h1 h2 =>
        have hk : k' < k := by omega
        simp [Tbl.sorted, above_put h.1 hk, ih h.2]

theorem above_del {b : Nat} {t : Tbl α} {k : Nat} (h : Tbl.above b t = true) : Tbl.above b (Tbl.del t k) = true := by
  induction t with
  | nil => rfl
  | cons p t ih =>
    obtain ⟨k', v⟩ := p
    simp only [Tbl.above, Bool.and_eq_true, decide_eq_true_eq] at h
    simp only [Tbl.del]
    split
    · exact ih h.2
    · simp [Tbl.above, h.1, ih h.2]

theorem sorted_del {t : Tbl α} (h : Tbl.sorted t = true) (k : Nat) : Tbl.sorted (Tbl.del t k) = true := by
  induction t with
  | nil => rfl
  | cons p t ih =>
    obtain ⟨k', v⟩ := p
    simp only [Tbl.sorted, Bool.and_eq_true] at h
    simp only [Tbl.del]
    split
    · exact ih h.2
    · simp [Tbl.sorted, above_del h.1, ih h.2]

theorem above_filter {b : Nat} {t : Tbl α} (f : Nat × α → Bool) (h : Tbl.above b t = true) :
    Tbl.above b (t.filter f) = true := by
  induction t with
  | nil => rfl
  | cons p t ih =>
    obtain ⟨k', v⟩ := p
    simp only [Tbl.above, Bool.and_eq_true, decide_eq_true_eq] at h
    simp only [List.filter_cons]
    split
    · simp [Tbl.above, h.1, ih h.2]
    · exact ih h.2

theorem sorted_filter {t : Tbl α} (f : Nat × α → Bool) (h : Tbl.sorted t = true) : Tbl.sorted (t.filter f) = true := by
  induction t with
  | nil => rfl
  | cons p t ih =>
    obtain ⟨k', v⟩ := p
    simp only [Tbl.sorted, Bool.and_eq_true] at h
    simp only [List.filter_cons]
    split
    · simp [Tbl.sorted, above_filter f h.1, ih h.2]
    · exact ih h.2

/-! ### Memory -/

theorem noZero_put {m : Memory} {v : Byte} (h : Memory.noZero m = true) (hv : v ≠ 0) (a : Nat) :
    Memory.noZero (Tbl.put m a v) = true := by
  induction m with
  | nil => simp_all [Tbl.put, Memory.noZero]
  | cons p t ih =>
    simp only [Memory.noZero, Bool.and_eq_true, decide_eq_true_eq] at h
    simp only [Tbl.put]
    split
    · simp_all [Memory.noZero]
    · split <;> simp_all [Memory.noZero]

theorem noZero_del {m : Memory} (h : Memory.noZero m = true) (a : Nat) : Memory.noZero (Tbl.del m a) = true := by
  induction m with
  | nil => rfl
  | cons p t ih =>
    simp only [Memory.noZero, Bool.and_eq_true, decide_eq_true_eq] at h
    simp only [Tbl.del]
    split <;> simp_all [Memory.noZero]

theorem noZero_filter {m : Memory} (f : Host.Cell → Bool) (h : Memory.noZero m = true) :
    Memory.noZero (m.filter f) = true := by
  induction m with
  | nil => rfl
  | cons p t ih =>
    simp only [Memory.noZero, Bool.and_eq_true, decide_eq_true_eq] at h
    simp only [List.filter_cons]
    split <;> simp_all [Memory.noZero]

/-- A write of one byte keeps the canonical form. -/
theorem wf_wr {m : Memory} (h : Memory.wf m = true) (a : Nat) (v : Byte) : Memory.wf (Memory.wr m a v) = true := by
  simp only [Memory.wf, Bool.and_eq_true] at h
  simp only [Memory.wr, Memory.wf, Bool.and_eq_true]
  split
  · exact ⟨sorted_del h.1 a, noZero_del h.2 a⟩
  · next hv => exact ⟨sorted_put h.1 a v, noZero_put h.2 hv a⟩

/-- A write of a run of bytes keeps the canonical form. -/
theorem wf_wrN {m : Memory} (h : Memory.wf m = true) (a : Nat) (bs : List Byte) : Memory.wf (Memory.wrN m a bs) = true := by
  induction bs generalizing m a with
  | nil => exact h
  | cons b bs ih => exact ih (wf_wr h a b) (a + 1)

theorem wf_filter {m : Memory} (f : Host.Cell → Bool) (h : Memory.wf m = true) : Memory.wf (m.filter f) = true := by
  simp only [Memory.wf, Bool.and_eq_true] at h ⊢
  exact ⟨sorted_filter f h.1, noZero_filter f h.2⟩

/-- The byte written is the byte read. -/
@[simp] theorem rd_wr_same (m : Memory) (a : Nat) (v : Byte) : Memory.rd (Memory.wr m a v) a = v := by
  simp only [Memory.rd, Memory.wr, Tbl.getD]
  split
  · next h => subst h; simp
  · simp

/-- A write leaves every other byte. -/
theorem rd_wr_ne (m : Memory) {a b : Nat} (v : Byte) (h : b ≠ a) : Memory.rd (Memory.wr m a v) b = Memory.rd m b := by
  simp only [Memory.rd, Memory.wr, Tbl.getD]
  split
  · rw [find_del_ne m h]
  · rw [find_put_ne m v h]

/-- A run of bytes written leaves every byte outside it. -/
theorem rd_wrN_out (m : Memory) (a : Nat) (bs : List Byte) {b : Nat} (h : b < a ∨ a + bs.length ≤ b) :
    Memory.rd (Memory.wrN m a bs) b = Memory.rd m b := by
  induction bs generalizing m a with
  | nil => rfl
  | cons x bs ih =>
    simp only [List.length_cons] at h
    simp only [Memory.wrN]
    rw [ih (Memory.wr m a x) (a + 1) (by omega), rd_wr_ne m x (by omega)]

/-- A run of bytes written is read back. -/
theorem rd_wrN_in (m : Memory) (a : Nat) (bs : List Byte) {i : Nat} (h : i < bs.length) :
    Memory.rd (Memory.wrN m a bs) (a + i) = bs[i] := by
  induction bs generalizing m a i with
  | nil => simp at h
  | cons x bs ih =>
    simp only [Memory.wrN]
    cases i with
    | zero => simp [rd_wrN_out (Memory.wr m a x) (a + 1) bs (b := a) (by omega)]
    | succ i =>
      have := ih (Memory.wr m a x) (a + 1) (i := i) (by simpa using h)
      simpa [Nat.add_assoc, Nat.add_comm 1 i] using this

theorem length_rdN (m : Memory) (a n : Nat) : (Memory.rdN m a n).length = n := by
  induction n generalizing a with
  | zero => rfl
  | succ n ih => simp [Memory.rdN, ih]

theorem getElem_rdN (m : Memory) (a n i : Nat) (h : i < (Memory.rdN m a n).length) :
    (Memory.rdN m a n)[i] = Memory.rd m (a + i) := by
  induction n generalizing a i with
  | zero => simp [Memory.rdN] at h
  | succ n ih =>
    cases i with
    | zero => simp [Memory.rdN]
    | succ i =>
      simp only [Memory.rdN, List.getElem_cons_succ]
      rw [ih]
      congr 1; omega

/-- A run of bytes written reads back whole. -/
@[simp] theorem rdN_wrN_same (m : Memory) (a : Nat) (bs : List Byte) : Memory.rdN (Memory.wrN m a bs) a bs.length = bs := by
  apply List.ext_getElem (length_rdN _ _ _)
  intro i h1 h2
  rw [getElem_rdN, rd_wrN_in m a bs h2]

end Sys2Proof.Laws
end

