-- ==== Sys2Proof/Laws/State.lean ====
section
/-! SUPPORT. Each named update of the state and the fields it leaves: one lemma per field per update. -/
namespace Sys2Proof.Laws
open Sys2Proof.Machine


@[simp] theorem onWarp_agenda (s : State) (k : Nat) (f : Warp → Warp) : (s.onWarp k f).agenda = s.agenda := by
  unfold State.onWarp; split <;> rfl
@[simp] theorem onWarp_focus (s : State) (k : Nat) (f : Warp → Warp) : (s.onWarp k f).focus = s.focus := by
  unfold State.onWarp; split <;> rfl
@[simp] theorem onWarp_chosen (s : State) (k : Nat) (f : Warp → Warp) : (s.onWarp k f).chosen = s.chosen := by
  unfold State.onWarp; split <;> rfl
@[simp] theorem onWarp_tried (s : State) (k : Nat) (f : Warp → Warp) : (s.onWarp k f).tried = s.tried := by
  unfold State.onWarp; split <;> rfl
@[simp] theorem onWarp_ready (s : State) (k : Nat) (f : Warp → Warp) : (s.onWarp k f).ready = s.ready := by
  unfold State.onWarp; split <;> rfl
@[simp] theorem onWarp_turns (s : State) (k : Nat) (f : Warp → Warp) : (s.onWarp k f).turns = s.turns := by
  unfold State.onWarp; split <;> rfl
@[simp] theorem onWarp_issued (s : State) (k : Nat) (f : Warp → Warp) : (s.onWarp k f).issued = s.issued := by
  unfold State.onWarp; split <;> rfl
@[simp] theorem onWarp_landing (s : State) (k : Nat) (f : Warp → Warp) : (s.onWarp k f).landing = s.landing := by
  unfold State.onWarp; split <;> rfl
@[simp] theorem onWarp_nextId (s : State) (k : Nat) (f : Warp → Warp) : (s.onWarp k f).nextId = s.nextId := by
  unfold State.onWarp; split <;> rfl
@[simp] theorem onWarp_freeCtr (s : State) (k : Nat) (f : Warp → Warp) : (s.onWarp k f).freeCtr = s.freeCtr := by
  unfold State.onWarp; split <;> rfl
@[simp] theorem onWarp_tick (s : State) (k : Nat) (f : Warp → Warp) : (s.onWarp k f).tick = s.tick := by
  unfold State.onWarp; split <;> rfl
@[simp] theorem onWarp_gtime (s : State) (k : Nat) (f : Warp → Warp) : (s.onWarp k f).gtime = s.gtime := by
  unfold State.onWarp; split <;> rfl
@[simp] theorem onWarp_gtskew (s : State) (k : Nat) (f : Warp → Warp) : (s.onWarp k f).gtskew = s.gtskew := by
  unfold State.onWarp; split <;> rfl
@[simp] theorem onWarp_blocks (s : State) (k : Nat) (f : Warp → Warp) : (s.onWarp k f).blocks = s.blocks := by
  unfold State.onWarp; split <;> rfl
@[simp] theorem onWarp_gangs (s : State) (k : Nat) (f : Warp → Warp) : (s.onWarp k f).gangs = s.gangs := by
  unfold State.onWarp; split <;> rfl
@[simp] theorem onWarp_launches (s : State) (k : Nat) (f : Warp → Warp) : (s.onWarp k f).launches = s.launches := by
  unfold State.onWarp; split <;> rfl
@[simp] theorem onWarp_parts (s : State) (k : Nat) (f : Warp → Warp) : (s.onWarp k f).parts = s.parts := by
  unfold State.onWarp; split <;> rfl
@[simp] theorem onWarp_cores (s : State) (k : Nat) (f : Warp → Warp) : (s.onWarp k f).cores = s.cores := by
  unfold State.onWarp; split <;> rfl
@[simp] theorem onWarp_mixed (s : State) (k : Nat) (f : Warp → Warp) : (s.onWarp k f).mixed = s.mixed := by
  unfold State.onWarp; split <;> rfl
@[simp] theorem onWarp_accs (s : State) (k : Nat) (f : Warp → Warp) : (s.onWarp k f).accs = s.accs := by
  unfold State.onWarp; split <;> rfl
@[simp] theorem onWarp_outst (s : State) (k : Nat) (f : Warp → Warp) : (s.onWarp k f).outst = s.outst := by
  unfold State.onWarp; split <;> rfl
@[simp] theorem onWarp_ops (s : State) (k : Nat) (f : Warp → Warp) : (s.onWarp k f).ops = s.ops := by
  unfold State.onWarp; split <;> rfl
@[simp] theorem onWarp_errs (s : State) (k : Nat) (f : Warp → Warp) : (s.onWarp k f).errs = s.errs := by
  unfold State.onWarp; split <;> rfl
@[simp] theorem onWarp_lids (s : State) (k : Nat) (f : Warp → Warp) : (s.onWarp k f).lids = s.lids := by
  unfold State.onWarp; split <;> rfl
@[simp] theorem onWarp_acc (s : State) (k : Nat) (f : Warp → Warp) : (s.onWarp k f).acc = s.acc := by
  unfold State.onWarp; split <;> rfl
@[simp] theorem onWarp_accTag (s : State) (k : Nat) (f : Warp → Warp) : (s.onWarp k f).accTag = s.accTag := by
  unfold State.onWarp; split <;> rfl
@[simp] theorem onWarp_l1 (s : State) (k : Nat) (f : Warp → Warp) : (s.onWarp k f).l1 = s.l1 := by
  unfold State.onWarp; split <;> rfl
@[simp] theorem onWarp_reg (s : State) (k : Nat) (f : Warp → Warp) : (s.onWarp k f).reg = s.reg := by
  unfold State.onWarp; split <;> rfl
@[simp] theorem onWarp_vers (s : State) (k : Nat) (f : Warp → Warp) : (s.onWarp k f).vers = s.vers := by
  unfold State.onWarp; split <;> rfl
@[simp] theorem onWarp_tlb (s : State) (k : Nat) (f : Warp → Warp) : (s.onWarp k f).tlb = s.tlb := by
  unfold State.onWarp; split <;> rfl
@[simp] theorem onWarp_l2 (s : State) (k : Nat) (f : Warp → Warp) : (s.onWarp k f).l2 = s.l2 := by
  unfold State.onWarp; split <;> rfl
@[simp] theorem onWarp_hreqs (s : State) (k : Nat) (f : Warp → Warp) : (s.onWarp k f).hreqs = s.hreqs := by
  unfold State.onWarp; split <;> rfl
@[simp] theorem onWarp_vault (s : State) (k : Nat) (f : Warp → Warp) : (s.onWarp k f).vault = s.vault := by
  unfold State.onWarp; split <;> rfl
@[simp] theorem onWarp_seals (s : State) (k : Nat) (f : Warp → Warp) : (s.onWarp k f).seals = s.seals := by
  unfold State.onWarp; split <;> rfl
@[simp] theorem onWarp_hostMem (s : State) (k : Nat) (f : Warp → Warp) : (s.onWarp k f).hostMem = s.hostMem := by
  unfold State.onWarp; split <;> rfl
@[simp] theorem onWarp_peerMem (s : State) (k : Nat) (f : Warp → Warp) : (s.onWarp k f).peerMem = s.peerMem := by
  unfold State.onWarp; split <;> rfl
@[simp] theorem onWarp_paramMem (s : State) (k : Nat) (f : Warp → Warp) : (s.onWarp k f).paramMem = s.paramMem := by
  unfold State.onWarp; split <;> rfl
@[simp] theorem onWarp_upsets (s : State) (k : Nat) (f : Warp → Warp) : (s.onWarp k f).upsets = s.upsets := by
  unfold State.onWarp; split <;> rfl
@[simp] theorem onWarp_relics (s : State) (k : Nat) (f : Warp → Warp) : (s.onWarp k f).relics = s.relics := by
  unfold State.onWarp; split <;> rfl
@[simp] theorem onWarp_msgs (s : State) (k : Nat) (f : Warp → Warp) : (s.onWarp k f).msgs = s.msgs := by
  unfold State.onWarp; split <;> rfl
@[simp] theorem onWarp_wafer (s : State) (k : Nat) (f : Warp → Warp) : (s.onWarp k f).wafer = s.wafer := by
  unfold State.onWarp; split <;> rfl
@[simp] theorem onWarp_grm (s : State) (k : Nat) (f : Warp → Warp) : (s.onWarp k f).grm = s.grm := by
  unfold State.onWarp; split <;> rfl

@[simp] theorem onBlock_agenda (s : State) (k : Nat) (f : Block → Block) : (s.onBlock k f).agenda = s.agenda := by
  unfold State.onBlock; split <;> rfl
@[simp] theorem onBlock_focus (s : State) (k : Nat) (f : Block → Block) : (s.onBlock k f).focus = s.focus := by
  unfold State.onBlock; split <;> rfl
@[simp] theorem onBlock_chosen (s : State) (k : Nat) (f : Block → Block) : (s.onBlock k f).chosen = s.chosen := by
  unfold State.onBlock; split <;> rfl
@[simp] theorem onBlock_tried (s : State) (k : Nat) (f : Block → Block) : (s.onBlock k f).tried = s.tried := by
  unfold State.onBlock; split <;> rfl
@[simp] theorem onBlock_ready (s : State) (k : Nat) (f : Block → Block) : (s.onBlock k f).ready = s.ready := by
  unfold State.onBlock; split <;> rfl
@[simp] theorem onBlock_turns (s : State) (k : Nat) (f : Block → Block) : (s.onBlock k f).turns = s.turns := by
  unfold State.onBlock; split <;> rfl
@[simp] theorem onBlock_issued (s : State) (k : Nat) (f : Block → Block) : (s.onBlock k f).issued = s.issued := by
  unfold State.onBlock; split <;> rfl
@[simp] theorem onBlock_landing (s : State) (k : Nat) (f : Block → Block) : (s.onBlock k f).landing = s.landing := by
  unfold State.onBlock; split <;> rfl
@[simp] theorem onBlock_nextId (s : State) (k : Nat) (f : Block → Block) : (s.onBlock k f).nextId = s.nextId := by
  unfold State.onBlock; split <;> rfl
@[simp] theorem onBlock_freeCtr (s : State) (k : Nat) (f : Block → Block) : (s.onBlock k f).freeCtr = s.freeCtr := by
  unfold State.onBlock; split <;> rfl
@[simp] theorem onBlock_tick (s : State) (k : Nat) (f : Block → Block) : (s.onBlock k f).tick = s.tick := by
  unfold State.onBlock; split <;> rfl
@[simp] theorem onBlock_gtime (s : State) (k : Nat) (f : Block → Block) : (s.onBlock k f).gtime = s.gtime := by
  unfold State.onBlock; split <;> rfl
@[simp] theorem onBlock_gtskew (s : State) (k : Nat) (f : Block → Block) : (s.onBlock k f).gtskew = s.gtskew := by
  unfold State.onBlock; split <;> rfl
@[simp] theorem onBlock_warps (s : State) (k : Nat) (f : Block → Block) : (s.onBlock k f).warps = s.warps := by
  unfold State.onBlock; split <;> rfl
@[simp] theorem onBlock_gangs (s : State) (k : Nat) (f : Block → Block) : (s.onBlock k f).gangs = s.gangs := by
  unfold State.onBlock; split <;> rfl
@[simp] theorem onBlock_launches (s : State) (k : Nat) (f : Block → Block) : (s.onBlock k f).launches = s.launches := by
  unfold State.onBlock; split <;> rfl
@[simp] theorem onBlock_parts (s : State) (k : Nat) (f : Block → Block) : (s.onBlock k f).parts = s.parts := by
  unfold State.onBlock; split <;> rfl
@[simp] theorem onBlock_cores (s : State) (k : Nat) (f : Block → Block) : (s.onBlock k f).cores = s.cores := by
  unfold State.onBlock; split <;> rfl
@[simp] theorem onBlock_mixed (s : State) (k : Nat) (f : Block → Block) : (s.onBlock k f).mixed = s.mixed := by
  unfold State.onBlock; split <;> rfl
@[simp] theorem onBlock_accs (s : State) (k : Nat) (f : Block → Block) : (s.onBlock k f).accs = s.accs := by
  unfold State.onBlock; split <;> rfl
@[simp] theorem onBlock_outst (s : State) (k : Nat) (f : Block → Block) : (s.onBlock k f).outst = s.outst := by
  unfold State.onBlock; split <;> rfl
@[simp] theorem onBlock_ops (s : State) (k : Nat) (f : Block → Block) : (s.onBlock k f).ops = s.ops := by
  unfold State.onBlock; split <;> rfl
@[simp] theorem onBlock_errs (s : State) (k : Nat) (f : Block → Block) : (s.onBlock k f).errs = s.errs := by
  unfold State.onBlock; split <;> rfl
@[simp] theorem onBlock_lids (s : State) (k : Nat) (f : Block → Block) : (s.onBlock k f).lids = s.lids := by
  unfold State.onBlock; split <;> rfl
@[simp] theorem onBlock_acc (s : State) (k : Nat) (f : Block → Block) : (s.onBlock k f).acc = s.acc := by
  unfold State.onBlock; split <;> rfl
@[simp] theorem onBlock_accTag (s : State) (k : Nat) (f : Block → Block) : (s.onBlock k f).accTag = s.accTag := by
  unfold State.onBlock; split <;> rfl
@[simp] theorem onBlock_l1 (s : State) (k : Nat) (f : Block → Block) : (s.onBlock k f).l1 = s.l1 := by
  unfold State.onBlock; split <;> rfl
@[simp] theorem onBlock_reg (s : State) (k : Nat) (f : Block → Block) : (s.onBlock k f).reg = s.reg := by
  unfold State.onBlock; split <;> rfl
@[simp] theorem onBlock_vers (s : State) (k : Nat) (f : Block → Block) : (s.onBlock k f).vers = s.vers := by
  unfold State.onBlock; split <;> rfl
@[simp] theorem onBlock_tlb (s : State) (k : Nat) (f : Block → Block) : (s.onBlock k f).tlb = s.tlb := by
  unfold State.onBlock; split <;> rfl
@[simp] theorem onBlock_l2 (s : State) (k : Nat) (f : Block → Block) : (s.onBlock k f).l2 = s.l2 := by
  unfold State.onBlock; split <;> rfl
@[simp] theorem onBlock_hreqs (s : State) (k : Nat) (f : Block → Block) : (s.onBlock k f).hreqs = s.hreqs := by
  unfold State.onBlock; split <;> rfl
@[simp] theorem onBlock_vault (s : State) (k : Nat) (f : Block → Block) : (s.onBlock k f).vault = s.vault := by
  unfold State.onBlock; split <;> rfl
@[simp] theorem onBlock_seals (s : State) (k : Nat) (f : Block → Block) : (s.onBlock k f).seals = s.seals := by
  unfold State.onBlock; split <;> rfl
@[simp] theorem onBlock_hostMem (s : State) (k : Nat) (f : Block → Block) : (s.onBlock k f).hostMem = s.hostMem := by
  unfold State.onBlock; split <;> rfl
@[simp] theorem onBlock_peerMem (s : State) (k : Nat) (f : Block → Block) : (s.onBlock k f).peerMem = s.peerMem := by
  unfold State.onBlock; split <;> rfl
@[simp] theorem onBlock_paramMem (s : State) (k : Nat) (f : Block → Block) : (s.onBlock k f).paramMem = s.paramMem := by
  unfold State.onBlock; split <;> rfl
@[simp] theorem onBlock_upsets (s : State) (k : Nat) (f : Block → Block) : (s.onBlock k f).upsets = s.upsets := by
  unfold State.onBlock; split <;> rfl
@[simp] theorem onBlock_relics (s : State) (k : Nat) (f : Block → Block) : (s.onBlock k f).relics = s.relics := by
  unfold State.onBlock; split <;> rfl
@[simp] theorem onBlock_msgs (s : State) (k : Nat) (f : Block → Block) : (s.onBlock k f).msgs = s.msgs := by
  unfold State.onBlock; split <;> rfl
@[simp] theorem onBlock_wafer (s : State) (k : Nat) (f : Block → Block) : (s.onBlock k f).wafer = s.wafer := by
  unfold State.onBlock; split <;> rfl
@[simp] theorem onBlock_grm (s : State) (k : Nat) (f : Block → Block) : (s.onBlock k f).grm = s.grm := by
  unfold State.onBlock; split <;> rfl

@[simp] theorem onGang_agenda (s : State) (k : Nat) (f : Gang → Gang) : (s.onGang k f).agenda = s.agenda := by
  unfold State.onGang; split <;> rfl
@[simp] theorem onGang_focus (s : State) (k : Nat) (f : Gang → Gang) : (s.onGang k f).focus = s.focus := by
  unfold State.onGang; split <;> rfl
@[simp] theorem onGang_chosen (s : State) (k : Nat) (f : Gang → Gang) : (s.onGang k f).chosen = s.chosen := by
  unfold State.onGang; split <;> rfl
@[simp] theorem onGang_tried (s : State) (k : Nat) (f : Gang → Gang) : (s.onGang k f).tried = s.tried := by
  unfold State.onGang; split <;> rfl
@[simp] theorem onGang_ready (s : State) (k : Nat) (f : Gang → Gang) : (s.onGang k f).ready = s.ready := by
  unfold State.onGang; split <;> rfl
@[simp] theorem onGang_turns (s : State) (k : Nat) (f : Gang → Gang) : (s.onGang k f).turns = s.turns := by
  unfold State.onGang; split <;> rfl
@[simp] theorem onGang_issued (s : State) (k : Nat) (f : Gang → Gang) : (s.onGang k f).issued = s.issued := by
  unfold State.onGang; split <;> rfl
@[simp] theorem onGang_landing (s : State) (k : Nat) (f : Gang → Gang) : (s.onGang k f).landing = s.landing := by
  unfold State.onGang; split <;> rfl
@[simp] theorem onGang_nextId (s : State) (k : Nat) (f : Gang → Gang) : (s.onGang k f).nextId = s.nextId := by
  unfold State.onGang; split <;> rfl
@[simp] theorem onGang_freeCtr (s : State) (k : Nat) (f : Gang → Gang) : (s.onGang k f).freeCtr = s.freeCtr := by
  unfold State.onGang; split <;> rfl
@[simp] theorem onGang_tick (s : State) (k : Nat) (f : Gang → Gang) : (s.onGang k f).tick = s.tick := by
  unfold State.onGang; split <;> rfl
@[simp] theorem onGang_gtime (s : State) (k : Nat) (f : Gang → Gang) : (s.onGang k f).gtime = s.gtime := by
  unfold State.onGang; split <;> rfl
@[simp] theorem onGang_gtskew (s : State) (k : Nat) (f : Gang → Gang) : (s.onGang k f).gtskew = s.gtskew := by
  unfold State.onGang; split <;> rfl
@[simp] theorem onGang_warps (s : State) (k : Nat) (f : Gang → Gang) : (s.onGang k f).warps = s.warps := by
  unfold State.onGang; split <;> rfl
@[simp] theorem onGang_blocks (s : State) (k : Nat) (f : Gang → Gang) : (s.onGang k f).blocks = s.blocks := by
  unfold State.onGang; split <;> rfl
@[simp] theorem onGang_launches (s : State) (k : Nat) (f : Gang → Gang) : (s.onGang k f).launches = s.launches := by
  unfold State.onGang; split <;> rfl
@[simp] theorem onGang_parts (s : State) (k : Nat) (f : Gang → Gang) : (s.onGang k f).parts = s.parts := by
  unfold State.onGang; split <;> rfl
@[simp] theorem onGang_cores (s : State) (k : Nat) (f : Gang → Gang) : (s.onGang k f).cores = s.cores := by
  unfold State.onGang; split <;> rfl
@[simp] theorem onGang_mixed (s : State) (k : Nat) (f : Gang → Gang) : (s.onGang k f).mixed = s.mixed := by
  unfold State.onGang; split <;> rfl
@[simp] theorem onGang_accs (s : State) (k : Nat) (f : Gang → Gang) : (s.onGang k f).accs = s.accs := by
  unfold State.onGang; split <;> rfl
@[simp] theorem onGang_outst (s : State) (k : Nat) (f : Gang → Gang) : (s.onGang k f).outst = s.outst := by
  unfold State.onGang; split <;> rfl
@[simp] theorem onGang_ops (s : State) (k : Nat) (f : Gang → Gang) : (s.onGang k f).ops = s.ops := by
  unfold State.onGang; split <;> rfl
@[simp] theorem onGang_errs (s : State) (k : Nat) (f : Gang → Gang) : (s.onGang k f).errs = s.errs := by
  unfold State.onGang; split <;> rfl
@[simp] theorem onGang_lids (s : State) (k : Nat) (f : Gang → Gang) : (s.onGang k f).lids = s.lids := by
  unfold State.onGang; split <;> rfl
@[simp] theorem onGang_acc (s : State) (k : Nat) (f : Gang → Gang) : (s.onGang k f).acc = s.acc := by
  unfold State.onGang; split <;> rfl
@[simp] theorem onGang_accTag (s : State) (k : Nat) (f : Gang → Gang) : (s.onGang k f).accTag = s.accTag := by
  unfold State.onGang; split <;> rfl
@[simp] theorem onGang_l1 (s : State) (k : Nat) (f : Gang → Gang) : (s.onGang k f).l1 = s.l1 := by
  unfold State.onGang; split <;> rfl
@[simp] theorem onGang_reg (s : State) (k : Nat) (f : Gang → Gang) : (s.onGang k f).reg = s.reg := by
  unfold State.onGang; split <;> rfl
@[simp] theorem onGang_vers (s : State) (k : Nat) (f : Gang → Gang) : (s.onGang k f).vers = s.vers := by
  unfold State.onGang; split <;> rfl
@[simp] theorem onGang_tlb (s : State) (k : Nat) (f : Gang → Gang) : (s.onGang k f).tlb = s.tlb := by
  unfold State.onGang; split <;> rfl
@[simp] theorem onGang_l2 (s : State) (k : Nat) (f : Gang → Gang) : (s.onGang k f).l2 = s.l2 := by
  unfold State.onGang; split <;> rfl
@[simp] theorem onGang_hreqs (s : State) (k : Nat) (f : Gang → Gang) : (s.onGang k f).hreqs = s.hreqs := by
  unfold State.onGang; split <;> rfl
@[simp] theorem onGang_vault (s : State) (k : Nat) (f : Gang → Gang) : (s.onGang k f).vault = s.vault := by
  unfold State.onGang; split <;> rfl
@[simp] theorem onGang_seals (s : State) (k : Nat) (f : Gang → Gang) : (s.onGang k f).seals = s.seals := by
  unfold State.onGang; split <;> rfl
@[simp] theorem onGang_hostMem (s : State) (k : Nat) (f : Gang → Gang) : (s.onGang k f).hostMem = s.hostMem := by
  unfold State.onGang; split <;> rfl
@[simp] theorem onGang_peerMem (s : State) (k : Nat) (f : Gang → Gang) : (s.onGang k f).peerMem = s.peerMem := by
  unfold State.onGang; split <;> rfl
@[simp] theorem onGang_paramMem (s : State) (k : Nat) (f : Gang → Gang) : (s.onGang k f).paramMem = s.paramMem := by
  unfold State.onGang; split <;> rfl
@[simp] theorem onGang_upsets (s : State) (k : Nat) (f : Gang → Gang) : (s.onGang k f).upsets = s.upsets := by
  unfold State.onGang; split <;> rfl
@[simp] theorem onGang_relics (s : State) (k : Nat) (f : Gang → Gang) : (s.onGang k f).relics = s.relics := by
  unfold State.onGang; split <;> rfl
@[simp] theorem onGang_msgs (s : State) (k : Nat) (f : Gang → Gang) : (s.onGang k f).msgs = s.msgs := by
  unfold State.onGang; split <;> rfl
@[simp] theorem onGang_wafer (s : State) (k : Nat) (f : Gang → Gang) : (s.onGang k f).wafer = s.wafer := by
  unfold State.onGang; split <;> rfl
@[simp] theorem onGang_grm (s : State) (k : Nat) (f : Gang → Gang) : (s.onGang k f).grm = s.grm := by
  unfold State.onGang; split <;> rfl

@[simp] theorem onLaunch_agenda (s : State) (k : Nat) (f : Launch → Launch) : (s.onLaunch k f).agenda = s.agenda := by
  unfold State.onLaunch; split <;> rfl
@[simp] theorem onLaunch_focus (s : State) (k : Nat) (f : Launch → Launch) : (s.onLaunch k f).focus = s.focus := by
  unfold State.onLaunch; split <;> rfl
@[simp] theorem onLaunch_chosen (s : State) (k : Nat) (f : Launch → Launch) : (s.onLaunch k f).chosen = s.chosen := by
  unfold State.onLaunch; split <;> rfl
@[simp] theorem onLaunch_tried (s : State) (k : Nat) (f : Launch → Launch) : (s.onLaunch k f).tried = s.tried := by
  unfold State.onLaunch; split <;> rfl
@[simp] theorem onLaunch_ready (s : State) (k : Nat) (f : Launch → Launch) : (s.onLaunch k f).ready = s.ready := by
  unfold State.onLaunch; split <;> rfl
@[simp] theorem onLaunch_turns (s : State) (k : Nat) (f : Launch → Launch) : (s.onLaunch k f).turns = s.turns := by
  unfold State.onLaunch; split <;> rfl
@[simp] theorem onLaunch_issued (s : State) (k : Nat) (f : Launch → Launch) : (s.onLaunch k f).issued = s.issued := by
  unfold State.onLaunch; split <;> rfl
@[simp] theorem onLaunch_landing (s : State) (k : Nat) (f : Launch → Launch) : (s.onLaunch k f).landing = s.landing := by
  unfold State.onLaunch; split <;> rfl
@[simp] theorem onLaunch_nextId (s : State) (k : Nat) (f : Launch → Launch) : (s.onLaunch k f).nextId = s.nextId := by
  unfold State.onLaunch; split <;> rfl
@[simp] theorem onLaunch_freeCtr (s : State) (k : Nat) (f : Launch → Launch) : (s.onLaunch k f).freeCtr = s.freeCtr := by
  unfold State.onLaunch; split <;> rfl
@[simp] theorem onLaunch_tick (s : State) (k : Nat) (f : Launch → Launch) : (s.onLaunch k f).tick = s.tick := by
  unfold State.onLaunch; split <;> rfl
@[simp] theorem onLaunch_gtime (s : State) (k : Nat) (f : Launch → Launch) : (s.onLaunch k f).gtime = s.gtime := by
  unfold State.onLaunch; split <;> rfl
@[simp] theorem onLaunch_gtskew (s : State) (k : Nat) (f : Launch → Launch) : (s.onLaunch k f).gtskew = s.gtskew := by
  unfold State.onLaunch; split <;> rfl
@[simp] theorem onLaunch_warps (s : State) (k : Nat) (f : Launch → Launch) : (s.onLaunch k f).warps = s.warps := by
  unfold State.onLaunch; split <;> rfl
@[simp] theorem onLaunch_blocks (s : State) (k : Nat) (f : Launch → Launch) : (s.onLaunch k f).blocks = s.blocks := by
  unfold State.onLaunch; split <;> rfl
@[simp] theorem onLaunch_gangs (s : State) (k : Nat) (f : Launch → Launch) : (s.onLaunch k f).gangs = s.gangs := by
  unfold State.onLaunch; split <;> rfl
@[simp] theorem onLaunch_parts (s : State) (k : Nat) (f : Launch → Launch) : (s.onLaunch k f).parts = s.parts := by
  unfold State.onLaunch; split <;> rfl
@[simp] theorem onLaunch_cores (s : State) (k : Nat) (f : Launch → Launch) : (s.onLaunch k f).cores = s.cores := by
  unfold State.onLaunch; split <;> rfl
@[simp] theorem onLaunch_mixed (s : State) (k : Nat) (f : Launch → Launch) : (s.onLaunch k f).mixed = s.mixed := by
  unfold State.onLaunch; split <;> rfl
@[simp] theorem onLaunch_accs (s : State) (k : Nat) (f : Launch → Launch) : (s.onLaunch k f).accs = s.accs := by
  unfold State.onLaunch; split <;> rfl
@[simp] theorem onLaunch_outst (s : State) (k : Nat) (f : Launch → Launch) : (s.onLaunch k f).outst = s.outst := by
  unfold State.onLaunch; split <;> rfl
@[simp] theorem onLaunch_ops (s : State) (k : Nat) (f : Launch → Launch) : (s.onLaunch k f).ops = s.ops := by
  unfold State.onLaunch; split <;> rfl
@[simp] theorem onLaunch_errs (s : State) (k : Nat) (f : Launch → Launch) : (s.onLaunch k f).errs = s.errs := by
  unfold State.onLaunch; split <;> rfl
@[simp] theorem onLaunch_lids (s : State) (k : Nat) (f : Launch → Launch) : (s.onLaunch k f).lids = s.lids := by
  unfold State.onLaunch; split <;> rfl
@[simp] theorem onLaunch_acc (s : State) (k : Nat) (f : Launch → Launch) : (s.onLaunch k f).acc = s.acc := by
  unfold State.onLaunch; split <;> rfl
@[simp] theorem onLaunch_accTag (s : State) (k : Nat) (f : Launch → Launch) : (s.onLaunch k f).accTag = s.accTag := by
  unfold State.onLaunch; split <;> rfl
@[simp] theorem onLaunch_l1 (s : State) (k : Nat) (f : Launch → Launch) : (s.onLaunch k f).l1 = s.l1 := by
  unfold State.onLaunch; split <;> rfl
@[simp] theorem onLaunch_reg (s : State) (k : Nat) (f : Launch → Launch) : (s.onLaunch k f).reg = s.reg := by
  unfold State.onLaunch; split <;> rfl
@[simp] theorem onLaunch_vers (s : State) (k : Nat) (f : Launch → Launch) : (s.onLaunch k f).vers = s.vers := by
  unfold State.onLaunch; split <;> rfl
@[simp] theorem onLaunch_tlb (s : State) (k : Nat) (f : Launch → Launch) : (s.onLaunch k f).tlb = s.tlb := by
  unfold State.onLaunch; split <;> rfl
@[simp] theorem onLaunch_l2 (s : State) (k : Nat) (f : Launch → Launch) : (s.onLaunch k f).l2 = s.l2 := by
  unfold State.onLaunch; split <;> rfl
@[simp] theorem onLaunch_hreqs (s : State) (k : Nat) (f : Launch → Launch) : (s.onLaunch k f).hreqs = s.hreqs := by
  unfold State.onLaunch; split <;> rfl
@[simp] theorem onLaunch_vault (s : State) (k : Nat) (f : Launch → Launch) : (s.onLaunch k f).vault = s.vault := by
  unfold State.onLaunch; split <;> rfl
@[simp] theorem onLaunch_seals (s : State) (k : Nat) (f : Launch → Launch) : (s.onLaunch k f).seals = s.seals := by
  unfold State.onLaunch; split <;> rfl
@[simp] theorem onLaunch_hostMem (s : State) (k : Nat) (f : Launch → Launch) : (s.onLaunch k f).hostMem = s.hostMem := by
  unfold State.onLaunch; split <;> rfl
@[simp] theorem onLaunch_peerMem (s : State) (k : Nat) (f : Launch → Launch) : (s.onLaunch k f).peerMem = s.peerMem := by
  unfold State.onLaunch; split <;> rfl
@[simp] theorem onLaunch_paramMem (s : State) (k : Nat) (f : Launch → Launch) : (s.onLaunch k f).paramMem = s.paramMem := by
  unfold State.onLaunch; split <;> rfl
@[simp] theorem onLaunch_upsets (s : State) (k : Nat) (f : Launch → Launch) : (s.onLaunch k f).upsets = s.upsets := by
  unfold State.onLaunch; split <;> rfl
@[simp] theorem onLaunch_relics (s : State) (k : Nat) (f : Launch → Launch) : (s.onLaunch k f).relics = s.relics := by
  unfold State.onLaunch; split <;> rfl
@[simp] theorem onLaunch_msgs (s : State) (k : Nat) (f : Launch → Launch) : (s.onLaunch k f).msgs = s.msgs := by
  unfold State.onLaunch; split <;> rfl
@[simp] theorem onLaunch_wafer (s : State) (k : Nat) (f : Launch → Launch) : (s.onLaunch k f).wafer = s.wafer := by
  unfold State.onLaunch; split <;> rfl
@[simp] theorem onLaunch_grm (s : State) (k : Nat) (f : Launch → Launch) : (s.onLaunch k f).grm = s.grm := by
  unfold State.onLaunch; split <;> rfl

@[simp] theorem onOp_agenda (s : State) (k : Nat) (f : EngineOp → EngineOp) : (s.onOp k f).agenda = s.agenda := by
  unfold State.onOp; split <;> rfl
@[simp] theorem onOp_focus (s : State) (k : Nat) (f : EngineOp → EngineOp) : (s.onOp k f).focus = s.focus := by
  unfold State.onOp; split <;> rfl
@[simp] theorem onOp_chosen (s : State) (k : Nat) (f : EngineOp → EngineOp) : (s.onOp k f).chosen = s.chosen := by
  unfold State.onOp; split <;> rfl
@[simp] theorem onOp_tried (s : State) (k : Nat) (f : EngineOp → EngineOp) : (s.onOp k f).tried = s.tried := by
  unfold State.onOp; split <;> rfl
@[simp] theorem onOp_ready (s : State) (k : Nat) (f : EngineOp → EngineOp) : (s.onOp k f).ready = s.ready := by
  unfold State.onOp; split <;> rfl
@[simp] theorem onOp_turns (s : State) (k : Nat) (f : EngineOp → EngineOp) : (s.onOp k f).turns = s.turns := by
  unfold State.onOp; split <;> rfl
@[simp] theorem onOp_issued (s : State) (k : Nat) (f : EngineOp → EngineOp) : (s.onOp k f).issued = s.issued := by
  unfold State.onOp; split <;> rfl
@[simp] theorem onOp_landing (s : State) (k : Nat) (f : EngineOp → EngineOp) : (s.onOp k f).landing = s.landing := by
  unfold State.onOp; split <;> rfl
@[simp] theorem onOp_nextId (s : State) (k : Nat) (f : EngineOp → EngineOp) : (s.onOp k f).nextId = s.nextId := by
  unfold State.onOp; split <;> rfl
@[simp] theorem onOp_freeCtr (s : State) (k : Nat) (f : EngineOp → EngineOp) : (s.onOp k f).freeCtr = s.freeCtr := by
  unfold State.onOp; split <;> rfl
@[simp] theorem onOp_tick (s : State) (k : Nat) (f : EngineOp → EngineOp) : (s.onOp k f).tick = s.tick := by
  unfold State.onOp; split <;> rfl
@[simp] theorem onOp_gtime (s : State) (k : Nat) (f : EngineOp → EngineOp) : (s.onOp k f).gtime = s.gtime := by
  unfold State.onOp; split <;> rfl
@[simp] theorem onOp_gtskew (s : State) (k : Nat) (f : EngineOp → EngineOp) : (s.onOp k f).gtskew = s.gtskew := by
  unfold State.onOp; split <;> rfl
@[simp] theorem onOp_warps (s : State) (k : Nat) (f : EngineOp → EngineOp) : (s.onOp k f).warps = s.warps := by
  unfold State.onOp; split <;> rfl
@[simp] theorem onOp_blocks (s : State) (k : Nat) (f : EngineOp → EngineOp) : (s.onOp k f).blocks = s.blocks := by
  unfold State.onOp; split <;> rfl
@[simp] theorem onOp_gangs (s : State) (k : Nat) (f : EngineOp → EngineOp) : (s.onOp k f).gangs = s.gangs := by
  unfold State.onOp; split <;> rfl
@[simp] theorem onOp_launches (s : State) (k : Nat) (f : EngineOp → EngineOp) : (s.onOp k f).launches = s.launches := by
  unfold State.onOp; split <;> rfl
@[simp] theorem onOp_parts (s : State) (k : Nat) (f : EngineOp → EngineOp) : (s.onOp k f).parts = s.parts := by
  unfold State.onOp; split <;> rfl
@[simp] theorem onOp_cores (s : State) (k : Nat) (f : EngineOp → EngineOp) : (s.onOp k f).cores = s.cores := by
  unfold State.onOp; split <;> rfl
@[simp] theorem onOp_mixed (s : State) (k : Nat) (f : EngineOp → EngineOp) : (s.onOp k f).mixed = s.mixed := by
  unfold State.onOp; split <;> rfl
@[simp] theorem onOp_accs (s : State) (k : Nat) (f : EngineOp → EngineOp) : (s.onOp k f).accs = s.accs := by
  unfold State.onOp; split <;> rfl
@[simp] theorem onOp_outst (s : State) (k : Nat) (f : EngineOp → EngineOp) : (s.onOp k f).outst = s.outst := by
  unfold State.onOp; split <;> rfl
@[simp] theorem onOp_errs (s : State) (k : Nat) (f : EngineOp → EngineOp) : (s.onOp k f).errs = s.errs := by
  unfold State.onOp; split <;> rfl
@[simp] theorem onOp_lids (s : State) (k : Nat) (f : EngineOp → EngineOp) : (s.onOp k f).lids = s.lids := by
  unfold State.onOp; split <;> rfl
@[simp] theorem onOp_acc (s : State) (k : Nat) (f : EngineOp → EngineOp) : (s.onOp k f).acc = s.acc := by
  unfold State.onOp; split <;> rfl
@[simp] theorem onOp_accTag (s : State) (k : Nat) (f : EngineOp → EngineOp) : (s.onOp k f).accTag = s.accTag := by
  unfold State.onOp; split <;> rfl
@[simp] theorem onOp_l1 (s : State) (k : Nat) (f : EngineOp → EngineOp) : (s.onOp k f).l1 = s.l1 := by
  unfold State.onOp; split <;> rfl
@[simp] theorem onOp_reg (s : State) (k : Nat) (f : EngineOp → EngineOp) : (s.onOp k f).reg = s.reg := by
  unfold State.onOp; split <;> rfl
@[simp] theorem onOp_vers (s : State) (k : Nat) (f : EngineOp → EngineOp) : (s.onOp k f).vers = s.vers := by
  unfold State.onOp; split <;> rfl
@[simp] theorem onOp_tlb (s : State) (k : Nat) (f : EngineOp → EngineOp) : (s.onOp k f).tlb = s.tlb := by
  unfold State.onOp; split <;> rfl
@[simp] theorem onOp_l2 (s : State) (k : Nat) (f : EngineOp → EngineOp) : (s.onOp k f).l2 = s.l2 := by
  unfold State.onOp; split <;> rfl
@[simp] theorem onOp_hreqs (s : State) (k : Nat) (f : EngineOp → EngineOp) : (s.onOp k f).hreqs = s.hreqs := by
  unfold State.onOp; split <;> rfl
@[simp] theorem onOp_vault (s : State) (k : Nat) (f : EngineOp → EngineOp) : (s.onOp k f).vault = s.vault := by
  unfold State.onOp; split <;> rfl
@[simp] theorem onOp_seals (s : State) (k : Nat) (f : EngineOp → EngineOp) : (s.onOp k f).seals = s.seals := by
  unfold State.onOp; split <;> rfl
@[simp] theorem onOp_hostMem (s : State) (k : Nat) (f : EngineOp → EngineOp) : (s.onOp k f).hostMem = s.hostMem := by
  unfold State.onOp; split <;> rfl
@[simp] theorem onOp_peerMem (s : State) (k : Nat) (f : EngineOp → EngineOp) : (s.onOp k f).peerMem = s.peerMem := by
  unfold State.onOp; split <;> rfl
@[simp] theorem onOp_paramMem (s : State) (k : Nat) (f : EngineOp → EngineOp) : (s.onOp k f).paramMem = s.paramMem := by
  unfold State.onOp; split <;> rfl
@[simp] theorem onOp_upsets (s : State) (k : Nat) (f : EngineOp → EngineOp) : (s.onOp k f).upsets = s.upsets := by
  unfold State.onOp; split <;> rfl
@[simp] theorem onOp_relics (s : State) (k : Nat) (f : EngineOp → EngineOp) : (s.onOp k f).relics = s.relics := by
  unfold State.onOp; split <;> rfl
@[simp] theorem onOp_msgs (s : State) (k : Nat) (f : EngineOp → EngineOp) : (s.onOp k f).msgs = s.msgs := by
  unfold State.onOp; split <;> rfl
@[simp] theorem onOp_wafer (s : State) (k : Nat) (f : EngineOp → EngineOp) : (s.onOp k f).wafer = s.wafer := by
  unfold State.onOp; split <;> rfl
@[simp] theorem onOp_grm (s : State) (k : Nat) (f : EngineOp → EngineOp) : (s.onOp k f).grm = s.grm := by
  unfold State.onOp; split <;> rfl

@[simp] theorem onPart_agenda (s : State) (k : Nat) (f : Part → Part) : (s.onPart k f).agenda = s.agenda := by
  unfold State.onPart; split <;> rfl
@[simp] theorem onPart_focus (s : State) (k : Nat) (f : Part → Part) : (s.onPart k f).focus = s.focus := by
  unfold State.onPart; split <;> rfl
@[simp] theorem onPart_chosen (s : State) (k : Nat) (f : Part → Part) : (s.onPart k f).chosen = s.chosen := by
  unfold State.onPart; split <;> rfl
@[simp] theorem onPart_tried (s : State) (k : Nat) (f : Part → Part) : (s.onPart k f).tried = s.tried := by
  unfold State.onPart; split <;> rfl
@[simp] theorem onPart_ready (s : State) (k : Nat) (f : Part → Part) : (s.onPart k f).ready = s.ready := by
  unfold State.onPart; split <;> rfl
@[simp] theorem onPart_turns (s : State) (k : Nat) (f : Part → Part) : (s.onPart k f).turns = s.turns := by
  unfold State.onPart; split <;> rfl
@[simp] theorem onPart_issued (s : State) (k : Nat) (f : Part → Part) : (s.onPart k f).issued = s.issued := by
  unfold State.onPart; split <;> rfl
@[simp] theorem onPart_landing (s : State) (k : Nat) (f : Part → Part) : (s.onPart k f).landing = s.landing := by
  unfold State.onPart; split <;> rfl
@[simp] theorem onPart_nextId (s : State) (k : Nat) (f : Part → Part) : (s.onPart k f).nextId = s.nextId := by
  unfold State.onPart; split <;> rfl
@[simp] theorem onPart_freeCtr (s : State) (k : Nat) (f : Part → Part) : (s.onPart k f).freeCtr = s.freeCtr := by
  unfold State.onPart; split <;> rfl
@[simp] theorem onPart_tick (s : State) (k : Nat) (f : Part → Part) : (s.onPart k f).tick = s.tick := by
  unfold State.onPart; split <;> rfl
@[simp] theorem onPart_gtime (s : State) (k : Nat) (f : Part → Part) : (s.onPart k f).gtime = s.gtime := by
  unfold State.onPart; split <;> rfl
@[simp] theorem onPart_gtskew (s : State) (k : Nat) (f : Part → Part) : (s.onPart k f).gtskew = s.gtskew := by
  unfold State.onPart; split <;> rfl
@[simp] theorem onPart_warps (s : State) (k : Nat) (f : Part → Part) : (s.onPart k f).warps = s.warps := by
  unfold State.onPart; split <;> rfl
@[simp] theorem onPart_blocks (s : State) (k : Nat) (f : Part → Part) : (s.onPart k f).blocks = s.blocks := by
  unfold State.onPart; split <;> rfl
@[simp] theorem onPart_gangs (s : State) (k : Nat) (f : Part → Part) : (s.onPart k f).gangs = s.gangs := by
  unfold State.onPart; split <;> rfl
@[simp] theorem onPart_launches (s : State) (k : Nat) (f : Part → Part) : (s.onPart k f).launches = s.launches := by
  unfold State.onPart; split <;> rfl
@[simp] theorem onPart_cores (s : State) (k : Nat) (f : Part → Part) : (s.onPart k f).cores = s.cores := by
  unfold State.onPart; split <;> rfl
@[simp] theorem onPart_mixed (s : State) (k : Nat) (f : Part → Part) : (s.onPart k f).mixed = s.mixed := by
  unfold State.onPart; split <;> rfl
@[simp] theorem onPart_accs (s : State) (k : Nat) (f : Part → Part) : (s.onPart k f).accs = s.accs := by
  unfold State.onPart; split <;> rfl
@[simp] theorem onPart_outst (s : State) (k : Nat) (f : Part → Part) : (s.onPart k f).outst = s.outst := by
  unfold State.onPart; split <;> rfl
@[simp] theorem onPart_ops (s : State) (k : Nat) (f : Part → Part) : (s.onPart k f).ops = s.ops := by
  unfold State.onPart; split <;> rfl
@[simp] theorem onPart_errs (s : State) (k : Nat) (f : Part → Part) : (s.onPart k f).errs = s.errs := by
  unfold State.onPart; split <;> rfl
@[simp] theorem onPart_lids (s : State) (k : Nat) (f : Part → Part) : (s.onPart k f).lids = s.lids := by
  unfold State.onPart; split <;> rfl
@[simp] theorem onPart_acc (s : State) (k : Nat) (f : Part → Part) : (s.onPart k f).acc = s.acc := by
  unfold State.onPart; split <;> rfl
@[simp] theorem onPart_accTag (s : State) (k : Nat) (f : Part → Part) : (s.onPart k f).accTag = s.accTag := by
  unfold State.onPart; split <;> rfl
@[simp] theorem onPart_l1 (s : State) (k : Nat) (f : Part → Part) : (s.onPart k f).l1 = s.l1 := by
  unfold State.onPart; split <;> rfl
@[simp] theorem onPart_reg (s : State) (k : Nat) (f : Part → Part) : (s.onPart k f).reg = s.reg := by
  unfold State.onPart; split <;> rfl
@[simp] theorem onPart_vers (s : State) (k : Nat) (f : Part → Part) : (s.onPart k f).vers = s.vers := by
  unfold State.onPart; split <;> rfl
@[simp] theorem onPart_tlb (s : State) (k : Nat) (f : Part → Part) : (s.onPart k f).tlb = s.tlb := by
  unfold State.onPart; split <;> rfl
@[simp] theorem onPart_l2 (s : State) (k : Nat) (f : Part → Part) : (s.onPart k f).l2 = s.l2 := by
  unfold State.onPart; split <;> rfl
@[simp] theorem onPart_hreqs (s : State) (k : Nat) (f : Part → Part) : (s.onPart k f).hreqs = s.hreqs := by
  unfold State.onPart; split <;> rfl
@[simp] theorem onPart_vault (s : State) (k : Nat) (f : Part → Part) : (s.onPart k f).vault = s.vault := by
  unfold State.onPart; split <;> rfl
@[simp] theorem onPart_seals (s : State) (k : Nat) (f : Part → Part) : (s.onPart k f).seals = s.seals := by
  unfold State.onPart; split <;> rfl
@[simp] theorem onPart_hostMem (s : State) (k : Nat) (f : Part → Part) : (s.onPart k f).hostMem = s.hostMem := by
  unfold State.onPart; split <;> rfl
@[simp] theorem onPart_peerMem (s : State) (k : Nat) (f : Part → Part) : (s.onPart k f).peerMem = s.peerMem := by
  unfold State.onPart; split <;> rfl
@[simp] theorem onPart_paramMem (s : State) (k : Nat) (f : Part → Part) : (s.onPart k f).paramMem = s.paramMem := by
  unfold State.onPart; split <;> rfl
@[simp] theorem onPart_upsets (s : State) (k : Nat) (f : Part → Part) : (s.onPart k f).upsets = s.upsets := by
  unfold State.onPart; split <;> rfl
@[simp] theorem onPart_relics (s : State) (k : Nat) (f : Part → Part) : (s.onPart k f).relics = s.relics := by
  unfold State.onPart; split <;> rfl
@[simp] theorem onPart_msgs (s : State) (k : Nat) (f : Part → Part) : (s.onPart k f).msgs = s.msgs := by
  unfold State.onPart; split <;> rfl
@[simp] theorem onPart_wafer (s : State) (k : Nat) (f : Part → Part) : (s.onPart k f).wafer = s.wafer := by
  unfold State.onPart; split <;> rfl
@[simp] theorem onPart_grm (s : State) (k : Nat) (f : Part → Part) : (s.onPart k f).grm = s.grm := by
  unfold State.onPart; split <;> rfl

@[simp] theorem onAcc_agenda (s : State) (k : Nat) (f : Access → Access) : (s.onAcc k f).agenda = s.agenda := by
  unfold State.onAcc; split <;> rfl
@[simp] theorem onAcc_focus (s : State) (k : Nat) (f : Access → Access) : (s.onAcc k f).focus = s.focus := by
  unfold State.onAcc; split <;> rfl
@[simp] theorem onAcc_chosen (s : State) (k : Nat) (f : Access → Access) : (s.onAcc k f).chosen = s.chosen := by
  unfold State.onAcc; split <;> rfl
@[simp] theorem onAcc_tried (s : State) (k : Nat) (f : Access → Access) : (s.onAcc k f).tried = s.tried := by
  unfold State.onAcc; split <;> rfl
@[simp] theorem onAcc_ready (s : State) (k : Nat) (f : Access → Access) : (s.onAcc k f).ready = s.ready := by
  unfold State.onAcc; split <;> rfl
@[simp] theorem onAcc_turns (s : State) (k : Nat) (f : Access → Access) : (s.onAcc k f).turns = s.turns := by
  unfold State.onAcc; split <;> rfl
@[simp] theorem onAcc_issued (s : State) (k : Nat) (f : Access → Access) : (s.onAcc k f).issued = s.issued := by
  unfold State.onAcc; split <;> rfl
@[simp] theorem onAcc_landing (s : State) (k : Nat) (f : Access → Access) : (s.onAcc k f).landing = s.landing := by
  unfold State.onAcc; split <;> rfl
@[simp] theorem onAcc_nextId (s : State) (k : Nat) (f : Access → Access) : (s.onAcc k f).nextId = s.nextId := by
  unfold State.onAcc; split <;> rfl
@[simp] theorem onAcc_freeCtr (s : State) (k : Nat) (f : Access → Access) : (s.onAcc k f).freeCtr = s.freeCtr := by
  unfold State.onAcc; split <;> rfl
@[simp] theorem onAcc_tick (s : State) (k : Nat) (f : Access → Access) : (s.onAcc k f).tick = s.tick := by
  unfold State.onAcc; split <;> rfl
@[simp] theorem onAcc_gtime (s : State) (k : Nat) (f : Access → Access) : (s.onAcc k f).gtime = s.gtime := by
  unfold State.onAcc; split <;> rfl
@[simp] theorem onAcc_gtskew (s : State) (k : Nat) (f : Access → Access) : (s.onAcc k f).gtskew = s.gtskew := by
  unfold State.onAcc; split <;> rfl
@[simp] theorem onAcc_warps (s : State) (k : Nat) (f : Access → Access) : (s.onAcc k f).warps = s.warps := by
  unfold State.onAcc; split <;> rfl
@[simp] theorem onAcc_blocks (s : State) (k : Nat) (f : Access → Access) : (s.onAcc k f).blocks = s.blocks := by
  unfold State.onAcc; split <;> rfl
@[simp] theorem onAcc_gangs (s : State) (k : Nat) (f : Access → Access) : (s.onAcc k f).gangs = s.gangs := by
  unfold State.onAcc; split <;> rfl
@[simp] theorem onAcc_launches (s : State) (k : Nat) (f : Access → Access) : (s.onAcc k f).launches = s.launches := by
  unfold State.onAcc; split <;> rfl
@[simp] theorem onAcc_parts (s : State) (k : Nat) (f : Access → Access) : (s.onAcc k f).parts = s.parts := by
  unfold State.onAcc; split <;> rfl
@[simp] theorem onAcc_cores (s : State) (k : Nat) (f : Access → Access) : (s.onAcc k f).cores = s.cores := by
  unfold State.onAcc; split <;> rfl
@[simp] theorem onAcc_mixed (s : State) (k : Nat) (f : Access → Access) : (s.onAcc k f).mixed = s.mixed := by
  unfold State.onAcc; split <;> rfl
@[simp] theorem onAcc_outst (s : State) (k : Nat) (f : Access → Access) : (s.onAcc k f).outst = s.outst := by
  unfold State.onAcc; split <;> rfl
@[simp] theorem onAcc_ops (s : State) (k : Nat) (f : Access → Access) : (s.onAcc k f).ops = s.ops := by
  unfold State.onAcc; split <;> rfl
@[simp] theorem onAcc_errs (s : State) (k : Nat) (f : Access → Access) : (s.onAcc k f).errs = s.errs := by
  unfold State.onAcc; split <;> rfl
@[simp] theorem onAcc_lids (s : State) (k : Nat) (f : Access → Access) : (s.onAcc k f).lids = s.lids := by
  unfold State.onAcc; split <;> rfl
@[simp] theorem onAcc_acc (s : State) (k : Nat) (f : Access → Access) : (s.onAcc k f).acc = s.acc := by
  unfold State.onAcc; split <;> rfl
@[simp] theorem onAcc_accTag (s : State) (k : Nat) (f : Access → Access) : (s.onAcc k f).accTag = s.accTag := by
  unfold State.onAcc; split <;> rfl
@[simp] theorem onAcc_l1 (s : State) (k : Nat) (f : Access → Access) : (s.onAcc k f).l1 = s.l1 := by
  unfold State.onAcc; split <;> rfl
@[simp] theorem onAcc_reg (s : State) (k : Nat) (f : Access → Access) : (s.onAcc k f).reg = s.reg := by
  unfold State.onAcc; split <;> rfl
@[simp] theorem onAcc_vers (s : State) (k : Nat) (f : Access → Access) : (s.onAcc k f).vers = s.vers := by
  unfold State.onAcc; split <;> rfl
@[simp] theorem onAcc_tlb (s : State) (k : Nat) (f : Access → Access) : (s.onAcc k f).tlb = s.tlb := by
  unfold State.onAcc; split <;> rfl
@[simp] theorem onAcc_l2 (s : State) (k : Nat) (f : Access → Access) : (s.onAcc k f).l2 = s.l2 := by
  unfold State.onAcc; split <;> rfl
@[simp] theorem onAcc_hreqs (s : State) (k : Nat) (f : Access → Access) : (s.onAcc k f).hreqs = s.hreqs := by
  unfold State.onAcc; split <;> rfl
@[simp] theorem onAcc_vault (s : State) (k : Nat) (f : Access → Access) : (s.onAcc k f).vault = s.vault := by
  unfold State.onAcc; split <;> rfl
@[simp] theorem onAcc_seals (s : State) (k : Nat) (f : Access → Access) : (s.onAcc k f).seals = s.seals := by
  unfold State.onAcc; split <;> rfl
@[simp] theorem onAcc_hostMem (s : State) (k : Nat) (f : Access → Access) : (s.onAcc k f).hostMem = s.hostMem := by
  unfold State.onAcc; split <;> rfl
@[simp] theorem onAcc_peerMem (s : State) (k : Nat) (f : Access → Access) : (s.onAcc k f).peerMem = s.peerMem := by
  unfold State.onAcc; split <;> rfl
@[simp] theorem onAcc_paramMem (s : State) (k : Nat) (f : Access → Access) : (s.onAcc k f).paramMem = s.paramMem := by
  unfold State.onAcc; split <;> rfl
@[simp] theorem onAcc_upsets (s : State) (k : Nat) (f : Access → Access) : (s.onAcc k f).upsets = s.upsets := by
  unfold State.onAcc; split <;> rfl
@[simp] theorem onAcc_relics (s : State) (k : Nat) (f : Access → Access) : (s.onAcc k f).relics = s.relics := by
  unfold State.onAcc; split <;> rfl
@[simp] theorem onAcc_msgs (s : State) (k : Nat) (f : Access → Access) : (s.onAcc k f).msgs = s.msgs := by
  unfold State.onAcc; split <;> rfl
@[simp] theorem onAcc_wafer (s : State) (k : Nat) (f : Access → Access) : (s.onAcc k f).wafer = s.wafer := by
  unfold State.onAcc; split <;> rfl
@[simp] theorem onAcc_grm (s : State) (k : Nat) (f : Access → Access) : (s.onAcc k f).grm = s.grm := by
  unfold State.onAcc; split <;> rfl

@[simp] theorem onCore_agenda (s : State) (k : Nat) (f : Core → Core) : (s.onCore k f).agenda = s.agenda := rfl
@[simp] theorem onCore_focus (s : State) (k : Nat) (f : Core → Core) : (s.onCore k f).focus = s.focus := rfl
@[simp] theorem onCore_chosen (s : State) (k : Nat) (f : Core → Core) : (s.onCore k f).chosen = s.chosen := rfl
@[simp] theorem onCore_tried (s : State) (k : Nat) (f : Core → Core) : (s.onCore k f).tried = s.tried := rfl
@[simp] theorem onCore_ready (s : State) (k : Nat) (f : Core → Core) : (s.onCore k f).ready = s.ready := rfl
@[simp] theorem onCore_turns (s : State) (k : Nat) (f : Core → Core) : (s.onCore k f).turns = s.turns := rfl
@[simp] theorem onCore_issued (s : State) (k : Nat) (f : Core → Core) : (s.onCore k f).issued = s.issued := rfl
@[simp] theorem onCore_landing (s : State) (k : Nat) (f : Core → Core) : (s.onCore k f).landing = s.landing := rfl
@[simp] theorem onCore_nextId (s : State) (k : Nat) (f : Core → Core) : (s.onCore k f).nextId = s.nextId := rfl
@[simp] theorem onCore_freeCtr (s : State) (k : Nat) (f : Core → Core) : (s.onCore k f).freeCtr = s.freeCtr := rfl
@[simp] theorem onCore_tick (s : State) (k : Nat) (f : Core → Core) : (s.onCore k f).tick = s.tick := rfl
@[simp] theorem onCore_gtime (s : State) (k : Nat) (f : Core → Core) : (s.onCore k f).gtime = s.gtime := rfl
@[simp] theorem onCore_gtskew (s : State) (k : Nat) (f : Core → Core) : (s.onCore k f).gtskew = s.gtskew := rfl
@[simp] theorem onCore_warps (s : State) (k : Nat) (f : Core → Core) : (s.onCore k f).warps = s.warps := rfl
@[simp] theorem onCore_blocks (s : State) (k : Nat) (f : Core → Core) : (s.onCore k f).blocks = s.blocks := rfl
@[simp] theorem onCore_gangs (s : State) (k : Nat) (f : Core → Core) : (s.onCore k f).gangs = s.gangs := rfl
@[simp] theorem onCore_launches (s : State) (k : Nat) (f : Core → Core) : (s.onCore k f).launches = s.launches := rfl
@[simp] theorem onCore_parts (s : State) (k : Nat) (f : Core → Core) : (s.onCore k f).parts = s.parts := rfl
@[simp] theorem onCore_mixed (s : State) (k : Nat) (f : Core → Core) : (s.onCore k f).mixed = s.mixed := rfl
@[simp] theorem onCore_accs (s : State) (k : Nat) (f : Core → Core) : (s.onCore k f).accs = s.accs := rfl
@[simp] theorem onCore_outst (s : State) (k : Nat) (f : Core → Core) : (s.onCore k f).outst = s.outst := rfl
@[simp] theorem onCore_ops (s : State) (k : Nat) (f : Core → Core) : (s.onCore k f).ops = s.ops := rfl
@[simp] theorem onCore_errs (s : State) (k : Nat) (f : Core → Core) : (s.onCore k f).errs = s.errs := rfl
@[simp] theorem onCore_lids (s : State) (k : Nat) (f : Core → Core) : (s.onCore k f).lids = s.lids := rfl
@[simp] theorem onCore_acc (s : State) (k : Nat) (f : Core → Core) : (s.onCore k f).acc = s.acc := rfl
@[simp] theorem onCore_accTag (s : State) (k : Nat) (f : Core → Core) : (s.onCore k f).accTag = s.accTag := rfl
@[simp] theorem onCore_l1 (s : State) (k : Nat) (f : Core → Core) : (s.onCore k f).l1 = s.l1 := rfl
@[simp] theorem onCore_reg (s : State) (k : Nat) (f : Core → Core) : (s.onCore k f).reg = s.reg := rfl
@[simp] theorem onCore_vers (s : State) (k : Nat) (f : Core → Core) : (s.onCore k f).vers = s.vers := rfl
@[simp] theorem onCore_tlb (s : State) (k : Nat) (f : Core → Core) : (s.onCore k f).tlb = s.tlb := rfl
@[simp] theorem onCore_l2 (s : State) (k : Nat) (f : Core → Core) : (s.onCore k f).l2 = s.l2 := rfl
@[simp] theorem onCore_hreqs (s : State) (k : Nat) (f : Core → Core) : (s.onCore k f).hreqs = s.hreqs := rfl
@[simp] theorem onCore_vault (s : State) (k : Nat) (f : Core → Core) : (s.onCore k f).vault = s.vault := rfl
@[simp] theorem onCore_seals (s : State) (k : Nat) (f : Core → Core) : (s.onCore k f).seals = s.seals := rfl
@[simp] theorem onCore_hostMem (s : State) (k : Nat) (f : Core → Core) : (s.onCore k f).hostMem = s.hostMem := rfl
@[simp] theorem onCore_peerMem (s : State) (k : Nat) (f : Core → Core) : (s.onCore k f).peerMem = s.peerMem := rfl
@[simp] theorem onCore_paramMem (s : State) (k : Nat) (f : Core → Core) : (s.onCore k f).paramMem = s.paramMem := rfl
@[simp] theorem onCore_upsets (s : State) (k : Nat) (f : Core → Core) : (s.onCore k f).upsets = s.upsets := rfl
@[simp] theorem onCore_relics (s : State) (k : Nat) (f : Core → Core) : (s.onCore k f).relics = s.relics := rfl
@[simp] theorem onCore_msgs (s : State) (k : Nat) (f : Core → Core) : (s.onCore k f).msgs = s.msgs := rfl
@[simp] theorem onCore_wafer (s : State) (k : Nat) (f : Core → Core) : (s.onCore k f).wafer = s.wafer := rfl
@[simp] theorem onCore_grm (s : State) (k : Nat) (f : Core → Core) : (s.onCore k f).grm = s.grm := rfl

@[simp] theorem onSliver_agenda (s : State) (k j : Nat) (f : Group → Group) : (s.onSliver k j f).agenda = s.agenda := onWarp_agenda _ _ _
@[simp] theorem onSliver_focus (s : State) (k j : Nat) (f : Group → Group) : (s.onSliver k j f).focus = s.focus := onWarp_focus _ _ _
@[simp] theorem onSliver_chosen (s : State) (k j : Nat) (f : Group → Group) : (s.onSliver k j f).chosen = s.chosen := onWarp_chosen _ _ _
@[simp] theorem onSliver_tried (s : State) (k j : Nat) (f : Group → Group) : (s.onSliver k j f).tried = s.tried := onWarp_tried _ _ _
@[simp] theorem onSliver_ready (s : State) (k j : Nat) (f : Group → Group) : (s.onSliver k j f).ready = s.ready := onWarp_ready _ _ _
@[simp] theorem onSliver_turns (s : State) (k j : Nat) (f : Group → Group) : (s.onSliver k j f).turns = s.turns := onWarp_turns _ _ _
@[simp] theorem onSliver_issued (s : State) (k j : Nat) (f : Group → Group) : (s.onSliver k j f).issued = s.issued := onWarp_issued _ _ _
@[simp] theorem onSliver_landing (s : State) (k j : Nat) (f : Group → Group) : (s.onSliver k j f).landing = s.landing := onWarp_landing _ _ _
@[simp] theorem onSliver_nextId (s : State) (k j : Nat) (f : Group → Group) : (s.onSliver k j f).nextId = s.nextId := onWarp_nextId _ _ _
@[simp] theorem onSliver_freeCtr (s : State) (k j : Nat) (f : Group → Group) : (s.onSliver k j f).freeCtr = s.freeCtr := onWarp_freeCtr _ _ _
@[simp] theorem onSliver_tick (s : State) (k j : Nat) (f : Group → Group) : (s.onSliver k j f).tick = s.tick := onWarp_tick _ _ _
@[simp] theorem onSliver_gtime (s : State) (k j : Nat) (f : Group → Group) : (s.onSliver k j f).gtime = s.gtime := onWarp_gtime _ _ _
@[simp] theorem onSliver_gtskew (s : State) (k j : Nat) (f : Group → Group) : (s.onSliver k j f).gtskew = s.gtskew := onWarp_gtskew _ _ _
@[simp] theorem onSliver_blocks (s : State) (k j : Nat) (f : Group → Group) : (s.onSliver k j f).blocks = s.blocks := onWarp_blocks _ _ _
@[simp] theorem onSliver_gangs (s : State) (k j : Nat) (f : Group → Group) : (s.onSliver k j f).gangs = s.gangs := onWarp_gangs _ _ _
@[simp] theorem onSliver_launches (s : State) (k j : Nat) (f : Group → Group) : (s.onSliver k j f).launches = s.launches := onWarp_launches _ _ _
@[simp] theorem onSliver_parts (s : State) (k j : Nat) (f : Group → Group) : (s.onSliver k j f).parts = s.parts := onWarp_parts _ _ _
@[simp] theorem onSliver_cores (s : State) (k j : Nat) (f : Group → Group) : (s.onSliver k j f).cores = s.cores := onWarp_cores _ _ _
@[simp] theorem onSliver_mixed (s : State) (k j : Nat) (f : Group → Group) : (s.onSliver k j f).mixed = s.mixed := onWarp_mixed _ _ _
@[simp] theorem onSliver_accs (s : State) (k j : Nat) (f : Group → Group) : (s.onSliver k j f).accs = s.accs := onWarp_accs _ _ _
@[simp] theorem onSliver_outst (s : State) (k j : Nat) (f : Group → Group) : (s.onSliver k j f).outst = s.outst := onWarp_outst _ _ _
@[simp] theorem onSliver_ops (s : State) (k j : Nat) (f : Group → Group) : (s.onSliver k j f).ops = s.ops := onWarp_ops _ _ _
@[simp] theorem onSliver_errs (s : State) (k j : Nat) (f : Group → Group) : (s.onSliver k j f).errs = s.errs := onWarp_errs _ _ _
@[simp] theorem onSliver_lids (s : State) (k j : Nat) (f : Group → Group) : (s.onSliver k j f).lids = s.lids := onWarp_lids _ _ _
@[simp] theorem onSliver_acc (s : State) (k j : Nat) (f : Group → Group) : (s.onSliver k j f).acc = s.acc := onWarp_acc _ _ _
@[simp] theorem onSliver_accTag (s : State) (k j : Nat) (f : Group → Group) : (s.onSliver k j f).accTag = s.accTag := onWarp_accTag _ _ _
@[simp] theorem onSliver_l1 (s : State) (k j : Nat) (f : Group → Group) : (s.onSliver k j f).l1 = s.l1 := onWarp_l1 _ _ _
@[simp] theorem onSliver_reg (s : State) (k j : Nat) (f : Group → Group) : (s.onSliver k j f).reg = s.reg := onWarp_reg _ _ _
@[simp] theorem onSliver_vers (s : State) (k j : Nat) (f : Group → Group) : (s.onSliver k j f).vers = s.vers := onWarp_vers _ _ _
@[simp] theorem onSliver_tlb (s : State) (k j : Nat) (f : Group → Group) : (s.onSliver k j f).tlb = s.tlb := onWarp_tlb _ _ _
@[simp] theorem onSliver_l2 (s : State) (k j : Nat) (f : Group → Group) : (s.onSliver k j f).l2 = s.l2 := onWarp_l2 _ _ _
@[simp] theorem onSliver_hreqs (s : State) (k j : Nat) (f : Group → Group) : (s.onSliver k j f).hreqs = s.hreqs := onWarp_hreqs _ _ _
@[simp] theorem onSliver_vault (s : State) (k j : Nat) (f : Group → Group) : (s.onSliver k j f).vault = s.vault := onWarp_vault _ _ _
@[simp] theorem onSliver_seals (s : State) (k j : Nat) (f : Group → Group) : (s.onSliver k j f).seals = s.seals := onWarp_seals _ _ _
@[simp] theorem onSliver_hostMem (s : State) (k j : Nat) (f : Group → Group) : (s.onSliver k j f).hostMem = s.hostMem := onWarp_hostMem _ _ _
@[simp] theorem onSliver_peerMem (s : State) (k j : Nat) (f : Group → Group) : (s.onSliver k j f).peerMem = s.peerMem := onWarp_peerMem _ _ _
@[simp] theorem onSliver_paramMem (s : State) (k j : Nat) (f : Group → Group) : (s.onSliver k j f).paramMem = s.paramMem := onWarp_paramMem _ _ _
@[simp] theorem onSliver_upsets (s : State) (k j : Nat) (f : Group → Group) : (s.onSliver k j f).upsets = s.upsets := onWarp_upsets _ _ _
@[simp] theorem onSliver_relics (s : State) (k j : Nat) (f : Group → Group) : (s.onSliver k j f).relics = s.relics := onWarp_relics _ _ _
@[simp] theorem onSliver_msgs (s : State) (k j : Nat) (f : Group → Group) : (s.onSliver k j f).msgs = s.msgs := onWarp_msgs _ _ _
@[simp] theorem onSliver_wafer (s : State) (k j : Nat) (f : Group → Group) : (s.onSliver k j f).wafer = s.wafer := onWarp_wafer _ _ _
@[simp] theorem onSliver_grm (s : State) (k j : Nat) (f : Group → Group) : (s.onSliver k j f).grm = s.grm := onWarp_grm _ _ _

@[simp] theorem stall_agenda (s : State) : (s.stall).agenda = s.agenda := rfl
@[simp] theorem stall_focus (s : State) : (s.stall).focus = s.focus := rfl
@[simp] theorem stall_chosen (s : State) : (s.stall).chosen = s.chosen := rfl
@[simp] theorem stall_ready (s : State) : (s.stall).ready = s.ready := rfl
@[simp] theorem stall_turns (s : State) : (s.stall).turns = s.turns := rfl
@[simp] theorem stall_issued (s : State) : (s.stall).issued = s.issued := rfl
@[simp] theorem stall_landing (s : State) : (s.stall).landing = s.landing := rfl
@[simp] theorem stall_nextId (s : State) : (s.stall).nextId = s.nextId := rfl
@[simp] theorem stall_freeCtr (s : State) : (s.stall).freeCtr = s.freeCtr := rfl
@[simp] theorem stall_tick (s : State) : (s.stall).tick = s.tick := rfl
@[simp] theorem stall_gtime (s : State) : (s.stall).gtime = s.gtime := rfl
@[simp] theorem stall_gtskew (s : State) : (s.stall).gtskew = s.gtskew := rfl
@[simp] theorem stall_warps (s : State) : (s.stall).warps = s.warps := rfl
@[simp] theorem stall_blocks (s : State) : (s.stall).blocks = s.blocks := rfl
@[simp] theorem stall_gangs (s : State) : (s.stall).gangs = s.gangs := rfl
@[simp] theorem stall_launches (s : State) : (s.stall).launches = s.launches := rfl
@[simp] theorem stall_parts (s : State) : (s.stall).parts = s.parts := rfl
@[simp] theorem stall_cores (s : State) : (s.stall).cores = s.cores := rfl
@[simp] theorem stall_mixed (s : State) : (s.stall).mixed = s.mixed := rfl
@[simp] theorem stall_accs (s : State) : (s.stall).accs = s.accs := rfl
@[simp] theorem stall_outst (s : State) : (s.stall).outst = s.outst := rfl
@[simp] theorem stall_ops (s : State) : (s.stall).ops = s.ops := rfl
@[simp] theorem stall_errs (s : State) : (s.stall).errs = s.errs := rfl
@[simp] theorem stall_lids (s : State) : (s.stall).lids = s.lids := rfl
@[simp] theorem stall_acc (s : State) : (s.stall).acc = s.acc := rfl
@[simp] theorem stall_accTag (s : State) : (s.stall).accTag = s.accTag := rfl
@[simp] theorem stall_l1 (s : State) : (s.stall).l1 = s.l1 := rfl
@[simp] theorem stall_reg (s : State) : (s.stall).reg = s.reg := rfl
@[simp] theorem stall_vers (s : State) : (s.stall).vers = s.vers := rfl
@[simp] theorem stall_tlb (s : State) : (s.stall).tlb = s.tlb := rfl
@[simp] theorem stall_l2 (s : State) : (s.stall).l2 = s.l2 := rfl
@[simp] theorem stall_hreqs (s : State) : (s.stall).hreqs = s.hreqs := rfl
@[simp] theorem stall_vault (s : State) : (s.stall).vault = s.vault := rfl
@[simp] theorem stall_seals (s : State) : (s.stall).seals = s.seals := rfl
@[simp] theorem stall_hostMem (s : State) : (s.stall).hostMem = s.hostMem := rfl
@[simp] theorem stall_peerMem (s : State) : (s.stall).peerMem = s.peerMem := rfl
@[simp] theorem stall_paramMem (s : State) : (s.stall).paramMem = s.paramMem := rfl
@[simp] theorem stall_upsets (s : State) : (s.stall).upsets = s.upsets := rfl
@[simp] theorem stall_relics (s : State) : (s.stall).relics = s.relics := rfl
@[simp] theorem stall_msgs (s : State) : (s.stall).msgs = s.msgs := rfl
@[simp] theorem stall_wafer (s : State) : (s.stall).wafer = s.wafer := rfl
@[simp] theorem stall_grm (s : State) : (s.stall).grm = s.grm := rfl

@[simp] theorem dissolve_agenda (s : State) (m : List (Nat × Nat)) : (s.dissolve m).agenda = s.agenda := rfl
@[simp] theorem dissolve_focus (s : State) (m : List (Nat × Nat)) : (s.dissolve m).focus = s.focus := rfl
@[simp] theorem dissolve_chosen (s : State) (m : List (Nat × Nat)) : (s.dissolve m).chosen = s.chosen := rfl
@[simp] theorem dissolve_tried (s : State) (m : List (Nat × Nat)) : (s.dissolve m).tried = s.tried := rfl
@[simp] theorem dissolve_ready (s : State) (m : List (Nat × Nat)) : (s.dissolve m).ready = s.ready := rfl
@[simp] theorem dissolve_turns (s : State) (m : List (Nat × Nat)) : (s.dissolve m).turns = s.turns := rfl
@[simp] theorem dissolve_issued (s : State) (m : List (Nat × Nat)) : (s.dissolve m).issued = s.issued := rfl
@[simp] theorem dissolve_landing (s : State) (m : List (Nat × Nat)) : (s.dissolve m).landing = s.landing := rfl
@[simp] theorem dissolve_nextId (s : State) (m : List (Nat × Nat)) : (s.dissolve m).nextId = s.nextId := rfl
@[simp] theorem dissolve_freeCtr (s : State) (m : List (Nat × Nat)) : (s.dissolve m).freeCtr = s.freeCtr := rfl
@[simp] theorem dissolve_tick (s : State) (m : List (Nat × Nat)) : (s.dissolve m).tick = s.tick := rfl
@[simp] theorem dissolve_gtime (s : State) (m : List (Nat × Nat)) : (s.dissolve m).gtime = s.gtime := rfl
@[simp] theorem dissolve_gtskew (s : State) (m : List (Nat × Nat)) : (s.dissolve m).gtskew = s.gtskew := rfl
@[simp] theorem dissolve_warps (s : State) (m : List (Nat × Nat)) : (s.dissolve m).warps = s.warps := rfl
@[simp] theorem dissolve_blocks (s : State) (m : List (Nat × Nat)) : (s.dissolve m).blocks = s.blocks := rfl
@[simp] theorem dissolve_gangs (s : State) (m : List (Nat × Nat)) : (s.dissolve m).gangs = s.gangs := rfl
@[simp] theorem dissolve_launches (s : State) (m : List (Nat × Nat)) : (s.dissolve m).launches = s.launches := rfl
@[simp] theorem dissolve_parts (s : State) (m : List (Nat × Nat)) : (s.dissolve m).parts = s.parts := rfl
@[simp] theorem dissolve_cores (s : State) (m : List (Nat × Nat)) : (s.dissolve m).cores = s.cores := rfl
@[simp] theorem dissolve_accs (s : State) (m : List (Nat × Nat)) : (s.dissolve m).accs = s.accs := rfl
@[simp] theorem dissolve_outst (s : State) (m : List (Nat × Nat)) : (s.dissolve m).outst = s.outst := rfl
@[simp] theorem dissolve_ops (s : State) (m : List (Nat × Nat)) : (s.dissolve m).ops = s.ops := rfl
@[simp] theorem dissolve_errs (s : State) (m : List (Nat × Nat)) : (s.dissolve m).errs = s.errs := rfl
@[simp] theorem dissolve_lids (s : State) (m : List (Nat × Nat)) : (s.dissolve m).lids = s.lids := rfl
@[simp] theorem dissolve_acc (s : State) (m : List (Nat × Nat)) : (s.dissolve m).acc = s.acc := rfl
@[simp] theorem dissolve_accTag (s : State) (m : List (Nat × Nat)) : (s.dissolve m).accTag = s.accTag := rfl
@[simp] theorem dissolve_l1 (s : State) (m : List (Nat × Nat)) : (s.dissolve m).l1 = s.l1 := rfl
@[simp] theorem dissolve_reg (s : State) (m : List (Nat × Nat)) : (s.dissolve m).reg = s.reg := rfl
@[simp] theorem dissolve_vers (s : State) (m : List (Nat × Nat)) : (s.dissolve m).vers = s.vers := rfl
@[simp] theorem dissolve_tlb (s : State) (m : List (Nat × Nat)) : (s.dissolve m).tlb = s.tlb := rfl
@[simp] theorem dissolve_l2 (s : State) (m : List (Nat × Nat)) : (s.dissolve m).l2 = s.l2 := rfl
@[simp] theorem dissolve_hreqs (s : State) (m : List (Nat × Nat)) : (s.dissolve m).hreqs = s.hreqs := rfl
@[simp] theorem dissolve_vault (s : State) (m : List (Nat × Nat)) : (s.dissolve m).vault = s.vault := rfl
@[simp] theorem dissolve_seals (s : State) (m : List (Nat × Nat)) : (s.dissolve m).seals = s.seals := rfl
@[simp] theorem dissolve_hostMem (s : State) (m : List (Nat × Nat)) : (s.dissolve m).hostMem = s.hostMem := rfl
@[simp] theorem dissolve_peerMem (s : State) (m : List (Nat × Nat)) : (s.dissolve m).peerMem = s.peerMem := rfl
@[simp] theorem dissolve_paramMem (s : State) (m : List (Nat × Nat)) : (s.dissolve m).paramMem = s.paramMem := rfl
@[simp] theorem dissolve_upsets (s : State) (m : List (Nat × Nat)) : (s.dissolve m).upsets = s.upsets := rfl
@[simp] theorem dissolve_relics (s : State) (m : List (Nat × Nat)) : (s.dissolve m).relics = s.relics := rfl
@[simp] theorem dissolve_msgs (s : State) (m : List (Nat × Nat)) : (s.dissolve m).msgs = s.msgs := rfl
@[simp] theorem dissolve_wafer (s : State) (m : List (Nat × Nat)) : (s.dissolve m).wafer = s.wafer := rfl
@[simp] theorem dissolve_grm (s : State) (m : List (Nat × Nat)) : (s.dissolve m).grm = s.grm := rfl

@[simp] theorem tidyMixed_agenda (s : State) : (s.tidyMixed).agenda = s.agenda := rfl
@[simp] theorem tidyMixed_focus (s : State) : (s.tidyMixed).focus = s.focus := rfl
@[simp] theorem tidyMixed_chosen (s : State) : (s.tidyMixed).chosen = s.chosen := rfl
@[simp] theorem tidyMixed_tried (s : State) : (s.tidyMixed).tried = s.tried := rfl
@[simp] theorem tidyMixed_ready (s : State) : (s.tidyMixed).ready = s.ready := rfl
@[simp] theorem tidyMixed_turns (s : State) : (s.tidyMixed).turns = s.turns := rfl
@[simp] theorem tidyMixed_issued (s : State) : (s.tidyMixed).issued = s.issued := rfl
@[simp] theorem tidyMixed_landing (s : State) : (s.tidyMixed).landing = s.landing := rfl
@[simp] theorem tidyMixed_nextId (s : State) : (s.tidyMixed).nextId = s.nextId := rfl
@[simp] theorem tidyMixed_freeCtr (s : State) : (s.tidyMixed).freeCtr = s.freeCtr := rfl
@[simp] theorem tidyMixed_tick (s : State) : (s.tidyMixed).tick = s.tick := rfl
@[simp] theorem tidyMixed_gtime (s : State) : (s.tidyMixed).gtime = s.gtime := rfl
@[simp] theorem tidyMixed_gtskew (s : State) : (s.tidyMixed).gtskew = s.gtskew := rfl
@[simp] theorem tidyMixed_warps (s : State) : (s.tidyMixed).warps = s.warps := rfl
@[simp] theorem tidyMixed_blocks (s : State) : (s.tidyMixed).blocks = s.blocks := rfl
@[simp] theorem tidyMixed_gangs (s : State) : (s.tidyMixed).gangs = s.gangs := rfl
@[simp] theorem tidyMixed_launches (s : State) : (s.tidyMixed).launches = s.launches := rfl
@[simp] theorem tidyMixed_parts (s : State) : (s.tidyMixed).parts = s.parts := rfl
@[simp] theorem tidyMixed_cores (s : State) : (s.tidyMixed).cores = s.cores := rfl
@[simp] theorem tidyMixed_accs (s : State) : (s.tidyMixed).accs = s.accs := rfl
@[simp] theorem tidyMixed_outst (s : State) : (s.tidyMixed).outst = s.outst := rfl
@[simp] theorem tidyMixed_ops (s : State) : (s.tidyMixed).ops = s.ops := rfl
@[simp] theorem tidyMixed_errs (s : State) : (s.tidyMixed).errs = s.errs := rfl
@[simp] theorem tidyMixed_lids (s : State) : (s.tidyMixed).lids = s.lids := rfl
@[simp] theorem tidyMixed_acc (s : State) : (s.tidyMixed).acc = s.acc := rfl
@[simp] theorem tidyMixed_accTag (s : State) : (s.tidyMixed).accTag = s.accTag := rfl
@[simp] theorem tidyMixed_l1 (s : State) : (s.tidyMixed).l1 = s.l1 := rfl
@[simp] theorem tidyMixed_reg (s : State) : (s.tidyMixed).reg = s.reg := rfl
@[simp] theorem tidyMixed_vers (s : State) : (s.tidyMixed).vers = s.vers := rfl
@[simp] theorem tidyMixed_tlb (s : State) : (s.tidyMixed).tlb = s.tlb := rfl
@[simp] theorem tidyMixed_l2 (s : State) : (s.tidyMixed).l2 = s.l2 := rfl
@[simp] theorem tidyMixed_hreqs (s : State) : (s.tidyMixed).hreqs = s.hreqs := rfl
@[simp] theorem tidyMixed_vault (s : State) : (s.tidyMixed).vault = s.vault := rfl
@[simp] theorem tidyMixed_seals (s : State) : (s.tidyMixed).seals = s.seals := rfl
@[simp] theorem tidyMixed_hostMem (s : State) : (s.tidyMixed).hostMem = s.hostMem := rfl
@[simp] theorem tidyMixed_peerMem (s : State) : (s.tidyMixed).peerMem = s.peerMem := rfl
@[simp] theorem tidyMixed_paramMem (s : State) : (s.tidyMixed).paramMem = s.paramMem := rfl
@[simp] theorem tidyMixed_upsets (s : State) : (s.tidyMixed).upsets = s.upsets := rfl
@[simp] theorem tidyMixed_relics (s : State) : (s.tidyMixed).relics = s.relics := rfl
@[simp] theorem tidyMixed_msgs (s : State) : (s.tidyMixed).msgs = s.msgs := rfl
@[simp] theorem tidyMixed_wafer (s : State) : (s.tidyMixed).wafer = s.wafer := rfl
@[simp] theorem tidyMixed_grm (s : State) : (s.tidyMixed).grm = s.grm := rfl

/-! ### The piece that an update writes -/

theorem onWarp_find (s : State) (k j : Nat) (f : Warp → Warp) :
    (s.onWarp k f).warps.find j = if j = k then (s.warps.find k).map f else s.warps.find j := by
  unfold State.onWarp
  split
  · next w h => simp only [find_put]; split <;> simp [h]
  · next h => split <;> simp_all

theorem onBlock_find (s : State) (k j : Nat) (f : Block → Block) :
    (s.onBlock k f).blocks.find j = if j = k then (s.blocks.find k).map f else s.blocks.find j := by
  unfold State.onBlock
  split
  · next w h => simp only [find_put]; split <;> simp [h]
  · next h => split <;> simp_all

theorem onPart_find (s : State) (k j : Nat) (f : Part → Part) :
    (s.onPart k f).parts.find j = if j = k then (s.parts.find k).map f else s.parts.find j := by
  unfold State.onPart
  split
  · next w h => simp only [find_put]; split <;> simp [h]
  · next h => split <;> simp_all

theorem onAcc_find (s : State) (k j : Nat) (f : Access → Access) :
    (s.onAcc k f).accs.find j = if j = k then (s.accs.find k).map f else s.accs.find j := by
  unfold State.onAcc
  split
  · next w h => simp only [find_put]; split <;> simp [h]
  · next h => split <;> simp_all

theorem onOp_find (s : State) (k j : Nat) (f : EngineOp → EngineOp) :
    (s.onOp k f).ops.find j = if j = k then (s.ops.find k).map f else s.ops.find j := by
  unfold State.onOp
  split
  · next w h => simp only [find_put]; split <;> simp [h]
  · next h => split <;> simp_all

theorem onLaunch_find (s : State) (k j : Nat) (f : Launch → Launch) :
    (s.onLaunch k f).launches.find j = if j = k then (s.launches.find k).map f else s.launches.find j := by
  unfold State.onLaunch
  split
  · next w h => simp only [find_put]; split <;> simp [h]
  · next h => split <;> simp_all

theorem onGang_find (s : State) (k j : Nat) (f : Gang → Gang) :
    (s.onGang k f).gangs.find j = if j = k then (s.gangs.find k).map f else s.gangs.find j := by
  unfold State.onGang
  split
  · next w h => simp only [find_put]; split <;> simp [h]
  · next h => split <;> simp_all

end Sys2Proof.Laws
end

