-- ==== Sys2Proof/Laws/Unit.lean ====
section
/-! SUPPORT. How the threads of an issue unit move: every thread stands at its next place afterwards, and nothing of a warp
but its groups has changed (R26, R27, R224). -/
namespace Sys2Proof.Laws
open Sys2Proof.Machine

/-! ### Lanes and masks -/

theorem getLsbD_foldl_mask (l : List Nat) (m : Word) (i : Nat) (hi : i < 32) :
    (l.foldl (fun m i => m ||| (1#32 <<< i)) m).getLsbD i = (m.getLsbD i || decide (i ∈ l)) := by
  induction l generalizing m with
  | nil => simp
  | cons x l ih =>
    simp only [List.foldl_cons, ih, BitVec.getLsbD_or, BitVec.getLsbD_shiftLeft, List.mem_cons]
    have h1 : (1#32).getLsbD (i - x) = decide (i - x = 0) := by
      rw [BitVec.getLsbD_one]; simp
    rw [h1]
    by_cases hx : i = x
    · subst hx; simp [hi]
    · by_cases hlt : i < x
      · have : ¬ (i = x) := by omega
        simp [hlt, this]
      · have : ¬ (i - x = 0) := by omega
        have h2 : ¬ (i = x) := by omega
        simp [this, h2, hi]

theorem getLsbD_maskOf (l : List Nat) (i : Nat) (hi : i < 32) : (maskOf l).getLsbD i = decide (i ∈ l) := by
  unfold maskOf
  rw [getLsbD_foldl_mask l 0#32 i hi]
  simp

theorem mem_lanesOf (m : Word) (i : Nat) : i ∈ lanesOf m ↔ i < 32 ∧ m.getLsbD i = true := by
  simp [lanesOf]

theorem lane_lt {m : Word} {i : Nat} (h : m.getLsbD i = true) : i < 32 := by
  rcases Nat.lt_or_ge i 32 with hi | hi
  · exact hi
  · rw [BitVec.getLsbD_of_ge m i hi] at h
    exact Bool.noConfusion h

/-! ### Paths of a group -/

theorem pathsOf_unique (next : Nat → Tgt) (ls : List Nat) {p q : Tgt × List Nat} (hp : p ∈ pathsOf next ls)
    (hq : q ∈ pathsOf next ls) (h : p.1 = q.1) : p = q := by
  induction ls generalizing p q with
  | nil => simp [pathsOf] at hp
  | cons x ls ih =>
    cases hf : (pathsOf next ls).find? (fun p => p.1 = next x) with
    | some r =>
      simp only [pathsOf, hf, List.mem_cons, List.mem_filter, ne_eq, decide_not, Bool.not_eq_eq_eq_not, Bool.not_true,
        decide_eq_false_iff_not] at hp hq
      rcases hp with rfl | ⟨hp, hpn⟩ <;> rcases hq with rfl | ⟨hq, hqn⟩
      · rfl
      · exact absurd h.symm hqn
      · exact absurd h hpn
      · exact ih hp hq h
    | none =>
      simp only [pathsOf, hf, List.mem_cons] at hp hq
      rw [List.find?_eq_none] at hf
      rcases hp with rfl | hp <;> rcases hq with rfl | hq
      · rfl
      · exact absurd h.symm (by simpa using hf q hq)
      · exact absurd h (by simpa using hf p hp)
      · exact ih hp hq h

theorem pathsOf_mem (next : Nat → Tgt) (ls : List Nat) {l : Nat} (h : l ∈ ls) :
    ∃ p ∈ pathsOf next ls, p.1 = next l ∧ l ∈ p.2 := by
  induction ls with
  | nil => simp at h
  | cons x ls ih =>
    cases hf : (pathsOf next ls).find? (fun p => p.1 = next x) with
    | some p =>
      have hp1 : p.1 = next x := by simpa using List.find?_some hf
      have hpm := List.mem_of_find?_eq_some hf
      simp only [pathsOf, hf]
      rcases List.mem_cons.mp h with rfl | hl
      · exact ⟨_, List.mem_cons_self, rfl, List.mem_cons_self⟩
      · obtain ⟨q, hq, hq1, hq2⟩ := ih hl
        by_cases hx : q.1 = next x
        · have hqp := pathsOf_unique next ls hq hpm (hx.trans hp1.symm)
          subst hqp
          exact ⟨_, List.mem_cons_self, hx.symm.trans hq1, List.mem_cons_of_mem _ hq2⟩
        · exact ⟨q, List.mem_cons_of_mem _ (List.mem_filter.mpr ⟨hq, by simpa using hx⟩), hq1, hq2⟩
    | none =>
      simp only [pathsOf, hf]
      rcases List.mem_cons.mp h with rfl | hl
      · exact ⟨_, List.mem_cons_self, rfl, List.mem_cons_self⟩
      · obtain ⟨q, hq, hq1, hq2⟩ := ih hl
        exact ⟨q, List.mem_cons_of_mem _ hq, hq1, hq2⟩

theorem mem_insertPath (p q : Tgt × List Nat) (l : List (Tgt × List Nat)) : q ∈ insertPath p l ↔ q = p ∨ q ∈ l := by
  induction l with
  | nil => simp [insertPath]
  | cons r l ih =>
    simp only [insertPath]
    split
    · simp
    · simp only [List.mem_cons, ih]; tauto

theorem mem_sortPaths (q : Tgt × List Nat) (l : List (Tgt × List Nat)) : q ∈ sortPaths l ↔ q ∈ l := by
  induction l with
  | nil => simp [sortPaths]
  | cons r l ih =>
    simp only [sortPaths, List.foldr_cons, List.mem_cons] at ih ⊢
    rw [mem_insertPath, ih]

/-- A lane of a group stands at its target in one of the groups that the group becomes. -/
theorem splitGroup_at (next : Nat → Tgt) (n : Nat) (g : Group) {l : Nat} (h : g.lanes.getLsbD l = true) :
    ∃ g' ∈ splitGroup next n g, g'.lanes.getLsbD l = true ∧ g'.pc = (next l).pc ∧ g'.hdr = (next l).hdr ∧
      g'.depth = (next l).depth := by
  have hl := lane_lt h
  obtain ⟨p, hp, hp1, hp2⟩ := pathsOf_mem next (lanesOf g.lanes) ((mem_lanesOf _ _).mpr ⟨hl, h⟩)
  have hs : p ∈ sortPaths (pathsOf next (lanesOf g.lanes)) := (mem_sortPaths _ _).mpr hp
  unfold splitGroup
  split
  · next he => rw [he] at hs; simp at hs
  · next q qs he =>
    rw [he] at hs
    rcases List.mem_cons.mp hs with rfl | hq
    · exact ⟨_, List.mem_cons_self, by simp [Group.goTo, getLsbD_maskOf _ _ hl, hp2], by simp [Group.goTo, hp1],
        by simp [Group.goTo, hp1], by simp [Group.goTo, hp1]⟩
    · obtain ⟨i, hi, rfl⟩ := List.mem_iff_getElem.mp hq
      refine ⟨_, List.mem_cons_of_mem _ (List.mem_map.mpr ⟨(qs[i], i), ?_, rfl⟩), ?_, ?_, ?_, ?_⟩
      · rw [List.mk_mem_zipIdx_iff_getElem?]; simp [hi]
      · simp [Group.goTo, getLsbD_maskOf _ _ hl, hp2]
      · simp [Group.goTo, hp1]
      · simp [Group.goTo, hp1]
      · simp [Group.goTo, hp1]

/-- Numbering the slivers changes no group but for its number. -/
theorem numberSlivers_mem (k : Nat) (gs : List Group) (fresh : Nat) (seen : List (Tgt × Nat)) {g : Group} (h : g ∈ gs) :
    ∃ j, { g with sliver := j } ∈ (numberSlivers k gs fresh seen).1 ∧ (¬ (g.pos = 0 ∧ g.sliver = k) → j = g.sliver) := by
  induction gs generalizing fresh seen with
  | nil => simp at h
  | cons x gs ih =>
    rw [numberSlivers]
    by_cases hx : (x.pos = 0 && x.sliver = k) = true
    · simp only [hx, if_true]
      split
      · rcases List.mem_cons.mp h with rfl | h
        · exact ⟨_, List.mem_cons_self, fun hn => absurd (by simpa using hx) hn⟩
        · obtain ⟨j, hj, hk⟩ := ih fresh seen h
          exact ⟨j, List.mem_cons_of_mem _ hj, hk⟩
      · rcases List.mem_cons.mp h with rfl | h
        · exact ⟨_, List.mem_cons_self, fun hn => absurd (by simpa using hx) hn⟩
        · obtain ⟨j, hj, hk⟩ := ih _ _ h
          exact ⟨j, List.mem_cons_of_mem _ hj, hk⟩
    · simp only [hx]
      rcases List.mem_cons.mp h with rfl | h
      · exact ⟨g.sliver, List.mem_cons_self, fun _ => rfl⟩
      · obtain ⟨j, hj, hk⟩ := ih fresh seen h
        exact ⟨j, List.mem_cons_of_mem _ hj, hk⟩

/-! ### One warp -/

/-- A lane of a warp stands at a place. -/
def StandsAt (w : Warp) (l : Nat) (tg : Tgt) : Prop :=
  ∃ g ∈ w.groups, g.lanes.getLsbD l = true ∧ g.pc = tg.pc ∧ g.hdr = tg.hdr ∧ g.depth = tg.depth

/-- A lane of a warp is in a running group of a sliver. -/
def RunsIn (w : Warp) (l k : Nat) : Prop := ∃ g ∈ w.groups, g.lanes.getLsbD l = true ∧ g.pos = 0 ∧ g.sliver = k

theorem move_runs (w : Warp) (k : Nat) (next : Nat → Tgt) {l : Nat} (h : RunsIn w l k) :
    StandsAt (w.move k next) l (next l) := by
  obtain ⟨g, hg, hl, hp, hk⟩ := h
  obtain ⟨g', hg', hl', h1, h2, h3⟩ := splitGroup_at next (quadCount w.groups g.quad) g hl
  have hm : g' ∈ w.groups.flatMap fun g =>
      if g.pos = 0 && g.sliver = k then splitGroup next (quadCount w.groups g.quad) g else [g] :=
    List.mem_flatMap.mpr ⟨g, hg, by simpa [hp, hk] using hg'⟩
  obtain ⟨j, hj, -⟩ := numberSlivers_mem k _ w.nextSliver [] hm
  exact ⟨_, hj, hl', h1, h2, h3⟩

theorem move_stands (w : Warp) (k : Nat) (next : Nat → Tgt) {l : Nat} (h : StandsAt w l (next l)) :
    StandsAt (w.move k next) l (next l) := by
  obtain ⟨g, hg, hl, h1, h2, h3⟩ := h
  by_cases hk : g.pos = 0 ∧ g.sliver = k
  · exact move_runs w k next ⟨g, hg, hl, hk⟩
  · have hm : g ∈ w.groups.flatMap fun g =>
        if g.pos = 0 && g.sliver = k then splitGroup next (quadCount w.groups g.quad) g else [g] :=
      List.mem_flatMap.mpr ⟨g, hg, by
        have : ¬ ((decide (g.pos = 0) && decide (g.sliver = k)) = true) := by simpa using hk
        simp [this]⟩
    obtain ⟨j, hj, -⟩ := numberSlivers_mem k _ w.nextSliver [] hm
    exact ⟨_, hj, hl, h1, h2, h3⟩

theorem move_other (w : Warp) (k j : Nat) (next : Nat → Tgt) {l : Nat} (h : RunsIn w l j) (hjk : j ≠ k) :
    RunsIn (w.move k next) l j := by
  obtain ⟨g, hg, hl, hp, hj⟩ := h
  have hn : ¬ (g.pos = 0 ∧ g.sliver = k) := fun hh => hjk (hj.symm.trans hh.2)
  have hm : g ∈ w.groups.flatMap fun g =>
      if g.pos = 0 && g.sliver = k then splitGroup next (quadCount w.groups g.quad) g else [g] :=
    List.mem_flatMap.mpr ⟨g, hg, by
      have : ¬ ((decide (g.pos = 0) && decide (g.sliver = k)) = true) := by simpa using hn
      simp [this]⟩
  obtain ⟨i, hi, hs⟩ := numberSlivers_mem k _ w.nextSliver [] hm
  refine ⟨_, hi, hl, hp, ?_⟩
  simp [hs hn, hj]

/-! ### The unit -/

theorem warp_onWarp (s : State) (k j : Nat) (f : Warp → Warp) (h : s.warps.find j ≠ none) :
    (s.onWarp k f).warp j = if j = k then f (s.warp k) else s.warp j := by
  simp only [State.warp, Tbl.getD, onWarp_find]
  split
  · next hk => subst hk; cases hf : s.warps.find j with
    | none => exact absurd hf h
    | some w => simp
  · rfl

theorem warp_onWarp_ne (s : State) {k j : Nat} (f : Warp → Warp) (h : j ≠ k) : (s.onWarp k f).warp j = s.warp j := by
  simp [State.warp, Tbl.getD, onWarp_find, h]

/-- Each warp is what it was but for a change that `r` allows. -/
def WarpsBy (r : Warp → Warp → Prop) (s t : State) : Prop :=
  ∀ k, (s.warps.find k = none ∧ t.warps.find k = none) ∨
    ∃ w v, s.warps.find k = some w ∧ t.warps.find k = some v ∧ r w v

theorem WarpsBy.refl {r : Warp → Warp → Prop} (hr : ∀ w, r w w) (s : State) : WarpsBy r s s := fun k => by
  cases h : s.warps.find k with
  | none => exact .inl ⟨rfl, rfl⟩
  | some w => exact .inr ⟨w, w, rfl, rfl, hr w⟩

theorem WarpsBy.trans {r : Warp → Warp → Prop} (ht : ∀ a b c, r a b → r b c → r a c) {s t u : State}
    (h1 : WarpsBy r s t) (h2 : WarpsBy r t u) : WarpsBy r s u := fun k => by
  rcases h1 k with ⟨a, b⟩ | ⟨w, v, a, b, hr⟩
  · rcases h2 k with ⟨_, d⟩ | ⟨w', _, c, _, _⟩
    · exact .inl ⟨a, d⟩
    · rw [b] at c; exact absurd c (by simp)
  · rcases h2 k with ⟨c, _⟩ | ⟨w', v', c, d, hr'⟩
    · rw [b] at c; exact absurd c (by simp)
    · rw [b] at c; cases c
      exact .inr ⟨w, v', a, d, ht _ _ _ hr hr'⟩

theorem WarpsBy.onWarp {r : Warp → Warp → Prop} (hr : ∀ w, r w w) (s : State) (k : Nat) (f : Warp → Warp)
    (hf : ∀ w, r w (f w)) : WarpsBy r s (s.onWarp k f) := fun j => by
  rw [onWarp_find]
  split
  · next h => subst h; cases h : s.warps.find j with
    | none => exact .inl ⟨rfl, rfl⟩
    | some w => exact .inr ⟨w, f w, rfl, rfl, hf w⟩
  · exact WarpsBy.refl hr s j

theorem WarpsBy.of_eq {r : Warp → Warp → Prop} (hr : ∀ w, r w w) {s t : State} (h : t.warps = s.warps) : WarpsBy r s t :=
  fun j => by rw [h]; exact WarpsBy.refl hr s j

/-- Nothing of a warp but its groups has changed. -/
def SameStill (w v : Warp) : Prop := v.still = w.still

theorem SameStill.refl (w : Warp) : SameStill w w := rfl
theorem SameStill.trans (a b c : Warp) (h : SameStill a b) (g : SameStill b c) : SameStill a c := Eq.trans g h

theorem foldl_inv {α β : Type} (r : β → β → Prop) (hr : ∀ b, r b b) (ht : ∀ a b c, r a b → r b c → r a c)
    (f : β → α → β) (hf : ∀ b a, r b (f b a)) (l : List α) (b : β) : r b (l.foldl f b) := by
  induction l generalizing b with
  | nil => exact hr b
  | cons a l ih => exact ht _ _ _ (hf b a) (ih (f b a))

theorem moveUnit_warps (s : State) (u : IssueUnit) (next : Th → Tgt) : WarpsBy SameStill s (s.moveUnit u next) := by
  have h : WarpsBy SameStill s (u.mem.foldl (fun (s : State) (p : Nat × Nat) => s.onWarp p.1 fun w =>
      { w.move p.2 (fun l => next { wid := p.1, lane := l }) with depSince := none }) s) := by
    apply foldl_inv (WarpsBy SameStill) (WarpsBy.refl SameStill.refl) (fun _ _ _ => WarpsBy.trans SameStill.trans)
    intro b p
    exact WarpsBy.onWarp SameStill.refl b p.1 _ fun w => rfl
  refine WarpsBy.trans SameStill.trans h (WarpsBy.of_eq SameStill.refl ?_)
  unfold State.moveUnit
  simp only [tidyMixed_warps]
  split <;> simp

/-- Moving a unit changes only its warps and the mixed warps. -/
theorem moveUnit_frozen (s : State) (u : IssueUnit) (next : Th → Tgt) :
    { s.moveUnit u next with warps := [], mixed := [] } = { s with warps := [], mixed := [] } := by
  have h : ∀ (l : List (Nat × Nat)) (s : State), { l.foldl (fun (s : State) (p : Nat × Nat) => s.onWarp p.1 fun w =>
      { w.move p.2 (fun l => next { wid := p.1, lane := l }) with depSince := none }) s with
        warps := [], mixed := [] } = { s with warps := [], mixed := [] } := by
    intro l
    induction l with
    | nil => intro s; rfl
    | cons p l ih => intro s; rw [List.foldl_cons, ih]; simp
  rw [← h u.mem s]
  unfold State.moveUnit
  split <;> simp [State.tidyMixed, State.dissolve]

/-- A thread's warp and sliver are a part of the unit. -/
def InPart (s : State) (u : IssueUnit) (th : Th) : Prop :=
  ∃ k, (th.wid, k) ∈ u.mem ∧ s.warps.find th.wid ≠ none ∧ RunsIn (s.warp th.wid) th.lane k

theorem find_onWarp_ne_none (s : State) (k j : Nat) (f : Warp → Warp) (h : s.warps.find j ≠ none) :
    (s.onWarp k f).warps.find j ≠ none := by
  rw [onWarp_find]; split
  · next hk => subst hk; simpa using h
  · exact h

theorem moveUnit_at_aux (next : Th → Tgt) (th : Th) (l : List (Nat × Nat)) (s : State)
    (hw : s.warps.find th.wid ≠ none)
    (h : StandsAt (s.warp th.wid) th.lane (next th) ∨
      ∃ k, (th.wid, k) ∈ l ∧ RunsIn (s.warp th.wid) th.lane k) :
    StandsAt ((l.foldl (fun (s : State) (p : Nat × Nat) => s.onWarp p.1 fun w =>
      { w.move p.2 (fun l => next { wid := p.1, lane := l }) with depSince := none }) s).warp th.wid) th.lane (next th) := by
  induction l generalizing s with
  | nil => simpa using h
  | cons p l ih =>
    rw [List.foldl_cons]
    refine ih _ (find_onWarp_ne_none _ _ _ _ hw) ?_
    rw [warp_onWarp _ _ _ _ hw]
    by_cases hp : th.wid = p.1
    · rw [if_pos hp]
      obtain ⟨p1, p2⟩ := p
      dsimp only at hp; subst hp
      rcases h with h | ⟨k, hk, hr⟩
      · exact .inl (move_stands _ _ (fun l => next { wid := th.wid, lane := l }) h)
      · by_cases hkp : k = p2
        · subst hkp
          exact .inl (move_runs _ _ (fun l => next { wid := th.wid, lane := l }) hr)
        · refine .inr ⟨k, ?_, move_other _ _ _ _ hr hkp⟩
          rcases List.mem_cons.mp hk with hk | hk
          · exact absurd (congrArg Prod.snd hk) hkp
          · exact hk
    · rw [if_neg hp]
      rcases h with h | ⟨k, hk, hr⟩
      · exact .inl h
      · refine .inr ⟨k, ?_, hr⟩
        rcases List.mem_cons.mp hk with hk | hk
        · exact absurd (congrArg Prod.fst hk) hp
        · exact hk

/-- Every thread of the unit stands at its next place. -/
theorem moveUnit_at (s : State) (u : IssueUnit) (next : Th → Tgt) {th : Th} (h : InPart s u th) :
    (s.moveUnit u next).At th (next th) := by
  obtain ⟨k, hk, hw, hr⟩ := h
  have := moveUnit_at_aux next th u.mem s hw (.inr ⟨k, hk, hr⟩)
  unfold State.At State.moveUnit
  unfold StandsAt at this
  rw [show ∀ t : State, t.tidyMixed.warp th.wid = t.warp th.wid from fun t => rfl]
  split <;> exact this

theorem mem_threadsOf {gs : List (Nat × Group)} {th : Th} (h : th ∈ threadsOf gs) :
    ∃ g, (th.wid, g) ∈ gs ∧ g.lanes.getLsbD th.lane = true := by
  unfold threadsOf at h
  rw [List.mem_filterMap] at h
  obtain ⟨l, -, hl⟩ := h
  rw [Option.map_eq_some_iff] at hl
  obtain ⟨x, hx, rfl⟩ := hl
  exact ⟨x.2, List.mem_of_find?_eq_some hx, by simpa using List.find?_some hx⟩

/-- A thread of a unit is in one of its parts. -/
theorem inPart_of_mem (s : State) (f : Focus) {th : Th} (h : th ∈ (s.unitAt f).th) : InPart s (s.unitAt f) th := by
  obtain ⟨g, hg, hl⟩ := mem_threadsOf h
  unfold State.partGroups at hg
  rw [List.mem_flatMap] at hg
  obtain ⟨p, hp, hm⟩ := hg
  rw [List.mem_map] at hm
  obtain ⟨g', hg', he⟩ := hm
  obtain ⟨he1, rfl⟩ := Prod.mk.inj he
  unfold Warp.running at hg'
  rw [List.mem_filter] at hg'
  simp only [Bool.and_eq_true, decide_eq_true_eq] at hg'
  rw [he1] at hg'
  refine ⟨p.2, he1 ▸ hp, ?_, ⟨g', hg'.1, hl, hg'.2.1, hg'.2.2⟩⟩
  intro hn
  have : (s.warp th.wid).groups = [] := by simp [State.warp, Tbl.getD, hn, noWarp]
  rw [this] at hg'
  exact absurd hg'.1 (by simp)

end Sys2Proof.Laws
end

