-- ==== Sys2Proof/Laws/Writes.lean ====
section
/-! SUPPORT. What delivering results does to registers, predicates, counts and flags, and what it leaves (R52, R56, R66,
R120, R153). -/
namespace Sys2Proof.Laws
open Sys2Proof.Machine

/-! ### One register -/

@[simp] theorem not_sameReg_discard (t u : Th) (q : DReg) : ¬ SameReg t .discard u q := by
  intro h; cases q <;> exact h.2

/-- A register written is read back, and every other keeps its value. -/
theorem getReg_setReg (s : State) (t u : Th) (r q : DReg) (x : Reg) (hw : s.warps.find t.wid ≠ none)
    (hr : DReg.small r) (hq : DReg.small q) :
    (SameReg t r u q → (s.setReg t r x).getReg u q = x) ∧
    (¬ SameReg t r u q → (s.setReg t r x).getReg u q = s.getReg u q) := by
  have e : (s.setReg t r x).getReg u q = ((s.onWarp t.wid fun w => w.setReg t.lane r x).warp u.wid).reg u.lane q := by
    unfold State.setReg State.getReg; cases r <;> rfl
  rw [e]
  by_cases h : u.wid = t.wid
  · rw [warp_onWarp _ _ _ _ (by rw [h]; exact hw), if_pos h]
    unfold State.getReg; rw [h]
    cases r with
    | discard => exact ⟨fun hs => absurd hs (not_sameReg_discard _ _ _), fun _ => rfl⟩
    | v n =>
      cases q with
      | v m =>
        simp only [DReg.small] at hr hq
        simp only [Warp.setReg, Warp.reg, SameReg]
        constructor
        · rintro ⟨-, h1, h2⟩; rw [h1, h2]; simp
        · intro hn
          apply getD_put_ne
          intro he
          apply hn
          refine ⟨h.symm, ?_, ?_⟩ <;> omega
      | _ => exact ⟨fun hs => absurd hs.2 id, fun _ => rfl⟩
    | w n =>
      cases q with
      | w m =>
        simp only [Warp.setReg, Warp.reg, SameReg]
        constructor
        · rintro ⟨-, h1⟩; rw [h1]; simp
        · intro hn
          exact getD_put_ne _ _ _ fun he => hn ⟨h.symm, he.symm⟩
      | _ => exact ⟨fun hs => absurd hs.2 id, fun _ => rfl⟩
    | k n =>
      cases q with
      | k m =>
        simp only [Warp.setReg, Warp.reg, SameReg]
        constructor
        · rintro ⟨-, h1⟩; rw [h1]; simp
        · intro hn
          exact getD_put_ne _ _ _ fun he => hn ⟨h.symm, he.symm⟩
      | _ => exact ⟨fun hs => absurd hs.2 id, fun _ => rfl⟩
  · rw [warp_onWarp_ne _ _ h]
    exact ⟨fun hs => absurd hs.1.symm h, fun _ => rfl⟩

theorem setReg_find (s : State) (t : Th) (r : DReg) (x : Reg) (k : Nat) :
    (s.setReg t r x).warps.find k = if k = t.wid then (s.warps.find k).map (fun w => w.setReg t.lane r x) else s.warps.find k := by
  have e : (s.setReg t r x).warps = (s.onWarp t.wid fun w => w.setReg t.lane r x).warps := by
    unfold State.setReg; cases r <;> rfl
  rw [e, onWarp_find]
  split
  · next h => rw [h]
  · rfl

theorem setReg_ne_none (s : State) (t : Th) (r : DReg) (x : Reg) (k : Nat) (h : s.warps.find k ≠ none) :
    (s.setReg t r x).warps.find k ≠ none := by
  rw [setReg_find]; split
  · simpa using h
  · exact h

/-! ### Runs of registers -/

theorem succ_plus (r : DReg) (j : Nat) : r.succ.plus j = r.plus (j + 1) := by
  induction j with
  | zero => rfl
  | succ j ih => simp only [DReg.plus] at ih ⊢; rw [ih]

theorem small_plus_of_le {r : DReg} {i j : Nat} (h : DReg.small (r.plus j)) (hij : i ≤ j) : DReg.small (r.plus i) := by
  have key : ∀ i, match r with
      | .discard => r.plus i = .discard
      | .v n => r.plus i = .v (n + i)
      | .w n => r.plus i = .w (n + i)
      | .k n => r.plus i = .k (n + i) := by
    intro i
    induction i with
    | zero => cases r <;> rfl
    | succ i ih => cases r <;> simp only [DReg.plus] at ih ⊢ <;> rw [ih] <;> rfl
  cases r with
  | v n =>
    have h1 : (DReg.v n).plus j = .v (n + j) := key j
    have h2 : (DReg.v n).plus i = .v (n + i) := key i
    rw [h1] at h; rw [h2]
    simp only [DReg.small] at h ⊢; omega
  | discard => have h2 : DReg.discard.plus i = .discard := key i; rw [h2]; trivial
  | w n => have h2 : (DReg.w n).plus i = .w (n + i) := key i; rw [h2]; trivial
  | k n => have h2 : (DReg.k n).plus i = .k (n + i) := key i; rw [h2]; trivial

theorem setRegs_ne_none (s : State) (t : Th) (r : DReg) (xs : List Reg) (k : Nat) (h : s.warps.find k ≠ none) :
    (s.setRegs t r xs).warps.find k ≠ none := by
  induction xs generalizing s r with
  | nil => exact h
  | cons x xs ih => exact ih _ _ (setReg_ne_none s t r x k h)

theorem getReg_setRegs_ne (s : State) (t u : Th) (r q : DReg) (xs : List Reg) (hw : s.warps.find t.wid ≠ none)
    (hq : DReg.small q) (hr : ∀ j < xs.length, DReg.small (r.plus j))
    (hn : ∀ j < xs.length, ¬ SameReg t (r.plus j) u q) : (s.setRegs t r xs).getReg u q = s.getReg u q := by
  induction xs generalizing s r with
  | nil => rfl
  | cons x xs ih =>
    simp only [State.setRegs]
    rw [ih (s.setReg t r x) r.succ (setReg_ne_none s t r x _ hw)
      (fun j hj => by rw [succ_plus]; exact hr _ (by simpa using hj))
      (fun j hj => by rw [succ_plus]; exact hn _ (by simpa using hj))]
    exact (getReg_setReg s t u r q x hw (hr 0 (by simp)) hq).2 (hn 0 (by simp))

theorem plus_inj_sameReg {t : Th} {r : DReg} {i j : Nat} (h : SameReg t (r.plus i) t (r.plus j)) : i = j := by
  have key : ∀ i, match r with
      | .discard => r.plus i = .discard
      | .v n => r.plus i = .v (n + i)
      | .w n => r.plus i = .w (n + i)
      | .k n => r.plus i = .k (n + i) := by
    intro i
    induction i with
    | zero => cases r <;> rfl
    | succ i ih => cases r <;> simp only [DReg.plus] at ih ⊢ <;> rw [ih] <;> rfl
  cases r with
  | discard => have h1 : DReg.discard.plus i = .discard := key i; rw [h1] at h; exact absurd h (not_sameReg_discard _ _ _)
  | v n =>
    have h1 : (DReg.v n).plus i = .v (n + i) := key i
    have h2 : (DReg.v n).plus j = .v (n + j) := key j
    rw [h1, h2] at h; have := h.2.2; omega
  | w n =>
    have h1 : (DReg.w n).plus i = .w (n + i) := key i
    have h2 : (DReg.w n).plus j = .w (n + j) := key j
    rw [h1, h2] at h; have : n + i = n + j := h.2; omega
  | k n =>
    have h1 : (DReg.k n).plus i = .k (n + i) := key i
    have h2 : (DReg.k n).plus j = .k (n + j) := key j
    rw [h1, h2] at h; have : n + i = n + j := h.2; omega

theorem sameReg_self {t : Th} {r : DReg} (h : r ≠ .discard) : SameReg t r t r := by
  cases r with
  | discard => exact absurd rfl h
  | _ => simp [SameReg]

theorem plus_ne_discard {r : DReg} (h : r ≠ .discard) (j : Nat) : r.plus j ≠ .discard := by
  induction j with
  | zero => exact h
  | succ j ih => simp only [DReg.plus]; cases hh : r.plus j <;> simp_all [DReg.succ]

theorem getReg_setRegs (s : State) (t : Th) (r : DReg) (xs : List Reg) (hw : s.warps.find t.wid ≠ none)
    (hr : ∀ j < xs.length, DReg.small (r.plus j)) (hd : r ≠ .discard) {j : Nat} {x : Reg} (hx : xs[j]? = some x) :
    (s.setRegs t r xs).getReg t (r.plus j) = x := by
  induction xs generalizing s r j with
  | nil => simp at hx
  | cons y xs ih =>
    have hr' : ∀ j < xs.length, DReg.small (r.succ.plus j) := fun j hj => by
      rw [succ_plus]; exact hr _ (by simpa using hj)
    simp only [State.setRegs]
    cases j with
    | zero =>
      simp at hx; subst hx
      rw [getReg_setRegs_ne _ _ _ _ _ _ (setReg_ne_none s t r y _ hw) (hr 0 (by simp)) hr'
        (fun j _ h => by rw [succ_plus] at h; exact absurd (plus_inj_sameReg h) (by omega))]
      exact (getReg_setReg s t t r r y hw (hr 0 (by simp)) (hr 0 (by simp))).1 (sameReg_self hd)
    | succ j =>
      rw [← succ_plus]
      exact ih _ _ (setReg_ne_none s t r y _ hw) hr' (by cases r <;> simp_all [DReg.succ]) (by simpa using hx)

/-! ### Predicates -/

theorem getLsbD_setBit (x : BitVec 16) (n m : Nat) (b : Bool) :
    (n < 16 → (setBit x n b).getLsbD n = b) ∧ (m ≠ n → (setBit x n b).getLsbD m = x.getLsbD m) := by
  constructor
  · intro hn
    unfold setBit
    split
    · next h => simp [hn, h]
    · next h => simp [hn, h]
  · intro hm
    unfold setBit
    have h1 : (1#16 <<< n).getLsbD m = false := by
      rw [BitVec.getLsbD_shiftLeft]
      by_cases h : m < n
      · simp [h]
      · have : (1#16).getLsbD (m - n) = false := by rw [BitVec.getLsbD_one]; simp; omega
        simp [this]
    split
    · simp [h1]
    · by_cases h : m < 16
      · rw [BitVec.getLsbD_and, BitVec.getLsbD_not, h1]; simp [h]
      · rw [BitVec.getLsbD_of_ge _ _ (by omega), BitVec.getLsbD_of_ge _ _ (by omega)]

theorem pred_setPred_same (s : State) (t : Th) (n : Nat) (b : Bool) (hw : s.warps.find t.wid ≠ none) (hn : n < 16) :
    (s.setPred t n b).pred t n = b := by
  unfold State.setPred State.pred
  rw [warp_onWarp _ _ _ _ hw, if_pos rfl]
  simp [(getLsbD_setBit _ n n b).1 hn]

theorem pred_setPred_ne (s : State) (t u : Th) (n m : Nat) (b : Bool) (h : ¬ (u = t ∧ m = n)) :
    (s.setPred t n b).pred u m = s.pred u m := by
  unfold State.setPred State.pred
  by_cases hw : u.wid = t.wid
  · cases hf : s.warps.find t.wid with
    | none =>
      have : (s.onWarp t.wid fun w => { w with p := w.p.put t.lane (setBit (w.p.getD t.lane 0) n b) }) = s := by
        unfold State.onWarp; rw [hf]
      rw [this]
    | some w =>
      rw [warp_onWarp _ _ _ _ (by rw [hw, hf]; simp), if_pos hw, ← hw]
      dsimp only
      by_cases hl : u.lane = t.lane
      · have hut : u = t := by cases u; cases t; simp_all
        have hm : m ≠ n := fun hm => h ⟨hut, hm⟩
        rw [hl, getD_put_same, (getLsbD_setBit _ n m b).2 hm]
      · rw [getD_put_ne _ _ _ hl]
  · rw [warp_onWarp_ne _ _ hw]

theorem setPred_ne_none (s : State) (t : Th) (n : Nat) (b : Bool) (k : Nat) (h : s.warps.find k ≠ none) :
    (s.setPred t n b).warps.find k ≠ none := find_onWarp_ne_none _ _ _ _ h

theorem setPreds_ne_none (s : State) (t : Th) (ps : List (Nat × Bool)) (k : Nat) (h : s.warps.find k ≠ none) :
    (s.setPreds t ps).warps.find k ≠ none := by
  induction ps generalizing s with
  | nil => exact h
  | cons p ps ih => exact ih _ (setPred_ne_none s t p.1 p.2 k h)

theorem pred_setPreds_ne (s : State) (t u : Th) (ps : List (Nat × Bool)) (m : Nat) (h : u = t → m ∉ ps.map (·.1)) :
    (s.setPreds t ps).pred u m = s.pred u m := by
  induction ps generalizing s with
  | nil => rfl
  | cons p ps ih =>
    simp only [State.setPreds]
    rw [ih _ (fun hu => by have := h hu; simp at this ⊢; tauto), pred_setPred_ne]
    rintro ⟨hu, hm⟩
    have := h hu
    simp [hm] at this

theorem pred_setPreds (s : State) (t : Th) (ps : List (Nat × Bool)) (hw : s.warps.find t.wid ≠ none)
    (hd : (ps.map (·.1)).Nodup) (hn : ∀ p ∈ ps, p.1 < 16) {p : Nat × Bool} (hp : p ∈ ps) :
    (s.setPreds t ps).pred t p.1 = p.2 := by
  induction ps generalizing s with
  | nil => simp at hp
  | cons q ps ih =>
    simp only [State.setPreds]
    simp only [List.map_cons, List.nodup_cons] at hd
    rcases List.mem_cons.mp hp with rfl | hp
    · rw [pred_setPreds_ne _ _ _ _ _ (fun _ => hd.1), pred_setPred_same _ _ _ _ hw (hn p (by simp))]
    · exact ih _ (setPred_ne_none s t q.1 q.2 _ hw) hd.2 (fun r hr => hn r (by simp [hr])) hp

/-! Registers and predicates do not touch each other. -/

theorem getReg_setPred (s : State) (t u : Th) (n : Nat) (b : Bool) (q : DReg) :
    (s.setPred t n b).getReg u q = s.getReg u q := by
  unfold State.setPred State.getReg
  by_cases hw : u.wid = t.wid
  · cases hf : s.warps.find t.wid with
    | none =>
      have : (s.onWarp t.wid fun w => { w with p := w.p.put t.lane (setBit (w.p.getD t.lane 0) n b) }) = s := by
        unfold State.onWarp; rw [hf]
      rw [this]
    | some w =>
      rw [warp_onWarp _ _ _ _ (by rw [hw, hf]; simp), if_pos hw, hw]
      cases q <;> rfl
  · rw [warp_onWarp_ne _ _ hw]

theorem getReg_setPreds (s : State) (t u : Th) (ps : List (Nat × Bool)) (q : DReg) :
    (s.setPreds t ps).getReg u q = s.getReg u q := by
  induction ps generalizing s with
  | nil => rfl
  | cons p ps ih => simp only [State.setPreds]; rw [ih, getReg_setPred]

theorem pred_setReg (s : State) (t u : Th) (r : DReg) (x : Reg) (m : Nat) : (s.setReg t r x).pred u m = s.pred u m := by
  have e : (s.setReg t r x).pred u m = (s.onWarp t.wid fun w => w.setReg t.lane r x).pred u m := by
    unfold State.setReg State.pred; cases r <;> rfl
  rw [e]
  unfold State.pred
  by_cases hw : u.wid = t.wid
  · cases hf : s.warps.find t.wid with
    | none =>
      have : (s.onWarp t.wid fun w => w.setReg t.lane r x) = s := by unfold State.onWarp; rw [hf]
      rw [this]
    | some w =>
      rw [warp_onWarp _ _ _ _ (by rw [hw, hf]; simp), if_pos hw, hw]
      cases r <;> rfl
  · rw [warp_onWarp_ne _ _ hw]

theorem pred_setRegs (s : State) (t u : Th) (r : DReg) (xs : List Reg) (m : Nat) :
    (s.setRegs t r xs).pred u m = s.pred u m := by
  induction xs generalizing s r with
  | nil => rfl
  | cons x xs ih => simp only [State.setRegs]; rw [ih, pred_setReg]

/-! ### The results of an instruction -/

/-- One thread's results, written as `commit` writes them. -/
def deliver (code : BitVec 6) (act : List Th) (s : State) (o : (Th × Out) × DReg) : State :=
  (if sharedDst code && !(leads act o.1.1) then s else s.setRegs o.1.1 o.2 o.1.2.regs).setPreds o.1.1 o.1.2.preds

theorem commit_eq (s : State) (c : Ctx) (code : BitVec 6) (outs : List (Th × Out)) :
    s.commit c code outs = (widsOf (outs.map (·.1))).foldl (fun s wid =>
      s.addFx wid (joinAll ((outs.filter (·.1.wid = wid)).map (·.2.fx))))
      ((outs.map fun o => (o, s.dreg c o.1 code)).foldl (deliver code (outs.map (·.1))) s) := rfl

theorem deliver_ne_none (code : BitVec 6) (act : List Th) (s : State) (o : (Th × Out) × DReg) (k : Nat)
    (h : s.warps.find k ≠ none) : (deliver code act s o).warps.find k ≠ none := by
  unfold deliver
  apply setPreds_ne_none
  split
  · exact h
  · exact setRegs_ne_none _ _ _ _ _ h

theorem delivers_ne_none (code : BitVec 6) (act : List Th) (l : List ((Th × Out) × DReg)) (s : State) (k : Nat)
    (h : s.warps.find k ≠ none) : (l.foldl (deliver code act) s).warps.find k ≠ none := by
  induction l generalizing s with
  | nil => exact h
  | cons o l ih => exact ih _ (deliver_ne_none code act s o k h)

/-- Does a delivery write this register? -/
def Writes (code : BitVec 6) (act : List Th) (o : (Th × Out) × DReg) (u : Th) (q : DReg) : Prop :=
  (sharedDst code = true → leads act o.1.1 = true) ∧ ∃ j < o.1.2.regs.length, SameReg o.1.1 (o.2.plus j) u q

theorem deliver_getReg_ne (code : BitVec 6) (act : List Th) (s : State) (o : (Th × Out) × DReg) (u : Th) (q : DReg)
    (hw : s.warps.find o.1.1.wid ≠ none) (hq : DReg.small q) (hr : ∀ j < o.1.2.regs.length, DReg.small (o.2.plus j))
    (h : ¬ Writes code act o u q) : (deliver code act s o).getReg u q = s.getReg u q := by
  unfold deliver
  rw [getReg_setPreds]
  split
  · rfl
  · next hl =>
    apply getReg_setRegs_ne _ _ _ _ _ _ hw hq hr
    intro j hj hs
    refine h ⟨?_, j, hj, hs⟩
    intro hsh
    simpa [hsh] using hl

theorem delivers_getReg_ne (code : BitVec 6) (act : List Th) (l : List ((Th × Out) × DReg)) (s : State) (u : Th) (q : DReg)
    (hw : ∀ o ∈ l, s.warps.find o.1.1.wid ≠ none) (hq : DReg.small q)
    (hr : ∀ o ∈ l, ∀ j < o.1.2.regs.length, DReg.small (o.2.plus j)) (h : ∀ o ∈ l, ¬ Writes code act o u q) :
    (l.foldl (deliver code act) s).getReg u q = s.getReg u q := by
  induction l generalizing s with
  | nil => rfl
  | cons o l ih =>
    rw [List.foldl_cons, ih (deliver code act s o)
      (fun p hp => deliver_ne_none _ _ _ _ _ (hw p (by simp [hp]))) (fun p hp => hr p (by simp [hp]))
      (fun p hp => h p (by simp [hp]))]
    exact deliver_getReg_ne _ _ _ _ _ _ (hw o (by simp)) hq (hr o (by simp)) (h o (by simp))

theorem delivers_getReg (code : BitVec 6) (act : List Th) (l : List ((Th × Out) × DReg)) (s : State)
    (hw : ∀ o ∈ l, s.warps.find o.1.1.wid ≠ none)
    (hr : ∀ o ∈ l, ∀ j < o.1.2.regs.length, DReg.small (o.2.plus j))
    (hnd : (l.map (·.1.1)).Nodup) {o : (Th × Out) × DReg} (ho : o ∈ l)
    (hd : ∀ p ∈ l, p.1.1 ≠ o.1.1 → ∀ i, ¬ Writes code act p o.1.1 (o.2.plus i)) (hs : sharedDst code = true → leads act o.1.1 = true) (hn : o.2 ≠ .discard)
    {j : Nat} {x : Reg} (hx : o.1.2.regs[j]? = some x) :
    (l.foldl (deliver code act) s).getReg o.1.1 (o.2.plus j) = x := by
  have hj : j < o.1.2.regs.length := by
    rcases Nat.lt_or_ge j o.1.2.regs.length with h | h
    · exact h
    · rw [List.getElem?_eq_none h] at hx; exact absurd hx (by simp)
  induction l generalizing s with
  | nil => simp at ho
  | cons p l ih =>
    rw [List.foldl_cons]
    have hw' : ∀ q ∈ l, (deliver code act s p).warps.find q.1.1.wid ≠ none :=
      fun q hq => deliver_ne_none _ _ _ _ _ (hw q (by simp [hq]))
    simp only [List.map_cons, List.nodup_cons] at hnd
    rcases List.mem_cons.mp ho with rfl | ho
    · rw [delivers_getReg_ne _ _ _ _ _ _ hw' (hr o (by simp) j hj) (fun q hq => hr q (by simp [hq]))
        (fun q hq => hd q (by simp [hq]) (fun he => hnd.1 (List.mem_map.mpr ⟨q, hq, he⟩)) j)]
      unfold deliver
      rw [getReg_setPreds, if_neg (by
        intro hb
        simp only [Bool.and_eq_true, Bool.not_eq_true'] at hb
        rw [hs hb.1] at hb; exact absurd hb.2 (by simp))]
      exact getReg_setRegs _ _ _ _ (hw o (by simp)) (hr o (by simp)) hn hx
    · exact ih _ hw' (fun q hq => hr q (by simp [hq])) hnd.2 ho (fun q hq => hd q (by simp [hq]))

theorem deliver_pred_ne (code : BitVec 6) (act : List Th) (s : State) (o : (Th × Out) × DReg) (u : Th) (m : Nat)
    (h : u = o.1.1 → m ∉ o.1.2.preds.map (·.1)) : (deliver code act s o).pred u m = s.pred u m := by
  unfold deliver
  rw [pred_setPreds_ne _ _ _ _ _ h]
  split
  · rfl
  · exact pred_setRegs _ _ _ _ _ _

theorem delivers_pred_ne (code : BitVec 6) (act : List Th) (l : List ((Th × Out) × DReg)) (s : State) (u : Th) (m : Nat)
    (h : ∀ o ∈ l, u = o.1.1 → m ∉ o.1.2.preds.map (·.1)) : (l.foldl (deliver code act) s).pred u m = s.pred u m := by
  induction l generalizing s with
  | nil => rfl
  | cons o l ih =>
    rw [List.foldl_cons, ih _ (fun p hp => h p (by simp [hp])), deliver_pred_ne _ _ _ _ _ _ (h o (by simp))]

theorem delivers_pred (code : BitVec 6) (act : List Th) (l : List ((Th × Out) × DReg)) (s : State)
    (hw : ∀ o ∈ l, s.warps.find o.1.1.wid ≠ none) (hd : (l.map (·.1.1)).Nodup)
    {o : (Th × Out) × DReg} (ho : o ∈ l) (hnd : (o.1.2.preds.map (·.1)).Nodup) (hn : ∀ p ∈ o.1.2.preds, p.1 < 16)
    {p : Nat × Bool} (hp : p ∈ o.1.2.preds) : (l.foldl (deliver code act) s).pred o.1.1 p.1 = p.2 := by
  induction l generalizing s with
  | nil => simp at ho
  | cons q l ih =>
    rw [List.foldl_cons]
    simp only [List.map_cons, List.nodup_cons] at hd
    rcases List.mem_cons.mp ho with rfl | ho
    · rw [delivers_pred_ne _ _ _ _ _ _ (fun r hr he => absurd (List.mem_map.mpr ⟨r, hr, he.symm⟩) hd.1)]
      unfold deliver
      apply pred_setPreds _ _ _ _ hnd hn hp
      split
      · exact hw o (by simp)
      · exact setRegs_ne_none _ _ _ _ _ (hw o (by simp))
    · exact ih _ (fun r hr => deliver_ne_none _ _ _ _ _ (hw r (by simp [hr]))) hd.2 ho

/-! ### Counts and flags -/

theorem addFx_getReg (s : State) (wid : Nat) (fx : Effects) (u : Th) (q : DReg) :
    (s.addFx wid fx).getReg u q = s.getReg u q := by
  unfold State.addFx State.getReg
  by_cases hw : u.wid = wid
  · cases hf : s.warps.find wid with
    | none => rw [show s.onWarp wid _ = s from by unfold State.onWarp; rw [hf]]
    | some w => rw [warp_onWarp _ _ _ _ (by rw [hw, hf]; simp), if_pos hw, hw]; cases q <;> rfl
  · rw [warp_onWarp_ne _ _ hw]

theorem addFx_pred (s : State) (wid : Nat) (fx : Effects) (u : Th) (m : Nat) :
    (s.addFx wid fx).pred u m = s.pred u m := by
  unfold State.addFx State.pred
  by_cases hw : u.wid = wid
  · cases hf : s.warps.find wid with
    | none => rw [show s.onWarp wid _ = s from by unfold State.onWarp; rw [hf]]
    | some w => rw [warp_onWarp _ _ _ _ (by rw [hw, hf]; simp), if_pos hw, hw]
  · rw [warp_onWarp_ne _ _ hw]

theorem addFxs_getReg (f : Nat → Effects) (l : List Nat) (s : State) (u : Th) (q : DReg) :
    (l.foldl (fun s wid => s.addFx wid (f wid)) s).getReg u q = s.getReg u q := by
  induction l generalizing s with
  | nil => rfl
  | cons w l ih => rw [List.foldl_cons, ih, addFx_getReg]

theorem addFxs_pred (f : Nat → Effects) (l : List Nat) (s : State) (u : Th) (m : Nat) :
    (l.foldl (fun s wid => s.addFx wid (f wid)) s).pred u m = s.pred u m := by
  induction l generalizing s with
  | nil => rfl
  | cons w l ih => rw [List.foldl_cons, ih, addFx_pred]

/-- The counts and flags of a warp. -/
def counts (w : Warp) : Word × Word × Word := (w.ovc, w.nvc, w.fpsr)

/-- Counts and flags after one delivery of effects. -/
def grown (x : Word × Word × Word) (fx : Effects) : Word × Word × Word :=
  (satAdd x.1 fx.ov, satAdd x.2.1 fx.nv, x.2.2 ||| fx.flags.zeroExtend 32)

theorem satAdd_zero (x : Word) : satAdd x 0 = x := by
  unfold satAdd
  rw [if_pos (show x.toNat + 0 < 2 ^ 32 from x.isLt)]
  simp

theorem grown_none (x : Word × Word × Word) : grown x {} = x := by
  obtain ⟨a, b, c⟩ := x
  simp [grown, satAdd_zero]

theorem addFx_counts (s : State) (wid k : Nat) (fx : Effects) (h : s.warps.find k ≠ none) :
    counts ((s.addFx wid fx).warp k) = if k = wid then grown (counts (s.warp k)) fx else counts (s.warp k) := by
  unfold State.addFx
  rw [warp_onWarp _ _ _ _ h]
  split
  · next hk => subst hk; rfl
  · rfl

theorem addFxs_counts (f : Nat → Effects) (l : List Nat) (s : State) (k : Nat) (h : s.warps.find k ≠ none)
    (hd : l.Nodup) :
    counts ((l.foldl (fun s wid => s.addFx wid (f wid)) s).warp k) =
      if k ∈ l then grown (counts (s.warp k)) (f k) else counts (s.warp k) := by
  induction l generalizing s with
  | nil => simp
  | cons w l ih =>
    rw [List.nodup_cons] at hd
    rw [List.foldl_cons, ih (s.addFx w (f w)) (find_onWarp_ne_none _ _ _ _ h) hd.2, addFx_counts _ _ _ _ h]
    by_cases hk : k = w
    · subst hk; simp [hd.1]
    · simp [hk]

theorem addFxs_none (f : Nat → Effects) (l : List Nat) (s : State) (k : Nat) (h : s.warps.find k = none) :
    (l.foldl (fun s wid => s.addFx wid (f wid)) s).warps.find k = none := by
  induction l generalizing s with
  | nil => exact h
  | cons w l ih =>
    rw [List.foldl_cons]
    apply ih
    unfold State.addFx
    rw [onWarp_find]; split
    · next hk => subst hk; simp [h]
    · exact h

end Sys2Proof.Laws
end

