-- ==== Sys2Proof/Laws/Compute.lean ====
section
/-! SUPPORT. An instruction that computes from its operands: what its next state holds and what it leaves (R7, R152, R153,
R224). -/
namespace Sys2Proof.Laws
open Sys2Proof.Machine

/-! ### What deliveries leave -/

theorem OnlyWarps.refl (s : State) : OnlyWarps s s := ⟨rfl, fun _ => rfl, fun _ h _ => h⟩

theorem OnlyWarps.trans {s t u : State} (h : OnlyWarps s t) (g : OnlyWarps t u) : OnlyWarps s u :=
  ⟨g.rest.trans h.rest, fun p => (g.parts p).trans (h.parts p), fun x hx hr => g.upsets x (h.upsets x hx hr) hr⟩

/-- What a delivery may change of a warp, counts and flags excepted. -/
def Delivered (w v : Warp) : Prop := v.frozen = w.frozen ∧ counts v = counts w ∧ v.groups = w.groups

theorem Delivered.refl (w : Warp) : Delivered w w := ⟨rfl, rfl, rfl⟩
theorem Delivered.trans (a b c : Warp) (h : Delivered a b) (g : Delivered b c) : Delivered a c :=
  ⟨g.1.trans h.1, g.2.1.trans h.2.1, g.2.2.trans h.2.2⟩

/-- Only warps have changed, and each of them as `r` allows. -/
def Quiet (r : Warp → Warp → Prop) (s t : State) : Prop := OnlyWarps s t ∧ WarpsBy r s t

theorem Quiet.refl {r : Warp → Warp → Prop} (hr : ∀ w, r w w) (s : State) : Quiet r s s :=
  ⟨OnlyWarps.refl s, WarpsBy.refl hr s⟩

theorem Quiet.trans {r : Warp → Warp → Prop} (ht : ∀ a b c, r a b → r b c → r a c) {s t u : State}
    (h : Quiet r s t) (g : Quiet r t u) : Quiet r s u := ⟨OnlyWarps.trans h.1 g.1, WarpsBy.trans ht h.2 g.2⟩

theorem onlyWarps_onWarp (s : State) (k : Nat) (f : Warp → Warp) : OnlyWarps s (s.onWarp k f) :=
  ⟨by simp [State.frozen], fun p => by simp, fun u hu _ => by simpa using hu⟩

theorem Quiet.onWarp {r : Warp → Warp → Prop} (hr : ∀ w, r w w) (s : State) (k : Nat) (f : Warp → Warp)
    (hf : ∀ w, r w (f w)) : Quiet r s (s.onWarp k f) := ⟨onlyWarps_onWarp s k f, WarpsBy.onWarp hr s k f hf⟩

theorem quiet_setReg (s : State) (t : Th) (r : DReg) (x : Reg) : Quiet Delivered s (s.setReg t r x) := by
  have h := Quiet.onWarp Delivered.refl s t.wid (fun w => w.setReg t.lane r x) fun w => by cases r <;> exact ⟨rfl, rfl, rfl⟩
  refine Quiet.trans Delivered.trans h ⟨?_, ?_⟩
  · refine ⟨?_, fun p => ?_, fun u hu hn => ?_⟩
    · unfold State.setReg; cases r <;> rfl
    · unfold State.setReg; cases r <;> rfl
    · unfold State.setReg
      cases r with
      | v n => exact List.mem_filter.mpr ⟨hu, by simpa using hn t.wid t.lane n⟩
      | _ => exact hu
  · exact WarpsBy.of_eq Delivered.refl (by unfold State.setReg; cases r <;> rfl)

theorem quiet_setRegs (s : State) (t : Th) (r : DReg) (xs : List Reg) : Quiet Delivered s (s.setRegs t r xs) := by
  induction xs generalizing s r with
  | nil => exact Quiet.refl Delivered.refl s
  | cons x xs ih => exact Quiet.trans Delivered.trans (quiet_setReg s t r x) (ih _ _)

theorem quiet_setPreds (s : State) (t : Th) (ps : List (Nat × Bool)) : Quiet Delivered s (s.setPreds t ps) := by
  induction ps generalizing s with
  | nil => exact Quiet.refl Delivered.refl s
  | cons p ps ih =>
    refine Quiet.trans Delivered.trans ?_ (ih _)
    exact Quiet.onWarp Delivered.refl s t.wid _ fun w => ⟨rfl, rfl, rfl⟩

theorem quiet_delivers (code : BitVec 6) (act : List Th) (l : List ((Th × Out) × DReg)) (s : State) :
    Quiet Delivered s (l.foldl (deliver code act) s) := by
  apply foldl_inv (Quiet Delivered) (Quiet.refl Delivered.refl) (fun _ _ _ => Quiet.trans Delivered.trans)
  intro b o
  unfold deliver
  refine Quiet.trans Delivered.trans ?_ (quiet_setPreds _ _ _)
  split
  · exact Quiet.refl Delivered.refl b
  · exact quiet_setRegs _ _ _ _

/-- Equality of what `Warp.frozen` keeps. -/
def SameFrozen (w v : Warp) : Prop := v.frozen = w.frozen

theorem SameFrozen.refl (w : Warp) : SameFrozen w w := rfl
theorem SameFrozen.trans (a b c : Warp) (h : SameFrozen a b) (g : SameFrozen b c) : SameFrozen a c := Eq.trans g h

theorem WarpsBy.mono {r q : Warp → Warp → Prop} (h : ∀ w v, r w v → q w v) {s t : State} (g : WarpsBy r s t) :
    WarpsBy q s t := fun k => by
  rcases g k with h1 | ⟨w, v, a, b, c⟩
  · exact .inl h1
  · exact .inr ⟨w, v, a, b, h _ _ c⟩

/-- What results may change of a warp, and its groups stay. -/
def Committed (w v : Warp) : Prop := v.frozen = w.frozen ∧ v.groups = w.groups

theorem Committed.refl (w : Warp) : Committed w w := ⟨rfl, rfl⟩
theorem Committed.trans (a b c : Warp) (h : Committed a b) (g : Committed b c) : Committed a c :=
  ⟨g.1.trans h.1, g.2.trans h.2⟩

theorem quiet_commit (s : State) (c : Ctx) (code : BitVec 6) (outs : List (Th × Out)) :
    Quiet Committed s (s.commit c code outs) := by
  rw [commit_eq]
  have h := quiet_delivers code (outs.map (·.1)) (outs.map fun o => (o, s.dreg c o.1 code)) s
  refine Quiet.trans Committed.trans ⟨h.1, WarpsBy.mono (fun _ _ h => ⟨h.1, h.2.2⟩) h.2⟩ ?_
  apply foldl_inv (Quiet Committed) (Quiet.refl Committed.refl) (fun _ _ _ => Quiet.trans Committed.trans)
  intro b w
  exact Quiet.onWarp Committed.refl b w _ fun _ => ⟨rfl, rfl⟩

theorem quiet_moveUnit (s : State) (u : IssueUnit) (next : Th → Tgt) : Quiet SameStill s (s.moveUnit u next) := by
  refine ⟨⟨?_, fun p => ?_, fun x hx _ => ?_⟩, moveUnit_warps s u next⟩
  · have := congrArg State.frozen (moveUnit_frozen s u next)
    exact this
  · have := congrArg State.parts (moveUnit_frozen s u next)
    exact congrArg (fun t => (Tbl.find t p).map Part.frozen) this
  · have := congrArg State.upsets (moveUnit_frozen s u next)
    exact (show (s.moveUnit u next).upsets = s.upsets from this) ▸ hx

theorem quiet_meter (s : State) (p k n : Nat) : Quiet SameStill s (s.meter p k n) := by
  refine ⟨⟨?_, fun q => ?_, fun x hx _ => ?_⟩, WarpsBy.of_eq SameStill.refl ?_⟩
  · simp [State.meter, State.frozen]
  · simp only [State.meter, onPart_find]
    split
    · next h => subst h; cases s.parts.find q <;> rfl
    · rfl
  · simpa [State.meter] using hx
  · simp [State.meter]

theorem quiet_meterVec (s : State) (act : List Th) : Quiet SameStill s (s.meterVec act) := by
  unfold State.meterVec
  cases act with
  | nil => exact Quiet.refl SameStill.refl s
  | cons t l => exact quiet_meter _ _ _ _

/-! ### What only moves leaves -/

theorem WarpsBy.warp {r : Warp → Warp → Prop} (hr : r noWarp noWarp) {s t : State} (h : WarpsBy r s t) (k : Nat) :
    r (s.warp k) (t.warp k) := by
  rcases h k with ⟨a, b⟩ | ⟨w, v, a, b, hh⟩
  · simpa [State.warp, Tbl.getD, a, b] using hr
  · simpa [State.warp, Tbl.getD, a, b] using hh

theorem still_getReg {s t : State} (h : WarpsBy SameStill s t) (u : Th) (q : DReg) : t.getReg u q = s.getReg u q := by
  have hh : SameStill (s.warp u.wid) (t.warp u.wid) := WarpsBy.warp (SameStill.refl _) h u.wid
  unfold State.getReg
  cases q with
  | discard => rfl
  | v n => have := congrArg Warp.v hh; exact congrArg (fun x => Tbl.getD x (512 * u.lane + n) {}) this
  | w n => have := congrArg Warp.w hh; exact congrArg (fun x => Tbl.getD x n {}) this
  | k n => have := congrArg Warp.k hh; exact congrArg (fun x => Tbl.getD x n {}) this

theorem still_pred {s t : State} (h : WarpsBy SameStill s t) (u : Th) (m : Nat) : t.pred u m = s.pred u m := by
  have hh : SameStill (s.warp u.wid) (t.warp u.wid) := WarpsBy.warp (SameStill.refl _) h u.wid
  have := congrArg Warp.p hh
  exact congrArg (fun x => (Tbl.getD x u.lane (0 : BitVec 16)).getLsbD m) this

theorem still_counts {s t : State} (h : WarpsBy SameStill s t) (k : Nat) : counts (t.warp k) = counts (s.warp k) := by
  have hh : SameStill (s.warp k) (t.warp k) := WarpsBy.warp (SameStill.refl _) h k
  have h2 := congrArg counts (show (t.warp k).still = (s.warp k).still from hh)
  exact h2

theorem meterVec_warps (s : State) (act : List Th) : (s.meterVec act).warps = s.warps := by
  unfold State.meterVec
  cases act with
  | nil => rfl
  | cons t l => simp [State.meter]

/-! ### The active threads of a unit -/

theorem threadsOf_lanes (gs : List (Nat × Group)) : ((threadsOf gs).map (·.lane)).Nodup := by
  unfold threadsOf
  have h : ∀ l : List Nat, l.Nodup → ((l.filterMap fun l =>
      (gs.find? fun x => x.2.lanes.getLsbD l).map fun x => ({ wid := x.1, lane := l } : Th)).map (·.lane)).Sublist l := by
    intro l _
    induction l with
    | nil => simp
    | cons a l ih =>
      rename_i hn
      rw [List.nodup_cons] at hn
      rw [List.filterMap_cons]
      cases hf : gs.find? fun x => x.2.lanes.getLsbD a with
      | none => simp only [Option.map_none]; exact (ih hn.2).cons a
      | some x => simp only [Option.map_some, List.map_cons]; exact (ih hn.2).cons_cons a
  exact (h _ List.nodup_range).nodup List.nodup_range

theorem active_sub (s : State) (c : Ctx) (q : BitVec 2) : (s.active c q).Sublist c.u.th := List.filter_sublist

/-- Results that give at most some number of registers each, all with numbers of their own, and distinct predicates. -/
structure FitOuts (s : State) (c : Ctx) (code : BitVec 6) (act : List Th) (n : Nat) (out : Th → Out) : Prop where
  len : ∀ t ∈ act, (out t).regs.length ≤ n
  fits : ∀ t ∈ act, ∀ j < (out t).regs.length, DReg.small ((s.dreg c t code).plus j)
  nodup : ∀ t ∈ act, ((out t).preds.map (·.1)).Nodup
  low : ∀ t ∈ act, ∀ p ∈ (out t).preds, p.1 < 16

theorem ixEff_le (r : Word) : ixEff r ≤ 510 := by
  unfold ixEff
  have h1 := (r.extractLsb' 8 8).isLt
  have h2 := (r.extractLsb' 0 8).isLt
  omega

theorem plus_v (m j : Nat) : (DReg.v m).plus j = .v (m + j) := by
  induction j with
  | zero => rfl
  | succ j ih => simp only [DReg.plus] at ih ⊢; rw [ih]; rfl

theorem plus_w (m j : Nat) : (DReg.w m).plus j = .w (m + j) := by
  induction j with
  | zero => rfl
  | succ j ih => simp only [DReg.plus] at ih ⊢; rw [ih]; rfl

theorem plus_k (m j : Nat) : (DReg.k m).plus j = .k (m + j) := by
  induction j with
  | zero => rfl
  | succ j ih => simp only [DReg.plus] at ih ⊢; rw [ih]; rfl

theorem plus_discard (j : Nat) : DReg.discard.plus j = .discard := by
  induction j with
  | zero => rfl
  | succ j ih => simp only [DReg.plus] at ih ⊢; rw [ih]; rfl

theorem dreg_small (s : State) (c : Ctx) (t : Th) (code : BitVec 6) {j : Nat} (hj : j < 2) :
    DReg.small ((s.dreg c t code).plus j) := by
  unfold State.dreg
  have := ixEff_le (s.ixReg t (code.toNat - 48))
  dsimp only
  split
  · rw [plus_v]; simp only [DReg.small]; omega
  · split
    · rw [plus_v]; simp only [DReg.small]; omega
    · split
      · rw [plus_w]; trivial
      · split
        · split
          · rw [plus_k]; trivial
          · rw [plus_w]; trivial
        · rw [plus_discard]; trivial

/-- An operand code that is not shared names a vector register of its thread's lane, or nothing. -/
theorem dreg_private (s : State) (c : Ctx) (t : Th) (code : BitVec 6) (h : sharedDst code = false) :
    (∃ m, s.dreg c t code = .v m) ∨ s.dreg c t code = .discard := by
  unfold sharedDst at h
  have h55 : code.toNat < 55 := by simpa using h
  unfold State.dreg
  dsimp only
  split
  · exact .inl ⟨_, rfl⟩
  · split
    · exact .inl ⟨_, rfl⟩
    · split
      · next hc => omega
      · rw [if_neg (by omega)]; exact .inr rfl

theorem leads_unique {act : List Th} {t u : Th} (ht : leads act t = true) (hu : leads act u = true) (h : t.wid = u.wid) :
    t = u := by
  unfold leads at ht hu
  simp only [decide_eq_true_eq] at ht hu
  rw [h] at ht
  rw [ht] at hu
  exact Option.some.inj hu

theorem sameReg_v {t u : Th} {m j : Nat} {q : DReg} (h : SameReg t ((DReg.v m).plus j) u q) : t.wid = u.wid ∧ t.lane = u.lane := by
  rw [plus_v] at h
  cases q with
  | v n => exact ⟨h.1, h.2.1⟩
  | _ => exact absurd h.2 id

/-- The deliveries of distinct threads do not meet. -/
theorem writes_apart (s : State) (c : Ctx) (code : BitVec 6) (act : List Th) (o p : (Th × Out) × DReg)
    (hp : p.2 = s.dreg c p.1.1 code) (hne : o.1.1.lane ≠ p.1.1.lane)
    (hl : sharedDst code = true → leads act o.1.1 = true) (i : Nat) : ¬ Writes code act p o.1.1 (o.2.plus i) := by
  rintro ⟨hw, j, -, hs⟩
  cases hc : sharedDst code with
  | true =>
    have := leads_unique (hw hc) (hl hc) hs.1
    exact hne (by rw [this])
  | false =>
    rcases dreg_private s c p.1.1 code hc with ⟨m, hm⟩ | hm
    · rw [hp, hm] at hs
      exact hne (sameReg_v hs).2.symm
    · rw [hp, hm, plus_discard] at hs
      exact not_sameReg_discard _ _ _ hs

theorem nodup_eraseDups {α : Type} [BEq α] [LawfulBEq α] (l : List α) : l.eraseDups.Nodup := by
  induction hn : l.length using Nat.strongRecOn generalizing l with
  | _ n ih =>
    cases l with
    | nil => simp
    | cons a l =>
      rw [List.eraseDups_cons, List.nodup_cons]
      refine ⟨?_, ih _ ?_ _ rfl⟩
      · simp [List.mem_eraseDups]
      · subst hn
        exact Nat.lt_succ_of_le (List.length_filter_le _ _)

/-- What delivering the results of active threads and going on does (R7, R66, R120, R152, R153, R224). -/
theorem computes_of_commit (s : State) (f : Focus) (c : Ctx) (hu : c.u = s.unitAt f) (act : List Th)
    (hsub : ∀ t ∈ act, t ∈ c.u.th) (hlane : (act.map (·.lane)).Nodup) (code : BitVec 6) (n : Nat) (out : Th → Out)
    (hf : FitOuts s c code act n out) (by_ : List Th) :
    Computes s (((s.commit c code (act.map fun t => (t, out t))).advance c.u c.len).meterVec by_) c act code n out := by
  have hmem : ∀ t ∈ act, s.warps.find t.wid ≠ none := fun t ht => by
    obtain ⟨k, -, h, -⟩ := inPart_of_mem s f (hu ▸ hsub t ht)
    exact h
  have hfst : (act.map fun t => ((t, out t) : Th × Out)).map (·.1) = act := by
    rw [List.map_map]; exact List.map_id _
  let l := (act.map fun t => ((t, out t) : Th × Out)).map fun o => (o, s.dreg c o.1 code)
  have hl : ∀ o ∈ l, o.1.1 ∈ act ∧ o.1.2 = out o.1.1 ∧ o.2 = s.dreg c o.1.1 code := by
    intro o ho
    simp only [l, List.map_map, List.mem_map, Function.comp] at ho
    obtain ⟨t, ht, rfl⟩ := ho
    exact ⟨ht, rfl, rfl⟩
  have hlm : ∀ t ∈ act, ((t, out t), s.dreg c t code) ∈ l := fun t ht => by
    simp only [l, List.map_map, List.mem_map, Function.comp]
    exact ⟨t, ht, rfl⟩
  let s1 := l.foldl (deliver code act) s
  have hs1 : s.commit c code (act.map fun t => (t, out t)) = (widsOf act).foldl (fun s wid =>
      s.addFx wid (fxOfWarp act out wid)) s1 := by
    rw [commit_eq, hfst]
    congr 1
    funext a w
    congr 2
    simp [List.filter_map, Function.comp_def]
  let s2 := s.commit c code (act.map fun t => (t, out t))
  let t := (s2.advance c.u c.len).meterVec by_
  have hst : WarpsBy SameStill s2 t := by
    have h1 := (quiet_moveUnit s2 c.u fun _ => fallThrough c.u c.len).2
    exact WarpsBy.trans SameStill.trans h1 (quiet_meterVec _ by_).2
  have hq : Quiet SameFrozen s2 t := by
    have h1 := quiet_moveUnit s2 c.u fun _ => fallThrough c.u c.len
    have h2 := Quiet.trans SameStill.trans h1 (quiet_meterVec (s2.advance c.u c.len) by_)
    refine ⟨h2.1, WarpsBy.mono (fun w v h => ?_) h2.2⟩
    have h3 := congrArg Warp.frozen (show v.still = w.still from h)
    exact h3
  have hall : Quiet SameFrozen s t := 
    Quiet.trans SameFrozen.trans ⟨(quiet_commit s c code _).1, WarpsBy.mono (fun _ _ h => h.1) (quiet_commit s c code _).2⟩ hq
  have hr : ∀ o ∈ l, ∀ j < o.1.2.regs.length, DReg.small (o.2.plus j) := by
    intro o ho j hj
    obtain ⟨h1, h2, h3⟩ := hl o ho
    rw [h3]
    rw [h2] at hj
    exact hf.fits _ h1 j hj
  have hw : ∀ o ∈ l, s.warps.find o.1.1.wid ≠ none := fun o ho => hmem _ (hl o ho).1
  have hdist : ∀ a ∈ act, ∀ b ∈ act, a.lane = b.lane → a = b := fun a ha b hb h =>
    List.inj_on_of_nodup_map hlane ha hb h
  have hpred : ∀ u m, t.pred u m = s1.pred u m := fun u m => by
    rw [still_pred hst, show s2 = _ from hs1, addFxs_pred]
  have hreg : ∀ u q, t.getReg u q = s1.getReg u q := fun u q => by
    rw [still_getReg hst, show s2 = _ from hs1, addFxs_getReg]
  have hnd : (l.map (·.1.1)).Nodup := by
    have : l.map (·.1.1) = act := by simp [l, Function.comp_def]
    rw [this]; exact hlane.of_map
  refine ⟨?_, ?_, ?_, ?_, ?_, ?_, ?_, hall.1⟩
  · intro th hth hlead hdis j r hj
    show t.getReg _ _ = r
    rw [hreg]
    refine delivers_getReg code act l s hw hr hnd (hlm th hth) (fun p hp hne i => ?_) hlead hdis hj
    exact writes_apart s c code act ((th, out th), s.dreg c th code) p (hl p hp).2.2
      (fun he => hne (hdist _ (hl p hp).1 _ hth he.symm)) hlead i
  · intro th hth p hp
    show t.pred _ _ = _
    rw [hpred]
    exact delivers_pred code act l s hw hnd (hlm th hth) (hf.nodup th hth) (hf.low th hth) hp
  · intro wid
    have key : counts (t.warp wid) = grown (counts (s.warp wid)) (fxOfWarp act out wid) := by
      rw [still_counts hst, show s2 = _ from hs1]
      have hsame : counts (s1.warp wid) = counts (s.warp wid) :=
        (WarpsBy.warp (Delivered.refl _) (quiet_delivers code act l s).2 wid).2.1
      cases hf : s1.warps.find wid with
      | none =>
        have hno : wid ∉ widsOf act := by
          intro hm
          unfold widsOf at hm
          rw [List.mem_eraseDups, List.mem_map] at hm
          obtain ⟨u, hu, rfl⟩ := hm
          exact delivers_ne_none code act l s _ (hmem u hu) hf
        have hnone : fxOfWarp act out wid = {} := by
          unfold fxOfWarp
          rw [List.filter_eq_nil_iff.mpr]
          · rfl
          · intro u hu he
            apply hno
            unfold widsOf
            rw [List.mem_eraseDups, List.mem_map]
            exact ⟨u, hu, by simpa using he⟩
        rw [hnone, grown_none, ← hsame]
        have h2 := addFxs_none (fxOfWarp act out) (widsOf act) s1 wid hf
        simp [State.warp, Tbl.getD, h2, hf]
      | some w =>
        rw [addFxs_counts _ _ _ _ (by rw [hf]; simp) (by unfold widsOf; exact nodup_eraseDups _), hsame]
        split
        · rfl
        · next hno =>
          have hnone : fxOfWarp act out wid = {} := by
            unfold fxOfWarp
            rw [List.filter_eq_nil_iff.mpr]
            · rfl
            · intro u hu he
              apply hno
              unfold widsOf
              rw [List.mem_eraseDups, List.mem_map]
              exact ⟨u, hu, by simpa using he⟩
          rw [hnone, grown_none]
    have h1 := congrArg Prod.fst key
    have h2 := congrArg (fun x => x.2.1) key
    have h3 := congrArg (fun x => x.2.2) key
    exact ⟨h1, h2, h3⟩
  · intro th hth
    have hp : InPart s2 c.u th := by
      obtain ⟨k, hk, hw, g, hg, h⟩ := inPart_of_mem s f (hu ▸ hth)
      have hc := (quiet_commit s c code (act.map fun t => (t, out t))).2 th.wid
      rcases hc with ⟨a, -⟩ | ⟨w, v, a, b, h2⟩
      · exact absurd a hw
      · refine ⟨k, hu ▸ hk, by show s2.warps.find th.wid ≠ none; rw [show s2.warps.find th.wid = some v from b]; simp, g, ?_, h⟩
        have e1 : s.warp th.wid = w := by simp [State.warp, Tbl.getD, a]
        have e2 : s2.warp th.wid = v := by simp [State.warp, Tbl.getD, show s2.warps.find th.wid = some v from b]
        rw [e2, h2.2, ← e1]; exact hg
    have := moveUnit_at s2 c.u (fun _ => fallThrough c.u c.len) hp
    obtain ⟨g, hg, h⟩ := this
    refine ⟨g, ?_, h⟩
    have he : t.warp th.wid = (s2.advance c.u c.len).warp th.wid := by
      simp only [t, State.warp, meterVec_warps]
    rw [he]; exact hg
  · intro th r hr2 hno
    show t.getReg _ _ = _
    rw [hreg]
    refine delivers_getReg_ne code act l s th r hw hr2 hr (fun o ho hwr => ?_)
    obtain ⟨-, j, hj, hs⟩ := hwr
    obtain ⟨h1, h2, h3⟩ := hl o ho
    rw [h3] at hs
    rw [h2] at hj
    exact hno _ h1 j (Nat.lt_of_lt_of_le hj (hf.len _ h1)) hs
  · intro th m hno
    show t.pred _ _ = _
    rw [hpred]
    refine delivers_pred_ne code act l s th m (fun o ho he => ?_)
    obtain ⟨h1, h2, -⟩ := hl o ho
    rw [h2]
    exact hno _ h1 he.symm
  · intro wid
    rcases hall.2 wid with ⟨a, b⟩ | ⟨w, v, a, b, h⟩
    · rw [a, show t.warps.find wid = none from b]
    · rw [a, show t.warps.find wid = some v from b]
      exact congrArg some h

/-! ### The shapes of instruction -/

/-- What the checks of R150 say when they pass. -/
theorem gate_go {s : State} {c : Ctx} {k : Checks} {act : List Th} (h : s.gate c k = .go act) :
    k.static = none ∧ act = s.active c k.q ∧ (act = [] → k.unc = true) ∧ s.waitsReg c k act = false ∧
      s.readsMarked c k act = false ∧ s.dynamic c k act = none := by
  unfold State.gate at h
  split at h
  · cases h
  · next hs =>
    dsimp only at h
    split at h
    · cases h
    · next h1 =>
      split at h
      · cases h
      · next h2 =>
        split at h
        · cases h
        · next h3 =>
          split at h
          · cases h
          · next h4 =>
            cases h
            refine ⟨hs, rfl, ?_, by simpa using h2, by simpa using h3, h4⟩
            intro he
            simpa [he] using h1

theorem active_lanes (s : State) (f : Focus) (c : Ctx) (hu : c.u = s.unitAt f) (q : BitVec 2) :
    ((s.active c q).map (·.lane)).Nodup := by
  refine ((active_sub s c q).map _).nodup ?_
  rw [hu]; exact threadsOf_lanes _

/-- Results of at most two registers always fit. -/
theorem fitOuts_two {s : State} {c : Ctx} {code : BitVec 6} {act : List Th} {n : Nat} {out : Th → Out}
    (h : ∀ t, (out t).regs.length ≤ n) (hn : n ≤ 2) (hd : ∀ t, ((out t).preds.map (·.1)).Nodup)
    (hl : ∀ t, ∀ p ∈ (out t).preds, p.1 < 16) : FitOuts s c code act n out :=
  ⟨fun t _ => h t, fun t _ j hj => dreg_small s c t code (by have := h t; omega), fun t _ => hd t, fun t _ => hl t⟩

theorem alu_computes {s : State} {i : Instr} {k : Checks} {sem : Vals → Out} {act : List Th}
    (h : s.gate (s.ctx i) k = .go act) (n : Nat) (hf : FitOuts s (s.ctx i) k.d.code act n fun t => sem (s.vals (s.ctx i) k t)) :
    ∃ t, alu s i k sem = .next t ∧
      Computes s t (s.ctx i) act k.d.code n fun t => sem (s.vals (s.ctx i) k t) := by
  refine ⟨_, by unfold alu; dsimp only; rw [h], ?_⟩
  obtain ⟨-, ha, -⟩ := gate_go h
  exact computes_of_commit s s.focus (s.ctx i) rfl act (fun t ht => (active_sub s _ _).subset (ha ▸ ht))
    (ha ▸ active_lanes s s.focus _ rfl _) _ n _ hf act

theorem aluAll_computes {s : State} {i : Instr} {k : Checks} {sem : Ctx → List Th → Th → Out} {act : List Th}
    (h : s.gate (s.ctx i) k = .go act) (n : Nat) (hf : FitOuts s (s.ctx i) k.d.code act n (sem (s.ctx i) act)) :
    ∃ t, aluAll s i k sem = .next t ∧ Computes s t (s.ctx i) act k.d.code n (sem (s.ctx i) act) := by
  refine ⟨_, by unfold aluAll; dsimp only; rw [h], ?_⟩
  obtain ⟨-, ha, -⟩ := gate_go h
  exact computes_of_commit s s.focus (s.ctx i) rfl act (fun t ht => (active_sub s _ _).subset (ha ▸ ht))
    (ha ▸ active_lanes s s.focus _ rfl _) _ n _ hf act

theorem map_congr_mem {α β : Type} {f g : α → β} {l : List α} (h : ∀ a ∈ l, f a = g a) : l.map f = l.map g :=
  List.map_congr_left h

theorem compareAll_computes {s : State} {i : Instr} {d : BitVec 6} {k : Checks} {sem : Vals → Out} {act : List Th}
    (h : s.gate (s.ctx i) { k with unc := cmpType d = 1 } = .go act)
    (hf : FitOuts s (s.ctx i) 52 act 0 fun t => sem (s.vals (s.ctx i) k t)) :
    ∃ t, compareAll s i d k sem = .next t ∧
      Computes s t (s.ctx i) (if cmpType d = 1 then act ++ (s.ctx i).u.th.filter (fun t => !(act.contains t)) else act) 52 0
        (cmpOuts d act fun t => sem (s.vals (s.ctx i) k t)) := by
  refine ⟨_, by unfold compareAll; dsimp only; rw [h], ?_⟩
  obtain ⟨-, ha, -⟩ := gate_go h
  have hsub : ∀ t ∈ act, t ∈ (s.ctx i).u.th := fun t ht => (active_sub s _ _).subset (ha ▸ ht)
  have hlow : 2 * cmpPair d + 1 < 16 := by
    unfold cmpPair
    have := (d.extractLsb' 0 3).isLt
    omega
  have hfit : ∀ l, FitOuts s (s.ctx i) 52 l 0 (cmpOuts d act fun t => sem (s.vals (s.ctx i) k t)) := by
    intro l
    have hlen : ∀ t ∈ l, (cmpOuts d act (fun t => sem (s.vals (s.ctx i) k t)) t).regs.length ≤ 0 := by
      intro t _
      unfold cmpOuts; split
      · next hc => exact hf.len t (by simpa using hc)
      · exact Nat.le_refl 0
    refine ⟨hlen, fun t ht j hj => absurd hj (by have := hlen t ht; omega), fun t _ => ?_, fun t _ p hp => ?_⟩
    · unfold cmpOuts; split
      · next hc => exact hf.nodup t (by simpa using hc)
      · simp
    · unfold cmpOuts at hp
      split at hp
      · next hc => exact hf.low t (by simpa using hc) p hp
      · simp only [List.mem_cons, List.not_mem_nil, or_false] at hp
        rcases hp with rfl | rfl <;> omega
  have hact : act.map (fun t => (t, sem (s.vals (s.ctx i) k t))) =
      act.map fun t => (t, cmpOuts d act (fun t => sem (s.vals (s.ctx i) k t)) t) :=
    map_congr_mem fun t ht => by simp [cmpOuts, ht]
  have hthl : ((s.ctx i).u.th.map (·.lane)).Nodup := threadsOf_lanes _
  by_cases hd : cmpType d = 1
  · simp only [hd, if_true]
    have hoff : ((s.ctx i).u.th.filter fun t => !(act.contains t)).map
        (fun t => (t, ({ preds := [(2 * cmpPair d, false), (2 * cmpPair d + 1, false)] } : Out))) =
        ((s.ctx i).u.th.filter fun t => !(act.contains t)).map
          fun t => (t, cmpOuts d act (fun t => sem (s.vals (s.ctx i) k t)) t) :=
      map_congr_mem fun t ht => by
        rw [List.mem_filter] at ht
        have hc : act.contains t = false := by simpa using ht.2
        unfold cmpOuts
        rw [hc]; rfl
    rw [hact, hoff, ← List.map_append]
    refine computes_of_commit s s.focus (s.ctx i) rfl _ ?_ ?_ _ _ _ (hfit _) act
    · intro t ht
      rcases List.mem_append.mp ht with ht | ht
      · exact hsub t ht
      · exact (List.mem_filter.mp ht).1
    · rw [List.map_append, List.nodup_append]
      refine ⟨ha ▸ active_lanes s s.focus _ rfl _, (List.filter_sublist.map _).nodup hthl, ?_⟩
      intro a ha1 b hb1 hab
      subst hab
      rw [List.mem_map] at ha1 hb1
      obtain ⟨t, ht, rfl⟩ := ha1
      obtain ⟨u, hu, he⟩ := hb1
      rw [List.mem_filter] at hu
      have := List.inj_on_of_nodup_map hthl (hsub t ht) hu.1 he.symm
      subst this
      simp [ht] at hu
  · simp only [hd, if_false, List.map_nil, List.append_nil]
    rw [hact]
    exact computes_of_commit s s.focus (s.ctx i) rfl _ hsub (ha ▸ active_lanes s s.focus _ rfl _) _ _ _ (hfit _) act

end Sys2Proof.Laws
end

