-- ==== Sys2Proof/Laws/Leaves.lean ====
section
/-! SUPPORT. What each shared update of the state leaves as it was, in the terms of `Leaves` (Sys2Proof/Safety.lean). -/
namespace Sys2Proof.Laws
open Sys2Proof.Machine

theorem sameTbl_refl {α β : Type} {new : Nat → Prop} (f : α → β) (a : Tbl α) : SameTbl new f a a := fun _ _ => rfl
theorem sameTbl_trans {α β : Type} {new : Nat → Prop} {f : α → β} {a b c : Tbl α} (h : SameTbl new f a b)
    (g : SameTbl new f b c) : SameTbl new f a c := fun k hk => (g k hk).trans (h k hk)
theorem sameTbl_weaken {α β γ : Type} {new : Nat → Prop} {f : α → β} {a b : Tbl α} (h : SameTbl (fun _ => False) f a b)
    (g : β → γ) : SameTbl new (fun x => g (f x)) a b := fun k _ => by
  have := congrArg (Option.map g) (h k id)
  simpa [Option.map_map, Function.comp_def] using this

theorem Leaves.refl (s : State) (F : MayChange) : Leaves s s F :=
  ⟨sameTbl_refl _ _, sameTbl_refl _ _, sameTbl_refl _ _, sameTbl_refl _ _, sameTbl_refl _ _, sameTbl_refl _ _,  fun _ => rfl, fun _ _ => rfl, fun _ h _ => h, rfl⟩

theorem Leaves.trans {s t u : State} {F : MayChange} (h : Leaves s t F) (g : Leaves t u F) : Leaves s u F :=
  ⟨sameTbl_trans h.warps g.warps, sameTbl_trans h.parts g.parts, sameTbl_trans h.blocks g.blocks, sameTbl_trans h.gangs g.gangs,
    sameTbl_trans h.launches g.launches, sameTbl_trans h.ops g.ops, fun c => (g.cores c).trans (h.cores c),
    fun k hk => (g.accs k hk).trans (h.accs k hk), fun x hx hn => g.upsets x (h.upsets x hx hn) hn, g.rest.trans h.rest⟩

/-- What leaves everything leaves what a frame names. -/
theorem Leaves.weaken {s t : State} (h : Leaves s t) (F : MayChange) : Leaves s t F where
  warps := sameTbl_weaken h.warps F.warp
  parts := sameTbl_weaken h.parts F.part
  blocks := sameTbl_weaken h.blocks F.block
  gangs := sameTbl_weaken h.gangs F.gang
  launches := sameTbl_weaken h.launches F.launch
  ops := sameTbl_weaken h.ops F.op
  cores c := congrArg F.core (h.cores c)
  accs k _ := by
    have : t.accs.find k = s.accs.find k := by simpa using h.accs k id
    rw [this]
  upsets u hu _ := h.upsets u hu id
  rest := congrArg F.rest h.rest

theorem leaves_onWarp (F : MayChange) (s : State) (k : Nat) (f : Warp → Warp)
    (hf : ∀ w, F.warp (f w).still = F.warp w.still) : Leaves s (s.onWarp k f) F where
  warps j _ := by
    rw [onWarp_find]; split
    · next h => subst h; cases s.warps.find j <;> simp [hf]
    · rfl
  parts := by simpa using sameTbl_refl _ _
  blocks := by simpa using sameTbl_refl _ _
  gangs := by simpa using sameTbl_refl _ _
  launches := by simpa using sameTbl_refl _ _
  ops := by simpa using sameTbl_refl _ _
  cores c := by simp [State.coreRegs]
  accs := by simp
  upsets u hu _ := by simpa using hu
  rest := by simp [State.bare]

theorem leaves_onPart (F : MayChange) (s : State) (k : Nat) (f : Part → Part) (hf : ∀ P, F.part (f P) = F.part P) :
    Leaves s (s.onPart k f) F where
  warps := by simpa using sameTbl_refl _ _
  parts j _ := by
    rw [onPart_find]; split
    · next h => subst h; cases s.parts.find j <;> simp [hf]
    · rfl
  blocks := by simpa using sameTbl_refl _ _
  gangs := by simpa using sameTbl_refl _ _
  launches := by simpa using sameTbl_refl _ _
  ops := by simpa using sameTbl_refl _ _
  cores c := by simp [State.coreRegs]
  accs := by simp
  upsets u hu _ := by simpa using hu
  rest := by simp [State.bare]

theorem leaves_onBlock (F : MayChange) (s : State) (k : Nat) (f : Block → Block) (hf : ∀ P, F.block (f P) = F.block P) :
    Leaves s (s.onBlock k f) F where
  warps := by simpa using sameTbl_refl _ _
  parts := by simpa using sameTbl_refl _ _
  blocks j _ := by
    rw [onBlock_find]; split
    · next h => subst h; cases s.blocks.find j <;> simp [hf]
    · rfl
  gangs := by simpa using sameTbl_refl _ _
  launches := by simpa using sameTbl_refl _ _
  ops := by simpa using sameTbl_refl _ _
  cores c := by simp [State.coreRegs]
  accs := by simp
  upsets u hu _ := by simpa using hu
  rest := by simp [State.bare]

theorem leaves_onGang (F : MayChange) (s : State) (k : Nat) (f : Gang → Gang) (hf : ∀ P, F.gang (f P) = F.gang P) :
    Leaves s (s.onGang k f) F where
  warps := by simpa using sameTbl_refl _ _
  parts := by simpa using sameTbl_refl _ _
  blocks := by simpa using sameTbl_refl _ _
  gangs j _ := by
    rw [onGang_find]; split
    · next h => subst h; cases s.gangs.find j <;> simp [hf]
    · rfl
  launches := by simpa using sameTbl_refl _ _
  ops := by simpa using sameTbl_refl _ _
  cores c := by simp [State.coreRegs]
  accs := by simp
  upsets u hu _ := by simpa using hu
  rest := by simp [State.bare]

theorem leaves_onOp (F : MayChange) (s : State) (k : Nat) (f : EngineOp → EngineOp) (hf : ∀ P, F.op (f P) = F.op P) :
    Leaves s (s.onOp k f) F where
  warps := by simpa using sameTbl_refl _ _
  parts := by simpa using sameTbl_refl _ _
  blocks := by simpa using sameTbl_refl _ _
  gangs := by simpa using sameTbl_refl _ _
  launches := by simpa using sameTbl_refl _ _
  ops j _ := by
    rw [onOp_find]; split
    · next h => subst h; cases s.ops.find j <;> simp [hf]
    · rfl
  cores c := by simp [State.coreRegs]
  accs := by simp
  upsets u hu _ := by simpa using hu
  rest := by simp [State.bare]

theorem coreRegs_onCore (s : State) (k c : Nat) (f : Core → Core) :
    (s.onCore k f).coreRegs c = if c = k then f (s.coreRegs c) else s.coreRegs c := by
  unfold State.onCore State.coreRegs Tbl.getD
  simp only [find_put]
  split
  · next h => subst h; rfl
  · rfl

theorem leaves_onCore (F : MayChange) (s : State) (k : Nat) (f : Core → Core) (hf : ∀ P, F.core (f P) = F.core P) :
    Leaves s (s.onCore k f) F where
  warps := by simpa using sameTbl_refl _ _
  parts := by simpa using sameTbl_refl _ _
  blocks := by simpa using sameTbl_refl _ _
  gangs := by simpa using sameTbl_refl _ _
  launches := by simpa using sameTbl_refl _ _
  ops := by simpa using sameTbl_refl _ _
  cores c := by rw [coreRegs_onCore]; split <;> simp [hf]
  accs := by simp
  upsets u hu _ := by simpa using hu
  rest := by simp [State.bare]

/-- An update of plain fields only. -/
theorem leaves_plain {F : MayChange} {s t : State} (hr : F.rest t.bare = F.rest s.bare) (hw : t.warps = s.warps)
    (hp : t.parts = s.parts) (hb : t.blocks = s.blocks) (hg : t.gangs = s.gangs) (hl : t.launches = s.launches)
    (ho : t.ops = s.ops) (hc : t.cores = s.cores) (ha : t.accs = s.accs)
    (hu : ∀ u ∈ s.upsets, ¬ F.upset u → u ∈ t.upsets) : Leaves s t F where
  warps := hw ▸ sameTbl_refl _ _
  parts := hp ▸ sameTbl_refl _ _
  blocks := hb ▸ sameTbl_refl _ _
  gangs := hg ▸ sameTbl_refl _ _
  launches := hl ▸ sameTbl_refl _ _
  ops := ho ▸ sameTbl_refl _ _
  cores c := by unfold State.coreRegs; rw [hc]
  accs k _ := by rw [ha]
  upsets := hu
  rest := hr

theorem leaves_foldl {α : Type} (F : MayChange) (f : State → α → State) (hf : ∀ s a, Leaves s (f s a) F) (l : List α)
    (s : State) : Leaves s (l.foldl f s) F :=
  foldl_inv (fun a b => Leaves a b F) (fun b => Leaves.refl b F) (fun _ _ _ => Leaves.trans) f hf l s

theorem leaves_moveUnit (F : MayChange) (s : State) (u : IssueUnit) (next : Th → Tgt) : Leaves s (s.moveUnit u next) F := by
  have h := moveUnit_frozen s u next
  refine Leaves.weaken ?_ F
  refine ⟨?_, ?_, ?_, ?_, ?_, ?_, ?_, ?_, ?_, ?_⟩
  · intro k _
    rcases moveUnit_warps s u next k with ⟨a, b⟩ | ⟨w, v, a, b, hh⟩
    · rw [a, b]
    · rw [a, b]; exact congrArg some hh
  · have := congrArg State.parts h; exact this ▸ sameTbl_refl _ _
  · have := congrArg State.blocks h; exact this ▸ sameTbl_refl _ _
  · have := congrArg State.gangs h; exact this ▸ sameTbl_refl _ _
  · have := congrArg State.launches h; exact this ▸ sameTbl_refl _ _
  · have := congrArg State.ops h; exact this ▸ sameTbl_refl _ _
  · intro c; have := congrArg State.cores h
    exact congrArg (fun x : Tbl Core => Tbl.getD x c {}) this
  · intro k _; have := congrArg State.accs h
    exact congrArg (fun x : Tbl Access => (Tbl.find x k).bind _) this
  · intro x hx _
    have := congrArg State.upsets h
    exact (show (s.moveUnit u next).upsets = s.upsets from this) ▸ hx
  · have h2 := congrArg State.bare h
    exact h2

theorem leaves_advance (F : MayChange) (s : State) (u : IssueUnit) (len : Nat) : Leaves s (s.advance u len) F :=
  leaves_moveUnit F s u _

theorem leaves_meter (F : MayChange) (hF : F.part = Part.frozen) (s : State) (p k n : Nat) : Leaves s (s.meter p k n) F :=
  leaves_onPart F s p _ fun P => by rw [hF]; rfl

theorem leaves_meterVec (F : MayChange) (hF : F.part = Part.frozen) (s : State) (act : List Th) :
    Leaves s (s.meterVec act) F := by
  unfold State.meterVec
  cases act with
  | nil => exact Leaves.refl s F
  | cons t l => exact leaves_meter F hF s _ _ _

theorem leaves_dissolve (F : MayChange) (s : State) (mem : List (Nat × Nat)) : Leaves s (s.dissolve mem) F :=
  leaves_plain rfl rfl rfl rfl rfl rfl rfl rfl rfl fun _ h _ => h

theorem leaves_stall (F : MayChange) (s : State) : Leaves s s.stall F :=
  leaves_plain rfl rfl rfl rfl rfl rfl rfl rfl rfl fun _ h _ => h

/-- The unit of a context goes on, whatever was done before the move as long as each warp's groups are still there. -/
theorem goesOn_advance {s s' : State} {i : Instr}
    (h : ∀ wid, (s'.warps.find wid).map Warp.groups = (s.warps.find wid).map Warp.groups) :
    GoesOn (s'.advance (s.ctx i).u (s.ctx i).len) (s.ctx i) := by
  intro th hth
  obtain ⟨k, hk, hw, hr⟩ := inPart_of_mem s s.focus (th := th) hth
  have e := h th.wid
  cases hf : s.warps.find th.wid with
  | none => exact absurd hf hw
  | some w =>
    cases hf' : s'.warps.find th.wid with
    | none => rw [hf, hf'] at e; exact absurd e (by simp)
    | some w' =>
      rw [hf, hf'] at e
      refine moveUnit_at s' _ _ ⟨k, hk, by simp [hf'], ?_⟩
      have : (s'.warp th.wid).groups = (s.warp th.wid).groups := by
        simpa [State.warp, Tbl.getD, hf, hf'] using e
      unfold RunsIn at hr ⊢
      rw [this]; exact hr

theorem at_meter {s : State} {th : Th} {tg : Tgt} {act : List Th} (h : s.At th tg) : (s.meterVec act).At th tg := by
  unfold State.At State.warp at h ⊢
  rw [meterVec_warps]; exact h

/-- A change of warps that leaves their groups. -/
theorem groups_onWarp (s : State) (k : Nat) (f : Warp → Warp) (hf : ∀ w, (f w).groups = w.groups) (j : Nat) :
    ((s.onWarp k f).warps.find j).map Warp.groups = (s.warps.find j).map Warp.groups := by
  rw [onWarp_find]; split
  · next h => subst h; cases s.warps.find j <;> simp [hf]
  · rfl

theorem groups_foldl {α : Type} (f : State → α → State)
    (hf : ∀ s a j, ((f s a).warps.find j).map Warp.groups = (s.warps.find j).map Warp.groups) (l : List α) (s : State)
    (j : Nat) : ((l.foldl f s).warps.find j).map Warp.groups = (s.warps.find j).map Warp.groups := by
  induction l generalizing s with
  | nil => rfl
  | cons a l ih => exact (ih _).trans (hf s a j)

end Sys2Proof.Laws
end

