-- ==== Sys2Proof/Laws/Send.lean ====
section
/-! SUPPORT. What sending accesses does, in the terms of `Sent` (Sys2Proof/Safety.lean), and what a memory instruction that
nothing stops comes to. -/
namespace Sys2Proof.Laws
open Sys2Proof.Machine

/-- Values put under numbers that rise from a base. -/
def putAll {α : Type} (m : Tbl α) (base k : Nat) (l : List α) : Tbl α :=
  (l.zipIdx k).foldl (fun m a => m.put (base + a.2) a.1) m

theorem find_putAll {α : Type} (l : List α) (m : Tbl α) (base k q : Nat) :
    (putAll m base k l).find q =
      if base + k ≤ q ∧ q < base + k + l.length then l[q - (base + k)]? else m.find q := by
  induction l generalizing m k with
  | nil => simp only [putAll, List.zipIdx_nil, List.foldl_nil, List.length_nil]; rw [if_neg (by omega)]
  | cons a l ih =>
    have e : putAll m base k (a :: l) = putAll (m.put (base + k) a) base (k + 1) l := rfl
    rw [e, ih, find_put]
    simp only [List.length_cons]
    by_cases h1 : q = base + k
    · subst h1
      rw [if_neg (by omega), if_pos rfl, if_pos (by omega)]
      simp
    · rw [if_neg h1]
      by_cases h2 : base + (k + 1) ≤ q ∧ q < base + (k + 1) + l.length
      · rw [if_pos h2, if_pos (by omega), show q - (base + k) = (q - (base + (k + 1))) + 1 by omega]
        simp
      · rw [if_neg h2, if_neg (by omega)]

theorem put_last {α : Type} (m : Tbl α) (k : Nat) (x : α) (h : ∀ p ∈ m, p.1 < k) : Tbl.put m k x = m ++ [(k, x)] := by
  induction m with
  | nil => rfl
  | cons p m ih =>
    have h1 := h p (by simp)
    simp only [Tbl.put]
    rw [if_neg (by omega), if_neg (by omega), ih fun q hq => h q (by simp [hq])]
    rfl

theorem putAll_last {α : Type} (l : List α) (m : Tbl α) (base k : Nat) (h : ∀ p ∈ m, p.1 < base + k) :
    putAll m base k l = m ++ (l.zipIdx k).map fun a => (base + a.2, a.1) := by
  induction l generalizing m k with
  | nil => simp [putAll]
  | cons a l ih =>
    have e : putAll m base k (a :: l) = putAll (m.put (base + k) a) base (k + 1) l := rfl
    rw [e, put_last m (base + k) a h, ih]
    · simp
    · intro p hp
      rcases List.mem_append.mp hp with hp | hp
      · have := h p hp; omega
      · simp at hp; subst hp; simp

theorem counter_count (s : State) (wid k left iid : Nat) (h : left ≠ 0) (v c : Nat) :
    (s.count wid k left iid).counter v c = s.counter v c + if v = wid ∧ c = k then 1 else 0 := by
  unfold State.count State.counter
  rw [if_neg h]
  simp only [List.filter_cons]
  by_cases hh : v = wid ∧ c = k
  · obtain ⟨rfl, rfl⟩ := hh; simp
  · rw [if_neg hh, if_neg]
    · simp
    · simp only [Bool.and_eq_true, decide_eq_true_eq]
      exact fun ⟨a, b⟩ => hh ⟨a.symm, b.symm⟩

/-- The fields that counting leaves. -/
theorem count_bare (s : State) (wid k left iid : Nat) :
    ∃ o, s.count wid k left iid = { s with outst := o } := by
  unfold State.count; split
  · exact ⟨s.outst, rfl⟩
  · exact ⟨_, rfl⟩

theorem counts_fold (f g : Nat → Nat) (k : Nat) (wids : List Nat) (hn : wids.Nodup) (hf : ∀ w ∈ wids, f w ≠ 0) (s : State) :
    (∃ o, wids.foldl (fun s' wid => s'.count wid k (f wid) (g wid)) s = { s with outst := o }) ∧
    ∀ v c, (wids.foldl (fun s' wid => s'.count wid k (f wid) (g wid)) s).counter v c =
      s.counter v c + if c = k ∧ v ∈ wids then 1 else 0 := by
  induction wids generalizing s with
  | nil => exact ⟨⟨s.outst, rfl⟩, by simp⟩
  | cons w wids ih =>
    have hn' := List.nodup_cons.mp hn
    obtain ⟨⟨o, ho⟩, hc⟩ := ih hn'.2 (fun v hv => hf v (by simp [hv])) (s.count w k (f w) (g w))
    obtain ⟨o', ho'⟩ := count_bare s w k (f w) (g w)
    refine ⟨⟨o, by rw [List.foldl_cons, ho, ho']⟩, fun v c => ?_⟩
    rw [List.foldl_cons, hc, counter_count _ _ _ _ _ (hf w (by simp))]
    by_cases h1 : c = k
    · by_cases h2 : v = w
      · subst h2; simp [h1, hn'.1]
      · simp [h1, h2]
    · simp [h1]

/-- What `send` answers. -/
theorem send_eq (s : State) (ctr : Option Nat) (l : List Access) :
    let wids := (l.map (·.wid)).eraseDups
    let news := l.map fun a => { a with iid := s.nextId + wids.idxOf a.wid, batch := s.nextId }
    (∃ o, s.send ctr l = { s with nextId := s.nextId + wids.length + l.length
                                  accs := putAll s.accs (s.nextId + wids.length) 0 news, outst := o }) ∧
    ∀ wid k, (s.send ctr l).counter wid k = s.counter wid k + if ctr = some k ∧ wid ∈ l.map (·.wid) then 1 else 0 := by
  intro wids news
  have hl : news.length = l.length := List.length_map _
  cases ctr with
  | none =>
    refine ⟨⟨s.outst, ?_⟩, fun wid k => ?_⟩
    · show ({ s with nextId := _, accs := _ } : State) = _
      simp only [hl.symm]; rfl
    · simp; rfl
  | some k =>
    have hm : ∀ w, w ∈ wids ↔ w ∈ l.map (·.wid) := fun w => by simp [wids, List.mem_eraseDups]
    have h := counts_fold (fun wid => (news.filter (·.wid = wid)).length)
      (fun wid => (((news.find? (·.wid = wid)).map (·.iid)).getD 0)) k wids (nodup_eraseDups _)
      (fun w hw => by
        have := (hm w).mp hw
        obtain ⟨a, ha, rfl⟩ := List.mem_map.mp this
        refine Nat.pos_iff_ne_zero.mp (List.length_pos_iff_exists_mem.mpr ⟨{ a with iid := s.nextId + wids.idxOf a.wid, batch := s.nextId }, ?_⟩)
        simp only [List.mem_filter, decide_eq_true_eq]
        exact ⟨List.mem_map.mpr ⟨a, ha, rfl⟩, trivial⟩)
      { s with nextId := s.nextId + wids.length + news.length, accs := putAll s.accs (s.nextId + wids.length) 0 news }
    obtain ⟨⟨o, ho⟩, hc⟩ := h
    refine ⟨⟨o, ?_⟩, fun wid c => ?_⟩
    · rw [← hl]; exact ho
    · refine (hc wid c).trans ?_
      have : (some k = some c ∧ wid ∈ l.map (·.wid)) ↔ (c = k ∧ wid ∈ wids) := by
        rw [hm]; constructor
        · rintro ⟨h, h2⟩; exact ⟨(Option.some.inj h).symm, h2⟩
        · rintro ⟨h, h2⟩; exact ⟨by rw [h], h2⟩
      simp only [this]; rfl

/-- Sending, then going on with the next word, is `Sent`. -/
theorem sent_of_send (s : State) (i : Instr) (ctr : Option Nat) (l : List Access) :
    Sent s (s.ctx i) ctr l ((s.send ctr l).advance (s.ctx i).u (s.ctx i).len) := by
  obtain ⟨⟨o, ho⟩, hc⟩ := send_eq s ctr l
  have hm := leaves_advance ({} : MayChange) (s.send ctr l) (s.ctx i).u (s.ctx i).len
  have ha : ∀ k, ((s.send ctr l).advance (s.ctx i).u (s.ctx i).len).accs.find k = (s.send ctr l).accs.find k := fun k => by
    simpa using hm.accs k id
  refine ⟨fun j a hj => ?_, fun wid k => ?_, goesOn_advance fun wid => by rw [ho], ?_⟩
  · rw [ha, ho]
    dsimp only
    rw [find_putAll]
    have hlen : j < l.length := by
      rcases Nat.lt_or_ge j l.length with h | h
      · exact h
      · rw [List.getElem?_eq_none h] at hj; cases hj
    rw [if_pos (by simp; omega)]
    simp [hj]
  · rw [← hc]
    have : ((s.send ctr l).advance (s.ctx i).u (s.ctx i).len).outst = (s.send ctr l).outst :=
by
      have h2 := congrArg State.outst hm.rest; exact h2
    unfold State.counter; rw [this]
  · refine Leaves.trans ?_ (Leaves.weaken hm _)
    rw [ho]
    refine ⟨sameTbl_refl _ _, sameTbl_refl _ _, sameTbl_refl _ _, sameTbl_refl _ _, sameTbl_refl _ _, sameTbl_refl _ _,
      fun _ => rfl, fun k hk => ?_, fun _ h _ => h, rfl⟩
    dsimp only at hk ⊢
    rw [find_putAll, if_neg (by omega)]

/-- A memory instruction whose own checks pass and that nothing holds does its effect and goes on. -/
theorem memInstr_performs {s : State} {i : Instr} {k : Checks} {addrs : Ctx → List Th → List (Th × DWord)}
    {bad : Ctx → List (Th × DWord) → Option Trap} {hold : Ctx → List Th → Option State}
    {eff : Ctx → List Th → List (Th × DWord) → State} {act : List Th} (h : s.gate (s.ctx i) k = .go act)
    (hb : bad (s.ctx i) (addrs (s.ctx i) act) = none) (hh : hold (s.ctx i) act = none) :
    memInstr s i k addrs bad hold eff =
      .next ((eff (s.ctx i) act (addrs (s.ctx i) act)).advance (s.ctx i).u (s.ctx i).len) := by
  unfold memInstr; dsimp only; rw [h]; dsimp only; rw [hb]; dsimp only; rw [hh]

/-- A memory instruction one of whose own checks fails takes that trap. -/
theorem memInstr_traps {s : State} {i : Instr} {k : Checks} {addrs : Ctx → List Th → List (Th × DWord)}
    {bad : Ctx → List (Th × DWord) → Option Trap} {hold : Ctx → List Th → Option State}
    {eff : Ctx → List Th → List (Th × DWord) → State} {act : List Th} {tr : Trap} (h : s.gate (s.ctx i) k = .go act)
    (hb : bad (s.ctx i) (addrs (s.ctx i) act) = some tr) :
    memInstr s i k addrs bad hold eff = .next (s.takeTrap (s.ctx i).u tr (s.ctx i).len) := by
  unfold memInstr; dsimp only; rw [h]; dsimp only; rw [hb]

end Sys2Proof.Laws
end

