-- ==== Sys2Proof/Machine/View.lean ====
section
/-! DEFINITION. What the host reads: the registers of a VF's BAR0 and BAR2 and of the physical function's BAR0, each a view
of the state (R359 to R362, R376, R379 to R392, R402, R425, R426, R429, R438, R447, R460, R461, R466, R470). A read changes
nothing but `pdrop`, which the event UNTRUSTED_PRIVATE_READ counts. -/
namespace Sys2Proof.Machine

/-- The byte at an offset of a run of bytes that begins at `lo`. -/
def byteIn (bs : List Byte) (lo off : Nat) : Byte := bs.getD (off - lo) 0

/-! ### BAR0 of a VF -/

/-- Parked units of a partition, saved images included (R402). -/
def State.parkedUnits (s : State) (p : Nat) : Nat :=
  let units (w : Warp) : Nat := ((w.groups.filter fun g => g.st = .parked).map (·.sliver)).eraseDups.length
  let here := (s.warps.filter fun w => s.partOf w.1 = p).map fun w => units w.2
  let saved := (s.gangs.filter fun g => (s.launch g.2.lid).part = p).flatMap fun g =>
    g.2.image.flatMap fun im => im.warps.map fun w => units w.2
  (here ++ saved).foldl (· + ·) 0

/-- `PCFG` (R360). -/
def Part.pcfg (P : Part) (p : Nat) : Nat := p % 64 + (if P.compat then 256 else 0)

/-- `PSTAT` (R402). -/
def State.pstat (s : State) (p : Nat) : Nat :=
  let P := s.part p
  min (s.parkedUnits p) 65535 + 2 ^ 16 * P.wdog + 2 ^ 24 * P.rshape

def TdSt.code : TdSt → Nat
  | .unlocked => 0
  | .locked => 1
  | .run => 2
  | .error => 3

/-- `TDSTAT` (R426). -/
def Part.tdstat (P : Part) : Nat := P.td.code + 2 ^ 8 * P.ldrop + 2 ^ 24 * P.pdrop

/-- The tick of module time since which a gang of a queue's launches holds the queue for placement (R373). -/
def State.placeWait (s : State) (p q : Nat) : Option Nat :=
  (s.gangs.find? fun g =>
    let l := s.launch g.2.lid
    g.2.waits && l.part = p && s.srcQueue l = some q && (s.placeFor g.2).isNone).map (·.2.waitFrom)

/-- `QSTAT` (R362): a queue that a gang holds for placement reads as stalled with `wait` 10 (R373). -/
def State.qstat (s : State) (p q : Nat) : Nat :=
  let Q := (s.part p).queue q
  let age (since : Nat) : Nat := 2 ^ 8 * min 255 ((s.gtime - since) / 1000000)
  if Q.st = 1 then
    match s.placeWait p q with
    | some t => 2 + 4 * 2 + age t
    | none => 1
  else if Q.st = 2 then 2 + 4 * Q.wait + age Q.since
  else Q.st + 16 * Q.err

/-- The 64 bytes that describe a queue (R361). -/
def State.queueBytes (s : State) (p q : Nat) : List Byte :=
  let Q := (s.part p).queue q
  Q.bytes ++ natLe 4 (if Q.en then 1 else 0) ++ natLe 4 (s.qstat p q) ++ natLe 4 Q.head.toNat

/-- The 32 bytes of a slot's status (R376). -/
def Slot.status (x : Slot) : List Byte :=
  natLe 8 x.fired ++ natLe 4 x.skipped ++ natLe 4 x.preempted ++ natLe 4 x.overs ++ natLe 4 x.late ++ natLe 8 x.last

/-- A byte of a VF's BAR0 (R359). -/
def State.bar0Byte (s : State) (p off : Nat) : Byte :=
  let P := s.part p
  if off < 0x10 then
    byteIn (natLe 4 (P.pcfg p) ++ natLe 4 (s.pstat p) ++ natLe 4 P.tdstat ++ natLe 4 P.tdlast.toNat) 0 off
  else if 0x800 ≤ off && off < 0xC00 then (P.msix.getD ((off - 0x800) / 16) {}).bytes.getD (off % 16) 0
  else if 0xC00 ≤ off && off < 0xC08 then byteIn (natLe 8 P.pba.toNat) 0xC00 off
  else if 0x1000 ≤ off && off < 0x2000 then (s.queueBytes p ((off - 0x1000) / 64)).getD (off % 64) 0
  else if 0x2000 ≤ off && off < 0x2800 then (P.slot ((off - 0x2000) / 32)).status.getD (off % 32) 0
  else 0

/-! ### BAR2 of a VF -/

/-- Valid lines of a class in a slice (R392). -/
def State.occupied (s : State) (tile cls : Nat) : Nat := (s.l2.filter fun l => l.tile = tile && l.cls = cls).length

/-- The 32 bytes of a tile's slice block (R392). -/
def State.sliceBlock (s : State) (tile : Nat) : List Byte :=
  ((List.range 4).flatMap fun c => natLe 2 (s.wayMask tile c).toNat) ++
  natLe 4 (if (s.wafer.sweep.find tile).isSome then 1 else 0) ++ natLe 4 0 ++
  (List.range 4).flatMap fun c => natLe 4 (s.occupied tile c)

/-- The page-table port's registers (R386). -/
def Bar2.port (b : Bar2) : List Byte :=
  natLe 8 b.ptaddr.toNat ++ natLe 8 0 ++ natLe 4 ((if b.ptpend.isSome then 1 else 0) + if b.ptrefused then 2 else 0)

/-- A byte of a VF's BAR2 (R379). -/
def State.bar2Byte (s : State) (p off : Nat) : Byte :=
  let P := s.part p
  let b := P.b2
  if off < 0x100 then (natLe 16 (b.asids.getD (off / 16) 0).toNat).getD (off % 16) 0
  else if off < 0x118 then
    byteIn (natLe 8 b.fqbase.toNat ++ natLe 4 b.fqctl.toNat ++ natLe 4 b.fqtail ++ natLe 4 b.fqhead.toNat ++
      natLe 4 b.fqlost.toNat) 0x100 off
  else if 0x180 ≤ off && off < 0x198 then
    byteIn (natLe 8 b.sdva.toNat ++ natLe 8 b.sdlen.toNat ++ natLe 4 0 ++
      natLe 4 ((if b.sdbusy then 1 else 0) + 2 ^ 16 * b.sddone.toNat)) 0x180 off
  else if 0x1C0 ≤ off && off < 0x1D4 then byteIn b.port 0x1C0 off
  else if 0x1000 ≤ off && off < 0x3000 then (natLe 2 (b.homes.getD ((off - 0x1000) / 2) 0).toNat).getD (off % 2) 0
  else if 0x4000 ≤ off && off < 0x10000 then
    match P.tiles[(off - 0x4000) / 32]? with
    | some t => (s.sliceBlock t).getD (off % 32) 0
    | none => 0
  else 0

/-! ### BAR0 of the physical function -/

/-- `YSTAT` (R429). -/
def Griermor.ystat (g : Griermor) : Nat := (if g.ybusy then 1 else 0) + 256 * g.ystatus

/-- A pool-map entry (R466). -/
def State.poolEntry (s : State) (t : Nat) : Nat :=
  let site := s.siteOf t
  let st : Nat × Nat := match s.tileSt t with
    | .free => (0, 0)
    | .spare => (1, 0)
    | .assigned p => (2, p)
    | .dead => (3, 0)
  site.1 + 2 ^ 8 * site.2 + 2 ^ 24 * st.2 + 2 ^ 30 * st.1

/-- An island's status (R460). -/
def Island.status (x : Island) : List Byte :=
  natLe 2 (x.step + 4 * x.cause) ++ natLe 2 x.lowered ++ natLe 2 x.power ++ natLe 2 0

/-- The registers of the RAS page (R438, R447). -/
def State.rasRegs (s : State) : List Byte :=
  let g := s.grm
  let t := g.rsel.toNat
  natLe 4 g.altail.toNat ++ natLe 4 g.bltail.toNat ++ natLe 4 t ++ natLe 4 (s.wafer.soft.getD t 0) ++
  natLe 4 (s.wafer.spareLane.getD t 0).toNat ++ natLe 4 (s.wafer.net.getD t 0) ++ natLe 4 g.rwarn.toNat ++ natLe 4 0 ++
  natLe 4 g.svtail.toNat

/-- A byte of a log's ring of 256 entries (R438, R447). -/
def logByte (l : Tbl (List Byte)) (off : Nat) : Byte := (l.getD (off / 32) []).getD (off % 32) 0

/-- A byte of the physical function's BAR0 (R429). -/
def State.pfByte (s : State) (off : Nat) : Byte :=
  let g := s.grm
  if off < 0x100 then Memory.rd g.yreq off
  else if off < 0x200 then Memory.rd g.yrsp (off - 0x100)
  else if 0x204 ≤ off && off < 0x208 then byteIn (natLe 4 g.ystat) 0x204 off
  else if 0x1000 ≤ off && off < 0x3000 then logByte g.alog (off - 0x1000)
  else if 0x3000 ≤ off && off < 0x5000 then logByte g.blog (off - 0x3000)
  else if 0x5000 ≤ off && off < 0x5024 then byteIn s.rasRegs 0x5000 off
  else if 0x6000 ≤ off && off < 0x8000 then logByte g.svlog (off - 0x6000)
  else if 0x8000 ≤ off && off < 0x8320 then (g.islands.getD ((off - 0x8000) / 8) {}).status.getD (off % 8) 0
  else if 0x8400 ≤ off && off < 0x8404 then byteIn (natLe 4 (s.gtskew + if g.lock then 2 ^ 31 else 0)) 0x8400 off
  else if 0x8408 ≤ off && off < 0x8410 then byteIn (natLe 8 g.toff.toNat) 0x8408 off
  else if 0x9000 ≤ off && off < 0x9000 + 4 * Config.poolTiles then
    (natLe 4 (s.poolEntry ((off - 0x9000) / 4))).getD (off % 4) 0
  else 0

/-! ### Reads -/

/-- The MSI-X Message Control word of a VF (R470; PRESUMED, log entry 24): enable, function mask, table size less one. -/
def Part.msixWord (P : Part) : Nat := (if P.msixEn then 2 ^ 15 else 0) + (if P.msixMask then 2 ^ 14 else 0) + 63

/-- A byte of a VF's configuration space, of which the spec gives the Message Control word alone (R470; log entry 24). -/
def Part.confByte (P : Part) (off : Nat) : Byte := if 2 ≤ off && off < 4 then byteIn (natLe 2 P.msixWord) 2 off else 0

/-- A private page of a VF (R359, R379). -/
def privatePage (bar off : Nat) : Bool := bar = 2 || (0x1000 ≤ off && off < 0x3000)

/-- A read by the host of n bytes (R425): an untrusted read of a private page in CONFIG_LOCKED or RUN, and every read of one
in ERROR, gives all ones; so does a function that does not exist. -/
def State.hostRead (s : State) (fn : Fn) (bar off n : Nat) (trusted : Bool) : List Byte :=
  match fn, bar with
  | .pf, 0 => (List.range n).map fun i => s.pfByte (off + i)
  | .pf, _ => List.replicate n 0
  | .vf p, _ =>
    match s.parts.find p with
    | none => List.replicate n 0xFF
    | some P =>
      if privatePage bar off && (P.td = .error || ((P.td = .locked || P.td = .run) && !trusted)) then List.replicate n 0xFF
      else (List.range n).map fun i =>
        if bar = 0 then s.bar0Byte p (off + i) else if bar = 2 then s.bar2Byte p (off + i)
        else if bar = 6 then P.confByte (off + i) else 0

end Sys2Proof.Machine
end

