-- ==== Sys2Proof/Tests/Slice0.lean ====
section
/-! SUPPORT. Tests: words of the spec's encodings, ill-formed terms, single steps with results from the spec's words, and for
each statement with hypotheses a state and operands that meet them. -/
namespace Sys2Proof.Tests
open Sys2Proof Sys2Proof.Machine

set_option Elab.async false

/-! ## States to test on -/

/-- A V3 instruction's fields. -/
def V (d a b : BitVec 6) (m : BitVec 3 := 0) (x : Word := 0) : V3 := { d := d, a := a, b := b, m := m, h := 0, q := 0, x := x }

/-- The extension word that names a third operand. -/
def X (c : BitVec 6) (low : BitVec 26 := 0) : Word := c ++ low

/-- The warp, the block, the gang and the launch of the booted machine. -/
def wid : Nat := 4
def bid : Nat := 3
def gid : Nat := 2
def lid : Nat := 1

/-- The machine in which an instruction issues next (log entry 34), for its four threads. -/
def at_ (i : Instr) : State := let ws := encode i; State.reset.boot (ws.headD 0) (ws.getD 1 0)

/-- Vector registers given to every thread. -/
def State.withV (s : State) (l : List (Nat × Reg)) : State :=
  s.onWarp wid fun w => { w with v := (List.range 4).foldl (fun (m : Tbl Reg) lane =>
    l.foldl (fun (m : Tbl Reg) r => m.put (512 * lane + r.1) r.2) m) w.v }

/-- An instruction about to issue with some registers. -/
def on (i : Instr) (l : List (Nat × Reg)) : State := State.withV (at_ i) l

/-- The checks of R150 pass for all four threads. -/
def goes (i : Instr) (k : Checks) (l : List (Nat × Reg) := []) : Bool :=
  match (on i l).gate ((on i l).ctx i) k with
  | .go act => decide (act.length = 4)
  | _ => false

/-- A register of thread 0 after an instruction has run once. -/
def out (i : Instr) (n : Nat) (l : List (Nat × Reg)) : Option Reg :=
  match exec i (on i l) with
  | .next t => some (t.getReg { wid := wid, lane := 0 } (.v n))
  | _ => none

/-- A pair of registers tagged F64. -/
def f64 (n : Nat) (v : DWord) : List (Nat × Reg) :=
  [(n, { val := v.extractLsb' 0 32, tag := 13 }), (n + 1, { val := v.extractLsb' 32 32, tag := 13 })]

def reg (n tag : Nat) (v : Word) : List (Nat × Reg) := [(n, { val := v, tag := BitVec.ofNat 4 tag })]

/-- Every test of a list is met. -/
def allTrue (l : List Bool) : Bool := l.all id

/-- No release of the threads is on its way or recorded, and no acquire: `noRelease` and `noAcquire`. -/
def noRel (s : State) (c : Ctx) (act : List Th) : Bool := act.all fun t => !(s.relPending t) && (c.trap || !(s.relRecorded t))
def noAcq (s : State) (c : Ctx) (act : List Th) : Bool := act.all fun t => !(s.acqPending t) && (c.trap || !(s.acqRecorded t))

/-! ## Witnesses: integer, bit, move and predicate instructions -/

def f1 : V3 := V 1 2 3
def f3 : V3 := V 1 2 3 0 (X 4)
def ri : RI := { d := 1, a := 2, imm := 5, q := 0 }

theorem wit_IntegerArithmetic : allTrue [
    goes (.iadd f1) (chk2 f1 (illZero 0 4) intTag),
    goes (.isub f1) (chk2 f1 (illZero 0 4) intTag),
    goes (.iaddi ri) { q := 0, opd := opdV 0 [1, 2] [1] [], a := srcInt 2, d := dst1 1 },
    goes (.iaddc f1) (chk2 f1 none intTag),
    goes (.isubb f1) (chk2 f1 none intTag),
    goes (.imul f1) (chk2 f1 (illZero 0 7) intTag),
    goes (.imulh f1) (chk2 f1 (illZero 0 6) intTag),
    goes (.imad f3) (chk3 f3 (illZero 0 7) intTag),
    goes (.imin f1) (chk2 f1 (illZero 0 6) intTag),
    goes (.imax f1) (chk2 f1 (illZero 0 6) intTag),
    goes (.iabs f1) (chk1 f1 (illZero 0 6) intTag)] = true := by decide +kernel

def fx : V3 := V 1 2 3 0 0x45

theorem wit_BitAndShiftResults : allTrue [
    goes (.bitAnd f1) (chk2 f1 (illZero 0 7) anyTag),
    goes (.bitOr f1) (chk2 f1 (illZero 0 7) anyTag),
    goes (.bitXor f1) (chk2 f1 (illZero 0 7) anyTag),
    goes (.andn f1) (chk2 f1 (illZero 0 7) anyTag),
    goes (.popc f1) (chk1 f1 (illZero 0 7) anyTag),
    goes (.clz f1) (chk1 f1 (illZero 0 7) anyTag),
    goes (.brev f1) (chk1 f1 (illZero 0 7) anyTag),
    goes (.shl f1) (chk2 f1 (illZero 0 7) anyTag),
    goes (.shr f1) (chk2 f1 (illZero 0 6) anyTag),
    goes (.rot f1) (chk2 f1 (illZero 0 6) anyTag),
    goes (.shf f3) (chk3 f3 (illZero 0 6) anyTag),
    goes (.bfx fx) { q := 0, ill := illZero 0 6, opd := opdX fx.x [1, 2] [1] [] (fx.x.extractLsb' 10 22 ≠ 0), a := srcAny 2,
                      d := dst1 1 },
    goes (.bfi fx) { q := 0, ill := illZero 0 7, opd := opdX fx.x [1, 2, 3] [1] [] (fx.x.extractLsb' 10 22 ≠ 0), a := srcAny 2,
                      b := srcAny 3 1, d := dst1 1 }] = true := by decide +kernel

def fw : RW := { d := 1, imm := 5, q := 0 }
def fu : V3 := V 56 2 0 1
def ft : V3 := V 1 0 3 1
def ft15 : V3 := V 2 0 13 1

theorem wit_MovesAndPredicateMoves : allTrue [
    goes (.mov f1) (chk1 f1 (illZero 0 7) anyTag),
    goes (.sel f1) (chk2 f1 (illZero 0 6) anyTag),
    goes (.movi fw) { q := 0, opd := opdV 0 [1] [1] [], d := dst1 1 },
    goes (.movhi fw) { q := 0, ill := illOf (fw.imm.getLsbD 16) false, opd := opdV 0 [1] [1] [], more := [srcAny 1], d := dst1 1 },
    goes (.lea (V 2 4 3)) { q := 0, opd := opdV 0 [2, 4, 3] [2] [2, 4], a := { code := 4, n := 2, ok := intTag },
                             b := srcInt 3 1, d := dst2 2 },
    goes (.umov fu) { q := 0, ill := illZero fu.m 6, opd := opdV 0 [56, 2] [56] []
                         (if fu.m.getLsbD 0 then 52 ≤ fu.a.toNat || fu.d.toNat < 55 else fu.a.toNat < 55 || 53 ≤ fu.d.toNat),
                       a := srcAny 2, d := dst1 56 },
    goes (.tag (V 1 2 0)) (chk1 (V 1 2 0) (illZero 0 6) anyTag),
    goes (.tag ft) { q := 0, ill := illOf (ft.m &&& 6 ≠ 0 || hiBits ft.b) false,
                      opd := opdV 0 [1] [1] [] false (ft.b.extractLsb' 0 4 = 15#4), d := dst1 1 },
    goes (.tag ft15) { q := 0, ill := illOf (ft15.m &&& 6 ≠ 0 || hiBits ft15.b) false,
                        opd := opdV 0 [2] [2] (if ft15.d = 55 then [ft15.d] else []) false (oddReg ft15.d), d := dst2 2 },
    goes (.nop (V 0 0 0)) { q := 0, ill := illZero 0 7 },
    goes (.plop (V 1 2 3 0 0x4AA)) { q := 0, ill := illOf (hiBits 1 || hiBits 2 || hiBits 3) false,
                                      opd := opdX 0x4AA [] [] [] ((0x4AA : Word).extractLsb' 12 20 ≠ 0) },
    goes (.pmov (V 1 2 0)) { q := 0, ill := illOf (hiBits 2) false, opd := opdV 0 [1] [1] [], d := dst1 1 },
    goes (.pmov (V 1 2 0 1)) { q := 0, ill := illOf (hiBits 1) false, opd := opdV 0 [2] [] [], a := srcAny 2 }] = true := by decide +kernel

/-- Checks of a compare with its `.unc`. -/
def cmp (k : Checks) (d : BitVec 6) : Checks := { k with unc := cmpType d = 1 }

/-- The pair of predicates 2 and 3, combined normally and by `.unc`. -/
def c0 : V3 := V 1 2 3 2
def cu : V3 := V 9 2 3 2
def cd : V3 := V 1 2 4 2
def p64 : List (Nat × Reg) := f64 2 0x3FF0000000000000 ++ f64 4 0x4000000000000000 ++ f64 6 0x4008000000000000

theorem wit_ComparesCombinePairs : allTrue [
    goes (.icmpS c0) (cmp (icmpChecks c0) 1), goes (.icmpN c0) (cmp (icmpChecks c0) 1),
    goes (.icmpS cu) (cmp (icmpChecks cu) 9), goes (.icmpN cu) (cmp (icmpChecks cu) 9),
    goes (.fcmp c0) (cmp (floatCompareChecks c0 [] (srcF32 2) (srcF32 3 1)) 1),
    goes (.dcmp cd) (cmp (floatCompareChecks cd [2, 4] (srcF64 2) (srcF64 4 1)) 1) p64] = true := by decide +kernel

/-! ## Witnesses: floating-point instructions -/

def e1 (m : BitVec 3) : V3 := V 1 2 3 m

theorem wit_SingleFloatResults : allTrue [
    goes (.fadd f1) (chk2 f1 none f32Tag), goes (.fsub f1) (chk2 f1 none f32Tag), goes (.fmul f1) (chk2 f1 none f32Tag),
    goes (.ffma f3) (fusedChecks f3 [] (srcF32 2) (srcF32 3 1) (srcF32 4 2) (dst1 1)),
    goes (.fmin f1) (chk2 f1 none f32Tag), goes (.fmax f1) (chk2 f1 none f32Tag),
    goes (.fscale f1) { q := 0, ill := illZero 0 7, opd := opdV 0 [1, 2, 3] [1] [], a := srcF32 2, b := srcInt 3 1, d := dst1 1 },
    goes (.frnd f1) (chk1 f1 (illZero 0 4) f32Tag), goes (.fclass f1) (chk1 f1 (illZero 0 7) f32Tag)] = true := by decide +kernel

def d3 : V3 := V 8 2 4
def d4 : V3 := V 8 2 4 0 (X 6)

theorem wit_DoubleFloatResults : allTrue [
    goes (.dadd d3) { q := 0, opd := opdV 0 [8, 2, 4] [8] [8, 2, 4], a := srcF64 2, b := srcF64 4 1, d := dst2 8 } p64,
    goes (.dmul d3) { q := 0, opd := opdV 0 [8, 2, 4] [8] [8, 2, 4], a := srcF64 2, b := srcF64 4 1, d := dst2 8 } p64,
    goes (.dfma d4) (fusedChecks d4 [8, 2, 4, 6] (srcF64 2) (srcF64 4 1) (srcF64 6 2) (dst2 8)) p64] = true := by decide +kernel

/-- FCVT from F32 to F16, and PCVT from F32 to E4M3x4, whose sources are a group of four registers. -/
def fc : V3 := V 1 2 0 0 0x43
def pc : V3 := V 1 4 0 0 0x7F63

theorem wit_FormatConversions : allTrue [
    goes (.f2i f1) (chk1 f1 none f32Tag), goes (.i2f f1) (chk1 f1 (illZero 0 6) intTag),
    goes (.fcvt fc) { q := 0, ill := illOf false false (!(fcvtPair 3 4)), opd := opdX fc.x [1, 2] [1] [] (fc.x.extractLsb' 10 22 ≠ 0),
                      a := { code := 2, n := 1, ok := rawOr 3 }, d := { code := 1, n := 1 } },
    goes (.pcvt pc) { q := 0, ill := illOf false false (!(pcvtPair 3 6)),
                      opd := opdX pc.x [1, 4] [1] [] (pc.x.extractLsb' 18 14 ≠ 0) (groupBad 4 (groupOf 3 6) || groupBad 1 (groupOf 6 3)),
                      a := { code := 4, n := groupOf 3 6, ok := rawOr 3 }, d := { code := 1, n := groupOf 6 3 } }] = true := by decide +kernel

theorem wit_SpecialFunctionResults : allTrue [
    goes (.rcp (e1 0)) (chk1 (e1 0) none f32Tag), goes (.rsq (e1 1)) (chk1 (e1 1) none f32Tag),
    goes (.sqrta (e1 2)) (chk1 (e1 2) none f32Tag), goes (.exp2 (e1 3)) (chk1 (e1 3) none f32Tag),
    goes (.log2 (e1 4)) (chk1 (e1 4) none f32Tag), goes (.sinp (e1 5)) (chk1 (e1 5) none f32Tag),
    goes (.cosp (e1 6)) (chk1 (e1 6) none f32Tag), goes (.tanha (e1 7)) (chk1 (e1 7) none f32Tag)] = true := by decide +kernel

/-- Registers 2 to 4 with a tag. -/
def tags (a b c : Nat) : List (Nat × Reg) := reg 2 a 0x01010101 ++ reg 3 b 0x02020202 ++ reg 4 c 0

theorem wit_PackedResults : allTrue [
    goes (.hadd2 f1) (chk2 f1 (illZero 0 6) (exactTag 4)) (tags 4 4 0), goes (.hadd2 (e1 1)) (chk2 (e1 1) (illZero 1 6) (exactTag 5)) (tags 5 5 0),
    goes (.hfma2 f3) (chk3 f3 (illZero 0 6) (exactTag 4)) (tags 4 4 4),
    goes (.qadd4 f1) (chk2 f1 (illZero 0 6) (exactTag 6)) (tags 6 6 0), goes (.qmul4 f1) (chk2 f1 (illZero 0 6) (exactTag 6)) (tags 6 6 0),
    goes (.dot4 f3) (chkDot f3 (illZero 0 4) 6 6 f32Tag) (tags 6 6 3), goes (.dot8 f3) (chkDot f3 (illZero 0 7) 8 8 f32Tag) (tags 8 8 3),
    goes (.idot4 f3) (chkDot f3 none 10 10 intTag) (tags 10 10 1), goes (.idot8 f3) (chkDot f3 none 12 12 intTag) (tags 12 12 1),
    goes (.pscale f1) { q := 0, ill := illZero 0 7, opd := opdV 0 [1, 2, 3] [1] [], a := { code := 2, n := 1, ok := packedFloatTag },
                        b := srcInt 3 1, d := dst1 1 } (tags 4 1 0),
    goes (.pamax f1) { q := 0, ill := illZero 0 7, opd := opdV 0 [1, 2, 3] [1] [], a := { code := 2, n := 1, ok := packedFloatTag },
                       b := { code := 3, n := 1, ok := fun ta t => t = ta, det := 1 }, d := dst1 1 } (tags 4 4 0)] = true := by decide +kernel

/-! ## Witnesses: across threads, accumulators, memory -/

/-- The checks pass for all four threads of a state made from the booted one, and a further condition holds of them. -/
def met (i : Instr) (k : Checks) (l : List (Nat × Reg)) (w : State → State) (p : State → Ctx → List Th → Bool) : Bool :=
  let s := w (on i l)
  match s.gate (s.ctx i) k with
  | .go act => decide (act.length = 4) && p s (s.ctx i) act
  | _ => false

/-- The block has a scratchpad of 4 KiB. -/
def scr (s : State) : State := s.onBlock bid fun b => { b with zsize := 4096 }

def sh : V3 := V 1 2 3 1

theorem wit_CrossLaneResults : allTrue [
    met (.shfl sh) { q := 0, ill := illOf false (3 < sh.m.toNat), opd := opdV 0 [1, 2, 3] [1] [], a := srcAny 2, b := srcAny 3 1,
                     d := dst1 1 } (reg 2 1 7 ++ reg 3 1 1) id (fun s c act =>
      act.all fun t => !(s.busy (s.shflSrc c sh t) (s.dreg c t 2)) && !(s.marked (s.shflSrc c sh t) (s.dreg c t 2))),
    goes (.vote (V 1 2 0)) { q := 0, ill := illOf (hiBits 2) false, opd := opdV 0 [1] [1] [], d := dst1 1 },
    goes (.ired f1) (chk1 f1 none intTag), goes (.matchLanes f1) (chk1 f1 (illZero 0 7) anyTag),
    goes (.krnd (V 1 0 0)) { q := 0, ill := illOf false false, opd := opdV 0 [1] [1] [], d := dst1 1 },
    goes (.krnd (V 2 0 1 4)) { q := 0, ill := illOf false false, opd := opdV 0 [2] [2] [2], d := dst2 2 },
    goes (.scan (V 1 2 1)) { q := 0, ill := illZero 0 4, opd := opdV 0 [1, 2] [1] [], a := srcF32 2, d := dst1 1 }] = true := by decide +kernel

/-- No image access traps: `imagesFine` for the address in register 2. -/
def imageOk (store : Bool) (s : State) (c : Ctx) (act : List Th) : Bool :=
  noAcq s c act && (imageAt s c act 2).all fun x => decide (x.2 % 16 = 0) && decide (x.2 + 96 ≤ (s.block (s.warp x.1.wid).bid).zsize) &&
    !(s.scratchLid (s.warp x.1.wid).bid x.2 96 (!store)) && !(s.scratchUpset (s.warp x.1.wid).bid x.2 96)

theorem wit_AccumulatorInstructions : allTrue [
    goes (.kclr (V 1 0 0)) { q := 0, ill := illZero 0 7, opd := oneOf [(0, decide (1 < (1 : BitVec 6).toNat))], split := some 3 },
    goes (.kadd (V 1 2 0)) { q := 0, ill := illOf false false, opd := opdV 0 [2] [] [], a := { code := 2, n := 1, ok := rawOr (kaddTag 0) } },
    goes (.kmad (V 0 2 3)) { q := 0, ill := illZero 0 6, opd := opdV 0 [2, 3] [] [], a := srcF32 2, b := srcF32 3 1 },
    met (.ksave (V 0 2 1)) { q := 0, ill := illZero 0 7, opd := opdV 0 [2] [] [], a := srcAny 2 } (reg 2 1 4000) scr (imageOk true),
    met (.kload (V 1 2 0)) { q := 0, ill := illZero 0 6, opd := opdV 0 [2] [] [], a := srcAny 2, split := some 3 } (reg 2 1 4000) scr
      (imageOk false),
    met (.kload (V 1 2 0 1)) { q := 0, ill := illZero 1 6, opd := opdV 0 [2] [] [], a := srcAny 2 } (reg 2 1 0) scr (imageOk false)]
    = true := by decide +kernel

/-- M-format fields: word size, base register 4 (a pair for a global address). -/
def m (d : BitVec 6 := 8) (sz : BitVec 4 := 4) (x : Word := 0) : FM := { d := d, base := 4, off := 0, m := sz, q := 0, x := x }

/-- Addresses 0x1000 and, misaligned, 0x1002; a null of the last aligned word of a 4 KiB scratchpad is 0xFFC. -/
def a1000 : List (Nat × Reg) := reg 4 1 0x1000
def aFFC : List (Nat × Reg) := reg 4 1 0xFFC

/-- A warp whose hypothesis was refuted, and one under a hypothesis (R264, R305). -/
def orphan (s : State) : State := s.onWarp wid fun w => { w with orphan := true }
def under (s : State) : State := s.onWarp wid fun w => { w with hyp := 0x0101 }

def traps (o : Option Trap) (cause : Nat) : Bool := o.any fun t => t.cause = cause

theorem wit_AccessTrapsInOrder : allTrue [
    met (.ld m) (chkLoad m 4 (illLoad 4 true) true) a1000 orphan (fun s c act =>
      traps (s.globalBad (s.laneAddrs m 4 true c act) 4 false) (cz 0x28 0)),
    met (.ld m) (chkLoad m 4 (illLoad 4 true) true) a1000 under (fun s c act =>
      traps (s.globalBad (s.laneAddrs m 4 true c act) 4 true) (cz 0x2A 0)),
    met (.ld m) (chkLoad m 4 (illLoad 4 true) true) (reg 4 1 0x1002) id (fun s c act =>
      traps (s.globalBad (s.laneAddrs m 4 true c act) 4 false) (cz 0x10 0)),
    met (.st m) (chkStore m 4 (illStore 4 true) true) (reg 4 1 0x1002) id (fun s c act =>
      traps (s.globalBad (s.laneAddrs m 4 true c act) 4 false) (cz 0x10 0)),
    met (.lds m) (chkLoad m 4 (illLoad 4 false) false) (reg 4 1 0x1002) scr (fun s c act =>
      traps (s.scratchBad (s.laneAddrs m 4 false c act) 4 0) (cz 0x10 1)),
    met (.sts m) (chkStore m 4 (illStore 4 false) false) a1000 scr (fun s c act =>
      traps (s.scratchBad (s.laneAddrs m 4 false c act) 4 1) (cz 0x13 1))] = true := by decide +kernel

/-- The addresses of the four threads are fine and nothing holds the access at issue. -/
def glob (f : FM) (n ctr : Nat) (atomic rel : Bool) (s : State) (c : Ctx) (act : List Th) : Bool :=
  (s.globalBad (s.laneAddrs f n true c act) n atomic).isNone && (s.memHold c act ctr true rel).isNone

def local_ (f : FM) (n ctr kind : Nat) (s : State) (c : Ctx) (act : List Th) : Bool :=
  (s.scratchBad (s.laneAddrs f n false c act) n kind).isNone && (s.memHold c act ctr false false).isNone

def noUpset (l : List Access) (s : State) : Bool := l.all fun a => !(s.l1Upset a.core a.part a.asid a.va.toNat a.size)

def m1 : FM := m 8 0

theorem wit_GlobalLoads : allTrue [
    met (.ld m) (chkLoad m 4 (illLoad 4 true) true) a1000 id (fun s c act => glob m 4 0 false false s c act &&
      noUpset ((s.laneAddrs m 4 true c act).map (loadAccess s c act m .ld 4 false false 0)) s),
    met (.ld (m 8 12)) (chkLoad (m 8 12) 4 (illLoad 12 true) true) a1000 id (fun s c act => glob (m 8 12) 4 0 false false s c act),
    met (.ld (m 8 5)) (chkLoad (m 8 5) 8 (illLoad 5 true) true) a1000 id (fun s c act => glob (m 8 5) 8 0 false false s c act),
    met (.ldt (m 8 3)) (chkLoad (m 8 3) 4 none true) a1000 id (fun s c act => glob (m 8 3) 4 0 false false s c act &&
      noUpset ((s.laneAddrs (m 8 3) 4 true c act).map (loadAccess s c act (m 8 3) .ldt 4 false false 3)) s),
    met (.ldu m) (chkLoad m 4 (illLoad 4 false) true) a1000 id (fun s c act => glob m 4 0 false false s c (act.filter (leads act)) &&
      (s.memHold c act 0 true false).isNone)] = true := by decide +kernel

theorem wit_GlobalStores : allTrue [
    met (.st m) (chkStore m 4 (illStore 4 true) true) a1000 id (glob m 4 1 false false),
    met (.st (m 8 12)) (chkStore (m 8 12) 4 (illStore 12 true) true) a1000 id (glob (m 8 12) 4 1 false true),
    met (.st m1) (chkStore m1 1 (illStore 0 true) true) a1000 id (glob m1 1 1 false false)] = true := by decide +kernel

theorem wit_ScratchLoadsAndStores : allTrue [
    met (.lds m) (chkLoad m 4 (illLoad 4 false) false) aFFC scr (local_ m 4 0 0),
    met (.sts m) (chkStore m 4 (illStore 4 false) false) aFFC scr (local_ m 4 1 1)] = true := by decide +kernel

/-- Target 4: the rank in register 6, here the block's own. -/
def mr (x : Word := X 6 4) : FM := m 8 4 x

def remote (f : FM) (n kind tgt ctr : Nat) (code : BitVec 6) (s : State) (c : Ctx) (act : List Th) : Bool :=
  (s.remoteBad c (s.laneAddrs f n false c act) n kind tgt code).isNone && (s.memHold c act ctr false false).isNone

theorem wit_RemoteLoadsAndStores : allTrue [
    met (.ldn mr) { q := 0, ill := illOf false false, opd := remoteOpd mr 4 true, a := srcAny 4, more := rankOpd 4 (xc mr.x),
                    d := dataOpd 8 4 } aFFC scr (remote mr 4 0 4 0 (xc mr.x)),
    met (.stn mr) { q := 0, ill := illOf false false, opd := remoteOpd mr 4 false, a := srcAny 4,
                    more := dataOpd 8 4 :: rankOpd 4 (xc mr.x) } aFFC scr (remote mr 4 1 4 1 (xc mr.x))] = true := by decide +kernel

/-- An atomic's extension word: operation, order, and its source operand, register 6. -/
def at32 (op order : BitVec 26) : FM := m 8 0 (X 6 (op + 16 * order))
def order (f : FM) (s : State) (c : Ctx) (act : List Th) : Bool :=
  (!(atomRel f.x) || (s.releaseHold c act).isNone) && (!(atomAcq f.x) || noRel s c act)
def atn : FM := m 8 0 (X 6 (4 * 64 + 0x600000))

theorem wit_Atomics : allTrue [
    met (.atom (at32 0 3)) (chkAtom (at32 0 3) 14 true false false []) a1000 id (fun s c act =>
      glob (at32 0 3) (atomSize (atomOp (at32 0 3).x)) (atomCtr (at32 0 3)) true true s c act),
    met (.atoms (at32 0 3)) (chkAtom (at32 0 3) 13 false false false []) aFFC scr (fun s c act =>
      local_ (at32 0 3) (atomSize (atomOp (at32 0 3).x)) (atomCtr (at32 0 3)) 2 s c act && order (at32 0 3) s c act),
    met (.atomn atn) (chkAtom atn 13 false (atn.x.extractLsb' 9 11 ≠ 0) false [atomnRank atn.x]) aFFC scr (fun s c act =>
      remote atn (atomSize (atomOp atn.x)) 2 4 (atomCtr atn) (atomnRank atn.x) s c act && order atn s c act)] = true := by decide +kernel

def pf : FM := m 0 0
def cw : V3 := V 0 4 0

theorem wit_PrefetchAndWriteBack : allTrue [
    (let s := on (.pref pf) a1000
     let c := s.ctx (.pref pf)
     let k : Checks := { q := 0, ill := illOf false false, opd := memOpd 0 52 4 1 false true, a := { code := 4, n := 2 } }
     k.static.isNone && !(s.waitsReg c k (s.active c 0)) && decide ((s.active c 0).length = 4)),
    met (.cwb cw) { q := 0, ill := illZero 0 7, opd := opdV 0 [4] [] [4], a := { code := 4, n := 2 } } a1000 id (fun s c act =>
      act.all (fun t => !(s.warp t.wid).orphan) && (s.memHold c act 1 true false).isNone)] = true := by decide +kernel

/-! ## Witnesses: fences, waits, barriers, tags -/

def fence (m : BitVec 3) : V3 := V 0 0 0 m

/-- Nothing of the warp is on its way: what `fenceFine` asks of each kind. -/
def fenceOk (s : State) (c : Ctx) (act : List Th) : Bool :=
  noRel s c act && noAcq s c act && act.all fun t => !(s.remotePending t) && s.quiet t &&
    decide ((s.warp t.wid).faults = []) && (s.ops.all fun p => p.2.wid ≠ t.wid) && s.errs.all fun e => e.wid ≠ t.wid

def w0 : WT := { l := 0, s := 0, c := 63, t := 31, q := 0 }
def wOk (s : State) (c : Ctx) (act : List Th) : Bool :=
  act.all fun t => s.counterSeen c.trap t.wid 0 = 0 && s.counterSeen c.trap t.wid 1 = 0

/-- One load of the warp is on its way. -/
def loading (s : State) : State :=
  s.onWarp wid id |> fun s => { s with
    accs := s.accs.put 50 { kind := .ld, wid := wid, lane := 0, lanes := 1, core := 0, part := 0, asid := 0, va := 0x1000, size := 4, bid := bid, iid := 40 }
    outst := [{ wid := wid, iid := 40, ctr := 0, left := 1 }] }

theorem wit_FencesAndWaits : allTrue [
    met (.fence (fence 0)) { q := 0, ill := illOf false false } [] id fenceOk, met (.fence (fence 1)) { q := 0, ill := illOf false false } [] id fenceOk,
    met (.fence (fence 2)) { q := 0, ill := illOf false false } [] id fenceOk, met (.fence (fence 3)) { q := 0, ill := illOf false false } [] id fenceOk,
    met (.fence (fence 4)) { q := 0, ill := illOf false (4 < (4 : BitVec 3).toNat) } [] id fenceOk,
    met (.wait w0) { q := 0 } [] id wOk,
    met (.wait w0) { q := 0 } [] loading (fun s c _ => decide (0 < s.counterSeen c.trap wid 0) && (s.unitRecords c.u).isEmpty)]
    = true := by decide +kernel

def trapMode (s : State) : State := s.onWarp wid fun w => { w with trapSet := 0xF }
def k0 : Checks := { q := 0, ill := illOf false false }
def free (s : State) (c : Ctx) (act : List Th) : Bool := !c.trap && (s.releaseHold c act).isNone

theorem wit_Barriers : allTrue [
    met (.bar (fence 0)) k0 [] id free, met (.gbar (fence 0)) k0 [] id free,
    met (.bar (fence 0)) k0 [] trapMode (fun s c act => (barTrap s c act).isSome),
    met (.gbar (fence 0)) k0 [] trapMode (fun s c act => (barTrap s c act).isSome)] = true := by decide +kernel

/-- A phase-barrier word at 64: 8 arrivals pending of a count of 8, epoch 5. -/
def barWord (s : State) : State :=
  (scr s).wrScratch bid 64 (natLe 16 ({ pending := 8, count := 8, rsvd := 0, epoch := 5, exp := 0, done := 0 } : PhaseBar).toNat)

def pa (m : BitVec 3) : V3 := V 0 2 3 m
def phOk (arrive : Bool) (s : State) (c : Ctx) (act : List Th) : Bool :=
  (s.phaseTrap c arrive (s.phaseWords c act 2)).isNone && noAcq s c act && (s.releaseHold c act).isNone &&
    act.all fun t => (s.warp t.wid).bid = bid

theorem wit_PhaseBarriers : allTrue [
    met (.pharr (pa 0)) (phaseChecks (pa 0) (illZero 0 6) (srcInt 3 1)) (reg 2 1 64 ++ reg 3 1 0) barWord (phOk true),
    met (.pharr (pa 1)) (phaseChecks (pa 1) (illZero 1 6) (srcInt 3 1)) (reg 2 1 64 ++ reg 3 1 16) barWord (phOk true),
    met (.phwait (pa 0)) (phaseChecks (pa 0) (illZero 0 7) (srcAny 3)) (reg 2 1 64 ++ reg 3 1 4) barWord (fun s c act =>
      phOk false s c act && (s.phaseBar bid 64).epoch = 5 && noRel s c act),
    met (.phwait (pa 0)) (phaseChecks (pa 0) (illZero 0 7) (srcAny 3)) (reg 2 1 64 ++ reg 3 1 5) barWord (fun s c act =>
      phOk false s c act && (s.phaseBar bid 64).epoch = 5)] = true := by decide +kernel

def tw : V3 := V 8 4 0

theorem wit_CompletionTags : allTrue [
    met (.twait tw) { q := 0, ill := illZero 0 7, opd := opdV 0 [8, 4] [8] [8, 4], a := maskOpd 4, d := dst2 8 } a1000 id (fun s c act =>
      s.errs.isEmpty && noRel s c act && noAcq s c act && act.all fun t => s.maskOp c t 4 ≠ 0 && s.maskOp c t 4 &&& ~~~(s.tagsOf t).1 = 0),
    met (.tany tw) (chkFind tw) a1000 id (fun s c act =>
      s.errs.isEmpty && noRel s c act && noAcq s c act && act.all fun t => (s.tagsOf t).1 &&& s.maskOp c t 4 ≠ 0),
    goes (.tfind tw) (chkFind tw) a1000,
    met (.tclr (V 0 4 0)) { q := 0, ill := illZero 0 7, opd := opdV 0 [4] [] [4], a := maskOpd 4 } a1000 id (fun s c act =>
      act.all fun t => (s.warp t.wid).core = 0 && s.maskOp c t 4 &&& ~~~(s.coreRegs 0).tagmap = 0),
    met (.tclr (V 0 4 0)) { q := 0, ill := illZero 0 7, opd := opdV 0 [4] [] [4], a := maskOpd 4 } a1000
      (fun s => s.onCore 0 fun r => { r with tagmap := 0 }) (fun s c act =>
      act.all fun t => s.maskOp c t 4 &&& ~~~(s.tagsOf t).1 ≠ 0)] = true := by decide +kernel

/-! ## Witnesses: control flow -/

/-- A thread may land at an address at once: `landsNow`. -/
def lands (s : State) (t : Th) (a : DWord) : Bool :=
  decide (a.extractLsb' 0 2 = 0) && !(s.flipping (s.partOf t.wid) (s.asidOf t.wid) a) && match s.fetch (s.partOf t.wid) (s.asidOf t.wid) a with
    | .ok w => decide (w.extractLsb' 28 4 = 0xF)
    | .error _ => false

def landAll (s : State) (l : List (Th × DWord)) : Bool := !l.isEmpty && l.all fun x => lands s x.1 x.2

/-- A clause header at an address of the kernel's code. -/
def header (a : Nat) (s : State) : State := { s with vault := Memory.wrN s.vault (0x10000000 + a) (natLe 4 0xF103FFC0) }

/-- A branch back to the clause's own header. -/
def back : FJ := { off := 0x7FFFFF, q := 0 }
def jt : V3 := V 0 2 0 0 (X 4 4)

/-- The table fetches of a JTAB answered with an offset of zero. -/
def answered (i : Instr) (s : State) : State := match exec i s with
  | .next t => { t with accs := t.accs.map fun (a : Nat × Access) => (a.1, { a.2 with st := .answered, data := [0, 0, 0, 0] }) }
  | _ => s

theorem wit_Branching : allTrue [
    met (.bra back) { q := 0 } [] id (fun s c act => landAll s (relative back c act)),
    met (.brx (V 0 4 0)) (chkTgt (V 0 4 0)) a1000 id (fun s c act => landAll s (indirect (V 0 4 0) s c act)),
    met (.jtab jt) (jtabChecks jt) a1000 id (fun s c act => noAcq s c act && !(s.jtabEntries c act jt).isEmpty &&
      (s.jtabEntries c act jt).all fun x => (s.jtabAcc x.1).isNone && decide ((s.jtabSend c x).st = .sent)),
    met (.jtab jt) (jtabChecks jt) a1000 (answered (.jtab jt)) (fun s c act => !(s.jtabEntries c act jt).isEmpty &&
      (s.jtabEntries c act jt).all fun x => ((s.jtabAcc x.1).any fun a => a.st = .answered && leNat a.data = 0) &&
        lands (s.jtabDrop c.u.th) x.1 x.2.1)] = true := by decide +kernel

/-- A scratchpad whose top 64 KiB hold the stacks, with stack pointers at their tops. -/
def withStacks (s : State) : State :=
  (s.onBlock bid fun b => { b with zsize := 0x10000 }).onWarp wid fun w =>
    { w with sp := (List.range 32).map fun l => (l, BitVec.ofNat 32 (0x10000 - 256 * (31 - l))) }

def pushOk (s : State) (c : Ctx) (act : List Th) : Bool := noAcq s c act && act.all fun t =>
  let a := s.spReg t - 8
  decide (c.u.depth ≠ 31) && decide (s.stackBase t + 8 ≤ (s.spReg t).toNat) && decide (a.toNat % 8 = 0) &&
  decide (a.toNat + 8 ≤ (s.block bid).zsize) && !(s.scratchLid bid a.toNat 8 false)

/-- A return address of 0x1000 in each thread's stack, one call deep. -/
def called (s : State) : State :=
  let s := (withStacks s).onWarp wid fun w => { w with
    sp := (List.range 32).map fun l => (l, BitVec.ofNat 32 (0x10000 - 256 * (31 - l) - 8))
    groups := w.groups.map fun (g : Group) => { g with depth := 1 } }
  (List.range 4).foldl (fun (s : State) l => s.wrScratch bid (0x10000 - 256 * (31 - l) - 8) (natLe 8 0x1000)) s

def popOk (s : State) (c : Ctx) (act : List Th) : Bool := noAcq s c act && act.all fun t =>
  let a := (s.spReg t).toNat
  decide (c.u.depth ≠ 0) && decide (a % 8 = 0) && decide (a + 8 ≤ s.stackTop t) && !(s.scratchLid bid a 8 true) &&
  !(s.scratchUpset bid a 8) && lands s t (BitVec.ofNat 64 (leNat (s.rdScratch bid a 8)))

theorem wit_CallsAndReturns : allTrue [
    met (.call back) { q := 0 } [] withStacks (fun s c act => pushOk s c act && landAll s (relative back c act)),
    met (.callx (V 0 4 0)) (chkTgt (V 0 4 0)) a1000 withStacks (fun s c act => pushOk s c act && landAll s (indirect (V 0 4 0) s c act)),
    met (.ret (V 0 0 0)) { q := 0, ill := illZero 0 7 } [] called popOk] = true := by decide +kernel

def lp : FL := { cnt := 2, len := 4, lvl := 1, f7 := 0, q := 0 }

/-- Headers after the clause and after the body, and a body that the threads are in at level 1, or whose end they have reached. -/
def body (s : State) : State := header 0x1018 (header 0x1008 s)
def inBody (s : State) : State := (body s).onWarp wid fun w => { w with
  frames := [(1, { active := 0xF, start := 0x1008, len := 4, depth := 0 })], lc := (List.range 4).map fun l => (4 * l + 1, 2) }
def atEnd (s : State) : State := (inBody s).onWarp wid fun w => { w with
  groups := w.groups.map fun (g : Group) => { g with pc := 0x1018, hdr := 0x1018 } }

theorem wit_Loops : allTrue [
    met (.loop lp) { q := 0, ill := illOf false false, opd := opdV 0 [2] [] [], a := srcInt 2 } (reg 2 1 3) body (fun s c act =>
      (c.u.th.all fun t => !(s.levelOn t 0) && !(s.levelOn t 1) && !(s.levelOn t 2) && (s.frame t.wid 1).active = 0) &&
      act.all fun t => lands s t (clauseEnd c.u.hdr c.u.hw) && lands s t (clauseEnd c.u.hdr c.u.hw + 16)),
    met (.brk (V 0 0 0 1)) { q := 0, ill := illOf ((1 : BitVec 3).getLsbD 2) false } [] inBody (fun s c act =>
      act.all fun t => s.levelOn t 1 && (s.frame t.wid 1).depth = c.u.depth),
    (let s := atEnd (on (.nop (V 0 0 0)) [])
     let u := s.unit
     decide (u.th.length = 4) && u.th.all fun t => s.bodyEnd u t = some (1, true) && lands s t (s.frame t.wid 1).start)] = true := by decide +kernel

theorem wit_ExitAndYield : allTrue [
    met (.exitThread (V 0 0 0)) { q := 0, ill := illZero 0 7 } [] id (fun s _ act => act.all fun t => (s.warp t.wid).faults.isEmpty),
    met (.exitThread (V 0 0 0)) { q := 0, ill := illZero 0 7 } [] trapMode (fun _ c _ => c.trap),
    goes (.yield (V 0 0 0)) { q := 0, ill := illZero 0 7 }] = true := by decide +kernel

/-! ## Witnesses: traps -/

/-- Handlers for every class from 0x2000 upward, where a header stands for one class or for none. -/
def handler (cls : Nat) (s : State) : State :=
  header (0x2000 + 64 * cls) (s.onPart 0 fun P => { P with trapbase := 0x2000 })

def handled (cls det : Nat) (s : State) (c : Ctx) : Bool := match c.u.mem with
  | [p] => decide ((s.warp p.1).trapSet = 0) && lands s { wid := p.1, lane := 0 } (s.handlerAt p.1 (cz cls det)) &&
      (s.warp p.1).groups.all fun g => g.depth = c.u.depth
  | _ => false

def two (s : State) : State := s.onWarp wid fun w => { w with trapSet := 0xF0, exited := 0xFFFFFF00 }

theorem wit_TakingATrap : allTrue [
    (let s := handler 0x3C (on (.nop (V 0 0 0)) [])
     (s.warps.find wid).isSome && decide ((s.warp wid).trapSet = 0) && lands s { wid := wid, lane := 0 } (0x2000 + 0x3C * 64)),
    (let s := handler 0x3C (on (.nop (V 0 0 0)) [])
     decide ((s.warp wid).trapSet = 0) && !(lands s { wid := wid, lane := 0 } (0x2000 + 0x10 * 64))),
    (let s := trapMode (on (.nop (V 0 0 0)) [])
     decide ((s.warp wid).trapSet &&& (s.warp wid).sliverLanes 0 ≠ 0)),
    (let s := two (on (.nop (V 0 0 0)) [])
     decide ((s.warp wid).trapSet ≠ 0) && decide ((s.warp wid).trapSet &&& (s.warp wid).sliverLanes 0 = 0))] = true := by decide +kernel

/-- ENG with an undefined sub-operation, and with a bit of its flags set too. -/
def undef : Word := 0b1110010_1001_000000_000000_0000000_00
def undefBit : Word := 0b1110010_1001_000000_000000_0010000_00

theorem wit_SoftwareTraps : allTrue [
    met (.trapCode (V 0 0 31)) { q := 0, ill := illOf ((31 : BitVec 6).getLsbD 5) false } [] (handler 0x3F) (fun s c _ => handled 0x3F 7 s c),
    met (.bpt (V 0 0 5 1)) { q := 0, ill := illOf ((5 : BitVec 6).getLsbD 5) false } [] (handler 0x39) (fun s c _ => handled 0x39 0 s c),
    (let s := handler 0 (on (.illegalInstr undef) [])
     !((s.ctx (.illegalInstr undef)).u.th.isEmpty) && handled 0 0 s (s.ctx (.illegalInstr undef))),
    (let s := handler 0 (on (.illegalInstr undefBit) [])
     decide ((undefBit.extractLsb' 25 7).toNat = 0x72) && decide (undefBit.extractLsb' 2 7 &&& 0x73 ≠ 0) &&
       !((s.ctx (.illegalInstr undefBit)).u.th.isEmpty) && handled 0 2 s (s.ctx (.illegalInstr undefBit)))] = true := by decide +kernel

/-! ## Witnesses: engine operations -/

/-- A block of fields: offset, bytes and value of each. -/
def img (n : Nat) (l : List (Nat × Nat × Nat)) : List Byte :=
  Memory.rdN (l.foldl (fun (m : Memory) x => Memory.wrN m x.1 (natLe x.2.1 x.2.2)) []) 0 n

/-- A copy of 16 bytes within the scratchpad, from 0x100 to 0x200, without a record. -/
def cpyImg : List Byte := img 64 [(0, 4, noAddr), (8, 8, 0x100), (16, 8, 0x200), (24, 4, 16), (28, 2, 3)]

def block (l : List Byte) (s : State) : State := (scr s).wrScratch bid 0x40 l

def eng (i : FE → Instr) (kind : Nat) (l : List Byte) : Bool :=
  let f : FE := { pb := 2, tag := 5, f7 := 0, q := 0 }
  met (i f) (engChecks kind f) (reg 2 1 0x40) (block l) fun s c act =>
    !(s.engBegun act) && (s.engTrap c kind (engAddrs f s c act)).isNone && !(s.behindAcquire c act) && !(s.recordHolds c act) &&
    (s.engLanes c kind f act).2

/-- Two ranges clash: `rangesClash`. -/
def clash (r q : EngRange) : Bool :=
  r.glob == q.glob && (r.glob || r.bid == q.bid) && meets r.lo.toNat r.hi.toNat q.lo.toNat q.hi.toNat && (r.dest || q.dest)

/-- No thread waits at issue: `NoneWaits`, where no lid stands at all. -/
def noneWaits (kind : Nat) (f : FE) (s : State) (c : Ctx) (act : List Th) : Bool :=
  let rs := engRangesOf kind f s c
  let o := fun th => (engOpOf kind f s c th).1
  act.all (fun th => s.counter th.wid (engCounter kind) + (act.filter fun u => u.wid = th.wid).length ≤ counterMax (engCounter kind)) &&
  act.all (fun th => (rs th).all fun r => !(s.lidConflict (o th) r)) &&
  act.all (fun th => act.all fun u => th = u || (rs th).all fun r => (rs u).all fun q => !(clash r q)) &&
  s.lids.isEmpty && (act.flatMap rs).length ≤ Config.coreLids &&
  (s.ops.filter fun x => x.2.placed).length + act.length ≤ 16 &&
  act.all (fun th => act.all fun u => th = u || !((o th).arrives) || (engReads kind f s c u).all fun x =>
    !(meets (o th).bar ((o th).bar + 16) x.1 x.2)) &&
  act.all fun th => s.quiet th && !((s.coreRegs (s.warp th.wid).core).failed) && ((s.warp th.wid).records.isEmpty) &&
    !(f.f7.getLsbD 3)

/-- One thread alone issues a copy that is fine and gets its lids. -/
def lone (s : State) : State := s.onWarp wid fun w => { w with
  exited := 0xFFFFFFFE, groups := w.groups.map fun (g : Group) => { g with lanes := 1 } }

def loneCpy : Bool :=
  let f : FE := { pb := 2, tag := 5, f7 := 0, q := 0 }
  let s := lone (block cpyImg (on (.cpy f) (reg 2 1 0x40)))
  let c := s.ctx (.cpy f)
  match s.gate c (engChecks 0 f) with
  | .go act => decide (act.length = 1) && !(s.engBegun act) && (s.engTrap c 0 (engAddrs f s c act)).isNone && !(s.behindAcquire c act) &&
      !(s.recordHolds c act) && (s.engLanes c 0 f act).2 && noneWaits 0 f s c act && act.all fun t => (engOpOf 0 f s c t).2.isNone
  | _ => false

/-- Four threads issue operations, of which none waits for anything. -/
def free4 (i : FE → Instr) (kind : Nat) : Bool :=
  let f : FE := { pb := 2, tag := 5, f7 := 0, q := 0 }
  met (i f) (engChecks kind f) (reg 2 1 0x40) (block []) fun s c act =>
    !(s.engBegun act) && (s.engTrap c kind (engAddrs f s c act)).isNone && !(s.behindAcquire c act) && !(s.recordHolds c act) &&
    noneWaits kind f s c act

theorem wit_EngineInstructions : allTrue [
    loneCpy, free4 .cpy 0, free4 .cpys 1, free4 .cpyg 2, free4 .cpya 3, free4 .mma 4, free4 .mmag 5, free4 .acclr 6, free4 .bcast 7,
    free4 .cpyr 8, eng .cpy 0 [], eng .cpys 1 [], eng .cpyg 2 [], eng .cpya 3 [], eng .mma 4 [], eng .mmag 5 [], eng .acclr 6 [],
    eng .bcast 7 [], eng .cpyr 8 []] = true := by decide +kernel

/-- An operation as its table holds it. -/
def op (kind : Nat) (l : List Byte) (st : EngSt) : EngineOp :=
  { kind := kind, sub := kind, wid := wid, idx := 0, bid := bid, core := 0, tile := 0, part := 0, asid := 0, tag := 5, f7 := 0, hyp := 0,
    image := l, recAt := noAddr, st := st }

def withOp (o : EngineOp) : State := let s := scr (on (.nop (V 0 0 0)) []); { s with ops := [(50, o)], nextId := 60 }

def bcastImg : List Byte := img 64 [(0, 4, noAddr), (8, 4, 0x100), (12, 4, 0x200), (16, 4, 16), (20, 4, noAddr)]

theorem wit_EngineProgress : allTrue [
    (let o := op 0 cpyImg .issued
     let s := withOp o
     let rs := (s.fieldsOf o (s.block o.bid).zsize).2
     decide (rs.length = 2) && rs.all (fun r => !(s.lidConflict o r)) && s.lidRoom o rs && decide (o.st = .issued)),
    (let o := { op 0 cpyImg .running with begun := true, total := 16, done := 4 }
     let s := withOp o
     decide (o.form = 0) && o.srcScr && o.dstScr && decide (o.total = o.u 24 4) && s.engMayRead 50 o && (s.blocks.find o.bid).isSome &&
       !(s.selfOverlap o) && !(o.arrives) && decide ((s.gang (s.block o.bid).gid).st ≠ .halted) && (List.range 16).all fun i => !(s.scratchUpset o.bid (o.u 8 8 + i) 1)),
    (let o := { op 7 bcastImg .running with targets := [(8, 16, false), (9, 0, false)] }
     decide (o.form = 7) && decide (o.target 8 = some (16, false)) && decide (o.u 16 4 = 16) && decide (o.u 20 4 = noAddr)),
    (let o := op 0 cpyImg .landed
     let s := withOp o
     (s.ops.find 50).isSome && !(o.arrives) && !(s.fqHeld o.part) && decide (o.tag < 64) && s.ops.all fun p => p.1 = 50),
    (let o := op 0 cpyImg .failed
     let s := { withOp o with ops := [(50, o), (51, op 0 cpyImg .issued)] }
     s.ops.any fun p => p.1 ≠ 50 && p.2.core = o.core && p.2.tag = o.tag)] = true := by decide +kernel

/-- A block with 64 accumulator rows, an ACCLR of a subtile tagged F32, and an MMA of one pass over E4M3. -/
def rows (s : State) : State := s.onBlock bid fun b => { b with acclen := 64 }
def clrImg : List Byte := img 64 [(0, 4, noAddr), (12, 2, 64), (14, 2, 64), (16, 1, 3)]
def mmaImg : List Byte := img 128 [(0, 4, noAddr), (8, 4, 0), (12, 4, 256), (16, 4, 0), (20, 4, 256), (24, 1, 6), (25, 1, 6), (28, 2, 64),
  (30, 2, 64), (32, 4, 256), (40, 4, noAddr), (48, 4, noAddr)]
def accum (l : List Byte) : List Byte := l.zipIdx.map fun x => if x.2 = 26 then 1 else x.1

def turn (o : EngineOp) : Bool :=
  let s := rows (withOp o)
  o.onAccStore && decide (o.st = .running) && !o.begun && !(s.accBlocked o) && s.engMayRead 50 o

theorem wit_AccumulatorStore : allTrue [
    turn (op 6 clrImg .running), turn (op 4 mmaImg .running), turn (op 4 (accum mmaImg) .running),
    ((rows (withOp (op 6 clrImg .running))).turnFail (op 6 clrImg .running)).isNone,
    (let o := op 4 (accum (img 128 [(24, 1, 9), (28, 2, 64), (30, 2, 64), (32, 4, 256)])) .running
     ((rows (withOp o)).turnFail o).isSome),
    (let o := { op 4 mmaImg .running with begun := true, placed := true }
     let s := rows (withOp o)
     decide ((s.millGrant 0).map (·.1) = some 50) && decide (o.triple = (0, 0, 0)) && !(o.failedSub.contains (0, 0)) &&
       (s.passUpset o 0 0 0 false).isNone && decide (s.firstRow o + 64 ≤ 512))] = true := by decide +kernel

/-! ## Witnesses: hypotheses and geometry -/

def fh (d a : BitVec 6) : FH := { d := d, a := a, f7 := 0, q := 0 }
def k1 (l : List (Nat × Reg)) (i : Instr) (k : Checks) (w : State → State := id) (p : State → Ctx → List Th → Bool := fun _ _ _ => true) :
    Bool := met i k l w p

/-- Hypothesis 1 of generation 1 of the partition: live under the root, or gone, refuted. -/
def hyps (st : HypSt) (s : State) : State := s.onPart 0 fun P =>
  { P with hyp := [(1, { gen := 1, st := st, parent := 0, depth := 1, outcome := 2 })]
           res := if st = .gone then [(30, { confirm := false, handle := 0x101, parent := 0, ids := [0x101], complete := true })] else [] }

/-- What the home slice's judgement needs beside its checks: the request's partition, and one home warp. -/
def asksHome (s : State) (c : Ctx) (act : List Th) : Bool :=
  (s.parts.find (askedPart s act)).isSome && decide (c.u.mem = [(wid, 0)]) && decide (askedPart s act = 0) &&
    decide (s.packet (askedPart s act) ((s.warp wid).core / 4) 0 0 = .arrives)

theorem wit_HypothesisInstructions : allTrue [
    met (.hnew (fh 1 52)) (hypChecks (fh 1 52) true none) [] (hyps .live) (fun s c act => asksHome s c act &&
      decide (act.head?.map (handleOf s c (fh 1 52)) = some 0) && (s.part 0).validH 0 && decide ((s.part 0).depthOf 0 < 15) &&
      decide (((s.part 0).node 2).st = .free) && decide (((s.part 0).node 1).st = .live)),
    met (.hset (fh 0 2)) (hypChecks (fh 0 2) false (some 1)) (reg 2 1 0x101) (hyps .live) (fun s c act => asksHome s c act &&
      act.all fun t => (s.part 0).validH (handleOf s c (fh 0 2) t)),
    met (.hconf (fh 0 2)) (hypChecks (fh 0 2) false none) (reg 2 1 0x101) (hyps .live) (fun s c act => asksHome s c act &&
      (s.releaseHold c act).isNone && (s.part 0).validH 0x101 &&
      act.all fun t => (s.warp t.wid).faults.isEmpty && s.quiet t && decide (handleOf s c (fh 0 2) t = 0x101)),
    met (.href (fh 0 2)) (hypChecks (fh 0 2) false none) (reg 2 1 0x101) (hyps .live) (fun s c act => asksHome s c act &&
      (s.part 0).validH 0x101 && act.all fun t => decide (handleOf s c (fh 0 2) t = 0x101)),
    goes (.hget (fh 1 2)) (hypChecks (fh 1 2) true none) (reg 2 1 0x101),
    goes (.hchk (fh 1 0)) { q := 0, ill := illOf false false, opd := opdV 0 [1] [1] [], d := dst1 1 },
    met (.hwait (fh 1 2)) (hypChecks (fh 1 2) true none) (reg 2 1 0x101) (hyps .gone) (fun s c act =>
      act.all fun t => decide ((s.part (s.partOf t.wid)).outcomeOf (s.waitMark c.u) (handleOf s c (fh 1 2) t) = some 2) &&
        noRel s c [t] && noAcq s c [t]),
    met (.hwait (fh 1 2)) (hypChecks (fh 1 2) true none) (reg 2 1 0x101) (hyps .live) (fun s c act =>
      act.any fun t => (s.part (s.partOf t.wid)).outcomeOf (s.waitMark c.u) (handleOf s c (fh 1 2) t) = none)] = true := by decide +kernel

/-- Partitions with a live hypothesis, a chain of 15, and every id in use; and a request of the test warp. -/
def P1 : Part := { tiles := [0], key := 2, hyp := [(1, { gen := 1, st := .live }), (2, { gen := 4, st := .gone })] }
def chain15 : Part := { tiles := [0], key := 2, hyp := (List.range 15).map fun i =>
  (i + 1, { gen := 1, st := .live, parent := if i = 0 then 0 else BitVec.ofNat 16 (256 + i) }) }
def crowded : Part := { tiles := [0], key := 2, hyp := (List.range 255).map fun i => (i + 1, { gen := 1, st := .live }) }
def req (kind : Nat) (h : BitVec 16) : HypReq := { mem := [(wid, 0)], kind := kind, part := 0, handles := [(wid, 0, h)], dst := [(wid, 0, .v 1)], words := 0, len := 1 }
def asked (kind : Nat) (h : BitVec 16) : State :=
  let s := on (.nop (V 0 0 0)) []
  { s with parts := [(0, P1)], hreqs := [(50, req kind h)] }

theorem wit_HypothesisJudgement : allTrue [
    !(P1.validH 0x0201), P1.validH 0x0101, chain15.validH 0x10F, decide (15 ≤ chain15.depthOf 0x10F),
    decide (P1.depthOf 0x0101 < 15), decide ((P1.node 2).st = .gone), decide ((P1.node 1).st = .live),
    decide (crowded.depthOf 0 < 15) && (List.range 255).all (fun i => decide ((crowded.node (i + 1)).st = .live)),
    (P1.hnews 60 (req 0 0) (req 0 0).perWarp).toOption.isSome, (((asked 0 0).warps.find wid).isSome),
    decide ((req 1 0x0101).perWarp = [(wid, 0x0101)]), ((asked 3 0x101).part 0).validH 0x101, (asked 3 0x101).hypDelivered (req 3 0x101),
    (P1.resolves true (req 3 0x101) 60 (req 3 0x101).distinct).toOption.isSome,
    (P1.resolves false (req 4 0x101) 60 (req 4 0x101).distinct).toOption.isSome] = true := by
  decide +kernel

/-- A refutation of hypothesis 1 accepted: nowhere yet, or applied at every place. -/
def refuted (done : Bool) : State :=
  let r : Resolution := { confirm := false, handle := 0x101, parent := 0, ids := [0x101] }
  let s := asked 4 0x101
  { s with parts := [(0, { P1 with hyp := [(1, { gen := 1, st := .resolving, outcome := 2 })],
                                   res := [(50, if done then { r with applied := P1.places } else r)] })], hreqs := [] }

theorem wit_HypothesisResolution : allTrue [
    decide (Place.slice 0 ∈ P1.places), decide (Place.core 3 ∈ P1.places),
    decide (((refuted false).part 0).places = P1.places) && (((refuted false).part 0).res.find 50).any (fun r => !r.complete && r.applied.isEmpty &&
      !((refuted false).waveStalls 0 r (.slice 0)) && !((refuted false).waveStalls 0 r (.core 3))),
    (((refuted true).part 0).res.find 50).any (fun r => !r.complete && (refuted true).resDone 0 r) &&
      decide (((refuted true).part 0).hyp.find 1 = some { gen := 1, st := .resolving, outcome := 2 })] = true := by decide +kernel

/-- Operands of a predicate: registers from 2 on, F32, without and with GEO_NONFINITE. -/
def geo (d : BitVec 6) (x : Word) : V3 := { d := d, a := 8, b := 16, m := 0, h := 0, q := 0, x := x }

def holds (i : Instr) (o : GeoOp) (f : V3) : Bool :=
  met i (geoChecks o f) [] id (fun s c act => act.all fun t => !(nonFinite s c o f t)) &&
  met i (geoChecks o f) (reg 8 3 0x7F800000) id (fun s c act => !(f.x.getLsbD 2) && act.any fun t => nonFinite s c o f t)

/-- The unit held at tick 0, at tick 12 or 62, its quads with one end or with two. -/
def geoHeld (ends : List Nat) (tick : Nat) : State :=
  let s := on (.orient2 (geo 4 0)) []
  { s.onWarp wid (fun w => { w with
      exited := 0xFFFFFF00, geoOut := [(0, .v 4, 1), (4, .v 4, 0xFFFFFFFF)],
      groups := w.groups.flatMap fun (g : Group) => ends.zipIdx.map fun (e : Nat × Nat) =>
        { g with quad := e.2, lanes := 0xF#32 <<< (4 * e.2), st := .geo, since := 0, bound := e.1 } }) with tick := tick }

def calm (s : State) : Bool :=
  let gs := (s.warp wid).running 0
  decide ((s.unitAt { wid := wid, sliver := 0 }).mem = [(wid, 0)]) && decide (gs.length = 2) &&
    gs.all (fun g => decide (g.st = .geo) && decide (g.since = 0)) && decide (12 ≤ s.warpTick wid)

/-- Three points far from one line, in registers from 8 on: stage 1 decides, and the unit is over 12 ticks later. -/
def corners : List (Nat × Reg) := [0, 0, 0x40800000, 0, 0, 0x40800000].zipIdx.flatMap fun x => reg (if x.2 < 4 then 8 + x.2 else 12 + x.2) 3 x.1

def decided (i : Instr) (o : GeoOp) (f : V3) (l : List (Nat × Reg)) : Bool :=
  met i (geoChecks o f) l id fun s c act => decide (c.u.mem = [(wid, 0)]) && decide ((s.warp wid).geoOut = []) &&
    (f.x.getLsbD 2 || act.all fun t => !(nonFinite s c o f t)) && (geoResults s c o f act).all fun x => x.2.2 = 1

theorem wit_GeometricPredicates : allTrue [
    decided (.orient2 (geo 4 0)) .orient2 (geo 4 0) corners, decided (.orient3 (geo 4 4)) .orient3 (geo 4 4) (reg 8 3 0x7F800000),
    decided (.incirc (geo 4 4)) .incirc (geo 4 4) (reg 8 3 0x7F800000), decided (.insph (geo 4 4)) .insph (geo 4 4) (reg 8 3 0x7F800000),
    decided (.segx (geo 4 4)) .segx (geo 4 4) (reg 8 3 0x7F800000),
    holds (.orient2 (geo 4 0)) .orient2 (geo 4 0), holds (.orient3 (geo 4 0)) .orient3 (geo 4 0),
    holds (.incirc (geo 4 0)) .incirc (geo 4 0), holds (.insph (geo 4 0)) .insph (geo 4 0),
    holds (.segx (geo 4 0)) .segx (geo 4 0),
    (let s := geoHeld [12, 12] 12
     calm s && ((s.warp wid).running 0).all fun g => decide (g.bound = 12) && decide (g.bound ≤ s.warpTick wid)),
    (let s := geoHeld [12, 62] 12
     calm s && (s.warp wid).groups.all fun g => g.sliver < (s.warp wid).nextSliver)] = true := by
  decide +kernel

theorem wit_GeometricDeterminants : allTrue [
    decide (GeoOp.orient2.exact [[0, 0], [4, 0], [1, 2]] = 8),
    (GeoOp.orient2.lane false [FVal.nan] none) == (0x80000000, 1),
    decide (segCode [0, 0] [4, 0] [2, 0] [6, 0] = 3), decide (segCode [0, 0] [4, 0] [4, 0] [6, 0] = 2),
    decide (segCode [-1, 0] [4, 0] [0, -1] [0, 1] = 1)] = true := by decide +kernel

/-! ## Witnesses: checks, special registers, system instructions -/

/-- A load that will write register 1 of thread 0 is on its way. -/
def writing (s : State) : State :=
  { s with accs := s.accs.put 50 { kind := .ld, wid := wid, lane := 0, lanes := 1, core := 0, part := 0, asid := 0, va := 0x1000,
                                   size := 4, bid := bid, iid := 40, dst := [(0, [.v 1])] } }

/-- A state in which an IADD has active threads `n`, with or without a register in the way. -/
def iaddAt (f : V3) (l : List (Nat × Reg)) (w : State → State) (n : Nat) (busy : Bool) : Bool :=
  let s := w (on (.iadd f) l)
  let c := s.ctx (.iadd f)
  let act := s.active c f.q
  decide (act.length = n) && act.any (fun t => s.busy t (s.dreg c t f.d)) == busy && !c.trap &&
    act.all fun t => !(s.marked t (s.dreg c t f.d))

theorem wit_ChecksInOrder : allTrue [
    iaddAt (V 1 2 3 4) [] id 4 false, iaddAt (V 53 2 3) [] id 4 false, iaddAt { V 1 2 3 with q := 1 } [] id 0 false,
    iaddAt (V 1 2 3) [] writing 4 true, iaddAt (V 1 2 3) (reg 2 4 0) id 4 false, iaddAt (V 1 3 2) (reg 2 4 0 ++ reg 3 4 0) id 4 false,
    (let s := (on (.iadd (V 56 2 3)) []).onWarp wid fun w => { w with groups := w.groups.map fun (g : Group) => { g with lanes := 1 } }
     iaddAt (V 56 2 3) [] (fun _ => s) 1 false && !(s.complete (s.ctx (.iadd (V 56 2 3))).u))] = true := by decide +kernel

def fs (d : BitVec 6) (n : BitVec 12) (m : BitVec 5 := 0) : FS := { d := d, sreg := n, m := m, q := 0 }

def swrOk (f : FS) (w : State → State) : Bool :=
  let s := w (on (.swr f) [])
  match s.gate (s.ctx (.swr f)) (swrChecks s f) with
  | .go act => decide (act.length = 4) && (f.sreg ≠ 0x801 || !(s.setSplit (s.ctx (.swr f)).u))
  | _ => false

def srdOk (f : FS) (w : State → State) : Bool :=
  let s := w (on (.srd f) [])
  match s.gate (s.ctx (.srd f)) (srdChecks s f) with
  | .go act => decide (act.length = 4)
  | _ => false

theorem wit_SpecialRegisters : allTrue [
    srdOk (fs 1 0) id, srdOk (fs 2 0x200 1) id, srdOk (fs 2 0x802 1) trapMode, srdOk (fs 2 0xC00 1) trapMode,
    swrOk (fs 1 0x011) id, swrOk (fs 1 0x020) id, swrOk (fs 1 0x02A) id, swrOk (fs 1 0x218) id, swrOk (fs 1 0x219) id,
    swrOk (fs 1 0x21A) id, swrOk (fs 1 0x21B) id, swrOk (fs 2 0x801 1) trapMode, swrOk (fs 2 0x801) trapMode,
    !((on (.srd (fs 1 0x800)) []).ctx (.srd (fs 1 0x800))).trap] = true := by decide +kernel

/-- A warp in trap mode with a record of a load of its thread 0 and one of an LDU, whose counts are outstanding. -/
def rec (kind : AccKind) (iid : Nat) : FaultRec :=
  { cause := cz 0x10 2, m4 := 4, kind := kind, ordered := false, lanes := 1, pc := 0x1004, hdr := 0x1000, hyp := 0, dest := 1, xw := 0,
    fqseq := none, each := [{ lane := 0, addr := 0x9000, data := [], dst := [.v 1] }], iid := iid, arrived := 0 }
def inHandler (s : State) : State :=
  let s := trapMode s
  { s.onWarp wid (fun w => { w with tpc := 0x1000, tkept := some (0x1000, 0xF103FFC0), faults := [rec .ld 40, rec .ldu 41] }) with
    outst := [{ wid := wid, iid := 40, ctr := 0, left := 1 }, { wid := wid, iid := 41, ctr := 0, left := 1 }] }

def sys (i : Instr) (w : State → State) (p : State → Ctx → List Th → Bool) (k : State → Checks := fun s => sysChecks s 0)
    (l : List (Nat × Reg) := []) : Bool :=
  let s := w (on i l)
  match s.gate (s.ctx i) (k s) with
  | .go act => decide (act.length = 4) && decide ((s.ctx i).u.mem = [(wid, 0)]) && p s (s.ctx i) act
  | _ => false

def returns (s : State) (c : Ctx) (_ : List Th) : Bool :=
  decide (s.heldRels wid = []) && decide ((s.warp wid).heldTraps = []) && !(s.setSplit c.u) && decide ((s.warp wid).tkept ≠ none) && s.outst.all fun o => o.left ≠ 0

/-- A second part of the warp, held with a trap of its own. -/
def oneHeld : HeldTrap :=
  { sliver := 1, cause := cz 0x10 0, tval := 3, mask := 0x10, recorded := false, trec := 0, deliv := none, pc := 0x1004, hdr := 0x1000,
    hw := 0xF103FFC0, depth := 0, mix := false, skip := 0 }
def beside (s : State) : State := handler 0x10 ((inHandler s).onWarp wid fun w => { w with
  exited := 0xFFFFFF00, nextSliver := 2, heldTraps := [oneHeld]
  groups := w.groups ++ w.groups.map fun (g : Group) => { g with sliver := 1, quad := 1, lanes := 0xF0, st := .heldTrap } })

def letsIn (s : State) (c : Ctx) (_ : List Th) : Bool :=
  !(s.setSplit c.u) && decide ((s.warp wid).tkept ≠ none) && decide ((s.warp wid).heldTraps = [oneHeld]) &&
    lands s { wid := wid, lane := 0 } (s.handlerAt wid oneHeld.cause)

theorem wit_ReturnsFromTraps : allTrue [
    sys (.rte (V 0 0 0)) inHandler returns, sys (.rtex (V 0 0 0 1)) inHandler returns, sys (.rte (V 0 0 0)) beside letsIn,
    sys (.rtex (V 0 0 0 1)) beside letsIn,
    !((on (.rte (V 0 0 0)) []).ctx (.rte (V 0 0 0))).trap] = true := by decide +kernel

/-- WIDLE into register 1 with the timeout in register 2, whose unit waits since tick 0 for 5 ticks. -/
def wi : V3 := V 1 2 0 3
def idling (s : State) : State :=
  { s.onWarp wid (fun w => { w with groups := w.groups.map fun (g : Group) => { g with st := .widle, bound := 5 } }) with tick := 5 }
def kw : Checks := widleChecks wi
def tl : V3 := V 0 2 52 2
/-- A TLBI of a length in registers 4 and 5, here 0 or 1. -/
def tlLen : V3 := V 0 2 4 2

/-- A shootdown of the register of BAR2, or of the test unit. -/
def shoot (host : Bool) : State := (on (.tlbi tl) []).onPart 0 fun P => { P with
  sds := [(50, { asid := 0, lo := 0, hi := 0x10000, fromHost := host, wid := wid, sliver := 0 })] }

/-- The watchdog's hypotheses: the warp has been in trap mode for 2^24 ticks, in one group that is not parked. -/
def late (s : State) : Bool :=
  let t : State := { inHandler s with tick := 16777216 }
  let w := t.warp wid
  decide ((t.gang (t.block w.bid).gid).st = .running) && decide (w.trapSet ≠ 0) && decide (w.trapSince + 16777216 ≤ t.warpTick wid) &&
    decide (w.groups.length = 1) && w.groups.all fun g => decide (g.st ≠ .parked) && decide (g.st ≠ .asking) && decide (g.st ≠ .geo) &&
      g.parkNext.isNone && decide (g.pos = 0) && decide (g.quad < 8) && decide (g.lanes &&& w.trapSet ≠ 0)

theorem wit_ParkingIdlingAndShootdowns : allTrue [
    sys (.park (V 0 0 0 4)) trapMode (fun s c _ => !(s.setSplit c.u) && ((s.warp wid).running 0).all fun g => g.lanes ≠ 0),
    met (.widle wi) kw [] (fun s => s.onWarp wid fun w => { w with latch := 4 }) (fun s _ act => act.all fun t => (s.warp t.wid).latch ≠ 0),
    met (.widle wi) kw [] idling (fun s c _ => s.widleOver c.u),
    met (.widle wi) kw (reg 2 1 9) id (fun s c act => !(s.widleOver c.u) && act.any (fun t => (s.warp t.wid).latch = 0) &&
      ((s.warp wid).running 0).all fun g => g.st ≠ .widle),
    (let s := idling (on (.widle wi) [])
     decide ((s.gang (s.block (s.warp wid).bid).gid).st = .running) && s.widleOver (s.unitAt { wid := wid, sliver := 0 }) &&
       match s.nextInstr (s.unitAt { wid := wid, sliver := 0 }) with
       | .ok (.widle i) => i = wi
       | _ => false),
    sys (.tlbi tl) trapMode (fun s c act => (s.releaseHold c act).isNone && (s.parts.find (s.partOf wid)).isSome) (tlbiChecks · tl),
    sys (.tlbi tlLen) trapMode (fun s c act => act.all fun th => tlbiLength tlLen s c th = 0) (tlbiChecks · tlLen),
    sys (.tlbi tlLen) trapMode (fun s c act => (act.all fun th => tlbiLength tlLen s c th = 1) && (s.releaseHold c act).isNone)
      (tlbiChecks · tlLen) (reg 4 1 1),
    sys (.tlbi tl) trapMode (fun s _ act => s.accs.isEmpty && (s.part 0).sds.isEmpty && !act.isEmpty) (tlbiChecks · tl),
    [true, false].all (fun h => ((shoot h).part 0).sds.any fun x => (shoot h).sdDone x.2),
    decide (((shoot false).unitAt { wid := wid, sliver := 0 }).mem = [(wid, 0)]),
    (((on (.nop (V 0 0 0)) []).onCore 0 fun r => { r with asleep := true }).coreRegs 0).asleep,
    late ((on (.nop (V 0 0 0)) []).onWarp wid fun w => w)] = true := by decide +kernel

/-! ## Witnesses: accesses on their way, versions, faults -/

/-- An access of thread 0 to the word at 0x3000, and the machine in which it alone is on its way. -/
def acc (kind : AccKind) (st : AccSt) : Access :=
  { kind := kind, iid := 40, wid := wid, core := 0, bid := bid, part := 0, asid := 0, lane := 0, lanes := 1, va := 0x3000, size := 4,
    data := [1, 2, 3, 4], dst := [(0, [.v 1])], target := bid, st := st }
def flying (a : Access) (w : State → State := id) : State :=
  let s := w (scr (on (.nop (V 0 0 0)) []))
  { s with accs := s.accs.put 50 a, outst := [{ wid := wid, iid := 40, ctr := 0, left := 1 }], nextId := 60 }

/-- The first 256 MiB are pages of host memory in host bias. -/
def hostPages (s : State) : State := { s with vault := Memory.wrN s.vault 0x20000 (natLe 8 0x1C1F) }

/-- `atHome` with a further condition on the leaf. -/
def home (s : State) (a : Access) (kind : WalkKind) (p : Leaf → Bool) : Bool :=
  decide (s.accs.find 50 = some a) && s.mayPerform 50 a && decide ((s.part a.part).homeTile a.va = some 0) &&
    match (s.translate a.part a.asid a.va kind).2 with
    | .ok lf => p lf
    | .error _ => false

/-- A word of the line that core 1 owns and holds written. -/
def owned (s : State) : State := { s with
  reg := [{ part := 0, asid := 0, line := 0x3000 / 128, core := 1, mask := 1 }]
  l1 := [{ core := 1, part := 0, asid := 0, line := 0x3000 / 128, hid := 0, valid := 15, data := Memory.wrN [] 0 [9, 9, 9, 9], dirty := 15, owned := 1 }] }

/-- The core has room for a line in its L1: `roomInL1`. -/
def fits (s : State) : Bool := decide ((s.l1.filter fun l => l.core = 0).length < Config.l1Lines)

def storeHome (w : State → State) (dev : Bool) : Bool :=
  let a := acc .st .sent
  let s := flying a w
  home s a .store (fun lf => lf.devBias == dev) && (s.storeFail 50 a).isNone && !((s.coreRegs a.core).failed) &&
    decide (a.data.length = a.size) && decide (0 < a.size ∧ a.va.toNat % 128 + a.size ≤ 128) && decide (a.hyp.extractLsb' 0 8 = 0) &&
    fits s

theorem wit_AccessesAtHome : allTrue [
    storeHome id true, storeHome hostPages false,
    (let a : Access := { acc .ld .sent with va := 0x20000000 }
     let s := flying a
     s.mayPerform 50 a && (s.translate 0 0 a.va .load).2.toOption.isNone),
    (let a := acc .st .answered; (flying a).delivered a),
    (let a := acc .ld .sent
     let s := flying a owned
     home s a .load (fun _ => true) && a.kind.isLoad && !(s.accLid 50 a true) && decide (s.foreignOwner a = some 1)),
    (let a := acc .ld .sent
     let s := flying a
     home s a .load (fun lf => ((s.translate 0 0 a.va .load).1.homeBytes (some 0) 0 0 0 [0] lf a.va a.size).toOption.isSome) && !(s.accLid 50 a true) &&
       decide (s.foreignOwner a = none)),
    (let a := acc .ld (.atOwner 1)
     let s := flying a owned
     home s a .load (fun lf => (s.homeBytes (some 0) 0 0 0 [0] lf a.va a.size).toOption.isSome) && !((s.coreRegs 1).failed)),
    (let a := acc .atom .sent
     let s := flying a
     home s a .atomic (fun lf => lf.devBias && decide (lf.addr % 128 + 4 ≤ 128) &&
       (((s.translate 0 0 a.va .atomic).1.forceBack 0 0 (lineOf a.va) 0 lf).committed 0 0 0 lf a.va 4).toOption.isSome) &&
       (s.storeFail 50 a).isNone),
    (let s := flying (acc .ld .sent)
     home s (acc .ld .sent) .load fun lf => !(s.lineUpset lf.space lf.addr) && lf.devBias && decide (lf.addr % 128 + 4 ≤ 128))] = true := by decide +kernel

def remoteSent (kind : AccKind) : Bool :=
  let a : Access := { acc kind .sent with va := 0x40, dst := if kind = .stn then [] else [(0, [.v 1])] }
  let s := flying a
  s.delivered a && s.streamHead 50 a && (s.blocks.find a.target).isSome && !((s.block a.target).retired)

theorem wit_RepliesAndRemoteAccesses : allTrue [
    [AccKind.ld, .ldu, .ldt, .ldn, .atom, .atomn].all (fun kind => (flying (acc kind .answered)).delivered (acc kind .answered)),
    ((flying (acc .ld .answered)).warps.find wid).isSome && fits (flying (acc .ld .answered)), (acc .ld .answered).dst.all (fun x => x.2 = [.v 1]),
    remoteSent .ldn, remoteSent .stn, remoteSent .atomn] = true := by decide +kernel

/-- A store under hypothesis 1, with an earlier one that waits for an entry, or with its hypothesis refuted at the slice. -/
def va1 : Access := { acc .st .sent with hyp := 0x101 }
def behindOne (s : State) : State := let s := hyps .live s; { s with accs := [(45, { va1 with st := .waiting 0 7, lane := 1, lanes := 2, va := 0x5000 })] }
def refutedAt (s : State) : State := s.onPart 0 fun P => { P with
  hyp := [(1, { gen := 1, st := .resolving, outcome := 2 })]
  res := [(30, { confirm := false, handle := 0x101, parent := 0, ids := [0x101], applied := [.slice 0] })] }

/-- Hypothesis 1 confirmed into the root, at the slice too. -/
def confirmedAt (s : State) : State := s.onPart 0 fun P => { P with
  hyp := [(1, { gen := 1, st := .resolving, outcome := 1 })]
  res := [(30, { confirm := true, handle := 0x101, parent := 0, ids := [0x101], applied := [.slice 0] })] }

/-- A write that has waited long enough, and what its handle stands for at its slice and in the end. -/
def tooLong (w : State → State) (here ever : Option (BitVec 16)) : Bool :=
  let a : Access := { va1 with st := .waiting 0 7 }
  let s := flying a fun s => { w s with tick := 65536 }
  decide (s.accs.find 50 = some a) && decide (65536 ≤ s.sliceTick a.part a.va) &&
    decide ((s.part 0).effHyp ((s.part 0).homePlace a.va) a.hyp = here) && decide ((s.part 0).effBy (fun _ => true) a.hyp = ever)

def version (w : State → State) (room : Bool) : Bool :=
  let s := flying va1 w
  home s va1 .store (fun _ => true) && !(s.accLid 50 va1 false) && decide ((s.part 0).effHyp ((s.part 0).homePlace va1.va) va1.hyp = some 0x101) &&
    s.versionRoom 0 0 va1.va 1 none == room && decide (va1.va.toNat % 32 + va1.size ≤ 32)

/-- A copy from global memory. -/
def fromGlobal : List Byte := img 64 [(0, 4, noAddr), (8, 8, 0x2000), (16, 8, 0x200), (24, 4, 16), (28, 2, 2)]

/-- The router of tile 0 holds no entry for local tile 0 that it may use. -/
def badRoute (s : State) : State := { s with wafer := { s.wafer with route := [(0, 7)] } }

/-- A record 256 ticks old of the test warp. -/
def aged (s : State) : State :=
  { s.onWarp wid (fun w => { w with faults := [rec .ld 40] }) with tick := 256 }

theorem wit_VersionsFaultsAndDrops : allTrue [
    version (hyps .live) true, version behindOne false,
    (let s := flying va1 refutedAt
     s.mayPerform 50 va1 && decide ((s.part 0).effHyp ((s.part 0).homePlace va1.va) va1.hyp = none)),
    (let s := flying va1 confirmedAt
     home s va1 .store (fun lf => decide (lf.addr % 128 + 4 ≤ 128) && !(s.lineUpset lf.space lf.addr) && lf.devBias) && fits s &&
       decide ((s.part 0).effHyp ((s.part 0).homePlace va1.va) va1.hyp = some 0)),
    tooLong (hyps .live) (some 0x101) (some 0x101), tooLong refutedAt none none, tooLong confirmedAt (some 0) (some 0),
    (let s := flying (acc .ld .faulted)
     s.allJudged wid 40 && !((s.faultedOf wid 40).isEmpty) && (s.warps.find wid).isSome && !((acc .ld .faulted).inTrap) && !(s.fqHeld 0)),
    (let s := aged (handler 0x10 (on (.nop (V 0 0 0)) []))
     let u := s.unitAt { wid := wid, sliver := 0 }
     decide (s.timeoutUnit wid = some 0) && decide (u.mem = [(wid, 0)]) && decide ((s.warp wid).trapSet = 0) &&
       lands s { wid := wid, lane := 0 } (s.handlerAt wid (cz 0x10 2)) && (s.warp wid).groups.all (fun g => g.depth = u.depth) &&
       ((s.warp wid).oldestRec (lanesIn u.th wid)).any fun r => r.cause = cz 0x10 2),
    (let a := acc .ld .sent
     decide ((flying a fun s => { s with wafer := { s.wafer with route := [(0, 7)] } }).accWay a = .drop 0 0 0 1)),
    (let a : Access := { acc .ld .sent with dropped := some 0 }
     decide ((flying a fun s => { s with gtime := 16000 }).accs.find 50 = some a)),
    decide ((badRoute (withOp (op 0 fromGlobal .running))).engineDrop (op 0 fromGlobal .running) =
      some ({ source := 0, dst := 0, plane := 0, kind := 5 }, 0, 0, 0, 1)),
    decide ((badRoute (asked 3 0x101)).hypWay (req 3 0x101) = .drop 0 0 0 1) && !((badRoute (asked 3 0x101)).hypDelivered (req 3 0x101))] =
      true := by decide +kernel

/-! ## Witnesses: clauses, warps, gangs -/

/-- The unit of the test warp at a header that calls for a rejoin or not. -/
def atHdr (bits : Word) (s : State) : State :=
  let h : Word := 0xF103FFC0 ||| bits
  { s.onWarp wid (fun w => { w with groups := w.groups.map fun (g : Group) => { g with pc := 0x1000 } }) with
    vault := Memory.wrN s.vault 0x10001000 (natLe 4 h.toNat) }

def entering (bits : Word) (p : State → IssueUnit → Bool) : Bool :=
  let s := atHdr bits (on (.nop (V 0 0 0)) [])
  let u := s.unit
  decide (u.mem = [(wid, 0)]) && !(s.flipping 0 0 u.hdr) && match s.fetch 0 0 u.hdr with
    | .ok h => !(s.flipping 0 0 (u.hdr + BitVec.ofNat 64 (4 * clauseN h))) && isHeader h && decide (headerFault h = none) && (isRejoin h == decide (bits ≠ 0)) &&
        (match s.clauseWords 0 0 (u.hdr + 4) (clauseN h) with
          | (code, e) => e.isNone && decide (clauseFault (clauseN h) (clauseClass h) 1 code = none)) &&
        p s u
    | .error _ => false

/-- A mixed warp of the test warp and a second one at one rejoin header, where the second has a part held too, or not. -/
def mixedAt (held : Bool) (s : State) : State :=
  let s := atHdr 0x20 s
  let w := s.warp wid
  { s with mixed := [{ core := w.core, parts := [(wid, 0), (5, 0)] }]
           warps := s.warps.put 5 { w with idx := 1, groups := w.groups.flatMap fun (g : Group) => { g with quad := 1, lanes := 0xF0 } ::
             if held then [{ g with quad := 2, lanes := 0xF00, sliver := 1, st := .held }] else [] } }

def mixedEnters (held : Bool) : Bool :=
  let s := mixedAt held (on (.nop (V 0 0 0)) [])
  let u := s.unit
  decide (u.mem = [(wid, 0), (5, 0)]) && match s.fetch 0 0 u.hdr with
    | .ok h => isHeader h && isRejoin h && decide (headerFault h = none) && !(s.allPassed u) &&
        (match s.clauseWords 0 0 (u.hdr + 4) (clauseN h) with
          | (code, e) => e.isNone && decide (clauseFault (clauseN h) (clauseClass h) 1 code = none)) &&
        decide (s.leavers u = if held then [(5, 0)] else [])
    | .error _ => false

/-- The warp's one group held since tick 0 at its header. -/
def heldAt (s : State) : State := (atHdr 0x20 s).onWarp wid fun w => { w with
  groups := w.groups.map fun (g : Group) => { g with st := .held } }

/-- A second warp, pending and ready since tick 0, beside the first, which meets a long dependence. -/
def pair (s : State) : State :=
  let s := s.onWarp wid fun w => { w with depSince := some 0 }
  { s with tick := 448, tried := [{ wid := wid, sliver := 0 }],
           warps := s.warps.put 5 { s.warp wid with inActive := false, depSince := none, pendReady := some 0, idx := 1 } }

theorem wit_ClausesRejoinsAndSwaps : allTrue [
    entering 0 fun _ _ => true, entering 0x20 fun s u => !(s.allPassed u), mixedEnters false, mixedEnters true,
    (let s := { atHdr 0 (on (.nop (V 0 0 0)) []) with vault := Memory.wrN (on (.nop (V 0 0 0)) []).vault 0x10001003 [0] }
     match s.fetch 0 0 s.unit.hdr with
       | .ok h => !(isHeader h)
       | .error _ => false),
    ((heldAt (on (.nop (V 0 0 0)) [])).warp wid).rejoinDue,
    (let s := { heldAt (on (.nop (V 0 0 0)) []) with tick := 1024 }
     ((s.warp wid).running 0).all fun g => s.holdLate wid g && decide (g.hdr = 0x1000)),
    (let s := pair (on (.nop (V 0 0 0)) [])
     Tbl.sorted s.warps && decide (leastBy (s.readyPending 0) = some (5, 0)) &&
       decide (s.firstDep ((s.coreWarpIds 0 true).filter s.longDep) = some wid) && decide (s.longestActive 0 = some wid) &&
       decide (0 + 448 ≤ s.tickOf 0))] = true := by decide +kernel

/-- A second launch of a kernel on the partition, whose gang 11 waits. -/
def waiting (d : KDesc) (prio : Nat) (s : State) : State :=
  let l : Launch := { s.launch lid with desc := d, prio := prio, src := .queue 1, started := 0, gangs := 2, serial := 2 }
  { s with launches := s.launches.put 10 l, gangs := s.gangs.put 11 { lid := 10, idx := 0 }, nextId := 12 }

/-- A kernel that needs every core of a tile. -/
def whole : KDesc := { bootDesc with perTile := 4, gx := 1, gy := 1, roles := [{ code := 0, warps := 16, regs := 128 }] }

/-- The state after an event. -/
def after (i : Instr) (s : State) : State := match exec i s with
  | .next t => t
  | _ => s

def running : State := on (.nop (V 0 0 0)) []
def savedGang : State := after (.preemptSave gid) (after (.preemptRequest gid) running)

def restores (s : State) : Bool :=
  decide ((s.gang gid).st = .saved) && s.itsTurn gid (s.gang gid) && s.placeOk (s.part 0) (s.launch lid).desc [(1, 0)] &&
    (s.gang gid).image.all fun im => Tbl.sorted im.warps

/-- Gang 11 has waited 50 µs, and gang 2 must go for it. -/
def waitedLong (s : State) : Bool :=
  (s.gang 11).waits && decide ((s.gang 11).waitFrom + 50000 ≤ s.gtime) && ((s.offered 0).any fun x => x.1 = 11) &&
    decide (s.enough (s.part 0) whole [] ((s.victims 0 1).map (·.1)) = some [gid])

/-- The launch is a slot's, under the PREEMPT policy, with its next firing given. -/
def ofSlot (next : Option Nat) : State := (running.onLaunch lid fun l => { l with src := .slot 0 }).onPart 0 fun P =>
  { P with energy := 9, slots := [(0, { set := true, policy := 2, cur := some lid, next := next })] }

theorem wit_GangsAndLaunches : allTrue [
    (let s := waiting bootDesc 0 running
     decide ((s.gang 11).st = .waiting) && s.itsTurn 11 (s.gang 11) && s.placeOk (s.part 0) bootDesc [(1, 0)] && s.coreUp 1),
    (let s := running.onWarp wid fun w => { w with exited := 0xFFFFFFFF, groups := [] }
     s.blockDone bid (s.block bid) && !(s.retireHeld bid (s.block bid)) && decide ((s.block bid).gid < s.nextId) && (s.gang gid).bids.all fun x => x = bid),
    decide ((running.gang gid).st = .running),
    (let s := after (.preemptRequest gid) running
     decide ((s.gang gid).st = .halted) && (s.failWaiting (s.gangWids gid)).drained gid),
    waitedLong { waiting whole 1 running with gtime := 50000 },
    restores savedGang && (savedGang.gang gid).image.length = 1 && decide ((savedGang.coreRegs 1).health = 0xFF),
    restores (savedGang.onCore 1 fun r => { r with health := 0x7F }),
    (let s := ofSlot none
     let l := s.launch lid
     decide (l.src = .slot 0) && Tbl.sorted s.gangs && !(s.preemptDue lid l)),
    (let s := ofSlot (some 0)
     let l := s.launch lid
     decide (l.src = .slot 0) && Tbl.sorted s.gangs && s.preemptDue lid l)] = true := by
  decide +kernel

/-! ## Witnesses: queues -/

/-- Bytes put at virtual addresses of the first 256 MiB. -/
def at' (l : List (Nat × List Byte)) (s : State) : State :=
  { s with vault := l.foldl (fun (m : Memory) x => Memory.wrN m (0x10000000 + x.1) x.2) s.vault }

/-- Queue 1 with its ring at 0x4000, its tail word at 0x5000 and one packet, changed by `f`. -/
def queued (pkt : List Byte) (f : Queue → Queue := id) (l : List (Nat × List Byte) := []) : State :=
  at' ((0x4000, pkt) :: (0x5000, natLe 4 1) :: l) (running.onPart 0 fun P => { P with
    queues := [(1, f { ring := 0x4000, tailp := 0x5000, lsize := 4, en := true, st := 1, tail := 1 })] })

/-- The packet at the head is read, with its type, and a condition holds of the state after and the packet. -/
def packet (s : State) (type : Nat) (p : State → List Byte → Bool := fun _ _ => true) : Bool :=
  (s.parts.find 0).isSome && match s.headPacket 0 1 with
    | (m, some b) => decide (field b 0 1 = type) && p m b
    | (_, none) => false

def launchPkt : List Byte := img 64 [(0, 1, 1), (1, 1, 5), (4, 4, 2), (8, 8, 0x6000), (16, 8, 0x6100), (24, 8, 0x7000), (32, 8, 1)]
/-- A descriptor of one block of one warp of 64 registers, with 16 bytes of parameters. -/
def descBytes : List Byte := img 64 [(0, 8, 0x1000), (8, 2, 1), (10, 1, 1), (22, 2, 512), (24, 4, 16), (33, 1, 1), (34, 2, 64)]
def fencePkt (n : Nat) : List Byte := img 64 [(0, 1, 2), (1, 1, n), (16, 8, 0x7000), (24, 8, 1)]
def signalPkt (fl : Nat) : List Byte := img 64 [(0, 1, 3), (1, 1, fl), (8, 8, 0x7000), (16, 8, 4)]
def read (s : State) (va : DWord) (n : Nat) : Bool := (s.queueRead 0 1 va n).2.isSome

/-- A counter at 0x7000 that may be updated. -/
def counterOk (s : State) : Bool := match (s.translate 0 0 0x7000 .atomic).2 with
  | .ok lf => decide ((s.part 0).homeTile 0x7000 = some 0) && decide (lf.addr % 128 + 8 ≤ 128) && lf.devBias &&
      (((s.translate 0 0 0x7000 .atomic).1.forceBack 0 0 (lineOf 0x7000) 0 lf).committed 0 0 0 lf 0x7000 8).toOption.isSome
  | .error _ => false

theorem wit_QueuePackets : allTrue [
    (let s := queued (img 64 []) fun Q => { Q with tail := 0 }
     (s.part 0).parses 1 && !(s.ctrHeld 0 0 ((s.part 0).queue 1).headp) && decide ((s.queueRead 0 1 0x5000 4).2 = some (natLe 4 1))),
    (let s := queued (img 64 []) (fun Q => { Q with tail := 0 }) [(0x5000, natLe 4 17)]
     (s.part 0).parses 1 && decide ((s.queueRead 0 1 0x5000 4).2 = some (natLe 4 17)) && decide (2 ^ 4 < (17 - 0 : Word).toNat)),
    packet (queued (img 64 [(0, 1, 6)])) 6, packet (queued (img 64 [])) 0 (fun _ b => zeros b 1 64),
    packet (queued (img 64 [(9, 1, 1)])) 0 (fun _ b => !(zeros b 1 64)),
    packet (queued launchPkt id [(0x6000, descBytes)]) 1 (fun m b => (m.startImage 0 0 b (.queue 1) none 0).2.toOption.isSome),
    packet (queued (img 64 [(0, 1, 1)])) 1 (fun _ b => decide (launchCheck b = some 7)),
    packet (queued (fencePkt 1)) 2 (fun m b => decide (field b 1 1 = 1) && zeros b 2 16 &&
      decide (fenceSlots 1 ≤ ((queued (fencePkt 1)).part 0 |>.queue 1).covered) &&
      decide ((m.fenceBody 0 1 1 (fenceSlots 1 - 1)).2 = some []) && (condsOf 1 (b.drop 16 ++ [])).toOption.isSome),
    (let s := queued [] fun Q => { Q with st := 2, wait := 1, conds := [(0x7000, 1)] }
     (s.part 0).placesNow && (s.rereadConds 0 1 [(0x7000, 1)]).2.isSome),
    packet (queued (img 64 [(0, 1, 3)])) 3 (fun _ b => signalBad b),
    packet (queued (signalPkt 2)) 3 (fun m b => !(signalBad b) && decide (field b 1 1 % 2 = 0) && (m.signalGo 0 1 b).2),
    packet ((queued (signalPkt 1)).onLaunch lid fun l => { l with src := .queue 1 }) 3 (fun m b => !(signalBad b) && decide (field b 1 1 % 2 = 1) &&
      decide (m.earlier 0 1 ≠ [])),
    (let s := queued [] fun Q => { Q with st := 2, drain := some (signalPkt 1, [77]) }
     (s.part 0).placesNow && (s.earlier 0 1).all (fun i => i ≠ 77) && (s.signalGo 0 1 (signalPkt 1)).2),
    counterOk running && !(running.flipping 0 0 0x7000)] = true := by
  decide +kernel

/-- A graph object at 0x8000 of two nodes, the second a SIGNAL after the first; the GRAPH packet that replays it. -/
def graphPkt : List Byte := img 64 [(0, 1, 4), (8, 8, 0x8000), (32, 8, 0x7000), (40, 8, 1)]
def object : List (Nat × List Byte) :=
  [(0x6000, descBytes), (0x8000, img 64 [(0, 2, 2), (8, 8, 0x6100), (16, 4, 16)]), (0x8040, launchPkt), (0x80C0, signalPkt 2), (0x8100, natLe 8 1)]
def twoNodes : List GNode :=
  [{ pkt := launchPkt, after := 0, desc := bootDesc, st := 0 }, { pkt := signalPkt 2, after := 0, st := 0 }]
def inst (n : Nat) (obj : DWord) : Nat × GraphInst :=
  (100 + n, { obj := obj, q := 1, asid := 0, params := 0xFFFFFFFE0000, pmem := 3, ctr := 0, inc := 0, nodes := twoNodes })
def withInsts (l : List (Nat × GraphInst)) (s : State) : State := s.onPart 0 fun P => { P with insts := l }

/-- Virtual page 0x10000000 in host memory, mapped by a level-0 leaf. -/
def biasPages (s : State) : State :=
  { s.onPart 0 (fun P => { P with b2 := { P.b2 with homes := P.b2.homes.put 1 0x8000 } }) with
    vault := Memory.wrN (Memory.wrN s.vault 0x20008 (natLe 8 0x30001)) 0x30000 (natLe 8 0x101F) }
def biasPkt : List Byte := img 64 [(0, 1, 5), (1, 1, 1), (8, 8, 0x10000000)]

def queueIn (f : Queue → Queue) : Queue := ((queued [] f).part 0).queue 1
def timed (f : Slot → Slot) : Part → Part := fun P => { P with slots := [(0, f { set := true, next := some 0, img := launchPkt })] }
def slotState (f : Slot → Slot) (energy : DWord) : State :=
  (queued [] id [(0x6000, descBytes)]).onPart 0 fun P => timed f { P with energy := energy }

theorem wit_GraphsFlipsAndControl : allTrue [
    packet (withInsts [inst 0 0x8000, inst 1 0x8000, inst 2 0x8000, inst 3 0x8000] (queued graphPkt)) 4 (fun m b =>
      decide (graphBad b = none) && decide (4 ≤ ((m.part 0).insts.filter fun i => i.2.obj = BitVec.ofNat 64 (field b 8 8)).length)),
    (let s := withInsts [inst 0 0x8000, inst 1 0x8000, inst 2 0x8000, inst 3 0x8000] (queued graphPkt fun Q => { Q with st := 2, wait := 3 })
     packet (s.unstall 0 1) 4 fun _ b => decide (graphBad b = none) && decide (field b 8 8 = 0x8000)),
    packet (queued graphPkt id object) 4 (fun m b => decide (graphBad b = none) && match m.queueRead 0 1 0x8000 64 with
      | (m1, some h) => decide (objBad h b = none) && match m1.readNodes 0 1 0x8000 0 (field h 0 2) with
        | (m2, some nodes) => decide (nodes.length = 2) && (m2.graphParams 0 1 h b).2.isSome
        | _ => false
      | _ => false),
    (let s := withInsts [inst 0 0x8000] running
     (s.part 0).placesNow && (inst 0 0x8000).2.nodes.all (fun y => decide (y.st = 0) && decide (y.after = 0)) &&
       decide ((s.signalDo 0 0 (signalPkt 2)).2.isNone) && !(s.ctrHeld 0 0 0x7000)),
    packet (biasPages (queued biasPkt)) 5 (fun m b => decide (field b 1 1 ≤ 1) && zeros b 2 8 && zeros b 24 64 &&
      decide (field b 8 8 % 65536 = 0) && decide (field b 16 8 % 8 = 0) && (m.biasLeaf 0 0 0x10000000).toOption.isSome),
    (let s := biasPages (queued [] fun Q => { Q with st := 2, flip := some (0x30000, 0x10000000, 0, true) })
     s.pageQuiet 0 0 0x10000000),
    (let s := queued [] fun Q => { Q with st := 2, owed := some 0x7000 }
     decide (((s.part 0).queue 1).flip = none) && !(s.ctrHeld 0 0 0x7000) &&
       ((s.onQueue 0 1 fun Q => { Q with owed := none }).counterUpdate 0 0 0x7000 1 false).2.isNone),
    decide ((running.part 0).td = .unlocked), decide ((queueIn fun Q => { Q with st := 3, err := 2 }).err ≠ 8),
    decide ((queueIn fun Q => { Q with st := 3, err := 8 }).err = 8),
    (let Q := queueIn fun Q => { Q with en := false, st := 0 }
     decide (4 ≤ Q.lsize.toNat) && decide (Q.lsize.toNat ≤ 16) && decide (Q.ring.toNat % 4096 = 0) && decide (Q.tailp.toNat % 128 = 0) &&
       decide (Q.headp.toNat % 8 = 0)),
    decide ((queueIn fun Q => { Q with en := false, lsize := 3 }).lsize.toNat < 4),
    decide ((queueIn id).st = 1) && (queueIn id).en,
    (let s := slotState id 0
     decide ((s.part 0).energy = 0) && ((s.part 0).slot 0).set && decide (((s.part 0).slot 0).next = some 0)),
    decide ((((slotState (fun x => { x with cur := some lid }) 9).part 0).slot 0).cur = some lid),
    decide ((((slotState (fun x => { x with cur := some lid, policy := 1 }) 9).part 0).slot 0).hold = none),
    (let s := slotState (fun x => { x with cur := some lid, policy := 2 }) 9
     decide (((s.part 0).slot 0).policy = 2) && decide (lid < s.nextId)),
    (let s := slotState (fun x => { x with hold := some 0 }) 9
     decide (((s.part 0).slot 0).cur = none) &&
       ((s.onSlot 0 0 fun x => { x with hold := none }).startImage 0 0 launchPkt (.slot 0) none 0).2.toOption.isSome),
    (let s := slotState id 9
     ((s.onSlot 0 0 fun x => { x with fired := x.fired + 1, last := s.gtime, next := x.after 0 }).startImage 0 0 launchPkt (.slot 0)
       none 0).2.toOption.isSome)] = true := by
  decide +kernel

/-! ## Witnesses: the host's registers and the security interface -/

/-- The booted machine with its partition changed. -/
def with0 (f : Part → Part) : State := running.onPart 0 f
def lockedP (P : Part) : Part := { P with td := .locked }

/-- `taken`, by the state of the interface. -/
def takes (P : Part) (priv locked trusted : Bool) : Bool :=
  decide (P.td = .unlocked) || (decide (P.td = .error) && !priv) ||
  ((decide (P.td = .locked) || decide (P.td = .run)) && (!priv || trusted) && !locked)

def P0 : Part := running.part 0

theorem wit_HostRegisters : allTrue [
    ((with0 lockedP).parts.find 0).any (fun P => P.td = .locked), takes P0 true false false, takes P0 true true false,
    takes { P0 with td := .run } true false true, takes { P0 with td := .error } false false false,
    decide (P0.b2.ptpend = none) && decide (P0.b2.staging.length = 8) && decide (P0.b2.ptheld = []) && !P0.quiesced,
    decide (P0.mpa 0x20010 = some 0x20010) && P0.granted 0x20010 8 && !(P0.flipAt 0x20010) && !(running.lineUpset 0 0x20010),
    !(P0.granted 0x30000000 8), ((with0 fun P => { P with b2 := { P.b2 with ptpend := some (0x20010, 5) } }).part 0).b2.ptpend.isSome,
    (0x80000000 : Word).getLsbD 31 && !P0.b2.sdbusy,
    (match running.walk 0 0 0x3000 with
      | .ok (lf, _) => lf.space ≠ 3 && (permit lf.pte .store).isNone && (running.tlbHit 0 0 0 0x3000).isNone
      | .error _ => false) && decide (0 < Config.tlbEntries),
    decide ((0x10005 : Word).extractLsb' 0 5 = 5), (running.warp wid).deliv.isNone,
    decide (P0.tiles[0]? = some 0), ({ running with wafer := { running.wafer with sweep := [(0, 1)] } }.wafer.sweep.find 0).isSome,
    ((with0 fun P => { P with msixEn := true, pba := 4 }).part 0).pba.getLsbD 2] = true := by decide +kernel

/-- A partition with a session of a stream, its interface in a state. -/
def secure (td : TdSt) (session : Nat) : State := with0 fun P => { P with
  td := td, spdm := { version := true, caps := true, algs := true, session := session, stream := some 3 } }

theorem wit_SecurityInterface : allTrue [
    decide (((secure .unlocked 2).part 0).spdm.session = 2) && !(secure .unlocked 2).grm.asleep && decide (((secure .unlocked 2).part 0).td = .unlocked) &&
      decide (((secure .unlocked 2).part 0).spdm.stream = some 3),
    decide (((secure .locked 2).part 0).td = .locked), decide (((secure .run 1).part 0).spdm.session ≠ 2), Tbl.sorted (secure .run 2).launches,
    decide (((secure .run 1).part 0).spdm.session = 1), ((secure .run 1).part 0).spdm.algs, ((secure .run 0).part 0).spdm.algs,
    decide (((secure .run 0).part 0).spdm.session = 0), !P0.spdm.version && !P0.spdm.caps && !P0.spdm.algs,
    decide (((secure .error 0).part 0).td = .error)] = true := by decide +kernel

/-! ## Witnesses: verbs -/

/-- A request in the mailbox: its code, its partition, and further fields. -/
def asks (code p : Nat) (l : List (Nat × Nat × Nat)) (s : State) : State :=
  { s with grm := { s.grm with yreq := (img 96 ((0, 2, code) :: (2, 2, p) :: l)).zipIdx.foldl (fun (m : Memory) b => Memory.wr m b.2 b.1) [] } }

def verb (code p : Nat) (l : List (Nat × Nat × Nat)) (s : State) (f : State → List Byte → Bool) : Bool :=
  let t := asks code p l s
  let q := t.request
  !t.grm.ybusy && !t.grm.asleep && decide (field q 0 2 = code) && decide (named t = p) && f t q

/-- The partition has tiles 0 and 1. -/
def twoTiles : State := with0 fun P => { P with tiles := [0, 1] }
def isFree (s : State) (x : Nat) : Bool := s.tileSt x = .free

theorem wit_PartitionVerbs : allTrue [
    verb 2 5 [] running (fun s _ => (s.parts.find 5).isNone), verb 8 0 [] (with0 lockedP) (fun s _ => (s.parts.find 0).any fun P => P.td ≠ .unlocked),
    verb 1 5 [] running (fun _ q => !(createOk q)),
    verb 1 0 [(4, 2, 2)] running (fun s q => createOk q && decide ((s.newNumber 0).toOption = none)),
    verb 1 0xFFFF [(4, 2, 2)] running (fun s q => createOk q && decide ((s.newNumber 0xFFFF).toOption = some 1) &&
      !(s.noChoice q 2 [] [41, 40]) && decide ((namedTiles q 2 [] (isFree s) [41, 40]).toOption = some [40, 41])),
    verb 2 0 [] running (fun s _ => Tbl.sorted s.launches),
    verb 3 0 [(4, 2, 1)] running (fun s q => !(s.noChoice q 1 [0] [1]) && decide ((namedTiles q 1 [0] (isFree s) [1]).toOption = some [1])),
    verb 4 0 [(4, 2, 1)] twoTiles (fun s _ => s.mayShrink 0 1), verb 4 0 [(4, 2, 1)] running (fun s _ => decide ((s.part 0).tiles.length ≤ 1)),
    verb 5 0 [(8, 1, 1), (16, 2, 1), (20, 2, 1), (22, 2, 1)] running (fun s q => decide ((namedTiles q 1 []
      (fun x => isFree s x || (s.part 0).tiles.contains x) []).toOption.isSome)),
    verb 6 0 [(6, 1, 1)] running (fun s q => decide (field q 6 1 + 40 * field q 7 1 = 1) && connected (putTile [0] 0 1) && isFree s 1),
    verb 6 0 [(6, 1, 40)] running (fun _ q => decide (40 ≤ field q 6 1))] = true := by
  decide +kernel

/-- One spare is held. -/
def oneSpare (s : State) : State := { s with wafer := { s.wafer with tile := [(0, .assigned 0), (1540, .spare)] } }

theorem wit_PartMigrateToSpare :
    verb 6 0 [(6, 1, 255), (7, 1, 255)] (oneSpare running) (fun s _ => (s.bestSpares (s.part 0) 0).contains 1540) = true := by
  decide +kernel

/-- Calm, quiesced for one job, with the mailbox busy. -/
def ends (code : Nat) (l : List (Nat × Nat × Nat)) (tiles : List Nat) (j : Job) : Bool :=
  let s := asks code 0 l { with0 (fun P => { P with tiles := tiles, quiesced := true, jobs := [j] }) with gangs := [] }
  let s := { s with grm := { s.grm with ybusy := true, yrun := s.request } }
  Tbl.sorted s.parts && decide (field s.grm.yrun 0 2 = code) && s.calm 0 && (s.parts.all fun x => x.1 = 0)

theorem wit_VerbsEnd : allTrue [
    ends 3 [] [0] (.grow [1]), isFree running 1, ends 4 [] [0, 1] (.shrink 1), twoTiles.mayShrink 0 1, ends 5 [] [0] (.move [1]),
    ends 6 [] [0] (.move [1]), ends 13 [] [0] .sleep, decide (running.tileSt 0 = .assigned 0)] = true := by
  decide +kernel

theorem wit_VerbsOnMemory : allTrue [
    verb 7 0 [(8, 8, 0x30000000), (16, 8, 0x10000)] running (fun s q => (s.part 0).framesOk q),
    verb 7 0 [(8, 8, 1)] running (fun s q => !((s.part 0).framesOk q)),
    verb 8 0 [(8, 8, 0x30000), (16, 8, 0x10000)] running (fun s q => (s.part 0).framesOk q && (s.part 0).granted 0x30000 0x10000 &&
      decide ((s.part 0).mpa 0x30000 = some 0x30000)),
    verb 9 0 [(4, 1, 63), (5, 1, 7)] running (fun _ q => decide (field q 4 1 < 64) && decide (field q 5 1 < 8)),
    verb 10 0 [(4, 1, 3), (32, 1, 2), (64, 1, 1)] running (fun s q => decide (field q 4 1 < 64) && decide (field q 32 1 < 3) &&
      decide (field q 64 1 = 1) && decide (s.gtime ≤ field q 8 8)),
    verb 11 0 [] running (fun s _ => (s.parts.find 0).isSome), verb 12 0 [] running (fun _ q => decide (field q 8 4 = 0)),
    verb 12 0 [(8, 4, 8)] (with0 fun P => { P with shape := some (List.replicate 9 0) }) (fun s q => decide (field q 8 4 % 8 = 0) &&
      (s.part 0).shape.any fun r => decide (field q 8 4 < r.length)),
    verb 12 0 [(8, 4, 9)] running (fun _ q => decide (field q 8 4 % 8 ≠ 0)),
    verb 13 0 [] running (fun s _ => !(s.part 0).quiesced && decide ((s.part 0).jobs = [])),
    verb 15 0 [] running (fun _ q => decide (14 < field q 0 2)),
    (let s := asks 14 0 [] { running with grm := { running.grm with asleep := true } }
     s.grm.asleep && !s.grm.ybusy && decide (field s.request 0 2 = 14))] = true := by
  decide +kernel

/-! ## Witnesses: errors, energy, time -/

/-- No partition's tile, and no other, is free or a spare, and tile 0 has failed. -/
def allDead : Tbl TileSt := (List.range 1560).map fun t => (t, .dead)
def noTiles : State :=
  { (running.onCore 0 fun c => { c with failed := true }) with wafer := { running.wafer with tile := allDead } }

theorem find_map (l : List Nat) (x : TileSt) (t : Nat) (h : t ∈ l) : Tbl.find (l.map fun k => (k, x)) t = some x := by
  induction l with
  | nil => cases h
  | cons a l ih =>
    by_cases e : t = a
    · simp [Tbl.find, e]
    · simp only [List.map_cons, Tbl.find, e, if_false]
      exact ih (by simpa [e] using h)

theorem noTiles_dead (t : Nat) (h : t < 1560) : noTiles.tileSt t = .dead := by
  have f : Tbl.find allDead t = some TileSt.dead := find_map _ _ _ (List.mem_range.mpr h)
  simp only [State.tileSt, noTiles, Tbl.getD, f, Option.getD_some]

theorem noTiles_spares : noTiles.spares = [] := by
  refine List.filter_eq_nil_iff.mpr fun t ht => ?_
  have : noTiles.tileSt t = .dead := noTiles_dead t (by simpa [Config.poolTiles] using ht)
  simp [this]

theorem noTiles_compactable : noTiles.compactable (running.part 0) = [] := by
  refine List.filter_eq_nil_iff.mpr fun t ht => ?_
  have h : noTiles.tileSt t = .dead := noTiles_dead t (by simpa [Config.poolTiles] using ht)
  have tl : (running.part 0).tiles = [0] := by decide +kernel
  rw [h, tl]
  by_cases e : t = 0
  · subst e
    have : noTiles.tileFailed 0 = true := by decide +kernel
    simp [this]
  · simp [e]

theorem chooseTiles_none (s : State) (avoid : List Nat) (n : Nat) (h : n ≠ 0) : s.chooseTiles [] avoid n = none := by
  simp [State.chooseTiles, State.bestShape, State.shapeIn, h]

theorem newTiles_none (s : State) (P : Part) (i : Nat) (x : Option Nat) (h : P.tiles.length ≠ 0) (b : s.bestSpares P i = [])
    (c : s.compactable P = []) (d : s.spares = []) : s.newTiles P i x = none := by
  unfold State.newTiles
  rw [b, c, d]
  cases x <;> simp [chooseTiles_none s _ _ h]

/-- The clauses of a migration and of a recovery that find no tile. -/
theorem wit_noTiles (x : Option Nat) : noTiles.bestSpares (running.part 0) 0 = [] ∧ noTiles.newTiles (running.part 0) 0 x = none :=
  have b : noTiles.bestSpares (running.part 0) 0 = [] := by simp [State.bestSpares, noTiles_spares]
  ⟨b, newTiles_none _ _ _ x (by decide +kernel) b noTiles_compactable noTiles_spares⟩

/-- A route entry of tile 0 that differs, its comparison due. -/
def skewed (s : State) : State := { s with wafer := { s.wafer with route := [(5, 7)] }, grm := { s.grm with repairs := [(0, [0])] } }

/-- The partition quiesced and calm for one job. -/
def calmFor (j : Job) (f : Part → Part := id) : State :=
  { with0 (fun P => f { P with quiesced := true, jobs := [j] }) with gangs := [] }
def jobRuns (j : Job) (f : Part → Part := id) : Bool :=
  let s := calmFor j f
  Tbl.sorted s.parts && decide ((s.part 0).jobs = [j]) && s.calm 0 && s.parts.all fun x => x.1 = 0

def noJobs' (s : State) : Bool := s.parts.all fun x => x.2.jobs = []
def runs (s : State) : Bool :=
  Tbl.sorted s.parts && !(s.part 0).quiesced && s.gangs.any fun g => g.2.st = .running && (s.launch g.2.lid).part = 0

/-- A tile whose counts have risen by 64 within a window. -/
def warm : State := { running with gtime := 1000000, wafer := { running.wafer with soft := [(0, 64)] } }

theorem wit_ErrorsAndFailures : allTrue [
    (0x80000000 : Word).getLsbD 31 && decide (running.tileOwner 0 = some 0), decide (running.tileOwner 1 = none),
    decide ((skewed running).grm.repairs = [(0, [0])]) && Tbl.sorted (skewed running).wafer.route,
    noJobs' running && decide (running.gtime / 1000000 ≤ running.grm.lastSample), runs running,
    (let s := running.onCore 3 fun c => { c with selfTest := true }
     noJobs' s && runs s && (s.coreRegs 3).selfTest && !((s.coreRegs 3).failed) && decide (s.gtime / 1000000 ≤ s.grm.lastSample)),
    !((running.coreRegs 3).selfTest),
    decide (warm.grm.lastSample < warm.gtime / 1000000) && warm.grm.thresh ≤ warm.risen 0 1 && (warm.wafer.soft.any fun x => x.1 = 0) &&
      warm.wafer.warned.isEmpty && runs warm && noJobs' warm,
    jobRuns .checkpoint, jobRuns (.recover 0) (fun P => { P with ckpt := some {} }), jobRuns (.recover 0) (fun P => { P with policy := 1 }),
    ((oneSpare (calmFor (.recover 0))).newTiles ((calmFor (.recover 0)).part 0) 0 none).isSome,
    jobRuns .reembed && connectedOver [0] [], !((running.coreRegs 3).failed) && decide (running.tileOwner (3 / 4) = some 0),
    Tbl.sorted running.accs && Tbl.sorted running.ops, runs twoTiles && decide (neighbour 0 (entrySide 1) = some 1) &&
      decide ((1 : Nat) ∈ (twoTiles.part 0).tiles),
    (let s : State := { running with wafer := { running.wafer with spareLane := [(0, 2)] } }
     (s.wafer.spareLane.getD 0 0).getLsbD 1 && !((s.wafer.spareLane.getD 0 0).getLsbD 0))] = true := by
  decide +kernel

/-- Island 0 at a step since a time. -/
def islandAt (x : Island) (now : Nat) (share : Nat) (energy : DWord) : State :=
  { with0 (fun P => { P with share := share, energy := energy }) with
    gtime := now, grm := { running.grm with islands := [(0, x)] } }

theorem wit_EnergyPowerAndTime : allTrue [
    (let s : State := { running with gtime := 1000000 }
     Tbl.sorted s.parts && decide (s.grm.lastMs < s.gtime / 1000000)),
    (let s : State := { running with gtime := 1000000000 }
     decide (s.grm.lastSec < s.gtime / 1000000000)),
    decide (((islandAt {} 0 0 0).island 0).step < 3) && decide (300 < [301].getD 0 0),
    (List.range 100).all (fun j => decide (([300] : List Nat).getD j 0 ≤ 300)),
    (let s := islandAt {} 0 1 0
     decide (s.islandParts 0 = [0]) && s.overBudget 0 && decide ((s.part 0).share ≠ 0)),
    (let s := islandAt { step := 1 } 10000000 0 1
     decide ((s.island 0).changed + 10000000 ≤ s.gtime) && !(s.overBudget 0)),
    (let s := islandAt { step := 2 } 10000000 1 0
     s.overBudget 0 && decide (1 < (s.island 0).step)),
    decide ((List.range 24).eraseDups = List.range 24)] = true := by
  decide +kernel

theorem eraseDups_of_nodup {α : Type} [BEq α] [LawfulBEq α] : ∀ l : List α, l.Nodup → l.eraseDups = l
  | [], _ => rfl
  | a :: l, h => by
    have f : l.filter (fun b => !b == a) = l := List.filter_eq_self.mpr fun b hb => by
      have : b ≠ a := fun e => (List.nodup_cons.mp h).1 (e ▸ hb)
      simp [this]
    rw [List.eraseDups_cons, f, eraseDups_of_nodup l (List.nodup_cons.mp h).2]

/-- Each tile on the site of its own coordinates is a binding when every site works. -/
theorem wit_identityBinding : bindingOk [] [] = true := by
  have n : ((List.range Config.poolTiles).map (siteIn [])).Nodup := by
    refine List.pairwise_map.mpr (List.nodup_range.imp fun {x y} ne h => ne ?_)
    simp only [siteIn, List.getD_nil, Prod.mk.injEq] at h
    omega
  simp only [bindingOk, eraseDups_of_nodup _ n, Bool.and_eq_true]
  exact ⟨⟨⟨by decide +kernel, by simp⟩, by decide +kernel⟩, by decide +kernel⟩


/-! ## Witnesses: the step, the encodings -/

theorem wit_StepKeepsSound : State.reset.Sound ∧ running.Sound := by
  unfold State.Sound State.memoriesOk State.skewOk
  decide +kernel

/-- What StepRunsDecodedInstruction asks of a state about to issue. -/
def ready (s : State) : Bool := s.agenda.isEmpty && s.canIssue s.focus && s.stands s.unit && s.unit.mem.all fun m =>
  !(s.flipping (s.partOf m.1) (s.asidOf m.1) s.unit.pc) && !(s.flipping (s.partOf m.1) (s.asidOf m.1) (s.unit.pc + 4))
def fetched (s : State) (a : DWord) (w : Word) : Bool :=
  decide (s.unit.code = []) && decide ((s.fetch 0 0 a).toOption = some w)

/-- The unit has not met its header's waits yet, for loads here below 64 or not above 0, with one load on its way. -/
def withWaits (hw : Word) (met : Bool) : Bool :=
  let s := (loading (at_ (.iadd f1))).onWarp wid fun w => { w with groups := w.groups.map fun (g : Group) => { g with waits := true, hw := hw } }
  let u := s.unit
  let m := s.passWaits u
  ready s && u.waits && fetched s 0x1004 0x02084180 && !(m.heldBack u (exec (.iadd f1) m)) &&
    s.waitMet (s.trapMode u) (u.mem.map (·.1)) (headerBounds u.hw) == met

theorem wit_StepRunsDecodedInstruction : allTrue [
    ready (at_ (.iadd f1)) && !((at_ (.iadd f1)).unit.waits) && fetched (at_ (.iadd f1)) 0x1004 0x02084180 &&
      decide (decode 0x02084180 0 = some (.iadd (V 1 2 3), 1)),
    ready (at_ (.imad f3)) && fetched (at_ (.imad f3)) 0x1004 0x0E084180 && fetched (at_ (.imad f3)) 0x1008 0x10000000 &&
      ((decode 0x0E084180 0).any fun y => y.2 = 2) && decide (decode 0x0E084180 0x10000000 = some (.imad f3, 2)),
    withWaits 0xF103FFC0 true, withWaits 0xF1000000 false,
    (let s := running.onWarp wid fun w => { w with groups := w.groups.map fun (g : Group) => { g with parkNext := some (1, 0) } }
     s.agenda.isEmpty && s.canIssue s.focus && s.parkDue s.unit),
    (let s := atHdr 0 running
     s.agenda.isEmpty && s.canIssue s.focus && !(s.parkDue s.unit) && !(s.bodyDue s.unit) && !(s.listDue s.unit) &&
       decide (s.unit.pc = s.unit.hdr)),
    (let s := State.reset.boot 0xF103FFC0 0
     ready s && !(s.unit.waits) && fetched s 0x1004 0xF103FFC0),
    (let s := atEnd running
     s.agenda.isEmpty && s.canIssue s.focus && !(s.parkDue s.unit) && s.bodyDue s.unit),
    (let s := running.onWarp wid fun w => { w with faults := List.replicate 8 (rec .ld 40) }
     s.agenda.isEmpty && s.canIssue s.focus && !(s.parkDue s.unit) && !(s.bodyDue s.unit) && s.listDue s.unit),
    State.reset.agenda.isEmpty && !(State.reset.canIssue State.reset.focus),
    ({ running with agenda := [.coreWake 0] } : State).agenda.length = 1] = true := by decide +kernel

theorem wit_DecodeOfEncode : allTrue [
    WellFormed (.iadd f1) && decide (encode (.iadd f1) = [0x02084180]),
    WellFormed (.imad f3) && decide (encode (.imad f3) = [0x0E084180, 0x10000000]),
    (decode 0xEC084030 0).any fun y => y.2 = 1] = true := by decide +kernel

/-! ## Ill-formed terms, one for each check of WellFormed -/

theorem test_ill_formed : allTrue [
    !(WellFormed (.iadd (V 1 2 3 0 5))), !(WellFormed (.icmpS (V 1 54 3 6 5))), !(WellFormed (.pmov (V 54 2 0 1 5))),
    !(WellFormed (.tag (V 1 54 0 1 5))), !(WellFormed (.movi { d := 1, imm := 0, q := 0, x := 1 })),
    !(WellFormed (.ld { m 8 4 with x := 1 })), !(WellFormed (.rcp (V 1 2 0 1))), !(WellFormed (.rsq (V 1 2 0 0))),
    !(WellFormed (.tanha (V 1 2 0 6))), !(WellFormed (.trapCode (V 0 0 1 1))), !(WellFormed (.bpt (V 0 0 1 0))),
    !(WellFormed (.rte (V 0 0 0 1))), !(WellFormed (.rtex (V 0 0 0 0))), !(WellFormed (.tlbi (V 0 2 4 0))),
    !(WellFormed (.widle (V 1 2 0 0))), !(WellFormed (.park (V 0 0 0 5))), !(WellFormed (.illegalInstr 0x02084180)),
    !(WellFormed (.illegalInstr 0b1110010_1000_000000_000000_0000000_00)), !(WellFormed (.ret (V 0 0 0 0 1)))] = true := by
  decide +kernel

/-! ## Words written out from R145, R147 and R148, one of each family -/

theorem test_words_integer : allTrue [
    decide (decode 0b0000010_000001_000010_000011_011_00_00 0 = some (.isub (V 1 2 3 3), 1)),
    decide (decode 0b0010101_111000_000010_000000_001_01_11 0 = some (.brev { V 56 2 0 1 with h := 1, q := 3 }, 1)),
    decide (decode 0b0010110_000001_000010_000000_000_00_00 0x00000145 = some (.bfx (V 1 2 0 0 0x145), 2)),
    decide (decode 0b0011011_000011_00000000000000111_00 0 = some (.movhi { d := 3, imm := 7, q := 0 }, 1))] = true := by decide +kernel

theorem test_words_memory_and_control : allTrue [
    decide (decode 0b1010010_000001_000100_1000000_0100_00 0 = some (.st { d := 1, base := 4, off := 64, m := 4, q := 0 }, 1)),
    decide (decode 0b1010011_000001_000100_0000001_0000_01 0 = some (.lds { d := 1, base := 4, off := 1, m := 0, q := 1 }, 1)),
    decide (decode 0b1101010_00000000000000000000100_00 0 = some (.call { off := 4, q := 0 }, 1)),
    decide (decode 0b1110101_000010_000000010001_00000_00 0 = some (.swr { d := 2, sreg := 0x011, m := 0, q := 0 }, 1)),
    decide (decode 0b1110011_0011_000000_000101_0000000_00 0 = some (.hconf { d := 0, a := 5, f7 := 0, q := 0 }, 1)),
    decide (decode 0b1110110_000000_000000_000000_100_00_00 0 = some (.park (V 0 0 0 4), 1))] = true := by decide +kernel

/-! ## Single steps, with results worked out by hand from the rules -/

def i32 (v : Word) : Option Reg := some { val := v, tag := 1 }
def f32 (v : Word) : Option Reg := some { val := v, tag := 3 }
def raw (v : Word) : Option Reg := some { val := v, tag := 0 }

/-- R158: sums wrap, or clamp with `.sat`; the high product; R162: full-width shifts. -/
theorem test_integer_results : allTrue [
    decide (out (.iadd (V 1 2 3)) 1 (reg 2 1 0xFFFFFFFF ++ reg 3 1 2) = i32 1),
    decide (out (.iadd (V 1 2 3 1)) 1 (reg 2 1 0x7FFFFFFF ++ reg 3 1 1) = i32 0x7FFFFFFF),
    decide (out (.isub (V 1 2 3 3)) 1 (reg 2 1 1 ++ reg 3 1 2) = i32 0),
    decide (out (.imulh (V 1 2 3)) 1 (reg 2 1 0x80000000 ++ reg 3 1 0x80000000) = i32 0x40000000),
    decide (out (.shl (V 1 2 3)) 1 (reg 2 1 5 ++ reg 3 1 32) = raw 0),
    decide (out (.shr (V 1 2 3 1)) 1 (reg 2 1 0x80000000 ++ reg 3 1 40) = raw 0xFFFFFFFF),
    decide (out (.bfx (V 1 2 0 1 (4 + 32 * 4))) 1 (reg 2 1 0x80) = raw 0xFFFFFFF8),
    decide (out (.clz (V 1 2 0)) 1 (reg 2 1 0) = raw 32),
    decide (out (.mov (V 1 2 0)) 1 (reg 2 6 0x12345678) = some { val := 0x12345678, tag := 6 })] = true := by decide +kernel

/-- R104, R172 to R176: rounding to nearest even, a product, a conversion to F16, a double sum; R191: a dot product of unsigned bytes. -/
theorem test_float_results : allTrue [
    decide (out (.fadd (V 1 2 3)) 1 (reg 2 3 0x3F800000 ++ reg 3 3 0x33800000) = f32 0x3F800000),
    decide (out (.fadd (V 1 2 3)) 1 (reg 2 3 0x3F800001 ++ reg 3 3 0x33800000) = f32 0x3F800002),
    decide (out (.fmul (V 1 2 3)) 1 (reg 2 3 0x40400000 ++ reg 3 3 0x3F000000) = f32 0x3FC00000),
    decide (out (.fcvt fc) 1 (reg 2 3 0x3F800000) = some { val := 0x3C00, tag := 4 }),
    decide (out (.dadd (V 8 2 4)) 9 (f64 2 0x3FF0000000000000 ++ f64 4 0x3FF0000000000000) = some { val := 0x40000000, tag := 13 }),
    decide (out (.idot4 f3) 1 (reg 2 10 0x01FF0203 ++ reg 3 10 0x01010101 ++ reg 4 1 10) = i32 271)] = true := by decide +kernel

/-- R208, R209: a halfword that a store puts into the scratchpad comes back with its sign; an atomic answers the old value. -/
theorem test_scratchpad : allTrue [
    (let s := scr (on (.lds { m 8 3 with base := 4 }) (reg 4 1 0x102))
     let s := s.wrScratch bid 0x100 [0x11, 0x22, 0xFE, 0xFF]
     match exec (.lds { m 8 3 with base := 4 }) s with
       | .next t => decide (t.getReg { wid := wid, lane := 0 } (.v 8) = { val := 0xFFFFFFFE, tag := 0 })
       | _ => false),
    (let s := lone (scr (on (.sts (m 8 4)) (reg 4 1 0x100 ++ reg 8 1 0xA1B2C3D4)))
     match exec (.sts (m 8 4)) s with
       | .next t => decide (t.rdScratch bid 0x100 4 = [0xD4, 0xC3, 0xB2, 0xA1])
       | _ => false)] = true := by decide +kernel

/-- R225: a branch by -1 word from its own clause's first word; R233, R397: a software trap goes to its class's handler. -/
theorem test_control : allTrue [
    (match exec (.bra back) (on (.bra back) []) with
      | .next t => (t.warp wid).groups.all fun g => g.pc = 0x1000
      | _ => false),
    (match exec (.trapCode (V 0 0 31)) (handler 0x3F (on (.trapCode (V 0 0 31)) [])) with
      | .next t => (t.warp wid).groups.all (fun g => g.pc = 0x2000 + 0x3F * 64) && decide ((t.warp wid).tcause = BitVec.ofNat 32 (cz 0x3F 7)) &&
          decide ((t.warp wid).tval = 31) && decide ((t.warp wid).tpc = 0x1008)
      | _ => false)] = true := by decide +kernel

/-- The instruction that `withFetchWord` stores is the one that the next step runs: IADD of r2 and r3, and IMAD of two words. -/
theorem test_withFetchWord : allTrue [
    decide (decodeTableWord 32 0x02084180 = some (.iadd (V 1 2 3))),
    decide (decodeTableWord 64 0x100000000E084180 = some (.imad f3)),
    (match step (State.withV (State.reset.withFetchWord 32 0x02084180) (reg 2 1 40 ++ reg 3 1 2)) with
      | .next t => decide (t.getReg { wid := wid, lane := 3 } (.v 1) = { val := 42, tag := 1 })
      | _ => false),
    (match step (State.withV (State.reset.withFetchWord 64 0x100000000E084180) (reg 2 1 6 ++ reg 3 1 7 ++ reg 4 1 1)) with
      | .next t => decide (t.getReg { wid := wid, lane := 0 } (.v 1) = { val := 43, tag := 1 })
      | _ => false)] = true := by decide +kernel

/-- R419: AES-256 of the worked example of FIPS 197, and back. -/
theorem test_aes : allTrue [
    aesEncrypt 0x000102030405060708090A0B0C0D0E0F101112131415161718191A1B1C1D1E1F ((List.range 16).map fun i => BitVec.ofNat 8 (17 * i)) =
      [0x8E, 0xA2, 0xB7, 0xCA, 0x51, 0x67, 0x45, 0xBF, 0xEA, 0xFC, 0x49, 0x90, 0x4B, 0x49, 0x60, 0x89],
    aesDecrypt 0x000102030405060708090A0B0C0D0E0F101112131415161718191A1B1C1D1E1F
      [0x8E, 0xA2, 0xB7, 0xCA, 0x51, 0x67, 0x45, 0xBF, 0xEA, 0xFC, 0x49, 0x90, 0x4B, 0x49, 0x60, 0x89] =
        (List.range 16).map fun i => BitVec.ofNat 8 (17 * i)] = true := by decide +kernel

end Sys2Proof.Tests
end

/-! # The decoder and the encoder are inverse (O58: R4, R143, R145, R147, R148) -/
namespace Sys2Proof.Encoding

/-! ## The formats of R145, one by one

Each field of an encoded word is read back (`fld_enc…`, bit by bit from the places of the fields), and every word is the
encoding of its own fields (`enc…_…Of`, adjacent fields joining up). -/

theorem fld_encV3 (op : BitVec 7) (f : V3) :
    fld (encV3 op f) 25 7 = op ∧ fld (encV3 op f) 19 6 = f.d ∧ fld (encV3 op f) 13 6 = f.a ∧ fld (encV3 op f) 7 6 = f.b ∧
    fld (encV3 op f) 4 3 = f.m ∧ fld (encV3 op f) 2 2 = f.h ∧ fld (encV3 op f) 0 2 = f.q := by
  refine ⟨?_, ?_, ?_, ?_, ?_, ?_, ?_⟩ <;> ext i hi <;>
    simp only [encV3, BitVec.getElem_extractLsb', BitVec.getLsbD_append] <;> grind

theorem fld_encM (op : BitVec 7) (f : FM) :
    fld (encM op f) 25 7 = op ∧ fld (encM op f) 19 6 = f.d ∧ fld (encM op f) 13 6 = f.base ∧ fld (encM op f) 6 7 = f.off ∧
    fld (encM op f) 2 4 = f.m ∧ fld (encM op f) 0 2 = f.q := by
  refine ⟨?_, ?_, ?_, ?_, ?_, ?_⟩ <;> ext i hi <;>
    simp only [encM, BitVec.getElem_extractLsb', BitVec.getLsbD_append] <;> grind

theorem fld_encRI (op : BitVec 7) (f : RI) :
    fld (encRI op f) 25 7 = op ∧ fld (encRI op f) 19 6 = f.d ∧ fld (encRI op f) 13 6 = f.a ∧ fld (encRI op f) 2 11 = f.imm ∧
    fld (encRI op f) 0 2 = f.q := by
  refine ⟨?_, ?_, ?_, ?_, ?_⟩ <;> ext i hi <;>
    simp only [encRI, BitVec.getElem_extractLsb', BitVec.getLsbD_append] <;> grind

theorem fld_encRW (op : BitVec 7) (f : RW) :
    fld (encRW op f) 25 7 = op ∧ fld (encRW op f) 19 6 = f.d ∧ fld (encRW op f) 2 17 = f.imm ∧ fld (encRW op f) 0 2 = f.q := by
  refine ⟨?_, ?_, ?_, ?_⟩ <;> ext i hi <;>
    simp only [encRW, BitVec.getElem_extractLsb', BitVec.getLsbD_append] <;> grind

theorem fld_encJ (op : BitVec 7) (f : FJ) :
    fld (encJ op f) 25 7 = op ∧ fld (encJ op f) 2 23 = f.off ∧ fld (encJ op f) 0 2 = f.q := by
  refine ⟨?_, ?_, ?_⟩ <;> ext i hi <;>
    simp only [encJ, BitVec.getElem_extractLsb', BitVec.getLsbD_append] <;> grind

theorem fld_encL (op : BitVec 7) (f : FL) :
    fld (encL op f) 25 7 = op ∧ fld (encL op f) 19 6 = f.cnt ∧ fld (encL op f) 11 8 = f.len ∧ fld (encL op f) 9 2 = f.lvl ∧
    fld (encL op f) 2 7 = f.f7 ∧ fld (encL op f) 0 2 = f.q := by
  refine ⟨?_, ?_, ?_, ?_, ?_, ?_⟩ <;> ext i hi <;>
    simp only [encL, BitVec.getElem_extractLsb', BitVec.getLsbD_append] <;> grind

theorem fld_encS (op : BitVec 7) (f : FS) :
    fld (encS op f) 25 7 = op ∧ fld (encS op f) 19 6 = f.d ∧ fld (encS op f) 7 12 = f.sreg ∧ fld (encS op f) 2 5 = f.m ∧
    fld (encS op f) 0 2 = f.q := by
  refine ⟨?_, ?_, ?_, ?_, ?_⟩ <;> ext i hi <;>
    simp only [encS, BitVec.getElem_extractLsb', BitVec.getLsbD_append] <;> grind

theorem fld_encE (sub : BitVec 4) (f : FE) :
    fld (encE sub f) 25 7 = 0x72 ∧ fld (encE sub f) 21 4 = sub ∧ fld (encE sub f) 15 6 = f.pb ∧ fld (encE sub f) 9 6 = f.tag ∧
    fld (encE sub f) 2 7 = f.f7 ∧ fld (encE sub f) 0 2 = f.q := by
  refine ⟨?_, ?_, ?_, ?_, ?_, ?_⟩ <;> ext i hi <;>
    simp only [encE, BitVec.getElem_extractLsb', BitVec.getLsbD_append] <;> grind

theorem fld_encH (sub : BitVec 4) (f : FH) :
    fld (encH sub f) 25 7 = 0x73 ∧ fld (encH sub f) 21 4 = sub ∧ fld (encH sub f) 15 6 = f.d ∧ fld (encH sub f) 9 6 = f.a ∧
    fld (encH sub f) 2 7 = f.f7 ∧ fld (encH sub f) 0 2 = f.q := by
  refine ⟨?_, ?_, ?_, ?_, ?_, ?_⟩ <;> ext i hi <;>
    simp only [encH, BitVec.getElem_extractLsb', BitVec.getLsbD_append] <;> grind

theorem fld_encWT (op : BitVec 7) (f : WT) :
    fld (encWT op f) 25 7 = op ∧ fld (encWT op f) 19 6 = f.l ∧ fld (encWT op f) 13 6 = f.s ∧ fld (encWT op f) 7 6 = f.c ∧
    fld (encWT op f) 2 5 = f.t ∧ fld (encWT op f) 0 2 = f.q := by
  refine ⟨?_, ?_, ?_, ?_, ?_, ?_⟩ <;> ext i hi <;>
    simp only [encWT, BitVec.getElem_extractLsb', BitVec.getLsbD_append] <;> grind

theorem encV3_v3Of (u : Use) (w x : Word) : encV3 (fld w 25 7) (v3Of u w x) = w := by
  unfold encV3 v3Of
  repeat rw [BitVec.extractLsb'_append_extractLsb'_eq_extractLsb' (by rfl)]
  exact BitVec.extractLsb'_eq_self

theorem encM_fmOf (always ud : Bool) (w x : Word) : encM (fld w 25 7) (fmOf always ud w x) = w := by
  unfold encM fmOf
  repeat rw [BitVec.extractLsb'_append_extractLsb'_eq_extractLsb' (by rfl)]
  exact BitVec.extractLsb'_eq_self

theorem encRI_riOf (w x : Word) : encRI (fld w 25 7) (riOf w x) = w := by
  unfold encRI riOf
  repeat rw [BitVec.extractLsb'_append_extractLsb'_eq_extractLsb' (by rfl)]
  exact BitVec.extractLsb'_eq_self

theorem encRW_rwOf (w x : Word) : encRW (fld w 25 7) (rwOf w x) = w := by
  unfold encRW rwOf
  repeat rw [BitVec.extractLsb'_append_extractLsb'_eq_extractLsb' (by rfl)]
  exact BitVec.extractLsb'_eq_self

theorem encJ_fjOf (w : Word) : encJ (fld w 25 7) (fjOf w) = w := by
  unfold encJ fjOf
  repeat rw [BitVec.extractLsb'_append_extractLsb'_eq_extractLsb' (by rfl)]
  exact BitVec.extractLsb'_eq_self

theorem encL_flOf (w x : Word) : encL (fld w 25 7) (flOf w x) = w := by
  unfold encL flOf
  repeat rw [BitVec.extractLsb'_append_extractLsb'_eq_extractLsb' (by rfl)]
  exact BitVec.extractLsb'_eq_self

theorem encS_fsOf (w x : Word) : encS (fld w 25 7) (fsOf w x) = w := by
  unfold encS fsOf
  repeat rw [BitVec.extractLsb'_append_extractLsb'_eq_extractLsb' (by rfl)]
  exact BitVec.extractLsb'_eq_self

theorem encWT_wtOf (w : Word) : encWT (fld w 25 7) (wtOf w) = w := by
  unfold encWT wtOf
  repeat rw [BitVec.extractLsb'_append_extractLsb'_eq_extractLsb' (by rfl)]
  exact BitVec.extractLsb'_eq_self

theorem encE_feOf {w : Word} (x : Word) (hop : fld w 25 7 = 0x72) : encE (fld w 21 4) (feOf w x) = w := by
  unfold encE feOf
  rw [← hop]
  repeat rw [BitVec.extractLsb'_append_extractLsb'_eq_extractLsb' (by rfl)]
  exact BitVec.extractLsb'_eq_self

theorem encH_fhOf (ud ua : Bool) {w : Word} (x : Word) (hop : fld w 25 7 = 0x73) :
    encH (fld w 21 4) (fhOf ud ua w x) = w := by
  unfold encH fhOf
  rw [← hop]
  repeat rw [BitVec.extractLsb'_append_extractLsb'_eq_extractLsb' (by rfl)]
  exact BitVec.extractLsb'_eq_self

/-! ## When a word calls for an extension word (R143); where the minor code decides it (R166, R169, R171) -/

theorem v3Ext_icmpUse (w : Word) : v3Ext (icmpUse w) w =
    (!(decide (fld w 4 3 = 6) || decide (fld w 4 3 = 7)) && (callsX (fld w 13 6) || callsX (fld w 7 6))) := by
  unfold icmpUse
  split
  next hm => obtain hm | hm := hm <;> simp [v3Ext, hm]
  next hm =>
    obtain ⟨h6, h7⟩ := not_or.mp hm
    simp only [v3Ext, h6, h7, decide_false, Bool.or_self, Bool.not_false, Bool.true_and, Bool.false_and, Bool.false_or]

theorem getLsbD_four_eq_minor (w : Word) : w.getLsbD 4 = (fld w 4 3).getLsbD 0 := by
  simp only [BitVec.getLsbD_extractLsb', Nat.reduceLT, decide_true, Bool.true_and, Nat.add_zero]

theorem v3Ext_pmovUse (w : Word) : v3Ext (pmovUse w) w =
    (if (fld w 4 3).getLsbD 0 then callsX (fld w 13 6) else callsX (fld w 19 6)) := by
  unfold pmovUse
  rw [getLsbD_four_eq_minor]
  cases (fld w 4 3).getLsbD 0 <;> simp [v3Ext]

theorem v3Ext_tagUse (w : Word) : v3Ext (tagUse w) w =
    (callsX (fld w 19 6) || (!(fld w 4 3).getLsbD 0 && callsX (fld w 13 6))) := by
  unfold tagUse
  rw [getLsbD_four_eq_minor]
  cases (fld w 4 3).getLsbD 0 <;> simp [v3Ext]

theorem v3Ext_encV3 (u : Use) (op : BitVec 7) (f : V3) :
    v3Ext u (encV3 op f) = (u.always || (u.d && callsX f.d) || (u.a && callsX f.a) || (u.b && callsX f.b)) := by
  simp only [v3Ext, fld_encV3]

theorem mExt_encM (always ud : Bool) (op : BitVec 7) (f : FM) :
    mExt always ud (encM op f) = (always || (ud && callsX f.d) || callsX f.base) := by
  simp only [mExt, fld_encM]

/-! ## The opcodes whose row a sub-operation chooses, and the header space (R147, R148)

Here and below, case `h_n` of a split of one of the decoder's tables is the table's n-th line; the last is its default. -/

theorem decode_special {w : Word} (x : Word) (hop : fld w 25 7 = 0x35) : decode w x = decSpecial w x := by
  unfold decode decode30; rw [hop]; rfl

theorem decode_eng {w : Word} (x : Word) (hop : fld w 25 7 = 0x72) : decode w x = decEng w x := by
  unfold decode decode90; rw [hop]; rfl

theorem decode_hyp {w : Word} (x : Word) (hop : fld w 25 7 = 0x73) : decode w x = decHyp w x := by
  unfold decode decode90; rw [hop]; rfl

theorem decode_trap {w : Word} (x : Word) (hop : fld w 25 7 = 0x71) :
    decode w x = if (fld w 4 3).getLsbD 0 then decV3 .bpt {} w x else decV3 .trapCode {} w x := by
  unfold decode decode90; rw [hop, getLsbD_four_eq_minor]; rfl

theorem decode_sys {w : Word} (x : Word) (hop : fld w 25 7 = 0x76) : decode w x = decSys w x := by
  unfold decode decode90; rw [hop]; rfl

theorem noSubOp_iff (w : Word) : noSubOp w = true ↔
    (fld w 25 7 = 0x72 ∧ 9 ≤ (fld w 21 4).toNat) ∨ (fld w 25 7 = 0x73 ∧ 7 ≤ (fld w 21 4).toNat) ∨
    (fld w 25 7 = 0x76 ∧ 5 ≤ (fld w 4 3).toNat) := by
  simp only [noSubOp, Bool.or_eq_true, Bool.and_eq_true, decide_eq_true_eq, or_assoc]

theorem decode_illegalInstr {w : Word} (x : Word) (h : noSubOp w = true) : decode w x = some (.illegalInstr w, 1) := by
  obtain ⟨hop, hsub⟩ | ⟨hop, hsub⟩ | ⟨hop, hm⟩ := (noSubOp_iff w).mp h
  · rw [decode_eng x hop]
    unfold decEng
    split
    case h_10 => rfl
    all_goals omega
  · rw [decode_hyp x hop]
    unfold decHyp
    split
    case h_8 => rfl
    all_goals omega
  · rw [decode_sys x hop]
    unfold decSys
    split
    case h_6 => rfl
    all_goals omega

theorem decode_headerSpace {w : Word} (x : Word) (hop : 120 ≤ (fld w 25 7).toNat) : decode w x = none := by
  unfold decode decode90
  rw [if_neg (by omega), if_neg (by omega), if_neg (by omega)]
  split
  case h_31 => rfl
  all_goals omega

/-! ## What is encoded decodes to what it was -/

/-- The words decode to the instruction, and one word does so whatever word comes after it. -/
inductive ReadsAs (i : Instr) : List Word → Prop
  | one {w : Word} : (∀ x, decode w x = some (i, 1)) → ReadsAs i [w]
  | two {w x : Word} : decode w x = some (i, 2) → ReadsAs i [w, x]

theorem readsAs_withX {F : Type} {mk : F → Instr} {f : F} {of : Word → F} {ext : Bool} {w x : Word}
    (hx : xOnly ext x = true) (hdec : ∀ y, decode w y = some (mk (of y), if ext then 2 else 1))
    (hof : ∀ y, (if ext then y else 0) = x → of y = f) : ReadsAs (mk f) (withX ext w x) := by
  cases ext with
  | true => exact .two (hof x rfl ▸ hdec x)
  | false =>
    have h0 : x = 0 := by simpa [xOnly] using hx
    exact .one fun y => hof y h0.symm ▸ hdec y

theorem readsAs_v3 {mk : V3 → Instr} {u : Use} {op : BitVec 7} {f : V3}
    (hdec : ∀ y, decode (encV3 op f) y = decV3 mk u (encV3 op f) y)
    (hx : xOnly (v3Ext u (encV3 op f)) f.x = true) : ReadsAs (mk f) (wordsV3 u op f) :=
  readsAs_withX hx hdec fun y hy => by simp only [v3Of, fld_encV3, hy]

theorem readsAs_m {mk : FM → Instr} {always ud : Bool} {op : BitVec 7} {f : FM}
    (hdec : ∀ y, decode (encM op f) y = decM mk always ud (encM op f) y)
    (hx : xOnly (mExt always ud (encM op f)) f.x = true) : ReadsAs (mk f) (wordsM always ud op f) :=
  readsAs_withX hx hdec fun y hy => by simp only [fmOf, fld_encM, hy]

theorem readsAs_rw {mk : RW → Instr} {op : BitVec 7} {f : RW}
    (hdec : ∀ y, decode (encRW op f) y = decRW mk (encRW op f) y)
    (hx : xOnly (callsX f.d) f.x = true) : ReadsAs (mk f) (withX (callsX f.d) (encRW op f) f.x) :=
  readsAs_withX hx (fun y => by rw [hdec, decRW, (fld_encRW op f).2.1])
    fun y hy => by simp only [rwOf, fld_encRW, hy]

theorem readsAs_s {mk : FS → Instr} {op : BitVec 7} {f : FS}
    (hdec : ∀ y, decode (encS op f) y = some (mk (fsOf (encS op f) y), if callsX (fld (encS op f) 19 6) then 2 else 1))
    (hx : xOnly (callsX f.d) f.x = true) : ReadsAs (mk f) (withX (callsX f.d) (encS op f) f.x) :=
  readsAs_withX hx (fun y => by rw [hdec, (fld_encS op f).2.1]) fun y hy => by simp only [fsOf, fld_encS, hy]

theorem readsAs_e {mk : FE → Instr} {sub : BitVec 4} {f : FE}
    (hdec : ∀ y, decEng (encE sub f) y = decE mk (encE sub f) y)
    (hx : xOnly (callsX f.pb) f.x = true) : ReadsAs (mk f) (withX (callsX f.pb) (encE sub f) f.x) :=
  readsAs_withX hx (fun y => by rw [decode_eng y (fld_encE sub f).1, hdec, decE, (fld_encE sub f).2.2.1])
    fun y hy => by simp only [feOf, fld_encE, hy]

theorem readsAs_h {mk : FH → Instr} (ud ua : Bool) {ext : Bool} {sub : BitVec 4} {f : FH}
    (hext : ((ud && callsX f.d) || (ua && callsX f.a)) = ext)
    (hdec : ∀ y, decHyp (encH sub f) y = decH mk ud ua (encH sub f) y)
    (hx : xOnly ext f.x = true) : ReadsAs (mk f) (withX ext (encH sub f) f.x) :=
  readsAs_withX (of := fhOf ud ua (encH sub f)) hx
    (fun y => by rw [decode_hyp y (fld_encH sub f).1, hdec]; simp only [decH, fld_encH, hext])
    fun y hy => by simp only [fhOf, fld_encH, hext, hy]

/-- Each case names its format and reads its row of the decoder's table; `h` is the row's line of `WellFormed`. -/
theorem readsAs_encode (i : Instr) (h : WellFormed i = true) (hne : encode i ≠ []) : ReadsAs i (encode i) := by
  cases i with
  | nop f | iadd f | isub f | iaddc f | isubb f | imul f | imulh f | imad f | imin f | imax f | iabs f | bitAnd f | bitOr f
  | bitXor f | andn f | shl f | shr f | rot f | shf f | popc f | clz f | brev f | bfx f | bfi f | sel f | mov f | lea f
  | plop f | umov f | fadd f | fsub f | fmul f | ffma f | fmin f | fmax f | fcmp f | frnd f | f2i f | i2f f | fcvt f
  | fclass f | fscale f | dadd f | dmul f | dfma f | dcmp f | hadd2 f | hfma2 f | qadd4 f | qmul4 f | dot4 f | dot8 f
  | idot4 f | idot8 f | pcvt f | pscale f | pamax f | shfl f | vote f | ired f | kclr f | kadd f | kmad f | krnd f | ksave f
  | kload f | scan f | matchLanes f | orient2 f | orient3 f | incirc f | insph f | segx f | fence f | cwb f | bar f | gbar f
  | pharr f | phwait f | twait f | tany f | tfind f | tclr f | brx f | jtab f | callx f | ret f | brk f | exitThread f
  | yield f =>
    refine readsAs_v3 (fun y => ?_) ?_
    · unfold decode decode0 decode30 decode60 decode90
      rw [(fld_encV3 _ _).1]; rfl
    · simp only [v3Ext_encV3, Bool.true_or, Bool.false_or, Bool.true_and, Bool.false_and, Bool.or_false]
      exact h
  | icmpS f | icmpN f | pmov f | tag f =>
    refine readsAs_v3 (fun y => ?_) ?_
    · unfold decode decode0 decode30
      rw [(fld_encV3 _ _).1]; rfl
    · simp only [v3Ext_icmpUse, v3Ext_pmovUse, v3Ext_tagUse, fld_encV3]
      exact h
  | rcp f | rsq f | sqrta f | exp2 f | log2 f | sinp f | cosp f | tanha f =>
    obtain ⟨hm, hx⟩ := Bool.and_eq_true_iff.mp h
    refine readsAs_v3 (fun y => ?_) ?_
    · rw [decode_special y (fld_encV3 _ _).1]
      simp only [decSpecial, fld_encV3, of_decide_eq_true hm]; rfl
    · simp only [v3Ext_encV3, Bool.false_or, Bool.true_and, Bool.false_and, Bool.or_false]
      exact hx
  | rte f | rtex f | tlbi f | widle f | park f =>
    obtain ⟨hm, hx⟩ := Bool.and_eq_true_iff.mp h
    refine readsAs_v3 (fun y => ?_) ?_
    · rw [decode_sys y (fld_encV3 _ _).1]
      simp only [decSys, fld_encV3, of_decide_eq_true hm]; rfl
    · simp only [v3Ext_encV3, Bool.false_or, Bool.true_and, Bool.false_and, Bool.or_false]
      exact hx
  | trapCode f =>
    obtain ⟨hm, hx⟩ := Bool.and_eq_true_iff.mp h
    refine readsAs_v3 (fun y => ?_) ?_
    · rw [decode_trap y (fld_encV3 _ _).1]
      simp only [fld_encV3]
      exact if_neg (by simpa using hm)
    · simp only [v3Ext_encV3, Bool.false_or, Bool.false_and]
      exact hx
  | bpt f =>
    obtain ⟨hm, hx⟩ := Bool.and_eq_true_iff.mp h
    refine readsAs_v3 (fun y => ?_) ?_
    · rw [decode_trap y (fld_encV3 _ _).1]
      simp only [fld_encV3]
      exact if_pos hm
    · simp only [v3Ext_encV3, Bool.false_or, Bool.false_and]
      exact hx
  | ld f | st f | lds f | sts f | ldu f | ldt f | ldn f | stn f | atom f | atoms f | atomn f | pref f =>
    refine readsAs_m (fun y => ?_) ?_
    · unfold decode decode60 decode90
      rw [(fld_encM _ _).1]; rfl
    · simp only [mExt_encM, Bool.true_or, Bool.false_or, Bool.true_and, Bool.false_and]
      exact h
  | movi f | movhi f =>
    refine readsAs_rw (fun y => ?_) h
    unfold decode decode0
    rw [(fld_encRW _ _).1]; rfl
  | iaddi f =>
    refine readsAs_withX (of := riOf (encRI 0x1f f)) h (fun y => ?_) fun y hy => by simp only [riOf, fld_encRI, hy]
    unfold decode decode30 decRI
    simp only [fld_encRI]; rfl
  | loop f =>
    refine readsAs_withX (of := flOf (encL 0x6d f)) h (fun y => ?_) fun y hy => by simp only [flOf, fld_encL, hy]
    unfold decode decode90
    simp only [fld_encL]; rfl
  | srd f | swr f =>
    refine readsAs_s (fun y => ?_) h
    unfold decode decode90
    rw [(fld_encS _ _).1]; rfl
  | cpy f | cpys f | cpyg f | cpya f | mma f | mmag f | acclr f | bcast f | cpyr f =>
    refine readsAs_e (fun y => ?_) h
    unfold decEng
    rw [(fld_encE _ _).2.1]; rfl
  | hnew f | hget f | hwait f =>
    refine readsAs_h true true rfl (fun y => ?_) h
    unfold decHyp
    rw [(fld_encH _ _).2.1]; rfl
  | hset f | hconf f | href f =>
    refine readsAs_h false true rfl (fun y => ?_) h
    unfold decHyp
    rw [(fld_encH _ _).2.1]; rfl
  | hchk f =>
    refine readsAs_h true false (Bool.or_false _) (fun y => ?_) h
    unfold decHyp
    rw [(fld_encH _ _).2.1]; rfl
  | wait f =>
    refine .one fun y => ?_
    have hf : wtOf (encWT 0x62 f) = f := by simp only [wtOf, fld_encWT]
    unfold decode decode90
    rw [(fld_encWT _ _).1, hf]; rfl
  | bra f | call f =>
    refine .one fun y => ?_
    unfold decode decode90 fjOf
    simp only [fld_encJ]; rfl
  | illegalInstr w => exact .one fun x => decode_illegalInstr x h
  | _ => exact absurd rfl hne

/-! ## What decodes is well formed and encodes to the words it was read from -/

/-- The answer is a well-formed instruction whose words are `w`, or `w` and `x`. -/
def WrittenAs (w x : Word) (r : Decoded) : Prop :=
  ∃ i n, r = some (i, n) ∧ WellFormed i = true ∧ (n = 1 ∧ encode i = [w] ∨ n = 2 ∧ encode i = [w, x])

theorem xOnly_ite (ext : Bool) (x : Word) : xOnly ext (if ext then x else 0) = true := by cases ext <;> rfl

theorem writtenAs_withX {i : Instr} {ext : Bool} {w x : Word} (hwf : WellFormed i = true)
    (henc : encode i = withX ext w (if ext then x else 0)) : WrittenAs w x (some (i, if ext then 2 else 1)) := by
  refine ⟨i, _, rfl, hwf, ?_⟩
  cases ext with
  | true => exact .inr ⟨rfl, henc⟩
  | false => exact .inl ⟨rfl, henc⟩

theorem writtenAs_one {i : Instr} {w x : Word} (hwf : WellFormed i = true) (henc : encode i = [w]) :
    WrittenAs w x (some (i, 1)) := ⟨i, 1, rfl, hwf, .inl ⟨rfl, henc⟩⟩

section
variable {w : Word} (x : Word)

theorem writtenAs_v3 {mk : V3 → Instr} {u : Use} {op : BitVec 7}
    (henc : encode (mk (v3Of u w x)) = wordsV3 u op (v3Of u w x))
    (hop : (fld w 25 7).toNat = op.toNat)
    (hwf : xOnly (v3Ext u w) (v3Of u w x).x = true → WellFormed (mk (v3Of u w x)) = true) :
    WrittenAs w x (decV3 mk u w x) := by
  refine writtenAs_withX (hwf (xOnly_ite _ x)) ?_
  rw [henc, wordsV3, ← BitVec.eq_of_toNat_eq hop, encV3_v3Of]
  rfl

theorem writtenAs_icmp {mk : V3 → Instr} {op : BitVec 7}
    (henc : encode (mk (v3Of (icmpUse w) w x)) =
      wordsV3 (icmpUse (encV3 op (v3Of (icmpUse w) w x))) op (v3Of (icmpUse w) w x))
    (hop : (fld w 25 7).toNat = op.toNat)
    (hwf : xOnly (!(decide (fld w 4 3 = 6) || decide (fld w 4 3 = 7)) && (callsX (fld w 13 6) || callsX (fld w 7 6)))
      (v3Of (icmpUse w) w x).x = true → WellFormed (mk (v3Of (icmpUse w) w x)) = true) :
    WrittenAs w x (decV3 mk (icmpUse w) w x) := by
  have hw : encV3 op (v3Of (icmpUse w) w x) = w := BitVec.eq_of_toNat_eq hop ▸ encV3_v3Of _ w x
  exact writtenAs_v3 x (by rw [henc, hw]) hop (v3Ext_icmpUse w ▸ hwf)

theorem writtenAs_m {mk : FM → Instr} {always ud : Bool} {op : BitVec 7}
    (henc : encode (mk (fmOf always ud w x)) = wordsM always ud op (fmOf always ud w x))
    (hop : (fld w 25 7).toNat = op.toNat)
    (hwf : xOnly (mExt always ud w) (fmOf always ud w x).x = true → WellFormed (mk (fmOf always ud w x)) = true) :
    WrittenAs w x (decM mk always ud w x) := by
  refine writtenAs_withX (hwf (xOnly_ite _ x)) ?_
  rw [henc, wordsM, ← BitVec.eq_of_toNat_eq hop, encM_fmOf]
  rfl

theorem writtenAs_rw {mk : RW → Instr} {op : BitVec 7}
    (henc : encode (mk (rwOf w x)) = withX (callsX (fld w 19 6)) (encRW op (rwOf w x)) (rwOf w x).x)
    (hop : (fld w 25 7).toNat = op.toNat)
    (hwf : xOnly (callsX (fld w 19 6)) (rwOf w x).x = true → WellFormed (mk (rwOf w x)) = true) :
    WrittenAs w x (decRW mk w x) := by
  refine writtenAs_withX (hwf (xOnly_ite _ x)) ?_
  rw [henc, ← BitVec.eq_of_toNat_eq hop, encRW_rwOf]
  rfl

theorem writtenAs_s {mk : FS → Instr} {op : BitVec 7}
    (henc : encode (mk (fsOf w x)) = withX (callsX (fld w 19 6)) (encS op (fsOf w x)) (fsOf w x).x)
    (hop : (fld w 25 7).toNat = op.toNat)
    (hwf : xOnly (callsX (fld w 19 6)) (fsOf w x).x = true → WellFormed (mk (fsOf w x)) = true) :
    WrittenAs w x (some (mk (fsOf w x), if callsX (fld w 19 6) then 2 else 1)) := by
  refine writtenAs_withX (hwf (xOnly_ite _ x)) ?_
  rw [henc, ← BitVec.eq_of_toNat_eq hop, encS_fsOf]
  rfl

theorem writtenAs_e {mk : FE → Instr} {sub : BitVec 4} (hop : fld w 25 7 = 0x72)
    (henc : encode (mk (feOf w x)) = withX (callsX (fld w 15 6)) (encE sub (feOf w x)) (feOf w x).x)
    (hsub : (fld w 21 4).toNat = sub.toNat)
    (hwf : xOnly (callsX (fld w 15 6)) (feOf w x).x = true → WellFormed (mk (feOf w x)) = true) :
    WrittenAs w x (decE mk w x) := by
  refine writtenAs_withX (hwf (xOnly_ite _ x)) ?_
  rw [henc, ← BitVec.eq_of_toNat_eq hsub, encE_feOf x hop]
  rfl

theorem writtenAs_h {mk : FH → Instr} {ud ua : Bool} {ext : Bool} {sub : BitVec 4} (hop : fld w 25 7 = 0x73)
    (hext : ((ud && callsX (fld w 15 6)) || (ua && callsX (fld w 9 6))) = ext)
    (henc : encode (mk (fhOf ud ua w x)) = withX ext (encH sub (fhOf ud ua w x)) (fhOf ud ua w x).x)
    (hsub : (fld w 21 4).toNat = sub.toNat)
    (hwf : xOnly ext (fhOf ud ua w x).x = true → WellFormed (mk (fhOf ud ua w x)) = true) :
    WrittenAs w x (decH mk ud ua w x) := by
  subst hext
  refine writtenAs_withX (hwf (xOnly_ite _ x)) ?_
  rw [henc, ← BitVec.eq_of_toNat_eq hsub, encH_fhOf ud ua x hop]
  rfl

theorem decSpecial_writtenAs (hop : (fld w 25 7).toNat = 0x35) : WrittenAs w x (decSpecial w x) := by
  unfold decSpecial
  split
  case' h_8 =>
    have hm : (fld w 4 3).toNat = 7 := by
      have := (fld w 4 3).isLt
      grind
  all_goals
    refine writtenAs_v3 x rfl hop fun hx =>
      Bool.and_eq_true_iff.mpr ⟨decide_eq_true (BitVec.eq_of_toNat_eq (by assumption)), ?_⟩
    simp only [v3Ext, Bool.false_or, Bool.true_and, Bool.false_and, Bool.or_false] at hx
    exact hx

theorem decSys_writtenAs (hop : (fld w 25 7).toNat = 0x76) : WrittenAs w x (decSys w x) := by
  unfold decSys
  split
  case h_6 =>
    refine writtenAs_one ((noSubOp_iff w).mpr (.inr (.inr ⟨BitVec.eq_of_toNat_eq hop, ?_⟩))) rfl
    grind
  all_goals
    next h =>
    refine writtenAs_v3 x rfl hop fun hx => Bool.and_eq_true_iff.mpr ⟨decide_eq_true (BitVec.eq_of_toNat_eq h), ?_⟩
    simp only [v3Ext, Bool.false_or, Bool.true_and, Bool.false_and, Bool.or_false] at hx
    exact hx

theorem decEng_writtenAs (hop : (fld w 25 7).toNat = 0x72) : WrittenAs w x (decEng w x) := by
  have hop := BitVec.eq_of_toNat_eq (y := 0x72) hop
  unfold decEng
  split
  case h_10 =>
    refine writtenAs_one ((noSubOp_iff w).mpr (.inl ⟨hop, ?_⟩)) rfl
    grind
  all_goals
    next h => exact writtenAs_e x hop rfl h id

theorem decHyp_writtenAs (hop : (fld w 25 7).toNat = 0x73) : WrittenAs w x (decHyp w x) := by
  have hop := BitVec.eq_of_toNat_eq (y := 0x73) hop
  unfold decHyp
  split
  case h_8 =>
    refine writtenAs_one ((noSubOp_iff w).mpr (.inr (.inl ⟨hop, ?_⟩))) rfl
    grind
  case h_6 h => exact writtenAs_h x hop (Bool.or_false _) rfl h id
  all_goals
    next h => exact writtenAs_h x hop rfl rfl h id

theorem decode0_writtenAs (hop : (fld w 25 7).toNat < 30) : WrittenAs w x (decode0 w x) := by
  unfold decode0
  split
  case h_27 h => exact writtenAs_rw x rfl h id
  case h_28 h => exact writtenAs_rw x rfl h id
  case h_30 h => exact writtenAs_icmp x rfl h id
  case h_31 => interval_cases (fld w 25 7).toNat <;> contradiction
  all_goals
    refine writtenAs_v3 x rfl (by assumption) fun hx => ?_
    simp only [v3Ext, Bool.true_or, Bool.false_or, Bool.true_and, Bool.false_and, Bool.or_false] at hx
    exact hx

theorem decode30_writtenAs (hlo : 30 ≤ (fld w 25 7).toNat) (hhi : (fld w 25 7).toNat < 60) :
    WrittenAs w x (decode30 w x) := by
  unfold decode30
  split
  case h_1 h => exact writtenAs_icmp x rfl h id
  case h_2 h =>
    refine writtenAs_withX (xOnly_ite _ x) ?_
    have hw : encRI 0x1f (riOf w x) = w := BitVec.eq_of_toNat_eq (y := 0x1f) h ▸ encRI_riOf w x
    simp only [encode, hw]; rfl
  case h_4 h =>
    have hw : encV3 0x21 (v3Of (pmovUse w) w x) = w := BitVec.eq_of_toNat_eq (y := 0x21) h ▸ encV3_v3Of _ w x
    refine writtenAs_v3 (op := 0x21) x (by simp only [encode, hw]) h fun hx => ?_
    rw [v3Ext_pmovUse] at hx
    exact hx
  case h_6 h =>
    have hw : encV3 0x23 (v3Of (tagUse w) w x) = w := BitVec.eq_of_toNat_eq (y := 0x23) h ▸ encV3_v3Of _ w x
    refine writtenAs_v3 (op := 0x23) x (by simp only [encode, hw]) h fun hx => ?_
    rw [v3Ext_tagUse] at hx
    exact hx
  case h_24 h => exact decSpecial_writtenAs x h
  case h_31 => interval_cases (fld w 25 7).toNat <;> contradiction
  all_goals
    refine writtenAs_v3 x rfl (by assumption) fun hx => ?_
    simp only [v3Ext, Bool.true_or, Bool.false_or, Bool.true_and, Bool.false_and, Bool.or_false] at hx
    exact hx

theorem decode60_writtenAs (hlo : 60 ≤ (fld w 25 7).toNat) (hhi : (fld w 25 7).toNat < 90) :
    WrittenAs w x (decode60 w x) := by
  unfold decode60
  split
  case h_22 | h_23 | h_24 | h_25 | h_26 | h_27 | h_28 | h_29 | h_30 =>
    refine writtenAs_m x rfl (by assumption) fun hx => ?_
    simp only [mExt, Bool.true_or, Bool.false_or, Bool.true_and] at hx
    exact hx
  case h_31 => interval_cases (fld w 25 7).toNat <;> contradiction
  all_goals
    refine writtenAs_v3 x rfl (by assumption) fun hx => ?_
    simp only [v3Ext, Bool.true_or, Bool.false_or, Bool.true_and, Bool.false_and, Bool.or_false] at hx
    exact hx

theorem decode90_writtenAs (hlo : 90 ≤ (fld w 25 7).toNat) (hhi : (fld w 25 7).toNat < 120) :
    WrittenAs w x (decode90 w x) := by
  unfold decode90
  split
  case h_1 | h_2 | h_30 =>
    refine writtenAs_m x rfl (by assumption) fun hx => ?_
    simp only [mExt, Bool.true_or, Bool.false_or, Bool.true_and, Bool.false_and] at hx
    exact hx
  case h_9 h =>
    exact writtenAs_one rfl (congrArg (fun v => [v]) (BitVec.eq_of_toNat_eq (y := 0x62) h ▸ encWT_wtOf w))
  case h_14 h =>
    exact writtenAs_one rfl (congrArg (fun v => [v]) (BitVec.eq_of_toNat_eq (y := 0x67) h ▸ encJ_fjOf w))
  case h_17 h =>
    exact writtenAs_one rfl (congrArg (fun v => [v]) (BitVec.eq_of_toNat_eq (y := 0x6a) h ▸ encJ_fjOf w))
  case h_20 h =>
    refine writtenAs_withX (xOnly_ite _ x) ?_
    have hw : encL 0x6d (flOf w x) = w := BitVec.eq_of_toNat_eq (y := 0x6d) h ▸ encL_flOf w x
    simp only [encode, hw]; rfl
  case h_24 h =>
    rw [getLsbD_four_eq_minor]
    split
    next hm => exact writtenAs_v3 x rfl h fun hx => Bool.and_eq_true_iff.mpr ⟨hm, hx⟩
    next hm =>
      have hm0 := Bool.eq_false_of_not_eq_true hm
      exact writtenAs_v3 x rfl h fun hx => Bool.and_eq_true_iff.mpr ⟨(Bool.not_eq_true' _).mpr hm0, hx⟩
  case h_25 h => exact decEng_writtenAs x h
  case h_26 h => exact decHyp_writtenAs x h
  case h_27 h => exact writtenAs_s x rfl h id
  case h_28 h => exact writtenAs_s x rfl h id
  case h_29 h => exact decSys_writtenAs x h
  case h_31 => interval_cases (fld w 25 7).toNat <;> contradiction
  all_goals
    refine writtenAs_v3 x rfl (by assumption) fun hx => ?_
    simp only [v3Ext, Bool.true_or, Bool.false_or, Bool.true_and, Bool.false_and, Bool.or_false] at hx
    exact hx

theorem decode_writtenAs (hop : (fld w 25 7).toNat < 120) : WrittenAs w x (decode w x) := by
  unfold decode
  split
  · exact decode0_writtenAs x ‹_›
  split
  · exact decode30_writtenAs x (by omega) ‹_›
  split
  · exact decode60_writtenAs x (by omega) ‹_›
  · exact decode90_writtenAs x (by omega) hop

theorem opcode_toNat (w : Word) : (fld w 25 7).toNat = w.toNat / 2 ^ 25 := by
  rw [BitVec.extractLsb'_toNat, Nat.shiftRight_eq_div_pow]
  omega

theorem decode_eq_none_iff : decode w x = none ↔ 0x78 ≤ w.toNat / 2 ^ 25 := by
  rw [← opcode_toNat]
  constructor
  · intro hnone
    by_contra hlt
    obtain ⟨i, n, hsome, -⟩ := decode_writtenAs x (not_le.mp hlt)
    rw [hnone] at hsome
    contradiction
  · exact decode_headerSpace x
end

theorem wellFormed_and_encode_of_decode {w x : Word} {i : Instr} {n : Nat} (h : decode w x = some (i, n)) :
    WellFormed i = true ∧ (n = 1 ∧ encode i = [w] ∨ n = 2 ∧ encode i = [w, x]) := by
  have hop : (fld w 25 7).toNat < 120 := by
    by_contra hge
    simp [decode_headerSpace x (not_lt.mp hge)] at h
  obtain ⟨j, m, hj, hwords⟩ := decode_writtenAs x hop
  obtain ⟨rfl, rfl⟩ : i = j ∧ n = m := by simpa [h] using hj
  exact hwords

/-! ## Bytes as memory stores them (R4) -/

theorem leWord_bytes (w : Word) :
    leWord (w.extractLsb' 0 8) (w.extractLsb' 8 8) (w.extractLsb' 16 8) (w.extractLsb' 24 8) = w := by
  unfold leWord
  repeat rw [BitVec.extractLsb'_append_extractLsb'_eq_extractLsb' (by rfl)]
  exact BitVec.extractLsb'_eq_self

theorem decodeBytes_of_one {i : Instr} {w : Word} (h : ∀ x, decode w x = some (i, 1)) (rest : List Byte) :
    decodeBytes (storedBytes [w] ++ rest) = some (i, rest) := by
  change decodeBytes (w.extractLsb' 0 8 :: w.extractLsb' 8 8 :: w.extractLsb' 16 8 :: w.extractLsb' 24 8 :: rest) = _
  unfold decodeBytes
  simp only [leWord_bytes, h]

theorem decodeBytes_of_two {i : Instr} {w x : Word} (h : decode w x = some (i, 2)) (rest : List Byte) :
    decodeBytes (storedBytes [w, x] ++ rest) = some (i, rest) := by
  change decodeBytes (w.extractLsb' 0 8 :: w.extractLsb' 8 8 :: w.extractLsb' 16 8 :: w.extractLsb' 24 8 ::
    x.extractLsb' 0 8 :: x.extractLsb' 8 8 :: x.extractLsb' 16 8 :: x.extractLsb' 24 8 :: rest) = _
  unfold decodeBytes
  simp only [leWord_bytes, h]
  simp

theorem decodeBytes_storedBytes {i : Instr} {ws : List Word} (h : ReadsAs i ws) (rest : List Byte) :
    decodeBytes (storedBytes ws ++ rest) = some (i, rest) := by
  cases h with
  | one hdec => exact decodeBytes_of_one hdec rest
  | two hdec => exact decodeBytes_of_two hdec rest

/-- Settles O58: from an instruction to its words and back by the constructors (`readsAs_encode`), from a word to its
instruction and back by the decoder's table (`decode_writtenAs`). -/
theorem decodeOfEncode : Obligations.DecodeOfEncode := by
  refine ⟨fun i w x hwf henc => ?_, fun i w x hwf henc => ?_, fun i rest hwf hne => ?_, fun w x i n h => ?_, fun w x => ?_⟩
  · have h := readsAs_encode i hwf (by simp [henc])
    rw [henc] at h
    cases h with
    | one hdec => exact hdec x
  · have h := readsAs_encode i hwf (by simp [henc])
    rw [henc] at h
    cases h with
    | two hdec => exact hdec
  · exact decodeBytes_storedBytes (readsAs_encode i hwf hne) rest
  · exact wellFormed_and_encode_of_decode h
  · exact decode_eq_none_iff x

end Sys2Proof.Encoding

/-! # When an access goes on (O14: R18, R73, R74, R94, R202, R207) -/
namespace Sys2Proof.Kernels
open Sys2Proof Sys2Proof.Machine Sys2Proof.Laws

/-! ### Checks over addresses -/

@[simp] theorem trapOf_eq_none (l : List Bad) : trapOf l = none ↔ l = [] := by
  cases l <;> simp [trapOf]

@[simp] theorem firstOf_eq_none (l : List (Option Trap)) : firstOf l = none ↔ ∀ x ∈ l, x = none := by
  induction l with
  | nil => simp [firstOf]
  | cons x l ih => cases x <;> simp [firstOf, ih]

/-- A check over addresses passes when no accessed address fails it. -/
@[simp] theorem badAt_eq_none (cause : Nat) (l : List (Th × DWord)) (p : Th → DWord → Bool) :
    badAt cause l p = none ↔ ∀ x ∈ l, p x.1 x.2 = false := by
  simp [badAt, List.filter_eq_nil_iff]

theorem globalBad_eq_none (s : State) (l : List (Th × DWord)) (n : Nat) (atomic : Bool) : s.globalBad l n atomic = none ↔
    ∀ x ∈ l, (s.warp x.1.wid).orphan = false ∧ (atomic = true → (s.warp x.1.wid).hyp.extractLsb' 0 8 = 0) ∧
      x.2.toNat % n = 0 := by
  simp only [State.globalBad, firstOf_eq_none, List.forall_mem_cons, badAt_eq_none, List.not_mem_nil, false_imp_iff,
    implies_true, and_true, ← forall_and]
  simp

theorem scratchBad_eq_none (s : State) (l : List (Th × DWord)) (n kind : Nat) : s.scratchBad l n kind = none ↔
    ∀ x ∈ l, scratchFine s (s.warp x.1.wid).bid x.2.toNat n kind := by
  simp only [State.scratchBad, scratchFine, firstOf_eq_none, List.forall_mem_cons, badAt_eq_none, List.not_mem_nil,
    false_imp_iff, implies_true, and_true, ← forall_and]
  simp [Decidable.or_iff_not_imp_left]

/-- The checks of a gang-remote access, thread by thread: its target exists, and the address passes there. -/
theorem remoteBad_eq_none (s : State) (c : Ctx) (l : List (Th × DWord)) (n kind tgt : Nat) (code : BitVec 6) :
    s.remoteBad c l n kind tgt code = none ↔
      ∀ x ∈ l, ∃ bid, s.targetOf c x.1 tgt code = .ok bid ∧ scratchFine s bid x.2.toNat n kind := by
  simp only [State.remoteBad, scratchFine, firstOf_eq_none, List.forall_mem_cons, badAt_eq_none, trapOf_eq_none,
    List.filterMap_eq_nil_iff, List.not_mem_nil, false_imp_iff, implies_true, and_true, ← forall_and]
  refine forall_congr' fun x => forall_congr' fun _ => ?_
  cases s.targetOf c x.1 tgt code with
  | error d => simp
  | ok bid => simp [Decidable.or_iff_not_imp_left]

/-! ### What holds an access at issue -/

@[simp] theorem mem_widsOf (act : List Th) (wid : Nat) : wid ∈ widsOf act ↔ ∃ t ∈ act, t.wid = wid := by
  simp [widsOf]

theorem behindAcquire_eq_false (s : State) (c : Ctx) (act : List Th) : s.behindAcquire c act = false ↔ noAcquire s c act := by
  simp only [State.behindAcquire, noAcquire, List.any_eq_false]
  refine forall_congr' fun t => forall_congr' fun _ => ?_
  cases c.trap <;> simp

theorem full_eq_false (s : State) (act : List Th) (ctr : Nat) :
    s.full act ctr = false ↔ ∀ t ∈ act, s.counter t.wid ctr < counterMax ctr := by
  simp [State.full, State.room, List.any_eq_false]

theorem listFull_eq_false (s : State) (act : List Th) :
    s.listFull act = false ↔ ∀ t ∈ act, (s.warp t.wid).faults.length < 8 := by
  simp [State.listFull, List.any_eq_false]

theorem recordHolds_eq_false (s : State) (c : Ctx) (act : List Th) :
    s.recordHolds c act = false ↔ c.trap = true ∨ ∀ t ∈ act, (s.warp t.wid).faults = [] := by
  cases h : c.trap <;> simp [State.recordHolds, List.any_eq_false, h]

theorem releaseHold_eq_none (s : State) (c : Ctx) (act : List Th) : s.releaseHold c act = none ↔
    (c.trap = true ∨ ∀ t ∈ act, (s.warp t.wid).faults = []) ∧ ∀ t ∈ act, s.quiet t = true := by
  rw [← recordHolds_eq_false]
  unfold State.releaseHold
  cases s.recordHolds c act <;> simp

theorem memHold_eq_none (s : State) (c : Ctx) (act : List Th) (ctr : Nat) (global rel : Bool) :
    s.memHold c act ctr global rel = none ↔
    noAcquire s c act ∧
    (rel = true → (c.trap = true ∨ ∀ t ∈ act, (s.warp t.wid).faults = []) ∧ ∀ t ∈ act, s.quiet t = true) ∧
    (global = true → c.trap = true ∨ ∀ t ∈ act, (s.warp t.wid).faults.length < 8) ∧
    ∀ t ∈ act, s.counter t.wid ctr < counterMax ctr := by
  have hrel : (rel = true → s.releaseHold c act = none) ↔ (if rel then s.releaseHold c act else none) = none := by
    cases rel <;> simp
  have hlist : (global = true → c.trap = true ∨ s.listFull act = false) ↔ (global && !c.trap && s.listFull act) = false := by
    cases global <;> cases c.trap <;> simp
  rw [← behindAcquire_eq_false, ← releaseHold_eq_none, ← listFull_eq_false, ← full_eq_false, hrel, hlist]
  unfold State.memHold
  cases s.behindAcquire c act
  case true => simp
  case false =>
    cases (if rel then s.releaseHold c act else none) with
    | some t => simp
    | none => cases global && !c.trap && s.listFull act <;> cases s.full act ctr <;> simp

/-- Settles O14: each check passes exactly when no address fails it, and nothing holds the instruction exactly when none of the
holds of R64, R83, R84 and R399 is met. -/
theorem whenAnAccessGoesOn : Obligations.WhenAnAccessGoesOn :=
  ⟨globalBad_eq_none, scratchBad_eq_none, remoteBad_eq_none, memHold_eq_none⟩

end Sys2Proof.Kernels

/-! # What a fetch reads (R141, R223, R380 to R385) -/
namespace Sys2Proof.Kernels
open Sys2Proof Sys2Proof.Machine Sys2Proof.Laws

/-- The state reduced to what translations and committed bytes are computed from. -/
def memOf (s : State) : State :=
  { parts := s.parts, launches := s.launches, vault := s.vault, hostMem := s.hostMem, peerMem := s.peerMem, paramMem := s.paramMem,
    seals := s.seals, upsets := s.upsets, tlb := s.tlb, l1 := s.l1, l2 := s.l2, reg := s.reg }

theorem part_memOf (s : State) (p : Nat) : (memOf s).part p = s.part p := rfl
theorem walkLevel_memOf (s : State) (P : Part) (va : DWord) (t l : Nat) : (memOf s).walkLevel P va t l = s.walkLevel P va t l := rfl
theorem walkFrom_memOf (s : State) (P : Part) (va : DWord) (l t : Nat) : (memOf s).walkFrom P va l t = s.walkFrom P va l t := by
  induction l generalizing t with
  | zero => simp only [State.walkFrom, walkLevel_memOf]
  | succ l ih => simp only [State.walkFrom, walkLevel_memOf, ih]
theorem paramHit_memOf (s : State) (p asid : Nat) (va : DWord) : (memOf s).paramHit p asid va = s.paramHit p asid va := rfl
theorem walk_memOf (s : State) (p asid : Nat) (va : DWord) : (memOf s).walk p asid va = s.walk p asid va := by
  simp only [State.walk, walkFrom_memOf, part_memOf, paramHit_memOf]
theorem tlbHit_memOf (s : State) (p t asid : Nat) (va : DWord) : (memOf s).tlbHit p t asid va = s.tlbHit p t asid va := rfl
theorem translate_memOf (s : State) (p asid : Nat) (va : DWord) (k : WalkKind) :
    ((memOf s).translate p asid va k).2 = (s.translate p asid va k).2 := by
  simp only [State.translate, walk_memOf, part_memOf, tlbHit_memOf]
  split
  · split
    · split
      · rfl
      · split <;> rfl
    · rfl
  · split
    · rfl
    · split <;> (split <;> [rfl; (split <;> rfl)])
theorem committed_memOf (s : State) (p asid t : Nat) (lf : Leaf) (va : DWord) (n : Nat) :
    (memOf s).committed p asid t lf va n = s.committed p asid t lf va n := rfl
theorem fetch_memOf (s : State) (p asid : Nat) (va : DWord) : (memOf s).fetch p asid va = s.fetch p asid va := by
  simp only [State.fetch, translate_memOf, committed_memOf, part_memOf]

/-- A fetch is the same in two states that agree in what translations and committed bytes are computed from. -/
theorem fetch_congr {s t : State} (h : memOf t = memOf s) (p asid : Nat) (va : DWord) : t.fetch p asid va = s.fetch p asid va := by
  rw [← fetch_memOf, h, fetch_memOf]

end Sys2Proof.Kernels

/-! # A step runs the decoded instruction (O60: R36, R42, R138, R140, R143, R333, R399) -/
namespace Sys2Proof.Kernels
open Sys2Proof Sys2Proof.Machine Sys2Proof.Laws

/-! ### Changing the states of a unit's groups -/

@[simp] theorem memOf_onWarp (s : State) (k : Nat) (f : Warp → Warp) : memOf (s.onWarp k f) = memOf s := by
  simp [memOf]

/-- What each change of a sliver's groups keeps, a change of all the groups of a unit keeps. -/
theorem setSt_induction {P : State → Prop} (u : IssueUnit) (f : Group → Group) (hP : ∀ t k j, P t → P (t.onSliver k j f))
    (s : State) (h : P s) : P (s.setSt u f) :=
  List.foldlRecOn (motive := P) u.mem _ h fun t ht p _ => hP t p.1 p.2 ht

theorem memOf_setSt (s : State) (u : IssueUnit) (f : Group → Group) : memOf (s.setSt u f) = memOf s :=
  setSt_induction (P := fun t => memOf t = memOf s) u f (fun _ _ _ h => (memOf_onWarp _ _ _).trans h) s rfl

/-- What a change of one warp leaves of every warp. -/
theorem warp_field_onWarp {β : Type} (g : Warp → β) (s : State) (k : Nat) (f : Warp → Warp) (hf : ∀ w, g (f w) = g w) (j : Nat) :
    g ((s.onWarp k f).warp j) = g (s.warp j) := by
  simp only [State.warp, Tbl.getD, onWarp_find]
  split
  · next h => subst h; cases s.warps.find j <;> simp [hf]
  · rfl

theorem launchOf_onWarp (s : State) (k : Nat) (f : Warp → Warp) (hf : ∀ w, (f w).bid = w.bid) (wid : Nat) :
    (s.onWarp k f).launchOf wid = s.launchOf wid := by
  have hb := warp_field_onWarp Warp.bid s k f hf wid
  simp [State.launchOf, State.launch, State.gang, State.block, hb]

theorem launchOf_onSliver (s : State) (k j : Nat) (f : Group → Group) (wid : Nat) :
    (s.onSliver k j f).launchOf wid = s.launchOf wid := by
  unfold State.onSliver
  exact launchOf_onWarp s k _ (by intro w; rfl) wid

theorem launchOf_setSt (s : State) (u : IssueUnit) (f : Group → Group) (wid : Nat) :
    (s.setSt u f).launchOf wid = s.launchOf wid :=
  setSt_induction (P := fun t => t.launchOf wid = s.launchOf wid) u f
    (fun t k j h => (launchOf_onSliver t k j f wid).trans h) s rfl

/-! ### The next instruction -/

theorem wordAt_of_clauseWord {s : State} {u : IssueUnit} {a : DWord} {w : Word} (h : clauseWord s u a w) :
    s.wordAt u a = .ok w := by
  rcases h with ⟨hc, hw⟩ | ⟨hc, p, hp, hw⟩
  · rw [State.wordAt, if_neg hc, List.getD_eq_getElem?_getD, hw, Option.getD_some]
  · obtain ⟨l, hl⟩ := List.head?_eq_some_iff.mp hp
    simp [State.wordAt, hc, hl, hw]

theorem nextInstr_of_readsInstr {s : State} {u : IssueUnit} {i : Instr} (h : readsInstr s u i) : s.nextInstr u = .ok i := by
  rcases h with ⟨w, hw, hd⟩ | ⟨w, x, ⟨j, n⟩, hw, hx, hd, hn, hi⟩
  · simp only [State.nextInstr, wordAt_of_clauseWord hw, hd, Nat.one_lt_two, if_true]
  · dsimp only at hn
    simp only [State.nextInstr, wordAt_of_clauseWord hw, wordAt_of_clauseWord hx, hd, hn, hi, Nat.lt_irrefl, if_false]

theorem nextInstr_of_headerSpace {s : State} {u : IssueUnit} {w : Word} (h : clauseWord s u u.pc w) (hw : 0x78 ≤ w.toNat / 2 ^ 25) :
    s.nextInstr u = .error (cz 0x01 7, u.pc) := by
  simp only [State.nextInstr, wordAt_of_clauseWord h, (Encoding.decode_eq_none_iff 0).mpr hw]

/-- The words of a unit's clause do not depend on the states of its groups. -/
theorem clauseWord_passWaits {s : State} {u : IssueUnit} {a : DWord} {w : Word} (h : clauseWord s u a w) :
    clauseWord (s.passWaits u) u a w := by
  refine h.imp_right fun ⟨hc, p, hp, hf⟩ => ⟨hc, p, hp, ?_⟩
  rw [State.passWaits, fetch_congr (memOf_setSt _ _ _), State.partOf, State.asidOf, launchOf_setSt]
  exact hf

theorem readsInstr_passWaits {s : State} {u : IssueUnit} {i : Instr} (h : readsInstr s u i) : readsInstr (s.passWaits u) u i := by
  rcases h with ⟨w, hw, hd⟩ | ⟨w, x, y, hw, hx, hd⟩
  · exact .inl ⟨w, clauseWord_passWaits hw, hd⟩
  · exact .inr ⟨w, x, y, clauseWord_passWaits hw, clauseWord_passWaits hx, hd⟩

/-! ### The turn of the chosen unit -/

/-- No word of the unit waits for a flip of its page's bias (R100). -/
theorem no_flips {s : State} {u : IssueUnit} (h : fetchesNow s u) : (u.code = [] &&
    (u.mem.any (fun m => s.flipping (s.partOf m.1) (s.asidOf m.1) u.pc) ||
      u.mem.any fun m => s.flipping (s.partOf m.1) (s.asidOf m.1) (u.pc + 4))) = false := by
  by_cases hc : u.code = []
  · simp only [hc, Bool.and_eq_false_iff, Bool.or_eq_false_iff, List.any_eq_false]
    exact .inr ⟨fun m hm => Bool.eq_false_iff.mp (h hc m hm).1, fun m hm => Bool.eq_false_iff.mp (h hc m hm).2⟩
  · simp [hc]

/-- A unit whose header's waits are behind it runs its instruction. -/
theorem issueNext_of_noWaits {s : State} {u : IssueUnit} {i : Instr} (hf : fetchesNow s u) (hw : u.waits = false)
    (hr : readsInstr s u i) : s.issueNext u = exec i s := by
  simp only [State.issueNext, no_flips hf, hw, nextInstr_of_readsInstr hr]; rfl

/-- A unit at its clause's first instruction that is ready runs it once its header's waits are met, and waits before (R138). -/
theorem issueNext_of_waits {s : State} {u : IssueUnit} {i : Instr} (hf : fetchesNow s u) (hw : u.waits = true)
    (hr : readsInstr s u i) (hb : (s.passWaits u).heldBack u (exec i (s.passWaits u)) = false) : s.issueNext u =
      if s.waitMet (s.trapMode u) (u.mem.map (·.1)) (headerBounds u.hw) then exec i (s.passWaits u)
      else .next (s.waitUnmet u (s.trapMode u) (u.mem.map (·.1)) (headerBounds u.hw)) := by
  simp only [State.issueNext, no_flips hf, hw, nextInstr_of_readsInstr (readsInstr_passWaits hr), hb, State.headerMet]; rfl

theorem step_of_canIssue {s : State} (ha : s.agenda = []) (hc : s.canIssue s.focus = true) : step s = s.runFocus := by
  simp [step, ha, hc]

/-- A unit that stands at an instruction takes that turn. -/
theorem step_of_stands {s : State} (ha : s.agenda = []) (hc : s.canIssue s.focus = true) (hs : s.stands s.unit = true) :
    step s = onNext (s.issueNext s.unit) fun t => t.afterIssue s.unit s.focus (s.quadsAt s.focus) := by
  have h := hs
  simp only [State.stands, Bool.and_eq_true, Bool.not_eq_true', decide_eq_true_eq] at h
  obtain ⟨⟨⟨hp, hb⟩, hl⟩, hh⟩ := h
  simp only [step_of_canIssue ha hc, State.runFocus, hs, State.goOn, hp, hb, hl]
  simp [hh]

/-- A unit at a due park, the end of a body, a due trap or a header takes that turn instead, and the next choice is open. -/
theorem step_of_not_stands {s : State} (ha : s.agenda = []) (hc : s.canIssue s.focus = true) (hs : s.stands s.unit = false) :
    step s = onNext s.goOn fun t => { t with chosen := false } := by
  simp [step_of_canIssue ha hc, State.runFocus, hs]

/-- Settles O60: the turn of the chosen unit by what it stands at, the next choice without one, and an event at hand. -/
theorem stepRunsDecodedInstruction : Obligations.StepRunsDecodedInstruction := by
  refine ⟨fun s i ha hc hs hf hr => ⟨fun hw => ?_, fun hw hb => ?_⟩, fun s w ha hc hs hf hw hcw hop => ?_,
    fun s ha hc => ⟨fun hp => ?_, fun hp hb => ?_, fun hp hb hl => ?_, fun hp hb hl hh => ?_⟩, fun s ha hc => ?_, fun s e rest ha => ?_⟩
  · rw [step_of_stands ha hc hs, issueNext_of_noWaits hf hw hr]
  · rw [step_of_stands ha hc hs, issueNext_of_waits hf hw hr hb]
    exact ⟨fun hm => by rw [if_pos hm], fun hm => by rw [hm]; rfl⟩
  · rw [step_of_stands ha hc hs]
    simp only [State.issueNext, no_flips hf, hw, nextInstr_of_headerSpace hcw hop]; rfl
  · rw [step_of_not_stands ha hc (by simp [State.stands, hp])]
    simp [State.goOn, hp, onNext]
  · rw [step_of_not_stands ha hc (by simp [State.stands, hb])]
    simp [State.goOn, hp, hb]
  · rw [step_of_not_stands ha hc (by simp [State.stands, hl])]
    simp [State.goOn, hp, hb, hl, onNext]
  · rw [step_of_not_stands ha hc (by simp [State.stands, hh])]
    simp [State.goOn, hp, hb, hl, hh]
  · simp [step, ha, hc]
  · simp only [step, ha]; rfl

end Sys2Proof.Kernels

/-! # How threads move under control flow (R26 to R28, R35 to R38, R222 to R232) -/
namespace Sys2Proof.Kernels
open Sys2Proof Sys2Proof.Machine Sys2Proof.Laws

/-! ### Groups that change places but not positions -/

/-- Nothing of a warp but its groups has changed, and each of them has kept its lanes and its position. -/
def Rearranged (w v : Warp) : Prop := SameStill w v ∧ ∃ f : Group → Group, v.groups = w.groups.map f ∧
  ∀ g, (f g).lanes = g.lanes ∧ (f g).pc = g.pc ∧ (f g).hdr = g.hdr ∧ (f g).depth = g.depth

theorem Rearranged.refl (w : Warp) : Rearranged w w := ⟨rfl, id, (List.map_id _).symm, fun _ => ⟨rfl, rfl, rfl, rfl⟩⟩

theorem Rearranged.trans (a b c : Warp) (h : Rearranged a b) (g : Rearranged b c) : Rearranged a c := by
  obtain ⟨hs, f, hf, hk⟩ := h
  obtain ⟨gs, e, he, ek⟩ := g
  refine ⟨SameStill.trans a b c hs gs, e ∘ f, by rw [he, hf, List.map_map], fun x => ?_⟩
  obtain ⟨h1, h2, h3, h4⟩ := hk x
  obtain ⟨g1, g2, g3, g4⟩ := ek (f x)
  exact ⟨g1.trans h1, g2.trans h2, g3.trans h3, g4.trans h4⟩

theorem Rearranged.stands {w v : Warp} (h : Rearranged w v) {l : Nat} {tg : Tgt} (hs : StandsAt w l tg) : StandsAt v l tg := by
  obtain ⟨-, f, hf, hk⟩ := h
  obtain ⟨g, hg, hl, hpc, hhdr, hd⟩ := hs
  obtain ⟨h1, h2, h3, h4⟩ := hk g
  exact ⟨f g, hf ▸ List.mem_map_of_mem hg, h1 ▸ hl, h2.trans hpc, h3.trans hhdr, h4.trans hd⟩

theorem Rearranged.lanes {w v : Warp} (h : Rearranged w v) : v.groups.map Group.lanes = w.groups.map Group.lanes := by
  obtain ⟨-, f, hf, hk⟩ := h
  rw [hf, List.map_map]
  exact List.map_congr_left fun g _ => (hk g).1

/-- Groups changed one by one, with their lanes and positions kept. -/
theorem rearranged_map (w : Warp) (n : Nat) (f : Group → Group) (hf : ∀ g, (f g).lanes = g.lanes ∧ (f g).pc = g.pc ∧
    (f g).hdr = g.hdr ∧ (f g).depth = g.depth) : Rearranged w { w with groups := w.groups.map f, nextSliver := n } :=
  ⟨rfl, f, rfl, hf⟩

/-- A group but for its place in its quad's queue. -/
def unplaced (g : Group) : Group := { g with pos := 0, sliver := 0 }

/-- A warp whose groups have only changed places in their quads' queues. -/
def Requeued (w v : Warp) : Prop := SameStill w v ∧ ∃ f : Group → Group, v.groups = w.groups.map f ∧ ∀ g, unplaced (f g) = unplaced g

theorem Requeued.refl (w : Warp) : Requeued w w := ⟨rfl, id, (List.map_id _).symm, fun _ => rfl⟩

theorem Requeued.trans (a b c : Warp) (h : Requeued a b) (g : Requeued b c) : Requeued a c := by
  obtain ⟨hs, f, hf, hk⟩ := h
  obtain ⟨gs, e, he, ek⟩ := g
  exact ⟨SameStill.trans a b c hs gs, e ∘ f, by rw [he, hf, List.map_map], fun x => (ek (f x)).trans (hk x)⟩

theorem Requeued.rearranged {w v : Warp} (h : Requeued w v) : Rearranged w v := by
  obtain ⟨hs, f, hf, hk⟩ := h
  exact ⟨hs, f, hf, fun g => ⟨(congrArg Group.lanes (hk g) :), (congrArg Group.pc (hk g) :), (congrArg Group.hdr (hk g) :),
    (congrArg Group.depth (hk g) :)⟩⟩

theorem turnQuad_requeued (w : Warp) (q : Nat) : Requeued w (w.turnQuad q) := by
  unfold Warp.turnQuad
  dsimp only
  split
  · exact .refl w
  · exact ⟨rfl, _, rfl, fun g => by split <;> [rfl; (split <;> [rfl; (split <;> rfl)])]⟩

theorem passBar_requeued (w : Warp) (q n : Nat) : Requeued w (w.passBar q n) := by
  induction n generalizing w with
  | zero => exact .refl w
  | succ n ih =>
    rw [Warp.passBar]
    split
    · exact .trans _ _ _ (turnQuad_requeued w q) (ih _)
    · exact .refl w

theorem switchQuad_requeued (w : Warp) (q : Nat) : Requeued w (w.switchQuad q) :=
  .trans _ _ _ (turnQuad_requeued w q) (passBar_requeued _ q 4)

theorem promote_requeued (w : Warp) (q : Nat) : Requeued w (w.promote q) := by
  unfold Warp.promote
  split
  · exact .refl w
  · exact ⟨rfl, _, rfl, fun g => by split <;> [rfl; (split <;> rfl)]⟩

theorem switchPoint_requeued (w : Warp) (k : Nat) : Requeued w (w.switchPoint k) :=
  foldl_inv Requeued .refl .trans _ switchQuad_requeued _ w

/-! ### States whose threads stand where they stood -/

/-- Every thread stands where it stood, and nothing but the groups of the warps has changed. -/
structure StaysPut (s t : State) : Prop where
  still : WarpsBy Rearranged s t
  leaves : Leaves s t

theorem StaysPut.refl (s : State) : StaysPut s s := ⟨WarpsBy.refl Rearranged.refl s, Leaves.refl s _⟩
theorem StaysPut.trans {s t u : State} (h : StaysPut s t) (g : StaysPut t u) : StaysPut s u :=
  ⟨WarpsBy.trans Rearranged.trans h.still g.still, Laws.Leaves.trans h.leaves g.leaves⟩

theorem StaysPut.at {s t : State} (h : StaysPut s t) {th : Th} {tg : Tgt} (hs : s.At th tg) : t.At th tg :=
  (h.still.warp (.refl _) th.wid).stands hs

/-- A warp's fields other than its groups. -/
theorem StaysPut.warp {s t : State} (h : StaysPut s t) (k : Nat) : (t.warp k).still = (s.warp k).still :=
  (h.still.warp (.refl _) k).1

theorem staysPut_onWarp (s : State) (k : Nat) (f : Warp → Warp) (hf : ∀ w, Rearranged w (f w)) : StaysPut s (s.onWarp k f) :=
  ⟨WarpsBy.onWarp Rearranged.refl s k f hf, leaves_onWarp _ s k f fun w => (hf w).1⟩

theorem staysPut_plain {s t : State} (hw : t.warps = s.warps) (h : Leaves s t) : StaysPut s t :=
  ⟨WarpsBy.of_eq Rearranged.refl hw, h⟩

/-- A change of warps only that rearranges each of them. -/
theorem staysPut_of_warps {s t : State} (hw : WarpsBy Rearranged s t) (he : ({ t with warps := s.warps } : State) = s) : StaysPut s t := by
  refine ⟨hw, fun k _ => ?_, ?_, ?_, ?_, ?_, ?_, fun c => ?_, fun k _ => ?_, fun u hu _ => ?_, ?_⟩
  · rcases hw k with ⟨h1, h2⟩ | ⟨w, v, h1, h2, hr, -⟩
    · rw [h1, h2]
    · rw [h1, h2]
      exact congrArg some hr
  · exact fun k _ => (congrArg (fun x : State => (x.parts.find k).map id) he :)
  · exact fun k _ => (congrArg (fun x : State => (x.blocks.find k).map id) he :)
  · exact fun k _ => (congrArg (fun x : State => (x.gangs.find k).map id) he :)
  · exact fun k _ => (congrArg (fun x : State => (x.launches.find k).map id) he :)
  · exact fun k _ => (congrArg (fun x : State => (x.ops.find k).map id) he :)
  · exact (congrArg (fun x : State => x.coreRegs c) he :)
  · exact (congrArg (fun x : State => (x.accs.find k).bind some) he :)
  · exact (show t.upsets = s.upsets from (congrArg State.upsets he :)) ▸ hu
  · exact (congrArg State.bare he :)

theorem staysPut_foldl {α : Type} (f : State → α → State) (hf : ∀ s a, StaysPut s (f s a)) (l : List α) (s : State) :
    StaysPut s (l.foldl f s) :=
  foldl_inv StaysPut .refl (fun _ _ _ => .trans) f hf l s

theorem leaves_tidyMixed (F : MayChange) (s : State) : Leaves s s.tidyMixed F :=
  leaves_plain rfl rfl rfl rfl rfl rfl rfl rfl rfl fun _ h _ => h

theorem staysPut_tidyMixed (s : State) : StaysPut s s.tidyMixed := staysPut_plain rfl (leaves_tidyMixed _ s)
theorem staysPut_dissolve (s : State) (mem : List (Nat × Nat)) : StaysPut s (s.dissolve mem) :=
  staysPut_plain rfl (leaves_dissolve _ s mem)

theorem staysPut_switchQuads (s : State) (l : List (Nat × Nat)) : StaysPut s (s.switchQuads l) :=
  (staysPut_foldl _ (fun s p => staysPut_onWarp s p.1 _ fun w => (switchQuad_requeued w p.2).rearranged) l s).trans (staysPut_tidyMixed _)

theorem staysPut_switchUnit (s : State) (u : IssueUnit) : StaysPut s (s.switchUnit u) :=
  (staysPut_foldl _ (fun s p => staysPut_onWarp s p.1 _ fun w => (switchPoint_requeued w p.2).rearranged) u.mem s).trans (staysPut_tidyMixed _)

theorem staysPut_switchBack (s : State) (u : IssueUnit) (q : List (Nat × Nat)) (b : Th → Bool) : StaysPut s (s.switchBack u q b) :=
  staysPut_switchQuads _ _

/-! ### Threads of a context move -/

/-- The groups of every warp are as they were. -/
def SameGroups (s t : State) : Prop := ∀ wid, (t.warps.find wid).map Warp.groups = (s.warps.find wid).map Warp.groups

theorem SameGroups.warp {s t : State} (h : SameGroups s t) (wid : Nat) : (t.warp wid).groups = (s.warp wid).groups := by
  have h := h wid
  unfold State.warp Tbl.getD
  cases hs : s.warps.find wid <;> cases ht : t.warps.find wid <;> simp_all

theorem SameGroups.find_ne_none {s t : State} (h : SameGroups s t) {wid : Nat} (hw : s.warps.find wid ≠ none) :
    t.warps.find wid ≠ none := fun hn => by
  have h := h wid
  rw [hn, Option.map_none, eq_comm, Option.map_eq_none_iff] at h
  exact hw h

theorem SameGroups.at {s t : State} (h : SameGroups s t) {th : Th} {tg : Tgt} (hs : s.At th tg) : t.At th tg := by
  unfold State.At at hs ⊢
  rwa [h.warp]

theorem SameGroups.trans {s t u : State} (h : SameGroups s t) (g : SameGroups t u) : SameGroups s u :=
  fun k => (g k).trans (h k)

theorem sameGroups_foldl_onWarp {α : Type} (f : α → Warp → Warp) (k : α → Nat) (hf : ∀ a w, (f a w).groups = w.groups)
    (l : List α) (s : State) : SameGroups s (l.foldl (fun s a => s.onWarp (k a) (f a)) s) :=
  groups_foldl _ (fun s a j => groups_onWarp s (k a) (f a) (hf a) j) l s

/-- Every thread of a context's unit stands at its next place, as long as the groups are as they were at issue. -/
theorem moveUnit_ctx {s s' : State} {i : Instr} (h : SameGroups s s') (next : Th → Tgt) {th : Th} (hth : th ∈ (s.ctx i).u.th) :
    (s'.moveUnit (s.ctx i).u next).At th (next th) := by
  obtain ⟨k, hk, hw, hr⟩ := inPart_of_mem s s.focus hth
  refine moveUnit_at s' _ next ⟨k, hk, h.find_ne_none hw, ?_⟩
  unfold RunsIn at hr ⊢
  rwa [h.warp]

theorem nodup_unit (s : State) (i : Instr) : (s.ctx i).u.th.Nodup :=
  .of_map _ (threadsOf_lanes _)

theorem active_of_gate {s : State} {i : Instr} {k : Checks} {act : List Th} (h : s.gate (s.ctx i) k = .go act) :
    act.Nodup ∧ ∀ th ∈ act, th ∈ (s.ctx i).u.th := by
  obtain ⟨-, rfl, -⟩ := gate_go h
  exact ⟨(active_sub _ _ _).nodup (nodup_unit s i), fun _ h => (active_sub _ _ _).subset h⟩

/-- The target that a list of distinct threads gives one of them. -/
theorem targetIn_of_mem {l : List (Th × DWord)} (hn : (l.map (·.1)).Nodup) {th : Th} {a : DWord} (h : (th, a) ∈ l) :
    targetIn l th = some a := by
  induction l with
  | nil => simp at h
  | cons x l ih =>
    simp only [List.map_cons, List.nodup_cons, List.mem_map, not_exists, not_and] at hn
    by_cases hx : x.1 = th
    · rcases List.mem_cons.mp h with rfl | h
      · simp [targetIn]
      · exact absurd hx.symm (hn.1 _ h)
    · have hl : (th, a) ∈ l := (List.mem_cons.mp h).resolve_left fun he => hx (he ▸ rfl)
      simpa [targetIn, List.find?_cons, hx] using ih hn.2 hl

theorem targetIn_of_notMem {l : List (Th × DWord)} {th : Th} (h : ∀ a, (th, a) ∉ l) : targetIn l th = none := by
  simp only [targetIn, Option.map_eq_none_iff, List.find?_eq_none, decide_eq_true_eq]
  rintro ⟨t, a⟩ hx rfl
  exact h a hx

/-- A jump moves every thread of the unit at once (R224). -/
theorem jump_moved {s s' : State} {i : Instr} (h : SameGroups s s') {l : List (Th × DWord)} (hn : (l.map (·.1)).Nodup)
    (depth : Nat) : Moved (s.ctx i) l depth (s'.jump (s.ctx i) l depth) := by
  intro th hth
  have hm := moveUnit_ctx h (fun t => match targetIn l t with
    | some a => atHeader a depth
    | none => fallThrough (s.ctx i).u (s.ctx i).len) hth
  refine ⟨fun a ha => ?_, fun hno => ?_⟩
  · rw [targetIn_of_mem hn ha] at hm
    exact hm
  · rw [targetIn_of_notMem hno] at hm
    exact hm

theorem StaysPut.moved {s t : State} (h : StaysPut s t) {c : Ctx} {l : List (Th × DWord)} {depth : Nat} (hm : Moved c l depth s) :
    Moved c l depth t :=
  fun th hth => ⟨fun a ha => h.at ((hm th hth).1 a ha), fun hno => h.at ((hm th hth).2 hno)⟩

theorem leaves_jump (F : MayChange) (s : State) (c : Ctx) (l : List (Th × DWord)) (depth : Nat) : Leaves s (s.jump c l depth) F :=
  leaves_moveUnit F s _ _

/-- What leaves everything but groups leaves a warp's other fields. -/
theorem leaves_still {s t : State} (h : Leaves s t) (k : Nat) : (t.warp k).still = (s.warp k).still := by
  have h := h.warps k id
  unfold State.warp Tbl.getD
  cases hs : s.warps.find k <;> cases ht : t.warps.find k <;> simp_all

theorem levelOn_of_leaves {s t : State} (h : Leaves s t) (th : Th) (k : Nat) : t.levelOn th k = s.levelOn th k := by
  have h : (t.warp th.wid).frames = (s.warp th.wid).frames := (congrArg Warp.frames (leaves_still h th.wid) :)
  unfold State.levelOn
  rw [h]

theorem frame_of_leaves {s t : State} (h : Leaves s t) (wid k : Nat) : t.frame wid k = s.frame wid k := by
  have h : (t.warp wid).frames = (s.warp wid).frames := (congrArg Warp.frames (leaves_still h wid) :)
  unfold State.frame
  rw [h]

theorem lcReg_of_leaves {s t : State} (h : Leaves s t) (th : Th) (k : Nat) : t.lcReg th k = s.lcReg th k := by
  have h : (t.warp th.wid).lc = (s.warp th.wid).lc := (congrArg Warp.lc (leaves_still h th.wid) :)
  unfold State.lcReg
  rw [h]

end Sys2Proof.Kernels

/-! # Loop levels (R35 to R38) -/
namespace Sys2Proof.Kernels
open Sys2Proof Sys2Proof.Machine Sys2Proof.Laws

/-! ### Levels of a warp -/

theorem find_map_snd {α β : Type} (t : Tbl α) (g : Nat → α → β) (k : Nat) :
    Tbl.find (t.map fun p => (p.1, g p.1 p.2)) k = (Tbl.find t k).map (g k) := by
  induction t with
  | nil => rfl
  | cons p t ih =>
    simp only [List.map_cons, Tbl.find, ih]
    split
    · next h => subst h; rfl
    · rfl

/-- Is a level of a warp active for a lane? -/
def LevelIn (w : Warp) (lane k : Nat) : Prop := ∃ f, w.frames.find k = some f ∧ f.active.getLsbD lane = true

theorem levelOn_iff (s : State) (th : Th) (k : Nat) : s.levelOn th k = true ↔ LevelIn (s.warp th.wid) th.lane k := by
  unfold State.levelOn LevelIn
  cases (s.warp th.wid).frames.find k <;> simp

/-- The body of a frame and its call depth, whoever runs it. -/
def Frame.place (f : Frame) : DWord × Nat × Nat := (f.start, f.len, f.depth)

/-- The frames of two warps name the same bodies. -/
def SamePlaces (w v : Warp) : Prop := ∀ k, (v.frames.find k).map Frame.place = (w.frames.find k).map Frame.place

theorem getLsbD_clear (m : Word) (a b : Nat) : (m &&& ~~~(1#32 <<< a)).getLsbD b = (m.getLsbD b && decide (b ≠ a)) := by
  by_cases hb : b < 32
  · rw [BitVec.getLsbD_and, BitVec.getLsbD_not, BitVec.getLsbD_shiftLeft, BitVec.getLsbD_one]
    simp only [hb, decide_true, Bool.true_and]
    congr 1
    rw [Bool.eq_iff_iff]
    simp
    omega
  · rw [BitVec.getLsbD_of_ge _ _ (by omega), BitVec.getLsbD_of_ge m _ (by omega), Bool.false_and]

/-- Levels of a lane end where `drop` says so, and nothing else of the frames changes. -/
def DropsLevels (w v : Warp) (lane : Nat) (drop : Nat → Prop) : Prop :=
  SamePlaces w v ∧ ∀ l k, LevelIn v l k ↔ LevelIn w l k ∧ ¬ (l = lane ∧ drop k)

theorem dropsLevels_none (w : Warp) (lane : Nat) {drop : Nat → Prop} (h : ∀ k, ¬ drop k) : DropsLevels w w lane drop :=
  ⟨fun _ => rfl, fun l k => by simp [h]⟩

theorem dropsLevels_map (w : Warp) (lane : Nat) (p : Nat → Prop) [DecidablePred p] : DropsLevels w
    { w with frames := w.frames.map fun x => (x.1, if p x.1 then { x.2 with active := x.2.active &&& ~~~(1#32 <<< lane) } else x.2) }
    lane p := by
  refine ⟨fun k => ?_, fun l k => ?_⟩
  · rw [find_map_snd w.frames fun k f => if p k then { f with active := f.active &&& ~~~(1#32 <<< lane) } else f]
    cases w.frames.find k with
    | none => rfl
    | some f => by_cases hk : p k <;> simp [hk, Frame.place]
  · unfold LevelIn
    rw [find_map_snd w.frames fun k f => if p k then { f with active := f.active &&& ~~~(1#32 <<< lane) } else f]
    cases w.frames.find k with
    | none => simp
    | some f => by_cases hk : p k <;> simp [hk, getLsbD_clear, -BitVec.getLsbD_and]

theorem dropLevels_drops (w : Warp) (lane lo : Nat) : DropsLevels w (w.dropLevels lane lo) lane (lo ≤ ·) :=
  dropsLevels_map w lane (lo ≤ ·)

/-- A taken branch to an address leaves an active level of a lane at its call depth whose body does not hold it (R37). -/
def Leaving (w : Warp) (lane depth : Nat) (a : DWord) (k : Nat) : Prop :=
  ∃ f, w.frames.find k = some f ∧ f.active.getLsbD lane = true ∧ f.depth = depth ∧ f.holds a = false

theorem leaving_iff (s : State) (th : Th) (depth : Nat) (a : DWord) (k : Nat) : Leaving (s.warp th.wid) th.lane depth a k ↔
    s.levelOn th k = true ∧ (s.frame th.wid k).depth = depth ∧
      ¬ ((s.frame th.wid k).start.toNat ≤ a.toNat ∧ a.toNat < (s.frame th.wid k).endAt.toNat) := by
  rw [levelOn_iff]
  unfold Leaving LevelIn State.frame Tbl.getD
  cases (s.warp th.wid).frames.find k with
  | none => simp
  | some f => simp [Frame.holds]

/-- The levels that a taken branch ends: the lowest one it leaves and those above. -/
def Leave (w : Warp) (lane depth : Nat) (a : DWord) : Warp :=
  match w.leftLevel lane depth a with
  | some lo => w.dropLevels lane lo
  | none => w

theorem leftLevel_eq (w : Warp) (lane depth : Nat) (a : DWord) : ∃ p : Nat → Bool, (∀ k, p k = true ↔ Leaving w lane depth a k) ∧
    w.leftLevel lane depth a = [0, 1, 2].find? p := by
  refine ⟨_, fun k => ?_, rfl⟩
  unfold Leaving
  cases w.frames.find k <;> simp [and_assoc]

/-- The lowest of the three levels that a test accepts. -/
theorem find_below_three {p : Nat → Bool} {lo : Nat} (h : [0, 1, 2].find? p = some lo) :
    lo < 3 ∧ p lo = true ∧ ∀ j < lo, p j = false := by
  refine ⟨?_, List.find?_some h, fun j hj => ?_⟩
  · have := List.mem_of_find?_eq_some h
    simp only [List.mem_cons, List.not_mem_nil, or_false] at this
    omega
  · cases h0 : p 0
    · cases h1 : p 1
      · have : j = 0 ∨ j = 1 := by
          have := List.mem_of_find?_eq_some h
          simp only [List.mem_cons, List.not_mem_nil, or_false] at this
          omega
        rcases this with rfl | rfl <;> assumption
      · obtain rfl : 1 = lo := by simpa [List.find?_cons, h0, h1] using h
        rwa [Nat.lt_one_iff.mp hj]
    · obtain rfl : 0 = lo := by simpa [List.find?_cons, h0] using h
      exact absurd hj (Nat.not_lt_zero j)

theorem leave_drops (w : Warp) (lane depth : Nat) (a : DWord) :
    DropsLevels w (Leave w lane depth a) lane fun k => ∃ lo, lo ≤ k ∧ lo < 3 ∧ Leaving w lane depth a lo := by
  obtain ⟨p, hp, he⟩ := leftLevel_eq w lane depth a
  unfold Leave
  rw [he]
  cases hf : [0, 1, 2].find? p with
  | none =>
    refine dropsLevels_none w lane fun k ⟨lo, _, h3, hl⟩ => ?_
    refine List.find?_eq_none.mp hf lo ?_ ((hp lo).mpr hl)
    simp only [List.mem_cons, List.not_mem_nil, or_false]
    omega
  | some lo =>
    obtain ⟨h3, hlo, hbelow⟩ := find_below_three hf
    have hmin : ∀ j, Leaving w lane depth a j → lo ≤ j := fun j hj => by
      by_contra hlt
      rw [← hp, hbelow j (by omega)] at hj
      contradiction
    rw [hp] at hlo
    obtain ⟨hplace, hlvl⟩ := dropLevels_drops w lane lo
    refine ⟨hplace, fun l k => (hlvl l k).trans (and_congr_right fun _ => not_congr (and_congr_right fun _ => ?_))⟩
    exact ⟨fun hk => ⟨lo, hk, h3, hlo⟩, fun ⟨j, hjk, _, hj⟩ => (hmin j hj).trans hjk⟩

/-! ### Levels of many threads -/

/-- A change of one warp that ends levels of one lane ends them for one thread. -/
theorem levelOn_onWarp (s : State) (u : Th) (f : Warp → Warp) {drop : Warp → Nat → Prop}
    (hf : ∀ w, DropsLevels w (f w) u.lane (drop w)) :
    (∀ wid, SamePlaces (s.warp wid) ((s.onWarp u.wid f).warp wid)) ∧
    ∀ t k, (s.onWarp u.wid f).levelOn t k = true ↔ s.levelOn t k = true ∧ ¬ (t = u ∧ drop (s.warp t.wid) k) := by
  by_cases hu : s.warps.find u.wid = none
  · have he : ∀ wid, (s.onWarp u.wid f).warp wid = s.warp wid := fun wid => by
      rw [State.onWarp, hu]
    refine ⟨fun wid k => by rw [he], fun t k => ?_⟩
    rw [levelOn_iff, levelOn_iff, he]
    refine (and_iff_left_of_imp ?_).symm
    rintro ⟨g, hg, -⟩ ⟨rfl, -⟩
    simp [State.warp, Tbl.getD, hu, noWarp, Tbl.find] at hg
  · have he : (s.onWarp u.wid f).warp u.wid = f (s.warp u.wid) := by rw [warp_onWarp _ _ _ _ hu, if_pos rfl]
    obtain ⟨hplace, hlvl⟩ := hf (s.warp u.wid)
    refine ⟨fun wid => ?_, fun t k => ?_⟩
    · by_cases h : wid = u.wid
      · rw [h, he]; exact hplace
      · rw [warp_onWarp_ne s f h]; exact fun _ => rfl
    · rw [levelOn_iff, levelOn_iff]
      by_cases h : t.wid = u.wid
      · rw [h, he, hlvl]
        refine and_congr_right fun _ => not_congr (and_congr_left fun _ => ?_)
        rw [Th.mk.injEq (wid := t.wid)]
        exact ⟨fun hl => ⟨h, hl⟩, fun hl => hl.2⟩
      · rw [warp_onWarp_ne s f h]
        exact (and_iff_left fun hh => h (congrArg Th.wid hh.1)).symm

/-- Distinct threads end levels one after another. What a thread ends is decided by the bodies of its warp's frames and its own
levels, which the threads before it leave. -/
theorem levelOn_foldl {α : Type} (th : α → Th) (step : α → Warp → Warp) (drop : Warp → α → Nat → Prop)
    (hstep : ∀ a w, DropsLevels w (step a w) (th a).lane (drop w a))
    (hdrop : ∀ w v a k, SamePlaces w v → (∀ j, LevelIn v (th a).lane j ↔ LevelIn w (th a).lane j) → (drop v a k ↔ drop w a k))
    (l : List α) (hn : (l.map th).Nodup) (s : State) (t : Th) (k : Nat) :
    (l.foldl (fun s a => s.onWarp (th a).wid (step a)) s).levelOn t k = true ↔
      s.levelOn t k = true ∧ ¬ ∃ a ∈ l, th a = t ∧ drop (s.warp t.wid) a k := by
  induction l generalizing s with
  | nil => simp
  | cons a l ih =>
    simp only [List.map_cons, List.nodup_cons, List.mem_map, not_exists, not_and] at hn
    obtain ⟨hplace, hlvl⟩ := levelOn_onWarp s (th a) (step a) (hstep a)
    rw [List.foldl_cons, ih hn.2, hlvl, and_assoc, ← not_or]
    refine and_congr_right fun _ => not_congr ?_
    rw [List.exists_mem_cons_iff]
    refine or_congr ⟨fun h => ⟨h.1.symm, h.2⟩, fun h => ⟨h.1.symm, h.2⟩⟩ (exists_congr fun b => and_congr_right fun hb =>
      and_congr_right fun ht => hdrop _ _ b k (hplace _) fun j => ?_)
    subst ht
    rw [← levelOn_iff, ← levelOn_iff, hlvl]
    exact and_iff_left fun hh => hn.1 b hb hh.1

end Sys2Proof.Kernels

/-! # Branches (O26: R37, R100, R141, R222 to R226) -/
namespace Sys2Proof.Kernels
open Sys2Proof Sys2Proof.Machine Sys2Proof.Laws

theorem syncInstr_go {s : State} {i : Instr} {k : Checks} {act : List Th} (h : s.gate (s.ctx i) k = .go act)
    (f : Ctx → List Th → State) : syncInstr s i k f = .next (f (s.ctx i) act) := by
  simp only [syncInstr, h]

/-! ### Landing (R100, R141, R223) -/

theorem landHeld_eq_false {s : State} {l : List (Th × DWord)} (h : ∀ x ∈ l, landsNow s x.1 x.2) : s.landHeld l = false := by
  simp only [State.landHeld, List.any_eq_false]
  exact fun x hx => by simp [(h x hx).2]

theorem landBad_eq_none {s : State} {th : Th} {a : DWord} (h : canLand s th a) (word : Bool) : s.landBad th.wid a word = none := by
  obtain ⟨ha, w, hw, hh⟩ := h
  cases word <;> simp [State.landBad, ha, hw, isHeader, hh]

theorem landJudge_eq_none {s : State} {l : List (Th × DWord)} (h : ∀ x ∈ l, landsNow s x.1 x.2) (word : Bool) :
    s.landJudge l word = none := by
  rw [State.landJudge, trapOf_eq_none, List.filterMap_eq_nil_iff]
  exact fun x hx => by rw [landBad_eq_none (h x hx).1, Option.map_none]

theorem landTrap_eq_none {s : State} {l : List (Th × DWord)} (h : ∀ x ∈ l, landsNow s x.1 x.2) : s.landTrap l = none := by
  simp only [State.landTrap, landJudge_eq_none h, firstOf]

/-! ### Taken branches -/

theorem noLevels_dropLevels (w : Warp) (lane lo : Nat) : (w.dropLevels lane lo).still.noLevels = w.still.noLevels := by
  have h : (w.dropLevels lane lo).frames.map (fun p => (p.1, { p.2 with active := 0 })) =
      w.frames.map fun p => (p.1, { p.2 with active := 0 }) := by
    rw [Warp.dropLevels, List.map_map]
    refine List.map_congr_left fun p _ => ?_
    by_cases hp : lo ≤ p.1 <;> simp [hp]
  exact congrArg (fun fs => { w.still with frames := fs }) h

theorem noLevels_leave (w : Warp) (lane depth : Nat) (a : DWord) : (Leave w lane depth a).still.noLevels = w.still.noLevels := by
  unfold Leave
  cases w.leftLevel lane depth a with
  | none => rfl
  | some lo => exact noLevels_dropLevels w lane lo

theorem leave_groups (w : Warp) (lane depth : Nat) (a : DWord) : (Leave w lane depth a).groups = w.groups := by
  unfold Leave
  cases w.leftLevel lane depth a <;> rfl

theorem leaveLevels_eq (s : State) (depth : Nat) (l : List (Th × DWord)) :
    s.leaveLevels depth l = l.foldl (fun s x => s.onWarp x.1.wid fun w => Leave w x.1.lane depth x.2) s := rfl

theorem leaveLevels_groups (s : State) (depth : Nat) (l : List (Th × DWord)) : SameGroups s (s.leaveLevels depth l) :=
  sameGroups_foldl_onWarp (fun (x : Th × DWord) w => Leave w x.1.lane depth x.2) (fun x => x.1.wid)
    (fun x w => leave_groups w x.1.lane depth x.2) l s

/-- The place of a body holds an address. -/
def placeHolds (x : DWord × Nat × Nat) (a : DWord) : Prop :=
  x.1.toNat ≤ a.toNat ∧ a.toNat < (x.1 + BitVec.ofNat 64 (4 * x.2.1)).toNat

theorem leaving_iff_place (w : Warp) (lane depth : Nat) (a : DWord) (k : Nat) : Leaving w lane depth a k ↔
    LevelIn w lane k ∧ ∃ x, (w.frames.find k).map Frame.place = some x ∧ x.2.2 = depth ∧ ¬ placeHolds x a := by
  unfold Leaving LevelIn placeHolds
  cases w.frames.find k with
  | none => simp
  | some f => simp [Frame.holds, Frame.endAt, Frame.place]

theorem leaving_congr {w v : Warp} {lane depth k : Nat} {a : DWord} (hp : SamePlaces w v)
    (hl : LevelIn v lane k ↔ LevelIn w lane k) : Leaving v lane depth a k ↔ Leaving w lane depth a k := by
  rw [leaving_iff_place, leaving_iff_place, hl, hp k]

/-- The levels that taken branches leave are over (R37), and no other. -/
theorem levelOn_leaveLevels (s : State) (depth : Nat) {l : List (Th × DWord)} (hn : (l.map (·.1)).Nodup) (th : Th) (k : Nat) :
    (s.leaveLevels depth l).levelOn th k = true ↔ s.levelOn th k = true ∧ ¬ ∃ a lo, (th, a) ∈ l ∧ lo ≤ k ∧ lo < 3 ∧
      s.levelOn th lo = true ∧ (s.frame th.wid lo).depth = depth ∧
      ¬ ((s.frame th.wid lo).start.toNat ≤ a.toNat ∧ a.toNat < (s.frame th.wid lo).endAt.toNat) := by
  rw [leaveLevels_eq, levelOn_foldl (fun x : Th × DWord => x.1) (fun x w => Leave w x.1.lane depth x.2)
    (fun w x k => ∃ lo, lo ≤ k ∧ lo < 3 ∧ Leaving w x.1.lane depth x.2 lo) (fun x w => leave_drops w _ _ _)
    (fun w v x k hp hl => exists_congr fun lo => and_congr_right fun _ => and_congr_right fun _ => leaving_congr hp (hl lo)) l hn]
  refine and_congr_right fun _ => not_congr ⟨?_, ?_⟩
  · rintro ⟨⟨_, a⟩, hx, rfl, lo, hk, h3, hl⟩
    exact ⟨a, lo, hx, hk, h3, (leaving_iff s _ depth a lo).mp hl⟩
  · rintro ⟨a, lo, hx, hk, h3, hl⟩
    exact ⟨(th, a), hx, rfl, lo, hk, h3, (leaving_iff s th depth a lo).mpr hl⟩

theorem leaves_leaveLevels (s : State) (depth : Nat) (l : List (Th × DWord)) :
    Leaves s (s.leaveLevels depth l) { warp := Warp.noLevels } :=
  leaves_foldl _ _ (fun s (x : Th × DWord) => leaves_onWarp _ s x.1.wid _ fun w => noLevels_leave w x.1.lane depth x.2) l s

/-- Branches whose targets can be landed on are taken (R28, R37, R225). -/
theorem branch_branches {s : State} {i : Instr} {l : List (Th × DWord)} (hn : (l.map (·.1)).Nodup)
    (hl : ∀ x ∈ l, landsNow s x.1 x.2) : Branches s (s.ctx i) l (s.branch (s.ctx i) l) := by
  simp only [State.branch, landHeld_eq_false hl, landTrap_eq_none hl, Bool.false_eq_true, if_false]
  generalize hm : (s.leaveLevels (s.ctx i).u.depth l).jump (s.ctx i) l (s.ctx i).u.depth = m
  have hj : Leaves (s.leaveLevels (s.ctx i).u.depth l) m := hm ▸ leaves_jump _ _ _ _ _
  have hb := fun q b => staysPut_switchBack m (s.ctx i).u q b
  refine ⟨(hb _ _).moved (hm ▸ jump_moved (leaveLevels_groups s _ l) hn _), fun th k => ?_, ?_⟩
  · rw [levelOn_of_leaves (hb _ _).leaves, levelOn_of_leaves hj, levelOn_leaveLevels s _ hn]
  · exact Laws.Leaves.trans (leaves_leaveLevels s _ l) (Laws.Leaves.weaken (Laws.Leaves.trans hj (hb _ _).leaves) _)

theorem nodup_targets {act : List Th} (h : act.Nodup) (f : Th → DWord) : ((act.map fun th => (th, f th)).map (·.1)).Nodup := by
  rwa [List.map_map, show (fun x => x.1) ∘ (fun th => (th, f th)) = id from rfl, List.map_id]

/-! ### JTAB (R226) -/

theorem jtabAcc_eq_some {s : State} {th : Th} {a : Access} (h : s.jtabAcc th = some a) :
    ∃ p ∈ s.accs, p.2 = a ∧ a.kind = .jtab ∧ a.wid = th.wid ∧ a.lane = th.lane := by
  obtain ⟨p, hp, rfl⟩ := Option.map_eq_some_iff.mp h
  have hk := List.find?_some hp
  simp only [Bool.and_eq_true, decide_eq_true_eq] at hk
  exact ⟨p, List.mem_of_find?_eq_some hp, rfl, hk.1.1, hk.1.2, hk.2⟩

/-- Once every entry has been fetched, the threads branch by their entries. -/
theorem jtab_goes {s : State} {c : Ctx} {l : List (Th × DWord × DWord)} {off : Th → Word}
    (h : ∀ x ∈ l, (∃ a, s.jtabAcc x.1 = some a ∧ a.st = .answered ∧ off x.1 = BitVec.ofNat 32 (leNat a.data)) ∧
      landsNow (s.jtabDrop c.u.th) x.1 (x.2.1 + (off x.1).signExtend 64 * 4)) :
    s.jtabDone l = true ∧
    s.jtabGo c l = (s.jtabDrop c.u.th).branch c (l.map fun x => (x.1, x.2.1 + (off x.1).signExtend 64 * 4)) := by
  refine ⟨List.all_eq_true.mpr fun x hx => ?_, ?_⟩
  · obtain ⟨⟨a, ha, hst, -⟩, -⟩ := h x hx
    simp only [ha, hst]
  · have hbad : s.jtabBad l = none := by
      rw [State.jtabBad, trapOf_eq_none, List.filterMap_eq_nil_iff]
      intro x hx
      obtain ⟨⟨a, ha, hst, -⟩, -⟩ := h x hx
      simp only [ha, hst]
    have htg : (l.map fun x => (x.1, x.2.1 + (match s.jtabAcc x.1 with
        | some a => (BitVec.ofNat 32 (leNat a.data)).signExtend 64 * 4
        | none => 0))) = l.map fun x => (x.1, x.2.1 + (off x.1).signExtend 64 * 4) := by
      refine List.map_congr_left fun x hx => ?_
      obtain ⟨⟨a, ha, -, ho⟩, -⟩ := h x hx
      simp only [ha, ho]
    have hland : s.landHeld (l.map fun x => (x.1, x.2.1 + (off x.1).signExtend 64 * 4)) = false :=
      landHeld_eq_false (s := s.jtabDrop c.u.th) fun x hx => by
        obtain ⟨y, hy, rfl⟩ := List.mem_map.mp hx
        exact (h y hy).2
    simp only [State.jtabGo, hbad]
    refine (congrArg (fun tg => if s.landHeld tg = true then s.stall else (s.jtabDrop c.u.th).branch c tg) htg).trans ?_
    rw [hland]; rfl

theorem jtabEntries_threads (s : State) (c : Ctx) (act : List Th) (f : V3) :
    ((s.jtabEntries c act f).map (·.1)).Sublist act := by
  rw [State.jtabEntries, List.map_map]
  exact (List.map_id'' (fun _ => rfl) _).symm ▸ List.filter_sublist

theorem mem_put {α : Type} {t : Tbl α} {k : Nat} {x : α} {p : Nat × α} (h : p ∈ Tbl.put t k x) : p ∈ t ∨ p = (k, x) := by
  induction t with
  | nil => exact .inr (by simpa [Tbl.put] using h)
  | cons q t ih =>
    rw [Tbl.put] at h
    split at h
    · exact (List.mem_cons.mp h).symm
    · split at h
      · exact (List.mem_cons.mp h).elim .inr fun h => .inl (List.mem_cons_of_mem _ h)
      · rcases List.mem_cons.mp h with rfl | h
        · exact .inl List.mem_cons_self
        · exact (ih h).imp_left (List.mem_cons_of_mem _)

theorem mem_putAll {α : Type} {l : List α} {m : Tbl α} {base k : Nat} {p : Nat × α} (h : p ∈ putAll m base k l) :
    p ∈ m ∨ p.2 ∈ l := by
  induction l generalizing m k with
  | nil => exact .inl h
  | cons a l ih =>
    rcases ih (m := m.put (base + k) a) (k := k + 1) h with h | h
    · exact (mem_put h).imp_right fun h => List.mem_cons.mpr (.inl (congrArg Prod.snd h))
    · exact .inr (List.mem_cons_of_mem _ h)

theorem mem_of_find {α : Type} {t : Tbl α} {k : Nat} {x : α} (h : t.find k = some x) : (k, x) ∈ t := by
  induction t with
  | nil => cases h
  | cons q t ih =>
    rw [Tbl.find] at h
    split at h
    · next hk => cases h; exact hk ▸ List.mem_cons_self
    · exact List.mem_cons_of_mem _ (ih h)

/-- A table fetch as it leaves: its thread, its place and that it reads four bytes. -/
theorem jtabSend_fields (s : State) (c : Ctx) (x : Th × DWord × DWord) : let a := s.jtabSend c x
    a.kind = .jtab ∧ a.wid = x.1.wid ∧ a.lane = x.1.lane ∧ a.va = x.2.2 ∧ a.size = 4 := by
  unfold State.jtabSend
  dsimp only
  split
  · trivial
  · split <;> trivial

/-- The fetches of the entries leave, each for its thread. -/
theorem jtab_sent {s : State} {c : Ctx} {l : List (Th × DWord × DWord)} (hn : (l.map (·.1)).Nodup)
    (h : ∀ x ∈ l, s.jtabAcc x.1 = none) {x : Th × DWord × DWord} (hx : x ∈ l) :
    ∃ a, (s.send none (l.map (s.jtabSend c))).jtabAcc x.1 = some a ∧ a.va = x.2.2 ∧ a.size = 4 ∧ a.st = (s.jtabSend c x).st := by
  obtain ⟨⟨o, ho⟩, -⟩ := send_eq s none (l.map (s.jtabSend c))
  generalize hw : ((l.map (s.jtabSend c)).map (·.wid)).eraseDups = wids at ho
  generalize hnews : ((l.map (s.jtabSend c)).map fun a => { a with iid := s.nextId + wids.idxOf a.wid, batch := s.nextId }) = news at ho
  have hmem : ∀ a ∈ news, ∃ y ∈ l, a = { s.jtabSend c y with iid := s.nextId + wids.idxOf (s.jtabSend c y).wid, batch := s.nextId } := by
    intro a ha
    rw [← hnews, List.map_map, List.mem_map] at ha
    obtain ⟨y, hy, rfl⟩ := ha
    exact ⟨y, hy, rfl⟩
  have hfound : ∃ p ∈ putAll s.accs (s.nextId + wids.length) 0 news, p.2.kind = .jtab ∧ p.2.wid = x.1.wid ∧ p.2.lane = x.1.lane := by
    obtain ⟨j, hj, rfl⟩ := List.mem_iff_getElem.mp hx
    have hnj : j < news.length := by rw [← hnews]; simpa using hj
    refine ⟨_, mem_of_find (k := s.nextId + wids.length + j) (x := news[j]) ?_, ?_⟩
    · rw [find_putAll, if_pos (by omega)]
      simp [hnj]
    · obtain ⟨hk, hwid, hlane, -⟩ := jtabSend_fields s c l[j]
      subst hnews
      simpa using ⟨hk, hwid, hlane⟩
  have hacc : (s.send none (l.map (s.jtabSend c))).accs = putAll s.accs (s.nextId + wids.length) 0 news := by rw [ho]
  cases hf : (s.send none (l.map (s.jtabSend c))).jtabAcc x.1 with
  | none =>
    obtain ⟨p, hp, hk⟩ := hfound
    rw [State.jtabAcc, hacc, Option.map_eq_none_iff, List.find?_eq_none] at hf
    exact absurd (by simpa [and_assoc] using hk) (hf p hp)
  | some a =>
    obtain ⟨p, hp, rfl, hk, hwid, hlane⟩ := jtabAcc_eq_some hf
    refine ⟨p.2, rfl, ?_⟩
    rcases mem_putAll (hacc ▸ hp) with hp | hp
    · have hno := h x hx
      rw [State.jtabAcc, Option.map_eq_none_iff, List.find?_eq_none] at hno
      exact absurd (by simp [hk, hwid, hlane]) (hno p hp)
    · obtain ⟨y, hy, he⟩ := hmem p.2 hp
      obtain ⟨-, hyw, hyl, hva, hsize⟩ := jtabSend_fields s c y
      rw [he] at hwid hlane ⊢
      obtain rfl : y = x := by
        refine List.inj_on_of_nodup_map hn hy hx ?_
        have h1 : y.1.wid = x.1.wid := hyw.symm.trans hwid
        have h2 : y.1.lane = x.1.lane := hyl.symm.trans hlane
        cases hy1 : y.1; cases hx1 : x.1
        simp_all
      exact ⟨hva, hsize, rfl⟩

/-- Nothing but accesses and their numbers changes when accesses that no counter counts leave. -/
theorem send_none (s : State) (l : List Access) : (s.send none l).warps = s.warps ∧ (s.send none l).outst = s.outst ∧
    Leaves s (s.send none l) { newId := fun k => s.nextId ≤ k, rest := fun x => { x with nextId := 0 } } := by
  refine ⟨rfl, rfl, sameTbl_refl _ _, sameTbl_refl _ _, sameTbl_refl _ _, sameTbl_refl _ _, sameTbl_refl _ _, sameTbl_refl _ _,
      fun _ => rfl, fun k hk => ?_, fun _ h _ => h, rfl⟩
  obtain ⟨⟨o, ho⟩, -⟩ := send_eq s none l
  rw [ho]
  dsimp only at hk ⊢
  rw [find_putAll, if_neg (by omega)]

theorem exec_bra (f : FJ) (s : State) : exec (.bra f) s = execBra f s := rfl
theorem exec_brx (f : V3) (s : State) : exec (.brx f) s = execBrx f s := rfl
theorem exec_jtab (f : V3) (s : State) : exec (.jtab f) s = execJtab f s := rfl

/-- Settles O26: the branches by `branch_branches`; a JTAB whose entries are all there branches by them, one that has begun none
sends their fetches and stays. -/
theorem branching : Obligations.Branching := by
  refine ⟨fun f s act hg hl => ?_, fun f s act hg hl => ?_, fun f off s act hg hl => ?_, fun f s act hg ⟨hacq, hne, hl⟩ => ?_⟩
  · exact ⟨_, (exec_bra f s).trans (syncInstr_go hg _), branch_branches (nodup_targets (active_of_gate hg).1 _) hl⟩
  · exact ⟨_, (exec_brx f s).trans (syncInstr_go hg _), branch_branches (nodup_targets (active_of_gate hg).1 _) hl⟩
  · obtain ⟨hdone, hgo⟩ := jtab_goes hl
    have hn := (jtabEntries_threads s (s.ctx (.jtab f)) act f).nodup (active_of_gate hg).1
    have hfresh : (s.jtabEntries (s.ctx (.jtab f)) act f).filter (fun x => (s.jtabAcc x.1).isNone) = [] := by
      rw [List.filter_eq_nil_iff]
      intro x hx
      obtain ⟨⟨a, ha, -⟩, -⟩ := hl x hx
      simp [ha]
    refine ⟨_, (exec_jtab f s).trans (syncInstr_go hg _), ?_⟩
    simp only [hfresh, ne_eq, not_true_eq_false, decide_false, Bool.false_and, Bool.false_eq_true, if_false, if_true, hdone, hgo]
    exact branch_branches (s := s.jtabDrop (s.ctx (.jtab f)).u.th) (i := .jtab f) (by rwa [List.map_map]) fun x hx => by
      obtain ⟨y, hy, rfl⟩ := List.mem_map.mp hx
      exact (hl y hy).2
  · have hn := (jtabEntries_threads s (s.ctx (.jtab f)) act f).nodup (active_of_gate hg).1
    have hfresh : (s.jtabEntries (s.ctx (.jtab f)) act f).filter (fun x => (s.jtabAcc x.1).isNone) =
        s.jtabEntries (s.ctx (.jtab f)) act f :=
      List.filter_eq_self.mpr fun x hx => by simp [(hl x hx).1]
    have hsent := fun x (hx : x ∈ s.jtabEntries (s.ctx (.jtab f)) act f) => jtab_sent (c := s.ctx (.jtab f)) hn (fun y hy => (hl y hy).1) hx
    have hdone : (s.send none ((s.jtabEntries (s.ctx (.jtab f)) act f).map (s.jtabSend (s.ctx (.jtab f))))).jtabDone
        (s.jtabEntries (s.ctx (.jtab f)) act f) = false := by
      obtain ⟨x, hx⟩ := List.exists_mem_of_ne_nil _ hne
      obtain ⟨a, ha, -, -, hst⟩ := hsent x hx
      refine List.all_eq_false.mpr ⟨x, hx, ?_⟩
      simp only [ha, hst, (hl x hx).2, Bool.false_eq_true, not_false_eq_true]
    refine ⟨_, (exec_jtab f s).trans (syncInstr_go hg _), ?_⟩
    simp only [hfresh, hne, ne_eq, not_false_eq_true, decide_true, Bool.true_and, (behindAcquire_eq_false _ _ _).mpr hacq,
      Bool.false_eq_true, if_false, hdone]
    obtain ⟨hw, ho, hleaves⟩ := send_none s ((s.jtabEntries (s.ctx (.jtab f)) act f).map (s.jtabSend (s.ctx (.jtab f))))
    refine ⟨fun x hx => ?_, fun _ _ _ h => h, fun _ _ => rfl, Laws.Leaves.trans hleaves (leaves_stall _ _)⟩
    obtain ⟨a, ha, hva, hsize, -⟩ := hsent x hx
    exact ⟨a, ha, hva, hsize⟩

end Sys2Proof.Kernels

/-! # Loops (O28: R35 to R38, R57, R229, R230) -/
namespace Sys2Proof.Kernels
open Sys2Proof Sys2Proof.Machine Sys2Proof.Laws

/-! ### Distinct threads change what is theirs -/

/-- A fold over distinct keys in which each step changes only what is read at its own key. -/
theorem foldl_point {σ β X : Type} [DecidableEq β] {P : σ → Prop} (get : σ → β → X) (step : σ → β → σ) (val : β → X → X)
    (l : List β) (hn : l.Nodup) (hP : ∀ s, P s → ∀ b ∈ l, P (step s b))
    (h : ∀ s, P s → ∀ b ∈ l, ∀ c, get (step s b) c = if c = b then val b (get s b) else get s c) (s : σ) (hs : P s) (c : β) :
    get (l.foldl step s) c = if c ∈ l then val c (get s c) else get s c := by
  induction l generalizing s with
  | nil => simp
  | cons b l ih =>
    obtain ⟨hb, hn⟩ := List.nodup_cons.mp hn
    rw [List.foldl_cons, ih hn (fun s hs x hx => hP s hs x (List.mem_cons_of_mem _ hx))
      (fun s hs x hx => h s hs x (List.mem_cons_of_mem _ hx)) _ (hP s hs b List.mem_cons_self), h s hs b List.mem_cons_self]
    by_cases hc : c = b
    · subst hc; simp [hb]
    · simp [hc]

theorem lane_of_unit {s : State} {i : Instr} {th : Th} (h : th ∈ (s.ctx i).u.th) : th.lane < 32 :=
  let ⟨_, _, hl⟩ := mem_threadsOf h
  lane_lt hl

theorem find_of_unit {s : State} {i : Instr} {th : Th} (h : th ∈ (s.ctx i).u.th) : s.warps.find th.wid ≠ none :=
  let ⟨_, _, hw, _⟩ := inPart_of_mem s s.focus h
  hw

theorem getLsbD_lanesIn (l : List Th) (wid i : Nat) : (lanesIn l wid).getLsbD i = (decide (i < 32) && decide (⟨wid, i⟩ ∈ l)) := by
  by_cases hi : i < 32
  · rw [lanesIn, getLsbD_maskOf _ _ hi, decide_eq_true hi, Bool.true_and, decide_eq_decide]
    simp only [List.mem_map, List.mem_filter, decide_eq_true_eq]
    constructor
    · rintro ⟨⟨w, l⟩, ⟨h, rfl⟩, rfl⟩
      exact h
    · exact fun h => ⟨_, ⟨h, rfl⟩, rfl⟩
  · rw [BitVec.getLsbD_of_ge _ _ (by omega)]
    simp [hi]

theorem oneOf_eq_none (l : List (Nat × Bool)) : oneOf l = none ↔ ∀ x ∈ l, x.2 = false := by
  have hp : ∀ ds, pickDetail ds = none ↔ ds = [] := fun ds => by
    match ds with
    | [] => simp [pickDetail]
    | [_] => simp [pickDetail]
    | _ :: _ :: _ => simp [pickDetail]
  rw [oneOf, hp, List.map_eq_nil_iff, List.filter_eq_nil_iff]
  simp

theorem gate_ill {s : State} {c : Ctx} {k : Checks} {act : List Th} (h : s.gate c k = .go act) : k.ill = none := by
  obtain ⟨hs, -⟩ := gate_go h
  unfold Checks.static at hs
  split at hs <;> first | assumption | cases hs

theorem leaves_foldl_onWarp {α : Type} (F : MayChange) (f : α → Warp → Warp) (k : α → Nat)
    (hf : ∀ a w, F.warp (f a w).still = F.warp w.still) (l : List α) (s : State) :
    Leaves s (l.foldl (fun s a => s.onWarp (k a) (f a)) s) F :=
  leaves_foldl F _ (fun s a => leaves_onWarp F s (k a) (f a) (hf a)) l s

/-! ### Loop counters -/

theorem lcReg_onWarp (s : State) (wid : Nat) (f : Warp → Warp) (hf : ∀ w, (f w).lc = w.lc) (u : Th) (k : Nat) :
    (s.onWarp wid f).lcReg u k = s.lcReg u k := by
  rw [State.lcReg, warp_field_onWarp Warp.lc s wid f hf, State.lcReg]

theorem lcReg_setLc (s : State) {t : Th} (ht : s.warps.find t.wid ≠ none) (j : Nat) (x : Word) (u : Th) {k : Nat} (hj : j < 4)
    (hk : k < 4) : (s.setLc t j x).lcReg u k = if u = t ∧ k = j then x else s.lcReg u k := by
  unfold State.lcReg State.setLc
  by_cases hw : u.wid = t.wid
  · rw [hw, warp_onWarp _ _ _ _ ht, if_pos rfl]
    dsimp only [Tbl.getD]
    rw [find_put]
    have : u = t ∧ k = j ↔ 4 * u.lane + k = 4 * t.lane + j := by
      refine ⟨fun ⟨hu, hk⟩ => by rw [hu, hk], fun h => ⟨?_, by omega⟩⟩
      obtain ⟨w, l⟩ := u
      obtain ⟨w', l'⟩ := t
      simp only [Th.mk.injEq] at *
      omega
    simp only [this]
    split <;> rfl
  · rw [warp_onWarp_ne _ _ hw, if_neg fun h => hw (congrArg Th.wid h.1)]

theorem setLc_groups (s : State) (t : Th) (j : Nat) (x : Word) : SameGroups s (s.setLc t j x) :=
  groups_onWarp s t.wid _ fun _ => rfl

theorem levelOn_setLc (s : State) (t u : Th) (j k : Nat) (x : Word) : (s.setLc t j x).levelOn u k = s.levelOn u k := by
  have h := warp_field_onWarp Warp.frames s t.wid (fun w => { w with lc := w.lc.put (4 * t.lane + j) x }) (fun _ => rfl) u.wid
  rw [State.levelOn, State.setLc, h, State.levelOn]

/-! ### BRK (R230) -/

theorem levelOn_dropLevels (s : State) (t : Th) (lo : Nat) (u : Th) (k : Nat) :
    (s.onWarp t.wid fun w => w.dropLevels t.lane lo).levelOn u k =
      if u = t then s.levelOn t k && !(decide (lo ≤ k)) else s.levelOn u k := by
  rw [Bool.eq_iff_iff, (levelOn_onWarp s t _ fun w => dropLevels_drops w t.lane lo).2]
  split
  · next h => subst h; simp
  · next h => simp [h]

/-- A BRK at an active level of its call depth ends the level and the higher ones, and its threads go behind the body. -/
theorem exec_brk (f : V3) {s : State} {act : List Th} {lvl : Nat} (hlvl : (f.m.extractLsb' 0 2).toNat = lvl)
    (hg : s.gate (s.ctx (.brk f)) { q := f.q, ill := illOf (f.m.getLsbD 2) (lvl = 3) } = .go act)
    (h : ∀ th ∈ act, s.levelOn th lvl = true ∧ (s.frame th.wid lvl).depth = (s.ctx (.brk f)).u.depth) :
    exec (.brk f) s = .next ((act.foldl (fun s t => s.onWarp t.wid fun w => w.dropLevels t.lane lvl) s).jump (s.ctx (.brk f))
      (act.map fun t => (t, (s.frame t.wid lvl).endAt)) (s.ctx (.brk f)).u.depth) := by
  have hno : ∀ t ∈ act, oneOf [(3, !(s.levelOn t lvl)),
      (4, s.levelOn t lvl && decide ((s.frame t.wid lvl).depth ≠ (s.ctx (.brk f)).u.depth))] = none := fun t ht => by
    obtain ⟨hon, hd⟩ := h t ht
    rw [oneOf_eq_none]
    simp [hon, hd]
  show execBrk f s = _
  unfold execBrk
  rw [hlvl, syncInstr_go hg, (trapOf_eq_none _).mpr (List.filterMap_eq_nil_iff.mpr fun t ht => by rw [hno t ht, Option.map_none])]

theorem levelOn_dropAll (s : State) (act : List Th) (hn : act.Nodup) (lvl : Nat) (th : Th) (k : Nat) :
    (act.foldl (fun s t => s.onWarp t.wid fun w => w.dropLevels t.lane lvl) s).levelOn th k = true ↔
      s.levelOn th k = true ∧ ¬ (th ∈ act ∧ lvl ≤ k) := by
  rw [foldl_point (P := fun _ => True) (fun s th => s.levelOn th k) _ (fun _ x => x && !decide (lvl ≤ k)) act hn (fun _ _ _ _ => trivial)
    (fun s _ t _ u => levelOn_dropLevels s t lvl u k) s trivial]
  split
  · next h => simp [h]
  · next h => simp [h]

theorem dropAll_groups (s : State) (act : List Th) (lvl : Nat) :
    SameGroups s (act.foldl (fun s t => s.onWarp t.wid fun w => w.dropLevels t.lane lvl) s) :=
  sameGroups_foldl_onWarp (fun (t : Th) w => w.dropLevels t.lane lvl) Th.wid (fun _ _ => rfl) act s

theorem leaves_dropAll (s : State) (act : List Th) (lvl : Nat) :
    Leaves s (act.foldl (fun s t => s.onWarp t.wid fun w => w.dropLevels t.lane lvl) s) { warp := Warp.noLevels } :=
  leaves_foldl _ _ (fun s (t : Th) => leaves_onWarp _ s t.wid _ fun w => noLevels_dropLevels w t.lane lvl) act s

/-! ### LOOP (R35, R38, R229) -/

theorem clear_eq_zero {m : Word} {lane : Nat} (h : ∀ l < 32, l ≠ lane → m.getLsbD l = false) : m &&& ~~~(1#32 <<< lane) = 0 := by
  refine BitVec.eq_of_getLsbD_eq fun i hi => ?_
  rw [getLsbD_clear]
  by_cases hl : i = lane
  · simp [hl]
  · simp [h i hi hl, hl]

/-- A LOOP may begin for a thread exactly when it nests (R38). -/
theorem loopNest_eq_none {s : State} {c : Ctx} {act : List Th} {lvl : Nat} {start stop : DWord} {th : Th}
    (h : canLoop s c act lvl start stop th) : s.loopNest c act lvl start stop th = none := by
  obtain ⟨hup, hin, hshare⟩ := h
  rw [State.loopNest, oneOf_eq_none]
  have three : ∀ k ∈ [0, 1, 2], k < 3 := by decide
  intro x hx
  simp only [List.mem_cons, List.not_mem_nil, or_false] at hx
  obtain rfl | rfl | rfl := hx
  · refine List.any_eq_false.mpr fun k hk => ?_
    by_cases hle : lvl ≤ k
    · simp [hup k (three k hk) hle]
    · simp [hle]
  · refine List.any_eq_false.mpr fun k hk => ?_
    by_cases hlt : k < lvl ∧ s.levelOn th k = true
    · simp [hin k (three k hk) hlt.1 hlt.2]
    · simp only [Bool.and_eq_true, decide_eq_true_eq]
      exact fun hh => hlt hh.1
  · by_cases ht : th ∈ act
    · rcases hshare ht with ho | ⟨hs, hd⟩
      · simp [clear_eq_zero ho]
      · simp [hs, hd]
    · simp [ht]

theorem loopFrame_find_ne (w : Warp) {lvl k : Nat} (h : k ≠ lvl) (start : DWord) (len depth : Nat) (on_ : Word) :
    (w.loopFrame lvl start len depth on_).frames.find k = w.frames.find k :=
  find_put_ne _ _ h

/-- The frame that a LOOP leaves: the level's own where it is active, else a new one (R35). -/
theorem loopFrame_find_same (w : Warp) (lvl : Nat) (start : DWord) (len depth : Nat) (on_ : Word) :
    ∃ g, (w.loopFrame lvl start len depth on_).frames.find lvl = some g ∧ g.active = (w.frames.getD lvl {}).active ||| on_ ∧
      ((w.frames.getD lvl {}).active = 0 → Frame.place g = (start, len, depth)) ∧
      ((w.frames.getD lvl {}).active ≠ 0 → Frame.place g = Frame.place (w.frames.getD lvl {})) := by
  refine ⟨_, find_put_same _ _ _, ?_⟩
  generalize w.frames.getD lvl {} = f
  by_cases h : f.active = 0
  · rw [if_neg (not_not.mpr h), h]
    exact ⟨rfl, fun _ => rfl, fun hne => absurd rfl hne⟩
  · rw [if_pos h]
    exact ⟨rfl, fun h0 => absurd h0 h, fun _ => rfl⟩

/-- A change of each of some distinct warps. -/
theorem warp_foldl_onWarp (f : Nat → Warp → Warp) (l : List Nat) (hn : l.Nodup) (s : State) (h : ∀ k ∈ l, s.warps.find k ≠ none) (j : Nat) :
    (l.foldl (fun s k => s.onWarp k (f k)) s).warp j = if j ∈ l then f j (s.warp j) else s.warp j :=
  foldl_point (P := fun s => ∀ k ∈ l, s.warps.find k ≠ none) State.warp (fun s k => s.onWarp k (f k)) f l hn
    (fun _ hs k _ j hj => find_onWarp_ne_none _ k j _ (hs j hj))
    (fun s hs k hk j => by
      by_cases hj : j = k
      · subst hj; rw [warp_onWarp _ _ _ _ (hs j hk)]
      · rw [warp_onWarp_ne _ _ hj, if_neg hj]) s h j

/-- The loop counters that a LOOP writes, then the frames of its home warps. -/
def loopCounters (s : State) (act : List Th) (lvl : Nat) (cnt : Th → Word) : State :=
  act.foldl (fun s t => s.setLc t lvl (cnt t)) s

def loopFrames (s : State) (act : List Th) (lvl : Nat) (start : DWord) (len depth : Nat) (cnt : Th → Word) : State :=
  (widsOf act).foldl (fun s wid => s.onWarp wid fun w =>
    w.loopFrame lvl start len depth (lanesIn (act.filter fun t => cnt t ≠ 0) wid)) s

section
variable {s : State} {i : Instr} {act : List Th} (hsub : ∀ th ∈ act, th ∈ (s.ctx i).u.th) (lvl : Nat) (start : DWord) (len depth : Nat)
  (cnt : Th → Word)

theorem loopCounters_groups : SameGroups s (loopCounters s act lvl cnt) :=
  sameGroups_foldl_onWarp (fun (t : Th) w => { w with lc := w.lc.put (4 * t.lane + lvl) (cnt t) }) Th.wid (fun _ _ => rfl) act s

theorem loopFrames_groups (s : State) : SameGroups s (loopFrames s act lvl start len depth cnt) :=
  sameGroups_foldl_onWarp (fun wid w => w.loopFrame lvl start len depth (lanesIn (act.filter fun t => cnt t ≠ 0) wid)) id
    (fun _ _ => rfl) (widsOf act) s

theorem loopCounters_frames (wid : Nat) : ((loopCounters s act lvl cnt).warp wid).frames = (s.warp wid).frames :=
  List.foldlRecOn act _ (motive := fun t => (t.warp wid).frames = (s.warp wid).frames) rfl fun t ht x _ =>
    (warp_field_onWarp Warp.frames t x.wid (fun w => { w with lc := w.lc.put (4 * x.lane + lvl) (cnt x) }) (fun _ => rfl) wid).trans ht

theorem loopFrames_lcReg (s : State) (th : Th) (k : Nat) : (loopFrames s act lvl start len depth cnt).lcReg th k = s.lcReg th k :=
  List.foldlRecOn (widsOf act) _ (motive := fun t => t.lcReg th k = s.lcReg th k) rfl fun t ht x _ =>
    (lcReg_onWarp t x _ (by intro; rfl) th k).trans ht

include hsub in
theorem loopCounters_lcReg (hn : act.Nodup) (hlvl : lvl < 4) (th : Th) {k : Nat} (hk : k < 4) :
    (loopCounters s act lvl cnt).lcReg th k = if th ∈ act ∧ k = lvl then cnt th else s.lcReg th k := by
  refine (foldl_point (P := SameGroups s) (fun s th => s.lcReg th k) (fun s t => s.setLc t lvl (cnt t))
    (fun t x => if k = lvl then cnt t else x) act hn (fun t ht x _ => ht.trans (setLc_groups t x lvl (cnt x)))
    (fun t ht x hx u => ?_) s (fun _ => rfl) th).trans ?_
  · rw [lcReg_setLc t (ht.find_ne_none (find_of_unit (hsub x hx))) lvl (cnt x) u hlvl hk]
    by_cases hu : u = x
    · subst hu; simp
    · simp [hu]
  · by_cases ht : th ∈ act <;> simp [ht]

include hsub in
theorem loopFrames_warp (wid : Nat) : (loopFrames (loopCounters s act lvl cnt) act lvl start len depth cnt).warp wid =
    if wid ∈ widsOf act then ((loopCounters s act lvl cnt).warp wid).loopFrame lvl start len depth
      (lanesIn (act.filter fun t => cnt t ≠ 0) wid) else (loopCounters s act lvl cnt).warp wid := by
  refine warp_foldl_onWarp _ (widsOf act) (nodup_eraseDups _) _ (fun k hk => ?_) wid
  obtain ⟨t, ht, rfl⟩ := (mem_widsOf act k).mp hk
  exact (loopCounters_groups lvl cnt).find_ne_none (find_of_unit (hsub t ht))

include hsub in
/-- Frames of other levels, and those of the level in warps without an active thread, are as they were. -/
theorem loopFrames_find_ne {wid k : Nat} (h : k ≠ lvl ∨ wid ∉ widsOf act) :
    ((loopFrames (loopCounters s act lvl cnt) act lvl start len depth cnt).warp wid).frames.find k = (s.warp wid).frames.find k := by
  rw [loopFrames_warp hsub]
  split
  · next hw =>
    rw [loopFrame_find_ne _ (h.resolve_right (not_not.mpr hw)), loopCounters_frames]
  · rw [loopCounters_frames]

include hsub in
/-- The frame of the level in a warp with an active thread. -/
theorem loopFrames_find_same {th : Th} (h : th ∈ act) :
    ∃ g, ((loopFrames (loopCounters s act lvl cnt) act lvl start len depth cnt).warp th.wid).frames.find lvl = some g ∧
      g.active = (s.frame th.wid lvl).active ||| lanesIn (act.filter fun t => cnt t ≠ 0) th.wid ∧
      ((s.frame th.wid lvl).active = 0 → Frame.place g = (start, len, depth)) ∧
      ((s.frame th.wid lvl).active ≠ 0 → Frame.place g = Frame.place (s.frame th.wid lvl)) := by
  rw [loopFrames_warp hsub, if_pos ((mem_widsOf _ _).mpr ⟨th, h, rfl⟩), State.frame, ← loopCounters_frames lvl cnt]
  exact loopFrame_find_same _ _ _ _ _ _

include hsub in
theorem levelOn_loopFrames (th : Th) (k : Nat) : (loopFrames (loopCounters s act lvl cnt) act lvl start len depth cnt).levelOn th k = true ↔
    s.levelOn th k = true ∨ (th ∈ act ∧ k = lvl ∧ cnt th ≠ 0) := by
  rw [levelOn_iff, levelOn_iff]
  unfold LevelIn
  by_cases h : k = lvl ∧ th.wid ∈ widsOf act
  · obtain ⟨rfl, hw⟩ := h
    obtain ⟨u, hu, huw⟩ := (mem_widsOf _ _).mp hw
    obtain ⟨g, hg, hact, -⟩ := loopFrames_find_same hsub k start len depth cnt hu
    rw [huw] at hg hact
    have hold : (s.frame th.wid k).active.getLsbD th.lane = true ↔ ∃ f, (s.warp th.wid).frames.find k = some f ∧
        f.active.getLsbD th.lane = true := by
      unfold State.frame Tbl.getD
      cases (s.warp th.wid).frames.find k <;> simp
    rw [hg, ← hold]
    simp only [Option.some.injEq, exists_eq_left', hact, BitVec.getLsbD_or, Bool.or_eq_true, getLsbD_lanesIn, Bool.and_eq_true,
      decide_eq_true_eq, List.mem_filter, ne_eq, decide_not, Bool.not_eq_true', decide_eq_false_iff_not, true_and]
    exact or_congr_right ⟨fun h => h.2, fun h => ⟨lane_of_unit (hsub _ h.1), h⟩⟩
  · rw [loopFrames_find_ne hsub lvl start len depth cnt (by rw [← not_and_or]; exact h), or_iff_left]
    rintro ⟨ht, hk, -⟩
    exact h ⟨hk, (mem_widsOf _ _).mpr ⟨th, ht, rfl⟩⟩

theorem leaves_loop : Leaves s (loopFrames (loopCounters s act lvl cnt) act lvl start len depth cnt)
    { warp := fun w => { w with lc := [], frames := [] } } := by
  refine Laws.Leaves.trans (t := loopCounters s act lvl cnt) ?_ ?_
  · exact leaves_foldl_onWarp _ (fun t w => { w with lc := w.lc.put (4 * t.lane + lvl) (cnt t) }) Th.wid (fun _ _ => rfl) act s
  · exact leaves_foldl_onWarp _ (fun wid w => w.loopFrame lvl start len depth (lanesIn (act.filter fun t => cnt t ≠ 0) wid)) id
      (fun _ _ => rfl) (widsOf act) _

end

/-- The place of a frame that a LOOP leaves for an active thread: the body that it names, at its depth. -/
theorem frame_loopFrames {s : State} {i : Instr} {act : List Th} (hsub : ∀ th ∈ act, th ∈ (s.ctx i).u.th) {lvl : Nat} (h3 : lvl < 3)
    {start stop : DWord} (len : Nat) (cnt : Th → Word) {th : Th} (h : th ∈ act) (hc : canLoop s (s.ctx i) act lvl start stop th) :
    let g := (loopFrames (loopCounters s act lvl cnt) act lvl start len (s.ctx i).u.depth cnt).frame th.wid lvl
    g.start = start ∧ g.depth = (s.ctx i).u.depth ∧ ((s.frame th.wid lvl).active = 0 → g.len = len) := by
  intro g
  obtain ⟨f, hf, -, hnew, hold⟩ := loopFrames_find_same hsub lvl start len (s.ctx i).u.depth cnt h
  have hg : g = f := by simp only [g, State.frame, Tbl.getD, hf, Option.getD_some]
  rw [hg]
  by_cases h0 : (s.frame th.wid lvl).active = 0
  · have hp := hnew h0
    simp only [Frame.place, Prod.mk.injEq] at hp
    exact ⟨hp.1, hp.2.2, fun _ => hp.2.1⟩
  · have hp := hold h0
    simp only [Frame.place, Prod.mk.injEq] at hp
    obtain ⟨hup, -, hshare⟩ := hc
    rcases hshare h with ho | ⟨hs, hd⟩
    · refine absurd (BitVec.eq_of_getLsbD_eq fun l hl => ?_) h0
      show _ = (0#32).getLsbD l
      rw [BitVec.getLsbD_zero]
      by_cases hlane : l = th.lane
      · have hoff := hup lvl h3 (Nat.le_refl _)
        rw [State.levelOn] at hoff
        rw [hlane, State.frame, Tbl.getD]
        cases hw : (s.warp th.wid).frames.find lvl with
        | none => simp
        | some f => simpa [hw] using hoff
      · exact ho l hl hlane
    · exact ⟨hp.1.trans hs, hp.2.2.trans hd, fun hz => absurd hz h0⟩

theorem frame_loopFrames_ne {s : State} {i : Instr} {act : List Th} (hsub : ∀ th ∈ act, th ∈ (s.ctx i).u.th) {lvl k : Nat}
    (start : DWord) (len depth : Nat) (cnt : Th → Word) (wid : Nat) (h : k ≠ lvl) :
    (loopFrames (loopCounters s act lvl cnt) act lvl start len depth cnt).frame wid k = s.frame wid k := by
  rw [State.frame, Tbl.getD, loopFrames_find_ne hsub lvl start len depth cnt (.inl h), State.frame, Tbl.getD]

/-- A LOOP that nests and may land writes counters and frames, and its threads go to the body or behind it (R229). -/
theorem exec_loop (f : FL) {s : State} {act : List Th} {start stop : DWord} (cnt : Th → Word)
    (hstart : start = clauseEnd (s.ctx (.loop f)).u.hdr (s.ctx (.loop f)).u.hw) (hstop : stop = start + BitVec.ofNat 64 (4 * f.len.toNat))
    (hcnt : cnt = fun th => (s.src (s.ctx (.loop f)) th f.cnt 0).val)
    (hg : s.gate (s.ctx (.loop f)) { q := f.q, ill := illOf (f.f7 ≠ 0) (f.lvl = 3 || f.len = 0), opd := opdV f.x [f.cnt] [] [],
                                     a := srcInt f.cnt } = .go act)
    (hc : ∀ th ∈ (s.ctx (.loop f)).u.th, canLoop s (s.ctx (.loop f)) act f.lvl.toNat start stop th)
    (hl : ∀ th ∈ act, landsNow s th start ∧ landsNow s th stop) :
    exec (.loop f) s = .next ((loopFrames (loopCounters s act f.lvl.toNat cnt) act f.lvl.toNat start f.len.toNat
      (s.ctx (.loop f)).u.depth cnt).jump (s.ctx (.loop f)) (act.map fun th => (th, if cnt th = 0 then stop else start))
        (s.ctx (.loop f)).u.depth) := by
  have hl1 : ∀ x ∈ act.map fun th => (th, start), landsNow s x.1 x.2 := fun x hx => by
    obtain ⟨th, hth, rfl⟩ := List.mem_map.mp hx
    exact (hl th hth).1
  have hl2 : ∀ x ∈ act.map fun th => (th, stop), landsNow s x.1 x.2 := fun x hx => by
    obtain ⟨th, hth, rfl⟩ := List.mem_map.mp hx
    exact (hl th hth).2
  have hnest : trapOf ((s.ctx (.loop f)).u.th.filterMap fun t =>
      (s.loopNest (s.ctx (.loop f)) act f.lvl.toNat start stop t).map fun d =>
        { t := t, cause := cz 0x31 d, tval := (s.ctx (.loop f)).tval : Bad }) = none :=
    (trapOf_eq_none _).mpr (List.filterMap_eq_nil_iff.mpr fun t ht => by rw [loopNest_eq_none (hc t ht), Option.map_none])
  show execLoop f s = _
  unfold execLoop
  rw [syncInstr_go hg]
  simp only [← hstart, ← hstop, hnest, landHeld_eq_false hl1, landHeld_eq_false hl2, landJudge_eq_none hl1, landJudge_eq_none hl2,
    firstOf, Bool.or_self, Bool.false_eq_true, if_false]
  subst hcnt
  rfl

/-! ### The end of a body (R36, R57) -/

/-- What a thread's end of a body does to its warp, `e` its level and whether it returns. -/
def endBody (s : State) (t : Th) (e : Option (Nat × Bool)) (m : State) : State :=
  match e with
  | some (l, again) =>
    let m := if s.lcReg t l = 0 then m else m.setLc t l (s.lcReg t l - 1)
    if again then m else m.onWarp t.wid fun w =>
      { w with frames := w.frames.map fun p =>
          (p.1, if p.1 = l then { p.2 with active := p.2.active &&& ~~~(1#32 <<< t.lane) } else p.2) }
  | none => m

theorem endBody_groups (s : State) (t : Th) (e : Option (Nat × Bool)) (m : State) : SameGroups m (endBody s t e m) := by
  match e with
  | none => exact fun _ => rfl
  | some (l, again) =>
    unfold endBody
    refine SameGroups.trans (t := if s.lcReg t l = 0 then m else m.setLc t l (s.lcReg t l - 1)) ?_ ?_
    · split
      · exact fun _ => rfl
      · exact setLc_groups _ _ _ _
    · cases again
      · exact groups_onWarp _ _ _ fun _ => rfl
      · exact fun _ => rfl

theorem leaves_endBody (s : State) (t : Th) (e : Option (Nat × Bool)) (m : State) :
    Leaves m (endBody s t e m) { warp := fun w => { w.noLevels with lc := [] } } := by
  match e with
  | none => exact Laws.Leaves.refl _ _
  | some (l, again) =>
    unfold endBody
    refine Laws.Leaves.trans (t := if s.lcReg t l = 0 then m else m.setLc t l (s.lcReg t l - 1)) ?_ ?_
    · split
      · exact Laws.Leaves.refl _ _
      · exact leaves_onWarp _ _ _ _ fun _ => rfl
    · cases again
      · refine leaves_onWarp _ _ _ _ fun w => ?_
        have h : (w.frames.map fun p => (p.1, if p.1 = l then { p.2 with active := p.2.active &&& ~~~(1#32 <<< t.lane) } else p.2)).map
            (fun p => (p.1, { p.2 with active := 0 })) = w.frames.map fun p => (p.1, { p.2 with active := 0 }) := by
          rw [List.map_map]
          refine List.map_congr_left fun p _ => ?_
          by_cases hp : p.1 = l <;> simp [hp]
        exact congrArg (fun fs => { w.still with frames := fs, lc := [] }) h
      · exact Laws.Leaves.refl _ _

theorem endBody_lcReg (s : State) {t : Th} (e : Option (Nat × Bool)) (m : State) (ht : m.warps.find t.wid ≠ none)
    (he : ∀ x ∈ e, x.1 < 4) (u : Th) {k : Nat} (hk : k < 4) : (endBody s t e m).lcReg u k =
      if u = t then (if e.map (·.1) = some k ∧ s.lcReg t k ≠ 0 then s.lcReg t k - 1 else m.lcReg t k) else m.lcReg u k := by
  match e with
  | none => by_cases h : u = t <;> simp [endBody, h]
  | some (l, again) =>
    have h1 : (if s.lcReg t l = 0 then m else m.setLc t l (s.lcReg t l - 1)).lcReg u k =
        if u = t then (if l = k ∧ s.lcReg t k ≠ 0 then s.lcReg t k - 1 else m.lcReg t k) else m.lcReg u k := by
      by_cases h0 : s.lcReg t l = 0
      · rw [if_pos h0, if_neg (c := l = k ∧ _) (by rintro ⟨rfl, h⟩; exact h h0)]
        by_cases hu : u = t <;> simp [hu]
      · rw [if_neg h0, lcReg_setLc m ht l _ u (he _ rfl) hk]
        by_cases hu : u = t
        · by_cases hkl : k = l
          · subst hkl; rw [if_pos ⟨hu, rfl⟩, if_pos hu, if_pos ⟨rfl, h0⟩]
          · simp [hu, hkl, Ne.symm hkl]
        · simp [hu]
    cases again
    · refine (lcReg_onWarp _ _ _ (by intro; rfl) u k).trans ?_
      exact h1.trans (by simp)
    · exact Eq.trans h1 (by simp)

theorem endBody_levelOn (s : State) (t : Th) (e : Option (Nat × Bool)) (m : State) (u : Th) (k : Nat) :
    (endBody s t e m).levelOn u k = if u = t then m.levelOn t k && !decide (e = some (k, false)) else m.levelOn u k := by
  match e with
  | none => by_cases h : u = t <;> simp [endBody, h]
  | some (l, again) =>
    have h1 : ∀ k, (if s.lcReg t l = 0 then m else m.setLc t l (s.lcReg t l - 1)).levelOn u k = m.levelOn u k := fun k => by
      split
      · rfl
      · exact levelOn_setLc _ _ _ _ _ _
    cases again
    · rw [Bool.eq_iff_iff]
      refine ((levelOn_onWarp _ t _ fun w => dropsLevels_map w t.lane (· = l)).2 u k).trans ?_
      rw [h1]
      by_cases hu : u = t
      · subst hu
        by_cases hkl : k = l
        · simp [hkl]
        · simp [hkl, Ne.symm hkl]
      · simp [hu]
    · refine (h1 k).trans ?_
      by_cases hu : u = t <;> simp [hu]

theorem dueLevel_some {w : Warp} {pc : DWord} {depth lane l : Nat} (h : w.dueLevel pc depth (1#32 <<< lane) = some l) :
    l < 3 ∧ LevelIn w lane l := by
  have hf := List.find?_some h
  refine ⟨?_, ?_⟩
  · have := List.mem_of_find?_eq_some h
    simp only [List.mem_cons, List.not_mem_nil, or_false] at this
    omega
  · unfold LevelIn
    cases hw : w.frames.find l with
    | none => simp [hw] at hf
    | some f =>
      simp only [hw, Bool.and_eq_true, decide_eq_true_eq] at hf
      refine ⟨f, rfl, ?_⟩
      by_contra hoff
      refine hf.1.1 (BitVec.eq_of_getLsbD_eq fun i hi => ?_)
      show _ = (0#32).getLsbD i
      rw [BitVec.getLsbD_and, BitVec.getLsbD_zero]
      by_cases hl : i = lane
      · rw [hl, Bool.eq_false_iff.mpr hoff, Bool.false_and]
      · have hbit : (1#32 <<< lane).getLsbD i = false := by
          rw [BitVec.getLsbD_shiftLeft, BitVec.getLsbD_one]
          simp
          omega
        rw [hbit, Bool.and_false]

/-- The threads that return to their bodies' starts. -/
def returns (s : State) (u : IssueUnit) : List (Th × DWord) :=
  u.th.filterMap fun t => match s.bodyEnd u t with
    | some (l, true) => some (t, (s.frame t.wid l).start)
    | _ => none

/-- The levels and counters of a unit at the end of a body. -/
def endBodies (s : State) (u : IssueUnit) : State := u.th.foldl (fun m t => endBody s t (s.bodyEnd u t) m) s

theorem mem_returns {s : State} {u : IssueUnit} {x : Th × DWord} (h : x ∈ returns s u) :
    x.1 ∈ u.th ∧ ∃ l, s.bodyEnd u x.1 = some (l, true) ∧ x.2 = (s.frame x.1.wid l).start := by
  obtain ⟨t, ht, hx⟩ := List.mem_filterMap.mp h
  split at hx
  · next l he => cases hx; exact ⟨ht, l, he, rfl⟩
  · cases hx

theorem returns_of_bodyEnd {s : State} {u : IssueUnit} {t : Th} {l : Nat} (ht : t ∈ u.th) (he : s.bodyEnd u t = some (l, true)) :
    (t, (s.frame t.wid l).start) ∈ returns s u :=
  List.mem_filterMap.mpr ⟨t, ht, by rw [he]⟩

theorem nodup_returns {s : State} {u : IssueUnit} (hn : u.th.Nodup) : ((returns s u).map (·.1)).Nodup := by
  rw [returns, List.map_filterMap]
  refine hn.filterMap fun a b c ha hb => ?_
  have key : ∀ t : Th, c ∈ Option.map (fun x : Th × DWord => x.1) (match s.bodyEnd u t with
      | some (l, true) => some (t, (s.frame t.wid l).start)
      | _ => none) → c = t := fun t ht => by
    obtain ⟨x, hx, rfl⟩ := Option.mem_map.mp ht
    split at hx <;> cases hx
    rfl
  exact (key a ha).symm.trans (key b hb)

theorem exec_endOfBody {s : State} (h : ∀ x ∈ returns s s.unit, landsNow s x.1 x.2) : exec .loopEndOfBody s = .next
    (if returns s s.unit = [] then endBodies s s.unit else
      ((endBodies s s.unit).moveUnit s.unit fun t => match targetIn (returns s s.unit) t with
        | some a => atHeader a s.unit.depth
        | none => atHeader s.unit.pc s.unit.depth).switchBack s.unit (s.unitQuads s.unit) fun t =>
          (targetIn (returns s s.unit) t).isSome) := by
  have he : exec .loopEndOfBody s = if s.landHeld (returns s s.unit) then .next s.stall else
      match s.landTrap (returns s s.unit) with
      | some tr => .next (s.takeTrap s.unit tr 1)
      | none => if returns s s.unit = [] then .next (endBodies s s.unit) else
        .next (((endBodies s s.unit).moveUnit s.unit fun t => match targetIn (returns s s.unit) t with
          | some a => atHeader a s.unit.depth
          | none => atHeader s.unit.pc s.unit.depth).switchBack s.unit (s.unitQuads s.unit) fun t =>
            (targetIn (returns s s.unit) t).isSome) := rfl
  rw [he, landHeld_eq_false h, landTrap_eq_none h]
  simp only [Bool.false_eq_true, if_false]
  split <;> rfl

theorem endBodies_groups (s : State) (u : IssueUnit) : SameGroups s (endBodies s u) :=
  List.foldlRecOn (motive := SameGroups s) u.th _ (fun _ => rfl) fun m hm t _ => hm.trans (endBody_groups s t _ m)

theorem leaves_endBodies (s : State) (u : IssueUnit) : Leaves s (endBodies s u) { warp := fun w => { w.noLevels with lc := [] } } :=
  leaves_foldl _ _ (fun m t => leaves_endBody s t _ m) u.th s

theorem bodyEnd_some {s : State} {u : IssueUnit} {t : Th} {l : Nat} {again : Bool} (h : s.bodyEnd u t = some (l, again)) :
    l < 3 ∧ s.levelOn t l = true := by
  obtain ⟨j, hj, he⟩ := Option.map_eq_some_iff.mp h
  cases he
  obtain ⟨h3, hl⟩ := dueLevel_some hj
  exact ⟨h3, (levelOn_iff _ _ _).mpr hl⟩

/-- What the end of a body does to the counter and the level of a thread (R36, R57). -/
theorem endBodies_thread {s : State} {t : Th} (ht : t ∈ s.unit.th) {l : Nat} {again : Bool}
    (he : s.bodyEnd s.unit t = some (l, again)) :
    (endBodies s s.unit).lcReg t l = (if s.lcReg t l = 0 then 0 else s.lcReg t l - 1) ∧
    (endBodies s s.unit).levelOn t l = again := by
  obtain ⟨h3, hon⟩ := bodyEnd_some he
  have hn : s.unit.th.Nodup := nodup_unit s .loopEndOfBody
  constructor
  · refine (foldl_point (P := SameGroups s) (fun m t => m.lcReg t l) _ (fun t x =>
      if (s.bodyEnd s.unit t).map (·.1) = some l ∧ s.lcReg t l ≠ 0 then s.lcReg t l - 1 else x) _ hn
      (fun m hm t _ => hm.trans (endBody_groups s t _ m)) (fun m hm t ht u => ?_) s (fun _ => rfl) t).trans ?_
    · exact endBody_lcReg s _ m (hm.find_ne_none (find_of_unit (i := .loopEndOfBody) ht))
        (fun x hx => (bodyEnd_some (again := x.2) hx).1.trans (by decide)) u (h3.trans (by decide))
    · rw [if_pos ht, he]
      by_cases h0 : s.lcReg t l = 0
      · rw [if_neg (fun h => h.2 h0), if_pos h0, h0]
      · rw [if_pos ⟨rfl, h0⟩, if_neg h0]
  · refine (foldl_point (P := fun _ => True) (fun m t => m.levelOn t l) _ (fun t x =>
      x && !decide (s.bodyEnd s.unit t = some (l, false))) _ hn (fun _ _ _ _ => trivial)
      (fun m _ t _ u => endBody_levelOn s t _ m u l) s trivial t).trans ?_
    rw [if_pos ht, he, hon]
    cases again <;> simp

theorem body_ends {s : State} (h : ∀ th ∈ s.unit.th, ∀ l, s.bodyEnd s.unit th = some (l, true) → landsNow s th (s.frame th.wid l).start) :
    ∃ t, exec .loopEndOfBody s = .next t ∧
      (∀ th ∈ s.unit.th, ∀ l again, s.bodyEnd s.unit th = some (l, again) →
        t.lcReg th l = (if s.lcReg th l = 0 then 0 else s.lcReg th l - 1) ∧ t.levelOn th l = again ∧
        (again = true → t.At th (atHeader (s.frame th.wid l).start s.unit.depth))) ∧
      ((∀ th ∈ s.unit.th, ∀ l, s.bodyEnd s.unit th ≠ some (l, true)) → ∀ th tg, s.At th tg → t.At th tg) ∧
      Leaves s t { warp := fun w => { w.noLevels with lc := [] } } := by
  have hl : ∀ x ∈ returns s s.unit, landsNow s x.1 x.2 := fun x hx => by
    obtain ⟨ht, l, he, hx⟩ := mem_returns hx
    exact hx ▸ h _ ht l he
  refine ⟨_, exec_endOfBody hl, ?_⟩
  have hempty : (∀ th ∈ s.unit.th, ∀ l, s.bodyEnd s.unit th ≠ some (l, true)) → returns s s.unit = [] := fun hno =>
    List.eq_nil_iff_forall_not_mem.mpr fun x hx => by
      obtain ⟨ht, l, he, -⟩ := mem_returns hx
      exact hno _ ht l he
  by_cases hb : returns s s.unit = []
  · rw [if_pos hb]
    refine ⟨fun th hth l again he => ?_, fun _ _ _ => (endBodies_groups s _).at, leaves_endBodies s _⟩
    obtain ⟨h1, h2⟩ := endBodies_thread hth he
    refine ⟨h1, h2, fun ha => ?_⟩
    have := returns_of_bodyEnd hth (ha ▸ he)
    rw [hb] at this
    contradiction
  · rw [if_neg hb]
    generalize hm : (endBodies s s.unit).moveUnit s.unit _ = m
    have hsb := fun q b => staysPut_switchBack m s.unit q b
    have hleaves : Leaves (endBodies s s.unit) m := hm ▸ leaves_moveUnit _ _ _ _
    refine ⟨fun th hth l again he => ?_, fun hno => absurd (hempty hno) hb, ?_⟩
    · obtain ⟨h1, h2⟩ := endBodies_thread hth he
      refine ⟨?_, ?_, fun ha => (hsb _ _).at ?_⟩
      · rw [lcReg_of_leaves (hsb _ _).leaves, lcReg_of_leaves hleaves, h1]
      · rw [levelOn_of_leaves (hsb _ _).leaves, levelOn_of_leaves hleaves, h2]
      · have hat := moveUnit_ctx (i := .loopEndOfBody) (endBodies_groups s s.unit) (fun t => match targetIn (returns s s.unit) t with
          | some a => atHeader a s.unit.depth
          | none => atHeader s.unit.pc s.unit.depth) hth
        rw [targetIn_of_mem (nodup_returns (u := s.unit) (nodup_unit s .loopEndOfBody)) (returns_of_bodyEnd hth (ha ▸ he))] at hat
        exact hm ▸ hat
    · exact Laws.Leaves.trans (leaves_endBodies s _) (Laws.Leaves.weaken (Laws.Leaves.trans hleaves (hsb _ _).leaves) _)

theorem loop_level_lt {f : FL} (h : illOf (f.f7 ≠ 0) (f.lvl = 3 || f.len = 0) = none) : f.lvl.toNat < 3 := by
  have hne : f.lvl ≠ 3 := by
    rw [illOf, oneOf_eq_none] at h
    have h2 : decide (f.f7 ≠ 0) = false := h _ List.mem_cons_self
    have h0 : ((decide (f.lvl = 3) || decide (f.len = 0)) && !(decide (f.f7 ≠ 0))) = false := h _ (List.mem_cons_of_mem _ List.mem_cons_self)
    intro hl
    rw [h2, hl] at h0
    simp at h0
  have : f.lvl.toNat ≠ 3 := fun he => hne (BitVec.eq_of_toNat_eq he)
  omega

/-- Settles O28: LOOP by its counters and frames, BRK by the levels that it drops, and the end of a body thread by thread. -/
theorem loops : Obligations.Loops := by
  refine ⟨fun f s act hg ⟨hc, hl⟩ => ?_, fun f s act hg h => ?_, fun s => body_ends⟩
  · obtain ⟨hn, hsub⟩ := active_of_gate hg
    have h3 := loop_level_lt (gate_ill hg)
    refine ⟨_, exec_loop f _ rfl rfl rfl hg hc hl, ?_⟩
    have hj := fun m l => leaves_jump {} m (s.ctx (.loop f)) l (s.ctx (.loop f)).u.depth
    refine ⟨jump_moved ((loopCounters_groups _ _).trans (loopFrames_groups _ _ _ _ _ _)) (nodup_targets hn _) _,
      fun th hth => ?_, fun th k _ hk hne => ?_, fun th k => ?_, fun th hth => ?_, fun wid k hk => ?_,
      Laws.Leaves.trans (leaves_loop _ _ _ _ _) (Laws.Leaves.weaken (hj _ _) _)⟩
    · rw [lcReg_of_leaves (hj _ _), loopFrames_lcReg, loopCounters_lcReg hsub _ _ hn (by omega) _ (by omega), if_pos ⟨hth, rfl⟩]
    · rw [lcReg_of_leaves (hj _ _), loopFrames_lcReg, loopCounters_lcReg hsub _ _ hn (by omega) _ hk, if_neg]
      exact fun ⟨ht, hk⟩ => hne.elim (· ht) (· hk)
    · rw [levelOn_of_leaves (hj _ _), levelOn_loopFrames hsub]
    · simp only [frame_of_leaves (hj _ _)]
      exact frame_loopFrames hsub h3 _ _ hth (hc th (hsub th hth))
    · rw [frame_of_leaves (hj _ _), frame_loopFrames_ne hsub _ _ _ _ _ hk]
  · obtain ⟨hn, -⟩ := active_of_gate hg
    refine ⟨_, exec_brk f rfl hg h, ?_⟩
    have hj := leaves_jump {} (act.foldl (fun s t => s.onWarp t.wid fun w => w.dropLevels t.lane (f.m.extractLsb' 0 2).toNat) s)
      (s.ctx (.brk f)) (act.map fun t => (t, (s.frame t.wid (f.m.extractLsb' 0 2).toNat).endAt)) (s.ctx (.brk f)).u.depth
    refine ⟨jump_moved (dropAll_groups s act _) (nodup_targets hn _) _, fun th k => ?_, ?_⟩
    · rw [levelOn_of_leaves hj, levelOn_dropAll s act hn]
    · exact Laws.Leaves.trans (leaves_dropAll s act _) (Laws.Leaves.weaken hj _)

end Sys2Proof.Kernels

/-! # Exits and yields (O29: R22, R59, R231, R232) -/
namespace Sys2Proof.Kernels
open Sys2Proof Sys2Proof.Machine Sys2Proof.Laws

/-! ### Barriers (R47, R48) -/

theorem staysPut_freeBar (s : State) (bids : List Nat) (st : GroupSt) : StaysPut s (s.freeBar bids st) := by
  refine staysPut_of_warps (fun k => ?_) rfl
  rw [State.freeBar, find_map_snd s.warps fun _ w => if bids.contains w.bid then
    { w with groups := w.groups.map fun g => if g.st = st then { g with st := .running } else g } else w]
  cases s.warps.find k with
  | none => exact .inl ⟨rfl, rfl⟩
  | some w =>
    refine .inr ⟨w, _, rfl, rfl, ?_⟩
    dsimp only
    split
    · exact rearranged_map w w.nextSliver _ fun g => by split <;> trivial
    · exact .refl w

theorem leaves_invalidate (F : MayChange) (hacc : ∀ a, F.acc { a with snap := [] } = F.acc a)
    (hrest : ∀ (x : State) l, F.rest { x with l1 := l } = F.rest x) (s : State) (core : Nat) : Leaves s (s.invalidate core) F where
  warps := sameTbl_refl _ _
  parts := sameTbl_refl _ _
  blocks := sameTbl_refl _ _
  gangs := sameTbl_refl _ _
  launches := sameTbl_refl _ _
  ops := sameTbl_refl _ _
  cores _ := rfl
  accs k _ := by
    rw [State.invalidate, find_map_snd s.accs fun _ a => if a.core = core then { a with snap := [] } else a]
    cases s.accs.find k with
    | none => rfl
    | some a =>
      simp only [Option.map_some, Option.bind_some]
      split
      · exact hacc a
      · rfl
  upsets _ h _ := h
  rest := hrest s.bare _

/-- What the barriers of a block may do (R47, R48): groups that wait there run again, and its cores invalidate. -/
theorem barriers_stay (s : State) (bid : Nat) : WarpsBy Rearranged s (s.barriers bid) := by
  have hfree := fun (s : State) bids st => (staysPut_freeBar s bids st).still
  have hb : WarpsBy Rearranged s (s.barCheck bid) := by
    unfold State.barCheck
    split
    · exact WarpsBy.trans Rearranged.trans (hfree s [bid] .atBar) (WarpsBy.of_eq .refl (onBlock_warps _ _ _))
    · exact WarpsBy.refl .refl s
  have hinv : ∀ (l : List Nat) (s : State), (l.foldl State.invalidate s).warps = s.warps := fun l s =>
    List.foldlRecOn (motive := fun t : State => t.warps = s.warps) l _ rfl fun _ h _ _ => h
  refine WarpsBy.trans Rearranged.trans hb ?_
  unfold State.barriers State.gbarCheck
  dsimp only
  split
  · exact WarpsBy.trans Rearranged.trans (hfree _ _ .atGbar) (WarpsBy.of_eq .refl ((hinv _ _).trans (onGang_warps _ _ _)))
  · exact WarpsBy.refl .refl _

theorem leaves_barriers (F : MayChange) (hacc : ∀ a, F.acc { a with snap := [] } = F.acc a)
    (hrest : ∀ (x : State) l, F.rest { x with l1 := l } = F.rest x) (hblock : ∀ b n, F.block { b with barGen := n } = F.block b)
    (hgang : ∀ g n, F.gang { g with gbarGen := n } = F.gang g) (s : State) (bid : Nat) : Leaves s (s.barriers bid) F := by
  have hfree := fun (s : State) bids st => Laws.Leaves.weaken (staysPut_freeBar s bids st).leaves F
  have hb : Leaves s (s.barCheck bid) F := by
    unfold State.barCheck
    split
    · exact Laws.Leaves.trans (hfree s _ _) (Laws.Leaves.trans (leaves_onBlock F _ _ _ fun b => hblock b _) (leaves_invalidate F hacc hrest _ _))
    · exact Laws.Leaves.refl s F
  refine Laws.Leaves.trans hb ?_
  unfold State.barriers State.gbarCheck
  dsimp only
  split
  · exact Laws.Leaves.trans (hfree _ _ _) (Laws.Leaves.trans (leaves_onGang F _ _ _ fun g => hgang g _)
      (leaves_foldl F _ (leaves_invalidate F hacc hrest) _ _))
  · exact Laws.Leaves.refl _ F

/-! ### Retirement of lanes -/

/-- A warp whose lanes have left their groups, before its quads are handed on. -/
def Warp.without (w : Warp) (lanes : Word) : Warp :=
  { w with
    exited := w.exited ||| lanes
    trapSet := w.trapSet &&& ~~~lanes
    frames := w.frames.map fun p => (p.1, { p.2 with active := p.2.active &&& ~~~lanes })
    groups := (w.groups.map fun g => { g with lanes := g.lanes &&& ~~~lanes }).filter fun g => g.lanes ≠ 0 }

theorem retire_rearranged (w : Warp) (lanes : Word) : Rearranged (Warp.without w lanes) (w.retire lanes) :=
  foldl_inv Rearranged .refl .trans _ (fun w q => .trans _ _ _ (promote_requeued w q).rearranged (passBar_requeued _ q 4).rearranged) _ _

/-- A lane that does not retire stands where it stood. -/
theorem retire_stands {w : Warp} {lanes : Word} {l : Nat} {tg : Tgt} (h : StandsAt w l tg) (hl : lanes.getLsbD l = false) :
    StandsAt (w.retire lanes) l tg := by
  refine (retire_rearranged w lanes).stands ?_
  obtain ⟨g, hg, hb, hpc, hhdr, hd⟩ := h
  have hkeep : (g.lanes &&& ~~~lanes).getLsbD l = true := by
    rw [BitVec.getLsbD_and, BitVec.getLsbD_not, hb, hl]
    simp [lane_lt hb]
  refine ⟨_, List.mem_filter.mpr ⟨List.mem_map_of_mem hg, ?_⟩, hkeep, hpc, hhdr, hd⟩
  simp only [decide_eq_true_eq]
  intro h0
  rw [h0] at hkeep
  simp at hkeep

/-! ### The exit of some threads -/

/-- The exiting lanes of one home warp retire; in trap mode their records go with them. -/
def retireIn (trap : Bool) (act : List Th) (s : State) (wid : Nat) : State :=
  (if trap then s.dropRecs wid (lanesIn act wid) else s).onWarp wid fun w => w.retire (lanesIn act wid)

/-- What an exit does to one home warp. -/
def exitWarp (trap : Bool) (act : List Th) (s : State) (wid : Nat) : State :=
  if trap && ((retireIn trap act s wid).warp wid).trapSet = 0 then (retireIn trap act s wid).endTrap wid else retireIn trap act s wid

theorem exitThreads_eq (s : State) (c : Ctx) (act : List Th) : s.exitThreads c act =
    let m := (widsOf act).foldl (exitWarp c.trap act) (s.advance c.u c.len)
    (((widsOf act).map fun wid => (m.warp wid).bid).eraseDups).foldl State.barriers m.tidyMixed := rfl

/-- The lanes of a warp that have exited, and those of its groups. -/
def lanesView (w : Warp) : Word × List Word := (w.exited, w.groups.map Group.lanes)

/-- A warp's lanes are as they were. -/
def SameLanes (w v : Warp) : Prop := lanesView v = lanesView w

theorem SameLanes.refl (w : Warp) : SameLanes w w := rfl
theorem SameLanes.trans (a b c : Warp) (h : SameLanes a b) (g : SameLanes b c) : SameLanes a c := Eq.trans g h

theorem Rearranged.sameLanes {w v : Warp} (h : Rearranged w v) : SameLanes w v := by
  obtain ⟨hs, -⟩ := id h
  have he : v.exited = w.exited := (congrArg Warp.exited hs :)
  unfold SameLanes lanesView
  rw [he, h.lanes]

theorem sameLanes_groups (w : Warp) (f : Group → Group) (hf : ∀ g, (f g).lanes = g.lanes) : SameLanes w { w with groups := w.groups.map f } := by
  unfold SameLanes lanesView
  rw [List.map_map]
  exact congrArg _ (List.map_congr_left fun g _ => hf g)

theorem sameLanes_onWarp (s : State) (k : Nat) (f : Warp → Warp) (hf : ∀ w, SameLanes w (f w)) : WarpsBy SameLanes s (s.onWarp k f) :=
  WarpsBy.onWarp .refl s k f hf

theorem sameLanes_onSliver (s : State) (wid k : Nat) (f : Group → Group) (hf : ∀ g, (f g).lanes = g.lanes) :
    WarpsBy SameLanes s (s.onSliver wid k f) :=
  sameLanes_onWarp s wid _ fun w => sameLanes_groups w _ fun g => by split <;> [exact hf g; rfl]

theorem sameLanes_of_eq {s t : State} (h : t.warps = s.warps) : WarpsBy SameLanes s t := WarpsBy.of_eq .refl h

theorem raise_warps (s : State) (p vec : Nat) : (s.raise p vec).warps = s.warps := by
  unfold State.raise
  dsimp only
  split
  · rfl
  · split
    · exact onPart_warps _ _ _
    · rfl

theorem raiseFq_warps (s : State) (p : Nat) : (s.raiseFq p).warps = s.warps := by
  unfold State.raiseFq
  dsimp only
  split
  · exact raise_warps _ _ _
  · rfl

theorem sameLanes_watchdogPark (s : State) (wid k detail nested skip : Nat) :
    WarpsBy SameLanes s (s.watchdogPark wid k detail nested skip) := by
  refine WarpsBy.trans SameLanes.trans (sameLanes_onWarp s wid _ ?_)
    (WarpsBy.trans SameLanes.trans (sameLanes_onSliver _ wid k _ ?_) (sameLanes_of_eq ((raiseFq_warps _ _).trans (onPart_warps _ _ _))))
  · exact fun _ => rfl
  · exact fun _ => rfl

theorem takeBack_warps (s : State) (id : Nat) (o : EngineOp) : (s.takeBack id o).warps = s.warps := by
  unfold State.takeBack
  dsimp only
  split <;> rfl

theorem withdraw_warps (s : State) (wid : Nat) (lanes : Word) : (s.withdraw wid lanes).warps = s.warps :=
  List.foldlRecOn (motive := fun t : State => t.warps = s.warps) _ _ rfl fun _ h _ _ => (takeBack_warps _ _ _).trans h

/-- The table fetches of some lanes are given up (R226). -/
def dropFetches (s : State) (wid : Nat) (lanes : Word) : State :=
  { s with accs := s.accs.filter fun a => !(a.2.kind = AccKind.jtab && a.2.wid = wid && lanes.getLsbD a.2.lane) }

/-- A warp with what the entry of a trap saves in it (R63, R68, R396, R397). -/
def Warp.saved (w : Warp) (lanes : Word) (since frame size wid : Nat) (tr : Trap) (at_ : Tgt) (hw : Word) (mix : Bool) : Warp :=
  { w with
    trapSet := lanes
    trapSince := since
    wdogPark := false
    deliv := tr.deliv
    tcause := BitVec.ofNat 32 tr.cause
    tpc := at_.pc
    tval := tr.tval
    tmask := lanesIn tr.mask wid
    tstat := tstatOf tr.recorded mix at_.depth lanes
    trec := tr.trec
    tkept := some (at_.hdr, hw)
    k := (w.k.put 0 { val := BitVec.ofNat 32 frame }).put 1 { val := BitVec.ofNat 32 size } }

/-- A group at the header of a handler. -/
def Group.toHandler (entry : DWord) (g : Group) : Group :=
  { g with pc := entry, hdr := entry, hw := 0, code := [], st := .running, passed := false, waits := false, skip := 0, mark := 0 }

/-- A part's state with everything saved for its handler. -/
def trapSaved (s : State) (wid k : Nat) (tr : Trap) (at_ : Tgt) (hw : Word) (mix : Bool) : State :=
  let m := (dropFetches s wid ((s.warp wid).sliverLanes k)).withdraw wid ((s.warp wid).sliverLanes k)
  m.onWarp wid fun w => Warp.saved w ((s.warp wid).sliverLanes k) (m.tickOf w.core) (s.frameAt wid) (s.block (s.warp wid).bid).frame
    wid tr at_ hw mix

/-- A trap of a warp that is not in trap mode (R396, R398). -/
theorem enterTrap_free {s : State} {wid : Nat} (h : (s.warp wid).trapSet = 0) (k : Nat) (tr : Trap) (at_ : Tgt) (hw : Word) (mix : Bool)
    (skip : Nat) : s.enterTrap wid k tr at_ hw mix skip =
      if s.headerAt (s.partOf wid) (s.asidOf wid) (s.handlerAt wid tr.cause) then
        (trapSaved s wid k tr at_ hw mix).onSliver wid k (Group.toHandler (s.handlerAt wid tr.cause))
      else (trapSaved s wid k tr at_ hw mix).watchdogPark wid k 2 tr.cause skip := by
  have hin : (s.warp wid).inTrap ((s.warp wid).sliverLanes k) = false := by simp [Warp.inTrap, h]
  unfold State.enterTrap
  dsimp only
  rw [hin, if_neg (by simp), if_neg (by simp [h])]
  rfl

/-- A trap of the unit in trap mode (R398). -/
theorem enterTrap_nested {s : State} {wid k : Nat} (h : (s.warp wid).trapSet &&& (s.warp wid).sliverLanes k ≠ 0) (tr : Trap) (at_ : Tgt)
    (hw : Word) (mix : Bool) (skip : Nat) :
    s.enterTrap wid k tr at_ hw mix skip = s.watchdogPark wid k 0 tr.cause skip := by
  unfold State.enterTrap
  dsimp only
  rw [if_pos (by simpa [Warp.inTrap] using h)]

/-- A trap beside the unit in trap mode (R59). -/
theorem enterTrap_beside {s : State} {wid k : Nat} (h : (s.warp wid).trapSet &&& (s.warp wid).sliverLanes k = 0)
    (h0 : (s.warp wid).trapSet ≠ 0) (tr : Trap) (at_ : Tgt) (hw : Word) (mix : Bool) (skip : Nat) :
    s.enterTrap wid k tr at_ hw mix skip =
      (s.onSliver wid k fun g => { g with st := .heldTrap }).onWarp wid fun w => { w with
        heldTraps := w.heldTraps ++ [{ sliver := k, cause := tr.cause, tval := tr.tval, mask := lanesIn tr.mask wid, recorded := tr.recorded,
                                       trec := tr.trec, deliv := tr.deliv, pc := at_.pc, hdr := at_.hdr, hw := hw, depth := at_.depth,
                                       mix := mix, skip := skip }] } := by
  unfold State.enterTrap
  dsimp only
  rw [if_neg (by simpa [Warp.inTrap] using h), if_pos h0]

/-- Taking a trap moves no lane. -/
theorem sameLanes_enterTrap (s : State) (wid k : Nat) (tr : Trap) (at_ : Tgt) (hw : Word) (mix : Bool) (skip : Nat) :
    WarpsBy SameLanes s (s.enterTrap wid k tr at_ hw mix skip) := by
  by_cases h0 : (s.warp wid).trapSet = 0
  · have hsaved : WarpsBy SameLanes s (trapSaved s wid k tr at_ hw mix) := by
      refine WarpsBy.trans SameLanes.trans (sameLanes_of_eq (withdraw_warps (dropFetches s wid _) wid _)) (sameLanes_onWarp _ wid _ ?_)
      exact fun _ => rfl
    rw [enterTrap_free h0]
    split
    · exact WarpsBy.trans SameLanes.trans hsaved (sameLanes_onSliver _ _ _ _ fun _ => rfl)
    · exact WarpsBy.trans SameLanes.trans hsaved (sameLanes_watchdogPark _ _ _ _ _ _)
  · by_cases h : (s.warp wid).trapSet &&& (s.warp wid).sliverLanes k = 0
    · rw [enterTrap_beside h h0]
      refine WarpsBy.trans SameLanes.trans (sameLanes_onSliver s wid k _ ?_) (sameLanes_onWarp _ _ _ ?_)
      · exact fun _ => rfl
      · exact fun _ => rfl
    · rw [enterTrap_nested h]
      exact sameLanes_watchdogPark _ _ _ _ _ _

theorem sameLanes_enterHeld (s : State) (wid : Nat) : WarpsBy SameLanes s (s.enterHeld wid) := by
  unfold State.enterHeld
  dsimp only
  split
  · split
    · exact WarpsBy.refl .refl s
    · refine WarpsBy.trans SameLanes.trans (sameLanes_onWarp s wid _ ?_) (sameLanes_enterTrap _ _ _ _ _ _ _ _)
      exact fun _ => rfl
  · exact WarpsBy.refl .refl s

/-- Of a warp, listing what waits aside changes only its records. -/
theorem listAside_eq (w : Warp) (tick : Nat) : ∃ f a, w.listAside tick = { w with faults := f, aside := a } :=
  List.foldlRecOn (motive := fun v : Warp => ∃ f a, v = { w with faults := f, aside := a }) w.aside _ ⟨w.faults, w.aside, rfl⟩
    fun v ⟨f, a, hv⟩ r _ => by
      subst hv
      dsimp only
      split
      · exact ⟨_, _, rfl⟩
      · exact ⟨f, a, rfl⟩

theorem sameLanes_endTrap (s : State) (wid : Nat) : WarpsBy SameLanes s (s.endTrap wid) :=
  WarpsBy.trans SameLanes.trans (sameLanes_onWarp s wid _ fun w => by
    obtain ⟨f, a, h⟩ := listAside_eq { w with wdogPark := false, deliv := none } (s.warpTick wid)
    rw [h]
    rfl) (sameLanes_enterHeld _ wid)

theorem uncount_warps (s : State) (wid iid n : Nat) : (s.uncountN wid iid n).warps = s.warps := by
  induction n generalizing s with
  | zero => rfl
  | succ n ih => exact (ih _).trans rfl

theorem sameLanes_dropRecs (s : State) (wid : Nat) (lanes : Word) : WarpsBy SameLanes s (s.dropRecs wid lanes) := by
  refine WarpsBy.trans SameLanes.trans (sameLanes_of_eq (List.foldlRecOn (motive := fun t : State => t.warps = s.warps) _ _ rfl
    fun _ h _ _ => (uncount_warps _ _ _ _).trans h)) (sameLanes_onWarp _ wid _ ?_)
  exact fun _ => rfl

/-- What the lanes of a warp become when some retire. -/
def retireView (lanes : Word) (v : Word × List Word) : Word × List Word :=
  (v.1 ||| lanes, (v.2.map fun x => x &&& ~~~lanes).filter fun x => x ≠ 0)

theorem lanesView_retire (w : Warp) (lanes : Word) : lanesView (w.retire lanes) = retireView lanes (lanesView w) := by
  refine Eq.trans (retire_rearranged w lanes).sameLanes ?_
  unfold lanesView retireView Warp.without
  congr 1
  simp only [List.filter_map, List.map_map]
  rfl

/-- An exit clears its lanes in its home warp's groups, and no other warp's lanes. -/
theorem lanesView_exitWarp (trap : Bool) (act : List Th) {m : State} {wid : Nat} (h : m.warps.find wid ≠ none) (j : Nat) :
    lanesView ((exitWarp trap act m wid).warp j) =
      if j = wid then retireView (lanesIn act wid) (lanesView (m.warp wid)) else lanesView (m.warp j) := by
  have hd : WarpsBy SameLanes m (if trap then m.dropRecs wid (lanesIn act wid) else m) := by
    split
    · exact sameLanes_dropRecs _ _ _
    · exact WarpsBy.refl .refl m
  have hfind : (if trap then m.dropRecs wid (lanesIn act wid) else m).warps.find wid ≠ none := by
    rcases hd wid with ⟨h1, -⟩ | ⟨w, v, -, h2, -⟩
    · exact absurd h1 h
    · rw [h2]; exact Option.some_ne_none v
  have hret : lanesView ((retireIn trap act m wid).warp j) =
      if j = wid then retireView (lanesIn act wid) (lanesView (m.warp wid)) else lanesView (m.warp j) := by
    unfold retireIn
    by_cases hj : j = wid
    · subst hj
      rw [warp_onWarp _ _ _ _ hfind, if_pos rfl, if_pos rfl, lanesView_retire, hd.warp (.refl _) j]
    · rw [warp_onWarp_ne _ _ hj, if_neg hj]
      exact hd.warp (.refl _) j
  unfold exitWarp
  split
  · exact Eq.trans ((sameLanes_endTrap _ wid).warp (.refl _) j) hret
  · exact hret

theorem find_exitWarp (trap : Bool) (act : List Th) (m : State) (wid : Nat) {j : Nat} (h : m.warps.find j ≠ none) :
    (exitWarp trap act m wid).warps.find j ≠ none := by
  have hd : WarpsBy (fun _ _ => True) m (exitWarp trap act m wid) := by
    have mono := fun {s t : State} (h : WarpsBy SameLanes s t) => WarpsBy.mono (q := fun _ _ => True) (fun _ _ _ => trivial) h
    have tr := fun {s t u : State} => WarpsBy.trans (r := fun _ _ => True) (fun _ _ _ _ _ => trivial) (s := s) (t := t) (u := u)
    have h1 : WarpsBy (fun _ _ => True) m (retireIn trap act m wid) := by
      refine tr (t := if trap then m.dropRecs wid (lanesIn act wid) else m) ?_ (WarpsBy.onWarp (fun _ => trivial) _ _ _ fun _ => trivial)
      split
      · exact mono (sameLanes_dropRecs _ _ _)
      · exact WarpsBy.refl (fun _ => trivial) m
    unfold exitWarp
    split
    · exact tr h1 (mono (sameLanes_endTrap _ wid))
    · exact h1
  rcases hd j with ⟨h1, -⟩ | ⟨w, v, -, h2, -⟩
  · exact absurd h1 h
  · rw [h2]; exact Option.some_ne_none v

/-- The lanes of every warp after an exit (R22, R231). -/
theorem lanesView_exit {s : State} {i : Instr} {act : List Th} (hsub : ∀ th ∈ act, th ∈ (s.ctx i).u.th) (wid : Nat) :
    let l := lanesView ((s.advance (s.ctx i).u (s.ctx i).len).warp wid)
    lanesView ((s.exitThreads (s.ctx i) act).warp wid) = if wid ∈ widsOf act then retireView (lanesIn act wid) l else l := by
  have hfind : ∀ k ∈ widsOf act, (s.advance (s.ctx i).u (s.ctx i).len).warps.find k ≠ none := fun k hk => by
    obtain ⟨t, ht, rfl⟩ := (mem_widsOf _ _).mp hk
    rcases moveUnit_warps s (s.ctx i).u (fun _ => fallThrough (s.ctx i).u (s.ctx i).len) t.wid with ⟨h1, -⟩ | ⟨w, v, -, h2, -⟩
    · exact absurd h1 (find_of_unit (hsub t ht))
    · exact fun hn => Option.some_ne_none v (h2.symm.trans hn)
  rw [exitThreads_eq]
  dsimp only
  refine Eq.trans ((foldl_inv (WarpsBy SameLanes) (WarpsBy.refl .refl) (fun _ _ _ => WarpsBy.trans SameLanes.trans) State.barriers
    (fun s b => WarpsBy.mono (fun _ _ h => h.sameLanes) (barriers_stay s b)) _ _).warp (.refl _) wid) ?_
  exact foldl_point (P := fun m : State => ∀ k ∈ widsOf act, m.warps.find k ≠ none) (fun (m : State) wid => lanesView (m.warp wid)) _
    (fun wid v => retireView (lanesIn act wid) v) (widsOf act) (nodup_eraseDups _)
    (fun m hm k _ j hj => find_exitWarp _ _ m k (hm j hj)) (fun m hm k hk j => lanesView_exitWarp _ _ (hm k hk) j) _ hfind wid

theorem exited_of_leaves {s t : State} (h : Leaves s t) (wid : Nat) : (t.warp wid).exited = (s.warp wid).exited :=
  (congrArg Warp.exited (leaves_still h wid) :)

/-- The threads that exit are out of their warps' groups for good. -/
theorem exit_retires {s : State} {i : Instr} {act : List Th} (hsub : ∀ th ∈ act, th ∈ (s.ctx i).u.th) :
    let t := s.exitThreads (s.ctx i) act
    (∀ th ∈ act, (t.warp th.wid).exited.getLsbD th.lane = true ∧ ∀ g ∈ (t.warp th.wid).groups, g.lanes.getLsbD th.lane = false) ∧
    ∀ wid lane, { wid := wid, lane := lane : Th } ∉ act →
      (t.warp wid).exited.getLsbD lane = (s.warp wid).exited.getLsbD lane := by
  have hstill : ∀ wid, ((s.advance (s.ctx i).u (s.ctx i).len).warp wid).exited = (s.warp wid).exited :=
    exited_of_leaves (leaves_advance {} s (s.ctx i).u (s.ctx i).len)
  refine ⟨fun th hth => ?_, fun wid lane hno => ?_⟩
  · have hv := lanesView_exit hsub th.wid
    dsimp only at hv
    rw [if_pos ((mem_widsOf _ _).mpr ⟨th, hth, rfl⟩)] at hv
    obtain ⟨he, hg⟩ := Prod.mk.inj hv
    have hbit : (lanesIn act th.wid).getLsbD th.lane = true := by
      rw [getLsbD_lanesIn]
      simp [lane_of_unit (hsub th hth), hth]
    refine ⟨by rw [he, BitVec.getLsbD_or, hbit, Bool.or_true], fun g hgm => ?_⟩
    have := hg ▸ List.mem_map_of_mem (f := Group.lanes) hgm
    obtain ⟨x, -, hx⟩ := List.mem_map.mp (List.mem_filter.mp this).1
    rw [← hx, BitVec.getLsbD_and, BitVec.getLsbD_not, hbit]
    simp
  · have hv := lanesView_exit hsub wid
    dsimp only at hv
    rw [← hstill]
    split at hv
    · obtain ⟨he, -⟩ := Prod.mk.inj hv
      rw [he, BitVec.getLsbD_or, getLsbD_lanesIn, decide_eq_false hno, Bool.and_false, Bool.or_false]
      rfl
    · rw [(Prod.mk.inj hv).1]

/-! ### What an exit leaves as it was -/

theorem heldTraps_of_leaves {s t : State} {trap : Bool} (h : Leaves s t (exitFrame trap)) (wid : Nat) :
    (t.warp wid).heldTraps = (s.warp wid).heldTraps := by
  have h := h.warps wid id
  unfold State.warp Tbl.getD
  cases hs : s.warps.find wid <;> cases ht : t.warps.find wid <;> rw [hs, ht] at h <;> try rfl
  · simp at h
  · simp at h
  · exact (congrArg Warp.heldTraps (Option.some.inj h) :)

theorem leaves_uncount (s : State) (wid iid n : Nat) : Leaves s (s.uncountN wid iid n) (exitFrame true) := by
  induction n generalizing s with
  | zero => exact Laws.Leaves.refl s _
  | succ n ih =>
    exact Laws.Leaves.trans (t := s.uncount wid iid) (leaves_plain rfl rfl rfl rfl rfl rfl rfl rfl rfl fun _ h _ => h) (ih _)

theorem leaves_dropRecs (s : State) (wid : Nat) (lanes : Word) : Leaves s (s.dropRecs wid lanes) (exitFrame true) :=
  Laws.Leaves.trans (leaves_foldl (exitFrame true) _ (fun s (r : FaultRec) => leaves_uncount s wid r.iid _) (s.warp wid).records s)
    (leaves_onWarp _ _ _ _ fun _ => rfl)

theorem sameGroups_dropRecs (s : State) (wid : Nat) (lanes : Word) : SameGroups s (s.dropRecs wid lanes) := fun k => by
  have hw := List.foldlRecOn (motive := fun t : State => t.warps = s.warps) (s.warp wid).records
    (fun s r => s.uncountN wid r.iid (r.weight - (r.without lanes).weight)) rfl fun t h r _ => (uncount_warps t _ _ _).trans h
  refine Eq.trans (groups_onWarp _ wid _ ?_ k) (congrArg (fun t : Tbl Warp => (t.find k).map Warp.groups) hw)
  exact fun _ => rfl

/-- Where no trap waits to be entered, the end of trap mode moves no group. -/
theorem endTrap_eq {s : State} {wid : Nat} (h : (s.warp wid).heldTraps = []) :
    s.endTrap wid = s.onWarp wid fun w => Warp.listAside { w with wdogPark := false, deliv := none } (s.warpTick wid) := by
  have hw : ((s.onWarp wid fun w => Warp.listAside { w with wdogPark := false, deliv := none } (s.warpTick wid)).warp wid).heldTraps = [] := by
    refine Eq.trans ?_ h
    refine WarpsBy.warp (r := fun w v => v.heldTraps = w.heldTraps) rfl
      (WarpsBy.onWarp (r := fun w v => v.heldTraps = w.heldTraps) (fun _ => rfl) s wid _ fun w => ?_) wid
    obtain ⟨f, a, hv⟩ := listAside_eq { w with wdogPark := false, deliv := none } (s.warpTick wid)
    rw [hv]
  unfold State.endTrap State.enterHeld
  dsimp only
  rw [hw]

theorem endTrap_leaves {s : State} {wid : Nat} (h : (s.warp wid).heldTraps = []) :
    Leaves s (s.endTrap wid) (exitFrame true) ∧ SameGroups s (s.endTrap wid) := by
  rw [endTrap_eq h]
  have hf := fun w : Warp => listAside_eq { w with wdogPark := false, deliv := none } (s.warpTick wid)
  refine ⟨leaves_onWarp _ _ _ _ fun w => ?_, fun k => groups_onWarp _ wid _ (fun w => ?_) k⟩
  · obtain ⟨f, a, hv⟩ := hf w
    rw [hv]
    rfl
  · obtain ⟨f, a, hv⟩ := hf w
    rw [hv]

theorem retire_frame (trap : Bool) (w : Warp) (lanes : Word) :
    (exitFrame trap).warp (w.retire lanes).still = (exitFrame trap).warp w.still := by
  have h : (w.retire lanes).still = (Warp.without w lanes).still := (retire_rearranged w lanes).1
  rw [h]
  unfold Warp.without exitFrame Warp.still Warp.noLevels
  simp only [List.map_map, Function.comp_def]

/-- What the exit of some lanes of a warp leaves as it was. -/
theorem exitWarp_leaves {trap : Bool} {act : List Th} {s : State} {wid : Nat} (h : trap = true → (s.warp wid).heldTraps = []) :
    Leaves s (exitWarp trap act s wid) (exitFrame trap) ∧
    ∀ th tg, th ∉ act → s.At th tg → (exitWarp trap act s wid).At th tg := by
  have hd : Leaves s (if trap then s.dropRecs wid (lanesIn act wid) else s) (exitFrame trap) ∧
      SameGroups s (if trap then s.dropRecs wid (lanesIn act wid) else s) := by
    cases trap
    · exact ⟨Laws.Leaves.refl s _, fun _ => rfl⟩
    · exact ⟨leaves_dropRecs s wid _, sameGroups_dropRecs s wid _⟩
  have hr : Leaves s (retireIn trap act s wid) (exitFrame trap) :=
    Laws.Leaves.trans hd.1 (leaves_onWarp _ _ _ _ fun w => retire_frame trap w _)
  have hat : ∀ th tg, th ∉ act → s.At th tg → (retireIn trap act s wid).At th tg := fun th tg hno hs => by
    have hs := hd.2.at hs
    unfold State.At retireIn at *
    by_cases hw : th.wid = wid
    · refine (WarpsBy.onWarp (r := fun w v => StandsAt w th.lane tg → StandsAt v th.lane tg) (fun _ h => h) _ wid
        (fun w => w.retire (lanesIn act wid)) fun w h => ?_).warp (fun h => h) th.wid hs
      refine retire_stands h ?_
      subst hw
      rw [getLsbD_lanesIn, decide_eq_false hno, Bool.and_false]
    · rwa [warp_onWarp_ne _ _ hw]
  unfold exitWarp
  split
  · next hc =>
    obtain ⟨ht, -⟩ := Bool.and_eq_true_iff.mp hc
    subst ht
    obtain ⟨he, hg⟩ := endTrap_leaves (s := retireIn true act s wid) (wid := wid) ((heldTraps_of_leaves hr wid).trans (h rfl))
    exact ⟨Laws.Leaves.trans hr he, fun th tg hno hs => hg.at (hat th tg hno hs)⟩
  · exact ⟨hr, hat⟩

/-- What the exit of some threads leaves as it was, where no trap waits to be entered after them. -/
theorem exit_leaves {s : State} {i : Instr} {act : List Th}
    (h : (s.ctx i).trap = true → ∀ th ∈ act, (s.warp th.wid).heldTraps = []) :
    (∀ th ∈ (s.ctx i).u.th, th ∉ act → (s.exitThreads (s.ctx i) act).At th (fallThrough (s.ctx i).u (s.ctx i).len)) ∧
    Leaves s (s.exitThreads (s.ctx i) act) (exitFrame (s.ctx i).trap) := by
  have hgo : GoesOn (s.advance (s.ctx i).u (s.ctx i).len) (s.ctx i) := goesOn_advance fun _ => rfl
  obtain ⟨hl, hat⟩ := List.foldlRecOn (motive := fun m : State => Leaves s m (exitFrame (s.ctx i).trap) ∧
      ∀ th ∈ (s.ctx i).u.th, th ∉ act → m.At th (fallThrough (s.ctx i).u (s.ctx i).len)) (widsOf act) (exitWarp (s.ctx i).trap act)
    ⟨leaves_advance _ s (s.ctx i).u (s.ctx i).len, fun th hth _ => hgo th hth⟩ fun m ⟨hl, hat⟩ wid hwid => by
      have hx := exitWarp_leaves (trap := (s.ctx i).trap) (act := act) (s := m) (wid := wid) fun ht => by
        obtain ⟨th, hth, rfl⟩ := (mem_widsOf _ _).mp hwid
        exact (heldTraps_of_leaves hl th.wid).trans (h ht th hth)
      exact ⟨Laws.Leaves.trans hl hx.1, fun th hth hno => hx.2 th _ hno (hat th hth hno)⟩
  rw [exitThreads_eq]
  dsimp only
  refine ⟨fun th hth hno => ?_, ?_⟩
  · refine ((foldl_inv (WarpsBy Rearranged) (WarpsBy.refl .refl) (fun _ _ _ => WarpsBy.trans Rearranged.trans) State.barriers
      barriers_stay _ _).warp (.refl _) th.wid).stands ?_
    exact hat th hth hno
  · refine Laws.Leaves.trans (Laws.Leaves.trans hl (leaves_tidyMixed _ _)) (leaves_foldl _ _ (leaves_barriers _ ?_ ?_ ?_ ?_) _ _)
    · exact fun _ => rfl
    · exact fun _ _ => rfl
    · exact fun _ _ => rfl
    · exact fun _ _ => rfl

theorem exec_exitThread (f : V3) (s : State) : exec (.exitThread f) s =
    syncInstr s (.exitThread f) { q := f.q, ill := illZero f.m 7 } fun c act =>
      if !c.trap && act.any fun t => (s.warp t.wid).faults.any fun r => r.lanes.getLsbD t.lane then s.takeRecorded c.u
      else s.exitThreads c act := rfl

theorem exec_yield (f : V3) (s : State) : exec (.yield f) s =
    syncInstr s (.yield f) { q := f.q, ill := illZero f.m 7 } fun c _ =>
      ((s.advance c.u c.len).switchUnit c.u).passOver s.focus false := rfl

/-- A unit that yields goes on, and its core's next choice passes it over (R232). -/
theorem yield_goes (s : State) (i : Instr) :
    let t := ((s.advance (s.ctx i).u (s.ctx i).len).switchUnit (s.ctx i).u).passOver s.focus false
    let core := (s.warp s.focus.wid).core
    GoesOn t (s.ctx i) ∧ (t.coreRegs core).yielded = (s.focus, false) :: (s.coreRegs core).yielded ∧
      Leaves s t { core := fun r => { r with yielded := [] } } := by
  have hl : Leaves s ((s.advance (s.ctx i).u (s.ctx i).len).switchUnit (s.ctx i).u) :=
    Laws.Leaves.trans (leaves_advance {} s _ _) (staysPut_switchUnit _ _).leaves
  have hcore : (((s.advance (s.ctx i).u (s.ctx i).len).switchUnit (s.ctx i).u).warp s.focus.wid).core = (s.warp s.focus.wid).core :=
    (congrArg Warp.core (leaves_still hl s.focus.wid) :)
  have hgo : GoesOn (s.advance (s.ctx i).u (s.ctx i).len) (s.ctx i) := goesOn_advance fun _ => rfl
  dsimp only
  refine ⟨fun th hth => ?_, ?_, Laws.Leaves.trans (Laws.Leaves.weaken hl _) (leaves_onCore _ _ _ _ fun _ => rfl)⟩
  · have h := (staysPut_switchUnit _ (s.ctx i).u).at (hgo th hth)
    unfold State.At State.warp at h ⊢
    unfold State.passOver
    rwa [onCore_warps]
  · unfold State.passOver
    rw [coreRegs_onCore, hcore, if_pos rfl]
    exact congrArg (fun r : Core => (s.focus, false) :: r.yielded) (hl.cores _)

/-- Settles O29: an exit retires its active threads for good and leaves the others as they were; a yield goes on and is passed
over (R22, R231, R232). -/
theorem exitAndYield : Obligations.ExitAndYield := by
  refine ⟨fun f s act hg hrec => ?_, fun f s act hg => ?_⟩
  · obtain ⟨-, hsub⟩ := active_of_gate hg
    refine ⟨s.exitThreads (s.ctx (.exitThread f)) act, ?_, ?_⟩
    · rw [exec_exitThread, syncInstr_go hg, if_neg]
      simp only [Bool.and_eq_true, Bool.not_eq_true', List.any_eq_true, not_and, not_exists]
      intro ht th hth r hr hb
      rcases hrec with h | h
      · simp [ht] at h
      · simp [h th hth r hr] at hb
    · obtain ⟨h1, h2⟩ := exit_retires hsub
      exact ⟨h1, h2, exit_leaves⟩
  · exact ⟨_, (exec_yield f s).trans (syncInstr_go hg _), yield_goes s _⟩

end Sys2Proof.Kernels

/-! # Taking a trap (O30: R33, R59, R396 to R398, R469) -/
namespace Sys2Proof.Kernels
open Sys2Proof Sys2Proof.Machine Sys2Proof.Laws

/-! ### A warp and the groups of a sliver after a change -/

theorem warp_onWarp_self {s : State} {wid : Nat} (h : s.warps.find wid ≠ none) (f : Warp → Warp) :
    (s.onWarp wid f).warp wid = f (s.warp wid) :=
  (warp_onWarp s wid wid f h).trans (if_pos rfl)

/-- Every group of a sliver is what a change of the sliver made of some group. -/
theorem mem_onSliver {l : List Group} {k : Nat} {f : Group → Group} {g : Group}
    (hg : g ∈ l.map fun g => if g.pos = 0 && g.sliver = k then f g else g) (hp : g.pos = 0) (hk : g.sliver = k) : ∃ x, g = f x := by
  obtain ⟨x, -, hx⟩ := List.mem_map.mp hg
  split at hx
  · exact ⟨x, hx.symm⟩
  · next hno =>
    subst hx
    exact absurd (by simp [hp, hk]) hno

/-- A warp parked under WATCHDOG (R398). -/
theorem watchdogPark_warp {s : State} {wid : Nat} (h : s.warps.find wid ≠ none) (k detail nested skip : Nat) :
    ∃ since, (s.watchdogPark wid k detail nested skip).warp wid =
      { s.warp wid with
        tcause := BitVec.ofNat 32 (cz 0x3A detail), tval := BitVec.ofNat 64 nested, wdogPark := true
        groups := (s.warp wid).groups.map fun g =>
          if g.pos = 0 && g.sliver = k then { g with st := .parked, skip := skip, since := since } else g } := by
  have hw : ∀ t : State, ∀ p, ((t.onPart p fun P => { P with wdog := min 255 (P.wdog + 1) }).raiseFq p).warp wid = t.warp wid :=
    fun t p => congrArg (fun x : Tbl Warp => x.getD wid noWarp) ((raiseFq_warps _ _).trans (onPart_warps _ _ _))
  refine ⟨(s.onWarp wid fun w => { w with
    tcause := BitVec.ofNat 32 (cz 0x3A detail), tval := BitVec.ofNat 64 nested, wdogPark := true }).warpTick wid, ?_⟩
  unfold State.watchdogPark
  dsimp only
  rw [hw, State.onSliver, warp_onWarp_self (find_onWarp_ne_none _ _ _ _ h), warp_onWarp_self h]

/-- The groups of a sliver parked under WATCHDOG. -/
theorem watchdogPark_parks {s : State} {wid : Nat} (h : s.warps.find wid ≠ none) (k detail nested skip : Nat) {g : Group}
    (hg : g ∈ ((s.watchdogPark wid k detail nested skip).warp wid).groups) (hp : g.pos = 0) (hk : g.sliver = k) : g.st = .parked := by
  obtain ⟨since, hw⟩ := watchdogPark_warp h k detail nested skip
  rw [hw] at hg
  obtain ⟨x, rfl⟩ := mem_onSliver hg hp hk
  rfl

/-! ### What a trap entry saves and takes back -/

theorem trapSaved_find {s : State} {wid : Nat} (h : s.warps.find wid ≠ none) (k : Nat) (tr : Trap) (at_ : Tgt) (hw : Word) (mix : Bool) :
    (trapSaved s wid k tr at_ hw mix).warps.find wid ≠ none := by
  refine find_onWarp_ne_none _ _ _ _ ?_
  rwa [withdraw_warps]

theorem trapSaved_warp {s : State} {wid : Nat} (h : s.warps.find wid ≠ none) (k : Nat) (tr : Trap) (at_ : Tgt) (hw : Word) (mix : Bool) :
    ∃ since, (trapSaved s wid k tr at_ hw mix).warp wid =
      Warp.saved (s.warp wid) ((s.warp wid).sliverLanes k) since (s.frameAt wid) (s.block (s.warp wid).bid).frame wid tr at_ hw mix := by
  have hm : ((dropFetches s wid ((s.warp wid).sliverLanes k)).withdraw wid ((s.warp wid).sliverLanes k)).warps = s.warps := withdraw_warps _ _ _
  have hm' : ((dropFetches s wid ((s.warp wid).sliverLanes k)).withdraw wid ((s.warp wid).sliverLanes k)).warp wid = s.warp wid :=
    congrArg (fun x : Tbl Warp => x.getD wid noWarp) hm
  refine ⟨((dropFetches s wid ((s.warp wid).sliverLanes k)).withdraw wid ((s.warp wid).sliverLanes k)).tickOf (s.warp wid).core, ?_⟩
  unfold trapSaved
  dsimp only
  rw [warp_onWarp_self (hm ▸ h), hm']

/-- A warp that the entry has written holds what a handler finds (R63, R68, R396, R397). -/
theorem saved_trapSaved (s : State) (wid : Nat) (w : Warp) (lanes : Word) (since : Nat) (tr : Trap) (at_ : Tgt) (hw : Word) (mix : Bool)
    (gs : List Group) : TrapSaved s wid lanes tr at_ hw mix
      { Warp.saved w lanes since (s.frameAt wid) (s.block (s.warp wid).bid).frame wid tr at_ hw mix with groups := gs } := by
  refine ⟨rfl, rfl, rfl, rfl, rfl, rfl, rfl, rfl, rfl, ?_, ?_⟩
  · exact (getD_put_ne _ _ _ (by decide)).trans (getD_put_same _ _ _ _)
  · exact getD_put_same _ _ _ _

theorem del_eq_filter {α : Type} (t : Tbl α) (q : Nat) : Tbl.del t q = t.filter fun p => decide (q ≠ p.1) := by
  induction t with
  | nil => rfl
  | cons x t ih =>
    obtain ⟨k, v⟩ := x
    by_cases h : q = k
    · subst h
      simp [Tbl.del, ih]
    · simp [Tbl.del, h, ih]

theorem mem_del {α : Type} (t : Tbl α) (q : Nat) (p : Nat × α) : p ∈ Tbl.del t q ↔ p ∈ t ∧ q ≠ p.1 := by
  rw [del_eq_filter, List.mem_filter, decide_eq_true_eq]

theorem takeBack_ops (s : State) (id : Nat) (o : EngineOp) : (s.takeBack id o).ops = s.ops.del id := by
  unfold State.takeBack
  dsimp only
  split <;> rfl

theorem takeBack_accs (s : State) (id : Nat) (o : EngineOp) : (s.takeBack id o).accs = s.accs := by
  unfold State.takeBack
  dsimp only
  split <;> rfl

theorem mem_takeBacks (l : List (Nat × EngineOp)) (s : State) (p : Nat × EngineOp) :
    p ∈ (l.foldl (fun s o => s.takeBack o.1 o.2) s).ops ↔ p ∈ s.ops ∧ ∀ q ∈ l, q.1 ≠ p.1 := by
  induction l generalizing s with
  | nil => simp
  | cons x l ih =>
    rw [List.foldl_cons, ih, takeBack_ops, mem_del, List.forall_mem_cons, and_assoc]

theorem withdraw_accs (s : State) (wid : Nat) (lanes : Word) : (s.withdraw wid lanes).accs = s.accs :=
  List.foldlRecOn (motive := fun t : State => t.accs = s.accs) _ _ rfl fun _ h _ _ => (takeBack_accs _ _ _).trans h

/-- The operations at issue of some lanes, and those alone, are taken back (log entry 93). -/
theorem tookBack_withdraw (s : State) (wid : Nat) (lanes : Word) : TookBack s wid lanes (s.withdraw wid lanes) := by
  have hmem : ∀ p, p ∈ (s.withdraw wid lanes).ops ↔ p ∈ s.ops ∧
      ∀ q ∈ s.ops, q.2.atIssue = true → q.2.wid = wid → lanes.getLsbD q.2.lane = true → q.1 ≠ p.1 := fun p => by
    unfold State.withdraw
    rw [mem_takeBacks]
    simp only [List.mem_filter, Bool.and_eq_true, decide_eq_true_eq, and_imp]
  refine ⟨fun p hp => ?_, fun p hp hno => (hmem p).mpr ⟨hp, fun q hq hi hw hl hk => ?_⟩⟩
  · obtain ⟨hs, hq⟩ := (hmem p).mp hp
    exact ⟨hs, fun hw hl => Bool.eq_false_iff.mpr fun hi => hq p hs hi hw hl rfl⟩
  · exact Bool.false_ne_true ((hno q hq hk hw hl).symm.trans hi)

theorem withdraw_none {s : State} {wid : Nat} {lanes : Word} (h : noneAtIssue s wid lanes) : s.withdraw wid lanes = s := by
  unfold State.withdraw
  rw [List.filter_eq_nil_iff.mpr]
  · rfl
  · rintro p hp hc
    simp only [Bool.and_eq_true, decide_eq_true_eq] at hc
    obtain ⟨⟨hi, hw⟩, hl⟩ := hc
    exact Bool.false_ne_true ((h p hp hw hl).symm.trans hi)

theorem accessesKept_dropFetches (s : State) (wid : Nat) (lanes : Word) : AccessesKept s (dropFetches s wid lanes) := by
  refine ⟨fun p hp => (List.mem_filter.mp hp).1, fun p hp hk => List.mem_filter.mpr ⟨hp, ?_⟩⟩
  simp [hk]

theorem leaves_dropFetches (s : State) (wid : Nat) (lanes : Word) : Leaves s (dropFetches s wid lanes) trapFrame where
  warps := sameTbl_refl _ _
  parts := sameTbl_refl _ _
  blocks := sameTbl_refl _ _
  gangs := sameTbl_refl _ _
  launches := sameTbl_refl _ _
  ops := sameTbl_refl _ _
  cores _ := rfl
  accs k _ := by
    cases (dropFetches s wid lanes).accs.find k <;> cases s.accs.find k <;> rfl
  upsets _ h _ := h
  rest := rfl

theorem leaves_onSliver (F : MayChange) (s : State) (wid k : Nat) (f : Group → Group) : Leaves s (s.onSliver wid k f) F :=
  leaves_onWarp F s wid _ fun _ => rfl

/-! ### The cases of a trap entry -/

/-- A header stands where a thread may land. -/
theorem headerAt_iff (s : State) (wid : Nat) (a : DWord) :
    s.headerAt (s.partOf wid) (s.asidOf wid) a = true ↔ canLand s { wid := wid, lane := 0 } a := by
  unfold State.headerAt canLand isHeader
  cases s.fetch (s.partOf wid) (s.asidOf wid) a <;> simp

/-- A warp's part enters its handler with everything saved (R396, R397). -/
theorem enterTrap_enters {s : State} {wid : Nat} (hf : s.warps.find wid ≠ none) (h0 : (s.warp wid).trapSet = 0) (k : Nat) (tr : Trap)
    (at_ : Tgt) (hw : Word) (mix : Bool) (skip : Nat) (hl : canLand s { wid := wid, lane := 0 } (s.handlerAt wid tr.cause)) :
    let lanes := (s.warp wid).sliverLanes k
    let t := s.enterTrap wid k tr at_ hw mix skip
    TrapSaved s wid lanes tr at_ hw mix (t.warp wid) ∧
    (∀ g ∈ (t.warp wid).groups, g.pos = 0 → g.sliver = k → g.pc = s.handlerAt wid tr.cause ∧ g.hdr = s.handlerAt wid tr.cause ∧ g.st = .running) ∧
    AccessesKept s t ∧ TookBack s wid lanes t ∧ (noneAtIssue s wid lanes → Leaves s t trapFrame) := by
  obtain ⟨since, hsaved⟩ := trapSaved_warp hf k tr at_ hw mix
  dsimp only
  rw [enterTrap_free h0, if_pos ((headerAt_iff s wid _).mpr hl)]
  refine ⟨?_, fun g hg hp hk => ?_, ?_, ?_, fun hno => ?_⟩
  · rw [State.onSliver, warp_onWarp_self (trapSaved_find hf k tr at_ hw mix), hsaved]
    exact saved_trapSaved s wid _ _ since tr at_ hw mix _
  · rw [State.onSliver, warp_onWarp_self (trapSaved_find hf k tr at_ hw mix)] at hg
    obtain ⟨x, rfl⟩ := mem_onSliver hg hp hk
    exact ⟨rfl, rfl, rfl⟩
  · unfold AccessesKept trapSaved
    simp only [onSliver_accs, onWarp_accs, withdraw_accs]
    exact accessesKept_dropFetches s wid _
  · unfold TookBack trapSaved
    simp only [onSliver_ops, onWarp_ops]
    exact tookBack_withdraw (dropFetches s wid _) wid _
  · refine Laws.Leaves.trans ?_ (leaves_onSliver _ _ _ _ _)
    unfold trapSaved
    rw [withdraw_none (s := dropFetches s wid _) hno]
    refine Laws.Leaves.trans (leaves_dropFetches s wid _) (leaves_onWarp _ _ _ _ ?_)
    exact fun _ => rfl

/-- Settles O30: in each of the four cases the shared trap entry does what R59, R396 to R398 say. -/
theorem takingATrap : Obligations.TakingATrap := by
  intro s wid k tr at_ hw mix skip hf
  dsimp only
  refine ⟨fun h0 hl => enterTrap_enters hf h0 k tr at_ hw mix skip hl, fun h0 (hl : ¬ canLand s _ (s.handlerAt wid tr.cause)) => ?_, fun h => ?_, fun h0 h => ?_⟩
  · obtain ⟨since, hsaved⟩ := trapSaved_warp hf k tr at_ hw mix
    have hfs := trapSaved_find hf k tr at_ hw mix
    obtain ⟨since', hpark⟩ := watchdogPark_warp hfs k 2 tr.cause skip
    rw [enterTrap_free h0, if_neg fun hh => hl ((headerAt_iff s wid _).mp hh)]
    refine ⟨?_, ?_, ?_, ?_, fun g => watchdogPark_parks hfs k 2 tr.cause skip⟩ <;> rw [hpark]
    rw [hsaved]
    rfl
  · obtain ⟨since, hpark⟩ := watchdogPark_warp hf k 0 tr.cause skip
    rw [enterTrap_nested h]
    refine ⟨?_, ?_, ?_, ?_, ?_, ?_, ?_, fun g => watchdogPark_parks hf k 0 tr.cause skip⟩ <;> rw [hpark]
  · rw [enterTrap_beside h h0, State.onSliver]
    refine ⟨?_, fun g hg hp hk => ?_, ?_⟩
    · rw [warp_onWarp_self (find_onWarp_ne_none _ _ _ _ hf), warp_onWarp_self hf]
    · rw [warp_onWarp_self (find_onWarp_ne_none _ _ _ _ hf), warp_onWarp_self hf] at hg
      obtain ⟨x, rfl⟩ := mem_onSliver hg hp hk
      rfl
    · refine Laws.Leaves.trans (leaves_onWarp _ s wid _ ?_) (leaves_onWarp _ _ wid _ ?_)
      · exact fun _ => rfl
      · exact fun _ => rfl

end Sys2Proof.Kernels

/-! # Replies and remote accesses (O45: R78, R80, R352)

What the statement lets a reply change, where a full L1 gives up a line for the reply's, leaves out the parameter pages: a line
with owned words of such a page is written back there. No store gets ownership of a word of a page that only reads; the statement
speaks of every state. -/
namespace Sys2Proof.Kernels
open Sys2Proof Sys2Proof.Machine Sys2Proof.Laws

section
variable {s : State} {L : L1Line} (hl : s.l1 = List.replicate Config.l1Lines L)
include hl

/-- An L1 that holds copies of one line alone does not hold another. -/
theorem l1Find_replicate {line : Nat} (hno : L.line ≠ line) (core p asid hid : Nat) : s.l1Find core p asid line hid = none := by
  unfold State.l1Find
  rw [hl, List.find?_replicate]
  simp [hno]

/-- A full L1 that holds copies of one line alone gives up that line. -/
theorem l1Room_replicate (hloose : s.l1Loose L = true) {core line : Nat} (hcore : L.core = core) (hno : L.line ≠ line)
    (p asid hid : Nat) : s.l1Room core p asid line hid = { s with freeCtr := s.freeCtr + 1 }.l1Evict L := by
  subst hcore
  have hmine : (s.l1.filter fun l => l.core = L.core) = List.replicate Config.l1Lines L := by
    rw [hl, List.filter_replicate, if_pos (by simp)]
  have hout : (List.replicate Config.l1Lines L).filter s.l1Loose = List.replicate Config.l1Lines L := by
    rw [List.filter_replicate, if_pos hloose]
  have hlt : Config.freeNat s.freeCtr % Config.l1Lines < Config.l1Lines := Nat.mod_lt _ (by decide)
  unfold State.l1Room
  dsimp only
  rw [l1Find_replicate hl hno, hmine, hout, List.length_replicate, List.getElem?_replicate, if_pos hlt]
  simp

end

/-- A reply that is no acquire's fills the copy under its id (R80). -/
theorem fillReply_fills {s : State} {a : Access} {hid : Nat} (hacq : a.acq = false) (hkind : a.kind ≠ .pref)
    (htag : (s.olderSnaps a).tagOf a = some hid) :
    s.fillReply a = (s.olderSnaps a).l1Fill a.core a.part a.asid (lineOf a.va) hid a.words a.snap := by
  simp only [State.fillReply, hacq, Bool.false_eq_true, if_false, htag, if_neg hkind]

/-- A line that comes new to an L1 touches a parameter page only where room is made for it. -/
theorem l1Fill_paramMem {s : State} {core p asid line hid : Nat} {acc : Word} {snap : List Byte}
    (hmerged : s.mergedBeside core p asid hid line = false) (hfind : s.l1Find core p asid line hid = none) (hsnap : snap ≠ []) :
    (s.l1Fill core p asid line hid acc snap).paramMem = (s.l1Room core p asid line hid).paramMem := by
  unfold State.l1Fill
  rw [hmerged, hfind, if_neg Bool.false_ne_true]
  dsimp only
  rw [if_neg hsnap]
  rfl

namespace ParamPageReply

/-- The line of a parameter page, with a word that core 0 owns and has written. -/
def held : L1Line := { core := 0, part := 0, asid := 0, line := 0, hid := 0, valid := 1, data := [(0, 1)], dirty := 1, owned := 1 }

/-- The answered load whose line the reply brings. -/
def load : Access :=
  { kind := .ld, iid := 1, wid := 0, core := 0, bid := 0, part := 0, asid := 0, lane := 0, lanes := 1, va := 640, size := 4
    snap := [0], st := .answered }

/-- Core 0's L1 is full of copies of a line of the launch's parameter page, page 0, and a load's reply brings another line. -/
def full : State :=
  { warps := [(0, noWarp)]
    launches := [(0, { part := 0, serial := 0, asid := 0, prio := 0, params := 0, pmem := 0, gangs := 1, desc := {}, src := .queue 0 })]
    parts := [(0, { tiles := [0], key := 0, b2 := { asids := [(0, 1)], homes := [(0, 0x8000)] } })]
    accs := [(1, load)]
    l1 := List.replicate Config.l1Lines held
    reg := [{ part := 0, asid := 0, line := 0, core := 0, mask := 1 }] }

/-- The eviction writes the owned byte back to the parameter page (R78, R352). -/
theorem evicted_paramMem : ((({ full.olderSnaps load with freeCtr := 1 } : State).l1Evict held).paramMem) = [(0, 1)] := by
  rfl

/-- The copies of the full L1 leave no room for the reply's line. -/
theorem full_l1 : (full.olderSnaps load).l1 = List.replicate Config.l1Lines held := rfl

/-- The reply's line takes the place of one of them. -/
theorem fillReply_paramMem : (full.fillReply load).paramMem = [(0, 1)] := by
  have hfind := l1Find_replicate full_l1 (line := 5) (by decide) 0 0 0 0
  have hroom := l1Room_replicate full_l1 rfl (core := 0) (line := 5) rfl (by decide) 0 0 0
  have htag : (full.olderSnaps load).tagOf load = some 0 := rfl
  have hmerged : (full.olderSnaps load).mergedBeside 0 0 0 0 5 = false := rfl
  have hfill : full.fillReply load = (full.olderSnaps load).l1Fill 0 0 0 5 0 load.words [0] :=
    fillReply_fills rfl nofun htag
  rw [hfill, l1Fill_paramMem hmerged hfind (List.cons_ne_nil _ _), hroom]
  exact evicted_paramMem

theorem delivered_load : full.delivered load = true := rfl

/-- The reply's state. -/
theorem exec_reply : exec (.loadReply 1) full = .next ((((full.fillReply load).returnValue load)).finish 1 load) := rfl

/-- No register takes the value, and the count falls. -/
theorem reply_paramMem (s : State) : ((s.returnValue load).finish 1 load).paramMem = s.paramMem := rfl

end ParamPageReply

theorem paramMem_of_leaves {s t : State} {id : Nat} (h : Leaves s t (evictFrame id)) : t.paramMem = s.paramMem :=
  (congrArg State.paramMem h.rest :)

/-- Refutes O45: where the L1 is full, a load's reply writes an owned word of a parameter page back there, which `evictFrame`, a
frame with no parameter pages, does not allow. -/
theorem not_repliesAndRemoteAccesses : ¬ Obligations.RepliesAndRemoteAccesses := by
  unfold Obligations.RepliesAndRemoteAccesses
  intro h
  obtain ⟨hreply, -⟩ := h
  have hclear : clearDst ParamPageReply.load := ⟨fun _ hx => (List.not_mem_nil hx).elim, List.nodup_nil, fun _ hx => (List.not_mem_nil hx).elim⟩
  obtain ⟨t, ht, -, -, -, -, hl, -⟩ := hreply ParamPageReply.full 1 ParamPageReply.load rfl rfl ParamPageReply.delivered_load hclear
    (Option.some_ne_none _) (.inl rfl)
  rw [ParamPageReply.exec_reply] at ht
  obtain rfl := Host.Outcome.next.inj ht
  have hp := paramMem_of_leaves hl
  rw [ParamPageReply.reply_paramMem, ParamPageReply.fillReply_paramMem] at hp
  exact List.cons_ne_nil _ _ hp

end Sys2Proof.Kernels

/-! # Translations and what they leave as it is (R381 to R385) -/
namespace Sys2Proof.Kernels
open Sys2Proof Sys2Proof.Machine Sys2Proof.Laws

/-- A walk has set access bits in the vaults and filled a TLB, and nothing else. -/
def Walked (s t : State) : Prop := ∃ v k b, t = { s with vault := v, seals := k, tlb := b }

theorem Walked.refl (s : State) : Walked s s := ⟨s.vault, s.seals, s.tlb, rfl⟩

theorem Walked.trans {s t u : State} (h : Walked s t) (g : Walked t u) : Walked s u := by
  obtain ⟨v, k, b, rfl⟩ := h
  obtain ⟨v', k', b', rfl⟩ := g
  exact ⟨v', k', b', rfl⟩

theorem markLeaf_walked (s : State) (P : Part) (a : Nat) (bit : DWord) : Walked s (s.markLeaf P a bit) := by
  unfold State.markLeaf
  split
  · next bs _ =>
    have hlen : ¬ (natLe 8 (BitVec.ofNat 64 (leNat bs) ||| bit).toNat).length = 128 := of_decide_eq_false rfl
    unfold State.wrFrame
    dsimp only
    rw [if_neg hlen]
    exact ⟨_, _, _, rfl⟩
  · exact .refl s

theorem markLeaf_tlb_walked {s t : State} (h : Walked s t) (P : Part) (a : Nat) (bit : DWord) (b : List TlbEntry) :
    Walked s { t.markLeaf P a bit with tlb := b } :=
  (h.trans (markLeaf_walked t P a bit)).trans ⟨_, _, _, rfl⟩

/-- A translation only walks. -/
theorem translate_walked (s : State) (p asid : Nat) (va : DWord) (kind : WalkKind) : Walked s (s.translate p asid va kind).1 := by
  unfold State.translate
  dsimp only
  split
  · split
    · split
      · exact .refl s
      · split
        · exact markLeaf_tlb_walked (.refl s) _ _ _ _
        · exact .refl s
    · exact .refl s
  · split
    · exact .refl s
    · split
      · split
        · exact .refl s
        · split
          · exact markLeaf_tlb_walked (.refl s) _ _ _ _
          · exact .refl s
      · split
        · exact markLeaf_tlb_walked (.refl s) _ _ _ _
        · split
          · exact markLeaf_tlb_walked (markLeaf_tlb_walked (.refl s) _ _ _ _) _ _ _ _
          · exact markLeaf_tlb_walked (.refl s) _ _ _ _

theorem fetchTouch_walked (s : State) (p asid : Nat) (va : DWord) : Walked s (s.fetchTouch p asid va) :=
  translate_walked s p asid va .fetch

theorem Walked.leaves {F : MayChange} (hF : ∀ (x : State) v k b, F.rest { x with vault := v, seals := k, tlb := b } = F.rest x)
    {s t : State} (h : Walked s t) : Leaves s t F := by
  obtain ⟨v, k, b, rfl⟩ := h
  exact leaves_plain (hF s.bare v k b) rfl rfl rfl rfl rfl rfl rfl rfl fun _ h _ => h

end Sys2Proof.Kernels

/-! # Groups of a sliver, their clause and their hold (R29, R32, R140) -/
namespace Sys2Proof.Kernels
open Sys2Proof Sys2Proof.Machine Sys2Proof.Laws

/-! ### Groups of slivers changed one sliver after the other -/

/-- A lane of a warp is in a running group of a sliver of which `P` holds. -/
def InSliver (P : Group → Prop) (lane k : Nat) (w : Warp) : Prop :=
  ∃ g ∈ w.groups, g.lanes.getLsbD lane = true ∧ g.pos = 0 ∧ g.sliver = k ∧ P g

/-- A change of a group that leaves its lanes and its place in its quad's queue. -/
def KeepsPlace (f : Group → Group) : Prop := ∀ g, (f g).lanes = g.lanes ∧ (f g).pos = g.pos ∧ (f g).sliver = g.sliver

theorem inSliver_onSliver {P : Group → Prop} {f : Group → Group} (hk : KeepsPlace f) (hP : ∀ g, P g → P (f g)) {s : State} {wid lane k : Nat}
    (a b : Nat) (h : InSliver P lane k (s.warp wid)) : InSliver P lane k ((s.onSliver a b f).warp wid) := by
  refine (WarpsBy.onWarp (r := fun w v => InSliver P lane k w → InSliver P lane k v) (fun _ h => h) s a _ fun w h => ?_).warp (fun h => h)
    wid h
  obtain ⟨g, hg, hl, hp, hs, hPg⟩ := h
  obtain ⟨h1, h2, h3⟩ := hk g
  refine ⟨_, List.mem_map_of_mem hg, ?_⟩
  split
  · exact ⟨h1 ▸ hl, h2.trans hp, h3.trans hs, hP g hPg⟩
  · exact ⟨hl, hp, hs, hPg⟩

theorem inSliver_onSliver_same {P : Group → Prop} {f : Group → Group} (hk : KeepsPlace f) (hP : ∀ g, P (f g)) {s : State} {wid lane k : Nat}
    (hf : s.warps.find wid ≠ none) (h : RunsIn (s.warp wid) lane k) : InSliver P lane k ((s.onSliver wid k f).warp wid) := by
  rw [State.onSliver, warp_onWarp_self hf]
  obtain ⟨g, hg, hl, hp, hs⟩ := h
  obtain ⟨h1, h2, h3⟩ := hk g
  refine ⟨_, List.mem_map_of_mem hg, ?_⟩
  rw [if_pos (by simp [hp, hs])]
  exact ⟨h1 ▸ hl, h2.trans hp, h3.trans hs, hP g⟩

/-- The groups of some parts changed, one part after the other. -/
def onParts (F : State → Nat × Nat → Group → Group) (s : State) (parts : List (Nat × Nat)) : State :=
  parts.foldl (fun s p => s.onSliver p.1 p.2 (F s p)) s

theorem find_onParts {F : State → Nat × Nat → Group → Group} {s : State} {wid : Nat} (parts : List (Nat × Nat)) (h : s.warps.find wid ≠ none) :
    (onParts F s parts).warps.find wid ≠ none :=
  List.foldlRecOn (motive := fun t : State => t.warps.find wid ≠ none) parts _ h fun t ht _ _ => find_onWarp_ne_none t _ _ _ ht

section
variable {F : State → Nat × Nat → Group → Group} (hk : ∀ s p, KeepsPlace (F s p))
include hk

theorem inSliver_onParts {P : Group → Prop} (hP : ∀ s p g, P g → P (F s p g)) {s : State} {wid lane k : Nat} (parts : List (Nat × Nat))
    (h : InSliver P lane k (s.warp wid)) : InSliver P lane k ((onParts F s parts).warp wid) :=
  List.foldlRecOn (motive := fun t : State => InSliver P lane k (t.warp wid)) parts _ h fun t ht p _ =>
    inSliver_onSliver (hk t p) (hP t p) p.1 p.2 ht

theorem runsIn_onParts {s : State} {wid lane k : Nat} (parts : List (Nat × Nat)) (h : RunsIn (s.warp wid) lane k) :
    RunsIn ((onParts F s parts).warp wid) lane k := by
  obtain ⟨g, hg, hl, hp, hs⟩ := h
  obtain ⟨x, hx, hl, hp, hs, -⟩ := inSliver_onParts (P := fun _ => True) hk (fun _ _ _ _ => trivial) parts ⟨g, hg, hl, hp, hs, trivial⟩
  exact ⟨x, hx, hl, hp, hs⟩

/-- Every lane of a changed part is in a group that the change made. -/
theorem inSliver_onParts_of_mem {P : Group → Prop} (hP : ∀ s p g, P (F s p g)) {s : State} {wid lane k : Nat} {parts : List (Nat × Nat)}
    (hm : (wid, k) ∈ parts) (hf : s.warps.find wid ≠ none) (h : RunsIn (s.warp wid) lane k) :
    InSliver P lane k ((onParts F s parts).warp wid) := by
  obtain ⟨l1, l2, rfl⟩ := List.append_of_mem hm
  unfold onParts
  rw [List.foldl_append, List.foldl_cons]
  refine inSliver_onParts hk (fun s p g _ => hP s p g) l2 ?_
  exact inSliver_onSliver_same (hk _ _) (hP _ _) (find_onParts l1 hf) (runsIn_onParts hk l1 h)

end

theorem leaves_onParts (M : MayChange) (F : State → Nat × Nat → Group → Group) (s : State) (parts : List (Nat × Nat)) :
    Leaves s (onParts F s parts) M :=
  leaves_foldl M _ (fun _ _ => leaves_onSliver M _ _ _ _) parts s

theorem staysPut_onSliver {f : Group → Group} (h : ∀ g, (f g).lanes = g.lanes ∧ (f g).pc = g.pc ∧ (f g).hdr = g.hdr ∧ (f g).depth = g.depth)
    (s : State) (wid k : Nat) : StaysPut s (s.onSliver wid k f) :=
  staysPut_onWarp s wid _ fun w => rearranged_map w w.nextSliver (fun g => if g.pos = 0 && g.sliver = k then f g else g) fun g => by
    split <;> [exact h g; trivial]

theorem staysPut_onParts {F : State → Nat × Nat → Group → Group}
    (h : ∀ s p g, (F s p g).lanes = g.lanes ∧ (F s p g).pc = g.pc ∧ (F s p g).hdr = g.hdr ∧ (F s p g).depth = g.depth) (s : State)
    (parts : List (Nat × Nat)) : StaysPut s (onParts F s parts) :=
  staysPut_foldl (fun s (p : Nat × Nat) => s.onSliver p.1 p.2 (F s p)) (fun s p => staysPut_onSliver (h s p) s p.1 p.2) parts s

/-- The running groups of a sliver hold its lanes. -/
theorem getLsbD_lanesOfGroups (l : List Group) (i : Nat) : (lanesOfGroups l).getLsbD i = true ↔ ∃ g ∈ l, g.lanes.getLsbD i = true := by
  have h : ∀ (l : List Group) (m : Word), (l.foldl (fun m g => m ||| g.lanes) m).getLsbD i = true ↔
      m.getLsbD i = true ∨ ∃ g ∈ l, g.lanes.getLsbD i = true := by
    intro l
    induction l with
    | nil => simp
    | cons g l ih => intro m; simp [ih, or_assoc]
  unfold lanesOfGroups
  rw [h]
  simp

theorem runsIn_of_sliverLanes {w : Warp} {k lane : Nat} (h : (w.sliverLanes k).getLsbD lane = true) : RunsIn w lane k := by
  obtain ⟨g, hg, hl⟩ := (getLsbD_lanesOfGroups _ _).mp h
  obtain ⟨hm, hp⟩ := List.mem_filter.mp hg
  simp only [Bool.and_eq_true, decide_eq_true_eq] at hp
  exact ⟨g, hm, hl, hp.1, hp.2⟩

theorem find_of_runsIn {s : State} {wid lane k : Nat} (h : RunsIn (s.warp wid) lane k) : s.warps.find wid ≠ none := fun hn => by
  obtain ⟨g, hg, -⟩ := h
  have hw : s.warp wid = noWarp := by unfold State.warp Tbl.getD; rw [hn]; rfl
  rw [hw] at hg
  exact List.not_mem_nil hg

/-! ### Parts held at a rejoin header (R28, R29) -/

/-- The groups that a hold makes of those of a part. -/
def holdGroup (s : State) (p : Nat × Nat) (g : Group) : Group := { g with st := .held, since := s.warpTick p.1 }

/-- A quad switch point of some parts. -/
def switchParts (s : State) (parts : List (Nat × Nat)) : State := parts.foldl (fun s p => s.onWarp p.1 fun w => w.switchPoint p.2) s

theorem holdParts_eq (s : State) (parts : List (Nat × Nat)) :
    s.holdParts parts = (switchParts (onParts holdGroup s parts) parts).tidyMixed := rfl

theorem switchParts_requeued (s : State) (parts : List (Nat × Nat)) : WarpsBy Requeued s (switchParts s parts) :=
  foldl_inv (WarpsBy Requeued) (WarpsBy.refl .refl) (fun _ _ _ => WarpsBy.trans Requeued.trans) _
    (fun s (p : Nat × Nat) => WarpsBy.onWarp .refl s p.1 _ fun w => switchPoint_requeued w p.2) parts s

/-- A group with a lane, of which something holds that the quads' queues have no part in, is still there when they turn. -/
theorem Requeued.exists_group {P : Group → Prop} (hP : ∀ g g', unplaced g = unplaced g' → P g' → P g) {w v : Warp} (h : Requeued w v)
    {lane : Nat} (hg : ∃ g ∈ w.groups, g.lanes.getLsbD lane = true ∧ P g) : ∃ g ∈ v.groups, g.lanes.getLsbD lane = true ∧ P g := by
  obtain ⟨-, f, hf, hk⟩ := h
  obtain ⟨g, hg, hl, hPg⟩ := hg
  have hlane : (f g).lanes = g.lanes := (congrArg Group.lanes (hk g) :)
  exact ⟨f g, hf ▸ List.mem_map_of_mem hg, hlane ▸ hl, hP _ _ (hk g) hPg⟩

theorem staysPut_switchParts (s : State) (parts : List (Nat × Nat)) : StaysPut s (switchParts s parts) :=
  staysPut_foldl (fun s (p : Nat × Nat) => s.onWarp p.1 fun w => w.switchPoint p.2)
    (fun s p => staysPut_onWarp s p.1 _ fun w => (switchPoint_requeued w p.2).rearranged) parts s

theorem staysPut_holdParts (s : State) (parts : List (Nat × Nat)) : StaysPut s (s.holdParts parts) := by
  refine ((staysPut_onParts (F := holdGroup) ?_ s parts).trans (staysPut_switchParts _ _)).trans (staysPut_tidyMixed _)
  exact fun _ _ _ => ⟨rfl, rfl, rfl, rfl⟩

theorem keepsPlace_holdGroup (s : State) (p : Nat × Nat) : KeepsPlace (holdGroup s p) := fun _ => ⟨rfl, rfl, rfl⟩

/-- Every lane of a held part is in a held group. -/
theorem holdParts_held {s : State} {wid lane k : Nat} {parts : List (Nat × Nat)} (hm : (wid, k) ∈ parts) (h : RunsIn (s.warp wid) lane k) :
    ∃ g ∈ ((s.holdParts parts).warp wid).groups, g.lanes.getLsbD lane = true ∧ g.st = .held := by
  obtain ⟨g, hg, hl, -, -, hst⟩ := inSliver_onParts_of_mem (P := fun g => g.st = .held) keepsPlace_holdGroup (fun _ _ _ => rfl) hm
    (find_of_runsIn h) h
  exact ((switchParts_requeued _ parts).warp (.refl _) wid).exists_group
    (fun g g' he h => ((congrArg Group.st he :) : g.st = g'.st).trans h) ⟨g, hg, hl, hst⟩

/-- A part held by itself is held since now. -/
theorem holdPart_since {s : State} {wid lane k : Nat} (h : RunsIn (s.warp wid) lane k) :
    ∃ g ∈ ((s.holdParts [(wid, k)]).warp wid).groups, g.lanes.getLsbD lane = true ∧ g.st = .held ∧ g.since = s.warpTick wid := by
  obtain ⟨g, hg, hl, -, -, hst, hsi⟩ := inSliver_onSliver_same (P := fun g => g.st = .held ∧ g.since = s.warpTick wid)
    (keepsPlace_holdGroup s (wid, k)) (fun _ => ⟨rfl, rfl⟩) (find_of_runsIn h) h
  exact ((switchParts_requeued _ [(wid, k)]).warp (.refl _) wid).exists_group
    (fun g g' he h => ⟨((congrArg Group.st he :) : g.st = g'.st).trans h.1, ((congrArg Group.since he :) : g.since = g'.since).trans h.2⟩)
    ⟨g, hg, hl, hst, hsi⟩

end Sys2Proof.Kernels

/-! # The end of a rejoin hold (R29 to R31) -/
namespace Sys2Proof.Kernels
open Sys2Proof Sys2Proof.Machine Sys2Proof.Laws

/-! ### Lists of groups -/

theorem mem_insertPos (g x : Group) (l : List Group) : x ∈ insertPos g l ↔ x = g ∨ x ∈ l := by
  induction l with
  | nil => simp [insertPos]
  | cons h t ih =>
    unfold insertPos
    split
    · simp
    · rw [List.mem_cons, ih, List.mem_cons]
      tauto

theorem mem_foldr_insertPos (x : Group) (l : List Group) : x ∈ l.foldr insertPos [] ↔ x ∈ l := by
  induction l with
  | nil => rfl
  | cons g l ih => rw [List.foldr_cons, mem_insertPos, ih, List.mem_cons]

/-- A group renumbered in its quad's queue: a running one stays, and no other field changes. -/
def Renumbered (g x : Group) : Prop := { x with pos := 0 } = { g with pos := 0 } ∧ (g.pos = 0 → x.pos = 0)

theorem mem_renumber {g : Group} {l : List Group} (h : g ∈ l) (q n : Nat) : ∃ x ∈ renumber q l n, Renumbered g x := by
  induction l generalizing n with
  | nil => exact absurd h List.not_mem_nil
  | cons a l ih =>
    unfold renumber
    rcases List.mem_cons.mp h with rfl | h
    · split
      · next hc =>
        simp only [Bool.and_eq_true, decide_eq_true_eq] at hc
        exact ⟨_, List.mem_cons_self, rfl, fun h0 => absurd h0 (Nat.pos_iff_ne_zero.mp hc.2)⟩
      · exact ⟨g, List.mem_cons_self, rfl, id⟩
    · split
      · obtain ⟨x, hx, hr⟩ := ih h (n + 1)
        exact ⟨x, List.mem_cons_of_mem _ hx, hr⟩
      · obtain ⟨x, hx, hr⟩ := ih h n
        exact ⟨x, List.mem_cons_of_mem _ hx, hr⟩

theorem mem_renumberAll {g : Group} (qs : List Nat) {l : List Group} (h : g ∈ l) :
    ∃ x ∈ qs.foldl (fun gs q => renumber q gs 1) l, Renumbered g x :=
  List.foldlRecOn (motive := fun gs : List Group => ∃ x ∈ gs, Renumbered g x) qs _ ⟨g, h, rfl, id⟩ fun gs ⟨x, hx, h1, h2⟩ q _ => by
    obtain ⟨y, hy, h3, h4⟩ := mem_renumber hx q 1
    exact ⟨y, hy, h3.trans h1, fun h0 => h4 (h2 h0)⟩

/-! ### Groups that fuse with released ones (R30) -/

/-- What a release leaves of a group: a group at its place with its lanes, which goes on where the group's hold ends. -/
structure ReleasedAs (w : Warp) (ended : Group → Bool) (g x : Group) : Prop where
  lanes : ∀ l, g.lanes.getLsbD l = true → x.lanes.getLsbD l = true
  pc : x.pc = g.pc
  hdr : x.hdr = g.hdr
  depth : x.depth = g.depth
  goes : ended g = true → x.st = .running ∧ x.passed = true
  pos : g.pos = 0 → x.pos = 0
  trap : g.pos = 0 → ended g = true → w.trapGroup x = w.trapGroup g

theorem and_ne_zero_iff (a b : Word) : a &&& b ≠ 0 ↔ ∃ i, a.getLsbD i = true ∧ b.getLsbD i = true := by
  refine ⟨fun h => ?_, fun ⟨i, ha, hb⟩ h => ?_⟩
  · by_contra hno
    refine h (BitVec.eq_of_getLsbD_eq fun i _ => ?_)
    rw [BitVec.getLsbD_and]
    exact (Bool.eq_false_iff.mpr fun hi => hno ⟨i, Bool.and_eq_true_iff.mp hi⟩).trans BitVec.getLsbD_zero.symm
  · have hi := congrArg (fun x : Word => x.getLsbD i) h
    simp [ha, hb] at hi

theorem trapGroup_lanes {w : Warp} {g x : Group} (h : x.lanes = g.lanes) : w.trapGroup x = w.trapGroup g := by
  unfold Warp.trapGroup
  rw [h]

/-- Groups that agree on trap mode are together as each of them. -/
theorem trapGroup_union {w : Warp} {g x : Group} {l : List Group} (hl : ∀ y ∈ l, w.trapGroup y = w.trapGroup g)
    (hx : x.lanes = lanesOfGroups (g :: l)) : w.trapGroup x = w.trapGroup g := by
  have hor : ∀ y : Group, w.trapGroup y = true ↔ ∃ i, w.trapSet.getLsbD i = true ∧ y.lanes.getLsbD i = true := fun y => by
    unfold Warp.trapGroup
    rw [decide_eq_true_eq, and_ne_zero_iff]
  rw [Bool.eq_iff_iff, hor, hx]
  refine ⟨fun ⟨i, ht, hi⟩ => ?_, fun hg => ?_⟩
  · obtain ⟨y, hy, hyi⟩ := (getLsbD_lanesOfGroups _ _).mp hi
    have hty := (hor y).mpr ⟨i, ht, hyi⟩
    rcases List.mem_cons.mp hy with rfl | hy
    · exact hty
    · rwa [hl y hy] at hty
  · obtain ⟨i, ht, hi⟩ := (hor g).mp hg
    exact ⟨i, ht, (getLsbD_lanesOfGroups _ _).mpr ⟨g, List.mem_cons_self, hi⟩⟩

/-- A running group whose hold ends, with the deferred groups that fuse with it. -/
def headGroup (w : Warp) (g : Group) : Group := { g.release with lanes := lanesOfGroups (g :: w.groups.filter fun x => w.fusesWith g x) }

/-- What a fusion needs: the same place, and the same side of trap mode. -/
theorem fusesWith_same {w : Warp} {h g : Group} (hf : w.fusesWith h g = true) :
    0 < g.pos ∧ g.pc = h.pc ∧ g.hdr = h.hdr ∧ g.depth = h.depth ∧ w.trapGroup g = w.trapGroup h := by
  simp only [Warp.fusesWith, Bool.and_eq_true, decide_eq_true_eq] at hf
  obtain ⟨⟨⟨⟨⟨⟨hp, -⟩, hpc⟩, hhdr⟩, hd⟩, -⟩, ht⟩ := hf
  exact ⟨hp, hpc, hhdr, hd, ht⟩

theorem headGroup_trap (w : Warp) (g : Group) : w.trapGroup (headGroup w g) = w.trapGroup g := by
  refine trapGroup_union (l := w.groups.filter fun x => w.fusesWith g x) (fun y hy => ?_) rfl
  obtain ⟨-, -, -, -, ht⟩ := fusesWith_same (List.mem_filter.mp hy).2
  exact ht

/-- Every group of a warp is still there, or in the group that has taken its lanes. -/
theorem absorb_released (w : Warp) (ended : Group → Bool) {g : Group} (hg : g ∈ w.groups) :
    ∃ x ∈ (w.absorb ended).groups, ReleasedAs w ended g x := by
  have hnum : ∀ y, y ∈ ((w.groups.filter fun g => !((w.groups.filter fun g => g.pos = 0 && ended g).any fun h => w.fusesWith h g)).map
      fun g => if g.pos = 0 && ended g then headGroup w g else if ended g then g.release else g) →
      ∃ x ∈ (w.absorb ended).groups, Renumbered y x := fun y hy =>
    mem_renumberAll (List.range 8) ((mem_foldr_insertPos _ _).mpr hy)
  have hkeep : ∀ {y x : Group}, Renumbered y x → ReleasedAs w ended g y → ReleasedAs w ended g x := fun {y x} ⟨he, h0⟩ r =>
    have hl : x.lanes = y.lanes := (congrArg Group.lanes he :)
    { lanes := fun l h => hl ▸ r.lanes l h
      pc := ((congrArg Group.pc he :) : x.pc = y.pc).trans r.pc
      hdr := ((congrArg Group.hdr he :) : x.hdr = y.hdr).trans r.hdr
      depth := ((congrArg Group.depth he :) : x.depth = y.depth).trans r.depth
      goes := fun h => ⟨((congrArg Group.st he :) : x.st = y.st).trans (r.goes h).1,
        ((congrArg Group.passed he :) : x.passed = y.passed).trans (r.goes h).2⟩
      pos := fun h => h0 (r.pos h)
      trap := fun h h' => (trapGroup_lanes hl).trans (r.trap h h') }
  by_cases hgone : ((w.groups.filter fun g => g.pos = 0 && ended g).any fun h => w.fusesWith h g) = true
  · obtain ⟨h, hh, hf⟩ := List.any_eq_true.mp hgone
    obtain ⟨hhg, hhe⟩ := List.mem_filter.mp hh
    obtain ⟨h0, -⟩ := Bool.and_eq_true_iff.mp hhe
    obtain ⟨hp, hpc, hhdr, hd, -⟩ := fusesWith_same hf
    have hstay : ((w.groups.filter fun g => g.pos = 0 && ended g).any fun x => w.fusesWith x h) = false := by
      rw [List.any_eq_false]
      intro x _ hx
      obtain ⟨hp, -⟩ := fusesWith_same hx
      exact absurd (of_decide_eq_true h0) (Nat.pos_iff_ne_zero.mp hp)
    obtain ⟨x, hx, hr⟩ := hnum (headGroup w h) (List.mem_map.mpr ⟨h, List.mem_filter.mpr ⟨hhg, by simp [hstay]⟩, if_pos hhe⟩)
    refine ⟨x, hx, hkeep hr ⟨fun l hl => ?_, hpc.symm, hhdr.symm, hd.symm, fun _ => ⟨rfl, rfl⟩, fun h0 => ?_, fun h0 => ?_⟩⟩
    · exact (getLsbD_lanesOfGroups _ _).mpr ⟨g, List.mem_cons_of_mem _ (List.mem_filter.mpr ⟨hg, hf⟩), hl⟩
    · exact absurd h0 (Nat.pos_iff_ne_zero.mp hp)
    · exact absurd h0 (Nat.pos_iff_ne_zero.mp hp)
  · have hy := hnum _ (List.mem_map_of_mem (List.mem_filter.mpr ⟨hg, by simpa using hgone⟩))
    obtain ⟨x, hx, hr⟩ := hy
    refine ⟨x, hx, hkeep hr ?_⟩
    split
    · exact ⟨fun l hl => (getLsbD_lanesOfGroups _ _).mpr ⟨g, List.mem_cons_self, hl⟩, rfl, rfl, rfl, fun _ => ⟨rfl, rfl⟩, id,
        fun _ _ => headGroup_trap w g⟩
    · split
      · exact ⟨fun _ h => h, rfl, rfl, rfl, fun _ => ⟨rfl, rfl⟩, id, fun _ _ => rfl⟩
      · next hne => exact ⟨fun _ h => h, rfl, rfl, rfl, fun h => absurd h hne, id, fun _ _ => rfl⟩

/-! ### Released parts at one place (R30) -/

/-- A group that fuses with others at a place: call depth and side of trap mode besides its header. -/
def fusesAt (w : Warp) (k : DWord × Nat × Bool) (g : Group) : Bool :=
  g.pos = 0 && g.passed && g.st = .running && g.pc = k.1 && g.hdr = k.1 && g.depth = k.2.1 && w.trapGroup g = k.2.2

/-- The groups at one place become one sliver. -/
def fuseStep (w : Warp) (k : DWord × Nat × Bool) : Warp :=
  match w.groups.find? (fusesAt w k) with
  | none => w
  | some h => { w with groups := w.groups.map fun g => if fusesAt w k g then { g with sliver := h.sliver } else g }

theorem fuseAt_eq (w : Warp) (keys : List (DWord × Nat × Bool)) : w.fuseAt keys = keys.foldl fuseStep w := rfl

/-- A warp whose groups have at most changed their slivers. -/
def Reslivered (w v : Warp) : Prop := SameStill w v ∧ ∃ f : Group → Group, v.groups = w.groups.map f ∧ ∀ g, { f g with sliver := 0 } = { g with sliver := 0 }

theorem Reslivered.refl (w : Warp) : Reslivered w w := ⟨rfl, id, (List.map_id _).symm, fun _ => rfl⟩

theorem Reslivered.trans (a b c : Warp) (h : Reslivered a b) (g : Reslivered b c) : Reslivered a c := by
  obtain ⟨hs, f, hf, hk⟩ := h
  obtain ⟨gs, e, he, ek⟩ := g
  exact ⟨SameStill.trans a b c hs gs, e ∘ f, by rw [he, hf, List.map_map], fun x => (ek (f x)).trans (hk x)⟩

theorem fuseStep_reslivered (w : Warp) (k : DWord × Nat × Bool) : Reslivered w (fuseStep w k) := by
  unfold fuseStep
  split
  · exact .refl w
  · exact ⟨rfl, _, rfl, fun g => by split <;> rfl⟩

theorem fuseAt_reslivered (w : Warp) (keys : List (DWord × Nat × Bool)) : Reslivered w (w.fuseAt keys) :=
  foldl_inv Reslivered .refl .trans _ fuseStep_reslivered keys w

/-- What fuses does not depend on slivers. -/
theorem fusesAt_congr {w v : Warp} (h : SameStill w v) {g x : Group} (hx : { x with sliver := 0 } = { g with sliver := 0 })
    (k : DWord × Nat × Bool) : fusesAt v k x = fusesAt w k g := by
  have hset : v.trapSet = w.trapSet := (congrArg Warp.trapSet h :)
  have hgroup : fusesAt v k x = fusesAt v k { x with sliver := 0 } := rfl
  rw [hgroup, hx]
  unfold fusesAt Warp.trapGroup
  rw [hset]

/-- The groups at a place are in one sliver. -/
def Fused (k : DWord × Nat × Bool) (w : Warp) : Prop :=
  ∀ x ∈ w.groups, ∀ y ∈ w.groups, fusesAt w k x = true → fusesAt w k y = true → x.sliver = y.sliver

/-- A group has one place. -/
theorem fusesAt_inj {w : Warp} {g : Group} {k j : DWord × Nat × Bool} (hk : fusesAt w k g = true) (hj : fusesAt w j g = true) : k = j := by
  simp only [fusesAt, Bool.and_eq_true, decide_eq_true_eq] at hk hj
  obtain ⟨⟨⟨-, h1⟩, h2⟩, h3⟩ := hk
  obtain ⟨⟨⟨-, g1⟩, g2⟩, g3⟩ := hj
  exact Prod.ext (h1.symm.trans g1) (Prod.ext (h2.symm.trans g2) (h3.symm.trans g3))

/-- A fusion at some place keeps what has fused, and one at the place itself makes it. -/
theorem fused_fuseStep {w : Warp} {k j : DWord × Nat × Bool} (h : j ≠ k → Fused k w) : Fused k (fuseStep w j) := by
  have hat := fun g => fusesAt_congr (w := w) (v := fuseStep w j) (fuseStep_reslivered w j).1 (g := g) (x := g) rfl
  intro x hx y hy hfx hfy
  rw [hat] at hfx hfy
  unfold fuseStep at hx hy
  split at hx
  · next hnone =>
    rw [hnone] at hy
    by_cases hjk : j = k
    · subst hjk
      exact absurd hfx (List.find?_eq_none.mp hnone x hx)
    · exact h hjk x hx y hy hfx hfy
  · next g hsome =>
    rw [hsome] at hy
    obtain ⟨x0, hx0, hxe⟩ := List.mem_map.mp hx
    obtain ⟨y0, hy0, hye⟩ := List.mem_map.mp hy
    have hsame : ∀ {z z0 : Group}, (if fusesAt w j z0 then { z0 with sliver := g.sliver } else z0) = z → fusesAt w k z = fusesAt w k z0 := by
      intro z z0 hz
      refine fusesAt_congr rfl ?_ k
      subst hz
      split <;> rfl
    rw [hsame hxe] at hfx
    rw [hsame hye] at hfy
    by_cases hjk : j = k
    · subst hjk
      rw [← hxe, ← hye, if_pos hfx, if_pos hfy]
    · have hne : ∀ {z : Group}, fusesAt w k z = true → ¬ fusesAt w j z = true := fun hz hj => hjk (fusesAt_inj hj hz)
      rw [← hxe, ← hye, if_neg (hne hfx), if_neg (hne hfy)]
      exact h hjk x0 hx0 y0 hy0 hfx hfy

theorem fused_foldl {k : DWord × Nat × Bool} {keys : List (DWord × Nat × Bool)} {w : Warp} (h : k ∈ keys ∨ Fused k w) :
    Fused k (keys.foldl fuseStep w) := by
  induction keys generalizing w with
  | nil => exact h.resolve_left List.not_mem_nil
  | cons j keys ih =>
    rw [List.foldl_cons]
    refine ih ?_
    rcases h with h | h
    · by_cases hjk : j = k
      · exact .inr (fused_fuseStep fun hne => absurd hjk hne)
      · exact .inl ((List.mem_cons.mp h).resolve_left fun he => hjk he.symm)
    · exact .inr (fused_fuseStep fun _ => h)

/-- Released parts at one place are one sliver. -/
theorem fused_fuseAt (w : Warp) {k : DWord × Nat × Bool} {keys : List (DWord × Nat × Bool)} (h : k ∈ keys) : Fused k (w.fuseAt keys) :=
  fused_foldl (.inl h)

/-! ### A release as a whole -/

theorem absorb_still (w : Warp) (ended : Group → Bool) : SameStill w (w.absorb ended) := rfl

theorem releaseHeld_still (w : Warp) (ended : Group → Bool) : SameStill w (w.releaseHeld ended) :=
  SameStill.trans _ _ _ (absorb_still w ended) (fuseAt_reslivered _ _).1

/-- Every group of a warp is, after a release, where it was, and goes on where its hold has ended. -/
theorem releaseHeld_released (w : Warp) (ended : Group → Bool) {g : Group} (hg : g ∈ w.groups) :
    ∃ x ∈ (w.releaseHeld ended).groups, ReleasedAs w ended g x := by
  obtain ⟨x, hx, hr⟩ := absorb_released w ended hg
  obtain ⟨-, f, hf, hk⟩ := fuseAt_reslivered (w.absorb ended) (((w.groups.filter ended).map fun g => (g.pc, g.depth, w.trapGroup g)).eraseDups)
  refine ⟨f x, ?_, ?_⟩
  · unfold Warp.releaseHeld
    rw [hf]
    exact List.mem_map_of_mem hx
  · have hl : (f x).lanes = x.lanes := (congrArg Group.lanes (hk x) :)
    exact
      { lanes := fun l h => hl ▸ hr.lanes l h
        pc := ((congrArg Group.pc (hk x) :) : (f x).pc = x.pc).trans hr.pc
        hdr := ((congrArg Group.hdr (hk x) :) : (f x).hdr = x.hdr).trans hr.hdr
        depth := ((congrArg Group.depth (hk x) :) : (f x).depth = x.depth).trans hr.depth
        goes := fun h => ⟨((congrArg Group.st (hk x) :) : (f x).st = x.st).trans (hr.goes h).1,
          ((congrArg Group.passed (hk x) :) : (f x).passed = x.passed).trans (hr.goes h).2⟩
        pos := fun h => ((congrArg Group.pos (hk x) :) : (f x).pos = x.pos).trans (hr.pos h)
        trap := fun h h' => (trapGroup_lanes hl).trans (hr.trap h h') }

/-- A released warp's threads stand where they stood. -/
theorem releaseHeld_stands (w : Warp) (ended : Group → Bool) {l : Nat} {tg : Tgt} (h : StandsAt w l tg) : StandsAt (w.releaseHeld ended) l tg := by
  obtain ⟨g, hg, hl, hpc, hhdr, hd⟩ := h
  obtain ⟨x, hx, hr⟩ := releaseHeld_released w ended hg
  exact ⟨x, hx, hr.lanes l hl, hr.pc.trans hpc, hr.hdr.trans hhdr, hr.depth.trans hd⟩

/-- Two running groups at one header, whose holds end, are one sliver then (R30). -/
theorem releaseHeld_fuses {w : Warp} {ended : Group → Bool} {g h : Group} (hg : g ∈ w.groups) (hh : h ∈ w.groups) (eg : ended g = true)
    (eh : ended h = true) (pg : g.pos = 0) (ph : h.pos = 0) (cg : g.pc = g.hdr) (ch : h.pc = h.hdr) (hpc : g.pc = h.pc)
    (hd : g.depth = h.depth) (ht : w.trapGroup g = w.trapGroup h) :
    ∃ x ∈ (w.releaseHeld ended).groups, ∃ y ∈ (w.releaseHeld ended).groups, ReleasedAs w ended g x ∧ ReleasedAs w ended h y ∧
      x.sliver = y.sliver := by
  obtain ⟨x, hx, rx⟩ := releaseHeld_released w ended hg
  obtain ⟨y, hy, ry⟩ := releaseHeld_released w ended hh
  have hkey : (g.pc, g.depth, w.trapGroup g) ∈ ((w.groups.filter ended).map fun g => (g.pc, g.depth, w.trapGroup g)).eraseDups :=
    List.mem_eraseDups.mpr (List.mem_map_of_mem (List.mem_filter.mpr ⟨hg, eg⟩))
  have hset : (w.releaseHeld ended).trapSet = w.trapSet := (congrArg Warp.trapSet (releaseHeld_still w ended) :)
  have hat : ∀ {a b : Group}, ReleasedAs w ended a b → a.pos = 0 → ended a = true → a.pc = a.hdr → a.pc = g.pc → a.depth = g.depth →
      w.trapGroup a = w.trapGroup g → fusesAt (w.releaseHeld ended) (g.pc, g.depth, w.trapGroup g) b = true := by
    intro a b r p e c hc hdep htr
    have htb : (w.releaseHeld ended).trapGroup b = w.trapGroup b := by unfold Warp.trapGroup; rw [hset]
    obtain ⟨hst, hpass⟩ := r.goes e
    simp only [fusesAt, Bool.and_eq_true, decide_eq_true_eq]
    exact ⟨⟨⟨⟨⟨⟨r.pos p, hpass⟩, hst⟩, r.pc.trans hc⟩, r.hdr.trans (c.symm.trans hc)⟩, r.depth.trans hdep⟩, htb.trans ((r.trap p e).trans htr)⟩
  exact ⟨x, hx, y, hy, rx, ry, fused_fuseAt (w.absorb ended) hkey x hx y hy (hat rx pg eg cg rfl rfl rfl)
    (hat ry ph eh ch hpc.symm hd.symm ht.symm)⟩

/-! ### Mixed warps that form at a release (R31) -/

/-- A warp whose threads stand where they stood, and of which nothing but groups has changed. -/
def Standing (w v : Warp) : Prop := SameStill w v ∧ ∀ l tg, StandsAt w l tg → StandsAt v l tg

theorem Standing.refl (w : Warp) : Standing w w := ⟨rfl, fun _ _ h => h⟩

theorem Standing.trans (a b c : Warp) (h : Standing a b) (g : Standing b c) : Standing a c :=
  ⟨SameStill.trans a b c h.1 g.1, fun l tg hs => g.2 l tg (h.2 l tg hs)⟩

theorem releaseHeld_standing (w : Warp) (ended : Group → Bool) : Standing w (w.releaseHeld ended) :=
  ⟨releaseHeld_still w ended, fun _ _ => releaseHeld_stands w ended⟩

theorem mem_insertAge (x y : Nat × Warp) (l : List (Nat × Warp)) : y ∈ insertAge x l ↔ y = x ∨ y ∈ l := by
  induction l with
  | nil => simp [insertAge]
  | cons a l ih =>
    unfold insertAge
    split
    · simp
    · rw [List.mem_cons, ih, List.mem_cons]
      tauto

theorem mem_foldr_insertAge (y : Nat × Warp) (l : List (Nat × Warp)) : y ∈ l.foldr insertAge [] ↔ y ∈ l := by
  induction l with
  | nil => rfl
  | cons a l ih => rw [List.foldr_cons, mem_insertAge, ih, List.mem_cons]

/-- The parts that a mixed warp takes beside its first are of other home warps. -/
theorem mixParts_others (s : State) (wid k : Nat) : ∀ p ∈ (s.mixParts wid k).drop 1, p.1 ≠ wid := by
  unfold State.mixParts
  dsimp only
  split
  · exact fun p hp => absurd hp List.not_mem_nil
  · refine List.foldlRecOn (motive := fun r : List (Nat × Nat) × List Nat => r.1 ≠ [] ∧ ∀ p ∈ r.1.drop 1, p.1 ≠ wid) _ _
      ⟨List.cons_ne_nil _ _, fun p hp => absurd hp List.not_mem_nil⟩ (fun r hr q hq => ?_) |>.2
    obtain ⟨hne, hr⟩ := hr
    split
    · exact ⟨hne, hr⟩
    · refine ⟨fun h => hne (List.append_eq_nil_iff.mp h).1, fun p hp => ?_⟩
      rw [List.drop_append_of_le_length (List.length_pos_iff.mpr hne), List.mem_append] at hp
      rcases hp with hp | hp
      · exact hr p hp
      · obtain rfl := List.mem_singleton.mp hp
        obtain ⟨x, hx, hq⟩ := List.mem_flatMap.mp hq
        obtain ⟨j, -, rfl⟩ := List.mem_map.mp hq
        have hx := (List.mem_filter.mp ((mem_foldr_insertAge _ _).mp hx)).2
        exact of_decide_eq_true (Bool.and_eq_true_iff.mp hx).1

/-- The slivers that a mixed warp takes are released. -/
def takeParts (s : State) (parts : List (Nat × Nat)) : State :=
  parts.foldl (fun s p => s.onWarp p.1 fun w => w.releaseHeld fun g => g.pos = 0 && g.sliver = p.2 && g.st = .held) s

theorem takeParts_standing (s : State) (parts : List (Nat × Nat)) : WarpsBy Standing s (takeParts s parts) :=
  foldl_inv (WarpsBy Standing) (WarpsBy.refl .refl) (fun _ _ _ => WarpsBy.trans Standing.trans) _
    (fun s (p : Nat × Nat) => WarpsBy.onWarp .refl s p.1 _ fun w => releaseHeld_standing w _) parts s

theorem takeParts_leaves (F : MayChange) (s : State) (parts : List (Nat × Nat)) : Leaves s (takeParts s parts) F :=
  leaves_foldl F _ (fun s (p : Nat × Nat) => leaves_onWarp F s p.1 _ fun w => congrArg F.warp (releaseHeld_still w _)) parts s

theorem takeParts_warp {s : State} {wid : Nat} {parts : List (Nat × Nat)} (h : ∀ p ∈ parts, p.1 ≠ wid) :
    (takeParts s parts).warp wid = s.warp wid :=
  List.foldlRecOn (motive := fun t : State => t.warp wid = s.warp wid) parts _ rfl fun _ ht p hp =>
    (warp_onWarp_ne _ _ (h p hp).symm).trans ht

/-- A mixed warp forms, or not. -/
theorem formMixed_cases (s : State) (wid k : Nat) : s.formMixed wid k = s ∨
    ∃ m, s.formMixed wid k = { takeParts s ((s.mixParts wid k).drop 1) with mixed := m } := by
  unfold State.formMixed
  dsimp only
  split
  · exact .inl rfl
  · exact .inr ⟨_, rfl⟩

/-- A release changes its home warp by itself, and of others moves no thread. -/
theorem release_spec (F : MayChange) (s : State) (wid : Nat) (mix : Bool) (ended : Group → Bool) (hf : s.warps.find wid ≠ none) :
    (s.release wid mix ended).warp wid = (s.warp wid).releaseHeld ended ∧ WarpsBy Standing s (s.release wid mix ended) ∧
    Leaves s (s.release wid mix ended) F := by
  have hone : ∀ t : State, ∀ k, (t.formMixed wid k).warp wid = t.warp wid ∧ WarpsBy Standing t (t.formMixed wid k) ∧
      Leaves t (t.formMixed wid k) F := fun t k => by
    rcases formMixed_cases t wid k with h | ⟨m, h⟩ <;> rw [h]
    · exact ⟨rfl, WarpsBy.refl .refl t, Laws.Leaves.refl t F⟩
    · exact ⟨takeParts_warp (mixParts_others t wid k), takeParts_standing t _,
        Laws.Leaves.trans (takeParts_leaves F t _) (leaves_plain rfl rfl rfl rfl rfl rfl rfl rfl rfl fun _ h _ => h)⟩
  have hstart : (s.onWarp wid fun w => w.releaseHeld ended).warp wid = (s.warp wid).releaseHeld ended ∧
      WarpsBy Standing s (s.onWarp wid fun w => w.releaseHeld ended) ∧ Leaves s (s.onWarp wid fun w => w.releaseHeld ended) F :=
    ⟨warp_onWarp_self hf _, WarpsBy.onWarp .refl s wid _ fun w => releaseHeld_standing w ended,
      leaves_onWarp F s wid _ fun w => congrArg F.warp (releaseHeld_still w ended)⟩
  have hfold : ∀ l : List Nat, let t := l.foldl (fun s k => s.formMixed wid k) (s.onWarp wid fun w => w.releaseHeld ended)
      t.warp wid = (s.warp wid).releaseHeld ended ∧ WarpsBy Standing s t ∧ Leaves s t F := fun l =>
    List.foldlRecOn (motive := fun t : State => t.warp wid = (s.warp wid).releaseHeld ended ∧ WarpsBy Standing s t ∧ Leaves s t F)
      l _ hstart fun t ⟨h1, h2, h3⟩ k _ => by
        obtain ⟨g1, g2, g3⟩ := hone t k
        exact ⟨g1.trans h1, WarpsBy.trans Standing.trans h2 g2, Laws.Leaves.trans h3 g3⟩
  unfold State.release
  dsimp only
  cases mix
  · obtain ⟨h1, h2, h3⟩ := hstart
    exact ⟨h1, h2, Laws.Leaves.trans h3 (leaves_tidyMixed F _)⟩
  · obtain ⟨h1, h2, h3⟩ := hfold ((s.onWarp wid fun w => w.releaseHeld ended).warp wid).releasedSlivers
    exact ⟨h1, h2, Laws.Leaves.trans h3 (leaves_tidyMixed F _)⟩

end Sys2Proof.Kernels

/-! # Clauses, rejoin holds and swaps (O47: R28 to R32, R41, R44, R138, R140) -/
namespace Sys2Proof.Kernels
open Sys2Proof Sys2Proof.Machine Sys2Proof.Laws

/-! ### Entering a clause -/

/-- A clause's first and last page have been looked up for its fetch. -/
def clauseTouched (s : State) (p asid : Nat) (u : IssueUnit) (h : Word) : State :=
  (s.fetchTouch p asid u.hdr).fetchTouch p asid (u.hdr + BitVec.ofNat 64 (4 * clauseN h))

theorem clauseTouched_walked (s : State) (p asid : Nat) (u : IssueUnit) (h : Word) : Walked s (clauseTouched s p asid u h) :=
  (fetchTouch_walked s p asid _).trans (fetchTouch_walked _ p asid _)

theorem Walked.sameGroups {s t : State} (h : Walked s t) : SameGroups s t := by
  obtain ⟨v, k, b, rfl⟩ := h
  exact fun _ => rfl

theorem Walked.allPassed {s t : State} (h : Walked s t) (u : IssueUnit) : t.allPassed u = s.allPassed u := by
  obtain ⟨v, k, b, rfl⟩ := h
  rfl

theorem Walked.leavers {s t : State} (h : Walked s t) (u : IssueUnit) : t.leavers u = s.leavers u := by
  obtain ⟨v, k, b, rfl⟩ := h
  rfl

theorem Walked.warpTick {s t : State} (h : Walked s t) (wid : Nat) : t.warpTick wid = s.warpTick wid := by
  obtain ⟨v, k, b, rfl⟩ := h
  rfl

theorem Walked.warps {s t : State} (h : Walked s t) : t.warps = s.warps := by
  obtain ⟨v, k, b, rfl⟩ := h
  rfl

theorem Walked.warp {s t : State} (h : Walked s t) (wid : Nat) : t.warp wid = s.warp wid :=
  congrArg (fun x : Tbl Warp => x.getD wid noWarp) h.warps

/-- A clause whose words decode is entered, where no rejoin header holds the unit (R140). -/
theorem clauseFetch_decodes {s : State} {u : IssueUnit} {m : Nat × Nat} {l : List (Nat × Nat)} {h : Word} {code : List Word}
    (hm : u.mem = m :: l) (hf1 : s.flipping (s.partOf m.1) (s.asidOf m.1) u.hdr = false)
    (hf2 : s.flipping (s.partOf m.1) (s.asidOf m.1) (u.hdr + BitVec.ofNat 64 (4 * clauseN h)) = false)
    (hh : s.fetch (s.partOf m.1) (s.asidOf m.1) u.hdr = .ok h) (hhdr : isHeader h = true) (hhf : headerFault h = none)
    (hw : s.clauseWords (s.partOf m.1) (s.asidOf m.1) (u.hdr + 4) (clauseN h) = (code, none))
    (hcf : clauseFault (clauseN h) (clauseClass h) 1 code = none) :
    s.clauseFetch u = let t := clauseTouched s (s.partOf m.1) (s.asidOf m.1) u h
      ((if isRejoin h && !(t.allPassed u) then t.rejoinHold u else none).getD (t.enterClause u h code)) := by
  unfold State.clauseFetch clauseTouched
  rw [hm]
  simp only [hf1, hf2, hh, hhdr, hhf, hw, hcf, Bool.false_eq_true, if_false, Bool.not_true]
  split <;> simp_all

/-- What the unit's groups are once it has entered its clause. -/
def enterGroup (u : IssueUnit) (h : Word) (code : List Word) (g : Group) : Group :=
  { g with pc := u.hdr + 4, hw := h, code := code, st := .running, waits := true }

theorem enterClause_warp (s : State) (u : IssueUnit) (h : Word) (code : List Word) (wid : Nat) :
    (s.enterClause u h code).warp wid = (onParts (fun _ _ => enterGroup u h code) s u.mem).warp wid := by
  unfold State.enterClause
  dsimp only
  split
  · exact congrArg (fun x : Tbl Warp => x.getD wid noWarp) (onCore_warps _ _ _)
  · rfl

theorem enterClause_leaves (s : State) (u : IssueUnit) (h : Word) (code : List Word) :
    Leaves s (s.enterClause u h code) { homeFrame with core := fun r => { r with yielded := [] } } := by
  have hset : Leaves s (onParts (fun _ _ => enterGroup u h code) s u.mem) { homeFrame with core := fun r => { r with yielded := [] } } :=
    leaves_onParts _ _ _ _
  unfold State.enterClause
  dsimp only
  split
  · exact Laws.Leaves.trans hset (leaves_onCore _ _ _ _ fun _ => rfl)
  · exact hset

/-- Every thread of the unit that enters stands at the clause's first word, its header's waits still to be met. -/
theorem enterClause_groups {s t : State} (ht : Walked s t) {f : Focus} (h : Word) (code : List Word) {th : Th}
    (hth : th ∈ (s.unitAt f).th) : ∃ g ∈ ((t.enterClause (s.unitAt f) h code).warp th.wid).groups, g.lanes.getLsbD th.lane = true ∧
      g.pc = (s.unitAt f).hdr + 4 ∧ g.hw = h ∧ g.code = code ∧ g.st = .running ∧ g.waits = true := by
  obtain ⟨k, hk, hw, hr⟩ := inPart_of_mem s f hth
  obtain ⟨g, hg, hl, -, -, hP⟩ := inSliver_onParts_of_mem (s := t) (F := fun _ _ => enterGroup (s.unitAt f) h code)
    (P := fun g => g.pc = (s.unitAt f).hdr + 4 ∧ g.hw = h ∧ g.code = code ∧ g.st = .running ∧ g.waits = true)
    (fun _ _ _ => ⟨rfl, rfl, rfl⟩) (fun _ _ _ => ⟨rfl, rfl, rfl, rfl, rfl⟩) hk (ht.warps ▸ hw) (ht.warp th.wid ▸ hr)
  rw [enterClause_warp]
  exact ⟨g, hg, hl, hP⟩

/-- A unit of one home warp is held at a rejoin header (R29). -/
theorem rejoinHold_one {s : State} {u : IssueUnit} {m : Nat × Nat} (hm : u.mem = [m]) : s.rejoinHold u = some (s.holdParts [m]) := by
  unfold State.rejoinHold
  rw [hm]

/-- A mixed warp goes on where no home warp has a part held there. -/
theorem rejoinHold_none {s : State} {u : IssueUnit} {m : Nat × Nat} {l : List (Nat × Nat)} (hm : u.mem = m :: l) (hl : l ≠ [])
    (hno : s.leavers u = []) : s.rejoinHold u = none := by
  obtain ⟨q, l', rfl⟩ := List.exists_cons_of_ne_nil hl
  unfold State.rejoinHold
  rw [hm, hno]

/-- The parts of a mixed warp that stay at its rejoin header leave it (R32). -/
def leaveMixed (s : State) (u : IssueUnit) : State :=
  { s with mixed := s.mixed.map fun m =>
      if m.parts = u.mem then { m with parts := m.parts.filter fun p => !((s.leavers u).contains p) } else m }

theorem rejoinHold_mixed {s : State} {u : IssueUnit} {m : Nat × Nat} {l : List (Nat × Nat)} (hm : u.mem = m :: l) (hl : l ≠ [])
    (hls : s.leavers u ≠ []) : s.rejoinHold u =
      some (((leaveMixed s u).passParts (u.mem.filter fun p => !((s.leavers u).contains p))).holdParts (s.leavers u)) := by
  obtain ⟨q, l', rfl⟩ := List.exists_cons_of_ne_nil hl
  obtain ⟨x, xs, hx⟩ := List.exists_cons_of_ne_nil hls
  unfold State.rejoinHold leaveMixed
  rw [hm, hx]

/-- Groups go on past their rejoin header. -/
theorem staysPut_passParts (s : State) (parts : List (Nat × Nat)) : StaysPut s (s.passParts parts) := by
  refine staysPut_onParts (F := fun _ _ g => { g with passed := true }) ?_ s parts
  exact fun _ _ _ => ⟨rfl, rfl, rfl, rfl⟩

theorem staysPut_leaveMixed (s : State) (u : IssueUnit) : StaysPut s (leaveMixed s u) :=
  staysPut_plain rfl (leaves_plain rfl rfl rfl rfl rfl rfl rfl rfl rfl fun _ h _ => h)

section
variable {s : State} {m : Nat × Nat} {l : List (Nat × Nat)} {h : Word} {code : List Word}

/-- A clause that its unit enters. -/
theorem clauseFetch_enters (hm : s.unit.mem = m :: l) {t : State} (ht : Walked s t) (hno : isRejoin h = false ∨ s.allPassed s.unit = true ∨ (l ≠ [] ∧ s.leavers s.unit = [])) :
    (if isRejoin h && !(t.allPassed s.unit) then t.rejoinHold s.unit else none) = none := by
  rw [ht.allPassed]
  rcases hno with hr | hp | ⟨hl, hno⟩
  · simp [hr]
  · simp [hp]
  · rw [rejoinHold_none hm hl (ht.leavers _ ▸ hno), ite_self]

/-- A unit of one home warp that its rejoin header holds stands where it stood. -/
theorem hold_one {t : State} (ht : Walked s t) (hm : s.unit.mem = [m]) :
    (∀ th tg, s.At th tg → (t.holdParts [m]).At th tg) ∧
    (∀ th ∈ s.unit.th, ∃ g ∈ ((t.holdParts [m]).warp th.wid).groups, g.lanes.getLsbD th.lane = true ∧ g.st = .held ∧
      g.since = s.warpTick m.1) ∧
    Leaves s (t.holdParts [m]) homeFrame := by
  refine ⟨fun th tg hs => (staysPut_holdParts t [m]).at (ht.sameGroups.at hs), fun th hth => ?_,
    Laws.Leaves.trans (ht.leaves fun _ _ _ _ => rfl) (Laws.Leaves.weaken (staysPut_holdParts t [m]).leaves _)⟩
  obtain ⟨k, hk, -, hr⟩ := inPart_of_mem s s.focus hth
  obtain rfl : (th.wid, k) = m := List.mem_singleton.mp (hm ▸ hk)
  obtain ⟨g, hg, hl, hst, hsi⟩ := holdPart_since (s := t) (ht.warp th.wid ▸ hr)
  exact ⟨g, hg, hl, hst, hsi.trans (ht.warpTick _)⟩

/-- The parts that a rejoin header holds of a mixed warp. -/
theorem hold_leavers {t : State} (ht : Walked s t) (u : IssueUnit) :
    let r := ((leaveMixed t u).passParts (u.mem.filter fun p => !((t.leavers u).contains p))).holdParts (t.leavers u)
    (∀ th tg, s.At th tg → r.At th tg) ∧
    (∀ q ∈ s.leavers u, ∀ lane, ((s.warp q.1).sliverLanes q.2).getLsbD lane = true →
      ∃ g ∈ (r.warp q.1).groups, g.lanes.getLsbD lane = true ∧ g.st = .held) ∧
    Leaves s r homeFrame := by
  dsimp only
  have hpass := (staysPut_leaveMixed t u).trans (staysPut_passParts (leaveMixed t u) (u.mem.filter fun p => !((t.leavers u).contains p)))
  have hall := hpass.trans (staysPut_holdParts _ (t.leavers u))
  refine ⟨fun th tg hs => hall.at (ht.sameGroups.at hs), fun q hq lane hlane => ?_,
    Laws.Leaves.trans (ht.leaves fun _ _ _ _ => rfl) (Laws.Leaves.weaken hall.leaves _)⟩
  refine holdParts_held (k := q.2) (ht.leavers u ▸ hq) ?_
  refine runsIn_onParts (F := fun _ _ g => { g with passed := true }) (s := leaveMixed t u) ?_ _ ?_
  · exact fun _ _ _ => ⟨rfl, rfl, rfl⟩
  · exact (ht.warp q.1).symm ▸ runsIn_of_sliverLanes hlane

end

theorem exec_clauseFetch (s : State) : exec .clauseFetch s = .next (s.clauseFetch s.unit) := rfl

/-- A fetch that finds no header at a header's place traps (R140). -/
theorem clauseFetch_notHeader {s : State} {u : IssueUnit} {m : Nat × Nat} {l : List (Nat × Nat)} {h : Word} (hm : u.mem = m :: l)
    (hf : s.flipping (s.partOf m.1) (s.asidOf m.1) u.hdr = false) (hh : s.fetch (s.partOf m.1) (s.asidOf m.1) u.hdr = .ok h)
    (hno : isHeader h = false) : s.clauseFetch u = s.takeTrap u { cause := cz 0x01 1, tval := u.hdr, mask := u.th } 1 := by
  unfold State.clauseFetch
  rw [hm]
  simp only [hf, hh, hno, Bool.false_eq_true, if_false, Bool.not_false, if_true]
  rfl

/-! ### The end of a hold -/

theorem exec_rejoinRelease (s : State) (wid : Nat) (mix : Bool) : exec (.rejoinRelease wid mix) s =
    .next (if (s.warp wid).rejoinDue then s.release wid mix (s.warp wid).holdOver else s) := rfl

theorem exec_rejoinTimeout (s : State) (wid k : Nat) : exec (.rejoinTimeout wid k) s =
    .next (match (s.warp wid).groups.find? fun g => g.sliver = k && s.holdLate wid g with
      | some h => ({ s with freeCtr := s.freeCtr + 1 } : State).release wid (Config.freeBool s.freeCtr) fun g => g.st = .held && g.hdr = h.hdr
      | none => s) := rfl

theorem find_of_group {s : State} {wid : Nat} {g : Group} (h : g ∈ (s.warp wid).groups) : s.warps.find wid ≠ none := fun hn => by
  have hw : s.warp wid = noWarp := by unfold State.warp Tbl.getD; rw [hn]; rfl
  rw [hw] at h
  exact List.not_mem_nil h

theorem Standing.at {s t : State} (h : WarpsBy Standing s t) {th : Th} {tg : Tgt} (hs : s.At th tg) : t.At th tg :=
  (h.warp (.refl _) th.wid).2 _ _ hs

/-- A hold of the warp that is over: what its release leaves (R29, R30). -/
theorem rejoinRelease_releases {s : State} {wid : Nat} (mix : Bool) (h : (s.warp wid).rejoinDue = true) :
    ∃ t, exec (.rejoinRelease wid mix) s = .next t ∧ (t.warp wid) = (s.warp wid).releaseHeld (s.warp wid).holdOver ∧
      WarpsBy Standing s t ∧ Leaves s t := by
  obtain ⟨g, hg, -⟩ := List.any_eq_true.mp h
  obtain ⟨h1, h2, h3⟩ := release_spec {} s wid mix (s.warp wid).holdOver (find_of_group hg)
  refine ⟨_, ?_, h1, h2, h3⟩
  rw [exec_rejoinRelease, if_pos h]

/-- A hold that has lasted too long: every part held at its header is released (R29). -/
theorem rejoinTimeout_releases {s : State} {wid k : Nat} {hdr : DWord} (h : ∃ g ∈ (s.warp wid).groups, g.sliver = k ∧ s.holdLate wid g = true)
    (hall : ∀ g ∈ (s.warp wid).groups, g.sliver = k → s.holdLate wid g = true → g.hdr = hdr) :
    ∃ t, exec (.rejoinTimeout wid k) s = .next t ∧
      (t.warp wid) = (s.warp wid).releaseHeld (fun g => g.st = .held && g.hdr = hdr) ∧ WarpsBy Standing s t ∧
      Leaves s t { rest := fun x => { x with freeCtr := 0 } } := by
  obtain ⟨g, hg, hk, hlate⟩ := h
  cases hfind : (s.warp wid).groups.find? fun g => g.sliver = k && s.holdLate wid g with
  | none => exact absurd (by simp [hk, hlate]) (List.find?_eq_none.mp hfind g hg)
  | some x =>
    have hx := List.find?_some hfind
    simp only [Bool.and_eq_true, decide_eq_true_eq] at hx
    have hhdr := hall x (List.mem_of_find?_eq_some hfind) hx.1 hx.2
    obtain ⟨h1, h2, h3⟩ := release_spec { rest := fun x => { x with freeCtr := 0 } } { s with freeCtr := s.freeCtr + 1 } wid
      (Config.freeBool s.freeCtr) (fun g => g.st = .held && g.hdr = hdr) (find_of_group hg)
    have h0 : Leaves s { s with freeCtr := s.freeCtr + 1 } { rest := fun x => { x with freeCtr := 0 } } :=
      leaves_plain rfl rfl rfl rfl rfl rfl rfl rfl rfl fun _ h _ => h
    subst hhdr
    refine ⟨_, ?_, h1, h2, Laws.Leaves.trans h0 h3⟩
    rw [exec_rejoinTimeout, hfind]

/-! ### Swaps (R41, R44) -/

theorem exec_warpSwap (s : State) (core : Nat) : exec (.warpSwap core) s =
    .next (match s.firstDep ((s.coreWarpIds core true).filter s.longDep), leastBy (s.readyPending core) with
      | some out, some (in_, _) => s.swapWarps out in_
      | _, _ => s) := rfl

theorem exec_pendingWarpPromote (s : State) (core : Nat) : exec (.pendingWarpPromote core) s =
    .next (match leastBy (s.readyPending core), s.longestActive core with
      | some (in_, t), some out => if t + 448 ≤ s.tickOf core then s.swapWarps out in_ else s
      | _, _ => s) := rfl

theorem mem_of_leastBy {l : List (Nat × Nat)} {x : Nat × Nat} (h : leastBy l = some x) : x ∈ l := by
  induction l generalizing x with
  | nil => cases h
  | cons a l ih =>
    unfold leastBy at h
    split at h
    · cases h
      exact List.mem_cons_self
    · next y hy =>
      split at h <;> cases h
      · exact List.mem_cons_self
      · exact List.mem_cons_of_mem _ (ih hy)

theorem mem_of_firstDep {s : State} {l : List Nat} {x : Nat} (h : s.firstDep l = some x) : x ∈ l := by
  induction l generalizing x with
  | nil => cases h
  | cons a l ih =>
    unfold State.firstDep at h
    split at h
    · cases h
      exact List.mem_cons_self
    · next y hy =>
      split at h <;> cases h
      · exact List.mem_cons_self
      · exact List.mem_cons_of_mem _ (ih hy)

theorem above_of_mem {α : Type} {b : Nat} {t : Tbl α} (h : Tbl.above b t = true) {k : Nat} {x : α} (hm : (k, x) ∈ t) : b < k := by
  induction t with
  | nil => exact absurd hm List.not_mem_nil
  | cons p t ih =>
    simp only [Tbl.above, Bool.and_eq_true, decide_eq_true_eq] at h
    rcases List.mem_cons.mp hm with rfl | hm
    · exact h.1
    · exact ih h.2 hm

/-- A sorted table finds what it lists. -/
theorem find_of_mem {α : Type} {t : Tbl α} (h : Tbl.sorted t = true) {k : Nat} {x : α} (hm : (k, x) ∈ t) : t.find k = some x := by
  induction t with
  | nil => exact absurd hm List.not_mem_nil
  | cons p t ih =>
    simp only [Tbl.sorted, Bool.and_eq_true] at h
    rw [Tbl.find]
    rcases List.mem_cons.mp hm with rfl | hm
    · exact if_pos rfl
    · rw [if_neg (Nat.ne_of_gt (above_of_mem h.1 hm))]
      exact ih h.2 hm

/-- A warp that a core lists in its active set, or outside it. -/
theorem coreWarpIds_spec {s : State} (h : Tbl.sorted s.warps = true) {core wid : Nat} {active : Bool} (hm : wid ∈ s.coreWarpIds core active) :
    ∃ w, s.warps.find wid = some w ∧ w.core = core ∧ w.inActive = active := by
  obtain ⟨⟨k, w⟩, hx, rfl⟩ := List.mem_map.mp hm
  obtain ⟨hx, hc⟩ := List.mem_filter.mp hx
  simp only [Bool.and_eq_true, decide_eq_true_eq] at hc
  obtain ⟨⟨⟨hcore, hact⟩, -⟩, -⟩ := hc
  exact ⟨w, find_of_mem h hx, hcore, hact⟩

theorem readyPending_mem {s : State} {core wid n : Nat} (h : (wid, n) ∈ s.readyPending core) : wid ∈ s.coreWarpIds core false := by
  obtain ⟨k, hk, he⟩ := List.mem_filterMap.mp h
  cases hp : (s.warp k).pendReady with
  | none => simp [hp] at he
  | some n' =>
    rw [hp] at he
    obtain ⟨rfl, -⟩ := Prod.mk.inj (Option.some.inj he)
    exact hk

/-- What a swap leaves: R41 and R44's change of places. -/
def Swapped (s : State) (core out inn : Nat) (t : State) : Prop :=
  (t.warp out).inActive = false ∧ (t.warp inn).inActive = true ∧ (t.warp inn).activeSince = s.tickOf core ∧
  (∀ wid, wid ≠ out → wid ≠ inn → t.warps.find wid = s.warps.find wid) ∧ (∀ th tg, s.At th tg → t.At th tg) ∧
  Leaves s t { warp := fun w => { w with inActive := false, activeSince := 0, pendReady := none, readySince := [] } }

theorem tickOf_onWarp (s : State) (wid core : Nat) (f : Warp → Warp) : (s.onWarp wid f).tickOf core = s.tickOf core := by
  unfold State.onWarp
  split <;> rfl

/-- An active warp and a pending one of a core change places. -/
theorem swapWarps_swapped {s : State} {core out inn : Nat} (ho : ∃ w, s.warps.find out = some w ∧ w.core = core ∧ w.inActive = true)
    (hi : ∃ w, s.warps.find inn = some w ∧ w.core = core ∧ w.inActive = false) : Swapped s core out inn (s.swapWarps out inn) := by
  obtain ⟨v, hv, -, hva⟩ := ho
  obtain ⟨w, hw, hwc, hwa⟩ := hi
  have hne : out ≠ inn := fun he => by
    subst he
    rw [hv] at hw
    obtain rfl := Option.some.inj hw
    exact Bool.false_ne_true (hwa.symm.trans hva)
  have hfo : s.warps.find out ≠ none := hv ▸ Option.some_ne_none v
  have hfi : (s.toPending out).warps.find inn ≠ none := find_onWarp_ne_none _ _ _ _ (hw ▸ Option.some_ne_none w)
  have hin : (s.toPending out).warp inn = w := (warp_onWarp_ne _ _ hne.symm).trans (by
    show s.warp inn = w
    rw [State.warp, Tbl.getD, hw]
    rfl)
  have hat : ∀ (t : State) (k : Nat) (f : Warp → Warp), (∀ w, (f w).groups = w.groups) → ∀ {th tg}, t.At th tg → (t.onWarp k f).At th tg :=
    fun t k f hf _ _ h => SameGroups.at (fun j => groups_onWarp t k f hf j) h
  unfold State.swapWarps State.toActive
  refine ⟨?_, ?_, ?_, fun wid h1 h2 => ?_, fun th tg h => ?_, ?_⟩
  · rw [warp_onWarp_ne _ _ hne, State.toPending, warp_onWarp_self (s := s.dissolve _) hfo]
  · rw [warp_onWarp_self hfi]
  · rw [warp_onWarp_self hfi, hin, hwc]
    exact tickOf_onWarp _ _ _ _
  · rw [onWarp_find, if_neg h2, State.toPending, onWarp_find, if_neg h1]
    rfl
  · refine hat _ _ _ ?_ (hat _ _ _ ?_ ((staysPut_dissolve s _).at h))
    · exact fun _ => rfl
    · exact fun _ => rfl
  · refine Laws.Leaves.trans (Laws.Leaves.trans (leaves_dissolve _ s _) (leaves_onWarp _ _ _ _ ?_)) (leaves_onWarp _ _ _ _ ?_)
    · exact fun _ => rfl
    · exact fun _ => rfl

/-- Settles O47: R28 to R32, R41, R44, R138, R140, clause by clause. -/
theorem clausesRejoinsAndSwaps : Obligations.ClausesRejoinsAndSwaps := by
  refine ⟨fun s m l h code => ?_, fun s m l h hm hf hh hno => ?_, fun s wid mix hdue => ?_, fun s wid k hdr hex hall => ?_,
    fun s core out inn n hsorted hleast => ?_⟩
  · dsimp only
    intro hm hf1 hf2 hh hhdr hhf hw hcf
    have hexec := fun r (hr : s.clauseFetch s.unit = r) => (exec_clauseFetch s).trans (congrArg Host.Outcome.next hr)
    have hdec := clauseFetch_decodes hm hf1 hf2 hh hhdr hhf hw hcf
    have ht := clauseTouched_walked s (s.partOf m.1) (s.asidOf m.1) s.unit h
    dsimp only at hdec
    refine ⟨fun hgo => ?_, fun hr hp hl => ?_, fun hr hp hl hls => ?_⟩
    · rw [clauseFetch_enters hm ht hgo] at hdec
      exact ⟨_, hexec _ hdec, fun th hth => enterClause_groups ht h code hth,
        Laws.Leaves.trans (ht.leaves fun _ _ _ _ => rfl) (enterClause_leaves _ _ _ _)⟩
    · subst hl
      rw [ht.allPassed, hr, hp, rejoinHold_one hm] at hdec
      exact ⟨_, hexec _ hdec, hold_one ht hm⟩
    · rw [ht.allPassed, hr, hp, rejoinHold_mixed hm hl (ht.leavers _ ▸ hls)] at hdec
      exact ⟨_, hexec _ hdec, hold_leavers ht s.unit⟩
  · exact (exec_clauseFetch s).trans (congrArg Host.Outcome.next (clauseFetch_notHeader hm hf hh hno))
  · obtain ⟨t, ht, hw, hst, hl⟩ := rejoinRelease_releases mix hdue
    refine ⟨t, ht, fun th tg => Standing.at hst, fun g hg he lane hlane => ?_, fun g hg h hh eg eh pg ph cg ch hpc hd htr i j hi hj => ?_, hl⟩
    · obtain ⟨x, hx, hr⟩ := releaseHeld_released (s.warp wid) (s.warp wid).holdOver hg
      exact ⟨x, hw ▸ hx, hr.lanes lane hlane, (hr.goes he).1, (hr.goes he).2, hr.pc, hr.depth⟩
    · obtain ⟨x, hx, y, hy, rx, ry, hs⟩ := releaseHeld_fuses hg hh eg eh pg ph cg ch hpc hd htr
      exact ⟨x, hw ▸ hx, y, hw ▸ hy, rx.lanes i hi, ry.lanes j hj, hs, rx.pc, ry.pc.trans hpc.symm⟩
  · obtain ⟨t, ht, hw, hst, hl⟩ := rejoinTimeout_releases hex hall
    refine ⟨t, ht, fun th tg => Standing.at hst, fun g hg hheld hhdr lane hlane => ?_, hl⟩
    obtain ⟨x, hx, hr⟩ := releaseHeld_released (s.warp wid) (fun g => g.st = .held && g.hdr = hdr) hg
    have he : (decide (g.st = .held) && decide (g.hdr = hdr)) = true := by simp [hheld, hhdr]
    exact ⟨x, hw ▸ hx, hr.lanes lane hlane, (hr.goes he).1, (hr.goes he).2, hr.pc⟩
  · have hi := coreWarpIds_spec hsorted (readyPending_mem (mem_of_leastBy hleast))
    refine ⟨fun hout => ⟨_, ?_, swapWarps_swapped (coreWarpIds_spec hsorted (List.mem_filter.mp (mem_of_firstDep hout)).1) hi⟩,
      fun hout hn => ⟨_, ?_, swapWarps_swapped ?_ hi⟩⟩
    · rw [exec_warpSwap, hout, hleast]
    · rw [exec_pendingWarpPromote, hout, hleast]
      dsimp only
      rw [if_pos hn]
    · obtain ⟨x, hx, rfl⟩ := Option.map_eq_some_iff.mp hout
      obtain ⟨k, hk, rfl⟩ := List.mem_map.mp (mem_of_leastBy hx)
      exact coreWarpIds_spec hsorted hk

end Sys2Proof.Kernels

/-! # What memory below the cores leaves as it is (R78 to R83, R380 to R393) -/
namespace Sys2Proof.Kernels
open Sys2Proof Sys2Proof.Machine Sys2Proof.Laws

/-- The state above the memory: its warps, blocks, gangs, launches, cores, accesses, engine operations and lids. -/
def upper (s : State) : State :=
  { warps := s.warps, blocks := s.blocks, gangs := s.gangs, launches := s.launches, cores := s.cores, ops := s.ops, lids := s.lids
    outst := s.outst, accs := s.accs, mixed := s.mixed, errs := s.errs, relics := s.relics }

/-- Only memory, its tables, caches, queues and meters have changed, and names have been given. -/
structure Below (s t : State) : Prop where
  above : upper t = upper s
  later : s.nextId ≤ t.nextId

theorem Below.refl (s : State) : Below s s := ⟨rfl, le_rfl⟩
theorem Below.trans {s t u : State} (h : Below s t) (g : Below t u) : Below s u := ⟨g.above.trans h.above, h.later.trans g.later⟩

theorem Below.warps {s t : State} (h : Below s t) : t.warps = s.warps := (congrArg State.warps h.above :)
theorem Below.blocks {s t : State} (h : Below s t) : t.blocks = s.blocks := (congrArg State.blocks h.above :)
theorem Below.gangs {s t : State} (h : Below s t) : t.gangs = s.gangs := (congrArg State.gangs h.above :)
theorem Below.cores {s t : State} (h : Below s t) : t.cores = s.cores := (congrArg State.cores h.above :)
theorem Below.ops {s t : State} (h : Below s t) : t.ops = s.ops := (congrArg State.ops h.above :)
theorem Below.launches {s t : State} (h : Below s t) : t.launches = s.launches := (congrArg State.launches h.above :)
theorem Below.relics {s t : State} (h : Below s t) : t.relics = s.relics := (congrArg State.relics h.above :)
theorem Below.lids {s t : State} (h : Below s t) : t.lids = s.lids := (congrArg State.lids h.above :)

theorem below_foldl {α : Type} (f : State → α → State) (hf : ∀ s a, Below s (f s a)) (l : List α) (s : State) : Below s (l.foldl f s) :=
  foldl_inv Below .refl (fun _ _ _ => .trans) f hf l s

theorem Walked.below {s t : State} (h : Walked s t) : Below s t := by
  obtain ⟨v, k, b, rfl⟩ := h
  exact ⟨rfl, le_rfl⟩

/-! ### Frames and the slice -/

theorem below_onPart (s : State) (p : Nat) (f : Part → Part) : Below s (s.onPart p f) := by
  unfold State.onPart
  split <;> exact ⟨rfl, le_rfl⟩

theorem below_meterLine (s : State) (tile space : Nat) : Below s (s.meterLine tile space) := by
  unfold State.meterLine
  split
  · exact below_onPart _ _ _
  · exact .refl s

theorem below_wrFrame (s : State) (P : Part) (enc : Bool) (space addr : Nat) (bytes : List Byte) :
    Below s (s.wrFrame P enc space addr bytes) := by
  unfold State.wrFrame State.setSpace
  dsimp only
  split <;> exact ⟨rfl, le_rfl⟩

theorem below_l2Write (s : State) (P : Part) (l : L2Line) : Below s (s.l2Write P l) := by
  have hm : Below s (if l.dirty = 0 then s else s.meterLine l.tile l.space) := by
    split
    · exact .refl s
    · exact below_meterLine _ _ _
  unfold State.l2Write
  dsimp only
  split
  · exact hm.trans (below_wrFrame _ _ _ _ _ _)
  · exact hm.trans (below_foldl _ (fun s (b : Nat × Byte) => below_wrFrame s P l.enc l.space _ _) _ _)

theorem below_l2Fill (s : State) (P : Part) (tile space line cls : Nat) (enc : Bool) : Below s (s.l2Fill P tile space line cls enc).1 := by
  have hm := below_meterLine s tile space
  unfold State.l2Fill
  dsimp only
  split
  · exact .refl s
  · split
    · exact hm.trans ⟨rfl, Nat.le_succ _⟩
    · split
      · exact (hm.trans (below_l2Write _ _ _)).trans ⟨rfl, Nat.le_succ _⟩
      · exact hm

theorem below_sliceWrite (s : State) (P : Part) (tile : Nat) (lf : Leaf) (bytes : List (Nat × Byte)) : Below s (s.sliceWrite P tile lf bytes) := by
  have hw : ∀ t : State, Below t (bytes.foldl (fun s b => s.wrFrame P (pteEnc lf.pte) lf.space (lf.addr + b.1) [b.2]) t) :=
    below_foldl _ (fun s (b : Nat × Byte) => below_wrFrame s _ _ _ _ _) bytes
  have hf := below_l2Fill s P tile lf.space (lf.addr / 128 * 128) (pteClass lf.pte) (pteEnc lf.pte)
  unfold State.sliceWrite
  dsimp only
  split
  · exact .refl s
  · split
    · exact hw s
    · split
      · split <;> exact hf.trans ⟨rfl, Nat.le_succ _⟩
      · exact hf.trans (hw _)

theorem below_forceBack (s : State) (p asid line tile : Nat) (lf : Leaf) : Below s (s.forceBack p asid line tile lf) := by
  unfold State.forceBack
  dsimp only
  split
  · exact .refl s
  · split
    · exact ⟨rfl, le_rfl⟩
    · exact (below_sliceWrite _ _ _ _ _).trans ⟨rfl, le_rfl⟩

/-! ### Records of the fault queue -/

theorem below_raiseFq (s : State) (p : Nat) : Below s (s.raiseFq p) := by
  unfold State.raiseFq State.raise
  dsimp only
  split
  · split
    · exact .refl s
    · split
      · exact below_onPart _ _ _
      · exact ⟨rfl, le_rfl⟩
  · exact .refl s

theorem below_logMac (s : State) (p asid : Nat) (va : DWord) (cause : Nat) : Below s (s.logMac p asid va cause) := by
  unfold State.logMac
  split
  · exact .refl s
  · split
    · split <;> exact ⟨rfl, le_rfl⟩
    · exact .refl s

theorem below_deviceWrite {s t : State} {p asid : Nat} {va : DWord} {bytes : List Byte} (h : s.deviceWrite p asid va bytes = .ok t) :
    Below s t := by
  unfold State.deviceWrite at h
  dsimp only at h
  split at h
  · split at h
    · cases h
    · obtain rfl := Except.ok.inj h
      exact ((translate_walked s p asid va .queueWrite).below.trans (below_forceBack _ _ _ _ _ _)).trans (below_sliceWrite _ _ _ _ _)
  · cases h
  · cases h

theorem below_fqPush (s : State) (p : Nat) (r : FqRec) : Below s (s.fqPush p r).1 := by
  unfold State.fqPush
  dsimp only
  split
  · exact below_onPart _ _ _
  · split
    · exact (below_logMac _ _ _ _ _).trans (below_onPart _ _ _)
    · exact below_onPart _ _ _
    · next h => exact ((below_deviceWrite h).trans (below_onPart _ _ _)).trans (below_raiseFq _ _)

end Sys2Proof.Kernels

/-! # How an engine operation starts, lands and completes (O33: R50, R93, R250 to R257) -/
namespace Sys2Proof.Kernels
open Sys2Proof Sys2Proof.Machine Sys2Proof.Laws

/-! ### Scratchpads and barrier words -/

/-- Scratchpads may have changed, and warps have been woken; operations, lids, cores, gangs and which gang a block is of have not. -/
structure BarOnly (s t : State) : Prop where
  ops : t.ops = s.ops
  lids : t.lids = s.lids
  cores : t.cores = s.cores
  gangs : t.gangs = s.gangs
  gid : ∀ b, (t.block b).gid = (s.block b).gid

theorem BarOnly.refl (s : State) : BarOnly s s := ⟨rfl, rfl, rfl, rfl, fun _ => rfl⟩

theorem BarOnly.trans {s t u : State} (h : BarOnly s t) (g : BarOnly t u) : BarOnly s u :=
  ⟨g.ops.trans h.ops, g.lids.trans h.lids, g.cores.trans h.cores, g.gangs.trans h.gangs, fun b => (g.gid b).trans (h.gid b)⟩

/-- A field of a block that a change leaves. -/
theorem block_field_onBlock {β : Type} (q : Block → β) (s : State) (k : Nat) (f : Block → Block) (hf : ∀ b, q (f b) = q b) (j : Nat) :
    q ((s.onBlock k f).block j) = q (s.block j) := by
  unfold State.block Tbl.getD
  rw [onBlock_find]
  split
  · next h => subst h; cases s.blocks.find j <;> simp [hf]
  · rfl

theorem wrScratch_barOnly (s : State) (bid a : Nat) (bs : List Byte) : BarOnly s (s.wrScratch bid a bs) where
  ops := onBlock_ops _ _ _
  lids := onBlock_lids _ _ _
  cores := onBlock_cores _ _ _
  gangs := onBlock_gangs _ _ _
  gid b := block_field_onBlock Block.gid s bid (fun b => { b with scratch := Memory.wrN b.scratch a bs }) (fun _ => rfl) b

theorem setPhaseBar_barOnly (s : State) (bid a : Nat) (b : PhaseBar) : BarOnly s (s.setPhaseBar bid a b) := by
  have hw := wrScratch_barOnly s bid a (natLe 16 b.settle.1.toNat)
  unfold State.setPhaseBar
  dsimp only
  split
  · exact ⟨hw.ops, hw.lids, hw.cores, hw.gangs, hw.gid⟩
  · exact hw

theorem barUpdate_barOnly (s : State) (bid a arrive tx done : Nat) : BarOnly s (s.barUpdate bid a arrive tx done).1 := by
  unfold State.barUpdate
  dsimp only
  split
  · exact .refl s
  · split
    · exact .refl s
    · exact setPhaseBar_barOnly _ _ _ _

/-- What an operation announces rests on its image and its gang. -/
theorem totalOf_congr {s t : State} (hg : t.gangs = s.gangs) (hgid : ∀ b, (t.block b).gid = (s.block b).gid) (o : EngineOp) :
    t.totalOf o = s.totalOf o := by
  have hb : t.bcastTargets o = s.bcastTargets o := by
    unfold State.bcastTargets State.gang
    rw [hg, hgid]
  unfold State.totalOf
  rw [hb]

/-! ### Starting (R50, R93) -/

/-- The targets of a flood as its start lists them. -/
def startTargets (s : State) (o : EngineOp) : List (Nat × Nat × Bool) :=
  if o.form = 7 then (s.bcastTargets o).map fun b => (b, 0, false) else []

/-- An operation as its start leaves it. -/
def startedOp (s : State) (targets : List (Nat × Nat × Bool)) (o : EngineOp) : EngineOp :=
  { o with placed := true, begun := !o.onAccStore, seq := s.nextId, total := s.totalOf o, targets := targets, gathered := s.gather o,
           st := if o.form = 7 && targets = [] then .landed else .running }

/-- What an operation's start announces on its barrier. -/
def announce (s : State) (o : EngineOp) : State :=
  if o.arrives && o.kind ≠ 8 && !o.startsLate then (s.barUpdate o.bid o.bar 0 (if o.onAccStore then 0 else s.totalOf o) 0).1 else s

theorem announce_barOnly (s : State) (o : EngineOp) : BarOnly s (announce s o) := by
  unfold announce
  split
  · exact barUpdate_barOnly _ _ _ _ _ _
  · exact .refl s

theorem exec_engOpStart (id : Nat) (s : State) : exec (.engOpStart id) s = .next (match s.ops.find id with
    | some o => if o.st = .issued then (s.startOp id o).getD s else s
    | none => s) := rfl

/-- An operation that may start does. -/
theorem startOp_starts {s : State} {id : Nat} {o : EngineOp} (h : canStart s id o) :
    let m := announce (s.placeLids id o (s.fieldsOf o (s.block o.bid).zsize).2) o
    s.startOp id o = some (({ m.onOp id (startedOp m (startTargets m o)) with nextId := (m.onOp id (startedOp m (startTargets m o))).nextId + 1 } : State).engMark o.wid o.lane) := by
  obtain ⟨hlid, hroom, hmill, hread⟩ := h
  unfold State.startOp
  dsimp only
  rw [if_neg]
  · rfl
  · simp only [Bool.or_eq_true, Bool.and_eq_true, Bool.not_eq_true', decide_eq_true_eq, List.any_eq_true, not_or, not_and, not_exists]
    exact ⟨⟨⟨fun h5 => by simp [hread h5], fun r hr => by simp [hlid r hr]⟩, by simp [hroom]⟩, fun hk => by simp [hmill hk]⟩

/-- An issued operation that may start: its lids are placed and it runs (R50, R93). -/
theorem engOpStart_starts {s : State} {id : Nat} {o : EngineOp} (ho : s.ops.find id = some o) (hst : o.st = .issued) (h : canStart s id o) :
    ∃ t p, exec (.engOpStart id) s = .next t ∧ t.ops.find id = some p ∧ p.placed = true ∧ p.st ≠ .issued ∧ p.image = o.image ∧
      p.total = s.totalOf o ∧ t.lids = (s.placeLids id o (s.fieldsOf o (s.block o.bid).zsize).2).lids := by
  have hb := announce_barOnly (s.placeLids id o (s.fieldsOf o (s.block o.bid).zsize).2) o
  have hsome := startOp_starts h
  dsimp only at hsome
  generalize hm : announce (s.placeLids id o (s.fieldsOf o (s.block o.bid).zsize).2) o = m at hb hsome
  have hexec := exec_engOpStart id s
  rw [ho] at hexec
  dsimp only at hexec
  rw [if_pos hst, hsome, Option.getD_some] at hexec
  refine ⟨_, startedOp m (startTargets m o) o, hexec, ?_, rfl, ?_, rfl, ?_, ?_⟩
  · rw [State.engMark, onWarp_ops, onOp_find, if_pos rfl, hb.ops]
    exact congrArg (Option.map (startedOp m (startTargets m o))) ho
  · unfold startedOp
    dsimp only
    split <;> exact nofun
  · exact totalOf_congr hb.gangs hb.gid o
  · rw [State.engMark, onWarp_lids, onOp_lids]
    exact hb.lids

/-! ### A copy inside a scratchpad (R253, R254) -/

/-- A copy of bytes of its block's scratchpad that do not overlap. -/
structure ScratchCopy (s : State) (o : EngineOp) : Prop where
  form : o.form = 0
  src : o.srcScr = true
  dst : o.dstScr = true
  quiet : o.arrives = false
  total : o.total = o.u 24 4
  apart : s.selfOverlap o = false

theorem copyByte_scratch {s : State} {o : EngineOp} (h : ScratchCopy s o) (i : Nat) :
    s.copyByte o i = (.scr o.bid (o.u 8 8 + i), .scr o.bid (o.u 16 8 + i)) := by
  unfold State.copyByte
  rw [h.form]
  simp only [locOf, h.src, h.dst, if_true, Loc.plus, Int.toNat_natCast]

/-- The ranges of the copy are apart (R254). -/
theorem scratchCopy_apart {s : State} {o : EngineOp} (h : ScratchCopy s o) :
    o.u 8 8 + o.total ≤ o.u 16 8 ∨ o.u 16 8 + o.total ≤ o.u 8 8 := by
  have ha := h.apart
  unfold State.selfOverlap State.fieldsOf at ha
  rw [h.form] at ha
  simp only [EngineOp.chkCpy, h.src, h.dst, ← h.total, Bool.and_eq_false_iff, decide_eq_false_iff_not, Bool.not_true, ne_eq, not_true,
    not_not, OfNat.zero_ne_ofNat, or_false, false_or] at ha
  omega

theorem grain_bounds {s : State} {o : EngineOp} (i n : Nat) (hi : i < o.total) :
    1 ≤ s.grain o i (n + 1) ∧ i + s.grain o i (n + 1) ≤ o.total := by
  induction n generalizing i with
  | zero =>
    simp only [State.grain]
    split <;> omega
  | succ n ih =>
    rw [State.grain]
    split
    · next hc =>
      simp only [Bool.and_eq_true, decide_eq_true_eq] at hc
      have := ih (i + 1) hc.1.1
      omega
    · omega

/-- The bytes of a grain, where no error waits among them. -/
theorem grainRead_scratch {s : State} {o : EngineOp} (h : ScratchCopy s o) (n i : Nat)
    (hu : ∀ j, i ≤ j → j < i + n → s.scratchUpset o.bid (o.u 8 8 + j) 1 = false) :
    s.grainRead o i n = (s, s.rdScratch o.bid (o.u 8 8 + i) n, none) := by
  induction n generalizing i with
  | zero => rfl
  | succ n ih =>
    have hread : s.copyRead o (s.copyByte o i).1 = (s, .ok (Memory.rd (s.block o.bid).scratch (o.u 8 8 + i))) := by
      rw [copyByte_scratch h]
      simp only [State.copyRead, State.engRead, hu i (Nat.le_refl i) (by omega), Bool.false_eq_true, if_false, h.apart]
      rfl
    rw [State.grainRead]
    simp only [hread]
    rw [ih (i + 1) fun j h1 h2 => hu j (by omega) (by omega)]
    rfl

/-- A grain of the copy lands: from one to four bytes, at their place, and nothing else of a scratchpad changes. -/
theorem copyGrain_scratch {s : State} {id : Nat} {o : EngineOp} (h : ScratchCopy s o) (hd : o.done < o.total)
    (hrun : (s.gang (s.block o.bid).gid).st ≠ .halted) (hu : ∀ i < o.total, s.scratchUpset o.bid (o.u 8 8 + i) 1 = false) :
    ∃ n, 1 ≤ n ∧ o.done + n ≤ o.total ∧ s.copyGrain id o =
      ((s.wrScratch o.bid (o.u 16 8 + o.done) (s.rdScratch o.bid (o.u 8 8 + o.done) n)).onOp id
        (fun o => { o with done := o.done + n, stalled := none }), true) := by
  obtain ⟨hpos, hle⟩ : 1 ≤ s.grain o o.done 3 ∧ o.done + s.grain o o.done 3 ≤ o.total := grain_bounds o.done 2 hd
  have hgoal : s.landGoal id o 4 = o.done + 4 := by
    unfold State.landGoal
    rw [if_pos (by simp [hrun])]
  have hn : 1 ≤ min (s.grain o o.done 3) (s.landGoal id o 4 - o.done) ∧
      o.done + min (s.grain o o.done 3) (s.landGoal id o 4 - o.done) ≤ o.total := by
    rw [hgoal]
    omega
  refine ⟨min (s.grain o o.done 3) (s.landGoal id o 4 - o.done), hn.1, hn.2, ?_⟩
  unfold State.copyGrain
  dsimp only
  generalize min (s.grain o o.done 3) (s.landGoal id o 4 - o.done) = n at hn
  have hlen : (s.rdScratch o.bid (o.u 8 8 + o.done) n).length = n := length_rdN _ _ _
  have hne : s.rdScratch o.bid (o.u 8 8 + o.done) n ≠ [] := fun he => by
    rw [he] at hlen
    simp only [List.length_nil] at hlen
    omega
  rw [grainRead_scratch h n o.done fun j _ hj => hu j (by omega)]
  dsimp only
  rw [if_neg hne, copyByte_scratch h, hlen]
  simp only [State.keepPre, h.apart, Bool.false_eq_true, if_false, State.engWrite, State.landed, h.quiet, Bool.false_and, Option.isNone_none]

theorem block_wrScratch {s : State} {bid : Nat} (h : s.blocks.find bid ≠ none) (a : Nat) (bs : List Byte) (b : Nat) :
    ((s.wrScratch bid a bs).block b).scratch = if b = bid then Memory.wrN (s.block bid).scratch a bs else (s.block b).scratch := by
  unfold State.wrScratch State.block Tbl.getD
  dsimp only
  rw [onBlock_find]
  split
  · next hb =>
    cases hs : s.blocks.find bid with
    | none => exact absurd hs h
    | some x => rfl
  · rfl

theorem scratchUpset_wrScratch {s : State} {bid a n : Nat} (h : s.scratchUpset bid a n = false) (bid' a' : Nat) (bs : List Byte) :
    (s.wrScratch bid' a' bs).scratchUpset bid a n = false := by
  unfold State.scratchUpset at h ⊢
  rw [List.any_eq_false] at h ⊢
  exact fun u hu => h u (List.mem_filter.mp hu).1

/-- A copy inside a scratchpad has got to a byte: the bytes before it are copied, and nothing else of a scratchpad has changed. -/
structure CopiedTo (s : State) (o : EngineOp) (d : Nat) (t : State) : Prop where
  from_ : o.done ≤ d
  top : d ≤ o.total
  copied : ∀ i, o.done ≤ i → i < d → Memory.rd (t.block o.bid).scratch (o.u 16 8 + i) = Memory.rd (s.block o.bid).scratch (o.u 8 8 + i)
  others : ∀ b a, (b = o.bid → ¬ (o.u 16 8 + o.done ≤ a ∧ a < o.u 16 8 + d)) →
    Memory.rd (t.block b).scratch a = Memory.rd (s.block b).scratch a
  gid : ∀ b, (t.block b).gid = (s.block b).gid
  gangs : t.gangs = s.gangs
  found : t.blocks.find o.bid ≠ none
  upsets : ∀ i < o.total, t.scratchUpset o.bid (o.u 8 8 + i) 1 = false

theorem CopiedTo.onOp {s t : State} {o : EngineOp} {d : Nat} (h : CopiedTo s o d t) (id : Nat) (f : EngineOp → EngineOp) :
    CopiedTo s o d (t.onOp id f) := by
  have hb : (t.onOp id f).blocks = t.blocks := onOp_blocks _ _ _
  have hbl : ∀ b, (t.onOp id f).block b = t.block b := fun b => congrArg (fun x : Tbl Block => x.getD b noBlock) hb
  have hu : (t.onOp id f).upsets = t.upsets := onOp_upsets _ _ _
  refine ⟨h.from_, h.top, fun i h1 h2 => ?_, fun b a hno => ?_, fun b => ?_, (onOp_gangs _ _ _).trans h.gangs, hb ▸ h.found, fun i hi => ?_⟩
  · rw [hbl]; exact h.copied i h1 h2
  · rw [hbl]; exact h.others b a hno
  · rw [hbl]; exact h.gid b
  · unfold State.scratchUpset
    rw [hu]
    exact h.upsets i hi

/-- The next bytes of the copy land. -/
theorem CopiedTo.write {s t : State} {o : EngineOp} {d n : Nat} (h : CopiedTo s o d t) (hc : ScratchCopy s o) (hn : d + n ≤ o.total) :
    CopiedTo s o (d + n) (t.wrScratch o.bid (o.u 16 8 + d) (t.rdScratch o.bid (o.u 8 8 + d) n)) := by
  have hapart := scratchCopy_apart hc
  have hfrom := h.from_
  have hlen : (t.rdScratch o.bid (o.u 8 8 + d) n).length = n := length_rdN _ _ _
  have hbar := wrScratch_barOnly t o.bid (o.u 16 8 + d) (t.rdScratch o.bid (o.u 8 8 + d) n)
  refine ⟨by omega, hn, fun i h1 h2 => ?_, fun b a hno => ?_, fun b => (hbar.gid b).trans (h.gid b), hbar.gangs.trans h.gangs, ?_,
    fun i hi => scratchUpset_wrScratch (h.upsets i hi) _ _ _⟩
  · rw [block_wrScratch h.found, if_pos rfl]
    by_cases hi : i < d
    · rw [rd_wrN_out _ _ _ (.inl (by omega))]
      exact h.copied i h1 hi
    · obtain ⟨j, rfl⟩ : ∃ j, i = d + j := ⟨i - d, by omega⟩
      have hj : j < (t.rdScratch o.bid (o.u 8 8 + d) n).length := by omega
      rw [← Nat.add_assoc, rd_wrN_in _ _ _ hj, ← Nat.add_assoc, ← h.others o.bid _ fun _ => by omega]
      exact getElem_rdN _ _ _ _ _
  · rw [block_wrScratch h.found]
    split
    · next hb =>
      have hno := hno hb
      subst hb
      rw [rd_wrN_out _ _ _ (by rw [hlen]; omega)]
      exact h.others _ a fun _ => by omega
    · next hb => exact h.others b a fun he => absurd he hb
  · unfold State.wrScratch
    rw [onBlock_find, if_pos rfl, Ne, Option.map_eq_none_iff]
    exact h.found

/-- The copy's operation as it stands when the copy has got to a byte. -/
def copyAt (o : EngineOp) (d : Nat) (x : Option Stall) : EngineOp := { o with done := d, stalled := x }

theorem scratchCopy_copyAt {s t : State} {o : EngineOp} (h : ScratchCopy s o) (d : Nat) (x : Option Stall) :
    ScratchCopy t (copyAt o d x) := by
  refine ⟨h.form, h.src, h.dst, h.quiet, h.total, ?_⟩
  have ha := h.apart
  have hf : (copyAt o d x).form = 0 := h.form
  unfold State.selfOverlap State.fieldsOf at ha ⊢
  rw [h.form] at ha
  rw [hf]
  exact ha

/-- Grains land until the goal is reached, or the copy's end. -/
theorem copyLand_scratch {s : State} {o : EngineOp} (h : ScratchCopy s o) (hst : o.st = .running)
    (hrun : (s.gang (s.block o.bid).gid).st ≠ .halted) (id goal fuel : Nat) {t : State} {d : Nat} {x : Option Stall} (hc : CopiedTo s o d t)
    (hop : t.ops.find id = some (copyAt o d x)) :
    ∃ d' p, CopiedTo s o d' (t.copyLand id goal fuel) ∧ (t.copyLand id goal fuel).ops.find id = some p ∧ p.done = d' ∧
      (goal ≤ d' ∨ o.total ≤ d' ∨ d + fuel ≤ d') := by
  induction fuel generalizing t d x with
  | zero => exact ⟨d, _, hc, hop, rfl, .inr (.inr (Nat.le_refl d))⟩
  | succ fuel ih =>
    rw [State.copyLand, hop]
    dsimp only
    rw [if_neg (c := (copyAt o d x).st ≠ .running) (not_not_intro hst)]
    split
    · next hend =>
      refine ⟨d, { copyAt o d x with st := .landed }, hc.onOp id _, ?_, rfl, .inr (.inl hend)⟩
      rw [onOp_find, if_pos rfl, hop]
      rfl
    · next hmore =>
      split
      · next hgoal => exact ⟨d, _, hc, hop, rfl, .inl hgoal⟩
      · have hs := scratchCopy_copyAt (t := t) h d x
        have hlt : d < o.total := Nat.lt_of_not_le hmore
        have hgang : (t.gang (t.block (copyAt o d x).bid).gid).st ≠ .halted := by
          unfold State.gang
          rw [hc.gangs, hc.gid]
          exact hrun
        obtain ⟨n, h1, h2, hg⟩ := copyGrain_scratch (id := id) hs hlt hgang hc.upsets
        rw [hg]
        dsimp only
        rw [if_pos rfl]
        have hop' : ((t.wrScratch o.bid (o.u 16 8 + d) (t.rdScratch o.bid (o.u 8 8 + d) n)).onOp id
            (fun q => { q with done := q.done + n, stalled := none })).ops.find id = some (copyAt o (d + n) none) := by
          rw [onOp_find, if_pos rfl, (wrScratch_barOnly _ _ _ _).ops, hop]
          rfl
        obtain ⟨d', p, hc', hp, hd, hor⟩ := ih ((hc.write h h2).onOp id _) hop'
        refine ⟨d', p, hc', hp, hd, ?_⟩
        rcases hor with hor | hor | hor
        · exact .inl hor
        · exact .inr (.inl hor)
        · exact .inr (.inr (by omega))

theorem exec_copyChunkLand (id bid n : Nat) (s : State) : exec (.copyChunkLand id bid n) s = .next (match s.ops.find id with
    | some o =>
      if o.st = .running && o.begun && s.engMayRead id o then
        match o.form with
        | 3 => s.cpyaLand id (o.done + n) (n + 2)
        | 7 => s.floodLand id bid n o
        | 0 | 1 | 2 => s.copyLand id (s.landGoal id o n) (n + 2)
        | _ => s
      else s
    | none => s) := rfl

/-- More of a copy inside a scratchpad lands (R254). -/
theorem copyChunkLand_copies {s : State} {id n : Nat} {o : EngineOp} (hl : landing s id o) (h : ScratchCopy s o) (hd : o.done ≤ o.total)
    (hb : s.blocks.find o.bid ≠ none) (hrun : (s.gang (s.block o.bid).gid).st ≠ .halted)
    (hu : ∀ i < o.total, s.scratchUpset o.bid (o.u 8 8 + i) 1 = false) (bid : Nat) :
    ∃ t p, exec (.copyChunkLand id bid n) s = .next t ∧ t.ops.find id = some p ∧ min (o.done + n) o.total ≤ p.done ∧ CopiedTo s o p.done t := by
  obtain ⟨hop, hst, hbeg, hread⟩ := hl
  have hexec := exec_copyChunkLand id bid n s
  rw [hop] at hexec
  dsimp only at hexec
  rw [if_pos (by simp [hst, hbeg, hread]), h.form] at hexec
  have hgoal : s.landGoal id o n = o.done + n := by
    unfold State.landGoal
    rw [if_pos (by simp [hrun])]
  have hstart : CopiedTo s o o.done s :=
    ⟨Nat.le_refl _, hd, fun i h1 h2 => by omega, fun _ _ _ => rfl, fun _ => rfl, rfl, hb, hu⟩
  obtain ⟨d', p, hc, hp, rfl, hor⟩ := copyLand_scratch h hst hrun id (s.landGoal id o n) (n + 2) (x := o.stalled) hstart hop
  refine ⟨_, p, hexec, hp, ?_, hc⟩
  rw [hgoal] at hor
  have := hc.top
  omega

/-! ### A target of a flood is done (R257) -/

theorem exec_bcastTargetDone (id bid : Nat) (s : State) : exec (.bcastTargetDone id bid) s = .next (match s.ops.find id with
    | some o =>
      match o.target bid with
      | some (got, false) =>
        if o.form = 7 && o.st = .running && got = o.u 16 4 then
          let rbar := o.u 20 4
          let r := if rbar ≠ noAddr then s.barUpdate bid rbar 1 0 0 else (s, none)
          let s := (r.1.floodMisuse id rbar r.2).onOp id fun o => o.setTarget bid got true
          s.onOp id fun o => if o.targets.all fun t => t.2.2 then { o with st := .landed } else o
        else s
      | _ => s
    | none => s) := rfl

theorem target_setTarget {o : EngineOp} {bid n : Nat} {done : Bool} {x : Nat × Bool} (h : o.target bid = some x) :
    (o.setTarget bid n done).target bid = some (n, done) := by
  obtain ⟨y, hy, -⟩ := Option.map_eq_some_iff.mp h
  have hp : ((fun t : Nat × Nat × Bool => decide (t.1 = bid)) ∘ fun t => if t.1 = bid then (bid, n, done) else t) =
      fun t => decide (t.1 = bid) := by
    funext t
    by_cases ht : t.1 = bid <;> simp [ht]
  have hb : y.1 = bid := of_decide_eq_true (List.find?_some hy :)
  unfold EngineOp.target EngineOp.setTarget
  dsimp only
  rw [List.find?_map, hp, hy]
  simp [hb]

/-- An operation, once it is known whether all its targets are done. -/
def settleFlood (o : EngineOp) : EngineOp := if o.targets.all fun t => t.2.2 then { o with st := .landed } else o

theorem settleFlood_target (o : EngineOp) (bid : Nat) : (settleFlood o).target bid = o.target bid := by
  unfold settleFlood
  split <;> rfl

theorem settleFlood_landed {o : EngineOp} (h : o.st = .running) :
    (settleFlood o).st = .landed ↔ ∀ x ∈ (settleFlood o).targets, x.2.2 = true := by
  unfold settleFlood
  split
  · next hall => exact ⟨fun _ => List.all_eq_true.mp hall, fun _ => rfl⟩
  · next hall =>
    rw [h]
    exact ⟨nofun, fun hx => absurd (List.all_eq_true.mpr hx) hall⟩

/-- A target whose copy is complete and that announces to no barrier. -/
theorem bcastTargetDone_marks {s : State} {id bid got : Nat} {o : EngineOp} (ho : s.ops.find id = some o) (hf : o.form = 7)
    (hst : o.st = .running) (ht : o.target bid = some (got, false)) (hgot : got = o.u 16 4) (hbar : o.u 20 4 = noAddr) :
    ∃ t p, exec (.bcastTargetDone id bid) s = .next t ∧ t.ops.find id = some p ∧ p.target bid = some (got, true) ∧
      (p.st = .landed ↔ ∀ x ∈ p.targets, x.2.2 = true) ∧ Leaves s t { op := fun o => { o with targets := [], st := .landed } } := by
  have hexec := exec_bcastTargetDone id bid s
  rw [ho] at hexec
  dsimp only at hexec
  rw [ht] at hexec
  dsimp only at hexec
  rw [if_pos (by simp [hf, hst, hgot]), hbar, if_neg (not_not_intro rfl)] at hexec
  refine ⟨_, settleFlood (o.setTarget bid got true), hexec, ?_, ?_, settleFlood_landed hst, ?_⟩
  · rw [onOp_find, if_pos rfl, onOp_find, if_pos rfl]
    show ((s.ops.find id).map _).map _ = _
    rw [ho]
    rfl
  · rw [settleFlood_target, target_setTarget ht]
  · refine Laws.Leaves.trans (t := s.onOp id fun o => o.setTarget bid got true) (leaves_onOp _ _ _ _ ?_) (leaves_onOp _ _ _ _ ?_)
    · exact fun _ => rfl
    · intro p
      dsimp only
      split <;> rfl

/-! ### Completion (R250 to R252) -/

theorem exec_engOpComplete (id : Nat) (s : State) : exec (.engOpComplete id) s = .next (match s.ops.find id with
    | some o => if (o.st = .landed || o.st = .failed) && !(o.queued && s.fqHeld o.part) then s.completeOp id o else s
    | none => s) := rfl

/-- A record changes no operation, lid or core. -/
theorem opRecord_keeps (s : State) (o : EngineOp) :
    (s.opRecord o).ops = s.ops ∧ (s.opRecord o).lids = s.lids ∧ (s.opRecord o).cores = s.cores := by
  have hrec : ∀ bs : List Byte, let m := if o.writesRecord then s.wrScratch o.bid o.recAt bs else s
      m.ops = s.ops ∧ m.lids = s.lids ∧ m.cores = s.cores := fun bs => by
    dsimp only
    split
    · have h := wrScratch_barOnly s o.bid o.recAt bs
      exact ⟨h.ops, h.lids, h.cores⟩
    · exact ⟨rfl, rfl, rfl⟩
  unfold State.opRecord
  dsimp only
  split
  · obtain ⟨h1, h2, h3⟩ := hrec (o.record (s.block o.bid).rank (s.rdScratch o.bid (o.recAt + 24) 136))
    exact ⟨(below_fqPush _ _ _).ops.trans h1, (below_fqPush _ _ _).lids.trans h2, (below_fqPush _ _ _).cores.trans h3⟩
  · exact hrec _

/-- What the end of an operation makes of its core's tags. -/
def endTag (busy : Bool) (o : EngineOp) (r : Core) : Core :=
  { r with tagfail := if o.hasErr then r.tagfail ||| (1#64 <<< o.tag) else r.tagfail
           tagmap := if busy then r.tagmap else r.tagmap ||| (1#64 <<< o.tag) }

/-- The tags of a core once an operation has left its table. -/
def endTags (s : State) (id : Nat) (o : EngineOp) : State :=
  (({ s with ops := s.ops.del id } : State).uncount o.wid id).onCore o.core
    (endTag (({ s with ops := s.ops.del id } : State).tagBusy o.core o.tag) o)

/-- Beside its tag, an operation's end wakes warps and notes an error for its observers. -/
theorem opTag_eq (s : State) (id : Nat) (o : EngineOp) : ∃ w e, s.opTag id o = { endTags s id o with warps := w, errs := e } := by
  have h : ∀ (m : State) (busy err : Bool) (who : Warp → Bool) (x : ObsErr),
      ∃ w e, (if err then { (if busy then m else m.latch 1 who) with errs := (if busy then m else m.latch 1 who).errs ++ [x] }
        else (if busy then m else m.latch 1 who)) = { m with warps := w, errs := e } := fun m busy err who x => by
    cases busy <;> cases err <;> exact ⟨_, _, rfl⟩
  exact h (endTags s id o) _ (o.hasErr && observedCause o.cause) (fun w => w.core = o.core)
    { bid := o.bid, wid := o.wid, tag := o.tag, op := id, cause := o.cause
      trec := if o.writesRecord then (1#64 <<< 63) ||| BitVec.ofNat 64 o.recAt else 0 }

/-- An operation that ends leaves its table, and its tag is complete where no other names it. -/
theorem opTag_keeps (s : State) (id : Nat) (o : EngineOp) :
    (s.opTag id o).ops = s.ops.del id ∧ (s.opTag id o).lids = s.lids ∧
    ∀ c, (s.opTag id o).coreRegs c =
      if c = o.core then endTag (({ s with ops := s.ops.del id } : State).tagBusy o.core o.tag) o (s.coreRegs c) else s.coreRegs c := by
  obtain ⟨w, e, h⟩ := opTag_eq s id o
  rw [h]
  exact ⟨rfl, rfl, fun c => coreRegs_onCore _ _ _ _⟩

theorem tagBusy_del {s : State} {id core tag : Nat} : ({ s with ops := s.ops.del id } : State).tagBusy core tag = true ↔
    ∃ p ∈ s.ops, p.1 ≠ id ∧ p.2.core = core ∧ p.2.tag = tag ∧ p.2.st ≠ .reading := by
  simp only [State.tagBusy, List.any_eq_true, Bool.and_eq_true, decide_eq_true_eq, mem_del]
  exact exists_congr fun p => ⟨fun ⟨⟨h1, h2⟩, ⟨h3, h4⟩, h5⟩ => ⟨h1, h2.symm, h3, h4, h5⟩, fun ⟨h1, h2, h3, h4, h5⟩ => ⟨⟨h1, h2.symm⟩, ⟨h3, h4⟩, h5⟩⟩

theorem getLsbD_tagBit {tag : Nat} (h : tag < 64) : ((1#64) <<< tag).getLsbD tag = true := by
  simp [h]

/-- An operation without a barrier completes (R250). -/
theorem engOpComplete_completes {s : State} {id : Nat} {o : EngineOp} (ho : s.ops.find id = some o) (hst : o.st = .landed ∨ o.st = .failed)
    (harr : o.arrives = false) (hq : o.queued = true → s.fqHeld o.part = false) :
    ∃ t, exec (.engOpComplete id) s = .next t ∧ t.ops = s.ops.del id ∧ t.lids = s.lids.filter (fun l => l.op ≠ id) ∧
      ∀ c, t.coreRegs c =
        if c = o.core then endTag (({ s with ops := s.ops.del id } : State).tagBusy o.core o.tag) o (s.coreRegs c) else s.coreRegs c := by
  have hexec := exec_engOpComplete id s
  rw [ho] at hexec
  dsimp only at hexec
  rw [if_pos (by
    simp only [Bool.and_eq_true, Bool.or_eq_true, decide_eq_true_eq, Bool.not_eq_true', Bool.and_eq_false_iff]
    refine ⟨hst, ?_⟩
    cases hqq : o.queued
    · exact .inl rfl
    · exact .inr (hq hqq))] at hexec
  have hcomp : s.completeOp id o = ({ s.opRecord o with lids := (s.opRecord o).lids.filter (·.op ≠ id) } : State).opTag id o := by
    unfold State.completeOp
    simp only [harr, Bool.false_and, Bool.false_eq_true, if_false]
  rw [hcomp] at hexec
  obtain ⟨r1, r2, r3⟩ := opRecord_keeps s o
  obtain ⟨h1, h2, h3⟩ := opTag_keeps { s.opRecord o with lids := (s.opRecord o).lids.filter (·.op ≠ id) } id o
  refine ⟨_, hexec, ?_, ?_, fun c => ?_⟩
  · rw [h1]
    exact congrArg (fun x => Tbl.del x id) r1
  · rw [h2]
    exact congrArg (List.filter _) r2
  · rw [h3]
    unfold State.coreRegs State.tagBusy
    rw [r1, r3]

/-- Settles O33: R50, R93, R250, R253, R254, R257, clause by clause. -/
theorem engineProgress : Obligations.EngineProgress := by
  refine ⟨fun s id o ho hst h => engOpStart_starts ho hst h, fun s id bid n o hl hf hsrc hdst hq hd ht hb hov hrun hu => ?_,
    fun s id bid got o ho hf hst htg hgot hbar => bcastTargetDone_marks ho hf hst htg hgot hbar,
    fun s id o ho hst harr htag hq => ?_⟩
  · obtain ⟨t, p, hexec, hp, hn, hc⟩ := copyChunkLand_copies (n := n) hl ⟨hf, hsrc, hdst, hq, ht, hov⟩ hd hb hrun hu bid
    exact ⟨t, p, hexec, hp, hn, hc.top, hc.copied, hc.others⟩
  · obtain ⟨t, hexec, hops, hlids, hcores⟩ := engOpComplete_completes ho hst harr hq
    have hown := hcores o.core
    rw [if_pos rfl] at hown
    refine ⟨t, hexec, hops ▸ find_del_same _ _, hlids, fun k hk => hops ▸ find_del_ne _ hk, ?_, fun hno => ?_, fun hbusy => ?_,
      fun c hc => (hcores c).trans (if_neg hc)⟩
    · rw [hown]
      unfold endTag
      cases o.hasErr
      · simp
      · rw [if_pos rfl, BitVec.getLsbD_or, getLsbD_tagBit htag, Bool.or_true]
    · have hfree : ({ s with ops := s.ops.del id } : State).tagBusy o.core o.tag = false := Bool.eq_false_iff.mpr fun hbusy => by
        obtain ⟨p, hp, hid, hcore, htg, -⟩ := tagBusy_del.mp hbusy
        exact hno p hp hid hcore htg
      rw [hown, hfree]
      show ((s.coreRegs o.core).tagmap ||| ((1#64) <<< o.tag)).getLsbD o.tag = true
      rw [BitVec.getLsbD_or, getLsbD_tagBit htag, Bool.or_true]
    · rw [hown, tagBusy_del.mpr hbusy]
      rfl

end Sys2Proof.Kernels

/-! # What the completion of a launch leaves as it is (R23, R366, R371, R375) -/
namespace Sys2Proof.Kernels
open Sys2Proof Sys2Proof.Machine Sys2Proof.Laws

/-! ### What the device reads and writes -/

theorem below_sliceTouch (s : State) (P : Part) (tile : Nat) (lf : Leaf) : Below s (s.sliceTouch P tile lf) := by
  have hf := below_l2Fill s P tile lf.space (lf.addr / 128 * 128) (pteClass lf.pte) (pteEnc lf.pte)
  unfold State.sliceTouch
  split
  · exact .refl s
  · dsimp only
    split
    · exact hf.trans ⟨rfl, Nat.le_succ _⟩
    · exact hf

theorem below_deviceRead (s : State) (p asid : Nat) (va : DWord) (n : Nat) : Below s (s.deviceRead p asid va n).1 := by
  have ht := (translate_walked s p asid va .queue).below
  unfold State.deviceRead
  dsimp only
  split
  · exact .refl s
  · split
    · split
      · exact ht.trans (below_sliceTouch _ _ _ _)
      · exact ht.trans (below_logMac _ _ _ _ _)
    · exact ht
    · exact ht

theorem below_devBytes (p asid : Nat) (fuel : Nat) (s : State) (va : DWord) (n : Nat) : Below s (s.devBytes p asid va fuel n).1 := by
  induction fuel generalizing s va n with
  | zero => exact .refl s
  | succ fuel ih =>
    have hr := below_deviceRead s p asid va (min n (128 - va.toNat % 128))
    unfold State.devBytes
    split
    · exact .refl s
    · dsimp only
      split
      · next t f h => rw [h] at hr; exact hr
      · next t bs h =>
        rw [h] at hr
        have hi := ih t (va + BitVec.ofNat 64 (min n (128 - va.toNat % 128))) (n - min n (128 - va.toNat % 128))
        split
        · next u e hu => rw [hu] at hi; exact hr.trans hi
        · next u r hu => rw [hu] at hi; exact hr.trans hi

theorem below_queueRec (s : State) (p q asid src : Nat) (f : WalkFail) (va : DWord) : Below s (s.queueRec p q asid src f va) :=
  below_fqPush _ _ _

theorem below_queueFault (s : State) (p q src : Nat) (f : WalkFail) (va : DWord) : Below s (s.queueFault p q src f va) := by
  unfold State.queueFault
  split
  · exact .refl s
  · exact (below_queueRec _ _ _ _ _ _ _).trans (below_onPart _ _ _)

theorem below_counterUpdate (s : State) (p asid : Nat) (va v : DWord) (put : Bool) : Below s (s.counterUpdate p asid va v put).1 := by
  have ht := (translate_walked s p asid va .atomic).below
  unfold State.counterUpdate
  dsimp only
  split
  · exact .refl s
  · split
    · exact ht
    · exact ht
    · next lf tile _ _ =>
      have hf := ht.trans (below_forceBack _ p asid (lineOf va) tile lf)
      split
      · exact hf
      · dsimp only
        exact hf.trans (below_sliceWrite _ _ _ _ _)

/-! ### Launches that start and end -/

/-- Units and what retired ones left are as they were, and so are the gangs that have their names already. -/
structure UnitsKept (s t : State) : Prop where
  warps : t.warps = s.warps
  blocks : t.blocks = s.blocks
  relics : t.relics = s.relics
  later : s.nextId ≤ t.nextId
  gangs : ∀ gid < s.nextId, t.gangs.find gid = s.gangs.find gid

theorem UnitsKept.refl (s : State) : UnitsKept s s := ⟨rfl, rfl, rfl, le_rfl, fun _ _ => rfl⟩

theorem UnitsKept.trans {s t u : State} (h : UnitsKept s t) (g : UnitsKept t u) : UnitsKept s u :=
  ⟨g.warps.trans h.warps, g.blocks.trans h.blocks, g.relics.trans h.relics, h.later.trans g.later,
    fun gid hg => (g.gangs gid (lt_of_lt_of_le hg h.later)).trans (h.gangs gid hg)⟩

theorem Below.units {s t : State} (h : Below s t) : UnitsKept s t :=
  ⟨h.warps, h.blocks, h.relics, h.later, fun _ _ => by rw [h.gangs]⟩

theorem unitsKept_onLaunch (s : State) (lid : Nat) (f : Launch → Launch) : UnitsKept s (s.onLaunch lid f) := by
  unfold State.onLaunch
  split <;> exact ⟨rfl, rfl, rfl, le_rfl, fun _ _ => rfl⟩

theorem below_onSlot (s : State) (p k : Nat) (f : Slot → Slot) : Below s (s.onSlot p k f) := below_onPart _ _ _

theorem below_dropPage (s : State) (m : Nat) : Below s (s.dropPage m) := ⟨rfl, le_rfl⟩

theorem below_readDesc (s : State) (p asid : Nat) (b : List Byte) : Below s (s.readDesc p asid b).1 := by
  have hr := below_devBytes p asid (64 / 128 + 2) s (BitVec.ofNat 64 (field b 8 8)) 64
  unfold State.readDesc State.devRead
  split
  · exact .refl s
  · split
    · next h => rw [h] at hr; exact hr
    · next h => rw [h] at hr; split <;> exact hr

theorem unitsKept_addLaunch (s : State) (l : Launch) : UnitsKept s (s.addLaunch l).1 := by
  have hp := (below_onPart s l.part fun P => { P with serial := P.serial + 1 })
  have hg : ∀ gid < s.nextId, ((s.addLaunch l).1).gangs.find gid = s.gangs.find gid := fun gid hg => by
    unfold State.addLaunch
    rw [find_put_ne _ _ (by omega), hp.gangs]
  exact ⟨hp.warps, hp.blocks, hp.relics, Nat.le_add_right _ 2, hg⟩

theorem below_paramPage (s : State) (p asid : Nat) (bytes : List Byte) : Below s (s.paramPage p asid bytes).1 := ⟨rfl, Nat.le_succ _⟩

theorem unitsKept_startImage (s : State) (p asid : Nat) (b : List Byte) (src : LaunchSrc) (page : Option (DWord × Nat)) (firedAt : Nat) :
    UnitsKept s (s.startImage p asid b src page firedAt).1 := by
  have hd := below_readDesc s p asid b
  unfold State.startImage
  split
  · next h => rw [h] at hd; exact hd.units
  · next t d h =>
    rw [h] at hd
    cases page with
    | some pg => exact hd.units.trans (unitsKept_addLaunch _ _)
    | none =>
      have hr := below_devBytes p asid (d.params / 128 + 2) t (BitVec.ofNat 64 (field b 16 8)) d.params
      dsimp only [State.devRead]
      split
      · next h =>
        split at h
        · next hu => rw [hu] at hr; cases h; exact (hd.trans hr).units
        · cases h
      · next h =>
        split at h
        · cases h
        · next u bs hu =>
          rw [hu] at hr
          obtain ⟨rfl, -⟩ := Prod.mk.inj h
          exact ((hd.trans hr).trans (below_paramPage u p asid bs)).units.trans (unitsKept_addLaunch _ _)

theorem unitsKept_slotStart (s : State) (p k firedAt : Nat) : UnitsKept s (s.slotStart p k firedAt) := by
  have hi := unitsKept_startImage s p ((s.part p).queue 0).asidNo ((s.part p).slot k).img (.slot k) none firedAt
  unfold State.slotStart
  dsimp only
  split
  · next h => rw [h] at hi; exact hi.trans (below_onSlot _ _ _ _).units
  · next h =>
    rw [h] at hi
    split
    · exact hi.trans (below_onSlot _ _ _ _).units
    · exact hi.trans (below_queueRec _ _ _ _ _ _ _).units
  · next h => rw [h] at hi; exact hi

theorem unitsKept_slotFree (s : State) (p k : Nat) : UnitsKept s (s.slotFree p k) := by
  have hs := (below_onSlot s p k fun x => { x with cur := none, hold := none }).units
  unfold State.slotFree
  dsimp only
  split
  · exact hs.trans (unitsKept_slotStart _ _ _ _)
  · exact hs

theorem unitsKept_countOver (s : State) : UnitsKept s s.countOver := by
  unfold State.countOver
  refine foldl_inv UnitsKept .refl (fun _ _ _ => .trans) _ (fun s l => ?_) s.launches s
  split
  · split
    · exact (unitsKept_onLaunch _ _ _).trans (below_onSlot _ _ _ _).units
    · exact .refl s
  · exact .refl s

theorem below_instDone (s : State) (p i : Nat) (x : GraphInst) : Below s (s.instDone p i x) := by
  have hc : Below s (if x.ctr = 0 then (s, none) else s.counterUpdate p x.asid x.ctr x.inc false).1 := by
    split
    · exact .refl s
    · exact below_counterUpdate _ _ _ _ _ _
  unfold State.instDone
  dsimp only
  split
  · exact ((hc.trans (below_queueFault _ _ _ _ _ _)).trans (below_onPart _ _ _)).trans (below_dropPage _ _)
  · exact (hc.trans (below_onPart _ _ _)).trans (below_dropPage _ _)

theorem below_nodeDone (s : State) (p i n : Nat) : Below s (s.nodeDone p i n) := by
  have hi := below_onPart s p fun P => { P with insts := match P.insts.find i with
    | some x => P.insts.put i { x with nodes := x.nodes.zipIdx.map fun y => if y.2 = n then { y.1 with st := 2 } else y.1 }
    | none => P.insts }
  unfold State.nodeDone
  dsimp only
  split
  · split
    · exact hi.trans (below_instDone _ _ _ _)
    · exact hi
  · exact hi

theorem unitsKept_launchDone (s : State) (lid : Nat) (l : Launch) : UnitsKept s (s.launchDone lid l) := by
  unfold State.launchDone
  extract_lets s₁ r s₂ s₃
  have hr : UnitsKept s r.1 := by
    refine (unitsKept_countOver s).trans ?_
    unfold r
    split
    · exact .refl _
    · exact (below_counterUpdate _ _ _ _ _ _).units
  have h₂ : UnitsKept s s₂ := by
    unfold s₂
    split
    · exact hr
    · exact hr.trans (below_queueFault _ _ _ _ _ _).units
    · exact hr.trans (below_queueRec _ _ _ _ _ _ _).units
  have h₃ : UnitsKept s s₃ := h₂.trans ⟨rfl, rfl, rfl, le_rfl, fun _ _ => rfl⟩
  split
  · exact h₃.trans (below_dropPage _ _).units
  · exact h₃.trans ((below_dropPage _ _).units.trans (unitsKept_slotFree _ _ _))
  · exact h₃.trans (below_nodeDone _ _ _ _).units

end Sys2Proof.Kernels

/-! # Gangs that are placed (R20, R21, R373) -/
namespace Sys2Proof.Kernels
open Sys2Proof Sys2Proof.Machine Sys2Proof.Laws

theorem exec_gangPlace (gid : Nat) (places : List (Nat × Nat)) (s : State) : exec (.gangPlace gid places) s = execGangPlace gid places s := rfl

/-! ### Warps at their start -/

theorem zipIdx_wids (w0 n : Nat) : ((List.range n).map (w0 + ·)).zipIdx = (List.range n).map fun i => (w0 + i, i) := by
  refine List.ext_getElem (by simp) fun i h₁ h₂ => ?_
  simp

/-- Values put under the numbers that rise from a base, the i-th of them `f i`. -/
theorem find_putRange {α : Type} (m : Tbl α) (b n : Nat) (f : Nat → α) (q : Nat) :
    ((List.range n).foldl (fun (m : Tbl α) i => m.put (b + i) (f i)) m).find q = if b ≤ q ∧ q < b + n then some (f (q - b)) else m.find q := by
  induction n with
  | zero => rw [if_neg (by omega)]; rfl
  | succ n ih =>
    rw [List.range_succ, List.foldl_append, List.foldl_cons, List.foldl_nil, find_put, ih]
    by_cases h : q = b + n
    · rw [if_pos h, if_pos (by omega), h, Nat.add_sub_cancel_left]
    · rw [if_neg h]
      by_cases hq : b ≤ q ∧ q < b + n
      · rw [if_pos hq, if_pos (by omega)]
      · rw [if_neg hq, if_neg (by omega)]

/-- A table that lists a function of its keys. -/
theorem find_table {α : Type} {l : List Nat} (f : Nat → α) {q : Nat} (h : q ∈ l) : Tbl.find (l.map fun k => (k, f k)) q = some (f q) := by
  induction l with
  | nil => exact absurd h List.not_mem_nil
  | cons k l ih =>
    rw [List.map_cons, Tbl.find]
    split
    · next e => rw [e]
    · next e => exact ih ((List.mem_cons.mp h).resolve_left e)

/-- A lane is one of the four of its quad. -/
theorem quad_lanes : ∀ lane < 32, (0xF#32 <<< (4 * (lane / 4))).getLsbD lane = true := by decide

/-- A warp's start meets R21. -/
theorem startWarp_started (d : KDesc) (bid core i age : Nat) : Started d bid core i (startWarp d bid core i age) := by
  refine ⟨rfl, rfl, rfl, rfl, rfl, rfl, rfl, rfl, rfl, rfl, rfl, fun lane hl => ⟨?_, ?_⟩⟩
  · refine ⟨{ quad := lane / 4, lanes := 0xF#32 <<< (4 * (lane / 4)), pc := d.entry, hdr := d.entry },
      List.mem_map.mpr ⟨lane / 4, List.mem_range.mpr (by omega), rfl⟩, ?_, rfl, rfl, rfl, rfl, rfl, rfl⟩
    exact quad_lanes lane hl
  · exact congrArg (Option.getD · 0)
      (find_table (fun l => BitVec.ofNat 32 (d.zsize - 256 * 32 * d.nwarps + 256 * (32 * i + l + 1))) (List.mem_range.mpr hl))

/-! ### A block that is placed -/

section
variable (s : State) (d : KDesc) (gid rank : Nat) (at_ : Nat × Nat)

theorem placeBlock_nextId : (s.placeBlock d gid rank at_).nextId = s.nextId + 1 + d.nwarps := by
  simp [State.placeBlock, State.invalidate, State.clearRows, State.overwrite]

theorem placeBlock_blocks : (s.placeBlock d gid rank at_).blocks = s.blocks.put s.nextId (startBlock d gid rank (s.nextId + 1) at_) := by
  simp [State.placeBlock, State.invalidate, State.clearRows, State.overwrite]

theorem placeBlock_launches : (s.placeBlock d gid rank at_).launches = s.launches := by
  simp [State.placeBlock, State.invalidate, State.clearRows, State.overwrite]

theorem find_gangs_placeBlock (q : Nat) : (s.placeBlock d gid rank at_).gangs.find q =
    if q = gid then (s.gangs.find gid).map fun g => { g with bids := g.bids ++ [s.nextId] } else s.gangs.find q := by
  simp [State.placeBlock, State.invalidate, State.clearRows, State.overwrite, onGang_find]

theorem find_warps_placeBlock (q : Nat) : (s.placeBlock d gid rank at_).warps.find q =
    if s.nextId + 1 ≤ q ∧ q < s.nextId + 1 + d.nwarps then some (startWarp d s.nextId at_.1 (q - (s.nextId + 1)) q) else s.warps.find q := by
  have hw : (s.placeBlock d gid rank at_).warps = (List.range d.nwarps).foldl (fun (m : Tbl Warp) i =>
      m.put (s.nextId + 1 + i) (startWarp d s.nextId at_.1 i (s.nextId + 1 + i))) s.warps := by
    simp [State.placeBlock, State.invalidate, State.clearRows, State.overwrite, startBlock, zipIdx_wids, List.foldl_map]
  rw [hw, find_putRange _ _ _ fun i => startWarp d s.nextId at_.1 i (s.nextId + 1 + i)]
  by_cases h : s.nextId + 1 ≤ q ∧ q < s.nextId + 1 + d.nwarps
  · rw [if_pos h, if_pos h, Nat.add_sub_cancel' h.1]
  · rw [if_neg h, if_neg h]

end

/-! ### All blocks of a gang -/

/-- The name of the j-th block that is placed. -/
def bidAt (s : State) (d : KDesc) (j : Nat) : Nat := s.nextId + j * (1 + d.nwarps)

/-- The blocks of a list of places have been placed, from a rank upward. -/
structure Placed (s t : State) (d : KDesc) (gid rank : Nat) (l : List (Nat × Nat)) : Prop where
  gangs : t.gangs.find gid = (s.gangs.find gid).map fun g => { g with bids := g.bids ++ (List.range l.length).map (bidAt s d) }
  later : t.nextId = bidAt s d l.length
  launches : t.launches = s.launches
  older : ∀ q < s.nextId, t.blocks.find q = s.blocks.find q ∧ t.warps.find q = s.warps.find q
  block : ∀ (j : Nat) (x : Nat × Nat), l[j]? = some x → t.blocks.find (bidAt s d j) = some (startBlock d gid (rank + j) (bidAt s d j + 1) x)
  warp : ∀ (j : Nat) (x : Nat × Nat), l[j]? = some x → ∀ i < d.nwarps,
    t.warps.find (bidAt s d j + 1 + i) = some (startWarp d (bidAt s d j) x.1 i (bidAt s d j + 1 + i))

theorem placed_all (d : KDesc) (gid : Nat) (l : List (Nat × Nat)) (rank : Nat) (s : State) :
    Placed s ((l.zipIdx rank).foldl (fun s x => s.placeBlock d gid x.2 x.1) s) d gid rank l := by
  induction l generalizing s rank with
  | nil =>
    refine ⟨?_, by simp [bidAt], rfl, fun _ _ => ⟨rfl, rfl⟩, fun j x h => by simp at h, fun j x h => by simp at h⟩
    cases h : s.gangs.find gid <;> simp [h]
  | cons x l ih =>
    rw [List.zipIdx_cons, List.foldl_cons]
    have h := ih (rank + 1) (s.placeBlock d gid rank x)
    have hb (j : Nat) : bidAt (s.placeBlock d gid rank x) d j = bidAt s d (j + 1) := by
      rw [bidAt, bidAt, placeBlock_nextId]; ring
    have h0 : bidAt s d 0 = s.nextId := by simp [bidAt]
    have hl : (List.range (x :: l).length).map (bidAt s d) = s.nextId :: (List.range l.length).map (bidAt (s.placeBlock d gid rank x) d) := by
      rw [List.length_cons, List.range_succ_eq_map, List.map_cons, List.map_map, h0]
      exact congrArg (s.nextId :: ·) (List.map_congr_left fun j _ => (hb j).symm)
    have hlt : s.nextId + 1 + d.nwarps = (s.placeBlock d gid rank x).nextId := (placeBlock_nextId s d gid rank x).symm
    refine ⟨?_, h.later.trans (hb _), h.launches.trans (placeBlock_launches _ _ _ _ _), fun q hq => ?_, fun j y hy => ?_, fun j y hy i hi => ?_⟩
    · rw [h.gangs, find_gangs_placeBlock, if_pos rfl, Option.map_map, hl]
      exact congrArg (Option.map · _) (funext fun g => by simp)
    · obtain ⟨hbl, hwp⟩ := h.older q (by omega)
      rw [hbl, hwp, placeBlock_blocks, find_put_ne _ _ (by omega), find_warps_placeBlock, if_neg (by omega)]
      exact ⟨rfl, rfl⟩
    · cases j with
      | zero =>
        obtain rfl : x = y := Option.some.inj hy
        rw [h0, (h.older _ (by omega)).1, placeBlock_blocks, find_put_same]
        rfl
      | succ j =>
        rw [← hb, h.block j y hy, Nat.add_assoc, Nat.add_comm 1]
    · cases j with
      | zero =>
        obtain rfl : x = y := Option.some.inj hy
        rw [h0, (h.older _ (by omega)).2, find_warps_placeBlock, if_pos (by omega), Nat.add_sub_cancel_left]
      | succ j =>
        rw [← hb]
        exact h.warp j y hy i hi

/-! ### A gang that is placed -/

/-- The blocks of a gang on their cores. -/
def blocksPlaced (s : State) (gid : Nat) (d : KDesc) (places : List (Nat × Nat)) : State :=
  places.zipIdx.foldl (fun s x => s.placeBlock d gid x.2 x.1) (s.onGang gid fun g => { g with st := .running })

/-- The state after a gang's placement. -/
def gangPlaced (s : State) (gid : Nat) (g : Gang) (places : List (Nat × Nat)) : State :=
  ((blocksPlaced s gid (s.launch g.lid).desc places).onLaunch g.lid fun l => { l with started := l.started + 1 }).queueGang g

theorem placeOk_length {s : State} {P : Part} {d : KDesc} {places : List (Nat × Nat)} (h : s.placeOk P d places = true) :
    places.length = d.nblk := by
  unfold State.placeOk at h
  exact of_decide_eq_true (Bool.and_eq_true_iff.mp h).1

theorem exec_gangPlace_ok {s : State} {gid : Nat} {g : Gang} {places : List (Nat × Nat)} (hg : s.gangs.find gid = some g) (hw : g.st = .waiting)
    (ht : s.itsTurn gid g = true) (hp : s.placeOk (s.part (s.launch g.lid).part) (s.launch g.lid).desc places = true)
    (hu : ∀ x ∈ places, s.coreUp x.1 = true) : exec (.gangPlace gid places) s = .next (gangPlaced s gid g places) := by
  rw [exec_gangPlace, execGangPlace, hg]
  simp only [hw, ht, hp, List.all_eq_true.mpr hu, decide_true, Bool.and_self, if_true, gangPlaced, blocksPlaced]

theorem unitsKept_queueGang (s : State) (g : Gang) : UnitsKept s (s.queueGang g) := by
  unfold State.queueGang
  dsimp only
  split
  · exact ⟨rfl, rfl, rfl, Nat.le_succ _, fun gid hg => find_put_ne _ _ hg.ne⟩
  · exact .refl s

theorem queueGang_launches (s : State) (g : Gang) : (s.queueGang g).launches = s.launches := by
  unfold State.queueGang
  dsimp only
  split <;> rfl

theorem queueGang_next {s : State} {g : Gang} (h : g.idx + 1 < (s.launch g.lid).gangs) :
    ∃ x ∈ (s.queueGang g).gangs, x.2.lid = g.lid ∧ x.2.idx = g.idx + 1 ∧ x.2.st = .waiting := by
  unfold State.queueGang
  dsimp only
  rw [if_pos h]
  exact ⟨_, mem_of_find (find_put_same _ _ _), rfl, rfl, rfl⟩

section
variable {s : State} {gid : Nat} {g : Gang} {d : KDesc} {places : List (Nat × Nat)}

theorem blocksPlaced_placed : Placed (s.onGang gid fun g => { g with st := .running }) (blocksPlaced s gid d places) d gid 0 places :=
  placed_all d gid places 0 _

theorem bidAt_onGang (k : Nat) (f : Gang → Gang) : bidAt (s.onGang k f) d = bidAt s d := by
  funext j
  rw [bidAt, onGang_nextId, bidAt]

theorem blocksPlaced_block {j : Nat} {x : Nat × Nat} (h : places[j]? = some x) :
    (blocksPlaced s gid d places).blocks.find (bidAt s d j) = some (startBlock d gid j (bidAt s d j + 1) x) := by
  have hb := blocksPlaced_placed (s := s) (gid := gid) (d := d) |>.block j x h
  rwa [bidAt_onGang, Nat.zero_add] at hb

theorem blocksPlaced_warp {j : Nat} {x : Nat × Nat} (h : places[j]? = some x) {i : Nat} (hi : i < d.nwarps) :
    (blocksPlaced s gid d places).warps.find (bidAt s d j + 1 + i) =
      some (startWarp d (bidAt s d j) x.1 i (bidAt s d j + 1 + i)) := by
  have hb := blocksPlaced_placed (s := s) (gid := gid) (d := d) |>.warp j x h i hi
  rwa [bidAt_onGang] at hb

theorem blocksPlaced_launches : (blocksPlaced s gid d places).launches = s.launches :=
  blocksPlaced_placed.launches.trans (onGang_launches _ _ _)

/-- The launch of the gang counts it. -/
theorem gangPlaced_launches (lid : Nat) : (gangPlaced s gid g places).launches.find lid =
    if lid = g.lid then (s.launches.find g.lid).map fun l => { l with started := l.started + 1 } else s.launches.find lid := by
  rw [gangPlaced, queueGang_launches, onLaunch_find, blocksPlaced_launches]

theorem gangPlaced_units : UnitsKept (blocksPlaced s gid (s.launch g.lid).desc places) (gangPlaced s gid g places) :=
  (unitsKept_onLaunch _ _ _).trans (unitsKept_queueGang _ _)

theorem gangPlaced_gang (hg : s.gangs.find gid = some g) (hn : gid < s.nextId) (hb : g.bids = []) :
    (gangPlaced s gid g places).gang gid =
      { g with st := .running, bids := (List.range places.length).map (bidAt s (s.launch g.lid).desc) } := by
  have hp := blocksPlaced_placed (s := s) (gid := gid) (d := (s.launch g.lid).desc) (places := places)
  have hlt : gid < (blocksPlaced s gid (s.launch g.lid).desc places).nextId := by
    rw [hp.later, bidAt, onGang_nextId]
    omega
  rw [State.gang, Tbl.getD, gangPlaced_units.gangs gid hlt, hp.gangs, onGang_find, if_pos rfl, hg]
  simp only [Option.map_some, Option.getD_some, hb, List.nil_append, bidAt_onGang]

theorem gangPlaced_next (h : g.idx + 1 < (s.launch g.lid).gangs) :
    ∃ x ∈ (gangPlaced s gid g places).gangs, x.2.lid = g.lid ∧ x.2.idx = g.idx + 1 ∧ x.2.st = .waiting := by
  refine queueGang_next ?_
  unfold State.launch Tbl.getD at h ⊢
  rw [onLaunch_find, if_pos rfl, blocksPlaced_launches]
  cases hf : s.launches.find g.lid with
  | none => rw [hf] at h; exact h
  | some l => rw [hf] at h; exact h

end

theorem gangPlace_gives (s : State) (gid : Nat) (g : Gang) (places : List (Nat × Nat)) (hg : s.gangs.find gid = some g)
    (hw : g.st = .waiting) (hb : g.bids = []) (hn : gid < s.nextId) (ht : s.itsTurn gid g = true)
    (hp : s.placeOk (s.part (s.launch g.lid).part) (s.launch g.lid).desc places = true) (hu : ∀ x ∈ places, s.coreUp x.1 = true) :
    let l := s.launch g.lid
    ∃ t, exec (.gangPlace gid places) s = .next t ∧ (t.gang gid).st = .running ∧ (t.gang gid).bids.length = places.length ∧
      places.length = l.desc.nblk ∧
      (∀ (j : Nat) (x : Nat × Nat), places[j]? = some x → ∃ bid, (t.gang gid).bids[j]? = some bid ∧ s.nextId ≤ bid ∧
        (t.block bid).gid = gid ∧ (t.block bid).rank = j ∧ (t.block bid).core = x.1 ∧ (t.block bid).retired = false ∧
        (t.block bid).wids.length = l.desc.nwarps ∧
        ∀ (i wid : Nat), (t.block bid).wids[i]? = some wid → ∃ w, t.warps.find wid = some w ∧ Started l.desc bid x.1 i w) ∧
      (s.launches.find g.lid ≠ none → (t.launch g.lid).started = l.started + 1) ∧
      (g.idx + 1 < l.gangs → ∃ x ∈ t.gangs, x.2.lid = g.lid ∧ x.2.idx = g.idx + 1 ∧ x.2.st = .waiting) := by
  intro l
  have hgang := gangPlaced_gang (places := places) hg hn hb
  have hunits := gangPlaced_units (s := s) (gid := gid) (g := g) (places := places)
  refine ⟨_, exec_gangPlace_ok hg hw ht hp hu, by rw [hgang], by rw [hgang]; simp, placeOk_length hp, fun j x hx => ?_, fun hl => ?_,
    gangPlaced_next⟩
  · have hblk : (gangPlaced s gid g places).block (bidAt s l.desc j) = startBlock l.desc gid j (bidAt s l.desc j + 1) x := by
      rw [State.block, Tbl.getD, hunits.blocks, blocksPlaced_block hx]
      rfl
    have hj : j < places.length := (List.getElem?_eq_some_iff.mp hx).1
    refine ⟨bidAt s l.desc j, ?_, Nat.le_add_right _ _, ?_⟩
    · rw [hgang, List.getElem?_map, List.getElem?_range hj]
      rfl
    · rw [hblk]
      refine ⟨rfl, rfl, rfl, rfl, by simp [startBlock], fun i wid hi => ?_⟩
      obtain ⟨hi', rfl⟩ := List.getElem?_eq_some_iff.mp hi
      have hin : i < l.desc.nwarps := by simpa [startBlock] using hi'
      refine ⟨_, ?_, startWarp_started l.desc (bidAt s l.desc j) x.1 i (bidAt s l.desc j + 1 + i)⟩
      rw [hunits.warps, ← blocksPlaced_warp (s := s) (gid := gid) hx hin]
      simp [startBlock, l]
  · obtain ⟨l₀, h₀⟩ := Option.ne_none_iff_exists'.mp hl
    simp only [l, State.launch, Tbl.getD, gangPlaced_launches, if_true, h₀, Option.map_some, Option.getD_some]

end Sys2Proof.Kernels

/-! # Blocks that are done (R22, R23; log entry 97) -/
namespace Sys2Proof.Kernels
open Sys2Proof Sys2Proof.Machine Sys2Proof.Laws

theorem exec_blockRetire (bid : Nat) (s : State) : exec (.blockRetire bid) s = execBlockRetire bid s := rfl

/-! ### A block that is freed -/

section
variable (s : State) (bid : Nat) (b : Block)

theorem freeBlock_blocks : (s.freeBlock bid b).blocks = s.blocks.put bid { b with retired := true, scratch := [], tags := 0 } := rfl

theorem retired_freeBlock (x : Nat) : ((s.freeBlock bid b).block x).retired = (decide (x = bid) || (s.block x).retired) := by
  unfold State.block Tbl.getD
  rw [freeBlock_blocks]
  by_cases h : x = bid
  · subst h
    simp [find_put_same]
  · simp [find_put_ne _ _ h, h]

end

/-- A gang's end leaves the units and the other gangs as they were but for its blocks. -/
theorem unitsKept_gangDone (s : State) (gid : Nat) :
    UnitsKept { s with blocks := s.blocks.filter fun b => b.2.gid ≠ gid, gangs := s.gangs.del gid } (s.gangDone gid) := by
  unfold State.gangDone
  dsimp only
  split
  · split
    · exact (unitsKept_onLaunch _ _ _).trans (unitsKept_launchDone _ _ _)
    · exact unitsKept_onLaunch _ _ _
  · exact unitsKept_onLaunch _ _ _

/-! ### A retirement -/

/-- The state after a block's retirement, its gang's end with it when it was the last. -/
def retired (s : State) (bid : Nat) (b : Block) : State :=
  let t := (s.leaveRelic bid b).freeBlock bid b
  if (t.gang b.gid).bids.all fun x => (t.block x).retired then t.gangDone b.gid else t

section
variable {s : State} {bid : Nat} {b : Block}

theorem exec_blockRetire_done (hb : s.blocks.find bid = some b) (hd : s.blockDone bid b = true) (hh : s.retireHeld bid b = false) :
    exec (.blockRetire bid) s = .next (retired s bid b) := by
  rw [exec_blockRetire, execBlockRetire, hb]
  simp only [hd, hh, Bool.not_false, Bool.and_self, if_true, retired]

theorem retired_of_rest (h : ∃ x ∈ (s.gang b.gid).bids, x ≠ bid ∧ (s.block x).retired = false) :
    retired s bid b = (s.leaveRelic bid b).freeBlock bid b := by
  obtain ⟨x, hx, hne, hr⟩ := h
  refine if_neg fun hall => ?_
  have hxr := List.all_eq_true.mp hall x hx
  rw [retired_freeBlock, decide_eq_false hne, Bool.false_or] at hxr
  exact absurd hxr (by rw [show ((s.leaveRelic bid b).block x).retired = (s.block x).retired from rfl, hr]; decide)

theorem retired_of_last (h : ∀ x ∈ (s.gang b.gid).bids, x = bid ∨ (s.block x).retired = true) :
    retired s bid b = ((s.leaveRelic bid b).freeBlock bid b).gangDone b.gid := by
  refine if_pos (List.all_eq_true.mpr fun x hx => ?_)
  rw [retired_freeBlock, Bool.or_eq_true, decide_eq_true_eq]
  exact h x hx

/-- What a retirement leaves of the units, whether or not the gang ends with it. -/
theorem retired_units : (retired s bid b).warps = (s.warps.filter fun w => w.2.bid ≠ bid) ∧
    (retired s bid b).relics = s.relics ++ [{ bid := bid, block := b, warps := s.warps.filter fun w => w.2.bid = bid }] := by
  unfold retired
  dsimp only
  split
  · have h := unitsKept_gangDone ((s.leaveRelic bid b).freeBlock bid b) b.gid
    exact ⟨h.warps, h.relics⟩
  · exact ⟨rfl, rfl⟩

theorem retired_last (hn : b.gid < s.nextId) (h : ∀ x ∈ (s.gang b.gid).bids, x = bid ∨ (s.block x).retired = true) :
    (retired s bid b).gangs.find b.gid = none ∧ ∀ x ∈ (retired s bid b).blocks, x.2.gid ≠ b.gid := by
  have hk := unitsKept_gangDone ((s.leaveRelic bid b).freeBlock bid b) b.gid
  rw [retired_of_last h]
  refine ⟨(hk.gangs b.gid hn).trans (find_del_same _ _), fun x hx => ?_⟩
  rw [hk.blocks] at hx
  exact of_decide_eq_true (List.mem_filter.mp hx).2

end

theorem blockRetire_gives (s : State) (bid : Nat) (b : Block) (hb : s.blocks.find bid = some b) (hd : s.blockDone bid b = true)
    (hh : s.retireHeld bid b = false) (hn : b.gid < s.nextId) : ∃ t, exec (.blockRetire bid) s = .next t ∧
      (∃ r ∈ t.relics, r.bid = bid ∧ r.block = b ∧ r.warps = s.warps.filter fun w => w.2.bid = bid) ∧
      (∀ w ∈ t.warps, w.2.bid ≠ bid) ∧ (∀ w ∈ s.warps, w.2.bid ≠ bid → ∃ x ∈ t.warps, x.1 = w.1) ∧
      ((∃ x ∈ (s.gang b.gid).bids, x ≠ bid ∧ (s.block x).retired = false) → (t.block bid).retired = true ∧
        t.gangs = s.gangs ∧ t.launches = s.launches) ∧
      ((∀ x ∈ (s.gang b.gid).bids, x = bid ∨ (s.block x).retired = true) → t.gangs.find b.gid = none ∧
        ∀ x ∈ t.blocks, x.2.gid ≠ b.gid) := by
  obtain ⟨hw, hr⟩ := retired_units (s := s) (bid := bid) (b := b)
  refine ⟨retired s bid b, exec_blockRetire_done hb hd hh, ⟨_, hr ▸ List.mem_append_right _ (List.mem_singleton_self _), rfl, rfl, rfl⟩,
    fun w h => ?_, fun w h hne => ⟨w, hw ▸ List.mem_filter.mpr ⟨h, decide_eq_true hne⟩, rfl⟩, fun h => ?_, retired_last hn⟩
  · rw [hw] at h
    exact of_decide_eq_true (List.mem_filter.mp h).2
  · rw [retired_of_rest h]
    exact ⟨by rw [retired_freeBlock, decide_eq_true rfl, Bool.true_or], rfl, rfl⟩

end Sys2Proof.Kernels

/-! # Gangs that are halted (R310, R374, R403; log entry 93) -/
namespace Sys2Proof.Kernels
open Sys2Proof Sys2Proof.Machine Sys2Proof.Laws

theorem exec_preemptRequest (gid : Nat) (s : State) : exec (.preemptRequest gid) s = execPreemptRequest gid s := rfl
theorem exec_preemptWaitTimeout (gid : Nat) (s : State) : exec (.preemptWaitTimeout gid) s = execPreemptWaitTimeout gid s := rfl

/-! ### Operations taken back -/

/-- The state without its operations, their counts and the cores' tags. -/
def noOps (s : State) : State := { s with ops := [], outst := [], cores := [] }

theorem takeBack_noOps (s : State) (id : Nat) (o : EngineOp) : noOps (s.takeBack id o) = noOps s := by
  unfold State.takeBack
  dsimp only
  split <;> rfl

theorem withdraw_noOps (s : State) (wid : Nat) (lanes : Word) : noOps (s.withdraw wid lanes) = noOps s :=
  List.foldlRecOn (motive := fun t : State => noOps t = noOps s) _ _ rfl fun _ h _ _ => (takeBack_noOps _ _ _).trans h

/-- The operations at issue of some warps have been taken back, and no other. -/
def AllTookBack (s : State) (wids : List Nat) (t : State) : Prop :=
  (∀ p ∈ t.ops, p ∈ s.ops ∧ (p.2.wid ∈ wids → p.2.lane < 32 → p.2.atIssue = false)) ∧
  ∀ p ∈ s.ops, (∀ q ∈ s.ops, q.1 = p.1 → q.2.wid ∈ wids → q.2.atIssue = false) → p ∈ t.ops

/-- The operations at issue of a list of warps are taken back. -/
def withdrawAll (s : State) (wids : List Nat) : State := wids.foldl (fun s wid => s.withdraw wid (BitVec.allOnes 32)) s

theorem withdrawAll_noOps (s : State) (wids : List Nat) : noOps (withdrawAll s wids) = noOps s :=
  List.foldlRecOn (motive := fun t : State => noOps t = noOps s) _ _ rfl fun _ h _ _ => (withdraw_noOps _ _ _).trans h

theorem allTookBack_withdrawAll (wids : List Nat) (s : State) : AllTookBack s wids (withdrawAll s wids) := by
  induction wids generalizing s with
  | nil => exact ⟨fun p hp => ⟨hp, fun h => absurd h List.not_mem_nil⟩, fun p hp _ => hp⟩
  | cons wid wids ih =>
    obtain ⟨h1, h2⟩ := tookBack_withdraw s wid (BitVec.allOnes 32)
    obtain ⟨i1, i2⟩ := ih (s.withdraw wid (BitVec.allOnes 32))
    refine ⟨fun p hp => ⟨(h1 p (i1 p hp).1).1, fun hw hl => ?_⟩, fun p hp hno => ?_⟩
    · obtain rfl | hw := List.mem_cons.mp hw
      · exact (h1 p (i1 p hp).1).2 rfl (by rw [BitVec.getLsbD_allOnes]; exact decide_eq_true hl)
      · exact (i1 p hp).2 hw hl
    · refine i2 p (h2 p hp fun q hq hk hw _ => hno q hq hk (hw ▸ List.mem_cons_self)) fun q hq hk hw => ?_
      exact hno q (h1 q hq).1 hk (List.mem_cons_of_mem _ hw)

theorem withdrawAll_none {s : State} {wids : List Nat} (h : ∀ wid ∈ wids, noneAtIssue s wid (BitVec.allOnes 32)) : withdrawAll s wids = s := by
  induction wids with
  | nil => rfl
  | cons wid wids ih =>
    unfold withdrawAll at ih ⊢
    rw [List.foldl_cons, withdraw_none (h wid List.mem_cons_self), ih fun x hx => h x (List.mem_cons_of_mem _ hx)]

/-! ### A warp at the halt -/

theorem splitBy_requeued (w : Warp) (k : Nat) (ends : List Nat) : Requeued w (w.splitBy k ends) := by
  unfold Warp.splitBy
  split
  · exact .refl w
  · next rest =>
    refine ⟨rfl, ?_⟩
    dsimp only
    refine List.foldlRecOn
      (motive := fun r : List Group × Nat => ∃ f : Group → Group, r.1 = w.groups.map f ∧ ∀ g, unplaced (f g) = unplaced g) _ _ ⟨id, (List.map_id _).symm, fun _ => rfl⟩ fun r ⟨f, hf, hk⟩ b _ => ?_
    refine ⟨_, (congrArg _ hf).trans (List.map_map ..), fun g => ?_⟩
    dsimp only [Function.comp]
    split
    · exact hk g
    · exact hk g

/-- The warp whose held predicates have split by stage. -/
def stagesSplit (w : Warp) : Warp :=
  w.slivers.foldl (fun w k => if (w.running k).all fun g => g.st = .geo then w.splitStages k else w) w

theorem stagesSplit_requeued (w : Warp) : Requeued w (stagesSplit w) :=
  foldl_inv Requeued .refl .trans _ (fun w k => by split <;> [exact splitBy_requeued _ _ _; exact .refl w]) _ w

/-- Where a group stands after the halt. -/
theorem halt_place (g : Group) : g.halt.lanes = g.lanes ∧ g.halt.pc = (if g.st ≠ .geo ∧ g.waits = true then g.hdr else g.pc) ∧
    g.halt.hdr = g.hdr ∧ g.halt.depth = g.depth := by
  unfold Group.halt
  split
  · next h => simp_all
  · split
    · next h => simp_all
    · next h => simp_all

theorem halt_geo {g : Group} (h : g.halt.st = .geo) : g.halt.bound = g.halt.since + 12 := by
  unfold Group.halt at h ⊢
  split at h
  · cases h
  · next h1 =>
    split at h
    · cases h
    · next h2 => simp_all

theorem Warp.halt_groups (w : Warp) : w.halt.groups = (stagesSplit w).groups.map Group.halt := rfl

/-- A warp's halt leaves its fields but its groups and the results to come. -/
theorem Warp.halt_still (w : Warp) : { w.halt.still with geoOut := [] } = { w.still with geoOut := [] } :=
  congrArg (fun v : Warp => { v with geoOut := [] }) (stagesSplit_requeued w).1

/-- Every group of a halted warp stands with its lanes where the halt puts it. -/
theorem Warp.halt_stands {w : Warp} {x : Group} (hx : x ∈ w.groups) : ∃ y ∈ w.halt.groups, y.lanes = x.lanes ∧
    y.pc = (if x.st ≠ .geo ∧ x.waits = true then x.hdr else x.pc) ∧ y.hdr = x.hdr ∧ y.depth = x.depth := by
  obtain ⟨-, f, hf, hk⟩ := stagesSplit_requeued w
  obtain ⟨hl, hp, hh, hd⟩ := halt_place (f x)
  have hu := hk x
  refine ⟨(f x).halt, ?_, hl.trans (congrArg Group.lanes hu :), hp.trans ?_,
    hh.trans (congrArg Group.hdr hu :), hd.trans (congrArg Group.depth hu :)⟩
  · rw [Warp.halt_groups, hf]
    exact List.mem_map_of_mem (List.mem_map_of_mem hx)
  · exact (congrArg (fun g : Group => if g.st ≠ .geo ∧ g.waits = true then g.hdr else g.pc) hu :)

/-! ### A gang at the halt -/

/-- A gang's warps at the halt, before its operations are taken back. -/
def warpsHalted (s : State) (gid : Nat) : State :=
  let wids := s.gangWids gid
  { s.dissolve (wids.flatMap fun wid => (s.warp wid).slivers.map fun k => (wid, k)) with
    accs := s.accs.filter fun (a : Nat × Access) => !(a.2.kind = AccKind.jtab && wids.contains a.2.wid)
    warps := s.warps.map fun (x : Nat × Warp) => (x.1, if wids.contains x.1 then x.2.halt else x.2) }

theorem haltGang_eq (s : State) (gid : Nat) :
    s.haltGang gid = (withdrawAll (warpsHalted s gid) (s.gangWids gid)).onGang gid fun g => { g with st := .halted } := rfl

section
variable (s : State) (gid : Nat)

theorem haltGang_gangs (q : Nat) :
    (s.haltGang gid).gangs.find q = if q = gid then (s.gangs.find gid).map fun g => { g with st := .halted } else s.gangs.find q := by
  have hg : (withdrawAll (warpsHalted s gid) (s.gangWids gid)).gangs = s.gangs :=
    (congrArg State.gangs (withdrawAll_noOps (warpsHalted s gid) (s.gangWids gid)) :)
  rw [haltGang_eq, onGang_find, hg]

theorem haltGang_warps (wid : Nat) : (s.haltGang gid).warps.find wid =
    (s.warps.find wid).map fun w => if (s.gangWids gid).contains wid then w.halt else w := by
  have hw : (withdrawAll (warpsHalted s gid) (s.gangWids gid)).warps = (warpsHalted s gid).warps :=
    (congrArg State.warps (withdrawAll_noOps (warpsHalted s gid) (s.gangWids gid)) :)
  rw [haltGang_eq, onGang_warps, hw]
  exact find_map_snd s.warps (fun k w => if (s.gangWids gid).contains k then w.halt else w) wid

theorem haltGang_warp (wid : Nat) : (s.haltGang gid).warp wid = if wid ∈ s.gangWids gid then (s.warp wid).halt else s.warp wid := by
  unfold State.warp Tbl.getD
  rw [haltGang_warps]
  cases s.warps.find wid with
  | none => exact (ite_self noWarp).symm
  | some w => simp

theorem haltGang_accs : (s.haltGang gid).accs =
    s.accs.filter fun (a : Nat × Access) => !(a.2.kind = AccKind.jtab && (s.gangWids gid).contains a.2.wid) := by
  rw [haltGang_eq, onGang_accs]
  exact (congrArg State.accs (withdrawAll_noOps (warpsHalted s gid) (s.gangWids gid)) :)

theorem haltTookBack_haltGang : HaltTookBack s gid (s.haltGang gid) := by
  have h := allTookBack_withdrawAll (s.gangWids gid) (warpsHalted s gid)
  unfold HaltTookBack
  rw [haltGang_eq, onGang_ops]
  exact h

theorem haltGang_at (th : Th) (x : Group) (hx : x ∈ (s.warp th.wid).groups) (hl : x.lanes.getLsbD th.lane = true) :
    (s.haltGang gid).At th (haltedAt s gid th.wid x) := by
  unfold State.At haltedAt
  rw [haltGang_warp]
  by_cases hw : th.wid ∈ s.gangWids gid
  · obtain ⟨y, hy, h1, h2, h3, h4⟩ := Warp.halt_stands hx
    refine ⟨y, (if_pos hw).symm ▸ hy, h1 ▸ hl, h2.trans ?_, h3, h4⟩
    simp only [hw, true_and]
  · refine ⟨x, (if_neg hw).symm ▸ hx, hl, ?_, rfl, rfl⟩
    simp only [hw, false_and, if_false]

theorem haltGang_geo {wid : Nat} (hw : wid ∈ s.gangWids gid) {x : Group} (hx : x ∈ ((s.haltGang gid).warp wid).groups) (hg : x.st = .geo) :
    x.bound = x.since + 12 := by
  rw [haltGang_warp, if_pos hw, Warp.halt_groups] at hx
  obtain ⟨y, -, rfl⟩ := List.mem_map.mp hx
  exact halt_geo hg

theorem leaves_warpsHalted : Leaves s (warpsHalted s gid)
    { warp := fun w => { w with geoOut := [] }, gang := fun g => { g with st := .waiting }, acc := fun _ => none } where
  warps k _ := by
    have hf := find_map_snd s.warps (fun k w => if (s.gangWids gid).contains k then w.halt else w) k
    refine (congrArg _ hf).trans ?_
    cases s.warps.find k with
    | none => rfl
    | some w =>
      refine congrArg some ?_
      dsimp only
      split
      · exact Warp.halt_still w
      · rfl
  parts := sameTbl_refl _ _
  blocks := sameTbl_refl _ _
  gangs := sameTbl_refl _ _
  launches := sameTbl_refl _ _
  ops := sameTbl_refl _ _
  cores _ := rfl
  accs k _ := by
    cases (warpsHalted s gid).accs.find k <;> cases s.accs.find k <;> rfl
  upsets _ h _ := h
  rest := rfl

theorem leaves_haltGang (h : ∀ wid ∈ s.gangWids gid, noneAtIssue s wid (BitVec.allOnes 32)) : Leaves s (s.haltGang gid)
    { warp := fun w => { w with geoOut := [] }, gang := fun g => { g with st := .waiting }, acc := fun _ => none } := by
  rw [haltGang_eq, withdrawAll_none (s := warpsHalted s gid) h]
  refine Laws.Leaves.trans (leaves_warpsHalted s gid) (leaves_onGang _ _ _ _ ?_)
  exact fun _ => rfl

end

theorem preemptRequest_gives (s : State) (gid : Nat) (g : Gang) (hg : s.gangs.find gid = some g) (hr : g.st = .running) :
    ∃ t, exec (.preemptRequest gid) s = .next t ∧ (t.gang gid).st = .halted ∧
      (∀ th, ∀ x ∈ (s.warp th.wid).groups, x.lanes.getLsbD th.lane = true → t.At th (haltedAt s gid th.wid x)) ∧
      (∀ wid ∈ s.gangWids gid, ∀ x ∈ (t.warp wid).groups, x.st = .geo → x.bound = x.since + 12) ∧ HaltTookBack s gid t ∧
      (∀ a ∈ t.accs, ¬ (a.2.kind = .jtab ∧ a.2.wid ∈ s.gangWids gid)) ∧ AccessesKept s t ∧
      ((∀ wid ∈ s.gangWids gid, noneAtIssue s wid (BitVec.allOnes 32)) →
        Leaves s t { warp := fun w => { w with geoOut := [] }, gang := fun g => { g with st := .waiting }, acc := fun _ => none }) := by
  have he : exec (.preemptRequest gid) s = .next (s.haltGang gid) := by
    rw [exec_preemptRequest, execPreemptRequest, hg]
    exact congrArg Host.Outcome.next (if_pos hr)
  refine ⟨_, he, ?_, haltGang_at s gid, fun wid hw x hx => haltGang_geo s gid hw hx, haltTookBack_haltGang s gid,
    fun a ha => ?_, ⟨fun p hp => ?_, fun p hp hk => ?_⟩, leaves_haltGang s gid⟩
  · rw [State.gang, Tbl.getD, haltGang_gangs, if_pos rfl, hg]
    rfl
  · rw [haltGang_accs] at ha
    simpa [imp_iff_not_or] using (List.mem_filter.mp ha).2
  · rw [haltGang_accs] at hp
    exact (List.mem_filter.mp hp).1
  · rw [haltGang_accs]
    exact List.mem_filter.mpr ⟨hp, by simp [hk]⟩

/-! ### Victims (R374) -/

theorem haltAll_gangs (vs : List Nat) (s : State) (q : Nat) : (vs.foldl State.haltGang s).gangs.find q =
    if q ∈ vs then (s.gangs.find q).map fun g => { g with st := .halted } else s.gangs.find q := by
  induction vs generalizing s with
  | nil => rfl
  | cons v vs ih =>
    rw [List.foldl_cons, ih, haltGang_gangs]
    by_cases hq : q = v
    · subst hq
      rw [if_pos rfl, if_pos List.mem_cons_self, Option.map_map]
      exact ite_self _
    · simp only [hq, if_false, List.mem_cons, false_or]

theorem enough_subset {s : State} {P : Part} {d : KDesc} {gone l vs : List Nat} (h : s.enough P d gone l = some vs) : vs ⊆ l := by
  induction l generalizing gone vs with
  | nil =>
    unfold State.enough at h
    split at h
    · exact Option.some.inj h ▸ List.Subset.refl _
    · cases h
  | cons v l ih =>
    unfold State.enough at h
    split at h
    · exact Option.some.inj h ▸ List.nil_subset _
    · obtain ⟨r, hr, rfl⟩ := Option.map_eq_some_iff.mp h
      exact List.cons_subset_cons v (ih hr)

theorem mem_insertVictim {s : State} {x y : Nat × Gang} {l : List (Nat × Gang)} : y ∈ s.insertVictim x l ↔ y = x ∨ y ∈ l := by
  induction l with
  | nil => simp [State.insertVictim]
  | cons z l ih =>
    rw [State.insertVictim]
    split
    · exact List.mem_cons
    · simp only [List.mem_cons, ih]
      tauto

theorem victims_subset (s : State) (p prio : Nat) : s.victims p prio ⊆ s.gangs := by
  have h (l : List (Nat × Gang)) : l.foldr s.insertVictim [] ⊆ l := by
    induction l with
    | nil => exact List.Subset.refl _
    | cons x l ih =>
      intro y hy
      rw [List.foldr_cons, mem_insertVictim] at hy
      exact List.mem_cons.mpr (hy.imp_right fun h => ih h)
  exact fun y hy => (List.mem_filter.mp (h _ hy)).1

theorem find_of_key {α : Type} {t : Tbl α} {p : Nat × α} (h : p ∈ t) : ∃ x, t.find p.1 = some x := by
  induction t with
  | nil => exact absurd h List.not_mem_nil
  | cons a t ih =>
    rw [Tbl.find]
    split
    · exact ⟨_, rfl⟩
    · next hne =>
      obtain rfl | h := List.mem_cons.mp h
      · exact absurd rfl hne
      · exact ih h

theorem preemptWaitTimeout_gives (s : State) (gid : Nat) (g : Gang) (vs : List Nat) (hg : s.gangs.find gid = some g) (hw : g.waits = true)
    (ht : g.waitFrom + 50000 ≤ s.gtime) (ho : ∃ x ∈ s.offered (s.launch g.lid).part, x.1 = gid)
    (hv : s.enough (s.part (s.launch g.lid).part) (s.launch g.lid).desc ((s.gangs.filter fun x => x.2.st = .halted).map (·.1))
      ((s.victims (s.launch g.lid).part (s.launch g.lid).prio).map (·.1)) = some vs) :
    ∃ t, exec (.preemptWaitTimeout gid) s = .next t ∧ (∀ v ∈ vs, (t.gang v).st = .halted) ∧
      ∀ q, q ∉ vs → t.gangs.find q = s.gangs.find q := by
  have he : exec (.preemptWaitTimeout gid) s = .next (vs.foldl State.haltGang s) := by
    rw [exec_preemptWaitTimeout, execPreemptWaitTimeout, hg]
    have ho' : ((s.offered (s.launch g.lid).part).any fun x => decide (x.1 = gid)) = true := by
      simpa using ho
    simp only [hw, ht, ho', decide_true, Bool.and_self, if_true, hv]
  refine ⟨_, he, fun v hvs => ?_, fun q hq => ?_⟩
  · obtain ⟨x, hx, rfl⟩ := List.mem_map.mp (enough_subset hv hvs)
    obtain ⟨y, hy⟩ := find_of_key (victims_subset _ _ _ hx)
    rw [State.gang, Tbl.getD, haltAll_gangs, if_pos hvs, hy]
    rfl
  · rw [haltAll_gangs, if_neg hq]

end Sys2Proof.Kernels

/-! # Gangs that are saved (R296, R404, R406) -/
namespace Sys2Proof.Kernels
open Sys2Proof Sys2Proof.Machine Sys2Proof.Laws

theorem exec_preemptSave (gid : Nat) (s : State) : exec (.preemptSave gid) s = execPreemptSave gid s := rfl

/-! ### What an abandoned wait leaves -/

/-- Warps, blocks and gangs are as they were. -/
def SameUnits (s t : State) : Prop := t.warps = s.warps ∧ t.blocks = s.blocks ∧ t.gangs = s.gangs

theorem SameUnits.refl (s : State) : SameUnits s s := ⟨rfl, rfl, rfl⟩
theorem SameUnits.trans {s t u : State} (h : SameUnits s t) (g : SameUnits t u) : SameUnits s u :=
  ⟨g.1.trans h.1, g.2.1.trans h.2.1, g.2.2.trans h.2.2⟩

theorem Below.same {s t : State} (h : Below s t) : SameUnits s t := ⟨h.warps, h.blocks, h.gangs⟩

theorem sameUnits_onAcc (s : State) (id : Nat) (f : Access → Access) : SameUnits s (s.onAcc id f) :=
  ⟨onAcc_warps _ _ _, onAcc_blocks _ _ _, onAcc_gangs _ _ _⟩

theorem sameUnits_onOp (s : State) (id : Nat) (f : EngineOp → EngineOp) : SameUnits s (s.onOp id f) :=
  ⟨onOp_warps _ _ _, onOp_blocks _ _ _, onOp_gangs _ _ _⟩

theorem below_l1Evict (s : State) (l : L1Line) : Below s (s.l1Evict l) := by
  have ht := (translate_walked s l.part l.asid (BitVec.ofNat 64 (l.line * 128)) .cwb).below
  unfold State.l1Evict
  dsimp only
  split
  · exact ⟨rfl, le_rfl⟩
  · split
    · next lf tile _ _ => exact (ht.trans (below_forceBack _ l.part l.asid l.line tile lf)).trans ⟨rfl, le_rfl⟩
    · split
      · split
        · exact ht.trans ⟨rfl, le_rfl⟩
        · exact ht.trans ⟨rfl, le_rfl⟩
      · exact ht.trans ⟨rfl, le_rfl⟩

theorem below_l1Room (s : State) (core p asid line hid : Nat) : Below s (s.l1Room core p asid line hid) := by
  unfold State.l1Room
  dsimp only
  split
  · exact .refl s
  · split
    · next l _ =>
      have hc : Below s { s with freeCtr := s.freeCtr + 1 } := ⟨rfl, le_rfl⟩
      exact hc.trans (below_l1Evict _ l)
    · exact .refl s

theorem below_l1Merge (s : State) (core p asid line hid off : Nat) (bytes : List Byte) (own : Bool) :
    Below s (s.l1Merge core p asid line hid off bytes own) :=
  (below_l1Room s core p asid line hid).trans ⟨rfl, le_rfl⟩

theorem sameUnits_versionAck (s : State) (id : Nat) (a : Access) : SameUnits s (s.versionAck id a) := by
  unfold State.versionAck
  dsimp only
  refine SameUnits.trans ?_ (sameUnits_onAcc _ _ _)
  split
  · next hid _ => exact SameUnits.trans ⟨rfl, rfl, rfl⟩ (below_l1Merge (s.dropSnaps a.core a.part a.asid (lineOf a.va)) _ _ _ _ _ _ _ _).same
  · exact .refl s

theorem sameUnits_failAcc (s : State) (id : Nat) (f : WalkFail) : SameUnits s (s.failAcc id f) := by
  unfold State.failAcc
  refine SameUnits.trans ?_ (sameUnits_onAcc _ _ _)
  split
  · exact (below_logMac _ _ _ _ _).same
  · exact .refl s

theorem sameUnits_capacityFail (s : State) (id : Nat) (a : Access) (detail : Nat) : SameUnits s (s.capacityFail id a detail) := by
  unfold State.capacityFail
  dsimp only
  split
  · exact sameUnits_versionAck _ _ _
  · split
    · exact .refl s
    · exact sameUnits_failAcc _ _ _

theorem sameUnits_failOp (s : State) (id : Nat) (f : WalkFail) (addr : DWord) : SameUnits s (s.failOp id f addr) := by
  unfold State.failOp
  refine SameUnits.trans ?_ (sameUnits_onOp _ _ _)
  split
  · exact (below_logMac _ _ _ _ _).same
  · exact .refl s

theorem sameUnits_opCapacityFail (s : State) (id : Nat) (o : EngineOp) (detail : Nat) : SameUnits s (s.opCapacityFail id o detail) := by
  unfold State.opCapacityFail
  dsimp only
  split
  · split
    · exact .refl s
    · exact sameUnits_failOp _ _ _ _
  · exact .refl s

theorem sameUnits_failWaiting (s : State) (wids : List Nat) : SameUnits s (s.failWaiting wids) := by
  unfold State.failWaiting
  refine SameUnits.trans (t := (s.accs.filter fun a => a.2.order.isSome && wids.contains a.2.wid).foldl (fun s a => s.capacityFail a.1 a.2 1) s) ?_ ?_
  · exact foldl_inv SameUnits .refl (fun _ _ _ => .trans) _ (fun s (a : Nat × Access) => sameUnits_capacityFail s a.1 a.2 1) _ s
  · exact foldl_inv SameUnits .refl (fun _ _ _ => .trans) _ (fun s (o : Nat × EngineOp) => sameUnits_opCapacityFail s o.1 o.2 1) _ _

/-! ### Blocks that leave their cores -/

theorem find_filter_of {α : Type} {t : Tbl α} {k : Nat} {x : α} (p : Nat × α → Bool) (h : t.find k = some x) (hp : p (k, x) = true) :
    Tbl.find (t.filter p) k = some x := by
  induction t with
  | nil => cases h
  | cons a t ih =>
    obtain ⟨q, y⟩ := a
    rw [Tbl.find] at h
    split at h
    · next e =>
      subst e
      obtain rfl := Option.some.inj h
      rw [List.filter_cons_of_pos hp, Tbl.find, if_pos rfl]
    · next e =>
      rw [List.filter_cons]
      split
      · rw [Tbl.find, if_neg e]
        exact ih h
      · exact ih h

section
variable (s : State)

theorem unplace_warps (bid : Nat) (b : Block) (im : BlockImage) : (s.unplace bid b im).warps = s.warps.filter fun w => w.2.bid ≠ bid := by
  simp [State.unplace, State.clearRows]

theorem unplace_gangs (bid : Nat) (b : Block) (im : BlockImage) : (s.unplace bid b im).gangs = s.gangs := by
  simp [State.unplace, State.clearRows]

theorem unplaced_gangs (l : List ((Nat × Block) × BlockImage)) : (l.foldl (fun s x => s.unplace x.1.1 x.1.2 x.2) s).gangs = s.gangs :=
  List.foldlRecOn (motive := fun t : State => t.gangs = s.gangs) _ _ rfl fun _ h _ _ => (unplace_gangs _ _ _ _).trans h

theorem mem_unplaced_warps (l : List ((Nat × Block) × BlockImage)) (w : Nat × Warp) :
    w ∈ (l.foldl (fun s x => s.unplace x.1.1 x.1.2 x.2) s).warps ↔ w ∈ s.warps ∧ ∀ x ∈ l, w.2.bid ≠ x.1.1 := by
  induction l generalizing s with
  | nil => simp
  | cons x l ih =>
    rw [List.foldl_cons, ih, unplace_warps, List.mem_filter, decide_eq_true_eq, List.forall_mem_cons, and_assoc]

/-! ### A gang that is saved -/

variable (gid : Nat)

theorem saveGang_gang {g : Gang} (hg : s.gangs.find gid = some g) :
    ((s.saveGang gid).gang gid).st = .saved ∧ ((s.saveGang gid).gang gid).image = (s.gangBlocks gid).map fun b => s.imageOf b.1 b.2 := by
  unfold State.saveGang State.gang Tbl.getD
  dsimp only
  rw [tidyMixed_gangs, onGang_find, if_pos rfl, unplaced_gangs, hg]
  exact ⟨rfl, rfl⟩

theorem saveGang_warps {w : Nat × Warp} (hw : w ∈ (s.saveGang gid).warps) {b : Nat × Block} (hb : b ∈ s.gangBlocks gid) : w.2.bid ≠ b.1 := by
  unfold State.saveGang at hw
  dsimp only at hw
  rw [tidyMixed_warps, onGang_warps, mem_unplaced_warps] at hw
  refine hw.2 (b, s.imageOf b.1 b.2) ?_
  rw [← List.map_prod_left_eq_zip]
  exact List.mem_map_of_mem hb

end

theorem preemptSave_gives (s : State) (gid : Nat) (g : Gang) (hg : s.gangs.find gid = some g) (hh : g.st = .halted)
    (hd : (s.failWaiting (s.gangWids gid)).drained gid = true) :
    ∃ t, exec (.preemptSave gid) s = .next t ∧ (t.gang gid).st = .saved ∧
      (∀ w ∈ t.warps, ∀ b ∈ s.gangBlocks gid, w.2.bid ≠ b.1) ∧
      ∀ wid w, s.warps.find wid = some w → (∃ b ∈ s.gangBlocks gid, b.1 = w.bid) →
        ∃ im ∈ (t.gang gid).image, im.bid = w.bid ∧ im.warps.find wid = some w := by
  have he : exec (.preemptSave gid) s = .next ((s.failWaiting (s.gangWids gid)).saveGang gid) := by
    rw [exec_preemptSave, execPreemptSave, hg]
    simp only [hh, if_true, hd]
  obtain ⟨hw, hb, hgs⟩ := sameUnits_failWaiting s (s.gangWids gid)
  have hbs : (s.failWaiting (s.gangWids gid)).gangBlocks gid = s.gangBlocks gid := by
    rw [State.gangBlocks, hb, State.gangBlocks]
  obtain ⟨hst, him⟩ := saveGang_gang (s.failWaiting (s.gangWids gid)) gid (hgs ▸ hg)
  refine ⟨_, he, hst, fun w hmem b hmb => saveGang_warps _ gid hmem (hbs ▸ hmb), fun wid w hf hex => ?_⟩
  obtain ⟨b, hmb, hbid⟩ := hex
  refine ⟨_, him ▸ List.mem_map_of_mem (hbs ▸ hmb), hbid, ?_⟩
  exact find_filter_of _ (hw ▸ hf) (decide_eq_true hbid.symm)

end Sys2Proof.Kernels

/-! # Gangs that come back (R24, R409, R410) -/
namespace Sys2Proof.Kernels
open Sys2Proof Sys2Proof.Machine Sys2Proof.Laws

theorem exec_gangRestore (gid : Nat) (places : List (Nat × Nat)) (s : State) :
    exec (.gangRestore gid places) s = execGangRestore gid places s := rfl

/-! ### Tables put into a table -/

theorem find_of_above {α : Type} {b q : Nat} {t : Tbl α} (h : Tbl.above b t = true) (hq : q ≤ b) : t.find q = none := by
  induction t with
  | nil => rfl
  | cons a t ih =>
    obtain ⟨k, v⟩ := a
    rw [Tbl.above, Bool.and_eq_true, decide_eq_true_eq] at h
    rw [Tbl.find, if_neg (by omega), ih h.2]

theorem find_putTable_other {α : Type} (l : Tbl α) (f : α → α) (m : Tbl α) {q : Nat} (h : l.find q = none) :
    (l.foldl (fun (m : Tbl α) x => m.put x.1 (f x.2)) m).find q = m.find q := by
  induction l generalizing m with
  | nil => rfl
  | cons a l ih =>
    obtain ⟨k, v⟩ := a
    rw [Tbl.find] at h
    split at h
    · cases h
    · next e => rw [List.foldl_cons, ih _ h, find_put_ne _ _ e]

theorem find_putTable {α : Type} (l : Tbl α) (f : α → α) (m : Tbl α) {q : Nat} {x : α} (hs : Tbl.sorted l = true) (h : l.find q = some x) :
    (l.foldl (fun (m : Tbl α) x => m.put x.1 (f x.2)) m).find q = some (f x) := by
  induction l generalizing m with
  | nil => cases h
  | cons a l ih =>
    obtain ⟨k, v⟩ := a
    rw [Tbl.sorted, Bool.and_eq_true] at hs
    rw [Tbl.find] at h
    split at h
    · next e =>
      subst e
      obtain rfl := Option.some.inj h
      rw [List.foldl_cons, find_putTable_other _ _ _ (find_of_above hs.1 le_rfl), find_put_same]
    · exact ih _ hs.2 h

/-! ### A warp that comes back -/

/-- A warp on a core with the registers, frames and trap state that it had, latched for the restore. -/
def BackAs (core : Nat) (w x : Warp) : Prop :=
  x.core = core ∧ x.v = w.v ∧ x.w = w.w ∧ x.k = w.k ∧ x.p = w.p ∧ x.sp = w.sp ∧
  x.ka = w.ka ∧ x.frames = w.frames ∧ x.trapSet = w.trapSet ∧ x.tpc = w.tpc ∧ x.latch.getLsbD 4 = true

theorem restoreWarp_back (P : Part) (tick core : Nat) (w : Warp) : BackAs core w (restoreWarp P tick core w) := by
  have hl : (w.latch ||| 0x10).getLsbD 4 = true := by
    rw [BitVec.getLsbD_or]
    exact Bool.or_eq_true_iff.mpr (.inr (by decide))
  unfold restoreWarp
  dsimp only
  split <;> exact ⟨rfl, rfl, rfl, rfl, rfl, rfl, rfl, rfl, rfl, rfl, hl⟩

/-! ### A block that comes back -/

section
variable (s : State) (P : Part) (im : BlockImage) (at_ : Nat × Nat)

theorem restoreBlock_gangs : (s.restoreBlock P im at_).gangs = s.gangs := by
  simp [State.restoreBlock, State.invalidate, State.clearRows, State.overwrite]

theorem restoreBlock_warps : ∃ tick, (s.restoreBlock P im at_).warps =
    im.warps.foldl (fun (m : Tbl Warp) (x : Nat × Warp) => m.put x.1 (restoreWarp P tick at_.1 x.2)) s.warps := by
  apply Exists.intro
  simp only [State.restoreBlock, State.invalidate, State.clearRows, State.overwrite, onCore_warps, onBlock_warps]
  rfl

theorem rank_restoreBlock (bid : Nat) : ((s.restoreBlock P im at_).block bid).rank = (s.block bid).rank := by
  simp only [State.restoreBlock, State.invalidate, State.clearRows, State.overwrite, State.block, Tbl.getD, onCore_blocks, onBlock_find]
  split
  · next h =>
    subst h
    cases s.blocks.find im.bid <;> rfl
  · rfl

theorem restoreBlock_other {wid : Nat} (h : im.warps.find wid = none) : (s.restoreBlock P im at_).warps.find wid = s.warps.find wid := by
  obtain ⟨tick, ht⟩ := restoreBlock_warps s P im at_
  rw [ht, find_putTable_other _ _ _ h]

theorem restoreBlock_own {wid : Nat} {w : Warp} (hs : Tbl.sorted im.warps = true) (h : im.warps.find wid = some w) :
    ∃ x, (s.restoreBlock P im at_).warps.find wid = some x ∧ BackAs at_.1 w x := by
  obtain ⟨tick, ht⟩ := restoreBlock_warps s P im at_
  exact ⟨_, by rw [ht, find_putTable _ _ _ hs h], restoreWarp_back P tick at_.1 w⟩

end

/-! ### A gang that comes back -/

/-- The blocks of a list of images on their cores. -/
def blocksBack (s : State) (P : Part) (places : List (Nat × Nat)) (l : List BlockImage) : State :=
  l.foldl (fun s im => s.restoreBlock P im (s.placeAt places im)) s

section
variable (P : Part) (places : List (Nat × Nat))

theorem blocksBack_gangs (l : List BlockImage) (s : State) : (blocksBack s P places l).gangs = s.gangs :=
  List.foldlRecOn (motive := fun t : State => t.gangs = s.gangs) _ _ rfl fun _ h _ _ => (restoreBlock_gangs _ _ _ _).trans h

theorem blocksBack_other {wid : Nat} (l : List BlockImage) (s : State) (h : ∀ im ∈ l, im.warps.find wid = none) :
    (blocksBack s P places l).warps.find wid = s.warps.find wid :=
  List.foldlRecOn (motive := fun t : State => t.warps.find wid = s.warps.find wid) _ _ rfl fun _ ht im hm =>
    (restoreBlock_other _ _ _ _ (h im hm)).trans ht

/-- Every warp of some images, no two of which hold the same, comes back on the core of its block's place. -/
theorem blocksBack_back (l : List BlockImage) (s : State)
    (hd : ∀ x ∈ l, ∀ y ∈ l, ∀ wid, x.warps.find wid ≠ none → y.warps.find wid ≠ none → x = y)
    (hs : ∀ x ∈ l, Tbl.sorted x.warps = true) {im : BlockImage} (hm : im ∈ l) {wid : Nat} {w : Warp} (hw : im.warps.find wid = some w) :
    ∃ x, (blocksBack s P places l).warps.find wid = some x ∧ BackAs (places.getD (s.block im.bid).rank (0, 0)).1 w x := by
  induction l generalizing s with
  | nil => exact absurd hm List.not_mem_nil
  | cons im₀ l ih =>
    have hstep : blocksBack s P places (im₀ :: l) = blocksBack (s.restoreBlock P im₀ (s.placeAt places im₀)) P places l := rfl
    rw [hstep]
    by_cases hl : im ∈ l
    · have hi := ih (s.restoreBlock P im₀ (s.placeAt places im₀))
        (fun x hx y hy => hd x (List.mem_cons_of_mem _ hx) y (List.mem_cons_of_mem _ hy)) (fun x hx => hs x (List.mem_cons_of_mem _ hx)) hl
      rwa [rank_restoreBlock] at hi
    · obtain rfl := (List.mem_cons.mp hm).resolve_right hl
      rw [blocksBack_other P places l _ fun y hy => ?_]
      · exact restoreBlock_own s P im (s.placeAt places im) (hs im hm) hw
      · by_contra hne
        exact hl (hd im hm y (List.mem_cons_of_mem _ hy) wid (by rw [hw]; exact Option.some_ne_none w) hne ▸ hy)

end

theorem restoreLids_all (l : List BlockImage) (s : State) :
    (l.foldl State.restoreLids s).warps = s.warps ∧ (l.foldl State.restoreLids s).gangs = s.gangs :=
  List.foldlRecOn (motive := fun t : State => t.warps = s.warps ∧ t.gangs = s.gangs) _ _ ⟨rfl, rfl⟩ fun _ h _ _ => h

section
variable (s : State) (gid : Nat) (g : Gang) (places : List (Nat × Nat))

theorem restoreGang_warps : (s.restoreGang gid g places).warps = (blocksBack s (s.part (s.launch g.lid).part) places g.image).warps := by
  unfold State.restoreGang
  dsimp only
  rw [onGang_warps, (restoreLids_all _ _).1, blocksBack]

theorem restoreGang_gang (hg : s.gangs.find gid = some g) :
    (s.restoreGang gid g places).gang gid = { g with st := .running, image := [] } := by
  unfold State.restoreGang State.gang Tbl.getD
  dsimp only
  rw [onGang_find, if_pos rfl, (restoreLids_all _ _).2]
  change (Option.map _ ((blocksBack s (s.part (s.launch g.lid).part) places g.image).gangs.find gid)).getD noGang = _
  rw [blocksBack_gangs, hg]
  rfl

end

theorem gangRestore_gives (s : State) (gid : Nat) (g : Gang) (places : List (Nat × Nat)) (hg : s.gangs.find gid = some g)
    (hst : g.st = .saved) (hp : s.placeOk (s.part (s.launch g.lid).part) (s.launch g.lid).desc places = true)
    (ht : s.itsTurn gid g = true) (hf : ∀ x ∈ places, (s.coreRegs x.1).failed = false) (hh : ∀ x ∈ places, (s.coreRegs x.1).health = 0xFF)
    (hd : ∀ x ∈ g.image, ∀ y ∈ g.image, ∀ wid, x.warps.find wid ≠ none → y.warps.find wid ≠ none → x = y)
    (hs : ∀ x ∈ g.image, Tbl.sorted x.warps = true) :
    ∃ t, exec (.gangRestore gid places) s = .next t ∧ (t.gang gid).st = .running ∧ (t.gang gid).image = [] ∧
      ∀ im ∈ g.image, ∀ wid w, im.warps.find wid = some w → ∃ x, t.warps.find wid = some x ∧
        BackAs (places.getD (s.block im.bid).rank (0, 0)).1 w x := by
  have he : exec (.gangRestore gid places) s = .next (s.restoreGang gid g places) := by
    have h1 : (places.any fun x => decide ((s.coreRegs x.1).health ≠ 0xFF)) = false := by
      simpa using hh
    have h2 : (places.all fun x => !(s.coreRegs x.1).failed) = true := by
      simpa using hf
    rw [exec_gangRestore, execGangRestore, hg]
    simp only [hst, hp, decide_true, Bool.and_self, if_true, h1, Bool.false_eq_true, if_false, ht, h2]
  refine ⟨_, he, ?_, ?_, fun im hm wid w hw => ?_⟩
  · rw [restoreGang_gang s gid g places hg]
  · rw [restoreGang_gang s gid g places hg]
  · rw [restoreGang_warps]
    exact blocksBack_back _ places g.image s hd hs hm hw

/-- A core with fewer lanes refuses the image, which is counted (R410). -/
theorem gangRestore_refused (s : State) (gid : Nat) (g : Gang) (places : List (Nat × Nat)) (hg : s.gangs.find gid = some g)
    (hst : g.st = .saved) (hp : s.placeOk (s.part (s.launch g.lid).part) (s.launch g.lid).desc places = true)
    (hh : ∃ x ∈ places, (s.coreRegs x.1).health ≠ 0xFF) (hl : s.parts.find (s.launch g.lid).part ≠ none) :
    ∃ t, exec (.gangRestore gid places) s = .next t ∧ t.gangs = s.gangs ∧ t.warps = s.warps ∧
      (t.part (s.launch g.lid).part).rshape = min 255 ((s.part (s.launch g.lid).part).rshape + 1) := by
  have he : exec (.gangRestore gid places) s =
      .next (s.onPart (s.launch g.lid).part fun P => { P with rshape := min 255 (P.rshape + 1) }) := by
    have h1 : (places.any fun x => decide ((s.coreRegs x.1).health ≠ 0xFF)) = true := by
      simpa using hh
    rw [exec_gangRestore, execGangRestore, hg]
    simp only [hst, hp, decide_true, Bool.and_self, if_true, h1]
  obtain ⟨P, hP⟩ := Option.ne_none_iff_exists'.mp hl
  refine ⟨_, he, onPart_gangs _ _ _, onPart_warps _ _ _, ?_⟩
  simp only [State.part, Tbl.getD, onPart_find, if_true, hP, Option.map_some, Option.getD_some]

end Sys2Proof.Kernels

/-! # Launches that are abandoned (R375, R401, R405) -/
namespace Sys2Proof.Kernels
open Sys2Proof Sys2Proof.Machine Sys2Proof.Laws

theorem exec_launchAbandon (lid : Nat) (s : State) : exec (.launchAbandon lid) s = execLaunchAbandon lid s := rfl

/-! ### What an operation's end leaves -/

/-- Units, launches, partitions and memory. -/
def ground (s : State) : State :=
  { warps := s.warps, blocks := s.blocks, gangs := s.gangs, launches := s.launches, parts := s.parts, vault := s.vault, hostMem := s.hostMem }

theorem ground_dropOps (l : List (Nat × EngineOp)) (s : State) : ground (l.foldl (fun s o => s.dropOp o.1 o.2) s) = ground s :=
  List.foldlRecOn (motive := fun t : State => ground t = ground s) _ _ rfl fun _ h _ _ => h

/-- What an abandoned gang has left when its operations have ended and its accesses are dropped, its blocks still there. -/
def flightDropped (s : State) (gid : Nat) (g : Gang) : State :=
  let bids := g.bids
  let wids := s.gangWids gid
  let s := s.dissolve (wids.flatMap fun wid => ((s.warp wid).slivers.map fun k => (wid, k)))
  let s := (s.ops.filter fun o => bids.contains o.2.bid).foldl (fun s o => s.dropOp o.1 o.2) s
  let ids := g.image.flatMap fun im => im.conts.map (·.1)
  { s with
    lids := s.lids.filter fun l => !(ids.contains l.op)
    accs := (s.accs.filter fun (a : Nat × Access) => !(bids.contains a.2.bid &&
      (a.2.kind.isRemote || a.2.kind = AccKind.jtab || a.2.kind = AccKind.pref || a.2.st = AccSt.faulted))).map fun (a : Nat × Access) => (a.1, if bids.contains a.2.bid then { a.2 with dst := [] } else a.2)
    hreqs := s.hreqs.filter fun r => !(r.2.mem.any fun m => wids.contains m.1) }

theorem ground_flightDropped (s : State) (gid : Nat) (g : Gang) : ground (flightDropped s gid g) = ground s :=
  ground_dropOps _ (s.dissolve _)

/-- One block of an abandoned gang goes; that of a saved one has left its core before. -/
def blockDropped (g : Gang) (s : State) (b : Nat × Block) : State :=
  if g.image = [] then s.freeBlock b.1 b.2
  else { s with outst := s.outst.filter fun o => !(b.2.wids.contains o.wid), errs := s.errs.filter fun e => e.bid ≠ b.1 }

/-- The blocks of an abandoned gang are gone from their cores. -/
def blocksDropped (s : State) (gid : Nat) (g : Gang) : State :=
  ((flightDropped s gid g).gangBlocks gid).foldl (blockDropped g) (flightDropped s gid g)

theorem dropGang_eq (s : State) (gid : Nat) (g : Gang) : s.dropGang gid g =
    { blocksDropped s gid g with blocks := (blocksDropped s gid g).blocks.filter fun b => b.2.gid ≠ gid
                                 gangs := (blocksDropped s gid g).gangs.del gid } := rfl

/-! ### What an abandoned gang leaves -/

/-- Launches, partitions and memory. -/
def lasting (s : State) : State := { launches := s.launches, parts := s.parts, vault := s.vault, hostMem := s.hostMem }

theorem lasting_blockDropped (g : Gang) (s : State) (b : Nat × Block) :
    lasting (blockDropped g s b) = lasting s ∧ (blockDropped g s b).gangs = s.gangs := by
  unfold blockDropped
  split <;> exact ⟨rfl, rfl⟩

theorem blocksDropped_lasting (s : State) (gid : Nat) (g : Gang) :
    lasting (blocksDropped s gid g) = lasting s ∧ (blocksDropped s gid g).gangs = s.gangs := by
  have h₀ := ground_flightDropped s gid g
  exact List.foldlRecOn (motive := fun t : State => lasting t = lasting s ∧ t.gangs = s.gangs) _ _
    ⟨(congrArg lasting h₀ :), (congrArg State.gangs h₀ :)⟩
    fun t h b _ => ⟨(lasting_blockDropped g t b).1.trans h.1, (lasting_blockDropped g t b).2.trans h.2⟩

theorem dropGang_lasting (s : State) (gid : Nat) (g : Gang) : lasting (s.dropGang gid g) = lasting s :=
  (blocksDropped_lasting s gid g).1

theorem dropGang_gangs (s : State) (gid : Nat) (g : Gang) : (s.dropGang gid g).gangs = s.gangs.del gid :=
  congrArg (Tbl.del · gid) (blocksDropped_lasting s gid g).2

/-! ### Blocks and their warps -/

/-- No warp of a block is on a core. -/
def NoWarps (bid : Nat) (s : State) : Prop := ∀ w ∈ s.warps, w.2.bid ≠ bid

theorem blockDropped_warps (g : Gang) (s : State) (b : Nat × Block) : (blockDropped g s b).warps ⊆ s.warps := by
  unfold blockDropped
  split
  · exact List.filter_subset_self _
  · exact List.Subset.refl _

theorem noWarps_blockDropped {g : Gang} {bid : Nat} {s : State} (b : Nat × Block) (h : NoWarps bid s) : NoWarps bid (blockDropped g s b) :=
  fun w hw => h w (blockDropped_warps g s b hw)

/-- A block of a gang that is not saved goes with its warps. -/
theorem noWarps_of_dropped {g : Gang} (hi : g.image = []) (s : State) (b : Nat × Block) : NoWarps b.1 (blockDropped g s b) := by
  intro w hw
  rw [blockDropped, if_pos hi] at hw
  exact of_decide_eq_true (List.mem_filter.mp hw).2

theorem mem_put_of_ne {α : Type} {t : Tbl α} {p : Nat × α} (h : p ∈ t) {q : Nat} (hq : p.1 ≠ q) (x : α) : p ∈ t.put q x := by
  induction t with
  | nil => exact absurd h List.not_mem_nil
  | cons a t ih =>
    obtain ⟨k, v⟩ := a
    rw [Tbl.put]
    split
    · exact List.mem_cons_of_mem _ h
    · split
      · next e =>
        obtain rfl | h := List.mem_cons.mp h
        · exact absurd e.symm hq
        · exact List.mem_cons_of_mem _ h
      · obtain rfl | h := List.mem_cons.mp h
        · exact List.mem_cons_self
        · exact List.mem_cons_of_mem _ (ih h)

/-- A block's warps are gone, or the block stands there as it did. -/
def GoneOrThere (b : Nat × Block) (s : State) : Prop := NoWarps b.1 s ∨ b ∈ s.blocks

theorem goneOrThere_blockDropped {g : Gang} {b : Nat × Block} {s : State} (x : Nat × Block) (h : GoneOrThere b s) :
    GoneOrThere b (blockDropped g s x) := by
  rcases h with h | h
  · exact .inl (noWarps_blockDropped x h)
  · unfold blockDropped
    split
    · by_cases hx : b.1 = x.1
      · exact .inl fun w hw => hx ▸ of_decide_eq_true (List.mem_filter.mp hw).2
      · exact .inr (mem_put_of_ne h hx _)
    · exact .inr h

section
variable {s : State} {b : Nat × Block}

theorem noWarps_dropGang {bid : Nat} (h : NoWarps bid s) (gid : Nat) (g : Gang) : NoWarps bid (s.dropGang gid g) := by
  have h₀ : (flightDropped s gid g).warps = s.warps := (congrArg State.warps (ground_flightDropped s gid g) :)
  rw [dropGang_eq]
  exact List.foldlRecOn (motive := fun t : State => NoWarps bid t) _ _ (fun w hw => h w (h₀ ▸ hw)) fun t ht x _ => noWarps_blockDropped x ht

theorem goneOrThere_dropGang (h : GoneOrThere b s) {gid : Nat} (hg : b.2.gid ≠ gid) (g : Gang) : GoneOrThere b (s.dropGang gid g) := by
  have hw : (flightDropped s gid g).warps = s.warps := (congrArg State.warps (ground_flightDropped s gid g) :)
  have hb : (flightDropped s gid g).blocks = s.blocks := (congrArg State.blocks (ground_flightDropped s gid g) :)
  have h₁ : GoneOrThere b (blocksDropped s gid g) :=
    List.foldlRecOn (motive := fun t : State => GoneOrThere b t) _ _ (h.imp (fun h w hm => h w (hw ▸ hm)) fun h => hb ▸ h)
      fun t ht x _ => goneOrThere_blockDropped x ht
  rw [dropGang_eq]
  exact h₁.imp id fun h => List.mem_filter.mpr ⟨h, decide_eq_true hg⟩

/-- With its gang, which is not saved, a block's warps go. -/
theorem dropGang_noWarps (h : GoneOrThere b s) (hr : b.2.retired = false) {g : Gang} (hi : g.image = []) : NoWarps b.1 (s.dropGang b.2.gid g) := by
  rcases h with h | h
  · exact noWarps_dropGang h _ _
  · have hb : (flightDropped s b.2.gid g).blocks = s.blocks := (congrArg State.blocks (ground_flightDropped s b.2.gid g) :)
    have hm : b ∈ (flightDropped s b.2.gid g).gangBlocks b.2.gid :=
      List.mem_filter.mpr ⟨hb ▸ h, by rw [hr, decide_eq_true rfl]; rfl⟩
    have hfold (l : List (Nat × Block)) (t : State) (hl : b ∈ l) : NoWarps b.1 (l.foldl (blockDropped g) t) := by
      induction l generalizing t with
      | nil => exact absurd hl List.not_mem_nil
      | cons x l ih =>
        rw [List.foldl_cons]
        obtain rfl | hl := List.mem_cons.mp hl
        · exact List.foldlRecOn (motive := fun t : State => NoWarps b.1 t) _ _ (noWarps_of_dropped hi t b) fun t ht x _ => noWarps_blockDropped x ht
        · exact ih _ hl
    rw [dropGang_eq]
    exact hfold _ _ hm

end

/-! ### All gangs of a launch -/

/-- Some gangs are dropped one after another. -/
def gangsDropped (s : State) (l : List (Nat × Gang)) : State := l.foldl (fun s g => s.dropGang g.1 g.2) s

theorem gangsDropped_lasting (s : State) (l : List (Nat × Gang)) : lasting (gangsDropped s l) = lasting s :=
  List.foldlRecOn (motive := fun t : State => lasting t = lasting s) _ _ rfl fun _ h _ _ => (dropGang_lasting _ _ _).trans h

theorem mem_gangsDropped (l : List (Nat × Gang)) (s : State) (p : Nat × Gang) :
    p ∈ (gangsDropped s l).gangs ↔ p ∈ s.gangs ∧ ∀ q ∈ l, q.1 ≠ p.1 := by
  unfold gangsDropped
  induction l generalizing s with
  | nil => simp
  | cons x l ih =>
    rw [List.foldl_cons, ih, dropGang_gangs, mem_del, List.forall_mem_cons, and_assoc]

theorem gangsDropped_noWarps {b : Nat × Block} (hr : b.2.retired = false) (l : List (Nat × Gang)) (s : State) (h : GoneOrThere b s)
    (hi : ∀ g ∈ l, g.1 = b.2.gid → g.2.image = []) (hl : ∃ g ∈ l, g.1 = b.2.gid) : NoWarps b.1 (gangsDropped s l) := by
  unfold gangsDropped
  induction l generalizing s with
  | nil => exact absurd hl (by simp)
  | cons x l ih =>
    rw [List.foldl_cons]
    by_cases hx : x.1 = b.2.gid
    · have h₀ : NoWarps b.1 (s.dropGang x.1 x.2) := hx ▸ dropGang_noWarps h hr (hi x List.mem_cons_self hx)
      exact List.foldlRecOn (motive := fun t : State => NoWarps b.1 t) _ _ h₀ fun t ht g _ => noWarps_dropGang ht g.1 g.2
    · obtain ⟨g, hg, hgb⟩ := hl
      refine ih _ (goneOrThere_dropGang h (Ne.symm hx) x.2) (fun g hg => hi g (List.mem_cons_of_mem _ hg)) ⟨g, ?_, hgb⟩
      exact (List.mem_cons.mp hg).resolve_left fun e => hx (e ▸ hgb)

/-! ### A launch that its slot ends -/

/-- The state after a slot's launch has been abandoned. -/
def slotEnded (s : State) (lid k : Nat) (l : Launch) : State :=
  let t := gangsDropped s (s.gangs.filter fun g => g.2.lid = lid)
  let u := { t with launches := t.launches.del lid }.tidyMixed
  ((u.dropPage l.pmem).onSlot l.part k fun x => { x with cur := none }).onSlot l.part k fun x =>
    { x with preempted := min (x.preempted + 1) (2 ^ 32 - 1) }

section
variable {s : State} {lid k : Nat} {l : Launch}

theorem exec_launchAbandon_due (hl : s.launches.find lid = some l) (hk : l.src = .slot k) (hd : s.preemptDue lid l = true) :
    exec (.launchAbandon lid) s = .next (slotEnded s lid k l) := by
  rw [exec_launchAbandon, execLaunchAbandon, hl]
  simp only [hk, hd, if_true, State.abandon, hl, slotEnded, gangsDropped]

theorem exec_launchAbandon_not (hl : s.launches.find lid = some l) (hk : l.src = .slot k) (hd : s.preemptDue lid l = false) :
    exec (.launchAbandon lid) s = .next s := by
  rw [exec_launchAbandon, execLaunchAbandon, hl]
  simp only [hk, hd, Bool.false_eq_true, if_false]

/-- A slot with a firing due is one of a partition. -/
theorem part_of_preemptDue (hk : l.src = .slot k) (hd : s.preemptDue lid l = true) : ∃ P, s.parts.find l.part = some P := by
  cases hP : s.parts.find l.part with
  | some P => exact ⟨P, rfl⟩
  | none =>
    have hn : s.part l.part = noPart := by rw [State.part, Tbl.getD, hP]; rfl
    have hs : (noPart.slot k).set = false := rfl
    rw [State.preemptDue, hk] at hd
    simp only [hn, hs, Bool.false_and, Bool.false_eq_true] at hd

/-- Warps, gangs and memory are those that the gangs' end leaves. -/
theorem slotEnded_ground : (slotEnded s lid k l).gangs = (gangsDropped s (s.gangs.filter fun g => g.2.lid = lid)).gangs ∧
    (slotEnded s lid k l).warps = (gangsDropped s (s.gangs.filter fun g => g.2.lid = lid)).warps ∧
    (slotEnded s lid k l).launches = s.launches.del lid ∧ (slotEnded s lid k l).vault = s.vault ∧ (slotEnded s lid k l).hostMem = s.hostMem := by
  have h := gangsDropped_lasting s (s.gangs.filter fun g => g.2.lid = lid)
  have hl : (gangsDropped s (s.gangs.filter fun g => g.2.lid = lid)).launches = s.launches := (congrArg State.launches h :)
  have hv : (gangsDropped s (s.gangs.filter fun g => g.2.lid = lid)).vault = s.vault := (congrArg State.vault h :)
  have hm : (gangsDropped s (s.gangs.filter fun g => g.2.lid = lid)).hostMem = s.hostMem := (congrArg State.hostMem h :)
  simp [slotEnded, State.onSlot, State.dropPage, hl, hv, hm]

theorem slotEnded_slot (hk : l.src = .slot k) (hd : s.preemptDue lid l = true) :
    ((slotEnded s lid k l).part l.part).slot k =
      { (s.part l.part).slot k with cur := none
                                    preempted := min (((s.part l.part).slot k).preempted + 1) (2 ^ 32 - 1) } := by
  obtain ⟨P, hP⟩ := part_of_preemptDue hk hd
  have h := gangsDropped_lasting s (s.gangs.filter fun g => g.2.lid = lid)
  have hp : (gangsDropped s (s.gangs.filter fun g => g.2.lid = lid)).parts = s.parts := (congrArg State.parts h :)
  simp [slotEnded, State.onSlot, State.dropPage, State.part, Tbl.getD, onPart_find, hp, hP, Part.slot]

end

theorem launchAbandon_gives (s : State) (lid k : Nat) (l : Launch) (hl : s.launches.find lid = some l) (hs : Tbl.sorted s.gangs = true)
    (hk : l.src = .slot k) (hd : s.preemptDue lid l = true) : ∃ t, exec (.launchAbandon lid) s = .next t ∧ t.launches.find lid = none ∧
      (∀ g ∈ t.gangs, g.2.lid ≠ lid) ∧ ((t.part l.part).slot k).cur = none ∧
      ((t.part l.part).slot k).preempted = min (((s.part l.part).slot k).preempted + 1) (2 ^ 32 - 1) ∧
      (∀ g ∈ s.gangs, g.2.lid = lid → g.2.image = [] → ∀ b ∈ s.gangBlocks g.1, ∀ w ∈ t.warps, w.2.bid ≠ b.1) ∧
      t.vault = s.vault ∧ t.hostMem = s.hostMem := by
  obtain ⟨hg, hw, hla, hv, hm⟩ := slotEnded_ground (s := s) (lid := lid) (k := k) (l := l)
  have hslot := slotEnded_slot hk hd
  refine ⟨_, exec_launchAbandon_due hl hk hd, by rw [hla, find_del_same], fun g hgm hid => ?_, by rw [hslot], by rw [hslot],
    fun g hgm hid hi b hb => ?_, hv, hm⟩
  · rw [hg, mem_gangsDropped] at hgm
    exact hgm.2 g (List.mem_filter.mpr ⟨hgm.1, decide_eq_true hid⟩) rfl
  · rw [hw]
    obtain ⟨hbm, hbp⟩ := List.mem_filter.mp hb
    simp only [Bool.and_eq_true, decide_eq_true_eq, Bool.not_eq_true'] at hbp
    refine gangsDropped_noWarps hbp.2 _ s (.inr hbm) (fun x hx hxb => ?_) ⟨g, List.mem_filter.mpr ⟨hgm, decide_eq_true hid⟩, hbp.1.symm⟩
    have hx' := find_of_mem hs (k := x.1) (x := x.2) (List.mem_filter.mp hx).1
    have hg' := find_of_mem hs (k := g.1) (x := g.2) hgm
    rw [hxb, hbp.1, hg'] at hx'
    exact Option.some.inj hx' ▸ hi

end Sys2Proof.Kernels

/-! # The bytes of a warp's image (R407) -/
namespace Sys2Proof.Kernels
open Sys2Proof Sys2Proof.Machine Sys2Proof.Laws

@[simp] theorem length_natLe (n v : Nat) : (natLe n v).length = n := by
  induction n generalizing v with
  | zero => rfl
  | succ n ih => rw [natLe, List.length_cons, ih]

@[simp] theorem length_fit (n : Nat) (l : List Byte) : (fit n l).length = n := by
  simp [fit]

theorem fit_of_length {n : Nat} {l : List Byte} (h : l.length = n) : fit n l = l := by
  rw [fit, List.take_append_of_le_length h.ge, ← h, List.take_length]

theorem length_rows {α β : Type} (f : α → List β) (c : Nat) (l : List α) (hc : ∀ x ∈ l, (f x).length = c) :
    (l.flatMap f).length = c * l.length := by
  rw [List.length_flatMap, List.map_congr_left (g := fun _ => c) hc, List.map_const', List.sum_replicate, smul_eq_mul, Nat.mul_comm]

/-- A table of rows of one length: from the start of a row on, that row comes first. -/
theorem drop_rows {α β : Type} (f : α → List β) (c : Nat) (l : List α) (hc : ∀ x ∈ l, (f x).length = c) (n : Nat) (h : n < l.length) :
    (l.flatMap f).drop (c * n) = f l[n] ++ (l.drop (n + 1)).flatMap f := by
  induction l generalizing n with
  | nil => exact absurd h (Nat.not_lt_zero n)
  | cons x xs ih =>
    have hx : (f x).length = c := hc x (List.mem_cons_self)
    cases n with
    | zero => simp
    | succ n =>
      rw [List.flatMap_cons, Nat.mul_succ, Nat.add_comm, ← hx, List.drop_length_add_append, hx,
        ih (fun y hy => hc y (List.mem_cons_of_mem x hy)) n (Nat.lt_of_succ_lt_succ h)]
      rfl

/-- Within a table of rows of one length, what lies in one row is read from it. -/
theorem slice_row {α β : Type} (f : α → List β) (c : Nat) (l : List α) (hc : ∀ x ∈ l, (f x).length = c) (n : Nat) (h : n < l.length)
    (k m : Nat) (hk : k + m ≤ c) (tl : List β) : ((l.flatMap f ++ tl).drop (c * n + k)).take m = ((f l[n]).drop k).take m := by
  have hl : (f l[n]).length = c := hc _ (List.getElem_mem h)
  have hn : c * n ≤ (l.flatMap f).length := length_rows f c l hc ▸ Nat.mul_le_mul_left c h.le
  rw [← List.drop_drop, List.drop_append_of_le_length hn, drop_rows f c l hc n h, List.append_assoc,
    List.drop_append_of_le_length (by omega), List.take_append_of_le_length (by rw [List.length_drop]; omega)]

/-! ### Vector registers -/

/-- A vector register in every lane, as an image holds it. -/
def laneWords (w : Warp) (n : Nat) : List Byte := (List.range 32).flatMap fun l => natLe 4 (w.v.getD (512 * l + n) {}).val.toNat

theorem length_laneWords (w : Warp) (n : Nat) : (laneWords w n).length = 128 := by
  rw [laneWords, length_rows _ 4 _ fun _ _ => length_natLe 4 _, List.length_range]

theorem image_length (w : Warp) (rank : Nat) : (w.image rank).length = 0x3200 + 144 * w.budget := by
  simp only [Warp.image, List.length_append, length_fit]
  omega

/-- The first register of an image stands at 0x3200, each of 128 bytes. -/
theorem image_regs (w : Warp) (rank : Nat) : ∃ tl, (w.image rank).drop 0x3200 = (List.range w.budget).flatMap (laneWords w) ++ tl := by
  have hr : ((List.range w.budget).flatMap (laneWords w)).length = 128 * w.budget := by
    rw [length_rows _ 128 _ fun _ _ => length_laneWords w _, List.length_range]
  refine ⟨fit (16 * w.budget) ((List.range w.budget).flatMap fun n =>
    nibbles ((List.range 32).map fun l => (w.v.getD (512 * l + n) {}).tag)), ?_⟩
  rw [Warp.image, List.append_assoc, List.drop_left' (by simp only [List.length_append, length_fit])]
  exact congrArg (· ++ _) (fit_of_length hr)

theorem image_gives (w : Warp) (rank : Nat) : (w.image rank).length = 0x3200 + 144 * w.budget ∧
    ∀ n < w.budget, ∀ lane < 32, ((w.image rank).drop (0x3200 + 128 * n + 4 * lane)).take 4 =
      natLe 4 (w.v.getD (512 * lane + n) {}).val.toNat := by
  refine ⟨image_length w rank, fun n hn lane hl => ?_⟩
  obtain ⟨tl, ht⟩ := image_regs w rank
  have hrow := slice_row (laneWords w) 128 (List.range w.budget) (fun _ _ => length_laneWords w _) n (by simpa using hn)
    (4 * lane) 4 (by omega) tl
  have hword := slice_row (fun l => natLe 4 (w.v.getD (512 * l + n) {}).val.toNat) 4 (List.range 32) (fun _ _ => length_natLe 4 _)
    lane (by simpa using hl) 0 4 (by omega) []
  rw [List.getElem_range] at hrow hword
  rw [List.append_nil, Nat.add_zero, List.drop_zero, List.take_of_length_le (length_natLe 4 _).le] at hword
  rw [Nat.add_assoc, ← List.drop_drop, ht, hrow, laneWords, hword]

end Sys2Proof.Kernels

/-! # Placement, retirement, pre-emption, restore and abandonment (R20 to R24, R373, R374, R403 to R410) -/
namespace Sys2Proof.Kernels
open Sys2Proof Sys2Proof.Machine Sys2Proof.Laws

/-- Settles O48: each event of a gang's life, from its placement to its retirement, its save and return, or its launch's end. -/
theorem gangsAndLaunches : Obligations.GangsAndLaunches :=
  ⟨gangPlace_gives, blockRetire_gives, preemptRequest_gives, preemptSave_gives, preemptWaitTimeout_gives,
    fun s gid g places hg hst hp => ⟨fun ht hf hh hd hs => gangRestore_gives s gid g places hg hst hp ht hf hh hd hs,
      fun hh hl => gangRestore_refused s gid g places hg hst hp hh hl⟩,
    fun s lid k l hl hs hk => ⟨fun hd => exec_launchAbandon_not hl hk hd, fun hd => launchAbandon_gives s lid k l hl hs hk hd⟩,
    image_gives⟩

end Sys2Proof.Kernels

/-! # Special registers (O41: R60 to R68, R273, R274) -/
namespace Sys2Proof.Kernels
open Sys2Proof Sys2Proof.Machine Sys2Proof.Laws

/-- An instruction that fails a static check takes that trap, whatever its threads hold (R150). -/
theorem syncInstr_static {s : State} {i : Instr} {k : Checks} {cause : Nat} (h : k.static = some cause) (f : Ctx → List Th → State) :
    syncInstr s i k f =
      .next (s.takeTrap (s.ctx i).u { cause := cause, tval := (s.ctx i).tval, mask := (s.ctx i).u.th } (s.ctx i).len) := by
  simp only [syncInstr, State.gate, h]

/-! ### SRD (R273) -/

/-- The tag with which SRD delivers a special register's low word. -/
def sregTag (n : Nat) : BitVec 4 :=
  let info := (sregInfo n).getD { scope := .wide }
  if info.wide then 0 else info.tag

/-- What SRD gives a thread of a special register: both words as RAW, or the low word with the register's tag. -/
def sregOut (s : State) (u : IssueUnit) (f : FS) (th : Th) : Out :=
  let v := s.sreg u th f.sreg.toNat
  if f.m.getLsbD 0 then out2 0 v else out1 (sregTag f.sreg.toNat) (v.extractLsb' 0 32)

theorem exec_srd (f : FS) (s : State) : exec (.srd f) s = syncInstr s (.srd f) (srdChecks s f) fun c act =>
    (s.commit c f.d (act.map fun t => (t, sregOut s c.u f t))).advance c.u c.len := by
  show execSrd f s = _
  unfold execSrd sregOut sregTag srdChecks
  rfl

theorem sregOut_length (s : State) (u : IssueUnit) (f : FS) (th : Th) : (sregOut s u f th).regs.length = if f.m.getLsbD 0 then 2 else 1 := by
  unfold sregOut
  dsimp only
  split <;> rfl

theorem sregOut_preds (s : State) (u : IssueUnit) (f : FS) (th : Th) : (sregOut s u f th).preds = [] := by
  unfold sregOut
  dsimp only
  split <;> rfl

/-- SRD delivers to each active thread (R273). -/
theorem srd_computes {f : FS} {s : State} {act : List Th} (h : s.gate (s.ctx (.srd f)) (srdChecks s f) = .go act) :
    ∃ t, exec (.srd f) s = .next t ∧
      Computes s t (s.ctx (.srd f)) act f.d (if f.m.getLsbD 0 then 2 else 1) (sregOut s s.unit f) := by
  refine ⟨_, (exec_srd f s).trans (syncInstr_go h _), ?_⟩
  obtain ⟨-, rfl, -⟩ := gate_go h
  refine computes_of_commit s s.focus _ rfl _ (fun _ ht => (active_sub s _ _).subset ht) (active_lanes s s.focus _ rfl _) f.d _ _
    (fitOuts_two (fun t => (sregOut_length s _ f t).le) (by split <;> decide) (fun t => ?_) (fun t p hp => ?_)) []
  · rw [sregOut_preds]
    exact List.nodup_nil
  · rw [sregOut_preds] at hp
    exact absurd hp List.not_mem_nil

/-! ### Privilege of SRD (R61) -/

theorem sregInfo_trap {n : Nat} (h : 0x800 ≤ n ∧ n ≤ 0x805) : ∃ i, sregInfo n = some i ∧ i.mode = 1 := by
  obtain ⟨h1, h2⟩ := h
  interval_cases n <;> exact ⟨_, rfl, rfl⟩

theorem sregInfo_part {n : Nat} (h : 0xC00 ≤ n ∧ n ≤ 0xC02) : ∃ i, sregInfo n = some i ∧ i.mode = 2 := by
  obtain ⟨h1, h2⟩ := h
  interval_cases n <;> exact ⟨_, rfl, rfl⟩

/-- A direct register, even where a pair is read, is a destination of SRD for every register of the map. -/
theorem srd_opd {f : FS} (hd : f.d.toNat < 48) (hp : f.m.getLsbD 0 = true → f.d.getLsbD 0 = false) {i : SregInfo}
    (hi : sregInfo f.sreg.toNat = some i) : sregOpd f.x f [f.d] = none := by
  have hne : f.d ≠ 53#6 ∧ f.d ≠ 54#6 ∧ f.d ≠ 55#6 := by
    refine ⟨?_, ?_, ?_⟩ <;> (intro he; rw [he] at hd; exact absurd hd (by decide))
  obtain ⟨h53, h54, h55⟩ := hne
  rw [sregOpd, oneOf_eq_none]
  simp only [List.forall_mem_cons, List.not_mem_nil, false_implies, implies_true, and_true]
  refine ⟨?_, ?_, ?_, ?_⟩
  · simp [dstBad, h53, h54]
  · cases hm : f.m.getLsbD 0 with
    | false => rfl
    | true =>
      have h0 : f.d[0] = false := hp hm
      simp [pairBad, h53, h54, h55, h0]
  · simp [h55]
  · simp [hi]

/-- Outside trap mode an SRD that names a register of trap mode or of the partition is privileged (R61). -/
theorem srd_privileged {f : FS} {s : State} (hm : f.m.extractLsb' 1 4 = 0) (hd : f.d.toNat < 48)
    (hp : f.m.getLsbD 0 = true → f.d.getLsbD 0 = false) (ht : (s.ctx (.srd f)).trap = false) {i : SregInfo}
    (hi : sregInfo f.sreg.toNat = some i) {det : Nat} (hdet : sregPriv false false f.sreg.toNat = some det) :
    exec (.srd f) s = .next (s.takeTrap (s.ctx (.srd f)).u
      { cause := cz 0x04 det, tval := (s.ctx (.srd f)).tval, mask := (s.ctx (.srd f)).u.th } (s.ctx (.srd f)).len) := by
  have htm : s.trapMode s.unit = false := ht
  have hill : illOf (f.m.extractLsb' 1 4 ≠ 0) false = none := by rw [hm]; rfl
  rw [exec_srd]
  refine syncInstr_static ?_ _
  simp only [srdChecks, Checks.static, hill, srd_opd hd hp hi, htm, hdet]

/-! ### What SWR writes of a warp (R63, R273) -/

/-- A warp in which a thread-scope register of a lane is written (R63). -/
def putThreadSreg (w : Warp) (lane n : Nat) (v : Word) : Warp :=
  match n with
  | 0x011 => { w with sp := w.sp.put lane v }
  | 0x020 | 0x021 | 0x022 | 0x023 => { w with ix := w.ix.put (4 * lane + (n - 0x020)) (v &&& 0x00FFFFFF) }
  | 0x028 | 0x029 | 0x02A => { w with lc := w.lc.put (4 * lane + (n - 0x028)) v }
  | _ => w

/-- A warp in which a warp-scope register is written (R63, R66, R141). -/
def putWarpSreg (w : Warp) (n : Nat) (wide : Bool) (v : DWord) : Warp :=
  match n with
  | 0x218 => { w with ovc := v.extractLsb' 0 32 }
  | 0x219 => { w with nvc := v.extractLsb' 0 32 }
  | 0x21A => { w with fpcr := v.extractLsb' 0 32 &&& 0x3 }
  | 0x21B => { w with fpsr := v.extractLsb' 0 32 &&& 0x1F }
  | 0x801 => { w with tpc := if wide then v else w.tpc.extractLsb' 32 32 ++ v.extractLsb' 0 32, tkept := none }
  | _ => w

theorem setThreadSreg_eq (s : State) (t : Th) (n : Nat) (v : Word) :
    s.setThreadSreg t n v = s.onWarp t.wid fun w => putThreadSreg w t.lane n v := rfl

theorem setWarpSreg_eq (s : State) (wid n : Nat) (wide : Bool) (v : DWord) :
    s.setWarpSreg wid n wide v = s.onWarp wid fun w => putWarpSreg w n wide v := rfl

section
variable (w : Warp) (lane n : Nat) (v : Word)

theorem putThreadSreg_sp : (putThreadSreg w lane n v).sp = if n = 0x011 then w.sp.put lane v else w.sp := by
  unfold putThreadSreg
  split <;> simp_all

theorem putThreadSreg_ix : (putThreadSreg w lane n v).ix =
    if 0x020 ≤ n ∧ n < 0x024 then w.ix.put (4 * lane + (n - 0x020)) (v &&& 0x00FFFFFF) else w.ix := by
  unfold putThreadSreg
  split <;> simp_all
  omega

theorem putThreadSreg_lc : (putThreadSreg w lane n v).lc =
    if 0x028 ≤ n ∧ n < 0x02B then w.lc.put (4 * lane + (n - 0x028)) v else w.lc := by
  unfold putThreadSreg
  split <;> simp_all
  omega

/-- A write of a thread-scope register changes the stack pointers, index registers and loop counters, and nothing else. -/
theorem putThreadSreg_eq : putThreadSreg w lane n v =
    { w with sp := (putThreadSreg w lane n v).sp, ix := (putThreadSreg w lane n v).ix, lc := (putThreadSreg w lane n v).lc } := by
  unfold putThreadSreg
  split <;> rfl

end

/-- A write of a warp-scope register, register by register (R5, R63, R66, R141). -/
theorem putWarpSreg_eq (w : Warp) (n : Nat) (wide : Bool) (v : DWord) : putWarpSreg w n wide v =
    { w with
      ovc := if n = 0x218 then v.extractLsb' 0 32 else w.ovc
      nvc := if n = 0x219 then v.extractLsb' 0 32 else w.nvc
      fpcr := if n = 0x21A then v.extractLsb' 0 32 &&& 3 else w.fpcr
      fpsr := if n = 0x21B then v.extractLsb' 0 32 &&& 31 else w.fpsr
      tpc := if n = 0x801 then (if wide then v else w.tpc.extractLsb' 32 32 ++ v.extractLsb' 0 32) else w.tpc
      tkept := if n = 0x801 then none else w.tkept } := by
  unfold putWarpSreg
  split <;> simp_all

/-! ### Writes of special registers, as threads read them -/

theorem getD_put_lane {α : Type} (m : Tbl α) (x d : α) (l k : Nat) {i j : Nat} (hi : i < 4) (hj : j < 4) :
    (m.put (4 * l + i) x).getD (4 * k + j) d = if k = l ∧ j = i then x else m.getD (4 * k + j) d := by
  by_cases h : k = l ∧ j = i
  · obtain ⟨rfl, rfl⟩ := h
    simp
  · rw [if_neg h, getD_put_ne _ _ _ (by omega)]

theorem th_eq_iff_lane {u t : Th} (hw : u.wid = t.wid) : u = t ↔ u.lane = t.lane := by
  cases u
  cases t
  simp_all

section
variable {s : State} {t : Th} (ht : s.warps.find t.wid ≠ none) (n : Nat) (v : Word) (u : Th)
include ht

theorem spReg_setThreadSreg : (s.setThreadSreg t n v).spReg u = if u = t then (if n = 0x011 then v else s.spReg u) else s.spReg u := by
  unfold State.spReg
  rw [setThreadSreg_eq]
  by_cases hw : u.wid = t.wid
  · rw [hw, warp_onWarp_self ht, putThreadSreg_sp]
    simp only [th_eq_iff_lane hw]
    by_cases hn : n = 0x011
    · by_cases hl : u.lane = t.lane
      · simp [hn, hl]
      · simp [hn, hl, getD_put_ne]
    · simp [hn]
  · rw [warp_onWarp_ne _ _ hw, if_neg fun h => hw (congrArg Th.wid h)]

theorem ixReg_setThreadSreg {j : Nat} (hj : j < 4) : (s.setThreadSreg t n v).ixReg u j =
    if u = t then (if n = 0x020 + j then v &&& 0x00FFFFFF else s.ixReg u j) else s.ixReg u j := by
  unfold State.ixReg
  rw [setThreadSreg_eq]
  by_cases hw : u.wid = t.wid
  · rw [hw, warp_onWarp_self ht, putThreadSreg_ix]
    simp only [th_eq_iff_lane hw]
    by_cases hn : 0x020 ≤ n ∧ n < 0x024
    · rw [if_pos hn, getD_put_lane _ _ _ _ _ (by omega) hj, ite_and]
      simp only [show j = n - 0x020 ↔ n = 0x020 + j by omega]
    · rw [if_neg hn, if_neg (show ¬ n = 0x020 + j by omega), ite_self]
  · rw [warp_onWarp_ne _ _ hw, if_neg fun h => hw (congrArg Th.wid h)]

theorem lcReg_setThreadSreg {j : Nat} (hj : j < 3) : (s.setThreadSreg t n v).lcReg u j =
    if u = t then (if n = 0x028 + j then v else s.lcReg u j) else s.lcReg u j := by
  unfold State.lcReg
  rw [setThreadSreg_eq]
  by_cases hw : u.wid = t.wid
  · rw [hw, warp_onWarp_self ht, putThreadSreg_lc]
    simp only [th_eq_iff_lane hw]
    by_cases hn : 0x028 ≤ n ∧ n < 0x02B
    · rw [if_pos hn, getD_put_lane _ _ _ _ _ (by omega) (by omega), ite_and]
      simp only [show j = n - 0x028 ↔ n = 0x028 + j by omega]
    · rw [if_neg hn, if_neg (show ¬ n = 0x028 + j by omega), ite_self]
  · rw [warp_onWarp_ne _ _ hw, if_neg fun h => hw (congrArg Th.wid h)]

end

/-- The threads of a list change their own warps, each warp having at most one of them. -/
theorem warp_foldl_own (f : Th → Warp → Warp) (l : List Th) (hn : (l.map Th.wid).Nodup) (s : State) {t : Th} (ht : t ∈ l)
    (hw : s.warps.find t.wid ≠ none) : (l.foldl (fun s t => s.onWarp t.wid (f t)) s).warp t.wid = f t (s.warp t.wid) := by
  induction l generalizing s with
  | nil => exact absurd ht List.not_mem_nil
  | cons x l ih =>
    obtain ⟨hx, hn⟩ := List.nodup_cons.mp hn
    rw [List.foldl_cons]
    rcases List.mem_cons.mp ht with rfl | ht
    · refine Eq.trans ?_ (warp_onWarp_self hw (f t))
      refine List.foldlRecOn (motive := fun m : State => m.warp t.wid = (s.onWarp t.wid (f t)).warp t.wid) l _ rfl
        fun m hm y hy => (warp_onWarp_ne m (f y) fun he => hx ?_).trans hm
      exact he ▸ List.mem_map_of_mem hy
    · have hne : t.wid ≠ x.wid := fun he => hx (he ▸ List.mem_map_of_mem ht)
      rw [ih hn _ ht (find_onWarp_ne_none _ _ _ _ hw), warp_onWarp_ne _ _ hne]

/-- Threads change no warp but their own. -/
theorem warp_foldl_other (f : Th → Warp → Warp) (l : List Th) (s : State) {wid : Nat} (h : ∀ t ∈ l, t.wid ≠ wid) :
    (l.foldl (fun s t => s.onWarp t.wid (f t)) s).warp wid = s.warp wid :=
  List.foldlRecOn (motive := fun m : State => m.warp wid = s.warp wid) l _ rfl
    fun m hm t ht => (warp_onWarp_ne m (f t) (h t ht).symm).trans hm

/-- A change of threads' warps that leaves a field of them leaves it in every warp. -/
theorem warp_field_foldl {β : Type} (g : Warp → β) (f : Th → Warp → Warp) (hf : ∀ t w, g (f t w) = g w) (l : List Th) (s : State)
    (wid : Nat) : g ((l.foldl (fun s t => s.onWarp t.wid (f t)) s).warp wid) = g (s.warp wid) :=
  List.foldlRecOn (motive := fun m : State => g (m.warp wid) = g (s.warp wid)) l _ rfl
    fun m hm t _ => (warp_field_onWarp g m t.wid (f t) (hf t) wid).trans hm

/-! ### SWR (R273) -/

/-- A thread-scope register written by some threads, then a warp-scope one by the lowest of each home warp (R63, R153). -/
def threadSregs (s : State) (act : List Th) (n : Nat) (v : Th → Word) : State :=
  act.foldl (fun s t => s.setThreadSreg t n (v t)) s

def warpSregs (s : State) (act : List Th) (n : Nat) (wide : Bool) (v : Th → DWord) : State :=
  (act.filter (leads act)).foldl (fun s t => s.setWarpSreg t.wid n wide (v t)) s

theorem nodup_leaders {act : List Th} (hn : act.Nodup) : ((act.filter (leads act)).map Th.wid).Nodup := by
  refine (hn.filter _).map_on fun t ht u hu h => ?_
  exact leads_unique (List.mem_filter.mp ht).2 (List.mem_filter.mp hu).2 h

section
variable {s : State} {act : List Th} (hn : act.Nodup) (hw : ∀ t ∈ act, s.warps.find t.wid ≠ none) (n : Nat) (v : Th → Word)
include hn hw

/-- What a thread reads of its own registers is what it has written, else what it read before. -/
theorem read_threadSregs {X : Type} (get : State → Th → X) (val : Th → X → X)
    (h : ∀ m : State, ∀ t, m.warps.find t.wid ≠ none → ∀ u, get (m.setThreadSreg t n (v t)) u = if u = t then val u (get m u) else get m u)
    (u : Th) : get (threadSregs s act n v) u = if u ∈ act then val u (get s u) else get s u :=
  foldl_point (P := fun m => ∀ t ∈ act, m.warps.find t.wid ≠ none) get (fun m t => m.setThreadSreg t n (v t)) val act hn
    (fun m hm t _ u hu => find_onWarp_ne_none _ t.wid u.wid _ (hm u hu))
    (fun m hm t ht u => by
      rw [h m t (hm t ht)]
      split
      · next he => rw [he]
      · rfl) s hw u

theorem spReg_threadSregs (u : Th) : (threadSregs s act n v).spReg u = if u ∈ act ∧ n = 0x011 then v u else s.spReg u := by
  rw [read_threadSregs hn hw n v State.spReg (fun u x => if n = 0x011 then v u else x)
    (fun m t ht u => by rw [spReg_setThreadSreg ht]; split <;> simp_all), ite_and]

theorem ixReg_threadSregs (u : Th) {j : Nat} (hj : j < 4) : (threadSregs s act n v).ixReg u j =
    if u ∈ act ∧ n = 0x020 + j then v u &&& 0x00FFFFFF else s.ixReg u j := by
  rw [read_threadSregs hn hw n v (fun m u => m.ixReg u j) (fun u x => if n = 0x020 + j then v u &&& 0x00FFFFFF else x)
    (fun m t ht u => by rw [ixReg_setThreadSreg ht n _ u hj]; split <;> simp_all), ite_and]

theorem lcReg_threadSregs (u : Th) {j : Nat} (hj : j < 3) : (threadSregs s act n v).lcReg u j =
    if u ∈ act ∧ n = 0x028 + j then v u else s.lcReg u j := by
  rw [read_threadSregs hn hw n v (fun m u => m.lcReg u j) (fun u x => if n = 0x028 + j then v u else x)
    (fun m t ht u => by rw [lcReg_setThreadSreg ht n _ u hj]; split <;> simp_all), ite_and]

end

section
variable (s : State) (act : List Th) (n : Nat) (v : Th → Word) (wide : Bool) (x : Th → DWord)

/-- Writes of special registers leave every warp's groups. -/
theorem threadSregs_groups : SameGroups s (threadSregs s act n v) :=
  sameGroups_foldl_onWarp (fun (t : Th) w => putThreadSreg w t.lane n (v t)) Th.wid (fun t w => by rw [putThreadSreg_eq]) act s

theorem warpSregs_groups : SameGroups s (warpSregs s act n wide x) :=
  sameGroups_foldl_onWarp (fun (t : Th) w => putWarpSreg w n wide (x t)) Th.wid (fun t w => by rw [putWarpSreg_eq]) _ s

/-- A write of a warp-scope register leaves what it does not name. -/
theorem warpSregs_field {β : Type} (g : Warp → β) (hg : ∀ w y, g (putWarpSreg w n wide y) = g w) (wid : Nat) :
    g ((warpSregs s act n wide x).warp wid) = g (s.warp wid) :=
  warp_field_foldl g (fun (t : Th) w => putWarpSreg w n wide (x t)) (fun _ _ => hg _ _) _ s wid

theorem threadSregs_field {β : Type} (g : Warp → β) (hg : ∀ w lane y, g (putThreadSreg w lane n y) = g w) (wid : Nat) :
    g ((threadSregs s act n v).warp wid) = g (s.warp wid) :=
  warp_field_foldl g (fun (t : Th) w => putThreadSreg w t.lane n (v t)) (fun _ _ => hg _ _ _) _ s wid

/-- What SWR may change of a warp. -/
def swrFrame : MayChange :=
  { warp := fun w => { w with sp := [], ix := [], lc := [], ovc := 0, nvc := 0, fpcr := 0, fpsr := 0, tpc := 0, tkept := none } }

theorem leaves_threadSregs : Leaves s (threadSregs s act n v) swrFrame :=
  leaves_foldl_onWarp swrFrame (fun (t : Th) w => putThreadSreg w t.lane n (v t)) Th.wid (fun t w => by rw [putThreadSreg_eq]; rfl) act s

theorem leaves_warpSregs : Leaves s (warpSregs s act n wide x) swrFrame :=
  leaves_foldl_onWarp swrFrame (fun (t : Th) w => putWarpSreg w n wide (x t)) Th.wid (fun t w => by rw [putWarpSreg_eq]; rfl) _ s

end

/-- Both words of SWR's operand for a thread; the upper one is zero where it moves one word. -/
def swrValue (s : State) (c : Ctx) (f : FS) (th : Th) : DWord :=
  (if f.m.getLsbD 0 then (s.src c th f.d 1).val else 0) ++ (s.src c th f.d 0).val

theorem swrValue_lo (s : State) (c : Ctx) (f : FS) (th : Th) : (swrValue s c f th).extractLsb' 0 32 = (s.src c th f.d 0).val := by
  unfold swrValue
  generalize (if f.m.getLsbD 0 then (s.src c th f.d 1).val else 0) = hi
  generalize (s.src c th f.d 0).val = lo
  exact BitVec.extractLsb'_append_eq_right

/-- The state in which SWR has written its register, before its unit goes on. -/
def swrWritten (s : State) (c : Ctx) (f : FS) (act : List Th) : State :=
  warpSregs (threadSregs s act f.sreg.toNat fun t => (swrValue s c f t).extractLsb' 0 32) act f.sreg.toNat (f.m.getLsbD 0)
    (swrValue s c f)

theorem exec_swr (f : FS) (s : State) : exec (.swr f) s = syncInstr s (.swr f) (swrChecks s f) fun c act =>
    if f.sreg.toNat = 0x801 && s.setSplit c.u then s.takeTrap c.u (splitTrap c act) c.len
    else (swrWritten s c f act).advance c.u c.len := by
  show execSwr f s = _
  unfold execSwr swrWritten warpSregs threadSregs swrValue swrChecks
  rfl

section
variable {f : FS} {s : State} (c : Ctx) {act : List Th}

theorem swrWritten_groups : SameGroups s (swrWritten s c f act) :=
  (threadSregs_groups s act _ _).trans (warpSregs_groups _ act _ _ _)

theorem leaves_swrWritten : Leaves s (swrWritten s c f act) swrFrame :=
  Laws.Leaves.trans (leaves_threadSregs s act _ _) (leaves_warpSregs _ act _ _ _)

/-- Warps without an active thread are as they were. -/
theorem swrWritten_other {wid : Nat} (h : ∀ th ∈ act, th.wid ≠ wid) : (swrWritten s c f act).warp wid = s.warp wid :=
  (warp_foldl_other (fun (t : Th) w => putWarpSreg w _ _ (swrValue s c f t)) _ _ fun t ht => h t (List.mem_filter.mp ht).1).trans
    (warp_foldl_other (fun (t : Th) w => putThreadSreg w t.lane _ _) act s h)

variable (hn : act.Nodup) (hw : ∀ t ∈ act, s.warps.find t.wid ≠ none)
include hn hw

/-- The lowest active thread of a home warp writes the warp's register. -/
theorem swrWritten_warp {th : Th} (ht : th ∈ act) (hl : leads act th = true) : (swrWritten s c f act).warp th.wid =
    putWarpSreg ((threadSregs s act f.sreg.toNat fun t => (swrValue s c f t).extractLsb' 0 32).warp th.wid) f.sreg.toNat (f.m.getLsbD 0)
      (swrValue s c f th) :=
  warp_foldl_own (fun (t : Th) w => putWarpSreg w f.sreg.toNat (f.m.getLsbD 0) (swrValue s c f t)) _ (nodup_leaders hn) _
    (List.mem_filter.mpr ⟨ht, hl⟩) ((threadSregs_groups s act _ _).find_ne_none (hw th ht))

/-- What SWR leaves in the registers of a home warp with an active thread (R5, R63, R66, R141). -/
theorem swrWritten_regs {th : Th} (ht : th ∈ act) (hl : leads act th = true) :
    let n := f.sreg.toNat
    let w := s.warp th.wid
    let v := (swrWritten s c f act).warp th.wid
    let lo := (s.src c th f.d 0).val
    v.ovc = (if n = 0x218 then lo else w.ovc) ∧ v.nvc = (if n = 0x219 then lo else w.nvc) ∧
    v.fpcr = (if n = 0x21A then lo &&& 3 else w.fpcr) ∧ v.fpsr = (if n = 0x21B then lo &&& 31 else w.fpsr) ∧
    v.tpc = (if n = 0x801 then
        (if f.m.getLsbD 0 then (s.src c th f.d 1).val else w.tpc.extractLsb' 32 32) ++ lo
      else w.tpc) ∧
    v.tkept = (if n = 0x801 then none else w.tkept) := by
  have hkeep := fun {β : Type} (g : Warp → β) hg =>
    threadSregs_field s act f.sreg.toNat (fun t => (swrValue s c f t).extractLsb' 0 32) g hg th.wid
  dsimp only
  rw [swrWritten_warp c hn hw ht hl, putWarpSreg_eq, swrValue_lo]
  dsimp only
  refine ⟨?_, ?_, ?_, ?_, ?_, ?_⟩
  · rw [hkeep Warp.ovc fun w l y => by rw [putThreadSreg_eq]]
  · rw [hkeep Warp.nvc fun w l y => by rw [putThreadSreg_eq]]
  · rw [hkeep Warp.fpcr fun w l y => by rw [putThreadSreg_eq]]
  · rw [hkeep Warp.fpsr fun w l y => by rw [putThreadSreg_eq]]
  · rw [hkeep Warp.tpc fun w l y => by rw [putThreadSreg_eq]]
    unfold swrValue
    split <;> [(split <;> rfl); rfl]
  · rw [hkeep Warp.tkept fun w l y => by rw [putThreadSreg_eq]]

omit hn hw in
theorem swrWritten_thread {β : Type} (g : Warp → β) (hg : ∀ w y, g (putWarpSreg w f.sreg.toNat (f.m.getLsbD 0) y) = g w) (wid : Nat) :
    g ((swrWritten s c f act).warp wid) =
      g ((threadSregs s act f.sreg.toNat fun t => (swrValue s c f t).extractLsb' 0 32).warp wid) :=
  warpSregs_field _ act _ _ _ g hg wid

theorem swrWritten_spReg (u : Th) : (swrWritten s c f act).spReg u =
    if u ∈ act ∧ f.sreg.toNat = 0x011 then (s.src c u f.d 0).val else s.spReg u := by
  rw [State.spReg, swrWritten_thread c Warp.sp fun w y => by rw [putWarpSreg_eq]]
  exact (spReg_threadSregs hn hw _ _ u).trans (by rw [swrValue_lo])

theorem swrWritten_ixReg (u : Th) {j : Nat} (hj : j < 4) : (swrWritten s c f act).ixReg u j =
    if u ∈ act ∧ f.sreg.toNat = 0x020 + j then (s.src c u f.d 0).val &&& 0x00FFFFFF else s.ixReg u j := by
  rw [State.ixReg, swrWritten_thread c Warp.ix fun w y => by rw [putWarpSreg_eq]]
  exact (ixReg_threadSregs hn hw _ _ u hj).trans (by rw [swrValue_lo])

theorem swrWritten_lcReg (u : Th) {j : Nat} (hj : j < 3) : (swrWritten s c f act).lcReg u j =
    if u ∈ act ∧ f.sreg.toNat = 0x028 + j then (s.src c u f.d 0).val else s.lcReg u j := by
  rw [State.lcReg, swrWritten_thread c Warp.lc fun w y => by rw [putWarpSreg_eq]]
  exact (lcReg_threadSregs hn hw _ _ u hj).trans (by rw [swrValue_lo])

end

/-! ### Values (R62, R63) -/

/-- The values that R62 and R63 give some registers. -/
theorem sreg_values (s : State) (u : IssueUnit) (th : Th) :
    s.sreg u th 0x000 = BitVec.ofNat 64 th.lane ∧ s.sreg u th 0x001 = BitVec.ofNat 64 (th.lane / 4) ∧
    s.sreg u th 0x010 = BitVec.ofNat 64 u.depth ∧ s.sreg u th 0x100 = BitVec.ofNat 64 (s.tickOf (s.warp th.wid).core) ∧
    s.sreg u th 0x101 = BitVec.ofNat 64 s.gtime ∧ s.sreg u th 0x102 = BitVec.ofNat 64 s.gtskew ∧
    s.sreg u th 0x200 = (s.coreRegs (s.warp th.wid).core).tagmap ∧
    (∀ k < 4, s.sreg u th (0x210 + k) = BitVec.ofNat 64 (s.counter th.wid k)) ∧
    s.sreg u th 0x801 = (s.warp th.wid).tpc ∧ s.sreg u th 0x802 = (s.warp th.wid).tval := by
  refine ⟨rfl, rfl, rfl, rfl, rfl, rfl, rfl, fun k hk => ?_, rfl, rfl⟩
  interval_cases k <;> rfl

/-- SWR writes the register that its number names for its active threads, and its unit goes on (R273). -/
theorem swr_writes {f : FS} {s : State} {act : List Th} (h : s.gate (s.ctx (.swr f)) (swrChecks s f) = .go act)
    (hs : f.sreg.toNat = 0x801 → s.setSplit (s.ctx (.swr f)).u = false) :
    exec (.swr f) s = .next ((swrWritten s (s.ctx (.swr f)) f act).advance (s.ctx (.swr f)).u (s.ctx (.swr f)).len) := by
  rw [exec_swr, syncInstr_go h, if_neg]
  simp only [Bool.and_eq_true, decide_eq_true_eq, not_and, Bool.not_eq_true]
  exact hs

/-- Settles O41: SRD by the results it delivers, SWR register by register, the privileged reads by their trap, and the values that
R62 and R63 give some registers. -/
theorem specialRegisters : Obligations.SpecialRegisters := by
  refine ⟨fun f s act h => ?_, fun f s act => ?_, fun f s => ?_, sreg_values⟩
  · obtain ⟨t, ht, hc⟩ := srd_computes h
    refine ⟨t, ht, ?_⟩
    convert hc using 1
    funext th
    unfold sregOut sregTag
    cases sregInfo f.sreg.toNat <;> rfl
  · dsimp only
    intro h hs
    obtain ⟨hn, hsub⟩ := active_of_gate h
    have hw : ∀ t ∈ act, s.warps.find t.wid ≠ none := fun t ht => find_of_unit (hsub t ht)
    have hl := leaves_advance {} (swrWritten s (s.ctx (.swr f)) f act) (s.ctx (.swr f)).u (s.ctx (.swr f)).len
    have hgo : GoesOn _ (s.ctx (.swr f)) := goesOn_advance (swrWritten_groups (s.ctx (.swr f)) (f := f) (act := act))
    refine ⟨_, swr_writes h hs, ?_⟩
    generalize (swrWritten s (s.ctx (.swr f)) f act).advance (s.ctx (.swr f)).u (s.ctx (.swr f)).len = t at hl hgo ⊢
    refine ⟨hgo, fun th => ?_, fun th j hj => ?_, fun th j hj => ?_, fun th ht hlead => ?_, fun wid hno => ?_,
      Laws.Leaves.trans (leaves_swrWritten _) (Laws.Leaves.weaken hl _)⟩
    · exact (congrArg (fun w : Warp => w.sp.getD th.lane 0) (leaves_still hl th.wid) :).trans (swrWritten_spReg _ hn hw th)
    · exact (congrArg (fun w : Warp => w.ix.getD (4 * th.lane + j) 0) (leaves_still hl th.wid) :).trans (swrWritten_ixReg _ hn hw th hj)
    · exact (lcReg_of_leaves hl th j).trans (swrWritten_lcReg _ hn hw th hj)
    · have hst := leaves_still hl th.wid
      obtain ⟨h1, h2, h3, h4, h5, h6⟩ := swrWritten_regs (f := f) (s.ctx (.swr f)) hn hw ht hlead
      exact ⟨(congrArg Warp.ovc hst :).trans h1, (congrArg Warp.nvc hst :).trans h2, (congrArg Warp.fpcr hst :).trans h3,
        (congrArg Warp.fpsr hst :).trans h4, (congrArg Warp.tpc hst :).trans h5, (congrArg Warp.tkept hst :).trans h6⟩
    · rw [leaves_still hl wid, swrWritten_other _ hno]
  · dsimp only
    intro hm hd hp ht
    refine ⟨fun hn => ?_, fun hn => ?_⟩
    · obtain ⟨i, hi, hmode⟩ := sregInfo_trap hn
      exact srd_privileged hm hd hp ht hi (by simp [sregPriv, hi, hmode])
    · obtain ⟨i, hi, hmode⟩ := sregInfo_part hn
      exact srd_privileged hm hd hp ht hi (by simp [sregPriv, hi, hmode])

end Sys2Proof.Kernels

/-! # Returns from traps (O42: R59, R141, R276, R400, R469) -/
namespace Sys2Proof.Kernels
open Sys2Proof Sys2Proof.Machine Sys2Proof.Laws

/-! ### Changes of one warp -/

theorem put_put {α : Type} (m : Tbl α) (k : Nat) (x y : α) : (Tbl.put (Tbl.put m k x) k y) = Tbl.put m k y := by
  induction m with
  | nil => simp [Tbl.put]
  | cons p m ih =>
    obtain ⟨j, z⟩ := p
    simp only [Tbl.put]
    by_cases h1 : k < j
    · simp [h1, Tbl.put]
    · by_cases h2 : k = j
      · simp [h2, Tbl.put]
      · simp [h1, h2, Tbl.put, ih]

theorem onWarp_onWarp (s : State) (k : Nat) (f g : Warp → Warp) : (s.onWarp k f).onWarp k g = s.onWarp k fun w => g (f w) := by
  cases h : s.warps.find k with
  | none => simp [State.onWarp, h]
  | some w => simp [State.onWarp, h, put_put]

/-- A change of a warp depends on what it makes of that warp alone. -/
theorem onWarp_congr {s : State} {k : Nat} {f g : Warp → Warp} (h : f (s.warp k) = g (s.warp k)) : s.onWarp k f = s.onWarp k g := by
  cases hk : s.warps.find k with
  | none => simp [State.onWarp, hk]
  | some w =>
    have hw : s.warp k = w := by simp [State.warp, Tbl.getD, hk]
    rw [hw] at h
    simp [State.onWarp, hk, h]

/-- A state with other accesses, counts and next name. -/
def withFlights (s : State) (A : Tbl Access) (O : List Outst) (N : Nat) : State := { s with accs := A, outst := O, nextId := N }

theorem onWarp_withFlights (s : State) (A : Tbl Access) (O : List Outst) (N : Nat) (k : Nat) (f : Warp → Warp) :
    (withFlights s A O N).onWarp k f = withFlights (s.onWarp k f) A O N := by
  cases h : s.warps.find k <;> simp [State.onWarp, withFlights, h]

/-! ### Records that wait aside (R399, R400) -/

/-- What one record that waits aside does to its warp when a unit leaves trap mode. -/
def joinList (tick : Nat) (w : Warp) (r : FaultRec) : Warp :=
  if w.trapSet &&& r.lanes = 0 && w.faults.length < 8
  then { w with faults := w.faults ++ [{ r with arrived := tick }], aside := w.aside.erase r } else w

theorem listAside_eq_foldl (v : Warp) (tick : Nat) : v.listAside tick = v.aside.foldl (joinList tick) v := rfl

/-- A warp with another fault list and other records aside. -/
def withLists (v : Warp) (l a : List FaultRec) : Warp := { v with faults := l, aside := a }

/-- Where the list is full, no record joins it. -/
theorem foldl_joinList_full {v : Warp} (tick : Nat) (l : List FaultRec) (h : 8 ≤ v.faults.length) : l.foldl (joinList tick) v = v := by
  induction l with
  | nil => rfl
  | cons r l ih =>
    have hr : joinList tick v r = v := if_neg (by simp; omega)
    rw [List.foldl_cons, hr, ih]

/-- Outside trap mode a record joins a list that has room. -/
theorem joinList_head {v : Warp} (tick : Nat) (r : FaultRec) (F l : List FaultRec) (h0 : v.trapSet = 0) (hF : F.length < 8) :
    joinList tick (withLists v F (r :: l)) r = withLists v (F ++ [{ r with arrived := tick }]) l := by
  unfold joinList
  rw [if_pos (by simp [withLists, h0, hF])]
  simp [withLists]

theorem foldl_joinList (v : Warp) (tick : Nat) (h0 : v.trapSet = 0) (l F : List FaultRec) :
    l.foldl (joinList tick) (withLists v F l) =
      withLists v (F ++ (l.take (8 - F.length)).map fun r => { r with arrived := tick }) (l.drop (8 - F.length)) := by
  induction l generalizing F with
  | nil => simp
  | cons r l ih =>
    by_cases h8 : F.length < 8
    · obtain ⟨n, hn⟩ : ∃ n, 8 - F.length = n + 1 := ⟨7 - F.length, by omega⟩
      have hn' : 8 - (F ++ [{ r with arrived := tick }]).length = n := by simp; omega
      rw [List.foldl_cons, joinList_head tick r F l h0 h8, ih, hn, hn']
      simp
    · rw [foldl_joinList_full tick _ (show 8 ≤ F.length by omega), show 8 - F.length = 0 by omega]
      simp

/-- Outside trap mode, the records that wait aside join the list in their order as far as it has room for 8 (R400). -/
theorem listAside_outside (v : Warp) (tick : Nat) (h0 : v.trapSet = 0) : v.listAside tick =
    withLists v (v.faults ++ (v.aside.take (8 - v.faults.length)).map fun r => { r with arrived := tick })
      (v.aside.drop (8 - v.faults.length)) := by
  rw [listAside_eq_foldl]
  exact foldl_joinList v tick h0 v.aside v.faults

/-! ### A warp that has left trap mode -/

/-- A group of the returning unit, at `%tpc` under the kept header (R141, R276). -/
def Group.resumed (w : Warp) (g : Group) : Group :=
  { g with pc := w.tpc, hdr := (w.tkept.getD (w.tpc, 0)).1, hw := (w.tkept.getD (w.tpc, 0)).2, code := [], st := .running
           passed := false, waits := false, skip := 0, mark := 0 }

/-- A warp whose trap-mode unit is at `%tpc`, its records gone. -/
def resumed (w : Warp) (k : Nat) : Warp :=
  { w with
    trapSet := 0
    wdogPark := false
    deliv := none
    faults := keptRecords w
    groups := w.groups.map fun g => if g.pos = 0 && g.sliver = k then Group.resumed w g else g }

/-- A warp whose trap-mode unit has returned: its own records are gone, and those held aside have joined the list (R276, R400). -/
def freed (w : Warp) (k tick : Nat) : Warp :=
  withLists (resumed w k) (keptRecords w ++ (w.aside.take (8 - (keptRecords w).length)).map fun r => { r with arrived := tick })
    (w.aside.drop (8 - (keptRecords w).length))

/-- A state whose warp has left trap mode, before a held unit enters its handler. -/
def afterReturn (s : State) (wid k : Nat) (A : Tbl Access) (O : List Outst) (N : Nat) : State :=
  withFlights (s.onWarp wid fun w => freed w k (s.warpTick wid)) A O N

/-- A warp's fault list without the records of some lanes. -/
def cutFaults (lanes : Word) (w : Warp) : Warp :=
  { w with faults := (w.faults.map fun (r : FaultRec) => r.without lanes).filter fun r => r.lanes ≠ 0 }

/-- The trap-mode unit at `%tpc` (R276). -/
def atTpc (k : Nat) (w : Warp) : Warp :=
  { w with trapSet := 0, groups := w.groups.map fun g => if g.pos = 0 && g.sliver = k then Group.resumed w g else g }

theorem leaveTrap_eq (s : State) (wid k : Nat) : s.leaveTrap wid k = (s.onWarp wid (atTpc k)).endTrap wid := rfl

/-- A change of a warp that keeps its core keeps the warp's clock. -/
theorem warpTick_onWarp (s : State) (wid : Nat) (A : Tbl Access) (O : List Outst) (N : Nat) (f : Warp → Warp)
    (hf : ∀ w, (f w).core = w.core) : (withFlights (s.onWarp wid f) A O N).warpTick wid = s.warpTick wid := by
  have hc : ((withFlights (s.onWarp wid f) A O N).warp wid).core = (s.warp wid).core :=
    warp_field_onWarp Warp.core s wid f hf wid
  have ht : ∀ core, (withFlights (s.onWarp wid f) A O N).tickOf core = s.tickOf core := fun core => by
    cases h : s.warps.find wid <;>
      simp [State.onWarp, h, withFlights, State.tickOf, State.tileTick, State.island, State.islandOf, State.siteOf]
  unfold State.warpTick
  rw [hc, ht]

/-- What the end of trap mode makes of a warp before a held unit enters. -/
def trapEnded (tick : Nat) (w : Warp) : Warp := Warp.listAside { w with wdogPark := false, deliv := none } tick

theorem endTrap_eq_enterHeld (s : State) (wid : Nat) :
    s.endTrap wid = (s.onWarp wid (trapEnded (s.warpTick wid))).enterHeld wid := rfl

theorem trapEnded_atTpc (w : Warp) (k tick : Nat) : trapEnded tick (atTpc k (cutFaults w.trapSet w)) = freed w k tick :=
  listAside_outside _ _ rfl

/-- A unit that leaves trap mode once its records are gone (R276). -/
theorem leaveTrap_cut (s : State) (wid k : Nat) (A : Tbl Access) (O : List Outst) (N : Nat) :
    (withFlights (s.onWarp wid (cutFaults (s.warp wid).trapSet)) A O N).leaveTrap wid k = (afterReturn s wid k A O N).enterHeld wid := by
  let lanes := (s.warp wid).trapSet
  have htick := warpTick_onWarp s wid A O N (fun w => atTpc k (cutFaults lanes w)) fun _ => rfl
  calc (withFlights (s.onWarp wid (cutFaults lanes)) A O N).leaveTrap wid k
      = (withFlights (s.onWarp wid fun w => atTpc k (cutFaults lanes w)) A O N).endTrap wid := by
        rw [leaveTrap_eq, onWarp_withFlights, onWarp_onWarp]
    _ = (withFlights (s.onWarp wid fun w => trapEnded (s.warpTick wid) (atTpc k (cutFaults lanes w))) A O N).enterHeld wid := by
        rw [endTrap_eq_enterHeld, htick, onWarp_withFlights, onWarp_onWarp]
    _ = (afterReturn s wid k A O N).enterHeld wid := by
        unfold afterReturn
        rw [onWarp_congr (g := fun w => freed w k (s.warpTick wid)) (trapEnded_atTpc (s.warp wid) k (s.warpTick wid))]

/-! ### Counts that fall (R64, R276) -/

/-- An instruction's count when `d iid` accesses of it are dropped. -/
def fewerLeft (wid : Nat) (d : Nat → Nat) (o : Outst) : Outst := if o.wid = wid then { o with left := o.left - d o.iid } else o

/-- The counts of a warp when `d iid` accesses of each instruction are dropped: those of nothing left are gone. -/
def settle (wid : Nat) (d : Nat → Nat) (l : List Outst) : List Outst := (l.map (fewerLeft wid d)).filter fun o => o.left ≠ 0

theorem left_ne_zero_of_mem_settle {wid : Nat} {d : Nat → Nat} {l : List Outst} : ∀ o ∈ settle wid d l, o.left ≠ 0 := fun o ho => by
  simpa using (List.mem_filter.mp ho).2

theorem fewerLeft_zero (wid : Nat) (o : Outst) : fewerLeft wid (fun _ => 0) o = o := by
  unfold fewerLeft
  split <;> rfl

theorem settle_zero {l : List Outst} (wid : Nat) (h : ∀ o ∈ l, o.left ≠ 0) : settle wid (fun _ => 0) l = l := by
  unfold settle
  rw [List.map_congr_left (fun o _ => fewerLeft_zero wid o), List.map_id', List.filter_eq_self]
  simpa using h

theorem fewerLeft_fewerLeft (wid : Nat) (d e : Nat → Nat) (o : Outst) :
    fewerLeft wid e (fewerLeft wid d o) = fewerLeft wid (fun i => d i + e i) o := by
  unfold fewerLeft
  by_cases h : o.wid = wid
  · simp [h, Nat.sub_sub]
  · simp [h]

theorem fewerLeft_left_zero {wid : Nat} {d : Nat → Nat} {o : Outst} (e : Nat → Nat) (h : (fewerLeft wid d o).left = 0) :
    (fewerLeft wid (fun i => d i + e i) o).left = 0 := by
  unfold fewerLeft at h ⊢
  split at h
  · next hw => rw [if_pos hw]; simp only at h ⊢; omega
  · next hw => rwa [if_neg hw]

theorem settle_cons (wid : Nat) (d : Nat → Nat) (o : Outst) (l : List Outst) : settle wid d (o :: l) =
    if (fewerLeft wid d o).left = 0 then settle wid d l else fewerLeft wid d o :: settle wid d l := by
  by_cases h : (fewerLeft wid d o).left = 0 <;> simp [settle, h]

/-- Counts that fall twice fall by the sum. -/
theorem settle_settle (wid : Nat) (d e : Nat → Nat) (l : List Outst) :
    settle wid e (settle wid d l) = settle wid (fun i => d i + e i) l := by
  induction l with
  | nil => rfl
  | cons o l ih =>
    rw [settle_cons, settle_cons]
    by_cases h : (fewerLeft wid d o).left = 0
    · rw [if_pos h, if_pos (fewerLeft_left_zero e h), ih]
    · rw [if_neg h, settle_cons, fewerLeft_fewerLeft, ih]

theorem uncount_eq (s : State) (wid iid : Nat) :
    s.uncount wid iid = withFlights s s.accs (settle wid (fun i => if i = iid then 1 else 0) s.outst) s.nextId := by
  unfold State.uncount withFlights settle
  congr 2
  refine List.map_congr_left fun o _ => ?_
  unfold fewerLeft
  rcases eq_or_ne o.wid wid with rfl | hw
  · by_cases hi : o.iid = iid <;> simp [hi]
  · simp [hw]

theorem uncountN_eq (s : State) (wid iid n : Nat) (h : ∀ o ∈ s.outst, o.left ≠ 0) :
    s.uncountN wid iid n = withFlights s s.accs (settle wid (fun i => if i = iid then n else 0) s.outst) s.nextId := by
  induction n generalizing s with
  | zero =>
    have h0 : settle wid (fun i => if i = iid then 0 else 0) s.outst = s.outst := by simpa using settle_zero wid h
    rw [h0]
    rfl
  | succ n ih =>
    have hsum : settle wid (fun i => if i = iid then n else 0) (settle wid (fun i => if i = iid then 1 else 0) s.outst) =
        settle wid (fun i => if i = iid then n + 1 else 0) s.outst := by
      rw [settle_settle]
      congr 1
      funext i
      split <;> omega
    rw [State.uncountN, uncount_eq, ih _ left_ne_zero_of_mem_settle]
    exact congrArg (fun O => withFlights s s.accs O s.nextId) hsum

/-! ### What a return makes of the records of its lanes (R276) -/

/-- The count of one record's lanes dropped. -/
def dropCount (wid : Nat) (lanes : Word) (s : State) (r : FaultRec) : State :=
  s.uncountN wid r.iid (r.weight - (r.without lanes).weight)

/-- How many accesses of an instruction the records of a list lose with some lanes. -/
def lostCount (lanes : Word) (l : List FaultRec) (iid : Nat) : Nat :=
  ((l.filter fun r => r.iid = iid).map fun r => r.weight - (r.without lanes).weight).sum

theorem lostCount_cons (lanes : Word) (r : FaultRec) (l : List FaultRec) (iid : Nat) : lostCount lanes (r :: l) iid =
    (if iid = r.iid then r.weight - (r.without lanes).weight else 0) + lostCount lanes l iid := by
  unfold lostCount
  by_cases h : iid = r.iid
  · simp [h]
  · simp [h, Ne.symm h]

theorem foldl_dropCount (s : State) (wid : Nat) (lanes : Word) (l : List FaultRec) (h : ∀ o ∈ s.outst, o.left ≠ 0) :
    l.foldl (dropCount wid lanes) s = withFlights s s.accs (settle wid (lostCount lanes l) s.outst) s.nextId := by
  induction l generalizing s with
  | nil =>
    have h0 : settle wid (lostCount lanes []) s.outst = s.outst := settle_zero wid h
    rw [h0]
    rfl
  | cons r l ih =>
    rw [List.foldl_cons, dropCount, uncountN_eq s wid r.iid _ h, ih _ left_ne_zero_of_mem_settle]
    refine congrArg (fun O => withFlights s s.accs O s.nextId) ?_
    refine (settle_settle _ _ _ _).trans ?_
    congr 1
    funext i
    exact (lostCount_cons lanes r l i).symm

/-- Nothing but the accesses, the counts and the next name may differ. -/
def OnlyFlights (s t : State) : Prop := t = withFlights s t.accs t.outst t.nextId

theorem OnlyFlights.refl (s : State) : OnlyFlights s s := rfl

theorem onlyFlights_withFlights (s : State) (A : Tbl Access) (O : List Outst) (N : Nat) : OnlyFlights s (withFlights s A O N) := rfl

theorem OnlyFlights.trans {s t r : State} (h1 : OnlyFlights s t) (h2 : OnlyFlights t r) : OnlyFlights s r := by
  unfold OnlyFlights at *
  rw [h1] at h2
  exact h2

theorem onlyFlights_uncountN (s : State) (wid iid n : Nat) : OnlyFlights s (s.uncountN wid iid n) := by
  induction n generalizing s with
  | zero => exact .refl s
  | succ n ih => exact OnlyFlights.trans (t := s.uncount wid iid) rfl (ih _)

theorem onlyFlights_remerge (s : State) (ids : List Nat) : OnlyFlights s (s.remerge ids) := by
  refine List.foldlRecOn (motive := OnlyFlights s) ids _ (.refl s) fun t ht id _ => ht.trans ?_
  cases t.accs.find id <;> rfl

theorem dropListed_eq (s : State) (wid : Nat) (lanes : Word) : s.dropListed wid lanes =
    ((s.warp wid).faults.foldl (dropCount wid lanes) (s.remerge (s.heldRels wid))).onWarp wid (cutFaults lanes) := rfl

/-- The accesses that RTEX issues (R276): a record whose handle is no longer live faults again. -/
def againIssued (s : State) (wid : Nat) (lanes : Word) : List Access :=
  ((s.warp wid).faults.flatMap fun r => s.reissued wid (r.without (~~~lanes))).map fun a =>
    if (s.part (s.partOf wid)).liveH a.hyp then a else { a with st := AccSt.faulted, cause := cz 0x28 0 }

theorem reissue_eq (s : State) (wid : Nat) (lanes : Word) : s.reissue wid lanes =
    ((withFlights s (putAll s.accs s.nextId 0 (againIssued s wid lanes)) s.outst
      (s.nextId + (againIssued s wid lanes).length)).remerge (s.heldRels wid)).onWarp wid (cutFaults lanes) := rfl

/-- What a return does to the records of its lanes: they leave the list, and beside it only accesses and counts change. -/
def CutsRecords (recs : State → Nat → Word → State) : Prop := ∀ s wid lanes, ∃ A O N,
  recs s wid lanes = withFlights (s.onWarp wid (cutFaults lanes)) A O N

theorem cutsRecords_dropListed : CutsRecords State.dropListed := fun s wid lanes => by
  have h : OnlyFlights s ((s.warp wid).faults.foldl (dropCount wid lanes) (s.remerge (s.heldRels wid))) :=
    List.foldlRecOn (motive := OnlyFlights s) _ _ (onlyFlights_remerge s _) fun t ht r _ => ht.trans (onlyFlights_uncountN t _ _ _)
  exact ⟨_, _, _, by rw [dropListed_eq, h, onWarp_withFlights]⟩

theorem cutsRecords_reissue : CutsRecords State.reissue := fun s wid lanes => by
  have h := (onlyFlights_withFlights s (putAll s.accs s.nextId 0 (againIssued s wid lanes)) s.outst
    (s.nextId + (againIssued s wid lanes).length)).trans (onlyFlights_remerge _ (s.heldRels wid))
  exact ⟨_, _, _, by rw [reissue_eq, h, onWarp_withFlights]⟩

/-- RTE with no release held (R276): the accesses stay, the counts of the dropped records fall. -/
theorem dropListed_counts {s : State} {wid : Nat} (lanes : Word) (hrel : s.heldRels wid = []) (hleft : ∀ o ∈ s.outst, o.left ≠ 0) :
    s.dropListed wid lanes =
      withFlights (s.onWarp wid (cutFaults lanes)) s.accs (settle wid (lostCount lanes (s.warp wid).faults) s.outst) s.nextId := by
  rw [dropListed_eq, hrel, State.remerge, List.foldl_nil, foldl_dropCount s wid lanes _ hleft, onWarp_withFlights]

/-- RTEX with no release held (R276): no count falls, and new accesses stand behind the others. -/
theorem reissue_accs {s : State} {wid : Nat} (lanes : Word) (hrel : s.heldRels wid = []) :
    s.reissue wid lanes = withFlights (s.onWarp wid (cutFaults lanes)) (putAll s.accs s.nextId 0 (againIssued s wid lanes)) s.outst
      (s.nextId + (againIssued s wid lanes).length) := by
  rw [reissue_eq, hrel, State.remerge, List.foldl_nil, onWarp_withFlights]

/-! ### The accesses that RTEX issues (R276) -/

theorem find_putAll_of_mem {l : List Access} {a : Access} (ha : a ∈ l) (m : Tbl Access) (base : Nat) :
    ∃ id, base ≤ id ∧ (putAll m base 0 l).find id = some a := by
  obtain ⟨i, hi, rfl⟩ := List.getElem_of_mem ha
  refine ⟨base + i, by omega, ?_⟩
  rw [find_putAll, if_pos (by omega), show base + i - (base + 0) = i by omega]
  exact List.getElem?_eq_getElem hi

/-- A record is issued again once for each lane, but for LDU. -/
theorem exists_mem_reissued (s : State) (wid : Nat) {r : FaultRec} {l : FaultLane} (hl : l ∈ r.each) (hk : r.kind ≠ .ldu) :
    ∃ a ∈ s.reissued wid r, a.kind = r.kind ∧ a.iid = r.iid ∧ a.wid = wid ∧ a.lane = l.lane ∧ a.va = l.addr ∧ a.hyp = r.hyp ∧
      (r.kind = .st → a.data = l.data) ∧ a.st = .sent := by
  unfold State.reissued
  split <;> rename_i hkind <;> simp only [hkind] at hk ⊢
  case h_1 => exact absurd rfl hk
  all_goals
    refine ⟨_, List.mem_map_of_mem hl, ?_⟩
    simp_all

/-- An LDU's record is issued again as one access (R276). -/
theorem exists_mem_reissued_ldu (s : State) (wid : Nat) {r : FaultRec} (hk : r.kind = .ldu) (he : r.each ≠ []) :
    ∃ a ∈ s.reissued wid r, a.kind = .ldu ∧ a.iid = r.iid ∧ a.wid = wid ∧ a.hyp = r.hyp ∧ a.lanes = r.lanes := by
  unfold State.reissued
  cases h : r.each with
  | nil => exact absurd h he
  | cons l ls => simp [hk]

theorem mem_each_without {r : FaultRec} {l : FaultLane} {lanes : Word} (hl : l ∈ r.each) (h : lanes.getLsbD l.lane = true) :
    l ∈ (r.without (~~~lanes)).each :=
  List.mem_filter.mpr ⟨hl, by simp [h]⟩

theorem mem_againIssued {s : State} {wid : Nat} {lanes : Word} {r : FaultRec} {a : Access} (hr : r ∈ (s.warp wid).faults)
    (ha : a ∈ s.reissued wid (r.without (~~~lanes))) :
    (if (s.part (s.partOf wid)).liveH a.hyp then a else { a with st := AccSt.faulted, cause := cz 0x28 0 }) ∈
      againIssued s wid lanes :=
  List.mem_map_of_mem (List.mem_flatMap.mpr ⟨r, hr, ha⟩)

/-! ### A return that takes effect (R276, R469) -/

/-- A unit of one part that may return leaves trap mode. -/
theorem returnInstr_returns {s : State} {i : Instr} {f : V3} {act : List Th} {wid k : Nat}
    (hgo : s.gate (s.ctx i) (sysChecks s f.q) = .go act) (hm : (s.ctx i).u.mem = [(wid, k)]) (hr : mayReturn s (s.ctx i) act)
    (recs : State → Nat → Word → State) :
    returnInstr s i f recs = .next ((recs s wid (s.warp wid).trapSet).leaveTrap wid k) := by
  obtain ⟨hsplit, hland⟩ := hr
  have hown : ∀ th ∈ act, th.wid = wid := fun th hth => by
    obtain ⟨j, hj, -, -⟩ := inPart_of_mem s s.focus ((active_of_gate hgo).2 th hth)
    rw [show (s.unitAt s.focus).mem = [(wid, k)] from hm] at hj
    simpa using congrArg Prod.fst (List.mem_singleton.mp hj)
  have hkept : (s.warp wid).tkept ≠ none ∨ ∀ th ∈ act, landsNow s th (s.warp wid).tpc := hland (wid, k) (by rw [hm]; simp)
  have hheld : ((s.warp wid).tkept.isNone && s.landHeld (act.map fun t => (t, (s.warp t.wid).tpc))) = false := by
    rcases hkept with h | h
    · rw [Option.isNone_eq_false_iff.mpr (Option.isSome_iff_ne_none.mpr h), Bool.false_and]
    · rw [landHeld_eq_false, Bool.and_false]
      intro x hx
      obtain ⟨th, hth, rfl⟩ := List.mem_map.mp hx
      simpa only [hown th hth] using h th hth
  have htrap : s.returnTrap (s.ctx i) act = none := by
    unfold State.returnTrap
    rw [hsplit, hm]
    simp only [Bool.false_eq_true, if_false]
    rcases hkept with h | h
    · rw [if_neg (by simpa using h)]
    · rw [landTrap_eq_none, ite_self]
      intro x hx
      obtain ⟨th, hth, rfl⟩ := List.mem_map.mp hx
      exact h th hth
  unfold returnInstr
  rw [syncInstr_go hgo]
  simp only [htrap, hm, List.any_cons, List.any_nil, Bool.or_false, hheld, Bool.false_eq_true, if_false, List.foldl_cons, List.foldl_nil]

/-- The warp of a unit whose checks pass is there. -/
theorem find_of_return {s : State} {i : Instr} {f : V3} {act : List Th} {wid k : Nat}
    (hgo : s.gate (s.ctx i) (sysChecks s f.q) = .go act) (hm : (s.ctx i).u.mem = [(wid, k)]) : s.warps.find wid ≠ none := by
  have hne : act ≠ [] := fun h => by simpa [sysChecks] using (gate_go hgo).2.2.1 h
  obtain ⟨th, hth⟩ := List.exists_mem_of_ne_nil _ hne
  obtain ⟨j, hj, hw, -⟩ := inPart_of_mem s s.focus ((active_of_gate hgo).2 th hth)
  rw [show (s.unitAt s.focus).mem = [(wid, k)] from hm] at hj
  rwa [show th.wid = wid by simpa using congrArg Prod.fst (List.mem_singleton.mp hj)] at hw

/-- The threads of a unit of one part stand in running groups of that part. -/
theorem runsIn_of_unit {s : State} {i : Instr} {wid k : Nat} (hm : (s.ctx i).u.mem = [(wid, k)]) {th : Th} (h : th ∈ (s.ctx i).u.th) :
    RunsIn (s.warp wid) th.lane k := by
  obtain ⟨j, hj, -, hrun⟩ := inPart_of_mem s s.focus h
  rw [show (s.unitAt s.focus).mem = [(wid, k)] from hm] at hj
  obtain ⟨hw, rfl⟩ : th.wid = wid ∧ j = k := by simpa using hj
  rwa [hw] at hrun

/-! ### The warp after a return -/

theorem afterReturn_warp {s : State} {wid : Nat} (h : s.warps.find wid ≠ none) (k : Nat) (A : Tbl Access) (O : List Outst) (N : Nat) :
    (afterReturn s wid k A O N).warp wid = freed (s.warp wid) k (s.warpTick wid) :=
  warp_onWarp_self h _

theorem afterReturn_find_ne (s : State) {wid q : Nat} (h : q ≠ wid) (k : Nat) (A : Tbl Access) (O : List Outst) (N : Nat) :
    (afterReturn s wid k A O N).warps.find q = s.warps.find q :=
  (onWarp_find s wid q _).trans (if_neg h)

/-- A lane of the returning part stands at `%tpc` under the kept header. -/
theorem exists_group_freed {w : Warp} {lane k : Nat} (h : RunsIn w lane k) (tick : Nat) :
    ∃ g ∈ (freed w k tick).groups, g.pos = 0 ∧ g.sliver = k ∧ g.lanes.getLsbD lane = true ∧ g.pc = w.tpc ∧ g.st = .running ∧
      g.hdr = (w.tkept.getD (w.tpc, 0)).1 ∧ g.hw = (w.tkept.getD (w.tpc, 0)).2 := by
  obtain ⟨g, hg, hl, hp, hk⟩ := h
  have hmem : (if g.pos = 0 && g.sliver = k then Group.resumed w g else g) ∈ (freed w k tick).groups := List.mem_map_of_mem hg
  rw [if_pos (by simp [hp, hk])] at hmem
  exact ⟨_, hmem, hp, hk, hl, rfl, rfl, rfl, rfl⟩

/-- With no unit held for trap entry, a return leaves the warp out of trap mode (R276). -/
theorem leavesTrap_afterReturn {s : State} {i : Instr} {wid k : Nat} (hf : s.warps.find wid ≠ none) (hm : (s.ctx i).u.mem = [(wid, k)])
    (A : Tbl Access) (O : List Outst) (N : Nat) : LeavesTrap s wid (s.ctx i).u (afterReturn s wid k A O N) := by
  unfold LeavesTrap
  rw [afterReturn_warp hf]
  refine ⟨rfl, rfl, rfl, fun th hth => ?_, fun q hq => afterReturn_find_ne s hq k A O N⟩
  obtain ⟨g, hg, -, -, hat⟩ := exists_group_freed (runsIn_of_unit hm hth) (s.warpTick wid)
  exact ⟨g, hg, hat⟩

theorem outOfTrap_afterReturn {s : State} {wid : Nat} (hf : s.warps.find wid ≠ none) (hh : (s.warp wid).heldTraps = []) (k : Nat)
    (A : Tbl Access) (O : List Outst) (N : Nat) : OutOfTrap s wid (afterReturn s wid k A O N) := by
  unfold OutOfTrap
  rw [afterReturn_warp hf]
  exact ⟨hh, rfl, rfl⟩

theorem enterHeld_nil {s : State} {wid : Nat} (h : (s.warp wid).heldTraps = []) : s.enterHeld wid = s := by
  unfold State.enterHeld
  simp only [h]

theorem enterHeld_afterReturn {s : State} {wid : Nat} (hf : s.warps.find wid ≠ none) (hh : (s.warp wid).heldTraps = []) (k : Nat)
    (A : Tbl Access) (O : List Outst) (N : Nat) : (afterReturn s wid k A O N).enterHeld wid = afterReturn s wid k A O N :=
  enterHeld_nil (by rw [afterReturn_warp hf]; exact hh)

/-- A return changes its warp, the counts and the next name, and of the accesses only those it issues. -/
theorem leaves_afterReturn (s : State) (wid k : Nat) {A : Tbl Access} (hA : ∀ id, id < s.nextId → A.find id = s.accs.find id)
    (O : List Outst) (N : Nat) : Leaves s (afterReturn s wid k A O N) (returnFrame s) := by
  refine Laws.Leaves.trans (leaves_onWarp (returnFrame s) s wid (fun w => freed w k (s.warpTick wid)) fun _ => rfl) ?_
  refine ⟨sameTbl_refl _ _, sameTbl_refl _ _, sameTbl_refl _ _, sameTbl_refl _ _, sameTbl_refl _ _, sameTbl_refl _ _, fun _ => rfl,
    fun id hid => ?_, fun _ h _ => h, rfl⟩
  rw [onWarp_accs]
  exact congrArg (fun x : Option Access => x.bind (returnFrame s).acc) (hA id (Nat.lt_of_not_le hid))

/-! ### A change of one warp that keeps where it is placed -/

section
variable (s : State) (wid : Nat) {F : Warp → Warp} (A : Tbl Access) (O : List Outst) (N : Nat)

theorem launchOf_changed (hb : ∀ w, (F w).bid = w.bid) (q : Nat) : (withFlights (s.onWarp wid F) A O N).launchOf q = s.launchOf q :=
  launchOf_onWarp s wid F hb q

theorem part_changed (p : Nat) : (withFlights (s.onWarp wid F) A O N).part p = s.part p := by
  show (memOf (s.onWarp wid F)).part p = (memOf s).part p
  rw [memOf_onWarp]

theorem handlerAt_changed (hb : ∀ w, (F w).bid = w.bid) (q cause : Nat) :
    (withFlights (s.onWarp wid F) A O N).handlerAt q cause = s.handlerAt q cause := by
  unfold State.handlerAt State.partOf
  rw [launchOf_changed s wid A O N hb, part_changed]

theorem canLand_changed (hb : ∀ w, (F w).bid = w.bid) (th : Th) (a : DWord) :
    canLand (withFlights (s.onWarp wid F) A O N) th a ↔ canLand s th a := by
  unfold canLand State.partOf State.asidOf
  rw [launchOf_changed s wid A O N hb, fetch_congr (show memOf (withFlights (s.onWarp wid F) A O N) = memOf s from memOf_onWarp s wid F)]

theorem frameAt_changed (hb : ∀ w, (F w).bid = w.bid) (hi : ∀ w, (F w).idx = w.idx) (q : Nat) :
    (withFlights (s.onWarp wid F) A O N).frameAt q = s.frameAt q := by
  have hbid := warp_field_onWarp Warp.bid s wid F hb q
  have hidx := warp_field_onWarp Warp.idx s wid F hi q
  have hblk : ∀ b, (s.onWarp wid F).block b = s.block b := fun b => by simp [State.block]
  show (s.onWarp wid F).frameAt q = s.frameAt q
  unfold State.frameAt
  simp only [hbid, hidx, hblk]

theorem block_changed (b : Nat) : (withFlights (s.onWarp wid F) A O N).block b = s.block b := by
  show (s.onWarp wid F).block b = s.block b
  simp [State.block]

end

/-! ### The held unit that enters its handler (R59, R276) -/

/-- The trap that a held unit was held with. -/
def heldTrap (wid : Nat) (h : HeldTrap) : Trap :=
  { cause := h.cause, tval := h.tval, mask := (lanesOf h.mask).map fun l => { wid := wid, lane := l }, recorded := h.recorded
    trec := h.trec, deliv := h.deliv }

/-- The place that `%tpc` names for a held unit. -/
def heldAt (h : HeldTrap) : Tgt := { pc := h.pc, hdr := h.hdr, depth := h.depth }

theorem enterHeld_cons {s : State} {wid : Nat} {h : HeldTrap} {hs : List HeldTrap} (hh : (s.warp wid).heldTraps = h :: hs)
    (h0 : (s.warp wid).trapSet = 0) : s.enterHeld wid =
      (s.onWarp wid fun w => { w with heldTraps := hs }).enterTrap wid h.sliver (heldTrap wid h) (heldAt h) h.hw h.mix h.skip := by
  unfold State.enterHeld
  simp only [hh, h0, ne_eq, not_true_eq_false, if_false]
  rfl

/-- A warp whose part has entered a trap handler, its lanes `lanes`, with what the entry saves. -/
def Warp.entered (w : Warp) (k : Nat) (entry : DWord) (lanes : Word) (since frame size wid : Nat) (tr : Trap) (at_ : Tgt) (hw : Word)
    (mix : Bool) : Warp :=
  { Warp.saved w lanes since frame size wid tr at_ hw mix with
    groups := w.groups.map fun g => if g.pos = 0 && g.sliver = k then Group.toHandler entry g else g }

/-- The warp of a trap taken outside trap mode, whose handler is there; other warps stay. -/
theorem enterTrap_warp {s : State} {wid : Nat} (hf : s.warps.find wid ≠ none) (h0 : (s.warp wid).trapSet = 0) (k : Nat) (tr : Trap)
    (at_ : Tgt) (hw : Word) (mix : Bool) (skip : Nat) (hl : canLand s { wid := wid, lane := 0 } (s.handlerAt wid tr.cause)) :
    (∃ since, (s.enterTrap wid k tr at_ hw mix skip).warp wid = Warp.entered (s.warp wid) k (s.handlerAt wid tr.cause)
      ((s.warp wid).sliverLanes k) since (s.frameAt wid) (s.block (s.warp wid).bid).frame wid tr at_ hw mix) ∧
    ∀ q, q ≠ wid → (s.enterTrap wid k tr at_ hw mix skip).warps.find q = s.warps.find q := by
  obtain ⟨since, hsaved⟩ := trapSaved_warp hf k tr at_ hw mix
  rw [enterTrap_free h0, if_pos ((headerAt_iff s wid _).mpr hl)]
  refine ⟨⟨since, ?_⟩, fun q hq => ?_⟩
  · rw [State.onSliver, warp_onWarp_self (trapSaved_find hf k tr at_ hw mix), hsaved]
    rfl
  · rw [State.onSliver, onWarp_find, if_neg hq]
    unfold trapSaved
    dsimp only
    rw [onWarp_find, if_neg hq, withdraw_warps]
    rfl

/-- The lanes of another part stand where they stood. -/
theorem sliverLanes_freed (w : Warp) {k j : Nat} (h : j ≠ k) (tick : Nat) : (freed w k tick).sliverLanes j = w.sliverLanes j := by
  have hmap : ∀ l : List Group, (l.map fun g => if g.pos = 0 && g.sliver = k then Group.resumed w g else g).filter
      (fun g => g.pos = 0 && g.sliver = j) = l.filter fun g => g.pos = 0 && g.sliver = j := fun l => by
    induction l with
    | nil => rfl
    | cons g l ih =>
      by_cases hg : (g.pos = 0 && g.sliver = k) = true
      · obtain ⟨-, hk⟩ : g.pos = 0 ∧ g.sliver = k := by simpa using hg
        have hkj : k ≠ j := h.symm
        rw [List.map_cons, if_pos hg, List.filter_cons_of_neg (by simp [Group.resumed, hk, hkj]),
          List.filter_cons_of_neg (by simp [hk, hkj]), ih]
      · rw [List.map_cons, if_neg hg, List.filter_cons, List.filter_cons, ih]
  exact congrArg lanesOfGroups (hmap w.groups)

/-- A warp whose trap-mode unit has returned, its first held unit taken off the list. -/
def freedFor (k tick : Nat) (hs : List HeldTrap) (w : Warp) : Warp := { freed w k tick with heldTraps := hs }

theorem freedFor_trapSet (k tick : Nat) (hs : List HeldTrap) (w : Warp) : (freedFor k tick hs w).trapSet = 0 := rfl
theorem freedFor_bid (k tick : Nat) (hs : List HeldTrap) (w : Warp) : (freedFor k tick hs w).bid = w.bid := rfl
theorem freedFor_idx (k tick : Nat) (hs : List HeldTrap) (w : Warp) : (freedFor k tick hs w).idx = w.idx := rfl

theorem sliverLanes_freedFor (w : Warp) {k j : Nat} (h : j ≠ k) (tick : Nat) (hs : List HeldTrap) :
    (freedFor k tick hs w).sliverLanes j = w.sliverLanes j :=
  sliverLanes_freed w h tick

/-- A warp whose trap-mode unit has returned and whose first held unit is in its handler. -/
def heldEntered (s : State) (wid k since : Nat) (h : HeldTrap) (hs : List HeldTrap) : Warp :=
  Warp.entered (freedFor k (s.warpTick wid) hs (s.warp wid)) h.sliver (s.handlerAt wid h.cause) ((s.warp wid).sliverLanes h.sliver)
    since (s.frameAt wid) (s.block (s.warp wid).bid).frame wid (heldTrap wid h) (heldAt h) h.hw h.mix

/-- A held unit enters its handler once the trap-mode unit has returned. -/
theorem enterHeld_afterReturn_cons {s : State} {wid k : Nat} {h : HeldTrap} {hs : List HeldTrap} (hf : s.warps.find wid ≠ none)
    (hh : (s.warp wid).heldTraps = h :: hs) (A : Tbl Access) (O : List Outst) (N : Nat) :
    (afterReturn s wid k A O N).enterHeld wid = (withFlights (s.onWarp wid (freedFor k (s.warpTick wid) hs)) A O N).enterTrap wid
      h.sliver (heldTrap wid h) (heldAt h) h.hw h.mix h.skip := by
  have hw := afterReturn_warp hf k A O N
  rw [enterHeld_cons (h := h) (hs := hs) (by rw [hw]; exact hh) (by rw [hw]; rfl), afterReturn, onWarp_withFlights, onWarp_onWarp]
  rfl

/-- A trap entry in a state that answers as `s` does but for the returned warp puts the first held unit in its handler. -/
theorem enterTrap_freedFor {s m : State} {wid k : Nat} {h : HeldTrap} {hs : List HeldTrap} (hk : h.sliver ≠ k)
    (hf : m.warps.find wid ≠ none) (hw : m.warp wid = freedFor k (s.warpTick wid) hs (s.warp wid))
    (hblk : m.block (s.warp wid).bid = s.block (s.warp wid).bid) (hent : m.handlerAt wid h.cause = s.handlerAt wid h.cause)
    (hfr : m.frameAt wid = s.frameAt wid) (hl : canLand m { wid := wid, lane := 0 } (m.handlerAt wid (heldTrap wid h).cause)) :
    (∃ since, (m.enterTrap wid h.sliver (heldTrap wid h) (heldAt h) h.hw h.mix h.skip).warp wid = heldEntered s wid k since h hs) ∧
      ∀ q, q ≠ wid → (m.enterTrap wid h.sliver (heldTrap wid h) (heldAt h) h.hw h.mix h.skip).warps.find q = m.warps.find q := by
  have h0 : (m.warp wid).trapSet = 0 := by rw [hw, freedFor_trapSet]
  obtain ⟨⟨since, ht⟩, hrest⟩ := enterTrap_warp hf h0 h.sliver (heldTrap wid h) (heldAt h) h.hw h.mix h.skip hl
  refine ⟨⟨since, ht.trans ?_⟩, hrest⟩
  rw [hfr, hw, freedFor_bid, hblk, sliverLanes_freedFor _ hk, show (heldTrap wid h).cause = h.cause from rfl, hent, heldEntered]

/-- After a return the first held unit is in its handler, and the other warps stay (R59, R276). -/
theorem enterHeld_warp {s : State} {wid k : Nat} {h : HeldTrap} {hs : List HeldTrap} (hf : s.warps.find wid ≠ none)
    (hh : (s.warp wid).heldTraps = h :: hs) (hk : h.sliver ≠ k)
    (hl : canLand s { wid := wid, lane := 0 } (s.handlerAt wid h.cause)) (A : Tbl Access) (O : List Outst) (N : Nat) :
    (∃ since, ((afterReturn s wid k A O N).enterHeld wid).warp wid = heldEntered s wid k since h hs) ∧
      ∀ q, q ≠ wid → ((afterReturn s wid k A O N).enterHeld wid).warps.find q = s.warps.find q := by
  have hbid := freedFor_bid k (s.warpTick wid) hs
  have hent := handlerAt_changed s wid A O N hbid wid h.cause
  have hlm := (canLand_changed s wid A O N hbid { wid := wid, lane := 0 } _).mpr hl
  rw [← hent] at hlm
  have hfr := frameAt_changed s wid A O N hbid (freedFor_idx k (s.warpTick wid) hs) wid
  have hblk := block_changed s wid (F := freedFor k (s.warpTick wid) hs) A O N (s.warp wid).bid
  have hw : (withFlights (s.onWarp wid (freedFor k (s.warpTick wid) hs)) A O N).warp wid = _ := warp_onWarp_self hf _
  have hfm : (withFlights (s.onWarp wid (freedFor k (s.warpTick wid) hs)) A O N).warps.find wid ≠ none :=
    find_onWarp_ne_none s wid wid _ hf
  obtain ⟨hwarp, hrest⟩ := enterTrap_freedFor hk hfm hw hblk hent hfr hlm
  rw [enterHeld_afterReturn_cons hf hh]
  exact ⟨hwarp, fun q hq => (hrest q hq).trans ((onWarp_find s wid q _).trans (if_neg hq))⟩

theorem leavesTrap_heldEntered {s t : State} {i : Instr} {wid k since : Nat} {h : HeldTrap} {hs : List HeldTrap}
    (hm : (s.ctx i).u.mem = [(wid, k)]) (hk : h.sliver ≠ k) (ht : t.warp wid = heldEntered s wid k since h hs)
    (hothers : ∀ q, q ≠ wid → t.warps.find q = s.warps.find q) : LeavesTrap s wid (s.ctx i).u t := by
  unfold LeavesTrap
  rw [ht]
  refine ⟨rfl, rfl, rfl, fun th hth => ?_, hothers⟩
  obtain ⟨g, hg, -, hgk, hat⟩ := exists_group_freed (runsIn_of_unit hm hth) (s.warpTick wid)
  refine ⟨g, List.mem_map.mpr ⟨g, hg, if_neg ?_⟩, hat⟩
  simp [hgk, Ne.symm hk]

theorem heldOneEnters_heldEntered {s t : State} {wid k since : Nat} {h : HeldTrap} {hs : List HeldTrap}
    (hh : (s.warp wid).heldTraps = h :: hs) (ht : t.warp wid = heldEntered s wid k since h hs) : HeldOneEnters s wid h t := by
  unfold HeldOneEnters
  rw [ht, hh]
  refine ⟨saved_trapSaved s wid _ _ since (heldTrap wid h) (heldAt h) h.hw h.mix _, rfl, fun g hg hp hs => ?_⟩
  obtain ⟨x, rfl⟩ := mem_onSliver hg hp hs
  exact ⟨rfl, rfl⟩

/-! ### RTE and RTEX -/

theorem exec_rte (f : V3) (s : State) : exec (.rte f) s = returnInstr s (.rte f) f State.dropListed := rfl
theorem exec_rtex (f : V3) (s : State) : exec (.rtex f) s = returnInstr s (.rtex f) f State.reissue := rfl

/-- RTE outside trap mode is privileged (R150, R275). -/
theorem exec_rte_outside (f : V3) {s : State} (h : (s.ctx (.rte f)).trap = false) : exec (.rte f) s =
    .next (s.takeTrap (s.ctx (.rte f)).u { cause := cz 0x04 3, tval := (s.ctx (.rte f)).tval, mask := (s.ctx (.rte f)).u.th }
      (s.ctx (.rte f)).len) := by
  have htrap : s.trapMode s.unit = false := h
  rw [exec_rte, returnInstr]
  exact syncInstr_static (by simp [sysChecks, Checks.static, htrap]) _

section
variable {s : State} {f : V3} {act : List Th} {wid k : Nat}

/-- RTE with no release and no unit held (R276). -/
theorem exec_rte_eq (hgo : s.gate (s.ctx (.rte f)) (sysChecks s f.q) = .go act) (hm : (s.ctx (.rte f)).u.mem = [(wid, k)])
    (hr : mayReturn s (s.ctx (.rte f)) act) (hleft : ∀ o ∈ s.outst, o.left ≠ 0) (hrel : s.heldRels wid = [])
    (hh : (s.warp wid).heldTraps = []) : exec (.rte f) s =
      .next (afterReturn s wid k s.accs (settle wid (lostCount (s.warp wid).trapSet (s.warp wid).faults) s.outst) s.nextId) := by
  rw [exec_rte, returnInstr_returns hgo hm hr, dropListed_counts _ hrel hleft, leaveTrap_cut,
    enterHeld_afterReturn (find_of_return hgo hm) hh]

/-- RTEX with no release and no unit held (R276). -/
theorem exec_rtex_eq (hgo : s.gate (s.ctx (.rtex f)) (sysChecks s f.q) = .go act) (hm : (s.ctx (.rtex f)).u.mem = [(wid, k)])
    (hr : mayReturn s (s.ctx (.rtex f)) act) (hrel : s.heldRels wid = []) (hh : (s.warp wid).heldTraps = []) : exec (.rtex f) s =
      .next (afterReturn s wid k (putAll s.accs s.nextId 0 (againIssued s wid (s.warp wid).trapSet)) s.outst
        (s.nextId + (againIssued s wid (s.warp wid).trapSet).length)) := by
  rw [exec_rtex, returnInstr_returns hgo hm hr, reissue_accs _ hrel, leaveTrap_cut, enterHeld_afterReturn (find_of_return hgo hm) hh]

/-- A return with a unit held for trap entry: that unit enters its handler (R59, R276). -/
theorem returnInstr_enters {i : Instr} {h : HeldTrap} {hs : List HeldTrap} {recs : State → Nat → Word → State} (hrec : CutsRecords recs)
    (hgo : s.gate (s.ctx i) (sysChecks s f.q) = .go act) (hm : (s.ctx i).u.mem = [(wid, k)]) (hr : mayReturn s (s.ctx i) act)
    (hh : (s.warp wid).heldTraps = h :: hs) (hk : h.sliver ≠ k)
    (hl : canLand s { wid := wid, lane := 0 } (s.handlerAt wid h.cause)) :
    ∃ t, returnInstr s i f recs = .next t ∧ LeavesTrap s wid (s.ctx i).u t ∧ HeldOneEnters s wid h t := by
  obtain ⟨A, O, N, hcut⟩ := hrec s wid (s.warp wid).trapSet
  obtain ⟨⟨since, ht⟩, hothers⟩ := enterHeld_warp (find_of_return hgo hm) hh hk hl A O N
  refine ⟨(afterReturn s wid k A O N).enterHeld wid, ?_, leavesTrap_heldEntered hm hk ht hothers, heldOneEnters_heldEntered hh ht⟩
  rw [returnInstr_returns hgo hm hr, hcut, leaveTrap_cut]

end

/-- Each lane's recorded access is issued again for its address, data and handle, and faults again once the handle is no longer
live (R276). -/
theorem reissued_find (s : State) (wid : Nat) {r : FaultRec} (hr : r ∈ (s.warp wid).faults) {l : FaultLane} (hl : l ∈ r.each)
    (hlane : (s.warp wid).trapSet.getLsbD l.lane = true) (hk : r.kind ≠ .ldu) :
    ∃ id a, s.nextId ≤ id ∧ (putAll s.accs s.nextId 0 (againIssued s wid (s.warp wid).trapSet)).find id = some a ∧ a.kind = r.kind ∧
      a.iid = r.iid ∧ a.wid = wid ∧ a.lane = l.lane ∧ a.va = l.addr ∧ a.hyp = r.hyp ∧ (r.kind = .st → a.data = l.data) ∧
      a.st = if (s.part (s.partOf wid)).liveH r.hyp then .sent else .faulted := by
  obtain ⟨a, ha, hkind, hiid, hwid, hlaneA, hva, hhyp, hdata, hst⟩ :=
    exists_mem_reissued s wid (mem_each_without hl hlane) (r := r.without (~~~(s.warp wid).trapSet)) hk
  obtain ⟨id, hid, hfind⟩ := find_putAll_of_mem (mem_againIssued hr ha) s.accs s.nextId
  have hhyp' : a.hyp = r.hyp := hhyp
  refine ⟨id, _, hid, hfind, ?_⟩
  by_cases hlive : (s.part (s.partOf wid)).liveH r.hyp
  · rw [hhyp', if_pos hlive, if_pos hlive]
    exact ⟨hkind, hiid, hwid, hlaneA, hva, hhyp', hdata, hst⟩
  · rw [hhyp', if_neg hlive, if_neg hlive]
    exact ⟨hkind, hiid, hwid, hlaneA, hva, rfl, hdata, rfl⟩

/-- An LDU's record is issued again as one access of its lanes in the set (R276). -/
theorem reissued_find_ldu (s : State) (wid : Nat) {r : FaultRec} (hr : r ∈ (s.warp wid).faults) (hk : r.kind = .ldu)
    {l : FaultLane} (hl : l ∈ r.each) (hlane : (s.warp wid).trapSet.getLsbD l.lane = true) :
    ∃ id a, s.nextId ≤ id ∧ (putAll s.accs s.nextId 0 (againIssued s wid (s.warp wid).trapSet)).find id = some a ∧ a.kind = .ldu ∧
      a.iid = r.iid ∧ a.wid = wid ∧ a.hyp = r.hyp ∧ a.lanes = r.lanes &&& (s.warp wid).trapSet := by
  obtain ⟨a, ha, hkind, hiid, hwid, hhyp, hlanes⟩ :=
    exists_mem_reissued_ldu s wid (r := r.without (~~~(s.warp wid).trapSet)) hk (List.ne_nil_of_mem (mem_each_without hl hlane))
  obtain ⟨id, hid, hfind⟩ := find_putAll_of_mem (mem_againIssued hr ha) s.accs s.nextId
  have hlanes' : a.lanes = r.lanes &&& (s.warp wid).trapSet := by simpa [FaultRec.without] using hlanes
  refine ⟨id, _, hid, hfind, ?_⟩
  split <;> exact ⟨hkind, hiid, hwid, hhyp, hlanes'⟩

/-- Settles O42: RTE drops the records of its lanes and RTEX issues them again; the unit leaves trap mode, and one that was held
for trap entry enters its handler. -/
theorem returnsFromTraps : Obligations.ReturnsFromTraps := by
  refine ⟨fun f s act wid k hgo hm hr hleft hrel hh => ?_, fun f s act wid k hgo hm hr hrel hh => ?_,
    fun i f s act wid k h hs hi hgo hm hr hh hk hl => ?_, fun f s h => exec_rte_outside f h⟩
  · have hf := find_of_return hgo hm
    exact ⟨_, exec_rte_eq hgo hm hr hleft hrel hh, leavesTrap_afterReturn hf hm _ _ _, outOfTrap_afterReturn hf hh k _ _ _, rfl, rfl,
      leaves_afterReturn s wid k (fun _ _ => rfl) _ _⟩
  · have hf := find_of_return hgo hm
    refine ⟨_, exec_rtex_eq hgo hm hr hrel hh, leavesTrap_afterReturn hf hm _ _ _, outOfTrap_afterReturn hf hh k _ _ _, rfl,
      fun r hr l hl hlane hkind => reissued_find s wid hr hl hlane hkind,
      fun r hr hkind hex => ?_, leaves_afterReturn s wid k (fun id hid => ?_) _ _⟩
    · obtain ⟨l, hl, hlane⟩ := hex
      exact reissued_find_ldu s wid hr hkind hl hlane
    · rw [find_putAll, if_neg (by omega)]
  · obtain rfl | rfl := hi
    · exact returnInstr_enters cutsRecords_dropListed hgo hm hr hh hk hl
    · exact returnInstr_enters cutsRecords_reissue hgo hm hr hh hk hl

end Sys2Proof.Kernels

/-! # Global stores and gang-remote accesses (O17, O19: R18, R78, R92, R198, R203, R206) -/
namespace Sys2Proof.Kernels
open Sys2Proof Sys2Proof.Machine Sys2Proof.Laws

/-- A store's access as it leaves. -/
def storeAccess (s : State) (c : Ctx) (f : FM) (n : Nat) (x : Th × DWord) : Access :=
  { s.accOf c x.1 .st x.2 n f.m with data := s.dataBytes c x.1 f.d n, rel := f.m.getLsbD 3 }

theorem exec_st (f : FM) (s : State) : exec (.st f) s = memInstr s (.st f)
    (chkStore f (sizeBytes f.m) (illStore f.m true) true) (s.laneAddrs f (sizeBytes f.m) true)
    (fun _ l => s.globalBad l (sizeBytes f.m) false) (fun c act => s.memHold c act 1 true (f.m.getLsbD 3))
    fun c _ l => s.send (some 1) (l.map (storeAccess s c f (sizeBytes f.m))) := rfl

/-! ### A core's view of its own stores (R78, R298) -/

/-- Stores that do not cover a byte leave what the stores before them made of it. -/
theorem lastByte_append {va : Nat} (l : Tbl Access) {l' : Tbl Access}
    (h : ∀ a ∈ l', ¬ (a.2.va.toNat ≤ va ∧ va < a.2.va.toNat + a.2.size)) : lastByte va (l ++ l') = lastByte va l := by
  unfold lastByte
  rw [List.foldl_append]
  refine List.foldlRecOn (motive := fun r => r = _) l' _ rfl fun r hr a ha => ?_
  have hno := h a ha
  rw [if_neg (by simpa using hno), hr]

/-- The id of a merged store depends on the partitions alone (R298, R300). -/
theorem tagOf_congr {s t : State} (h : t.parts = s.parts) (a : Access) : t.tagOf a = s.tagOf a := by
  unfold State.tagOf State.part
  rw [h]

/-- A core's view of a byte is the same after accesses have joined those on their way, none of which covers the byte. -/
theorem l1Byte_of_uncovered {s t : State} {l : Tbl Access} {va : Nat} (hparts : t.parts = s.parts) (hl1 : t.l1 = s.l1)
    (haccs : t.accs = s.accs ++ l) (h : ∀ a ∈ l, ¬ (a.2.va.toNat ≤ va ∧ va < a.2.va.toNat + a.2.size)) (core p asid hid : Nat) :
    t.l1Byte core p asid hid va = s.l1Byte core p asid hid va := by
  have hmerged : t.mergedByte core p asid hid va = s.mergedByte core p asid hid va := by
    unfold State.mergedByte State.merges
    simp only [haccs, tagOf_congr hparts, List.filter_append]
    exact lastByte_append _ fun a ha => h a (List.mem_of_mem_filter (List.mem_of_mem_filter ha))
  unfold State.l1Byte State.l1Find
  rw [hmerged, hl1]

/-- Accesses that are sent come after all those on their way, and nothing that a core's view depends on changes beside them. -/
theorem send_advance_view {s : State} (hf : s.fresh) (ctr : Option Nat) (l : List Access) (u : IssueUnit) (len : Nat) :
    let t := (s.send ctr l).advance u len
    t.parts = s.parts ∧ t.l1 = s.l1 ∧ ∃ l' : Tbl Access, t.accs = s.accs ++ l' ∧
      ∀ a ∈ l', ∃ b ∈ l, a.2.va = b.va ∧ a.2.size = b.size := by
  obtain ⟨⟨o, ho⟩, -⟩ := send_eq s ctr l
  have hmove := moveUnit_frozen (s.send ctr l) u fun _ => fallThrough u len
  have haccs : ((s.send ctr l).advance u len).accs = (s.send ctr l).accs := (congrArg State.accs hmove :)
  have hparts : ((s.send ctr l).advance u len).parts = (s.send ctr l).parts := (congrArg State.parts hmove :)
  have hl1 : ((s.send ctr l).advance u len).l1 = (s.send ctr l).l1 := (congrArg State.l1 hmove :)
  have hput := putAll_last (l.map fun a => { a with iid := s.nextId + (l.map (·.wid)).eraseDups.idxOf a.wid, batch := s.nextId }) s.accs
    (s.nextId + (l.map (·.wid)).eraseDups.length) 0 fun p hp => by have := hf p hp; omega
  refine ⟨hparts.trans (by rw [ho]), hl1.trans (by rw [ho]), _, (haccs.trans (by rw [ho])).trans hput, fun a ha => ?_⟩
  obtain ⟨⟨x, i⟩, hx, rfl⟩ := List.mem_map.mp ha
  obtain ⟨b, hb, rfl⟩ := List.mem_map.mp (List.fst_mem_of_mem_zipIdx hx)
  exact ⟨b, hb, rfl, rfl⟩

/-- Settles O17: a store's accesses are sent, and a core's view of a byte depends only on the accesses that cover it. -/
theorem globalStores : Obligations.GlobalStores := by
  intro f n s act hgo ⟨hbad, hhold⟩
  refine ⟨_, (exec_st f s).trans (memInstr_performs hgo hbad hhold), sent_of_send s _ _ _, fun hfresh core p asid hid va hno => ?_⟩
  obtain ⟨hparts, hl1, l', haccs, hl'⟩ := send_advance_view hfresh (some 1)
    ((s.laneAddrs f n true (s.ctx (.st f)) act).map (storeAccess s (s.ctx (.st f)) f n)) (s.ctx (.st f)).u (s.ctx (.st f)).len
  refine l1Byte_of_uncovered hparts hl1 haccs (fun a ha hcov => hno ?_) core p asid hid
  obtain ⟨b, hb, hva, hsize⟩ := hl' a ha
  obtain ⟨x, hx, rfl⟩ := List.mem_map.mp hb
  rw [hva, hsize] at hcov
  exact ⟨x, hx, hcov⟩

/-! ### Targets of gang-remote accesses (R18, R92, R201) -/

/-- A remote access whose checks pass has a target for each of its threads. -/
theorem targetOf_targetBid {s : State} {c : Ctx} {f : FM} {act : List Th} {n kind tgt : Nat} {code : BitVec 6}
    (h : s.remoteBad c (s.laneAddrs f n false c act) n kind tgt code = none) :
    ∀ th ∈ act, s.targetOf c th tgt code = .ok (s.targetBid c th tgt code) := by
  intro th hth
  obtain ⟨bid, hbid, -⟩ := (remoteBad_eq_none s c _ n kind tgt code).mp h _ (List.mem_map_of_mem hth)
  rw [State.targetBid, hbid]

/-- The checks of LDN (R196, R197, R201). -/
def ldnChecks (f : FM) : Checks :=
  { q := f.q, ill := illOf (f.m.getLsbD 3) (f.m.extractLsb' 0 3 = 7) (4 < remoteTgt f.x), opd := remoteOpd f (sizeBytes f.m) true,
    a := srcAny f.base, more := rankOpd (remoteTgt f.x) (xc f.x), d := dataOpd f.d (sizeBytes f.m) }

/-- The checks of STN (R196, R197, R201). -/
def stnChecks (f : FM) : Checks :=
  { q := f.q, ill := illOf (f.m.getLsbD 3) ([1, 3, 7].contains (f.m.extractLsb' 0 3).toNat) (4 < remoteTgt f.x),
    opd := remoteOpd f (sizeBytes f.m) false, a := srcAny f.base,
    more := dataOpd f.d (sizeBytes f.m) :: rankOpd (remoteTgt f.x) (xc f.x) }

theorem exec_ldn (f : FM) (s : State) : exec (.ldn f) s = memInstr s (.ldn f) (ldnChecks f) (s.laneAddrs f (sizeBytes f.m) false)
    (fun c l => s.remoteBad c l (sizeBytes f.m) 0 (remoteTgt f.x) (xc f.x)) (fun c act => s.memHold c act 0 false false)
    fun c act l => s.send (some 0) (l.map fun x =>
      { s.accOf c x.1 .ldn x.2 (sizeBytes f.m) f.m with
        target := s.targetBid c x.1 (remoteTgt f.x) (xc f.x), dst := [(x.1.lane, s.loadDst c act x.1 f.d (sizeBytes f.m))],
        destCode := f.d, signed := sizeSigned f.m }) := rfl

theorem exec_stn (f : FM) (s : State) : exec (.stn f) s = memInstr s (.stn f) (stnChecks f) (s.laneAddrs f (sizeBytes f.m) false)
    (fun c l => s.remoteBad c l (sizeBytes f.m) 1 (remoteTgt f.x) (xc f.x)) (fun c act => s.memHold c act 1 false false)
    fun c _ l => s.send (some 1) (l.map fun x =>
      { s.accOf c x.1 .stn x.2 (sizeBytes f.m) f.m with
        target := s.targetBid c x.1 (remoteTgt f.x) (xc f.x), data := s.dataBytes c x.1 f.d (sizeBytes f.m) }) := rfl

/-- Settles O19: the checks give each thread its target, to which its access is sent. -/
theorem remoteLoadsAndStores : Obligations.RemoteLoadsAndStores := by
  refine ⟨fun f s act hgo ⟨hbad, hhold⟩ => ?_, fun f s act hgo ⟨hbad, hhold⟩ => ?_⟩
  · exact ⟨_, (exec_ldn f s).trans (memInstr_performs hgo hbad hhold), _, targetOf_targetBid hbad, sent_of_send s _ _ _⟩
  · exact ⟨_, (exec_stn f s).trans (memInstr_performs hgo hbad hhold), _, targetOf_targetBid hbad, sent_of_send s _ _ _⟩

end Sys2Proof.Kernels


/-! # Fences and counter waits (O22: R83, R84, R89, R212, R213) -/
namespace Sys2Proof.Kernels
open Sys2Proof Sys2Proof.Machine Sys2Proof.Laws

/-! ### Cores that invalidate (R83) -/

/-- An access whose reply brings some cores no line any more. -/
def withoutSnaps (cores : List Nat) (a : Access) : Access := if a.core ∈ cores then { a with snap := [] } else a

/-- What does not look at the line that a reply brings is the same without it. -/
theorem withoutSnaps_field {β : Type} (g : Access → β) (hg : ∀ a l, g { a with snap := l } = g a) (cores : List Nat) (a : Access) :
    g (withoutSnaps cores a) = g a := by
  unfold withoutSnaps
  split
  · exact hg a []
  · rfl

theorem withoutSnaps_cons (c : Nat) (cs : List Nat) (a : Access) :
    withoutSnaps cs (withoutSnaps [c] a) = withoutSnaps (c :: cs) a := by
  by_cases h1 : a.core = c <;> by_cases h2 : a.core ∈ cs <;> simp [withoutSnaps, h1, h2]

/-- The words that a core has merged into are the same when replies bring it no line any more. -/
theorem mergedWords_withoutSnaps {s t : State} {cores : List Nat} (hparts : t.parts = s.parts)
    (haccs : t.accs = s.accs.map fun a => (a.1, withoutSnaps cores a.2)) (core p asid hid line : Nat) :
    t.mergedWords core p asid hid line = s.mergedWords core p asid hid line := by
  have htag := tagOf_congr hparts
  have hmerged := withoutSnaps_field Access.merged (fun _ _ => rfl) cores
  have hcore := withoutSnaps_field Access.core (fun _ _ => rfl) cores
  have hpart := withoutSnaps_field Access.part (fun _ _ => rfl) cores
  have hasid := withoutSnaps_field Access.asid (fun _ _ => rfl) cores
  have hva := withoutSnaps_field Access.va (fun _ _ => rfl) cores
  have hsize := withoutSnaps_field Access.size (fun _ _ => rfl) cores
  have hid' := withoutSnaps_field s.tagOf (fun _ _ => rfl) cores
  unfold State.mergedWords State.merges
  simp only [haccs, htag, List.filter_map, List.foldl_map, Function.comp_def, hmerged, hcore, hpart, hasid, hva, hsize, hid']

/-- A state whose lines and replies some cores have invalidated. -/
def invalidated (s : State) (cores : List Nat) : State :=
  { s with
    l1 := if cores = [] then s.l1 else (s.l1.map (L1Line.afterAcquire s cores)).filter fun l => l.valid ≠ 0
    accs := s.accs.map fun a => (a.1, withoutSnaps cores a.2) }

theorem invalidated_nil (s : State) : invalidated s [] = s := by
  simp [invalidated, withoutSnaps]

theorem invalidate_eq (s : State) (core : Nat) : s.invalidate core = invalidated s [core] := by
  simp only [State.invalidate, invalidated, withoutSnaps, List.mem_singleton, List.cons_ne_nil, if_false]
  congr 2
  refine List.map_congr_left fun l _ => ?_
  simp only [L1Line.afterAcquire, List.mem_singleton]
  split
  · next h => subst h; rfl
  · rfl

theorem mergedWords_invalidated (s : State) (cores : List Nat) (core p asid hid line : Nat) :
    (invalidated s cores).mergedWords core p asid hid line = s.mergedWords core p asid hid line :=
  mergedWords_withoutSnaps (s := s) (t := invalidated s cores) rfl rfl core p asid hid line

/-- A line that one core's invalidation leaves, after those of others. -/
theorem afterAcquire_cons (s : State) (c : Nat) (cs : List Nat) (l : L1Line) :
    (l.afterAcquire s [c]).afterAcquire (invalidated s [c]) cs = l.afterAcquire s (c :: cs) := by
  simp only [L1Line.afterAcquire, mergedWords_invalidated, List.mem_cons]
  by_cases h1 : l.core = c <;> by_cases h2 : l.core ∈ cs <;> simp_all [BitVec.and_assoc]

/-- An invalidation makes no byte valid. -/
theorem afterAcquire_valid_zero {s : State} {cores : List Nat} {l : L1Line} (h : l.valid = 0) :
    (l.afterAcquire s cores).valid = 0 := by
  unfold L1Line.afterAcquire
  split <;> simp [h]

theorem invalidated_cons (s : State) (c : Nat) (cs : List Nat) : invalidated (invalidated s [c]) cs = invalidated s (c :: cs) := by
  cases cs with
  | nil => exact invalidated_nil _
  | cons d ds =>
    have hl1 : (((s.l1.map (L1Line.afterAcquire s [c])).filter fun l => l.valid ≠ 0).map
          (L1Line.afterAcquire (invalidated s [c]) (d :: ds))).filter (fun l => l.valid ≠ 0) =
        (s.l1.map (L1Line.afterAcquire s (c :: d :: ds))).filter fun l => l.valid ≠ 0 := by
      have hmap : s.l1.map (L1Line.afterAcquire s (c :: d :: ds)) =
          (s.l1.map (L1Line.afterAcquire s [c])).map (L1Line.afterAcquire (invalidated s [c]) (d :: ds)) := by
        rw [List.map_map]
        exact List.map_congr_left fun l _ => (afterAcquire_cons s c (d :: ds) l).symm
      rw [hmap]
      induction s.l1.map (L1Line.afterAcquire s [c]) with
      | nil => rfl
      | cons l ls ih =>
        by_cases hv : l.valid = 0
        · have := afterAcquire_valid_zero (s := invalidated s [c]) (cores := d :: ds) hv
          simp_all
        · simp_all [List.filter_cons]
    have haccs : (s.accs.map fun a => (a.1, withoutSnaps [c] a.2)).map (fun a => (a.1, withoutSnaps (d :: ds) a.2)) =
        s.accs.map fun a => (a.1, withoutSnaps (c :: d :: ds) a.2) := by
      simp only [List.map_map, Function.comp_def, withoutSnaps_cons]
    simp only [invalidated, List.cons_ne_nil, if_false] at hl1 ⊢
    rw [hl1, haccs]

/-- Cores that invalidate one after the other. -/
theorem foldl_invalidate (cores : List Nat) (s : State) : cores.foldl State.invalidate s = invalidated s cores := by
  induction cores generalizing s with
  | nil => exact (invalidated_nil s).symm
  | cons c cs ih => rw [List.foldl_cons, ih, invalidate_eq, invalidated_cons]

/-- Some cores have invalidated, whatever list names them. -/
theorem acquired_invalidated (s : State) {cores named : List Nat} (h : ∀ c, c ∈ cores ↔ c ∈ named) :
    Acquired s named (invalidated s cores) where
  lines l := by
    have hafter : L1Line.afterAcquire s cores = L1Line.afterAcquire s named := by
      funext l; simp only [L1Line.afterAcquire, h]
    have hnil : cores = [] ↔ named = [] := by
      simp only [List.eq_nil_iff_forall_not_mem, h]
    unfold invalidated
    by_cases hc : cores = []
    · have hn := hnil.mp hc
      subst hc hn
      simp [L1Line.afterAcquire]
    · have hn : named ≠ [] := fun hn => hc (hnil.mpr hn)
      simp only [if_neg hc, hafter, List.mem_filter, List.mem_map, decide_eq_true_eq, ne_eq, hn, not_false_eq_true, true_implies]
      constructor
      · rintro ⟨⟨x, hx, rfl⟩, hv⟩
        exact ⟨x, hx, rfl, hv⟩
      · rintro ⟨x, hx, rfl, hv⟩
        exact ⟨⟨x, hx, rfl⟩, hv⟩
  snaps k := by
    refine (find_map_snd s.accs (fun _ a => withoutSnaps cores a) k).trans ?_
    simp only [withoutSnaps, h]
  rest := rfl

theorem mem_coresOf (s : State) (act : List Th) (c : Nat) : c ∈ s.coresOf act ↔ c ∈ s.homeCores act := by
  simp [State.coresOf, State.homeCores]

/-- The acquire of some threads, then the next word. -/
theorem acquires_advance (s : State) (i : Instr) (act : List Th) :
    AcquiresAndGoesOn s (s.ctx i) act ((s.acquire act).advance (s.ctx i).u (s.ctx i).len) := by
  have hacq : s.acquire act = invalidated s (s.coresOf act) := foldl_invalidate _ s
  exact ⟨s.acquire act, hacq ▸ acquired_invalidated s (mem_coresOf s act), goesOn_advance fun wid => by rw [hacq]; rfl,
    leaves_advance _ _ _ _⟩

/-! ### What holds a fence (R83, R84, R89, R212) -/

theorem acqHold_eq_none (s : State) (c : Ctx) (act : List Th) :
    s.acqHold c act = none ↔ noRelease s c act ∧ noAcquire s c act := by
  have hrel : (act.any fun t => s.relWaits c.trap t) = false ↔ noRelease s c act := by
    simp only [noRelease, List.any_eq_false, State.relWaits]
    refine forall_congr' fun t => forall_congr' fun _ => ?_
    cases c.trap <;> simp
  rw [← hrel, ← behindAcquire_eq_false]
  unfold State.acqHold
  cases act.any fun t => s.relWaits c.trap t <;> cases s.behindAcquire c act <;> simp

/-- A fence that has what it waits for is not held. -/
theorem fenceHold_eq_none {s : State} {c : Ctx} {act : List Th} {kind : Nat} (h : fenceFine s c act kind) :
    s.fenceHold c act kind = none := by
  match kind with
  | 0 => exact (acqHold_eq_none s c act).mpr h
  | 1 => exact (releaseHold_eq_none s c act).mpr h
  | 2 =>
    obtain ⟨hrel, hacq⟩ := h
    simp only [State.fenceHold, (releaseHold_eq_none s c act).mpr hrel, (acqHold_eq_none s c act).mpr hacq]
  | 3 =>
    have hno : act.any s.remotePending = false := by simpa [List.any_eq_false, fenceFine] using h
    simp [State.fenceHold, hno]
  | n + 4 =>
    obtain ⟨hacq, hops, -⟩ := h
    have hno : (s.ops.any fun o => o.2.st ≠ .reading && (widsOf act).contains o.2.wid && o.1 < s.waitMark c.u) = false := by
      simp only [List.any_eq_false, Bool.and_eq_true, decide_eq_true_eq, List.contains_iff_mem, mem_widsOf, not_and]
      exact fun p hp ⟨hst, t, ht, hw⟩ => absurd (hops p hp t ht hw.symm) hst
    rw [State.fenceHold, if_neg (by rw [hno]; simp), acqHold_eq_none]
    · exact hacq
    all_goals omega

/-- A fence for the engines that has what it waits for meets no engine error (R252). -/
theorem observed_eq_none {s : State} {act : List Th} (h : ∀ e ∈ s.errs, ∀ t ∈ act, e.wid ≠ t.wid) (mark : Nat) :
    s.observed act (fun t e => e.wid = t.wid && e.op < mark) = none := by
  simp only [State.observed, Option.map_eq_none_iff, List.find?_eq_none, List.any_eq_true, Bool.and_eq_true, decide_eq_true_eq,
    not_exists, not_and]
  exact fun e he t ht hw => absurd hw (h e he t ht)

/-- A fence's kind is one of R212's five once its word is legal. -/
theorem fence_kind_le {f : V3} (h : illOf false (4 < f.m.toNat) = none) : f.m.toNat ≤ 4 := by
  have := (oneOf_eq_none _).mp h (0, decide (4 < f.m.toNat) && !false) (by simp)
  simpa using this

theorem exec_fence (f : V3) (s : State) : exec (.fence f) s =
    syncInstr s (.fence f) { q := f.q, ill := illOf false (4 < f.m.toNat) } fun c act =>
      match s.fenceHold c act f.m.toNat with
      | some s' => if f.m.toNat = 4 then s'.markUnit c.u else s'
      | none =>
        match (if f.m.toNat = 4 then s.observed act fun t e => e.wid = t.wid && e.op < s.waitMark c.u else none) with
        | some x => s.takeObserved c x
        | none => (if f.m.toNat = 0 || f.m.toNat = 2 || f.m.toNat = 4 then s.acquire act else s).advance c.u c.len := rfl

/-- A fence that has what it waits for goes on, after the invalidation of an acquire. -/
theorem exec_fence_fine {f : V3} {s : State} {act : List Th}
    (hgo : s.gate (s.ctx (.fence f)) { q := f.q, ill := illOf false (4 < f.m.toNat) } = .go act)
    (h : fenceFine s (s.ctx (.fence f)) act f.m.toNat) : exec (.fence f) s = .next
      ((if f.m.toNat = 0 || f.m.toNat = 2 || f.m.toNat = 4 then s.acquire act else s).advance (s.ctx (.fence f)).u (s.ctx (.fence f)).len) := by
  have hobs : (if f.m.toNat = 4 then s.observed act fun t e => e.wid = t.wid && e.op < s.waitMark (s.ctx (.fence f)).u else none) = none := by
    split
    · next h4 =>
      rw [h4] at h
      obtain ⟨-, -, herr⟩ := h
      exact observed_eq_none herr _
    · rfl
  rw [exec_fence, syncInstr_go hgo, fenceHold_eq_none h]
  dsimp only
  rw [hobs]

/-! ### Counter waits (R213) -/

theorem bounds_all_iff (b : Bounds) (p : Nat → Nat → Bool) :
    b.all p = true ↔ ∀ ctr k, b[ctr]? = some (some k) → p ctr k = true := by
  simp only [Bounds.all, List.all_eq_true, Prod.forall, List.mem_zipIdx_iff_getElem?]
  constructor
  · exact fun h ctr k hk => h (some k) ctr hk
  · intro h x ctr hx
    cases x with
    | none => rfl
    | some k => exact h ctr k hx

theorem waitBounds_all_iff (f : WT) (p : Nat → Nat → Bool) : (waitBounds f).all p = true ↔
    (f.l.toNat ≠ 63 → p 0 f.l.toNat = true) ∧ (f.s.toNat ≠ 63 → p 1 f.s.toNat = true) ∧
    (f.c.toNat ≠ 63 → p 2 f.c.toNat = true) ∧ (f.t.toNat ≠ 31 → p 3 f.t.toNat = true) := by
  have hbound : ∀ {n top k : Nat}, some (if n = top then none else some n) = some (some k) ↔ n ≠ top ∧ n = k := by
    intro n top k
    by_cases h : n = top <;> simp [h]
  rw [bounds_all_iff]
  constructor
  · exact fun h => ⟨fun hn => h 0 _ (hbound.mpr ⟨hn, rfl⟩), fun hn => h 1 _ (hbound.mpr ⟨hn, rfl⟩),
      fun hn => h 2 _ (hbound.mpr ⟨hn, rfl⟩), fun hn => h 3 _ (hbound.mpr ⟨hn, rfl⟩)⟩
  · rintro ⟨h0, h1, h2, h3⟩ ctr k hk
    match ctr with
    | 0 => obtain ⟨hn, rfl⟩ := hbound.mp hk; exact h0 hn
    | 1 => obtain ⟨hn, rfl⟩ := hbound.mp hk; exact h1 hn
    | 2 => obtain ⟨hn, rfl⟩ := hbound.mp hk; exact h2 hn
    | 3 => obtain ⟨hn, rfl⟩ := hbound.mp hk; exact h3 hn
    | n + 4 => simp [waitBounds] at hk

theorem waitMet_iff (f : WT) (s : State) (trap : Bool) (act : List Th) :
    s.waitMet trap (widsOf act) (waitBounds f) = true ↔ ∀ th ∈ act, waitHolds f s trap th.wid := by
  have hone : ∀ wid, ((waitBounds f).all fun ctr k => s.counterSeen trap wid ctr ≤ k) = true ↔ waitHolds f s trap wid := fun wid => by
    simp only [waitBounds_all_iff, decide_eq_true_eq, waitHolds]
  simp only [State.waitMet, List.all_eq_true, mem_widsOf, hone]
  exact ⟨fun h th hth => h _ ⟨th, hth, rfl⟩, fun h _ ⟨th, hth, hw⟩ => hw ▸ h th hth⟩

theorem exec_wait (f : WT) (s : State) : exec (.wait f) s = syncInstr s (.wait f) { q := f.q } fun c act =>
    if s.waitMet c.trap (widsOf act) (waitBounds f) then s.advance c.u c.len
    else s.waitUnmet c.u c.trap (widsOf act) (waitBounds f) := rfl

/-! ### A unit that waits (R28, R41) -/

/-- A group that waits and has been looked at in a tick. -/
def waitingGroup (st : GroupSt) (tick : Nat) (_ : State) (_ : Nat × Nat) (g : Group) : Group := { g with st := st, looked := tick + 1 }

theorem keepsPlace_waitingGroup (st : GroupSt) (tick : Nat) (s : State) (p : Nat × Nat) : KeepsPlace (waitingGroup st tick s p) :=
  fun _ => ⟨rfl, rfl, rfl⟩

theorem sinceNow_requeued (w : Warp) (d : Option Nat) : Requeued w { w with depSince := d } :=
  ⟨rfl, id, (List.map_id _).symm, fun _ => rfl⟩

theorem stallLong_requeued (s : State) (u : IssueUnit) : WarpsBy Requeued s (s.stallLong u) :=
  foldl_inv (WarpsBy Requeued) (WarpsBy.refl .refl) (fun _ _ _ => WarpsBy.trans Requeued.trans) _
    (fun s (p : Nat × Nat) => WarpsBy.onWarp .refl s p.1 _ fun w => sinceNow_requeued w _) u.mem s

theorem staysPut_stallLong (s : State) (u : IssueUnit) : StaysPut s (s.stallLong u) :=
  (staysPut_foldl _ (fun s (p : Nat × Nat) => staysPut_onWarp s p.1 _ fun w => (sinceNow_requeued w _).rearranged) u.mem s).trans
    (staysPut_plain rfl (leaves_stall _ _))

/-- Slivers that are not to be looked at again are only noted as such. -/
theorem markLooked_eq (s : State) (wids : List Nat) : ∃ l, s.markLooked wids = { s with tried := l } :=
  foldl_inv (fun s t => ∃ l, t = { s with tried := l }) (fun s => ⟨s.tried, rfl⟩) (fun _ _ _ ⟨_, h⟩ ⟨l, g⟩ => ⟨l, by rw [g, h]⟩) _
    (fun s wid => foldl_inv (fun s t => ∃ l, t = { s with tried := l }) (fun s => ⟨s.tried, rfl⟩)
      (fun _ _ _ ⟨_, h⟩ ⟨l, g⟩ => ⟨l, by rw [g, h]⟩) _
      (fun s (p : Nat × Nat) => ⟨{ wid := p.1, sliver := p.2 } :: s.tried, rfl⟩) _ s) wids s

theorem markLooked_warps (s : State) (wids : List Nat) : (s.markLooked wids).warps = s.warps := by
  obtain ⟨l, h⟩ := markLooked_eq s wids
  rw [h]

theorem staysPut_markLooked (s : State) (wids : List Nat) : StaysPut s (s.markLooked wids) := by
  obtain ⟨l, h⟩ := markLooked_eq s wids
  rw [h]
  exact staysPut_plain rfl (leaves_plain rfl rfl rfl rfl rfl rfl rfl rfl rfl fun _ h _ => h)

/-- A unit that is passed over for others (R41, R42). -/
def passedOver (s : State) (u : IssueUnit) : State := ((s.stallLong u).switchUnit u).markLooked (u.mem.map (·.1))

theorem staysPut_passedOver (s : State) (u : IssueUnit) : StaysPut s (passedOver s u) :=
  ((staysPut_stallLong s u).trans (staysPut_switchUnit _ u)).trans (staysPut_markLooked _ _)

theorem passedOver_requeued (s : State) (u : IssueUnit) : WarpsBy Requeued s (passedOver s u) :=
  WarpsBy.trans Requeued.trans (WarpsBy.trans Requeued.trans (stallLong_requeued s u) (switchParts_requeued _ u.mem))
    (WarpsBy.of_eq .refl (markLooked_warps _ _))

theorem unmet_waiting (s : State) (u : IssueUnit) :
    s.unmet u .waiting = passedOver (onParts (waitingGroup .waiting s.tick) s u.mem) u := rfl

/-- A unit whose wait is not met stays where it is, in groups that wait. -/
theorem unmet_stays (s : State) (i : Instr) : Stays s (s.ctx i) .waiting (s.unmet (s.ctx i).u .waiting) := by
  rw [unmet_waiting]
  have hput := (staysPut_onParts (F := waitingGroup .waiting s.tick) (fun _ _ _ => ⟨rfl, rfl, rfl, rfl⟩) s (s.ctx i).u.mem).trans
    (staysPut_passedOver _ (s.ctx i).u)
  refine ⟨fun th hth => ⟨fun tg h => hput.at h, ?_⟩, hput.leaves⟩
  obtain ⟨k, hk, hf, hruns⟩ := inPart_of_mem s s.focus hth
  obtain ⟨g, hg, hl, -, -, hst⟩ := inSliver_onParts_of_mem (P := fun g => g.st = .waiting)
    (keepsPlace_waitingGroup .waiting s.tick) (fun _ _ _ => rfl) hk hf hruns
  exact ((passedOver_requeued _ (s.ctx i).u).warp (.refl _) th.wid).exists_group
    (fun g g' he h => ((congrArg Group.st he :) : g.st = g'.st).trans h) ⟨g, hg, hl, hst⟩

/-- Settles O22: a fence that has what it waits for goes on, after its acquire; a wait goes on exactly when its bounds hold, and stays
where it is otherwise. -/
theorem fencesAndWaits : Obligations.FencesAndWaits := by
  refine ⟨fun f s act hgo hfine => ⟨_, exec_fence_fine hgo hfine, ?_⟩, fun f s act hgo hmet => ⟨_, ?_, goesOn_advance fun _ => rfl,
    leaves_advance _ s _ _⟩, fun f s act hgo ⟨th, hth, hno⟩ hrec => ⟨_, ?_, unmet_stays s _⟩⟩
  · have hkind := fence_kind_le (gate_ill hgo)
    dsimp only
    by_cases h : f.m.toNat = 1 ∨ f.m.toNat = 3
    · rw [if_pos h, if_neg (by simp; omega)]
      exact ⟨goesOn_advance fun _ => rfl, leaves_advance _ _ _ _⟩
    · rw [if_neg h, if_pos (by simp; omega)]
      exact acquires_advance s _ act
  · rw [exec_wait, syncInstr_go hgo, if_pos ((waitMet_iff f s _ act).mpr hmet)]
  · have hunmet : ¬ s.waitMet (s.ctx (.wait f)).trap (widsOf act) (waitBounds f) = true := fun h => hno ((waitMet_iff f s _ act).mp h th hth)
    have hkeep : ¬ (!(s.ctx (.wait f)).trap && s.waitNeedsRec (widsOf act) (waitBounds f) &&
        decide (s.unitRecords (s.ctx (.wait f)).u ≠ [])) = true := by
      rcases hrec with h | h <;> simp [h]
    rw [exec_wait, syncInstr_go hgo, if_neg hunmet, State.waitUnmet, if_neg hkeep]

end Sys2Proof.Kernels

/-! # Registers that loads write (R91, R203 to R205) -/
namespace Sys2Proof.Kernels
open Sys2Proof Sys2Proof.Machine Sys2Proof.Laws

/-- What a load brings one thread: its words, with the tag they get and the registers they go to. -/
structure Landing where
  th : Th
  dst : List DReg
  tag : BitVec 4
  words : List Word

/-- The register writes of what a load brings. -/
def Landing.writes (x : Landing) : List (Th × DReg × Reg) := (x.dst.zip x.words).map fun r => (x.th, r.1, { val := r.2, tag := x.tag })

/-- A register write done. -/
def written (s : State) (w : Th × DReg × Reg) : State := s.setReg w.1 w.2.1 w.2.2

/-- What loads bring, written in order. -/
def landed (s : State) (l : List Landing) : State := (l.flatMap Landing.writes).foldl written s

/-- What loads bring goes to registers that exist, each of them written once. -/
structure Apart (s : State) (l : List Landing) : Prop where
  warps : ∀ x ∈ l, s.warps.find x.th.wid ≠ none
  small : ∀ x ∈ l, ∀ r ∈ x.dst, DReg.small r
  once : (l.flatMap Landing.writes).Pairwise fun x y => ¬ SameReg x.1 x.2.1 y.1 y.2.1

theorem deliver_eq_landed (s : State) (wid : Nat) (dst : List (Nat × List DReg)) (tag : BitVec 4) (words : List Word) :
    s.deliver wid dst tag words = landed s (dst.map fun d => ⟨{ wid := wid, lane := d.1 }, d.2, tag, words⟩) := by
  unfold State.deliver landed
  rw [List.foldl_flatMap, List.foldl_map]
  simp only [Landing.writes, List.foldl_map]
  rfl

theorem landed_append (s : State) (l l' : List Landing) : landed (landed s l) l' = landed s (l ++ l') := by
  simp only [landed, List.flatMap_append, List.foldl_append]

theorem landed_flatMap {α : Type} (l : List α) (g : α → List Landing) (s : State) :
    l.foldl (fun s x => landed s (g x)) s = landed s (l.flatMap g) := by
  induction l generalizing s with
  | nil => rfl
  | cons x l ih => rw [List.foldl_cons, ih, landed_append, List.flatMap_cons]

theorem quiet_landed (s : State) (l : List Landing) : Quiet Delivered s (landed s l) :=
  foldl_inv (Quiet Delivered) (Quiet.refl Delivered.refl) (fun _ _ _ => Quiet.trans Delivered.trans) written
    (fun s w => quiet_setReg s w.1 w.2.1 w.2.2) _ s

/-- A frame in which registers may be written. -/
structure FreesRegs (F : MayChange) : Prop where
  warp : ∀ (w : Warp) lane r x, F.warp (w.setReg lane r x).still = F.warp w.still
  upset : ∀ u, Upset.inRegister u → F.upset u

theorem leaves_setReg {F : MayChange} (hF : FreesRegs F) (s : State) (t : Th) (r : DReg) (x : Reg) : Leaves s (s.setReg t r x) F := by
  have hput : Leaves s (s.onWarp t.wid fun w => w.setReg t.lane r x) F := leaves_onWarp _ _ _ _ fun w => hF.warp w _ _ _
  cases r with
  | v n =>
    refine Laws.Leaves.trans hput (leaves_plain rfl rfl rfl rfl rfl rfl rfl rfl rfl fun u hu hn => List.mem_filter.mpr ⟨hu, ?_⟩)
    exact decide_eq_true fun he => hn (hF.upset u (by rw [he]; trivial))
  | discard => exact hput
  | w n => exact hput
  | k n => exact hput

theorem leaves_landed {F : MayChange} (hF : FreesRegs F) (s : State) (l : List Landing) : Leaves s (landed s l) F :=
  leaves_foldl _ written (fun s w => leaves_setReg hF s w.1 w.2.1 w.2.2) _ s

theorem freesRegs_noRegs (newPlace : Nat → Prop) (newId : Nat → Prop) (rest : State → State) :
    FreesRegs { warp := Warp.noRegs, newPlace := newPlace, newId := newId, rest := rest, upset := Upset.inRegister } :=
  ⟨fun w lane r x => by cases r <;> rfl, fun _ h => h⟩

theorem sameReg_symm {t u : Th} {r q : DReg} (h : SameReg t r u q) : SameReg u q t r := by
  cases r <;> cases q <;> simp_all [SameReg]

/-- Writes to other registers leave a register as it was. -/
theorem getReg_writes_ne {ws : List (Th × DReg × Reg)} {s : State} {u : Th} {q : DReg} (hw : ∀ w ∈ ws, s.warps.find w.1.wid ≠ none)
    (hsmall : ∀ w ∈ ws, DReg.small w.2.1) (hq : DReg.small q) (hn : ∀ w ∈ ws, ¬ SameReg w.1 w.2.1 u q) :
    (ws.foldl written s).getReg u q = s.getReg u q := by
  induction ws generalizing s with
  | nil => rfl
  | cons w ws ih =>
    simp only [List.forall_mem_cons] at hw hsmall hn
    exact (ih (fun w' h => setReg_ne_none s _ _ _ _ (hw.2 w' h)) hsmall.2 hn.2).trans
      ((getReg_setReg s w.1 u w.2.1 q w.2.2 hw.1 hsmall.1 hq).2 hn.1)

/-- Of writes that each go to another register, every one lasts. -/
theorem getReg_writes {ws : List (Th × DReg × Reg)} {s : State} (hw : ∀ w ∈ ws, s.warps.find w.1.wid ≠ none)
    (hsmall : ∀ w ∈ ws, DReg.small w.2.1) (honce : ws.Pairwise fun x y => ¬ SameReg x.1 x.2.1 y.1 y.2.1) {w : Th × DReg × Reg}
    (hmem : w ∈ ws) (hd : w.2.1 ≠ .discard) : (ws.foldl written s).getReg w.1 w.2.1 = w.2.2 := by
  induction ws generalizing s with
  | nil => exact absurd hmem List.not_mem_nil
  | cons x ws ih =>
    simp only [List.forall_mem_cons, List.pairwise_cons] at hw hsmall honce
    have hw' : ∀ w' ∈ ws, (written s x).warps.find w'.1.wid ≠ none := fun w' h => setReg_ne_none s _ _ _ _ (hw.2 w' h)
    rcases List.mem_cons.mp hmem with rfl | h
    · have hn : ∀ y ∈ ws, ¬ SameReg y.1 y.2.1 w.1 w.2.1 := fun y hy hs => honce.1 y hy (sameReg_symm hs)
      exact (getReg_writes_ne hw' hsmall.2 hsmall.1 hn).trans
        ((getReg_setReg s w.1 w.1 w.2.1 w.2.1 w.2.2 hw.1 hsmall.1 hsmall.1).1 (sameReg_self hd))
    · exact ih hw' hsmall.2 honce.2 h

section
variable {s : State} {l : List Landing} (h : Apart s l)
include h

theorem Apart.warps_writes : ∀ w ∈ l.flatMap Landing.writes, s.warps.find w.1.wid ≠ none := by
  simp only [List.mem_flatMap, Landing.writes, List.mem_map]
  rintro _ ⟨x, hx, r, -, rfl⟩
  exact h.warps x hx

theorem Apart.small_writes : ∀ w ∈ l.flatMap Landing.writes, DReg.small w.2.1 := by
  simp only [List.mem_flatMap, Landing.writes, List.mem_map]
  rintro _ ⟨x, hx, r, hr, rfl⟩
  exact h.small x hx _ (List.of_mem_zip hr).1

/-- Every load's registers hold its words. -/
theorem Apart.holds {x : Landing} (hx : x ∈ l) : HoldsWords (landed s l) x.th x.dst x.words x.tag := by
  intro j r w hr hw hd
  have hz : (r, w) ∈ x.dst.zip x.words := List.mem_of_getElem? (List.getElem?_zip_eq_some.mpr ⟨hr, hw⟩)
  exact getReg_writes h.warps_writes h.small_writes h.once (w := (x.th, r, { val := w, tag := x.tag }))
    (List.mem_flatMap.mpr ⟨x, hx, List.mem_map_of_mem hz⟩) hd

/-- Every other register is as it was. -/
theorem Apart.others : OtherRegsKept s (landed s l) (l.map fun x => (x.th, x.dst)) := by
  intro u q hq hn
  refine getReg_writes_ne h.warps_writes h.small_writes hq ?_
  simp only [List.mem_flatMap, Landing.writes, List.mem_map]
  rintro _ ⟨x, hx, r, hr, rfl⟩
  exact hn (x.th, x.dst) (List.mem_map_of_mem hx) _ (List.of_mem_zip hr).1

end

/-! ### The registers of a load's destination (R146, R148, R203) -/

theorem getElem_loadDst {s : State} {c : Ctx} {act : List Th} {t : Th} {d : BitVec 6} {n k : Nat} {r : DReg}
    (h : (s.loadDst c act t d n)[k]? = some r) : r = (s.dreg c t d).plus k := by
  unfold State.loadDst at h
  split at h
  · simp at h
  · obtain ⟨i, hi, rfl⟩ := Option.map_eq_some_iff.mp (List.getElem?_map .. ▸ h)
    rw [List.getElem?_eq_some_iff] at hi
    obtain ⟨hlen, rfl⟩ := hi
    rw [List.getElem_range]

theorem mem_loadDst {s : State} {c : Ctx} {act : List Th} {t : Th} {d : BitVec 6} {n : Nat} {r : DReg} (h : r ∈ s.loadDst c act t d n) :
    ¬ (d = 52 ∨ (sharedDst d = true ∧ leads act t = false)) ∧ ∃ j < sizeRegs n, r = (s.dreg c t d).plus j := by
  unfold State.loadDst at h
  split at h
  · exact absurd h List.not_mem_nil
  · next hc =>
    obtain ⟨j, hj, rfl⟩ := List.mem_map.mp h
    exact ⟨by simpa using hc, j, List.mem_range.mp hj, rfl⟩

/-- The registers of a destination exist: two at most, or four of the first 48. -/
theorem loadDst_small {s : State} {c : Ctx} {act : List Th} {t : Th} {d : BitVec 6} {n : Nat} (hn : n ≤ 8 ∨ n = 16 ∧ quadBad d = false) :
    ∀ r ∈ s.loadDst c act t d n, DReg.small r := by
  intro r hr
  obtain ⟨hd, j, hj, rfl⟩ := mem_loadDst hr
  rcases hn with hn | ⟨rfl, hq⟩
  · refine dreg_small s c t d (Nat.lt_of_lt_of_le hj ?_)
    unfold sizeRegs
    split <;> omega
  · have hj : j < 4 := hj
    have h44 : d.toNat ≤ 44 := by
      simp only [quadBad, Bool.not_eq_false', Bool.or_eq_true, decide_eq_true_eq, Bool.and_eq_true] at hq
      exact (hq.resolve_left fun h => hd (.inl h)).1
    rw [State.dreg, if_pos (by omega), plus_v]
    exact (by omega : d.toNat + j < 512)

/-- Registers of two threads' destinations are never one: a shared destination is the leading thread's alone. -/
theorem loadDst_apart {s : State} {c : Ctx} {act : List Th} {t u : Th} {d : BitVec 6} {n : Nat} {r q : DReg}
    (hr : r ∈ s.loadDst c act t d n) (hq : q ∈ s.loadDst c act u d n) (h : SameReg t r u q) : t = u := by
  obtain ⟨ht, j, -, rfl⟩ := mem_loadDst hr
  obtain ⟨hu, -, -, -⟩ := mem_loadDst hq
  cases hshared : sharedDst d with
  | true =>
    simp only [hshared, true_and, not_or, Bool.not_eq_false] at ht hu
    exact leads_unique ht.2 hu.2 h.1
  | false =>
    rcases dreg_private s c t d hshared with ⟨m, hm⟩ | hm
    · rw [hm] at h
      obtain ⟨hwid, hlane⟩ := sameReg_v h
      cases t; cases u
      exact congrArg₂ Th.mk hwid hlane
    · rw [hm, plus_discard] at h
      exact absurd h (not_sameReg_discard _ _ _)

/-- What loads bring different threads goes to registers that exist, each of them written once. -/
theorem apart_of_loadDst {s : State} {c : Ctx} {act : List Th} {d : BitVec 6} {n : Nat} {l : List Landing}
    (hn : n ≤ 8 ∨ n = 16 ∧ quadBad d = false) (hact : ∀ th ∈ act, s.warps.find th.wid ≠ none)
    (hl : ∀ x ∈ l, x.th ∈ act ∧ x.dst = s.loadDst c act x.th d n) (hth : (l.map Landing.th).Nodup) : Apart s l where
  warps x hx := hact _ (hl x hx).1
  small x hx := (hl x hx).2 ▸ loadDst_small hn
  once := by
    rw [List.pairwise_flatMap]
    constructor
    · intro x hx
      rw [Landing.writes, List.pairwise_map, List.pairwise_iff_getElem]
      intro i j hi hj hij hsame
      have hget : ∀ k (hk : k < (x.dst.zip x.words).length), (x.dst.zip x.words)[k].1 = (s.dreg c x.th d).plus k := fun k hk => by
        have hk' : k < x.dst.length := by rw [List.length_zip] at hk; omega
        rw [List.getElem_zip]
        exact getElem_loadDst ((congrArg (·[k]?) (hl x hx).2).symm.trans (List.getElem?_eq_getElem hk'))
      rw [hget i hi, hget j hj] at hsame
      exact absurd (plus_inj_sameReg hsame) (by omega)
    · rw [List.Nodup, List.pairwise_map] at hth
      refine hth.imp_of_mem fun {x y} hx hy hne => ?_
      simp only [Landing.writes, List.mem_map]
      rintro _ ⟨r, hr, rfl⟩ _ ⟨q, hq, rfl⟩ hsame
      exact hne (loadDst_apart ((hl x hx).2 ▸ (List.of_mem_zip hr).1) ((hl y hy).2 ▸ (List.of_mem_zip hq).1) hsame)

end Sys2Proof.Kernels

/-! # Scratchpad loads and stores (O18: R91, R198, R203, R206) -/
namespace Sys2Proof.Kernels
open Sys2Proof Sys2Proof.Machine Sys2Proof.Laws

theorem sizeBytes_cases (m : BitVec 4) : sizeBytes m = 1 ∨ sizeBytes m = 2 ∨ sizeBytes m = 4 ∨ sizeBytes m = 8 ∨ sizeBytes m = 16 := by
  unfold sizeBytes
  split <;> simp

theorem gate_opd {s : State} {c : Ctx} {k : Checks} {act : List Th} (h : s.gate c k = .go act) : k.opd = none := by
  obtain ⟨hs, -⟩ := gate_go h
  unfold Checks.static at hs
  split at hs
  case h_4 hopd _ => exact hopd
  all_goals cases hs

/-- The destination of a load that passes its checks: two registers at most, or a quad (R146). -/
theorem quad_of_memOpd {x : Word} {d base : BitVec 6} {n : Nat} {global five : Bool} (hn : n ≤ 8 ∨ n = 16)
    (h : memOpd x d base n true global five = none) : n ≤ 8 ∨ n = 16 ∧ quadBad d = false := by
  refine hn.imp_right fun h16 => ⟨h16, ?_⟩
  have := (oneOf_eq_none _).mp h (0, _) List.mem_cons_self
  simp only [h16, Bool.or_eq_false_iff, decide_true, Bool.true_and] at this
  exact this.1.2

theorem quad_of_sizeBytes {m : BitVec 4} {x : Word} {d base : BitVec 6} {global five : Bool}
    (h : memOpd x d base (sizeBytes m) true global five = none) : sizeBytes m ≤ 8 ∨ sizeBytes m = 16 ∧ quadBad d = false :=
  quad_of_memOpd (by have := sizeBytes_cases m; omega) h

theorem getReg_advance (s : State) (u : IssueUnit) (len : Nat) (th : Th) (r : DReg) : (s.advance u len).getReg th r = s.getReg th r :=
  still_getReg (moveUnit_warps s u _) th r

theorem block_advance (s : State) (u : IssueUnit) (len bid : Nat) : (s.advance u len).block bid = s.block bid :=
  congrArg (fun t : Tbl Block => t.getD bid noBlock) (congrArg State.blocks (moveUnit_frozen s u fun _ => fallThrough u len) :)

/-! ### Loads -/

/-- What a scratchpad load brings one thread. -/
def scratchLanding (s : State) (c : Ctx) (act : List Th) (f : FM) (x : Th × DWord) : Landing where
  th := x.1
  dst := s.loadDst c act x.1 f.d (sizeBytes f.m)
  tag := 0
  words := loadWords (sizeBytes f.m) (sizeSigned f.m) (s.rdScratch (s.warp x.1.wid).bid x.2.toNat (sizeBytes f.m))

theorem exec_lds (f : FM) (s : State) : exec (.lds f) s = memInstr s (.lds f)
    (chkLoad f (sizeBytes f.m) (illLoad f.m false) false) (s.laneAddrs f (sizeBytes f.m) false)
    (fun _ l => s.scratchBad l (sizeBytes f.m) 0) (fun c act => s.memHold c act 0 false false)
    fun c act l => landed s (l.map (scratchLanding s c act f)) := by
  have hfold : ∀ (c : Ctx) (act : List Th) (l : List (Th × DWord)), l.foldl (fun s' x =>
      s'.deliver x.1.wid [(x.1.lane, s.loadDst c act x.1 f.d (sizeBytes f.m))] 0 (loadWords (sizeBytes f.m) (sizeSigned f.m)
        (s.rdScratch (s.warp x.1.wid).bid x.2.toNat (sizeBytes f.m)))) s = landed s (l.map (scratchLanding s c act f)) := by
    intro c act l
    simp only [deliver_eq_landed, landed_flatMap, List.map_eq_flatMap]
    rfl
  simp only [← hfold]
  rfl

/-- The threads of an instruction, each with its address. -/
theorem laneAddrs_threads (s : State) (f : FM) (n : Nat) (global : Bool) (c : Ctx) (act : List Th) :
    (s.laneAddrs f n global c act).map Prod.fst = act := by
  simp [State.laneAddrs, Function.comp_def]

theorem warps_of_gate {s : State} {i : Instr} {k : Checks} {act : List Th} (h : s.gate (s.ctx i) k = .go act) :
    ∀ th ∈ act, s.warps.find th.wid ≠ none :=
  fun th hth => find_of_unit ((active_of_gate h).2 th hth)

theorem groups_landed (s : State) (l : List Landing) (wid : Nat) :
    ((landed s l).warps.find wid).map Warp.groups = (s.warps.find wid).map Warp.groups := by
  rcases (quiet_landed s l).2 wid with ⟨hs, ht⟩ | ⟨w, v, hs, ht, -, -, hgroups⟩
  · rw [hs, ht]
  · rw [hs, ht, Option.map_some, Option.map_some, hgroups]

/-! ### Stores -/

/-- Bytes stored in scratchpads, in order. -/
def stored (s : State) (l : List (Nat × Nat × List Byte)) : State := l.foldl (fun s x => s.wrScratch x.1 x.2.1 x.2.2) s

theorem blocks_wrScratch {s : State} {bid : Nat} (h : s.blocks.find bid ≠ none) (b a : Nat) (bs : List Byte) :
    (s.wrScratch b a bs).blocks.find bid ≠ none := by
  show (s.onBlock b _).blocks.find bid ≠ none
  rw [onBlock_find]
  split
  · next hb => subst hb; simpa using h
  · exact h

theorem blocks_stored {s : State} {bid : Nat} (h : s.blocks.find bid ≠ none) (l : List (Nat × Nat × List Byte)) :
    (stored s l).blocks.find bid ≠ none := by
  induction l generalizing s with
  | nil => exact h
  | cons x l ih => exact ih (blocks_wrScratch h _ _ _)

theorem rd_wrN (m : Memory) (a : Nat) (bs : List Byte) (b : Nat) :
    Memory.rd (Memory.wrN m a bs) b = (if a ≤ b then bs[b - a]? else none).getD (Memory.rd m b) := by
  by_cases h : a ≤ b ∧ b < a + bs.length
  · obtain ⟨i, rfl⟩ := Nat.exists_eq_add_of_le h.1
    have hi : i < bs.length := by omega
    simp [rd_wrN_in m a bs hi, hi]
  · rw [rd_wrN_out m a bs (by omega)]
    split
    · rw [List.getElem?_eq_none (by omega)]
      rfl
    · rfl

theorem lastWrite_concat (l : List (Nat × Nat × List Byte)) (x : Nat × Nat × List Byte) (bid a : Nat) :
    lastWrite (l ++ [x]) bid a = (if x.1 = bid ∧ x.2.1 ≤ a then x.2.2[a - x.2.1]? else none).or (lastWrite l bid a) := by
  simp only [lastWrite, List.reverse_append, List.reverse_singleton, List.singleton_append, List.findSome?_cons]
  split <;> simp_all

theorem scratchIs_stored {s : State} {l : List (Nat × Nat × List Byte)} (h : ∀ x ∈ l, s.blocks.find x.1 ≠ none) :
    ScratchIs s (stored s l) l := by
  intro bid a
  induction l using List.reverseRecOn with
  | nil => rfl
  | append_singleton l x ih =>
    have hx := blocks_stored (h x (by simp)) l
    have ih := ih fun y hy => h y (by simp [hy])
    rw [stored, List.foldl_append, List.foldl_cons, List.foldl_nil, ← stored, block_wrScratch hx, lastWrite_concat]
    by_cases hb : bid = x.1
    · subst hb
      rw [if_pos rfl, rd_wrN, ih]
      simp only [true_and]
      cases (if x.2.1 ≤ a then x.2.2[a - x.2.1]? else none) <;> rfl
    · rw [if_neg hb, ih, if_neg fun h => hb h.1.symm, Option.none_or]

theorem warps_stored (s : State) (l : List (Nat × Nat × List Byte)) : (stored s l).warps = s.warps := by
  induction l generalizing s with
  | nil => rfl
  | cons x l ih => exact (ih _).trans (onBlock_warps s x.1 _)

theorem leaves_stored (s : State) (l : List (Nat × Nat × List Byte)) :
    Leaves s (stored s l) { block := Block.noScratch, upset := Upset.inScratch } := by
  refine leaves_foldl _ _ (fun s x => ?_) l s
  have hput : Leaves s (s.onBlock x.1 fun b => { b with scratch := Memory.wrN b.scratch x.2.1 x.2.2 })
      { block := Block.noScratch, upset := Upset.inScratch } := leaves_onBlock _ _ _ _ fun _ => rfl
  refine Laws.Leaves.trans hput (leaves_plain rfl rfl rfl rfl rfl rfl rfl rfl rfl fun u hu hn => List.mem_filter.mpr ⟨by simpa using hu, ?_⟩)
  cases u with
  | scratch b a => exact absurd trivial hn
  | _ => rfl

/-- A scratchpad in which an access is fine exists (R91). -/
theorem block_of_scratchFine {s : State} {bid a n kind : Nat} (hn : 0 < n) (h : scratchFine s bid a n kind) : s.blocks.find bid ≠ none := by
  obtain ⟨-, hsize, -, -⟩ := h
  intro hb
  have : (s.block bid).zsize = 0 := by simp [State.block, Tbl.getD, hb, noBlock]
  omega

theorem exec_sts (f : FM) (s : State) : exec (.sts f) s = memInstr s (.sts f)
    (chkStore f (sizeBytes f.m) (illStore f.m false) false) (s.laneAddrs f (sizeBytes f.m) false)
    (fun _ l => s.scratchBad l (sizeBytes f.m) 1) (fun c act => s.memHold c act 1 false false)
    fun c _ l => stored s (l.map fun x => ((s.warp x.1.wid).bid, x.2.toNat, s.dataBytes c x.1 f.d (sizeBytes f.m))) := by
  simp only [stored, List.foldl_map]
  rfl

/-- A scratchpad load (R91, R203). -/
theorem lds_performs (f : FM) : let n := sizeBytes f.m
    Performs (.lds f) (chkLoad f n (illLoad f.m false) false)
      (fun s c act => s.scratchBad (s.laneAddrs f n false c act) n 0 = none ∧ s.memHold c act 0 false false = none)
      fun s c act t =>
        (∀ x ∈ s.laneAddrs f n false c act, HoldsWords t x.1 (s.loadDst c act x.1 f.d n)
          (loadWords n (sizeSigned f.m) (s.rdScratch (s.warp x.1.wid).bid x.2.toNat n)) 0) ∧
        OtherRegsKept s t (act.map fun th => (th, s.loadDst c act th f.d n)) ∧
        GoesOn t c ∧ Leaves s t { warp := Warp.noRegs, upset := Upset.inRegister } := by
  intro n s act hgo ⟨hbad, hhold⟩
  refine ⟨_, (exec_lds f s).trans (memInstr_performs hgo hbad hhold), ?_⟩
  have hthreads := laneAddrs_threads s f n false (s.ctx (.lds f)) act
  have hapart : Apart s ((s.laneAddrs f n false (s.ctx (.lds f)) act).map (scratchLanding s (s.ctx (.lds f)) act f)) := by
    refine apart_of_loadDst (c := s.ctx (.lds f)) (quad_of_sizeBytes (gate_opd hgo)) (warps_of_gate hgo) ?_ ?_
    · simp only [List.forall_mem_map]
      exact fun x hx => ⟨hthreads ▸ List.mem_map_of_mem hx, rfl⟩
    · rw [List.map_map]
      exact hthreads.symm ▸ (active_of_gate hgo).1
  refine ⟨fun x hx j r w hr hw hd => ?_, fun th r hr hn => ?_, goesOn_advance (groups_landed s _),
    Laws.Leaves.trans (leaves_landed (freesRegs_noRegs _ _ _) s _) (leaves_advance _ _ _ _)⟩
  · rw [getReg_advance]
    exact hapart.holds (List.mem_map_of_mem hx) j r w hr hw hd
  · rw [getReg_advance]
    refine hapart.others th r hr ?_
    simp only [List.map_map, List.forall_mem_map] at hn ⊢
    exact fun x hx => hn x.1 (hthreads ▸ List.mem_map_of_mem hx)

/-- A scratchpad store (R91, R198, R206). -/
theorem sts_performs (f : FM) : let n := sizeBytes f.m
    Performs (.sts f) (chkStore f n (illStore f.m false) false)
      (fun s c act => s.scratchBad (s.laneAddrs f n false c act) n 1 = none ∧ s.memHold c act 1 false false = none)
      fun s c act t =>
        ScratchIs s t ((s.laneAddrs f n false c act).map fun x =>
          ((s.warp x.1.wid).bid, x.2.toNat, s.dataBytes c x.1 f.d n)) ∧
        GoesOn t c ∧ Leaves s t { block := Block.noScratch, upset := Upset.inScratch } := by
  intro n s act hgo ⟨hbad, hhold⟩
  refine ⟨_, (exec_sts f s).trans (memInstr_performs hgo hbad hhold), ?_, goesOn_advance fun wid => by rw [warps_stored],
    Laws.Leaves.trans (leaves_stored s _) (leaves_advance _ _ _ _)⟩
  have hn : 0 < n := by have := sizeBytes_cases f.m; omega
  have hfine := (scratchBad_eq_none s _ n 1).mp hbad
  have hstored := scratchIs_stored (s := s) (l := (s.laneAddrs f n false (s.ctx (.sts f)) act).map fun x =>
    ((s.warp x.1.wid).bid, x.2.toNat, s.dataBytes (s.ctx (.sts f)) x.1 f.d n)) (by
      simp only [List.forall_mem_map]
      exact fun x hx => block_of_scratchFine hn (hfine x hx))
  intro bid a
  rw [← hstored bid a, block_advance]

/-- Settles O18: a scratchpad load's words land in each thread's own registers; a store's bytes are the last ones written there. -/
theorem scratchLoadsAndStores : Obligations.ScratchLoadsAndStores := ⟨lds_performs, sts_performs⟩

end Sys2Proof.Kernels

/-! # Global loads (O16: R80, R199, R203 to R205) -/
namespace Sys2Proof.Kernels
open Sys2Proof Sys2Proof.Machine Sys2Proof.Laws

/-- A thread that an access's destination names. -/
def dstThread (a : Access) (d : Nat × List DReg) : Th := { wid := a.wid, lane := d.1 }

/-- What a load that the core's L1 holds brings its threads at issue. -/
def atOnce (s : State) (a : Access) : List Landing :=
  match s.loadLook a with
  | some bs => a.dst.map fun d => ⟨dstThread a d, d.2, a.tag, loadWords a.size a.signed bs⟩
  | none => []

/-- Loads that the core's L1 does not hold whole. -/
def missing (s : State) (l : List Access) : List Access := l.filter fun a => (s.loadLook a).isNone

theorem mem_atOnce {s : State} {a : Access} {x : Landing} : x ∈ atOnce s a ↔ ∃ bs, s.loadLook a = some bs ∧ ∃ d ∈ a.dst,
    x = ⟨dstThread a d, d.2, a.tag, loadWords a.size a.signed bs⟩ := by
  unfold atOnce
  cases s.loadLook a with
  | none => simp
  | some bs => simp [eq_comm]

theorem atOnce_threads (s : State) (a : Access) : ((atOnce s a).map Landing.th).Sublist (a.dst.map (dstThread a)) := by
  unfold atOnce
  cases s.loadLook a with
  | none => exact List.nil_sublist _
  | some bs => rw [List.map_map]; exact .refl _

theorem atOnce_threads_flatMap (s : State) (l : List Access) :
    ((l.flatMap (atOnce s)).map Landing.th).Sublist (l.flatMap fun a => a.dst.map (dstThread a)) := by
  induction l with
  | nil => exact .refl _
  | cons a l ih =>
    rw [List.flatMap_cons, List.flatMap_cons, List.map_append]
    exact (atOnce_threads s a).append ih

/-- A load looked at for upset words of the L1 (R435). -/
def lookedAt (s : State) (r : State × List Access) (a : Access) : State × List Access :=
  let x := if !a.acq && s.l1Upset a.core a.part a.asid a.va.toNat a.size
    then r.1.l1Recover a.core a.part a.asid a.va.toNat a.size else (r.1, false)
  (x.1, r.2 ++ [if x.2 then { a with st := .faulted, cause := cz 0x16 0 } else a])

theorem lookedAt_fine {s : State} {a : Access} (h : a.acq = true ∨ s.l1Upset a.core a.part a.asid a.va.toNat a.size = false)
    (r : State × List Access) : lookedAt s r a = (r.1, r.2 ++ [a]) := by
  have hno : (!a.acq && s.l1Upset a.core a.part a.asid a.va.toNat a.size) = false := by rcases h with h | h <;> simp [h]
  simp [lookedAt, hno]

theorem foldl_lookedAt {s : State} {l : List Access} (h : noL1Upset s l) (r : State × List Access) :
    l.foldl (lookedAt s) r = (r.1, r.2 ++ l) := by
  induction l generalizing r with
  | nil => simp
  | cons a l ih =>
    rw [List.foldl_cons, lookedAt_fine (h a List.mem_cons_self), ih fun b hb => h b (List.mem_cons_of_mem _ hb)]
    simp

/-- What a load brings at issue, after it has been looked up. -/
def deliverHit (s : State) (x : Access × Option (List Byte)) : State :=
  match x.2 with
  | some bs => s.deliver x.1.wid x.1.dst x.1.tag (loadWords x.1.size x.1.signed bs)
  | none => s

theorem deliverHit_eq (s t : State) (a : Access) : deliverHit t (a, s.loadLook a) = landed t (atOnce s a) := by
  unfold deliverHit atOnce
  dsimp only
  cases s.loadLook a with
  | none => rfl
  | some bs => exact deliver_eq_landed t _ _ _ _

theorem issueLoads_def (s : State) (l : List Access) : s.issueLoads l =
    let r := l.foldl (lookedAt s) (s, [])
    let looked := r.2.map fun a => (a, if a.st = .faulted then none else r.1.loadLook a)
    let misses := (looked.filter fun x => x.2.isNone).map (·.1)
    let s := looked.foldl deliverHit r.1
    if misses = [] then s else s.send (some 0) misses := rfl

/-- Loads none of which meets an upset word of the L1: those that hit land, the others are sent. -/
theorem issueLoads_eq {s : State} {l : List Access} (hst : ∀ a ∈ l, a.st ≠ .faulted) (hup : noL1Upset s l) :
    s.issueLoads l = (landed s (l.flatMap (atOnce s))).send (some 0) (missing s l) := by
  have hlook : (l.map fun a => (a, if a.st = .faulted then none else s.loadLook a)) = l.map fun a => (a, s.loadLook a) :=
    List.map_congr_left fun a ha => by rw [if_neg (hst a ha)]
  have hmisses : ((l.map fun a => (a, s.loadLook a)).filter fun x => x.2.isNone).map Prod.fst = missing s l := by
    simp [missing, List.filter_map, Function.comp_def]
  rw [issueLoads_def, foldl_lookedAt hup]
  simp only [List.nil_append, hlook, hmisses, List.foldl_map, deliverHit_eq, landed_flatMap]
  split
  · next h => rw [h]; rfl
  · rfl

theorem mem_missing {s : State} {l : List Access} {a : Access} : a ∈ missing s l ↔ a ∈ l ∧ s.loadLook a = none := by
  simp [missing]

/-- A register that a load on its way will write is busy (R21). -/
theorem busy_of_find {t : State} {k : Nat} {a : Access} (h : t.accs.find k = some a) {d : Nat × List DReg} (hd : d ∈ a.dst) {r : DReg}
    (hr : r ∈ d.2) : t.busy (dstThread a d) r = true := by
  simp only [State.busy, State.awaits, List.any_eq_true]
  refine ⟨(k, a), mem_of_find h, ?_⟩
  simp only [dstThread, decide_true, Bool.true_and, List.any_eq_true]
  refine ⟨d, hd, ?_⟩
  cases r <;> simpa using hr

theorem getReg_send (s : State) (ctr : Option Nat) (l : List Access) (th : Th) (r : DReg) : (s.send ctr l).getReg th r = s.getReg th r := by
  obtain ⟨⟨o, ho⟩, -⟩ := send_eq s ctr l
  rw [ho]
  rfl

theorem leaves_send {s : State} {F : MayChange} (hnew : ∀ k, s.nextId ≤ k → F.newId k)
    (hrest : ∀ (x : State) o n, F.rest { x with outst := o, nextId := n } = F.rest x) (ctr : Option Nat) (l : List Access) :
    Leaves s (s.send ctr l) F := by
  obtain ⟨⟨o, ho⟩, -⟩ := send_eq s ctr l
  rw [ho]
  refine ⟨sameTbl_refl _ _, sameTbl_refl _ _, sameTbl_refl _ _, sameTbl_refl _ _, sameTbl_refl _ _, sameTbl_refl _ _,
    fun _ => rfl, fun k hk => ?_, fun _ h _ => h, hrest s.bare o _⟩
  have hlt : k < s.nextId := Nat.lt_of_not_le fun hle => hk (hnew k hle)
  rw [find_putAll, if_neg (by omega)]

/-- Accesses that are sent are on their way. -/
theorem find_send {s : State} {ctr : Option Nat} {l : List Access} {a : Access} (ha : a ∈ l) :
    ∃ id iid, s.nextId ≤ id ∧ (s.send ctr l).accs.find id = some { a with iid := iid, batch := s.nextId } := by
  obtain ⟨⟨o, ho⟩, -⟩ := send_eq s ctr l
  obtain ⟨j, hj, rfl⟩ := List.mem_iff_getElem.mp ha
  refine ⟨s.nextId + (l.map (·.wid)).eraseDups.length + j, s.nextId + (l.map (·.wid)).eraseDups.idxOf l[j].wid, by omega, ?_⟩
  rw [ho, find_putAll, if_pos (by simpa using hj)]
  simp [hj]

theorem landed_plain (s : State) (l : List Landing) : (landed s l).nextId = s.nextId ∧ (landed s l).outst = s.outst := by
  have hrest := (leaves_landed (freesRegs_noRegs (fun _ => False) (fun _ => False) id) s l).rest
  exact ⟨(congrArg State.nextId hrest :), (congrArg State.outst hrest :)⟩

theorem counter_congr {s t : State} (h : t.outst = s.outst) (wid k : Nat) : t.counter wid k = s.counter wid k := by
  unfold State.counter
  rw [h]

theorem outst_advance (s : State) (u : IssueUnit) (len : Nat) : (s.advance u len).outst = s.outst :=
  (congrArg State.outst (moveUnit_frozen s u fun _ => fallThrough u len) :)

theorem accs_advance (s : State) (u : IssueUnit) (len : Nat) : (s.advance u len).accs = s.accs :=
  (congrArg State.accs (moveUnit_frozen s u fun _ => fallThrough u len) :)

/-- Loads issued, when what lands at once goes to registers written once each. -/
theorem loadsIssued_of_apart {s : State} {l : List Access} (i : Instr) (hapart : Apart s (l.flatMap (atOnce s))) :
    LoadsIssued s (s.ctx i) l
      (((landed s (l.flatMap (atOnce s))).send (some 0) (missing s l)).advance (s.ctx i).u (s.ctx i).len) where
  hits a ha bs hbs d hd j r w hr hw hdis := by
    rw [getReg_advance, getReg_send]
    exact hapart.holds (List.mem_flatMap.mpr ⟨a, ha, mem_atOnce.mpr ⟨bs, hbs, d, hd, rfl⟩⟩) j r w hr hw hdis
  misses a ha hnone := by
    obtain ⟨id, iid, hid, hfind⟩ := find_send (s := landed s (l.flatMap (atOnce s))) (ctr := some 0) (mem_missing.mpr ⟨ha, hnone⟩)
    rw [(landed_plain s _).1] at hid hfind
    rw [← accs_advance _ (s.ctx i).u (s.ctx i).len] at hfind
    exact ⟨id, iid, hid, hfind, fun d hd r hr => busy_of_find hfind hd hr⟩
  counted wid k := by
    obtain ⟨-, hcount⟩ := send_eq (landed s (l.flatMap (atOnce s))) (some 0) (missing s l)
    rw [counter_congr (outst_advance _ _ _), hcount, counter_congr (landed_plain s _).2]
    refine congrArg _ (if_congr ?_ rfl rfl)
    simp only [Option.some.injEq, List.mem_map, mem_missing]
    exact ⟨fun ⟨hk, a, ⟨ha, hn⟩, hw⟩ => ⟨hk.symm, a, ha, hw, hn⟩, fun ⟨hk, a, ha, hw, hn⟩ => ⟨hk.symm, a, ⟨ha, hn⟩, hw⟩⟩
  regs th r hr hn := by
    rw [getReg_advance, getReg_send]
    refine hapart.others th r hr ?_
    simp only [List.forall_mem_map, List.mem_flatMap]
    rintro x ⟨a, ha, hx⟩
    obtain ⟨bs, hbs, d, hd, rfl⟩ := mem_atOnce.mp hx
    exact hn (dstThread a d, d.2) (List.mem_flatMap.mpr ⟨a, List.mem_filter.mpr ⟨ha, by rw [hbs]; rfl⟩, List.mem_map_of_mem hd⟩)
  goes := goesOn_advance fun wid => by
    obtain ⟨⟨o, ho⟩, -⟩ := send_eq (landed s (l.flatMap (atOnce s))) (some 0) (missing s l)
    rw [ho]
    exact groups_landed s _ wid
  leaves := by
    refine Laws.Leaves.trans (leaves_landed (freesRegs_noRegs _ _ _) s _) (Laws.Leaves.trans (leaves_send ?_ (fun _ _ _ => rfl) _ _)
      (leaves_advance _ _ _ _))
    rw [(landed_plain s _).1]
    exact fun _ h => h

/-- What hits of one instruction bring goes to registers written once each. -/
theorem atOnce_apart {s : State} {c : Ctx} {act : List Th} {d : BitVec 6} {n : Nat} {l : List Access}
    (hn : n ≤ 8 ∨ n = 16 ∧ quadBad d = false) (hact : ∀ th ∈ act, s.warps.find th.wid ≠ none)
    (hdst : ∀ a ∈ l, ∀ x ∈ a.dst, dstThread a x ∈ act ∧ x.2 = s.loadDst c act (dstThread a x) d n)
    (hthreads : (l.flatMap fun a => a.dst.map (dstThread a)).Nodup) : Apart s (l.flatMap (atOnce s)) := by
  refine apart_of_loadDst (c := c) hn hact (fun x hx => ?_) ((atOnce_threads_flatMap s l).nodup hthreads)
  obtain ⟨a, ha, hxa⟩ := List.mem_flatMap.mp hx
  obtain ⟨bs, -, y, hy, rfl⟩ := mem_atOnce.mp hxa
  exact hdst a ha y hy

/-! ### LD and LDT (R203, R205) -/

theorem memInstr_issues {s : State} {i : Instr} {k : Checks} {addrs : Ctx → List Th → List (Th × DWord)}
    {bad : Ctx → List (Th × DWord) → Option Trap} {hold : Ctx → List Th → Option State} {acc : Ctx → List Th → Th × DWord → Access}
    {act : List Th} {d : BitVec 6} {n : Nat} (hgo : s.gate (s.ctx i) k = .go act) (hbad : bad (s.ctx i) (addrs (s.ctx i) act) = none)
    (hhold : hold (s.ctx i) act = none) (hst : ∀ x, (acc (s.ctx i) act x).st ≠ .faulted)
    (hup : noL1Upset s ((addrs (s.ctx i) act).map (acc (s.ctx i) act))) (hn : n ≤ 8 ∨ n = 16 ∧ quadBad d = false)
    (hdst : ∀ x ∈ addrs (s.ctx i) act, ∀ y ∈ (acc (s.ctx i) act x).dst, dstThread (acc (s.ctx i) act x) y ∈ act ∧
      y.2 = s.loadDst (s.ctx i) act (dstThread (acc (s.ctx i) act x) y) d n)
    (hthreads : (((addrs (s.ctx i) act).map (acc (s.ctx i) act)).flatMap fun a => a.dst.map (dstThread a)).Nodup) :
    ∃ t, memInstr s i k addrs bad hold (fun c act l => s.issueLoads (l.map (acc c act))) = .next t ∧
      LoadsIssued s (s.ctx i) ((addrs (s.ctx i) act).map (acc (s.ctx i) act)) t := by
  refine ⟨_, memInstr_performs hgo hbad hhold, ?_⟩
  rw [issueLoads_eq (List.forall_mem_map.mpr fun x _ => hst x) hup]
  exact loadsIssued_of_apart i (atOnce_apart hn (warps_of_gate hgo) (List.forall_mem_map.mpr hdst) hthreads)

/-- A load for each thread: its destination is that thread's own. -/
theorem globalLoad_issues {s : State} {i : Instr} {f : FM} {k : Checks} {n : Nat} {signed acq : Bool} {tag : BitVec 4} {kind : AccKind}
    {act : List Th} (hgo : s.gate (s.ctx i) k = .go act) (hbad : s.globalBad (s.laneAddrs f n true (s.ctx i) act) n false = none)
    (hhold : s.memHold (s.ctx i) act 0 true false = none) (hn : n ≤ 8 ∨ n = 16 ∧ quadBad f.d = false)
    (hup : noL1Upset s ((s.laneAddrs f n true (s.ctx i) act).map (loadAccess s (s.ctx i) act f kind n signed acq tag))) :
    ∃ t, globalLoad s i f k n signed acq tag kind = .next t ∧
      LoadsIssued s (s.ctx i) ((s.laneAddrs f n true (s.ctx i) act).map (loadAccess s (s.ctx i) act f kind n signed acq tag)) t := by
  have hthreads := laneAddrs_threads s f n true (s.ctx i) act
  refine memInstr_issues (d := f.d) (acc := fun c act => loadAccess s c act f kind n signed acq tag) (addrs := s.laneAddrs f n true)
    hgo hbad hhold (fun x => nofun) hup hn ?_ ?_
  · intro x hx y hy
    obtain rfl := List.mem_singleton.mp hy
    exact ⟨hthreads ▸ List.mem_map_of_mem hx, rfl⟩
  · rw [List.flatMap_map]
    have hone : ((s.laneAddrs f n true (s.ctx i) act).flatMap fun x => [x.1]) = act := by rw [← List.map_eq_flatMap, hthreads]
    exact (congrArg List.Nodup hone).mpr (active_of_gate hgo).1

/-! ### LDU (R204) -/

/-- The load of a home warp, for all its active threads. -/
def uniformAccess (s : State) (f : FM) (c : Ctx) (act : List Th) (x : Th × DWord) : Access :=
  { s.accOf c x.1 .ldu x.2 (sizeBytes f.m) f.m with
    lanes := lanesIn act x.1.wid
    dst := (homeOf act x.1).map fun u => (u.lane, s.loadDst c act u f.d (sizeBytes f.m))
    destCode := f.d, signed := sizeSigned f.m }

/-- The threads of a home warp's load are that home warp's. -/
theorem uniformAccess_threads (s : State) (f : FM) (c : Ctx) (act : List Th) (x : Th × DWord) :
    (uniformAccess s f c act x).dst.map (dstThread (uniformAccess s f c act x)) = homeOf act x.1 := by
  refine List.map_map.trans ((List.map_congr_left fun u hu => ?_).trans (List.map_id _))
  exact congrArg (Th.mk · u.lane) (of_decide_eq_true (List.mem_filter.mp hu).2).symm

/-- The home warps of an instruction's leading threads have no thread in common. -/
theorem homeOf_leads_nodup {act : List Th} (h : act.Nodup) : ((act.filter (leads act)).flatMap (homeOf act)).Nodup := by
  rw [List.nodup_flatMap]
  refine ⟨fun t _ => h.filter _, (h.filter _).imp_of_mem fun {t u} ht hu hne x hxt hxu => hne ?_⟩
  have hwid : t.wid = u.wid := (of_decide_eq_true (List.mem_filter.mp hxt).2).symm.trans (of_decide_eq_true (List.mem_filter.mp hxu).2)
  exact leads_unique (List.mem_filter.mp ht).2 (List.mem_filter.mp hu).2 hwid

theorem ldu_issues {s : State} {f : FM} {act : List Th}
    (hgo : s.gate (s.ctx (.ldu f)) (chkLoad f (sizeBytes f.m) (illLoad f.m false) true) = .go act)
    (hbad : s.globalBad (s.laneAddrs f (sizeBytes f.m) true (s.ctx (.ldu f)) (act.filter (leads act))) (sizeBytes f.m) false = none)
    (hhold : s.memHold (s.ctx (.ldu f)) act 0 true false = none)
    (hup : noL1Upset s ((s.laneAddrs f (sizeBytes f.m) true (s.ctx (.ldu f)) (act.filter (leads act))).map
      (uniformAccess s f (s.ctx (.ldu f)) act))) :
    ∃ t, exec (.ldu f) s = .next t ∧
      LoadsIssued s (s.ctx (.ldu f)) ((s.laneAddrs f (sizeBytes f.m) true (s.ctx (.ldu f)) (act.filter (leads act))).map
        (uniformAccess s f (s.ctx (.ldu f)) act)) t := by
  have hthreads := laneAddrs_threads s f (sizeBytes f.m) true (s.ctx (.ldu f)) (act.filter (leads act))
  refine memInstr_issues (d := f.d) (acc := uniformAccess s f)
    (addrs := fun c act => s.laneAddrs f (sizeBytes f.m) true c (act.filter (leads act)))
    (bad := fun c l => (s.globalBad l (sizeBytes f.m) false).map fun tr => tr.wide (s.active c f.q))
    (hold := fun c act => s.memHold c act 0 true false) hgo (congrArg (Option.map _) hbad) hhold
    (fun x => nofun) hup (quad_of_sizeBytes (gate_opd hgo)) ?_ ?_
  · intro x hx y hy
    obtain ⟨u, hu, rfl⟩ := List.mem_map.mp hy
    obtain ⟨hu, hwid⟩ := List.mem_filter.mp hu
    have hth : dstThread (uniformAccess s f (s.ctx (.ldu f)) act x) (u.lane, s.loadDst (s.ctx (.ldu f)) act u f.d (sizeBytes f.m)) = u :=
      congrArg (Th.mk · u.lane) (of_decide_eq_true hwid).symm
    rw [hth]
    exact ⟨hu, rfl⟩
  · rw [List.flatMap_map]
    simp only [uniformAccess_threads]
    rw [← List.flatMap_map Prod.fst, hthreads]
    exact homeOf_leads_nodup (active_of_gate hgo).1

/-- Settles O16: hits land in registers of their own threads, everything else is sent whole. -/
theorem globalLoads : Obligations.GlobalLoads := by
  refine ⟨fun f => ?_, fun f => ?_, fun f => ?_⟩
  · intro n s act hgo ⟨hbad, hhold, hup⟩
    exact globalLoad_issues hgo hbad hhold (quad_of_sizeBytes (gate_opd hgo)) hup
  · intro s act hgo ⟨hbad, hhold, hup⟩
    exact globalLoad_issues hgo hbad hhold (.inl (by decide)) hup
  · intro n accs s act hgo ⟨hbad, hhold, hup⟩
    exact ldu_issues hgo hbad hhold hup

end Sys2Proof.Kernels

/-! # Accesses at their home slice (O44: R78 to R80, R352, R393)

What the statement lets an access change at its home slice leaves out the parameter pages: a line that the slice's L2 gives up for
the access's line is written back, and a dirty line of such a page is written back there. The model never puts a line of a
parameter page into an L2; the statement speaks of every state. -/
namespace Sys2Proof.Kernels
open Sys2Proof Sys2Proof.Machine Sys2Proof.Laws

namespace ParamPageVictim

/-- A load of the booted machine's first thread, of a word at 0x3000. -/
def load : Access :=
  { kind := .ld, iid := 40, wid := 4, core := 0, bid := 3, part := 0, asid := 0, lane := 0, lanes := 1, va := 0x3000, size := 4
    dst := [(0, [.v 1])] }

/-- A dirty line of a parameter page, in the set to which the load's line belongs. -/
def victim : L2Line := { tile := 0, space := 3, addr := 0x3000, cls := 0, way := 0, used := 0, dirty := 1, data := [(0, 1)] }

/-- The booted machine with the load on its way and the victim in the only way that class 0 has in tile 0 (R393). -/
def full : State :=
  let s := State.reset.boot 0 0
  { s with accs := [(50, load)], nextId := 60, l2 := [victim], wafer := { s.wafer with wm := [(0, 1)] } }

/-- The load may be performed, and no other core owns its word. -/
theorem load_ready : (full.mayPerform 50 load && decide ((full.part 0).homeTile load.va = some 0) && !(full.accLid 50 load true) &&
    decide (full.foreignOwner load = none)) = true := by decide +kernel

/-- Its page is translated and its bytes are there. -/
theorem load_served : ∃ lf bs, (full.translate 0 0 load.va .load).2 = .ok lf ∧
    (full.translate 0 0 load.va .load).1.homeBytes (some 0) 0 0 0 load.chain lf load.va 4 = .ok bs := by
  have h : (match (full.translate 0 0 load.va .load).2 with
      | .ok lf => ((full.translate 0 0 load.va .load).1.homeBytes (some 0) 0 0 0 load.chain lf load.va 4).toOption.isSome
      | .error _ => false) = true := by decide +kernel
  split at h
  · next lf hlf =>
    cases hbs : (full.translate 0 0 load.va .load).1.homeBytes (some 0) 0 0 0 load.chain lf load.va 4 with
    | ok bs => exact ⟨lf, bs, hlf, hbs⟩
    | error e => rw [hbs] at h; cases h
  · cases h

/-- The victim's byte goes back to its parameter page. -/
theorem written_back : (match exec (.loadAtHomeSlice 50) full with
    | .next t => t.paramMem
    | _ => []) = [(0x3000, 1)] := by decide +kernel

end ParamPageVictim

theorem paramMem_of_homeFrame {s t : State} (h : Leaves s t homeFrame) : t.paramMem = s.paramMem :=
  (congrArg State.paramMem h.rest :)

/-- Refutes O44: a load brings its line into a full set of the L2, which writes a dirty line of a parameter page back there;
`homeFrame`, a frame with no parameter pages, does not allow that. -/
theorem not_accessesAtHome : ¬ Obligations.AccessesAtHome := by
  unfold Obligations.AccessesAtHome
  rintro ⟨-, -, -, hload, -⟩
  have hready := ParamPageVictim.load_ready
  simp only [Bool.and_eq_true, decide_eq_true_eq, Bool.not_eq_true'] at hready
  obtain ⟨⟨⟨hmay, htile⟩, hlid⟩, howner⟩ := hready
  obtain ⟨lf, bs, hlf, hbs⟩ := ParamPageVictim.load_served
  obtain ⟨-, hanswered⟩ := hload ParamPageVictim.full 50 ParamPageVictim.load lf 0 ⟨rfl, hmay, hlf, htile⟩ rfl rfl hlid
    (fun ⟨hkind, _⟩ => nomatch hkind)
  obtain ⟨t, ht, -, hl⟩ := hanswered bs howner hbs
  have hback := ParamPageVictim.written_back
  rw [ht] at hback
  have hnone : ParamPageVictim.full.paramMem = [] := rfl
  exact List.cons_ne_nil _ _ (hback.symm.trans ((paramMem_of_homeFrame hl).trans hnone))

end Sys2Proof.Kernels

/-! # Graphs and their replays (O50: R352, R361, R371, R393)

The statement says that a replay's parameter page holds the graph's parameters once the queue's head word has been written (R361). The
head word's line may take the place of a dirty line in a slice's L2, which is written back; a line of that very page would overwrite
the parameters. The model never puts a line of a parameter page into an L2; the statement speaks of every state. -/
namespace Sys2Proof.Kernels
open Sys2Proof Sys2Proof.Machine Sys2Proof.Laws

namespace ParamPageReplay

/-- A GRAPH packet that replays the object at 0x8000; that object has one SIGNAL node and one byte of parameters, 5. -/
def objectBytes : List (Nat × List Byte) :=
  [(0x4000, [4]), (0x4008, natLe 8 0x8000), (0x8000, [1]), (0x8008, natLe 8 0x6100), (0x8010, [1]), (0x8040, [3]), (0x8048, natLe 8 0x7000),
   (0x6100, [5])]

/-- A dirty line of parameter page 14, in the set to which the head word's line belongs. -/
def victim : L2Line := { tile := 0, space := 3, addr := 14 * 65536, cls := 0, way := 0, used := 0, dirty := 1, data := [(0, 1)] }

/-- The booted machine with the packet in queue 1 and the victim in the only way that class 0 has in tile 0 (R393). The replay gets
parameter page 14. -/
def ready : State :=
  let s := (State.reset.boot 0 0).onPart 0 fun P => { P with
    b2 := { P.b2 with homes := P.b2.homes.put 14 0x8000 }
    queues := [(1, { ring := 0x4000, lsize := 4, headp := 0xE0000, en := true, st := 1, tail := 1 })] }
  { s with
    vault := objectBytes.foldl (fun (m : Memory) x => Memory.wrN m (0x10000000 + x.1) x.2) s.vault
    l2 := [victim], wafer := { s.wafer with wm := [(0, 1)] } }

/-- The packet, and the state after it has been read. -/
def head : State × Option (List Byte) := ready.headPacket 0 1
def packet : List Byte := head.2.getD []

/-- The object's header, and the state after it has been read. -/
def header : State × Option (List Byte) := head.1.queueRead 0 1 (BitVec.ofNat 64 (field packet 8 8)) 64

/-- The object's nodes, and the state after they have been read. -/
def nodes : State × Option (List GNode) :=
  header.1.readNodes 0 1 (BitVec.ofNat 64 (field packet 8 8)) 0 (field (header.2.getD []) 0 2)

/-- The replay's parameters, and the state after they have been read. -/
def params : State × Option (List Byte) := nodes.1.graphParams 0 1 (header.2.getD []) packet

/-- The packet and the object are good. -/
theorem object_good : (head.2.isSome && decide (field packet 0 1 = 4) && decide (graphBad packet = none) && header.2.isSome &&
    decide (objBad (header.2.getD []) packet = none) && nodes.2.isSome && decide (params.2 = some [5])) = true := by decide +kernel

/-- The queue parses, in a partition that exists and replays no graph yet. -/
theorem queue_ready : ((ready.parts.find 0).isSome && decide (((ready.part 0).queue 1).st = 1) && (ready.part 0).insts.isEmpty) = true := by
  decide +kernel

/-- The victim's byte is the first byte of every replay's parameters. -/
theorem overwritten : (match exec (.packetGraph 0 1) ready with
    | .next t => (t.part 0).insts.all fun i => decide (Memory.rd t.paramMem (i.2.pmem * 65536 + 0) = 1)
    | _ => false) = true := by decide +kernel

end ParamPageReplay

/-- A pair whose second half is there. -/
theorem eq_some_getD {α β : Type} {x : α × Option β} (h : x.2.isSome = true) (d : β) : x = (x.1, some (x.2.getD d)) := by
  obtain ⟨a, b⟩ := x
  cases b with
  | none => cases h
  | some b => rfl

open ParamPageReplay in
/-- Refutes O50: the write of the head word that follows a replay brings its line into a full set of the L2, which writes a dirty line of
the replay's parameter page back over the parameters. -/
theorem not_graphsFlipsAndControl : ¬ Obligations.GraphsFlipsAndControl := by
  unfold Obligations.GraphsFlipsAndControl
  rintro ⟨hgraph, -⟩
  have hobject := object_good
  have hqueue := queue_ready
  simp only [Bool.and_eq_true, decide_eq_true_eq, List.isEmpty_iff] at hobject hqueue
  obtain ⟨⟨⟨⟨⟨⟨hhead, htype⟩, hgood⟩, hheader⟩, hobj⟩, hnodes⟩, hparams⟩ := hobject
  obtain ⟨⟨hpart, hst⟩, hinsts⟩ := hqueue
  have hs0 : (if ((ready.part 0).queue 1).st = 2 ∧ ((ready.part 0).queue 1).wait = 3 then ready.unstall 0 1 else ready) = ready :=
    if_neg fun h => absurd (hst.symm.trans h.1) (by decide)
  obtain ⟨-, hreplay⟩ := hgraph ready head.1 header.1 nodes.1 params.1 0 1 packet (header.2.getD []) [5] (nodes.2.getD [])
    (Option.isSome_iff_ne_none.mp hpart) ((congrArg (·.headPacket 0 1) hs0).trans (eq_some_getD hhead [])) htype hgood
  obtain ⟨t, id, x, ht, -, hx, -, -, -, -, -, hps, -⟩ := hreplay (by rw [hinsts]; exact Nat.zero_lt_succ 3)
    (eq_some_getD hheader []) hobj (eq_some_getD hnodes []) (Prod.ext rfl hparams)
  have hover := overwritten
  rw [ht] at hover
  have hone := of_decide_eq_true (List.all_eq_true.mp hover _ (mem_of_find hx))
  exact absurd (hone.symm.trans (hps 0 5 rfl)) (by decide)

end Sys2Proof.Kernels

/-! # Rounding to an integer (O10: R114) -/
namespace Sys2Proof.Kernels
open Sys2Proof Sys2Proof.Machine Sys2Proof.Laws

theorem roundShift_exact {m k : Nat} (h : m % 2 ^ k = 0) (mode : BitVec 2) (neg : Bool) :
    roundShift mode neg m k = (m / 2 ^ k, false) := if_pos h

/-- Does an inexact m × 2^-k go to the neighbour of the greater magnitude? -/
def roundsUp (mode : BitVec 2) (neg : Bool) (m k : Nat) : Bool :=
  match mode.toNat with
  | 0 => decide (2 ^ k < 2 * (m % 2 ^ k)) || (2 * (m % 2 ^ k) = 2 ^ k && m / 2 ^ k % 2 = 1)
  | 1 => false
  | 2 => neg
  | _ => !neg

theorem roundShift_inexact {m k : Nat} (h : m % 2 ^ k ≠ 0) (mode : BitVec 2) (neg : Bool) :
    roundShift mode neg m k = (if roundsUp mode neg m k then m / 2 ^ k + 1 else m / 2 ^ k, true) := if_neg h

/-- The nearer neighbour, and of two equally near the even one. -/
theorem roundsUp_nearest (neg : Bool) (m k : Nat) : roundsUp 0 neg m k = true ↔
    2 ^ k < 2 * (m % 2 ^ k) ∨ 2 * (m % 2 ^ k) = 2 ^ k ∧ m / 2 ^ k % 2 = 1 := by
  simp [roundsUp]

/-- Settles O10: a rounded value without remainder is the quotient; one with a remainder is the quotient or the next integer, as
`roundsUp` says. -/
theorem roundingPicksTheRightNeighbour : Obligations.RoundingPicksTheRightNeighbour := by
  intro mode neg m k
  have hm : 2 ^ k * (m / 2 ^ k) + m % 2 ^ k = m := Nat.div_add_mod m (2 ^ k)
  have hlt : m % 2 ^ k < 2 ^ k := Nat.mod_lt m (Nat.two_pow_pos k)
  by_cases hr : m % 2 ^ k = 0
  · rw [roundShift_exact hr]
    refine ⟨⟨fun _ => ?_, fun _ => rfl⟩, nofun, nofun, nofun, nofun, nofun⟩
    show m / 2 ^ k * 2 ^ k = m
    rw [Nat.mul_comm]
    omega
  · rw [roundShift_inexact hr]
    refine ⟨⟨nofun, fun h => ?_⟩, fun _ => ?_, ?_, ?_, ?_, ?_⟩
    · exact absurd (h ▸ Nat.mul_mod_left _ _) hr
    · exact (ite_eq_or_eq _ _ _).symm
    · rintro - rfl
      have hup := roundsUp_nearest neg m k
      generalize hq : m / 2 ^ k = q at hm hup ⊢
      dsimp only
      split
      · next h =>
        rw [Nat.add_mul, Nat.mul_comm q]
        have := hup.mp h
        omega
      · next h =>
        rw [Nat.mul_comm q]
        have := mt hup.mpr h
        omega
    · rintro - rfl
      rfl
    · rintro - rfl
      rfl
    · rintro - rfl
      cases neg <;> rfl

end Sys2Proof.Kernels

/-! # Exact accumulators (O12: R123, R124, R126) -/
namespace Sys2Proof.Kernels
open Sys2Proof Sys2Proof.Machine Sys2Proof.Laws

/-! ### One term -/

/-- The status bit of a term that is no number (R124). -/
def termStatus : FVal → BitVec 4
  | .nan => 8
  | .inf s => if s then 4 else 2
  | .fin .. => 0

theorem kOver_iff (v : Int) : kOver v = true ↔ v < -(2 ^ 639) ∨ 2 ^ 639 ≤ v := by
  rw [kOver, Bool.or_eq_true, decide_eq_true_eq, decide_eq_true_eq]

theorem kOver_eq_false (v : Int) : kOver v = false ↔ -(2 ^ 639) ≤ v ∧ v < 2 ^ 639 := by
  rw [← Bool.not_eq_true, kOver_iff, not_or, not_lt, not_le]

theorem kOver_int (k : KAcc) : kOver k.int = false :=
  (kOver_eq_false _).mpr ⟨k.val.le_toInt, k.val.toInt_lt⟩

/-- A term adds its exact value modulo 2^640. -/
theorem add_val (k : KAcc) (x : FVal) : (k.add x).val = BitVec.ofInt 640 (k.int + termInt x) := by
  have h : k.val = BitVec.ofInt 640 (k.int + 0) := by simp [KAcc.int]
  cases x with
  | fin s m e => rfl
  | _ => exact h

/-- A term adds its status bit, and ovf when the exact sum leaves the range. -/
theorem add_st (k : KAcc) (x : FVal) :
    (k.add x).st = k.st ||| termStatus x ||| if kOver (k.int + termInt x) then 1 else 0 := by
  cases x with
  | fin s m e =>
    rw [show termInt (.fin s m e) = sumOn (-320) [.fin s m e] from rfl, KAcc.add, KAcc.setInt]
    cases kOver (k.int + sumOn (-320) [.fin s m e]) <;> simp [termStatus]
  | _ => simp [KAcc.add, termStatus, termInt, kOver_int]

theorem int_ofInt {v : Int} (h : kOver v = false) : (BitVec.ofInt 640 v).toInt = v := by
  obtain ⟨hlo, hhi⟩ := (kOver_eq_false v).mp h
  apply BitVec.toInt_ofInt_eq_self
  · decide
  · exact hlo
  · exact hhi

/-- While the sum is in range the accumulator holds it. -/
theorem add_int {k : KAcc} {x : FVal} (h : kOver (k.int + termInt x) = false) : (k.add x).int = k.int + termInt x := by
  rw [KAcc.int, add_val, int_ofInt h]

/-! ### A run of terms -/

theorem adds_val (k : KAcc) (xs : List FVal) : (xs.foldl KAcc.add k).val = BitVec.ofInt 640 (k.int + (xs.map termInt).sum) := by
  induction xs generalizing k with
  | nil => simp [KAcc.int]
  | cons x xs ih =>
    rw [List.foldl_cons, ih, BitVec.ofInt_add, KAcc.int, BitVec.ofInt_toInt, add_val, ← BitVec.ofInt_add, List.map_cons, List.sum_cons,
      Int.add_assoc]

/-- A status bit other than ovf is set by the terms that have it. -/
theorem adds_status (k : KAcc) (xs : List FVal) {b : Nat} (hb : b ≠ 0) : (xs.foldl KAcc.add k).st.getLsbD b = true ↔
    k.st.getLsbD b = true ∨ ∃ x ∈ xs, (termStatus x).getLsbD b = true := by
  induction xs generalizing k with
  | nil => simp
  | cons x xs ih =>
    have hone : (if kOver (k.int + termInt x) then (1 : BitVec 4) else 0).getLsbD b = false := by
      split <;> simp [hb]
    rw [List.foldl_cons, ih, add_st, BitVec.getLsbD_or, BitVec.getLsbD_or, hone]
    simp [or_assoc]

/-- ovf is set when some partial sum leaves the range: up to the first that does, the accumulator holds the exact sum. -/
theorem adds_overflow (k : KAcc) (xs : List FVal) : (xs.foldl KAcc.add k).st.getLsbD 0 = true ↔
    k.st.getLsbD 0 = true ∨ ∃ j ≤ xs.length, kOver (k.int + ((xs.take j).map termInt).sum) = true := by
  induction xs generalizing k with
  | nil => simp [kOver_int]
  | cons x xs ih =>
    have hfin : (termStatus x).getLsbD 0 = false := by
      cases x with
      | nan => rfl
      | inf s => cases s <;> rfl
      | fin => exact BitVec.getLsbD_zero
    have hsplit : (∃ j ≤ (x :: xs).length, kOver (k.int + (((x :: xs).take j).map termInt).sum) = true) ↔
        ∃ j ≤ xs.length, kOver (k.int + termInt x + ((xs.take j).map termInt).sum) = true := by
      constructor
      · rintro ⟨j, hj, h⟩
        cases j with
        | zero => simp [kOver_int] at h
        | succ j => exact ⟨j, Nat.le_of_succ_le_succ hj, by simpa [Int.add_assoc] using h⟩
      · rintro ⟨j, hj, h⟩
        exact ⟨j + 1, Nat.succ_le_succ hj, by simpa [Int.add_assoc] using h⟩
    rw [List.foldl_cons, ih, hsplit, add_st, BitVec.getLsbD_or, BitVec.getLsbD_or, hfin, Bool.or_false]
    cases hover : kOver (k.int + termInt x) with
    | true => simpa using .inr ⟨0, Nat.zero_le _, by simpa using hover⟩
    | false => rw [add_int hover]; simp

/-! ### Images (R126) -/

theorem leNat_natLe (n v : Nat) : leNat (natLe n v) = v % 256 ^ n := by
  induction n generalizing v with
  | zero => simp [natLe, leNat, Nat.mod_one]
  | succ n ih =>
    rw [natLe, leNat, ih, BitVec.toNat_ofNat, Nat.pow_succ' (n := n)]
    exact Nat.mod_mul.symm

theorem length_image (k : KAcc) : k.image.length = 96 := by
  simp [KAcc.image]

theorem ofImage_image (k : KAcc) : KAcc.ofImage k.image = k := by
  have hval : k.image.take 80 = natLe 80 k.val.toNat := by
    rw [KAcc.image, List.append_assoc, List.take_append_of_le_length (by simp), List.take_of_length_le (by simp)]
  have hst : (k.image.drop 80).take 4 = natLe 4 k.st.toNat := by
    rw [KAcc.image, List.append_assoc, List.drop_append_of_le_length (by simp), List.drop_of_length_le (by simp), List.nil_append,
      List.take_append_of_le_length (by simp), List.take_of_length_le (by simp)]
  have h1 : k.val.toNat < 256 ^ 80 := by
    rw [show 256 = 2 ^ 8 from rfl, ← Nat.pow_mul, show 8 * 80 = 640 from rfl]
    exact k.val.isLt
  have h2 : k.st.toNat < 256 ^ 4 := k.st.isLt.trans (by decide)
  rw [KAcc.ofImage, hval, hst, leNat_natLe, leNat_natLe, Nat.mod_eq_of_lt h1, Nat.mod_eq_of_lt h2, BitVec.ofNat_toNat,
    BitVec.ofNat_toNat, BitVec.setWidth_eq, BitVec.setWidth_eq]

/-- Settles O12: value, status bits and ovf of a run of terms by induction over the terms; an image by its bytes. -/
theorem accumulatorsSumExactly : Obligations.AccumulatorsSumExactly := by
  have hstatus : ∀ (xs : List FVal) (b : Nat) (y : FVal), (∀ x, (termStatus x).getLsbD b = true ↔ x = y) →
      ((∃ x ∈ xs, (termStatus x).getLsbD b = true) ↔ y ∈ xs) := fun xs b y h => by simp [h]
  refine ⟨fun k xs => ⟨adds_val k xs, ?_, ?_, ?_, ?_⟩, fun k => ⟨length_image k, ofImage_image k⟩⟩
  · rw [adds_status k xs (by decide), hstatus xs 1 (.inf false)]
    rintro (_ | (_ | _) | _) <;> simp [termStatus]
  · rw [adds_status k xs (by decide), hstatus xs 2 (.inf true)]
    rintro (_ | (_ | _) | _) <;> simp [termStatus]
  · rw [adds_status k xs (by decide), hstatus xs 3 .nan]
    rintro (_ | (_ | _) | _) <;> simp [termStatus]
  · simp only [adds_overflow, kOver_iff]

end Sys2Proof.Kernels

/-! # Instructions on exact accumulators (O13: R123, R126, R240 to R242, R244) -/
namespace Sys2Proof.Kernels
open Sys2Proof Sys2Proof.Machine Sys2Proof.Laws

/-! ### Accumulators of warps -/

theorem kacc_setKacc {s : State} {wid : Nat} (h : s.warps.find wid ≠ none) (n : Nat) (k : KAcc) (w m : Nat) :
    (s.setKacc wid n k).kacc w m = if w = wid ∧ m = n then k else s.kacc w m := by
  unfold State.setKacc State.kacc
  by_cases hw : w = wid
  · subst hw
    rw [warp_onWarp _ _ _ _ h, if_pos rfl]
    by_cases hm : m = n
    · simp [hm]
    · simp [hm, getD_put_ne _ _ _ hm]
  · rw [warp_onWarp_ne _ _ hw, if_neg fun h => hw h.1]

theorem leaves_setKacc (s : State) (wid n : Nat) (k : KAcc) :
    Leaves s (s.setKacc wid n k) { warp := fun w => { w with ka := [] }, part := Part.frozen } :=
  leaves_onWarp _ s wid (fun w => { w with ka := w.ka.put n k }) fun _ => rfl

theorem groups_setKacc (s : State) (wid n : Nat) (k : KAcc) (j : Nat) :
    ((s.setKacc wid n k).warps.find j).map Warp.groups = (s.warps.find j).map Warp.groups :=
  groups_onWarp s wid (fun w => { w with ka := w.ka.put n k }) (fun _ => rfl) j

theorem bid_setKacc (s : State) (wid n : Nat) (k : KAcc) (j : Nat) : ((s.setKacc wid n k).warp j).bid = (s.warp j).bid :=
  warp_field_onWarp Warp.bid s wid (fun w => { w with ka := w.ka.put n k }) (fun _ => rfl) j

/-- Changes of accumulator n, each of one home warp, done in order. -/
def accsChanged (n : Nat) (s : State) (l : List (Nat × (KAcc → KAcc))) : State :=
  l.foldl (fun s x => s.setKacc x.1 n (x.2 (s.kacc x.1 n))) s

/-- Of changes to different home warps each acts on what its warp held, and no other accumulator changes. -/
theorem kacc_accsChanged {s : State} {n : Nat} {l : List (Nat × (KAcc → KAcc))} (hn : (l.map Prod.fst).Nodup)
    (hw : ∀ x ∈ l, s.warps.find x.1 ≠ none) :
    (∀ x ∈ l, (accsChanged n s l).kacc x.1 n = x.2 (s.kacc x.1 n)) ∧
    ∀ wid m, wid ∉ l.map Prod.fst ∨ m ≠ n → (accsChanged n s l).kacc wid m = s.kacc wid m := by
  induction l generalizing s with
  | nil => exact ⟨nofun, fun _ _ _ => rfl⟩
  | cons x l ih =>
    simp only [List.map_cons, List.nodup_cons] at hn
    simp only [List.forall_mem_cons] at hw
    obtain ⟨hdone, hkept⟩ := ih (s := s.setKacc x.1 n (x.2 (s.kacc x.1 n))) hn.2 fun y hy => find_onWarp_ne_none _ _ _ _ (hw.2 y hy)
    refine ⟨fun y hy => ?_, fun wid m h => ?_⟩
    · rcases List.mem_cons.mp hy with rfl | hy
      · exact (hkept y.1 n (.inl hn.1)).trans ((kacc_setKacc hw.1 _ _ _ _).trans (if_pos ⟨rfl, rfl⟩))
      · have hne : y.1 ≠ x.1 := fun he => hn.1 (he ▸ List.mem_map_of_mem hy)
        refine (hdone y hy).trans (congrArg y.2 ?_)
        rw [kacc_setKacc hw.1, if_neg fun h => hne h.1]
    · have hout : wid ∉ l.map Prod.fst ∨ m ≠ n := h.imp_left fun h hm => h (List.mem_cons_of_mem _ hm)
      refine (hkept wid m hout).trans ?_
      rw [kacc_setKacc hw.1, if_neg]
      rintro ⟨rfl, rfl⟩
      exact h.elim (fun h => h List.mem_cons_self) fun h => h rfl

theorem leaves_accsChanged (n : Nat) (s : State) (l : List (Nat × (KAcc → KAcc))) :
    Leaves s (accsChanged n s l) { warp := fun w => { w with ka := [] }, part := Part.frozen } := by
  refine leaves_foldl _ _ (fun s x => ?_) l s
  exact leaves_setKacc s x.1 n _

theorem groups_accsChanged (n : Nat) (s : State) (l : List (Nat × (KAcc → KAcc))) (wid : Nat) :
    ((accsChanged n s l).warps.find wid).map Warp.groups = (s.warps.find wid).map Warp.groups := by
  refine groups_foldl _ (fun s x j => ?_) l s wid
  exact groups_setKacc s x.1 n _ j

/-! ### The end of an instruction -/

/-- The unit goes on, and its instruction is metered (R224, R454). -/
def finished (s : State) (c : Ctx) (act : List Th) : State := (s.advance c.u c.len).meterVec act

theorem kacc_finished (s : State) (c : Ctx) (act : List Th) (wid m : Nat) : (finished s c act).kacc wid m = s.kacc wid m := by
  have hw : SameStill (s.warp wid) ((s.advance c.u c.len).warp wid) := (moveUnit_warps s c.u _).warp (SameStill.refl _) wid
  have h : (s.advance c.u c.len).kacc wid m = s.kacc wid m := (congrArg (fun w : Warp => w.ka.getD m {}) hw :)
  rw [← h, State.kacc, State.kacc, State.warp, State.warp, finished, meterVec_warps]

theorem blocks_finished (s : State) (c : Ctx) (act : List Th) (bid : Nat) : (finished s c act).block bid = s.block bid := by
  rw [← block_advance s c.u c.len, finished]
  cases act with
  | nil => rfl
  | cons t l => exact congrArg (fun b : Tbl Block => b.getD bid noBlock) (onPart_blocks _ _ _)

theorem leaves_finished (F : MayChange) (hF : F.part = Part.frozen) (s : State) (c : Ctx) (act : List Th) : Leaves s (finished s c act) F :=
  Laws.Leaves.trans (leaves_advance F s c.u c.len) (leaves_meterVec F hF _ act)

theorem goesOn_finished {s s' : State} {i : Instr} (act : List Th)
    (h : ∀ wid, (s'.warps.find wid).map Warp.groups = (s.warps.find wid).map Warp.groups) :
    GoesOn (finished s' (s.ctx i) act) (s.ctx i) :=
  fun th hth => at_meter (goesOn_advance h th hth)

/-! ### KCLR, KADD, KMAD (R240 to R242) -/

/-- What each home warp's active threads make of an accumulator. -/
def homeChanges (act : List Th) (f : List Th → KAcc → KAcc) : List (Nat × (KAcc → KAcc)) :=
  (widsOf act).map fun wid => (wid, f (act.filter (·.wid = wid)))

theorem onAccs_go {s : State} {i : Instr} {k : Checks} {act : List Th} (h : s.gate (s.ctx i) k = .go act) (n : Nat)
    (f : Ctx → List Th → KAcc → KAcc) :
    onAccs s i k n f = .next (finished (accsChanged n s (homeChanges act (f (s.ctx i)))) (s.ctx i) act) := by
  unfold onAccs
  dsimp only
  rw [h, accsChanged, homeChanges, List.foldl_map]
  rfl

theorem onAccs_completes {i : Instr} {k : Checks} {n : BitVec 6} {sem : State → Ctx → List Th → KAcc → KAcc}
    (hexec : ∀ s, exec i s = onAccs s i k n.toNat (sem s)) : Completes i k (AccsBecome n sem) := by
  intro s act hgo
  have hwids : (homeChanges act (sem s (s.ctx i))).map Prod.fst = widsOf act := by
    simp [homeChanges, Function.comp_def]
  obtain ⟨hdone, hkept⟩ := kacc_accsChanged (s := s) (n := n.toNat) (l := homeChanges act (sem s (s.ctx i)))
    (hwids ▸ nodup_eraseDups _) (by
      simp only [homeChanges, List.forall_mem_map, mem_widsOf]
      rintro _ ⟨t, ht, rfl⟩
      exact warps_of_gate hgo t ht)
  refine ⟨_, (hexec s).trans (onAccs_go hgo _ _), fun wid m => ?_, goesOn_finished act (groups_accsChanged _ _ _),
    Laws.Leaves.trans (leaves_accsChanged _ _ _) (leaves_finished _ rfl _ _ _)⟩
  rw [kacc_finished]
  have hmem : wid ∈ act.map (·.wid) ↔ wid ∈ widsOf act := by simp
  split
  · next h =>
    obtain ⟨hwid, rfl⟩ := h
    exact hdone (wid, _) (List.mem_map_of_mem (hmem.mp hwid))
  · next h =>
    refine hkept wid m ?_
    rw [hwids, ← hmem, ← not_and_or]
    exact h

theorem exec_kadd (f : V3) (s : State) : exec (.kadd f) s = onAccs s (.kadd f)
    { q := f.q, ill := illOf false (f.m = 7), opd := opdV f.x [f.a] [] [] (1 < f.d.toNat),
      a := { code := f.a, n := 1, ok := rawOr (kaddTag f.m.toNat) } } f.d.toNat
    fun c h k => (h.flatMap fun t => kaddTerms f.m.toNat (s.src c t f.a 0).val).foldl KAcc.add k := by
  simp only [List.foldl_flatMap]
  rfl

theorem exec_kmad (f : V3) (s : State) : exec (.kmad f) s = onAccs s (.kmad f)
    { q := f.q, ill := illZero f.m 6, opd := opdV f.x [f.a, f.b] [] [] (1 < f.d.toNat), a := srcF32 f.a, b := srcF32 f.b 1 }
    f.d.toNat fun c h k => (h.map fun t => kmadTerm (f.m.getLsbD 0) (s.src c t f.a 0).val (s.src c t f.b 0).val).foldl KAcc.add k := by
  simp only [List.foldl_map]
  rfl

/-! ### Image accesses (R244) -/

theorem imageAt_eq (s : State) (c : Ctx) (act : List Th) (code : BitVec 6) :
    imageAt s c act code = (s.imageAddrs c act code).map fun x => (x.1, x.2.toNat) := by
  have h : ∀ v : Word, (v.zeroExtend 64).toNat = v.toNat := fun v => BitVec.toNat_setWidth_of_le (by decide)
  simp only [imageAt, State.imageAddrs, List.map_map, Function.comp_def, h]

/-- An image access that traps nowhere. -/
theorem imageBad_eq_none (s : State) (store : Bool) (l : List (Th × DWord)) : s.imageBad store l = none ↔
    ∀ x ∈ l, x.2.toNat % 16 = 0 ∧ x.2.toNat + 96 ≤ (s.block (s.warp x.1.wid).bid).zsize ∧
      s.scratchLid (s.warp x.1.wid).bid x.2.toNat 96 (!store) = false ∧
      (store = true ∨ s.scratchUpset (s.warp x.1.wid).bid x.2.toNat 96 = false) := by
  simp only [State.imageBad, firstOf_eq_none, List.forall_mem_cons, badAt_eq_none, List.not_mem_nil, false_imp_iff, implies_true,
    and_true, ← forall_and]
  cases store <;> simp

theorem imageAccess_go {s : State} {i : Instr} {k : Checks} {act : List Th} {code : BitVec 6} {store : Bool}
    (h : s.gate (s.ctx i) k = .go act) (hfine : imagesFine code store s (s.ctx i) act) (f : State → Th → Nat → State) :
    imageAccess s i k code store f =
      .next (finished ((imageAt s (s.ctx i) act code).foldl (fun s x => f s x.1 x.2) s) (s.ctx i) act) := by
  obtain ⟨hacq, himg⟩ := hfine
  rw [imageAt_eq, List.forall_mem_map] at himg
  unfold imageAccess
  dsimp only
  rw [h]
  dsimp only
  rw [(imageBad_eq_none s store _).mpr himg]
  dsimp only
  rw [if_neg (by simp [(behindAcquire_eq_false _ _ _).mpr hacq]), imageAt_eq, List.foldl_map]
  rfl

theorem leader_mem {s : State} {c : Ctx} {act : List Th} {code : BitVec 6} {x : Th × Nat} (h : x ∈ imageAt s c act code) : x.1 ∈ act := by
  obtain ⟨t, ht, rfl⟩ := List.mem_map.mp h
  exact (List.mem_filter.mp ht).1

/-- A block whose scratchpad has room for an access exists. -/
theorem block_of_zsize {s : State} {bid a n : Nat} (hn : 0 < n) (h : a + n ≤ (s.block bid).zsize) : s.blocks.find bid ≠ none := by
  intro hb
  have : (s.block bid).zsize = 0 := by simp [State.block, Tbl.getD, hb, noBlock]
  omega

/-- The bytes that KSAVE stores for each home warp. -/
def savedImages (s : State) (n : Nat) (l : List (Th × Nat)) : List (Nat × Nat × List Byte) :=
  l.map fun x => ((s.warp x.1.wid).bid, x.2, (s.kacc x.1.wid n).image)

theorem saves_eq (s : State) (n : Nat) (l : List (Th × Nat)) :
    l.foldl (fun s x => s.wrScratch (s.warp x.1.wid).bid x.2 (s.kacc x.1.wid n).image) s = stored s (savedImages s n l) := by
  suffices ∀ r : State, r.warps = s.warps →
      l.foldl (fun s x => s.wrScratch (s.warp x.1.wid).bid x.2 (s.kacc x.1.wid n).image) r = stored r (savedImages s n l) from this s rfl
  induction l with
  | nil => exact fun _ _ => rfl
  | cons x l ih =>
    intro r hr
    have hstep : r.wrScratch (r.warp x.1.wid).bid x.2 (r.kacc x.1.wid n).image =
        r.wrScratch (s.warp x.1.wid).bid x.2 (s.kacc x.1.wid n).image := by
      simp only [State.kacc, State.warp, hr]
    rw [List.foldl_cons, hstep]
    exact ih (r.wrScratch _ _ _) ((onBlock_warps r _ _).trans hr)

/-- A frame that freezes the parts of which another speaks not at all. -/
theorem leaves_freeze {s t : State} {F : MayChange} (h : Leaves s t F) (hF : F.part = id) : Leaves s t { F with part := Part.frozen } where
  warps := h.warps
  parts k hk := by
    have hp : t.parts.find k = s.parts.find k := by simpa [hF] using h.parts k hk
    rw [hp]
  blocks := h.blocks
  gangs := h.gangs
  launches := h.launches
  ops := h.ops
  cores := h.cores
  accs := h.accs
  upsets := h.upsets
  rest := h.rest

/-- KSAVE (R244). -/
theorem ksave_performs (f : V3) : Performs (.ksave f)
    { q := f.q, ill := illZero f.m 7, opd := opdV f.x [f.a] [] [] (decide (1 < f.b.toNat) || f.a = 53), a := srcAny f.a }
    (imagesFine f.a true)
    fun s c act t =>
      ScratchIs s t ((imageAt s c act f.a).map fun x => ((s.warp x.1.wid).bid, x.2, (s.kacc x.1.wid f.b.toNat).image)) ∧
      GoesOn t c ∧ Leaves s t { block := Block.noScratch, part := Part.frozen, upset := Upset.inScratch } := by
  intro s act hgo hfine
  have hexec := imageAccess_go hgo hfine fun s t a => s.wrScratch (s.warp t.wid).bid a (s.kacc t.wid f.b.toNat).image
  rw [saves_eq] at hexec
  refine ⟨_, hexec, fun bid a => ?_, goesOn_finished act fun wid => by rw [warps_stored],
    Laws.Leaves.trans (leaves_freeze (leaves_stored s _) rfl) (leaves_finished _ rfl _ _ _)⟩
  have hstored := scratchIs_stored (s := s) (l := savedImages s f.b.toNat (imageAt s (s.ctx (.ksave f)) act f.a)) (by
    simp only [savedImages, List.forall_mem_map]
    exact fun x hx => block_of_zsize (by decide) (hfine.2 x hx).2.1)
  rw [blocks_finished, hstored bid a]
  rfl

/-- What KLOAD makes of an accumulator: the image, or its sum with the image. -/
def loadedAcc (add : Bool) (im k : KAcc) : KAcc := if add then { k with st := k.st ||| im.st }.setInt (k.int + im.int) else im

theorem setInt_st (k : KAcc) (v : Int) : (k.setInt v).st = if kOver v then k.st ||| 1 else k.st := by
  rw [KAcc.setInt]

theorem addedImage_val (im k : KAcc) : (loadedAcc true im k).val = k.val + im.val := by
  show BitVec.ofInt 640 (k.int + im.int) = _
  rw [BitVec.ofInt_add, KAcc.int, KAcc.int, BitVec.ofInt_toInt, BitVec.ofInt_toInt]

theorem addedImage_st (im k : KAcc) : (loadedAcc true im k).st = k.st ||| im.st |||
    (if k.int + im.int < -(2 ^ 639) ∨ 2 ^ 639 ≤ k.int + im.int then 1 else 0) := by
  rw [loadedAcc, if_pos rfl, setInt_st]
  by_cases h : kOver (k.int + im.int) = true
  · rw [if_pos h, if_pos ((kOver_iff _).mp h)]
  · rw [if_neg h, if_neg (mt (kOver_iff _).mpr h)]
    exact BitVec.or_zero.symm

/-- What KLOAD does to each home warp's accumulator. -/
def loadedImages (s : State) (add : Bool) (l : List (Th × Nat)) : List (Nat × (KAcc → KAcc)) :=
  l.map fun x => (x.1.wid, loadedAcc add (KAcc.ofImage (s.rdScratch (s.warp x.1.wid).bid x.2 96)))

theorem loads_eq (s : State) (n : Nat) (add : Bool) (l : List (Th × Nat)) :
    l.foldl (fun s x => s.setKacc x.1.wid n
      (loadedAcc add (KAcc.ofImage (s.rdScratch (s.warp x.1.wid).bid x.2 96)) (s.kacc x.1.wid n))) s =
    accsChanged n s (loadedImages s add l) := by
  suffices ∀ r : State, r.blocks = s.blocks → (∀ wid, (r.warp wid).bid = (s.warp wid).bid) →
      l.foldl (fun s x => s.setKacc x.1.wid n
        (loadedAcc add (KAcc.ofImage (s.rdScratch (s.warp x.1.wid).bid x.2 96)) (s.kacc x.1.wid n))) r =
      accsChanged n r (loadedImages s add l) from this s rfl fun _ => rfl
  induction l with
  | nil => exact fun _ _ _ => rfl
  | cons x l ih =>
    intro r hr hbid
    have hread : r.rdScratch (r.warp x.1.wid).bid x.2 96 = s.rdScratch (s.warp x.1.wid).bid x.2 96 := by
      simp only [State.rdScratch, State.block, hr, hbid]
    rw [List.foldl_cons, hread]
    exact ih (r.setKacc _ _ _) ((onWarp_blocks r _ _).trans hr) fun wid => (bid_setKacc _ _ _ _ wid).trans (hbid wid)

/-- KLOAD (R244). -/
theorem kload_performs (f : V3) : Performs (.kload f)
    { q := f.q, ill := illZero f.m 6, opd := opdV f.x [f.a] [] [] (decide (1 < f.d.toNat) || f.a = 53), a := srcAny f.a,
      split := if f.m.getLsbD 0 then none else some 3 }
    (imagesFine f.a false)
    fun s c act t =>
      (∀ x ∈ imageAt s c act f.a, let im := KAcc.ofImage (s.rdScratch (s.warp x.1.wid).bid x.2 96)
        let k := s.kacc x.1.wid f.d.toNat
        if f.m.getLsbD 0 then
          (t.kacc x.1.wid f.d.toNat).val = k.val + im.val ∧
          (t.kacc x.1.wid f.d.toNat).st = k.st ||| im.st |||
            (if k.int + im.int < -(2 ^ 639) ∨ 2 ^ 639 ≤ k.int + im.int then 1 else 0)
        else t.kacc x.1.wid f.d.toNat = im) ∧
      (∀ wid m, wid ∉ act.map (·.wid) ∨ m ≠ f.d.toNat → t.kacc wid m = s.kacc wid m) ∧
      GoesOn t c ∧ Leaves s t { warp := fun w => { w with ka := [] }, part := Part.frozen } := by
  intro s act hgo hfine
  have hexec := imageAccess_go hgo hfine fun s t a => s.setKacc t.wid f.d.toNat
    (loadedAcc (f.m.getLsbD 0) (KAcc.ofImage (s.rdScratch (s.warp t.wid).bid a 96)) (s.kacc t.wid f.d.toNat))
  rw [loads_eq] at hexec
  have hwids : (loadedImages s (f.m.getLsbD 0) (imageAt s (s.ctx (.kload f)) act f.a)).map Prod.fst =
      (act.filter (leads act)).map Th.wid := by
    simp [loadedImages, imageAt, Function.comp_def]
  obtain ⟨hdone, hkept⟩ := kacc_accsChanged (s := s) (n := f.d.toNat)
    (l := loadedImages s (f.m.getLsbD 0) (imageAt s (s.ctx (.kload f)) act f.a))
    (hwids ▸ nodup_leaders (active_of_gate hgo).1) (by
      simp only [loadedImages, List.forall_mem_map]
      exact fun x hx => warps_of_gate hgo _ (leader_mem hx))
  refine ⟨_, hexec, fun x hx => ?_, fun wid m h => ?_, goesOn_finished act (groups_accsChanged _ _ _),
    Laws.Leaves.trans (leaves_accsChanged _ _ _) (leaves_finished _ rfl _ _ _)⟩
  · have hacc := hdone _ (List.mem_map_of_mem hx)
    dsimp only at hacc ⊢
    rw [kacc_finished, hacc]
    cases f.m.getLsbD 0 with
    | true => exact ⟨addedImage_val _ _, addedImage_st _ _⟩
    | false => rfl
  · rw [kacc_finished]
    refine hkept wid m (h.imp_left fun h hm => h ?_)
    rw [hwids] at hm
    exact ((List.filter_sublist).map _).subset hm

/-- Settles O13: KCLR, KADD and KMAD by what each home warp's threads make of its accumulator; KSAVE stores images, KLOAD reads them. -/
theorem accumulatorInstructions : Obligations.AccumulatorInstructions :=
  ⟨fun _ => onAccs_completes fun _ => rfl, fun f => onAccs_completes (exec_kadd f), fun f => onAccs_completes (exec_kmad f),
    ksave_performs, kload_performs⟩

end Sys2Proof.Kernels

/-! # The accumulator store (O34: R122, R259 to R261, R281 to R290) -/
namespace Sys2Proof.Kernels
open Sys2Proof Sys2Proof.Machine Sys2Proof.Laws

/-! ### Cells (R71) -/

theorem accKey_inj {tile row col tile' row' col' : Nat} (hr : row < 512) (hc : col < 512) (hr' : row' < 512) (hc' : col' < 512) :
    accKey tile row col = accKey tile' row' col' ↔ tile = tile' ∧ row = row' ∧ col = col' := by
  unfold accKey
  omega

theorem accCell_setCell {row col row' col' : Nat} (hr : row < 512) (hc : col < 512) (hr' : row' < 512) (hc' : col' < 512) (s : State)
    (tile tile' : Nat) (v : Word) : (s.setCell tile' row' col' v).accCell tile row col =
      if tile = tile' ∧ row = row' ∧ col = col' then v else s.accCell tile row col := by
  unfold State.accCell
  split
  · next h => obtain ⟨rfl, rfl, rfl⟩ := h; exact getD_put_same _ _ _ _
  · next h => exact getD_put_ne _ _ _ (mt (accKey_inj hr hc hr' hc').mp h)

/-- Cells of a tile written in order: row, column and word of each. -/
def cellsSet (s : State) (tile : Nat) (l : List (Nat × Nat × Word)) : State := l.foldl (fun s x => s.setCell tile x.1 x.2.1 x.2.2) s

/-- Of cells that are all in the store, one whose writes agree holds what they wrote, and one without a write keeps its word. -/
theorem accCell_cellsSet {tile row col : Nat} {l : List (Nat × Nat × Word)} (hl : ∀ x ∈ l, x.1 < 512 ∧ x.2.1 < 512) (hr : row < 512)
    (hc : col < 512) (s : State) (tl : Nat) :
    (∀ v, tl = tile → (row, col, v) ∈ l → (∀ w, (row, col, w) ∈ l → w = v) → (cellsSet s tile l).accCell tl row col = v) ∧
    ((tl = tile → ∀ v, (row, col, v) ∉ l) → (cellsSet s tile l).accCell tl row col = s.accCell tl row col) := by
  induction l generalizing s with
  | nil => exact ⟨fun _ _ h => absurd h List.not_mem_nil, fun _ => rfl⟩
  | cons x l ih =>
    simp only [List.forall_mem_cons] at hl
    have hset := accCell_setCell hr hc hl.1.1 hl.1.2 s tl tile x.2.2
    obtain ⟨hin, hout⟩ := ih hl.2 (s.setCell tile x.1 x.2.1 x.2.2)
    refine ⟨fun v ht hv huniq => ?_, fun hno => ?_⟩
    · by_cases hlater : (row, col, v) ∈ l
      · exact hin v ht hlater fun w hw => huniq w (List.mem_cons_of_mem _ hw)
      · obtain rfl := (List.mem_cons.mp hv).resolve_right hlater
        refine (hout fun _ w hw => hlater ?_).trans (hset.trans (if_pos ⟨ht, rfl, rfl⟩))
        exact huniq w (List.mem_cons_of_mem _ hw) ▸ hw
    · refine (hout fun ht v hv => hno ht v (List.mem_cons_of_mem _ hv)).trans (hset.trans (if_neg ?_))
      rintro ⟨ht, rfl, rfl⟩
      exact hno ht _ List.mem_cons_self

theorem accCell_setSubTag (s : State) (tile row col tag tile' row' col' : Nat) :
    (s.setSubTag tile row col tag).accCell tile' row' col' = s.accCell tile' row' col' := rfl

theorem ops_setSubTag (s : State) (tile row col tag : Nat) : (s.setSubTag tile row col tag).ops = s.ops := rfl

/-- Writing cells leaves the operations, the tags and the blocks. -/
theorem cellsSet_keeps (s : State) (tile : Nat) (l : List (Nat × Nat × Word)) :
    (cellsSet s tile l).ops = s.ops ∧ (cellsSet s tile l).accTag = s.accTag ∧ (cellsSet s tile l).blocks = s.blocks := by
  induction l generalizing s with
  | nil => exact ⟨rfl, rfl, rfl⟩
  | cons x l ih => exact ih (s.setCell tile x.1 x.2.1 x.2.2)

/-! ### ACCLR (R260) -/

/-- The cells that an ACCLR clears. -/
def clearedCells (s : State) (o : EngineOp) : List (Nat × Nat × Word) :=
  (List.range o.region.2.1).flatMap fun i => (List.range o.region.2.2.2).map fun j => (s.firstRow o + i, o.region.2.2.1 + j, 0)

theorem mem_clearedCells {s : State} {o : EngineOp} {row col : Nat} {v : Word} :
    (row, col, v) ∈ clearedCells s o ↔ inRegion s o row col ∧ v = 0 := by
  simp only [clearedCells, List.mem_flatMap, List.mem_map, List.mem_range, Prod.mk.injEq, inRegion]
  constructor
  · rintro ⟨i, hi, j, hj, rfl, rfl, rfl⟩
    exact ⟨⟨by omega, by omega, by omega, by omega⟩, rfl⟩
  · rintro ⟨⟨h1, h2, h3, h4⟩, rfl⟩
    exact ⟨row - s.firstRow o, by omega, col - o.region.2.2.1, by omega, by omega, by omega, rfl⟩

theorem clears_eq (s : State) (o : EngineOp) :
    (List.range o.region.2.1).foldl (fun s i => (List.range o.region.2.2.2).foldl
      (fun s j => s.setCell o.tile (s.firstRow o + i) (o.region.2.2.1 + j) 0) s) s = cellsSet s o.tile (clearedCells s o) := by
  have hstep : ∀ (l : List (Nat × Nat)) (m : State), m.blocks = s.blocks →
      l.foldl (fun s x => s.setCell o.tile (s.firstRow o + x.1) (o.region.2.2.1 + x.2) 0) m =
        cellsSet m o.tile (l.map fun x => (s.firstRow o + x.1, o.region.2.2.1 + x.2, 0)) := by
    intro l
    induction l with
    | nil => exact fun _ _ => rfl
    | cons x l ih =>
      intro m hm
      have hrow : m.firstRow o = s.firstRow o := by simp only [State.firstRow, State.block, hm]
      rw [List.foldl_cons, hrow]
      exact ih (m.setCell _ _ _ _) hm
  have h := hstep ((List.range o.region.2.1).flatMap fun i => (List.range o.region.2.2.2).map fun j => (i, j)) s rfl
  simpa only [clearedCells, List.foldl_flatMap, List.foldl_map, List.map_flatMap, List.map_map, Function.comp_def] using h

theorem setSubTags_keep (tile tag : Nat) (l : List (Nat × Nat)) (s : State) :
    (l.foldl (fun s x => s.setSubTag tile x.1 x.2 tag) s).acc = s.acc ∧ (l.foldl (fun s x => s.setSubTag tile x.1 x.2 tag) s).ops = s.ops := by
  induction l generalizing s with
  | nil => exact ⟨rfl, rfl⟩
  | cons x l ih => exact ih (s.setSubTag tile x.1 x.2 tag)

/-- ACCLR changes no operation, and of the cells only those of its region. -/
theorem accClear_keeps (s : State) (o : EngineOp) :
    (s.accClear o).acc = (cellsSet s o.tile (clearedCells s o)).acc ∧ (s.accClear o).ops = s.ops := by
  unfold State.accClear
  dsimp only
  rw [clears_eq]
  obtain ⟨hacc, hops⟩ := setSubTags_keep o.tile (o.u 16 1) ((cellsSet s o.tile (clearedCells s o)).subtiles o)
    (cellsSet s o.tile (clearedCells s o))
  exact ⟨hacc, hops.trans (cellsSet_keeps s o.tile _).1⟩

theorem accClear_cells {s : State} {o : EngineOp} (hrows : s.firstRow o + o.region.2.1 ≤ 512)
    (hcols : o.region.2.2.1 + o.region.2.2.2 ≤ 512) (tile : Nat) {row col : Nat} (hr : row < 512) (hc : col < 512) :
    (tile = o.tile → inRegion s o row col → (s.accClear o).accCell tile row col = 0) ∧
    (¬ (tile = o.tile ∧ inRegion s o row col) → (s.accClear o).accCell tile row col = s.accCell tile row col) := by
  have hbound : ∀ x ∈ clearedCells s o, x.1 < 512 ∧ x.2.1 < 512 := by
    rintro ⟨row, col, v⟩ hx
    obtain ⟨⟨-, h1, -, h2⟩, -⟩ := mem_clearedCells.mp hx
    exact ⟨h1.trans_le hrows, h2.trans_le hcols⟩
  obtain ⟨hin, hout⟩ := accCell_cellsSet hbound hr hc s (tile := o.tile) tile
  have hcell : (s.accClear o).accCell tile row col = (cellsSet s o.tile (clearedCells s o)).accCell tile row col :=
    congrArg (fun a : Tbl Word => a.getD (accKey tile row col) 0) (accClear_keeps s o).1
  rw [hcell]
  exact ⟨fun ht hreg => hin 0 ht (mem_clearedCells.mpr ⟨hreg, rfl⟩) fun w hw => (mem_clearedCells.mp hw).2,
    fun hno => hout fun ht v hv => hno ⟨ht, (mem_clearedCells.mp hv).1⟩⟩

/-! ### The turn of an operation (R113, R259, R282, R288) -/

theorem barUpdate_acc (s : State) (bid a arrive tx done : Nat) : (s.barUpdate bid a arrive tx done).1.acc = s.acc := by
  have hset : ∀ b, (s.setPhaseBar bid a b).acc = s.acc := fun b => by
    unfold State.setPhaseBar
    dsimp only
    split <;> exact onBlock_acc s bid _
  unfold State.barUpdate
  dsimp only
  split
  · rfl
  · split
    · rfl
    · exact hset _

theorem exec_accOpTurn (id : Nat) (s : State) : exec (.accOpTurn id) s = .next (match s.ops.find id with
    | some o => if o.onAccStore && o.st = .running && !o.begun && !(s.accBlocked o) && s.engMayRead id o then s.accTurn id o else s
    | none => s) := rfl

/-- An operation whose tags do not fit. -/
theorem accTurn_fails {s : State} {id off : Nat} {o : EngineOp} (h : s.turnFail o = some off) :
    s.accTurn id o = s.onOp id fun o => { o with st := .failed, hasErr := true, cause := cz 0x21 5, info := BitVec.ofNat 64 off } := by
  rw [State.accTurn, h]

theorem accTurn_clears {s : State} {id : Nat} {o : EngineOp} (h : s.turnFail o = none) (hk : o.kind = 6) :
    s.accTurn id o = (s.accClear o).onOp id fun o => { o with begun := true, st := .landed } := by
  rw [State.accTurn, h]
  exact if_pos hk

/-- Any other operation begins, and a CPYA store may announce its bytes: no cell changes. -/
theorem accTurn_begins {s : State} {id : Nat} {o : EngineOp} (h : s.turnFail o = none) (hk : o.kind ≠ 6) :
    ∃ m : State, m.ops = s.ops ∧ m.acc = s.acc ∧ s.accTurn id o = m.onOp id fun o => { o with begun := true } := by
  refine ⟨if o.arrives && o.startsLate then (s.barUpdate o.bid o.bar 0 (s.totalOf o) 0).1 else s, ?_, ?_, ?_⟩
  · split
    · exact (barUpdate_barOnly _ _ _ _ _ _).ops
    · rfl
  · split
    · exact barUpdate_acc _ _ _ _ _ _
    · rfl
  · rw [State.accTurn, h]
    exact if_neg hk

/-- The turn of an operation on the store (R260, R288). -/
theorem accOpTurn_acts {s : State} {id : Nat} {o : EngineOp} (ho : s.ops.find id = some o) (hon : o.onAccStore = true)
    (hst : o.st = .running) (hbegun : o.begun = false) (hfree : s.accBlocked o = false) (hread : s.engMayRead id o = true) :
    ∃ t p, exec (.accOpTurn id) s = .next t ∧ t.ops.find id = some p ∧
      (∀ off, s.turnFail o = some off → p.st = .failed ∧ p.cause = cz 0x21 5 ∧ p.info = BitVec.ofNat 64 off ∧ t.acc = s.acc) ∧
      (s.turnFail o = none → p.begun = true ∧ (o.kind ≠ 6 → p.st = .running ∧ t.acc = s.acc) ∧
        (o.kind = 6 → p.st = .landed ∧ t.acc = (s.accClear o).acc)) := by
  have hexec := exec_accOpTurn id s
  rw [ho] at hexec
  simp only [hon, hst, hbegun, hfree, hread, decide_true, Bool.and_self, Bool.not_false, if_true] at hexec
  have hop : ∀ {m : State} (f : EngineOp → EngineOp), m.ops = s.ops → (m.onOp id f).ops.find id = some (f o) := fun f hm => by
    rw [onOp_find, if_pos rfl, hm, ho, Option.map_some]
  refine ⟨s.accTurn id o, ?_⟩
  cases hfail : s.turnFail o with
  | some off =>
    rw [accTurn_fails hfail] at hexec ⊢
    refine ⟨_, hexec, hop _ rfl, ?_, nofun⟩
    rintro _ ⟨⟩
    exact ⟨rfl, rfl, rfl, onOp_acc _ _ _⟩
  | none =>
    by_cases hk : o.kind = 6
    · rw [accTurn_clears hfail hk] at hexec ⊢
      exact ⟨_, hexec, hop _ (accClear_keeps s o).2, nofun, fun _ => ⟨rfl, fun h => absurd hk h, fun _ => ⟨rfl, onOp_acc _ _ _⟩⟩⟩
    · obtain ⟨m, hops, hacc, hm⟩ := accTurn_begins (id := id) hfail hk
      rw [hm] at hexec ⊢
      exact ⟨_, hexec, hop _ hops, nofun, fun _ => ⟨rfl, fun _ => ⟨hst, (onOp_acc _ _ _).trans hacc⟩, fun h => absurd h hk⟩⟩

/-! ### A pass of the mill (R122, R283, R287) -/

/-- The cell that a pass makes at row i and column j of its subtile (R122). -/
def passCell (s : State) (o : EngineOp) (mb nb ks : Nat) (prior : Bool) (i j : Nat) : Word :=
  millCell (o.u 24 1 = 9) (s.millRow o true (o.rowAt (64 * mb + i) + 256 * ks)) (s.millRow o false (o.colAt (64 * nb + j) + 256 * ks))
    (if prior then some (s.accCell o.tile (s.firstRow o + 64 * mb + i) (o.region.2.2.1 + 64 * nb + j)) else none)

/-- The cells that a pass writes. -/
def passCells (s : State) (o : EngineOp) (mb nb ks : Nat) (prior : Bool) : List (Nat × Nat × Word) :=
  (List.range 64).flatMap fun i => (List.range 64).map fun j =>
    (s.firstRow o + 64 * mb + i, o.region.2.2.1 + 64 * nb + j, passCell s o mb nb ks prior i j)

theorem mem_passCells {s : State} {o : EngineOp} {mb nb ks : Nat} {prior : Bool} {x : Nat × Nat × Word} :
    x ∈ passCells s o mb nb ks prior ↔ ∃ i < 64, ∃ j < 64,
      x = (s.firstRow o + 64 * mb + i, o.region.2.2.1 + 64 * nb + j, passCell s o mb nb ks prior i j) := by
  simp only [passCells, List.mem_flatMap, List.mem_map, List.mem_range, eq_comm]

theorem zipIdx_map_range {α : Type} (f : Nat → α) (n : Nat) : ((List.range n).map f).zipIdx = (List.range n).map fun i => (f i, i) := by
  apply List.ext_getElem <;> simp

theorem passWrite_eq (s : State) (o : EngineOp) (mb nb ks : Nat) (prior : Bool) :
    s.passWrite o mb nb ks prior = (cellsSet s o.tile (passCells s o mb nb ks prior)).setSubTag o.tile (s.firstRow o + 64 * mb)
      (o.region.2.2.1 + 64 * nb) o.millTag := by
  unfold State.passWrite cellsSet passCells
  simp only [zipIdx_map_range, List.flatMap_map, List.map_map, List.foldl_flatMap, List.foldl_map, Function.comp_def]
  rfl

/-- The cells after a pass: those of its subtile as `passCell` says, all others as they were. -/
theorem passWrite_cells {s : State} {o : EngineOp} {mb nb : Nat} (hr0 : s.firstRow o + 64 * mb + 64 ≤ 512)
    (hc0 : o.region.2.2.1 + 64 * nb + 64 ≤ 512) (ks : Nat) (prior : Bool) :
    (∀ i < 64, ∀ j < 64, (s.passWrite o mb nb ks prior).accCell o.tile (s.firstRow o + 64 * mb + i) (o.region.2.2.1 + 64 * nb + j) =
      passCell s o mb nb ks prior i j) ∧
    ∀ tile row col, row < 512 → col < 512 → ¬ (tile = o.tile ∧ s.firstRow o + 64 * mb ≤ row ∧ row < s.firstRow o + 64 * mb + 64 ∧
      o.region.2.2.1 + 64 * nb ≤ col ∧ col < o.region.2.2.1 + 64 * nb + 64) →
      (s.passWrite o mb nb ks prior).accCell tile row col = s.accCell tile row col := by
  have hbound : ∀ x ∈ passCells s o mb nb ks prior, x.1 < 512 ∧ x.2.1 < 512 := by
    intro x hx
    obtain ⟨i, hi, j, hj, rfl⟩ := mem_passCells.mp hx
    dsimp only
    omega
  have hcell : ∀ tile row col, (s.passWrite o mb nb ks prior).accCell tile row col =
      (cellsSet s o.tile (passCells s o mb nb ks prior)).accCell tile row col := fun tile row col => by
    rw [passWrite_eq, accCell_setSubTag]
  refine ⟨fun i hi j hj => ?_, fun tile row col hr hc hno => ?_⟩
  · rw [hcell]
    refine (accCell_cellsSet hbound (by omega) (by omega) s _).1 _ rfl (mem_passCells.mpr ⟨i, hi, j, hj, rfl⟩) fun w hw => ?_
    obtain ⟨i', hi', j', hj', he⟩ := mem_passCells.mp hw
    simp only [Prod.mk.injEq, Nat.add_left_cancel_iff] at he
    obtain ⟨rfl, rfl, rfl⟩ := he
    rfl
  · rw [hcell]
    refine (accCell_cellsSet hbound hr hc s tile).2 fun ht v hv => hno ?_
    obtain ⟨i, hi, j, hj, he⟩ := mem_passCells.mp hv
    simp only [Prod.mk.injEq] at he
    obtain ⟨rfl, rfl, -⟩ := he
    omega

theorem passWrite_subTag (s : State) (o : EngineOp) (mb nb ks : Nat) (prior : Bool) :
    (s.passWrite o mb nb ks prior).subTag o.tile (s.firstRow o + 64 * mb) (o.region.2.2.1 + 64 * nb) = BitVec.ofNat 4 o.millTag := by
  rw [passWrite_eq, State.subTag, State.setSubTag, getD_put_same]

theorem passWrite_ops (s : State) (o : EngineOp) (mb nb ks : Nat) (prior : Bool) : (s.passWrite o mb nb ks prior).ops = s.ops := by
  obtain ⟨hops, -, -⟩ := cellsSet_keeps s o.tile (passCells s o mb nb ks prior)
  rw [passWrite_eq, ops_setSubTag, hops]

/-- The end of a pass touches no cell and no tag. -/
theorem passEnd_keeps (m : State) (id p k n : Nat) :
    ((m.passEnd id).meter p k n).acc = m.acc ∧ ((m.passEnd id).meter p k n).accTag = m.accTag ∧
    ((m.passEnd id).meter p k n).ops = (m.passEnd id).ops :=
  ⟨(onPart_acc _ _ _).trans (onOp_acc _ _ _), (onPart_accTag _ _ _).trans (onOp_accTag _ _ _), onPart_ops _ _ _⟩

/-- The operation after a pass (R283). -/
theorem passEnd_op {m : State} {id : Nat} {o : EngineOp} (ho : m.ops.find id = some o) :
    ∃ p, (m.passEnd id).ops.find id = some p ∧ p.passes = o.passes + 1 ∧ (o.allPasses ≤ p.passes → p.st = .landed) := by
  refine ⟨_, (onOp_find m id id _).trans ((if_pos rfl).trans (congrArg _ ho)), ?_, ?_⟩
  · dsimp only
    split <;> rfl
  · dsimp only
    split
    · exact fun _ => rfl
    · next h => exact fun hle => absurd hle h

section
variable {s : State} {o : EngineOp} {mismatch prior : Bool} {mb nb ks : Nat} (ht : o.triple = (mb, nb, ks))
  (hprior : (o.accumulates || decide (ks ≠ 0)) = prior) (hred : o.f7.getLsbD 1 = false ∨ mismatch = false)
  (hfree : o.failedSub.contains (mb, nb) = false) (hup : s.passUpset o mb nb ks prior = none)
include ht hprior hred hfree hup

/-- A pass that is not one of a failing or failed subtile and reads no error writes its subtile. -/
theorem millRun_writes (id : Nat) :
    s.millRun id o mismatch = ((s.passWrite o mb nb ks prior).passEnd id).meter o.part o.macMeter (4096 * o.macStep) := by
  have hmis : (o.f7.getLsbD 1 && mismatch) = false := Bool.and_eq_false_iff.mpr hred
  unfold State.millRun
  simp only [hmis, ht, hprior, hfree, hup, Bool.false_eq_true, if_false]

/-- What a pass leaves of the operation and of the store. -/
theorem millRun_cells {id : Nat} (ho : s.ops.find id = some o) (hr0 : s.firstRow o + 64 * mb + 64 ≤ 512)
    (hc0 : o.region.2.2.1 + 64 * nb + 64 ≤ 512) :
    ∃ p, (s.millRun id o mismatch).ops.find id = some p ∧ p.passes = o.passes + 1 ∧ (o.allPasses ≤ p.passes → p.st = .landed) ∧
      (s.millRun id o mismatch).subTag o.tile (s.firstRow o + 64 * mb) (o.region.2.2.1 + 64 * nb) = BitVec.ofNat 4 o.millTag ∧
      (∀ i < 64, ∀ j < 64, (s.millRun id o mismatch).accCell o.tile (s.firstRow o + 64 * mb + i) (o.region.2.2.1 + 64 * nb + j) =
        passCell s o mb nb ks prior i j) ∧
      ∀ tile row col, row < 512 → col < 512 → ¬ (tile = o.tile ∧ s.firstRow o + 64 * mb ≤ row ∧ row < s.firstRow o + 64 * mb + 64 ∧
        o.region.2.2.1 + 64 * nb ≤ col ∧ col < o.region.2.2.1 + 64 * nb + 64) →
        (s.millRun id o mismatch).accCell tile row col = s.accCell tile row col := by
  obtain ⟨hcells, hothers⟩ := passWrite_cells hr0 hc0 ks prior
  have htag := passWrite_subTag s o mb nb ks prior
  obtain ⟨p, hp, hpasses, hlanded⟩ := passEnd_op ((congrArg (Tbl.find · id) (passWrite_ops s o mb nb ks prior)).trans ho)
  obtain ⟨hacc, htags, hops⟩ := passEnd_keeps (s.passWrite o mb nb ks prior) id o.part o.macMeter (4096 * o.macStep)
  rw [millRun_writes ht hprior hred hfree hup, hops, State.subTag, htags]
  simp only [State.accCell, hacc]
  exact ⟨p, hp, hpasses, hlanded, htag, hcells, hothers⟩

end

/-- An entry as it has its turn (R287). -/
def inTurn (o : EngineOp) : EngineOp := if o.turn = 0 then { o with turn := 16, granted := 0 } else o

/-- A tile's other entries grow older by the pass (R287). -/
def waited (tile id : Nat) (x : Nat × EngineOp) : Nat × EngineOp :=
  (x.1, if x.1 ≠ id && x.2.tile = tile && (x.2.kind = 4 || x.2.kind = 5) && x.2.placed then { x.2 with granted := x.2.granted + 1 } else x.2)

theorem find_waited (tile id : Nat) (t : Tbl EngineOp) : Tbl.find (t.map (waited tile id)) id = t.find id := by
  induction t with
  | nil => rfl
  | cons x t ih =>
    obtain ⟨k, o⟩ := x
    rw [List.map_cons, waited, Tbl.find, Tbl.find, ih]
    by_cases hk : id = k
    · subst hk
      simp
    · simp only [if_neg hk]

/-- The state in which the granted operation runs its pass. -/
def granted (s : State) (tile id : Nat) : State := { s.onOp id inTurn with ops := (s.onOp id inTurn).ops.map (waited tile id) }

/-- Its turn has begun, and nothing but the operations has changed. -/
theorem granted_eq (s : State) (tile id : Nat) : ∃ t, granted s tile id = { s with ops := t } := by
  unfold granted State.onOp
  split <;> exact ⟨_, rfl⟩

theorem find_granted {s : State} {id : Nat} {o : EngineOp} (ho : s.ops.find id = some o) (tile : Nat) :
    (granted s tile id).ops.find id = some (inTurn o) := by
  rw [granted, find_waited, onOp_find, if_pos rfl, ho, Option.map_some]

theorem execMillPass_eq (s : State) (tile : Nat) (mismatch : Bool) : exec (.millPass tile mismatch) s =
    .next (match s.millGrant tile with
      | none => s
      | some (id, _) => match (granted s tile id).ops.find id with
        | some o => (granted s tile id).millRun id o mismatch
        | none => granted s tile id) := rfl

theorem exec_millPass {s : State} {tile id : Nat} {g o : EngineOp} (hg : s.millGrant tile = some (id, g)) (ho : s.ops.find id = some o)
    (mismatch : Bool) : exec (.millPass tile mismatch) s = .next ((granted s tile id).millRun id (inTurn o) mismatch) := by
  rw [execMillPass_eq, hg]
  dsimp only
  rw [find_granted ho tile]

/-- Settles O34: the turn of an operation by its tag check and ACCLR's cells, a pass of the mill by the cells that it writes. -/
theorem accumulatorStore : Obligations.AccumulatorStore := by
  refine ⟨fun s id o ho hon hst hbegun hfree hread => ?_, fun s tile id g o mismatch hg ho htile hred => ?_⟩
  · obtain ⟨t, p, hexec, hp, hfail, hnone⟩ := accOpTurn_acts ho hon hst hbegun hfree hread
    refine ⟨t, p, hexec, hp, hfail, fun h => ?_⟩
    obtain ⟨hbegun, hother, hclear⟩ := hnone h
    refine ⟨hbegun, hother, fun hk => ?_⟩
    obtain ⟨hst, hacc⟩ := hclear hk
    refine ⟨hst, fun hrows hcols tile row col hr hc => ?_⟩
    have hcell : t.accCell tile row col = (s.accClear o).accCell tile row col :=
      congrArg (fun a : Tbl Word => a.getD (accKey tile row col) 0) hacc
    rw [hcell]
    exact accClear_cells hrows hcols tile hr hc
  · subst htile
    have hexec := exec_millPass hg ho mismatch
    have hop := find_granted ho o.tile
    obtain ⟨ops, hgranted⟩ := granted_eq s o.tile id
    rw [hgranted] at hop hexec
    intro mb nb ks prior r0 c0 hfree hup hr0 hc0
    by_cases hturn : o.turn = 0
    · rw [inTurn, if_pos hturn] at hop hexec
      obtain ⟨p, hp⟩ := millRun_cells (s := { s with ops := ops }) (o := { o with turn := 16, granted := 0 }) rfl rfl hred hfree hup hop
        hr0 hc0
      exact ⟨_, p, hexec, hp⟩
    · rw [inTurn, if_neg hturn] at hop hexec
      obtain ⟨p, hp⟩ := millRun_cells (s := { s with ops := ops }) rfl rfl hred hfree hup hop hr0 hc0
      exact ⟨_, p, hexec, hp⟩

end Sys2Proof.Kernels

/-! # Values as rational numbers (R104, R105, R116, R121) -/
namespace Sys2Proof.Kernels
open Sys2Proof Sys2Proof.Machine Sys2Proof.Laws

/-- The sign of a number. -/
def signOf (s : Bool) : ℚ := if s then -1 else 1

theorem ratOf_fin (s : Bool) (m : Nat) (e : Int) : ratOf (.fin s m e) = signOf s * (m * 2 ^ e) := mul_assoc _ _ _

@[simp] theorem abs_signOf (s : Bool) : |signOf s| = 1 := by
  cases s <;> simp [signOf]

theorem signOf_ne_zero (s : Bool) : signOf s ≠ 0 := abs_ne_zero.mp (abs_signOf s ▸ one_ne_zero)

theorem mag_nonneg (m : Nat) (e : Int) : (0 : ℚ) ≤ m * 2 ^ e := mul_nonneg m.cast_nonneg (zpow_nonneg (by norm_num) e)

theorem abs_ratOf (s : Bool) (m : Nat) (e : Int) : |ratOf (.fin s m e)| = m * 2 ^ e := by
  rw [ratOf_fin, abs_mul, abs_signOf, one_mul, abs_of_nonneg (mag_nonneg m e)]

theorem ratOf_eq_zero {s : Bool} {m : Nat} {e : Int} : ratOf (.fin s m e) = 0 ↔ m = 0 := by
  have h2 : (2 : ℚ) ^ e ≠ 0 := zpow_ne_zero e (by norm_num)
  rw [ratOf_fin]
  simp [signOf_ne_zero, h2]

@[simp] theorem ratOf_neg (x : FVal) : ratOf x.neg = -ratOf x := by
  cases x with
  | fin s m e =>
    rw [FVal.neg, ratOf_fin, ratOf_fin]
    cases s <;> simp [signOf]
  | _ => simp [ratOf, FVal.neg]

theorem ratOf_pos {s : Bool} {m : Nat} {e : Int} (hm : m ≠ 0) : 0 < ratOf (.fin s m e) ↔ s = false := by
  have hmag : (0 : ℚ) < m * 2 ^ e := mul_pos (Nat.cast_pos.mpr (Nat.pos_of_ne_zero hm)) (zpow_pos (by norm_num) e)
  rw [ratOf_fin]
  cases s with
  | false => simpa [signOf] using hmag
  | true => simpa [signOf] using hmag.le

/-! ### Sums on a grid -/

/-- No non-zero term has bits below a grid. -/
def OnGrid (g : Int) : FVal → Prop
  | .fin _ m e => m = 0 ∨ g ≤ e
  | _ => True

/-- The terms on a grid, counted in units of the grid, are the sum of the values. -/
theorem sumOn_rat {g : Int} {l : List FVal} (h : ∀ x ∈ l, OnGrid g x) : (sumOn g l : ℚ) * 2 ^ g = (l.map ratOf).sum := by
  induction l with
  | nil => simp [sumOn]
  | cons x l ih =>
    simp only [List.forall_mem_cons] at h
    have ih := ih h.2
    rw [List.map_cons, List.sum_cons, ← ih]
    cases x with
    | fin s m e =>
      have hterm : ((m * 2 ^ (e - g).toNat : Nat) : ℚ) * 2 ^ g = m * 2 ^ e := by
        rcases h.1 with rfl | hge
        · simp
        · rw [Nat.cast_mul, Nat.cast_pow, ← zpow_natCast, Int.toNat_of_nonneg (by omega), mul_assoc, Nat.cast_ofNat,
            ← zpow_add₀ (by norm_num), Int.sub_add_cancel]
      rw [sumOn, Int.cast_add, add_mul, ratOf_fin, ← hterm]
      cases s <;> simp [signOf]
    | _ => simp [sumOn, ratOf]

theorem minExp_le {l : List FVal} {s : Bool} {m : Nat} {e : Int} (h : .fin s m e ∈ l) (hm : m ≠ 0) :
    ∃ g, minExp l = some g ∧ g ≤ e := by
  induction l with
  | nil => exact absurd h List.not_mem_nil
  | cons x l ih =>
    rcases List.mem_cons.mp h with rfl | h
    · rw [minExp, if_neg hm]
      cases minExp l with
      | none => exact ⟨e, rfl, le_refl e⟩
      | some d => exact ⟨min e d, rfl, min_le_left e d⟩
    · obtain ⟨g, hg, hle⟩ := ih h
      cases x with
      | fin t n d =>
        rw [minExp, hg]
        split
        · exact ⟨g, rfl, hle⟩
        · exact ⟨min d g, rfl, (min_le_right d g).trans hle⟩
      | _ => exact ⟨g, hg, hle⟩

/-- The lowest exponent of some terms is a grid of theirs. -/
theorem onGrid_minExp {l : List FVal} {x : FVal} (h : x ∈ l) : OnGrid ((minExp l).getD 0) x := by
  cases x with
  | fin s m e =>
    by_cases hm : m = 0
    · exact .inl hm
    · obtain ⟨g, hg, hle⟩ := minExp_le h hm
      rw [hg]
      exact .inr hle
  | _ => trivial

/-- The comparison of finite values is that of the numbers. -/
theorem lt_fin (s : Bool) (m : Nat) (e : Int) (t : Bool) (n : Nat) (d : Int) :
    FVal.lt (.fin s m e) (.fin t n d) = true ↔ ratOf (.fin s m e) < ratOf (.fin t n d) := by
  have hx : (sumOn (min e d) [.fin s m e] : ℚ) * 2 ^ min e d = ratOf (.fin s m e) := by
    rw [sumOn_rat fun x hx => ?_, List.map_singleton, List.sum_singleton]
    rw [List.mem_singleton.mp hx]
    exact .inr (min_le_left e d)
  have hy : (sumOn (min e d) [.fin t n d] : ℚ) * 2 ^ min e d = ratOf (.fin t n d) := by
    rw [sumOn_rat fun x hx => ?_, List.map_singleton, List.sum_singleton]
    rw [List.mem_singleton.mp hx]
    exact .inr (min_le_right e d)
  rw [← hx, ← hy, mul_lt_mul_iff_left₀ (zpow_pos (by norm_num) _), Int.cast_lt]
  simp [FVal.lt]

theorem lt_fin_false (s : Bool) (m : Nat) (e : Int) (t : Bool) (n : Nat) (d : Int) :
    FVal.lt (.fin s m e) (.fin t n d) = false ↔ ratOf (.fin t n d) ≤ ratOf (.fin s m e) := by
  rw [← Bool.not_eq_true, lt_fin, not_lt]

/-- A word within a bound of a value is finite, and differs from it by no more than the bound (R127). -/
theorem near_of_withinBound {y a b : FVal} (h : withinBound y a b = true) :
    (∃ t n d, y = .fin t n d) ∧ |ratOf y - ratOf a| ≤ |ratOf b| := by
  cases y with
  | fin t n d =>
    refine ⟨⟨t, n, d, rfl⟩, ?_⟩
    have hle : (sumOn (grid3 (.fin t n d) a b) [.fin t n d, a.neg]).natAbs ≤ (sumOn (grid3 (.fin t n d) a b) [b]).natAbs :=
      of_decide_eq_true h
    have hneg : OnGrid (grid3 (.fin t n d) a b) a.neg := by
      have ha : OnGrid (grid3 (.fin t n d) a b) a := onGrid_minExp (by simp)
      cases a <;> exact ha
    have hdiff : (sumOn (grid3 (.fin t n d) a b) [.fin t n d, a.neg] : ℚ) * 2 ^ grid3 (.fin t n d) a b = ratOf (.fin t n d) - ratOf a := by
      rw [sumOn_rat]
      · simp [sub_eq_add_neg]
      · simp only [List.forall_mem_cons, List.not_mem_nil, false_imp_iff, implies_true, and_true]
        exact ⟨onGrid_minExp (by simp), hneg⟩
    have hbound : (sumOn (grid3 (.fin t n d) a b) [b] : ℚ) * 2 ^ grid3 (.fin t n d) a b = ratOf b := by
      rw [sumOn_rat]
      · simp
      · simp only [List.forall_mem_cons, List.not_mem_nil, false_imp_iff, implies_true, and_true]
        exact onGrid_minExp (by simp)
    rw [← hdiff, ← hbound, abs_mul, abs_mul, ← Int.cast_abs, ← Int.cast_abs]
    refine mul_le_mul_of_nonneg_right ?_ (abs_nonneg _)
    rw [Int.cast_le, Int.abs_eq_natAbs, Int.abs_eq_natAbs]
    exact Int.ofNat_le.mpr hle
  | _ => exact absurd h Bool.false_ne_true

/-! ### Binades -/

/-- The exponent of the highest bit is the binade of the number. -/
theorem log_ratOf {m : Nat} (hm : m ≠ 0) (s : Bool) (e : Int) : Int.log 2 |ratOf (.fin s m e)| = topExp m e := by
  have h2 : (1 : ℚ) < 2 := by norm_num
  have hpos : (0 : ℚ) < 2 ^ e := zpow_pos (by norm_num) e
  have hlo : ((2 ^ Nat.log2 m : Nat) : ℚ) ≤ m := Nat.cast_le.mpr (Nat.log2_self_le hm)
  have hhi : (m : ℚ) < (2 ^ (Nat.log2 m + 1) : Nat) := Nat.cast_lt.mpr Nat.lt_log2_self
  rw [abs_ratOf]
  have hmag : (0 : ℚ) < m * 2 ^ e := mul_pos (Nat.cast_pos.mpr (Nat.pos_of_ne_zero hm)) hpos
  apply le_antisymm
  · refine Int.lt_add_one_iff.mp ((Int.lt_zpow_iff_log_lt Nat.one_lt_two hmag).mp ?_)
    rw [topExp, show (Nat.log2 m : Int) + e + 1 = ((Nat.log2 m + 1 : Nat) : Int) + e by push_cast; ring, Nat.cast_ofNat,
      zpow_add₀ (by norm_num), zpow_natCast]
    push_cast at hhi
    exact mul_lt_mul_of_pos_right hhi hpos
  · refine (Int.zpow_le_iff_le_log Nat.one_lt_two hmag).mp ?_
    rw [topExp, Nat.cast_ofNat, zpow_add₀ (by norm_num), zpow_natCast]
    push_cast at hlo
    exact mul_le_mul_of_nonneg_right hlo hpos.le

/-- A number reaches a power of two exactly when its highest bit does. -/
theorem le_topExp {m : Nat} (hm : m ≠ 0) (s : Bool) (e k : Int) : k ≤ topExp m e ↔ 2 ^ k ≤ |ratOf (.fin s m e)| := by
  rw [← log_ratOf hm s, ← Int.zpow_le_iff_le_log Nat.one_lt_two (abs_pos.mpr (mt ratOf_eq_zero.mp hm)), Nat.cast_ofNat]

theorem topExp_lt {m : Nat} (hm : m ≠ 0) (s : Bool) (e k : Int) : topExp m e < k ↔ |ratOf (.fin s m e)| < 2 ^ k := by
  rw [← not_le, le_topExp hm s, not_le]

end Sys2Proof.Kernels

/-! # F32 words and their values (R104, R105, R114 to R117) -/
namespace Sys2Proof.Kernels
open Sys2Proof Sys2Proof.Machine Sys2Proof.Laws

/-! ### Codes -/

/-- The value of a sign and a magnitude code (R105). -/
theorem val_signed {c : Nat} (hc : c < 2 ^ 31) (neg : Bool) : f32.val (f32.signed neg c) =
    if c ≤ 0x7F7FFFFF then
      if c / 2 ^ 23 = 0 then .fin neg (c % 2 ^ 23) (-149) else .fin neg (2 ^ 23 + c % 2 ^ 23) (-149 + ((c / 2 ^ 23 : Nat) - 1))
    else if c = 0x7F800000 then .inf neg else .nan := by
  have hsign : decide (f32.signed neg c / 2 ^ 31 % 2 = 1) = neg := by
    unfold Fmt.signed
    cases neg <;> simp [f32] <;> omega
  have hmag : f32.signed neg c % 2 ^ 31 = c := by
    unfold Fmt.signed
    cases neg <;> simp [f32] <;> omega
  unfold Fmt.val
  simp only [show f32.ebits + f32.fbits = 31 from rfl, hmag, hsign, show f32.grid = -149 from rfl, show f32.inf = some 0x7F800000 from rfl,
    Option.some.injEq]
  rfl

theorem val32_ofNat {neg : Bool} {c : Nat} (hc : c < 2 ^ 31) : val32 (BitVec.ofNat 32 (f32.signed neg c)) = f32.val (f32.signed neg c) := by
  have hlt : f32.signed neg c < 2 ^ 32 := by
    unfold Fmt.signed
    cases neg <;> simp [f32] <;> omega
  rw [val32, BitVec.toNat_ofNat, Nat.mod_eq_of_lt hlt]

/-- A word is its sign and its magnitude code. -/
theorem val32_eq (x : Word) : val32 x = f32.val (f32.signed (x.getLsbD 31) (x.extractLsb' 0 31).toNat) := by
  have hmag : (x.extractLsb' 0 31).toNat = x.toNat % 2 ^ 31 := by simp [BitVec.extractLsb'_toNat]
  have hsign : x.getLsbD 31 = decide (x.toNat / 2 ^ 31 % 2 = 1) := by
    rw [BitVec.getLsbD, Nat.testBit_eq_decide_div_mod_eq]
  have hlt := x.isLt
  rw [val32, hmag, hsign]
  congr 1
  by_cases h : x.toNat / 2 ^ 31 % 2 = 1
  · rw [decide_eq_true h]
    show x.toNat = 2 ^ 31 + x.toNat % 2 ^ 31
    omega
  · rw [decide_eq_false h]
    show x.toNat = x.toNat % 2 ^ 31
    omega

/-- What a word can be: a NaN, an infinity, a zero, or a number of at most 24 bits on the grid of the subnormals. -/
theorem val32_cases (x : Word) : val32 x = .nan ∨ (val32 x = .inf (x.getLsbD 31) ∧ x.extractLsb' 0 31 = 0x7F800000) ∨
    ∃ m e, val32 x = .fin (x.getLsbD 31) m e ∧ (m = 0 ↔ x.extractLsb' 0 31 = 0) ∧ m < 2 ^ 24 ∧ -149 ≤ e ∧ e ≤ 104 := by
  have hzero : (x.extractLsb' 0 31 = 0) ↔ (x.extractLsb' 0 31).toNat = 0 := by
    rw [← BitVec.toNat_inj]
    rfl
  have hinf : (x.extractLsb' 0 31).toNat = 0x7F800000 → x.extractLsb' 0 31 = 0x7F800000 := fun h => BitVec.eq_of_toNat_eq h
  rw [val32_eq, val_signed (x.extractLsb' 0 31).isLt, hzero]
  generalize (x.extractLsb' 0 31).toNat = c at hinf ⊢
  split
  · refine .inr (.inr ?_)
    split
    · exact ⟨_, _, rfl, by omega, by omega, by omega, by omega⟩
    · exact ⟨_, _, rfl, by omega, by omega, by omega, by omega⟩
  · split
    · next h => exact .inr (.inl ⟨rfl, hinf h⟩)
    · exact .inl rfl

/-- The value of a finite code: h steps of the exponent above the subnormal grid, and n units of its last place there. -/
theorem val_code {h n : Nat} (hn : n ≤ 2 ^ 24) (hnorm : h = 0 ∨ 2 ^ 23 ≤ n) (hmax : h * 2 ^ 23 + n ≤ 0x7F7FFFFF) (neg : Bool) :
    ∃ m e, f32.val (f32.signed neg (h * 2 ^ 23 + n)) = .fin neg m e ∧ (m * 2 ^ e : ℚ) = n * 2 ^ ((h : Int) - 149) := by
  rw [val_signed (by omega), if_pos hmax]
  by_cases hsub : n < 2 ^ 23
  · obtain rfl : h = 0 := by omega
    rw [if_pos (by omega), show (0 * 2 ^ 23 + n) % 2 ^ 23 = n by omega]
    exact ⟨n, -149, rfl, by norm_num⟩
  · rw [if_neg (by omega)]
    refine ⟨_, _, rfl, ?_⟩
    by_cases hcarry : n = 2 ^ 24
    · subst hcarry
      rw [show (h * 2 ^ 23 + 2 ^ 24) % 2 ^ 23 = 0 by omega, show (h * 2 ^ 23 + 2 ^ 24) / 2 ^ 23 = h + 2 by omega,
        show (-149 + (((h + 2 : Nat) : Int) - 1)) = (h : Int) - 149 + 1 by push_cast; ring, zpow_add_one₀ (by norm_num)]
      push_cast
      ring
    · rw [show 2 ^ 23 + (h * 2 ^ 23 + n) % 2 ^ 23 = n by omega, show (h * 2 ^ 23 + n) / 2 ^ 23 = h + 1 by omega,
        show (-149 + (((h + 1 : Nat) : Int) - 1)) = (h : Int) - 149 by push_cast; ring]

/-! ### Rounding to the nearest (R114) -/

/-- The weight of the last place of an F32 result: 23 places below the highest bit, and no finer than the subnormal grid. -/
def lastPlace (m : Nat) (e : Int) : Int := max (topExp m e - 23) (-149)

theorem ulps_eq {m : Nat} (hm : m ≠ 0) (s : Bool) (e : Int) : ulps 1 (ratOf (.fin s m e)) = 2 ^ lastPlace m e := by
  unfold ulps lastPlace
  rw [log_ratOf hm]
  by_cases h : topExp m e < -126
  · rw [if_pos ((topExp_lt hm s e _).mp h), max_eq_right (by omega)]
  · rw [if_neg (mt (topExp_lt hm s e _).mpr h), max_eq_left (by omega), one_mul]

/-- A number rounded to the nearest multiple of a power of two is off by half of it at most. -/
theorem roundAt_near (s : Bool) (m : Nat) (e g : Int) : |((roundAt 0 s m e g).1 : ℚ) * 2 ^ g - m * 2 ^ e| ≤ 2 ^ g / 2 := by
  have hg : (0 : ℚ) < 2 ^ g := zpow_pos (by norm_num) g
  have he : (0 : ℚ) < 2 ^ e := zpow_pos (by norm_num) e
  unfold roundAt
  split
  · next hge =>
    have hexact : ((m * 2 ^ (e - g).toNat : Nat) : ℚ) * 2 ^ g = m * 2 ^ e := by
      rw [Nat.cast_mul, Nat.cast_pow, ← zpow_natCast, Int.toNat_of_nonneg (by omega), mul_assoc, Nat.cast_ofNat,
        ← zpow_add₀ (by norm_num), Int.sub_add_cancel]
    rw [hexact, sub_self, abs_zero]
    positivity
  · next hlt =>
    have hk : (2 : ℚ) ^ g = (2 ^ (g - e).toNat : Nat) * 2 ^ e := by
      rw [Nat.cast_pow, ← zpow_natCast, Int.toNat_of_nonneg (by omega), Nat.cast_ofNat, ← zpow_add₀ (by norm_num), Int.sub_add_cancel]
    obtain ⟨hexact, -, hnear, -⟩ := roundingPicksTheRightNeighbour 0 s m (g - e).toNat
    generalize roundShift 0 s m (g - e).toNat = r at hexact hnear
    generalize 2 ^ (g - e).toNat = p at hexact hnear hk
    rw [hk, ← mul_assoc, ← sub_mul, abs_mul, abs_of_pos he, mul_div_right_comm]
    refine mul_le_mul_of_nonneg_right ?_ he.le
    rw [abs_le]
    cases hr : r.2 with
    | false =>
      have : (r.1 : ℚ) * p = m := mod_cast hexact.mp hr
      have hp : (0 : ℚ) ≤ p := p.cast_nonneg
      constructor <;> linarith
    | true =>
      obtain ⟨⟨hle, hge⟩, -⟩ := hnear hr rfl
      have h1 : (2 : ℚ) * (r.1 * p) ≤ 2 * m + p := mod_cast hle
      have h2 : (2 : ℚ) * m ≤ 2 * (r.1 * p) + p := mod_cast hge
      constructor <;> linarith

theorem roundAt_exact {e g : Int} (h : g ≤ e) (mode : BitVec 2) (s : Bool) (m : Nat) :
    ((roundAt mode s m e g).1 : ℚ) * 2 ^ g = m * 2 ^ e := by
  rw [roundAt, if_pos h, Nat.cast_mul, Nat.cast_pow, ← zpow_natCast, Int.toNat_of_nonneg (by omega), mul_assoc, Nat.cast_ofNat,
    ← zpow_add₀ (by norm_num), Int.sub_add_cancel]

theorem roundCode_f32 (s : Bool) (m : Nat) (e : Int) :
    (f32.roundCode 0 s m e).1 = (lastPlace m e + 149).toNat * 2 ^ 23 + (roundAt 0 s m e (lastPlace m e)).1 := by
  have hlast : max (topExp m e - f32.fbits) f32.grid = lastPlace m e := rfl
  rw [Fmt.roundCode]
  dsimp only
  rw [hlast, show f32.grid = -149 from rfl, sub_neg_eq_add, show f32.fbits = 23 from rfl]

section
variable {m : Nat} (hm : m ≠ 0) (s : Bool) (e : Int)
include hm

/-- The rounded significand has at most 24 bits, or is 2^24 by a carry; above the subnormal grid it has no fewer. -/
theorem roundAt_bits : (roundAt 0 s m e (lastPlace m e)).1 ≤ 2 ^ 24 ∧
    (lastPlace m e = -149 ∨ 2 ^ 23 ≤ (roundAt 0 s m e (lastPlace m e)).1) := by
  have hg : (0 : ℚ) < 2 ^ lastPlace m e := zpow_pos (by norm_num) _
  have hnear := abs_le.mp (roundAt_near s m e (lastPlace m e))
  generalize (roundAt 0 s m e (lastPlace m e)).1 = r at hnear
  have htop := (topExp_lt hm s e (topExp m e + 1)).mp (by omega)
  have hbot := (le_topExp hm s e (topExp m e)).mp le_rfl
  rw [abs_ratOf] at htop hbot
  constructor
  · have hle : (2 : ℚ) ^ (topExp m e + 1) ≤ 2 ^ 24 * 2 ^ lastPlace m e := by
      rw [← zpow_natCast, ← zpow_add₀ (by norm_num)]
      refine zpow_le_zpow_right₀ (by norm_num) ?_
      unfold lastPlace
      push_cast
      omega
    have hlt : (r : ℚ) * 2 ^ lastPlace m e < 16777217 * 2 ^ lastPlace m e := by linarith
    have hr : (r : ℚ) < 16777217 := lt_of_mul_lt_mul_right hlt hg.le
    have : r < 16777217 := mod_cast hr
    omega
  · by_cases hsub : lastPlace m e = -149
    · exact .inl hsub
    · refine .inr ?_
      have heq : (2 : ℚ) ^ topExp m e = 2 ^ 23 * 2 ^ lastPlace m e := by
        rw [← zpow_natCast, ← zpow_add₀ (by norm_num)]
        congr 1
        unfold lastPlace at hsub ⊢
        push_cast
        omega
      have hlt : (8388607 : ℚ) * 2 ^ lastPlace m e < r * 2 ^ lastPlace m e := by linarith
      have hr : (8388607 : ℚ) < r := lt_of_mul_lt_mul_right hlt hg.le
      have : 8388607 < r := mod_cast hr
      omega

/-- A number no greater than the largest finite one does not round beyond it. -/
theorem code_finite (hmax : |ratOf (.fin s m e)| ≤ (2 ^ 24 - 1) * 2 ^ 104) :
    (lastPlace m e + 149).toNat * 2 ^ 23 + (roundAt 0 s m e (lastPlace m e)).1 ≤ 0x7F7FFFFF := by
  obtain ⟨hbits, -⟩ := roundAt_bits hm s e
  have htop : topExp m e < 128 := (topExp_lt hm s e 128).mpr (hmax.trans_lt (by norm_num))
  by_cases hlast : lastPlace m e = 104
  · have hnear := abs_le.mp (roundAt_near s m e (lastPlace m e))
    rw [abs_ratOf] at hmax
    rw [hlast] at hnear ⊢
    generalize (roundAt 0 s m e 104).1 = r at hnear
    have h104 : ((2 : ℚ) ^ (104 : Int)) = 2 ^ 104 := by norm_num
    rw [h104] at hnear
    have hlt : (r : ℚ) * 2 ^ 104 < 16777216 * 2 ^ 104 := by linarith
    have hr : (r : ℚ) < 16777216 := lt_of_mul_lt_mul_right hlt (by norm_num)
    have : r < 16777216 := mod_cast hr
    omega
  · have : lastPlace m e ≤ 103 := by
      unfold lastPlace at hlast ⊢
      omega
    omega

theorem deliver_f32 (h : (f32.roundCode 0 s m e).1 ≤ f32.maxCode) :
    (f32.deliver 0 (.fin s m e)).1 = f32.signed s (f32.roundCode 0 s m e).1 := by
  obtain ⟨k, rfl⟩ := Nat.exists_eq_succ_of_ne_zero hm
  rw [Fmt.deliver]
  dsimp only
  rw [if_pos h]
  exact nofun

/-- A finite result: rounded to the nearest multiple of the last place (R114 to R117). -/
theorem val_round32 (hmax : |ratOf (.fin s m e)| ≤ (2 ^ 24 - 1) * 2 ^ 104) :
    ∃ n d, val32 (round32 0 (.fin s m e)).1 = .fin s n d ∧
      (n * 2 ^ d : ℚ) = (roundAt 0 s m e (lastPlace m e)).1 * 2 ^ lastPlace m e := by
  have hfin := code_finite hm s e hmax
  obtain ⟨hbits, hnorm⟩ := roundAt_bits hm s e
  have hcode := roundCode_f32 s m e
  have hdeliver := deliver_f32 hm s e (hcode.trans_le hfin)
  obtain ⟨n, d, hval, hrat⟩ := val_code hbits (hnorm.imp_left fun h => by omega) hfin s
  refine ⟨n, d, ?_, ?_⟩
  · rw [round32, hdeliver, hcode, val32_ofNat (by omega), hval]
  · rw [hrat]
    congr 2
    have : -149 ≤ lastPlace m e := le_max_right _ _
    omega

/-- A finite result is off by half a unit in the last place at most. -/
theorem round32_near (hmax : |ratOf (.fin s m e)| ≤ (2 ^ 24 - 1) * 2 ^ 104) :
    ∃ n d, val32 (round32 0 (.fin s m e)).1 = .fin s n d ∧
      |ratOf (.fin s n d) - ratOf (.fin s m e)| ≤ ulps 1 (ratOf (.fin s m e)) / 2 := by
  obtain ⟨n, d, hval, hrat⟩ := val_round32 hm s e hmax
  refine ⟨n, d, hval, ?_⟩
  rw [ulps_eq hm, ratOf_fin, ratOf_fin, ← mul_sub, abs_mul, abs_signOf, one_mul, hrat]
  exact roundAt_near s m e _

/-- A number of at most 24 bits on the grid of the subnormals is delivered as it is. -/
theorem round32_exact (hmax : |ratOf (.fin s m e)| ≤ (2 ^ 24 - 1) * 2 ^ 104) (hbits : topExp m e - 23 ≤ e) (hgrid : -149 ≤ e) :
    ∃ n d, val32 (round32 0 (.fin s m e)).1 = .fin s n d ∧ ratOf (.fin s n d) = ratOf (.fin s m e) := by
  obtain ⟨n, d, hval, hrat⟩ := val_round32 hm s e hmax
  refine ⟨n, d, hval, ?_⟩
  rw [ratOf_fin, ratOf_fin, hrat, roundAt_exact (show lastPlace m e ≤ e from max_le hbits hgrid)]

end

end Sys2Proof.Kernels

/-! # The approximations of the special functions (R127; log entry 11) -/
namespace Sys2Proof.Kernels
open Sys2Proof Sys2Proof.Machine Sys2Proof.Laws

/-! ### Integers and fixed point -/

/-- A signed magnitude as an integer. -/
def signedInt (s : Bool) (m : Nat) : Int := if s then -(m : Int) else m

theorem cast_signedInt (s : Bool) (m : Nat) : (signedInt s m : ℚ) = signOf s * m := by
  cases s <;> simp [signedInt, signOf]

theorem ratOf_shifted {e : Int} {k : Nat} (s : Bool) (m : Nat) (hk : (k : Int) = e) : ratOf (.fin s m e) = signedInt s m * 2 ^ k := by
  rw [ratOf_fin, cast_signedInt, ← hk, zpow_natCast, mul_assoc]

theorem ratOf_split {e : Int} {k : Nat} (s : Bool) (m : Nat) (hk : (k : Int) = -e) : ratOf (.fin s m e) = signedInt s m / (2 ^ k : Nat) := by
  rw [ratOf_fin, cast_signedInt, show e = -(k : Int) by omega, zpow_neg, zpow_natCast, ← mul_assoc, div_eq_mul_inv]
  push_cast
  rfl

/-- `intOf` finds the integer that a value equals. -/
theorem intOf_eq_some {s : Bool} {m : Nat} {e n : Int} : intOf s m e = some n ↔ ratOf (.fin s m e) = n := by
  have hsigned : ∀ k : Nat, (if s then -((k : Nat) : Int) else ((k : Nat) : Int)) = signedInt s k := fun _ => rfl
  unfold intOf
  simp only [hsigned]
  by_cases he : 0 ≤ e
  · rw [if_pos he, Option.some.injEq, ratOf_shifted s m (Int.toNat_of_nonneg he), ← Int.cast_inj (α := ℚ), cast_signedInt, cast_signedInt]
    push_cast
    rw [mul_assoc]
  · have hk : (((-e).toNat : Nat) : Int) = -e := Int.toNat_of_nonneg (by omega)
    have hp : ((2 ^ (-e).toNat : Nat) : ℚ) ≠ 0 := Nat.cast_ne_zero.mpr (Nat.two_pow_pos _).ne'
    rw [if_neg he, ratOf_split s m hk]
    generalize 2 ^ (-e).toNat = p at hp ⊢
    split
    · next hdvd =>
      obtain ⟨q, rfl⟩ := Nat.dvd_of_mod_eq_zero hdvd
      have hp0 : 0 < p := Nat.pos_of_ne_zero fun h => hp (by rw [h, Nat.cast_zero])
      rw [Nat.mul_div_cancel_left q hp0, Option.some.injEq, ← Int.cast_inj (α := ℚ), cast_signedInt, cast_signedInt]
      push_cast
      rw [mul_left_comm, mul_div_cancel_left₀ _ hp]
    · next hno =>
      refine ⟨nofun, fun h => absurd ?_ hno⟩
      rw [div_eq_iff hp] at h
      have hint : signedInt s m = n * p := mod_cast h
      have hdvd : (p : Int) ∣ m := by
        have : (p : Int) ∣ signedInt s m := ⟨n, by rw [hint, mul_comm]⟩
        cases s
        · exact this
        · exact (Int.dvd_neg).mp this
      exact Nat.mod_eq_zero_of_dvd (Int.natCast_dvd_natCast.mp hdvd)

theorem intOf_eq_none {s : Bool} {m : Nat} {e : Int} : intOf s m e = none ↔ ∀ n : Int, ratOf (.fin s m e) ≠ n := by
  rw [Option.eq_none_iff_forall_ne_some]
  exact forall_congr' fun n => not_congr intOf_eq_some

/-- Twice a value. -/
theorem ratOf_double (s : Bool) (m : Nat) (e : Int) : ratOf (.fin s m (e + 1)) = 2 * ratOf (.fin s m e) := by
  rw [ratOf_fin, ratOf_fin, zpow_add_one₀ (by norm_num)]
  ring

theorem fxOne_pos : 0 < fxOne := Nat.two_pow_pos 128

theorem cast_fxOne : (fxOne : ℚ) = 2 ^ 128 := by
  rw [fxOne]
  push_cast
  rfl

/-- A value in fixed point is rounded down. -/
theorem toFixed_eq (s : Bool) (m : Nat) (e : Int) : toFixed s m e = ⌊ratOf (.fin s m e) * fxOne⌋ := by
  have hscale : ratOf (.fin s m e) * fxOne = ratOf (.fin s m (e + 128)) := by
    rw [cast_fxOne, ratOf_fin, ratOf_fin, zpow_add₀ (by norm_num)]
    push_cast
    ring
  have hsigned : (if s then -(m : Int) else m) = signedInt s m := rfl
  rw [hscale]
  unfold toFixed
  dsimp only
  rw [hsigned]
  split
  · next h =>
    rw [ratOf_shifted s m (Int.toNat_of_nonneg h), show ((2 : ℚ) ^ (e + 128).toNat) = ((2 ^ (e + 128).toNat : Int) : ℚ) by push_cast; rfl,
      ← Int.cast_mul, Int.floor_intCast]
  · next h =>
    rw [ratOf_split s m (k := (-(e + 128)).toNat) (Int.toNat_of_nonneg (by omega)), Rat.floor_intCast_div_natCast,
      Int.fdiv_eq_ediv_of_nonneg _ (by positivity)]
    push_cast
    rfl

/-- A fixed-point magnitude as a value. -/
theorem fixed_le {n b : Nat} (h : n ≤ b * fxOne) (s : Bool) : |ratOf (.fin s n (-128))| ≤ b := by
  have hle : (n : ℚ) ≤ b * 2 ^ 128 := by
    rw [← cast_fxOne]
    exact_mod_cast h
  rw [abs_ratOf, zpow_neg, ← div_eq_mul_inv, div_le_iff₀ (by positivity)]
  exact_mod_cast hle

/-! ### Powers of two -/

theorem expSum_mono {t t' a a' : Nat} (ht : t ≤ t') (ha : a ≤ a') (k : Nat) : expSum t k a ≤ expSum t' k a' := by
  induction k generalizing a a' with
  | zero => exact ha
  | succ k ih =>
    refine ih (Nat.add_le_add_left ?_ _)
    exact Nat.div_le_div_right (Nat.div_le_div_right (Nat.mul_le_mul ht ha))

theorem expSum_pos (t : Nat) {a : Nat} (ha : 0 < a) (k : Nat) : 0 < expSum t k a := by
  induction k generalizing a with
  | zero => exact ha
  | succ k ih => exact ih (Nat.add_pos_left fxOne_pos _)

/-- The series stays below 2 on the unit interval. -/
theorem expSum_le_two : expSum fxLn2 40 fxOne ≤ 2 * fxOne := by decide +kernel

/-- It stays below the largest F32 number's significand, doubled, up to the operand next to 128. -/
theorem expSum_le_max : expSum ((2 ^ 128 - 2 ^ 111) * fxLn2 / fxOne) 40 fxOne ≤ 16777215 * 2 ^ 105 := by decide +kernel

theorem expSum_zero : expSum 0 40 fxOne = fxOne := by decide +kernel

/-- 2^x of an integer is exact. -/
theorem exp2Fixed_int (k : Int) : exp2Fixed (k * fxOne) = .fin false fxOne (k - 128) := by
  unfold exp2Fixed
  dsimp only
  rw [Int.mul_fdiv_cancel k (Int.ofNat_ne_zero.mpr fxOne_pos.ne'), Int.sub_self, Int.toNat_zero, Nat.zero_mul, Nat.zero_div, expSum_zero]

/-- 2^x as the model computes it below 128: not zero, and no greater than the largest finite number. -/
theorem exp2Fixed_bound {x : Int} (h : x ≤ 128 * fxOne - 2 ^ 111) :
    ∃ n d, exp2Fixed x = .fin false n d ∧ n ≠ 0 ∧ |ratOf (.fin false n d)| ≤ (2 ^ 24 - 1) * 2 ^ 104 := by
  have hF : (0 : Int) < fxOne := Int.natCast_pos.mpr fxOne_pos
  refine ⟨_, _, rfl, (expSum_pos _ fxOne_pos 40).ne', ?_⟩
  rw [abs_ratOf, Int.fdiv_eq_ediv_of_nonneg _ hF.le]
  have hdiv : x / fxOne * fxOne + x % fxOne = x := Int.ediv_mul_add_emod x fxOne
  have hmod0 := Int.emod_nonneg x hF.ne'
  have hmodlt := Int.emod_lt_of_pos x hF
  have hf : x - x / fxOne * fxOne = x % fxOne := by omega
  have hk : x / fxOne ≤ 127 := Int.le_of_lt_add_one (Int.ediv_lt_of_lt_mul hF (h.trans_lt (sub_lt_self _ (by norm_num))))
  rw [hf]
  by_cases htop : x / fxOne = 127
  · have hfrac : (x % fxOne).toNat ≤ 2 ^ 128 - 2 ^ 111 := by
      rw [htop] at hdiv
      have : (fxOne : Int) = 2 ^ 128 := rfl
      omega
    have hsum : (expSum ((x % fxOne).toNat * fxLn2 / fxOne) 40 fxOne : ℚ) ≤ 16777215 * 2 ^ 105 := by
      have := (expSum_mono (Nat.div_le_div_right (c := fxOne) (Nat.mul_le_mul_right fxLn2 hfrac)) le_rfl 40).trans expSum_le_max
      exact_mod_cast this
    rw [htop, show (127 : Int) - 128 = -1 by norm_num, zpow_neg_one, ← div_eq_mul_inv, div_le_iff₀ (by norm_num)]
    calc _ ≤ _ := hsum
      _ = _ := by norm_num
  · have hfrac : (x % fxOne).toNat * fxLn2 / fxOne ≤ fxLn2 := by
      refine Nat.div_le_of_le_mul (Nat.mul_le_mul_right _ ?_)
      omega
    have hsum : (expSum ((x % fxOne).toNat * fxLn2 / fxOne) 40 fxOne : ℚ) ≤ 2 * 2 ^ 128 := by
      rw [← cast_fxOne]
      exact_mod_cast (expSum_mono hfrac le_rfl 40).trans expSum_le_two
    have hpow : (2 : ℚ) ^ (x / fxOne - 128) ≤ 2 ^ (-2 : Int) := zpow_le_zpow_right₀ (by norm_num) (by omega)
    calc _ ≤ (2 * 2 ^ 128 : ℚ) * 2 ^ (-2 : Int) := mul_le_mul hsum hpow (zpow_nonneg (by norm_num) _) (by norm_num)
      _ ≤ _ := by norm_num

/-! ### Logarithms -/

/-- With z no greater than a half the series stays below 2. -/
theorem atanhSum_le {z2 a : Nat} (hz : 4 * z2 ≤ fxOne) (ha : a ≤ 2 * fxOne) (k : Nat) : atanhSum z2 k a ≤ 2 * fxOne := by
  induction k generalizing a with
  | zero => exact ha
  | succ k ih =>
    refine ih ?_
    have hfirst : fxOne / (2 * k + 1) ≤ fxOne := Nat.div_le_self _ _
    have hrest : z2 * a / fxOne ≤ fxOne := by
      refine Nat.div_le_of_le_mul ?_
      nlinarith [Nat.zero_le z2, Nat.zero_le a]
    omega

/-- The logarithm of the significand, between 0 and 4 in fixed point. -/
def fracLog (m : Nat) : Nat :=
  let y := m * 2 ^ (128 - Nat.log2 m)
  let z := (y - fxOne) * fxOne / (y + fxOne)
  2 * (z * atanhSum (z * z / fxOne) 45 0 / fxOne) * fxLog2e / fxOne

theorem log2Fixed_eq (m : Nat) (e : Int) : log2Fixed m e =
    .fin (decide (topExp m e * fxOne + fracLog m < 0)) (topExp m e * fxOne + fracLog m).natAbs (-128) := rfl

theorem fracLog_le {m : Nat} (hm : m ≠ 0) (hbits : m < 2 ^ 24) : fracLog m ≤ 4 * fxOne := by
  have hl : Nat.log2 m ≤ 23 := Nat.le_of_lt_succ ((Nat.log2_lt hm).mpr hbits)
  have hy : m * 2 ^ (128 - Nat.log2 m) ≤ 2 * fxOne := by
    calc m * 2 ^ (128 - Nat.log2 m) ≤ 2 ^ (Nat.log2 m + 1) * 2 ^ (128 - Nat.log2 m) := Nat.mul_le_mul_right _ Nat.lt_log2_self.le
      _ = 2 * fxOne := by rw [← Nat.pow_add, fxOne, ← Nat.pow_succ']; congr 1; omega
  unfold fracLog
  dsimp only
  generalize m * 2 ^ (128 - Nat.log2 m) = y at hy
  have hz : 2 * ((y - fxOne) * fxOne / (y + fxOne)) ≤ fxOne := by
    refine (Nat.mul_div_le_mul_div_assoc _ _ _).trans (Nat.div_le_of_le_mul ?_)
    rw [← Nat.mul_assoc]
    exact Nat.mul_le_mul_right _ (by omega)
  generalize (y - fxOne) * fxOne / (y + fxOne) = z at hz
  have hz2 : 4 * (z * z / fxOne) ≤ fxOne := by
    refine (Nat.mul_div_le_mul_div_assoc _ _ _).trans (Nat.div_le_of_le_mul ?_)
    nlinarith
  have hsum := atanhSum_le hz2 (Nat.zero_le _) 45
  generalize atanhSum (z * z / fxOne) 45 0 = A at hsum
  have hln : 2 * (z * A / fxOne) ≤ 2 * fxOne := by
    refine Nat.mul_le_mul_left 2 (Nat.div_le_of_le_mul ?_)
    nlinarith
  refine Nat.div_le_of_le_mul ?_
  have hconst : fxLog2e ≤ 2 * fxOne := by decide
  nlinarith

/-- The logarithm of a power of two is exact. -/
theorem fracLog_pow {m : Nat} (hbits : m < 2 ^ 24) (hpow : m = 2 ^ Nat.log2 m) : fracLog m = 0 := by
  have hm : m ≠ 0 := fun h => absurd (hpow ▸ h) (Nat.two_pow_pos _).ne'
  have hl : Nat.log2 m ≤ 23 := Nat.le_of_lt_succ ((Nat.log2_lt hm).mpr hbits)
  have hy : m * 2 ^ (128 - Nat.log2 m) = fxOne := by
    calc m * 2 ^ (128 - Nat.log2 m) = 2 ^ Nat.log2 m * 2 ^ (128 - Nat.log2 m) := congrArg (· * _) hpow
      _ = fxOne := by rw [← Nat.pow_add, fxOne]; congr 1; omega
  simp only [fracLog, hy, Nat.sub_self, Nat.zero_mul, Nat.zero_div, Nat.mul_zero]

/-! ### Sines -/

theorem sinSum_bound {t2 a : Int} (ht0 : 0 ≤ t2) (ht : t2 ≤ 4 * fxOne) (ha0 : 0 ≤ a) (ha : a ≤ fxOne) (k : Nat) :
    0 ≤ sinSum t2 k a ∧ sinSum t2 k a ≤ fxOne := by
  have hF : (0 : Int) < fxOne := Int.natCast_pos.mpr fxOne_pos
  induction k generalizing a with
  | zero => exact ⟨ha0, ha⟩
  | succ k ih =>
    have hd : (6 : Int) ≤ (2 * k + 2) * (2 * k + 3) := by nlinarith [Int.natCast_nonneg k]
    have h0 : 0 ≤ t2 * a / fxOne / ((2 * k + 2) * (2 * k + 3)) := by positivity
    have h1 : t2 * a / fxOne ≤ 4 * a := Int.ediv_le_of_le_mul hF (by nlinarith)
    have h2 : t2 * a / fxOne / ((2 * k + 2) * (2 * k + 3)) ≤ a := Int.ediv_le_of_le_mul (by omega) (by nlinarith)
    exact ih (by omega) (by omega)

/-- An angle brought into the first quarter turn. -/
def foldedAngle (neg : Bool) (q : Int) : Int :=
  let q := if neg then q - fxOne else q
  if (fxOne : Int) < 2 * q then fxOne - q else q

/-- The sine of an angle of the first quarter turn. -/
def sineOf (q : Int) : Int :=
  let t := q * fxPi / fxOne
  t * sinSum (t * t / fxOne) 20 fxOne / fxOne

theorem sinPi_eq (x : Int) : sinPi x = .fin (decide ((fxOne : Int) ≤ x.fmod (2 * fxOne)))
    (sineOf (foldedAngle (decide ((fxOne : Int) ≤ x.fmod (2 * fxOne))) (x.fmod (2 * fxOne)))).natAbs (-128) := rfl

theorem foldedAngle_bound {q : Int} (h0 : 0 ≤ q) (h : q < 2 * fxOne) :
    0 ≤ foldedAngle (decide ((fxOne : Int) ≤ q)) q ∧ 2 * foldedAngle (decide ((fxOne : Int) ≤ q)) q ≤ fxOne := by
  unfold foldedAngle
  simp only [decide_eq_true_eq]
  split <;> split <;> omega

theorem sineOf_bound {q : Int} (h0 : 0 ≤ q) (h : 2 * q ≤ fxOne) : 0 ≤ sineOf q ∧ sineOf q ≤ 2 * fxOne := by
  have hF : (0 : Int) < fxOne := Int.natCast_pos.mpr fxOne_pos
  have hpi : (fxPi : Int) ≤ 4 * fxOne := by decide
  have hpi0 : (0 : Int) ≤ fxPi := Int.natCast_nonneg _
  unfold sineOf
  dsimp only
  have ht0 : 0 ≤ q * fxPi / fxOne := by positivity
  have ht : q * fxPi / fxOne ≤ 2 * fxOne := Int.ediv_le_of_le_mul hF (by nlinarith)
  generalize q * (fxPi : Int) / fxOne = t at ht0 ht
  have ht2 : t * t / fxOne ≤ 4 * fxOne := Int.ediv_le_of_le_mul hF (by nlinarith)
  obtain ⟨hs0, hs⟩ := sinSum_bound (by positivity : 0 ≤ t * t / fxOne) ht2 hF.le le_rfl 20
  generalize sinSum (t * t / fxOne) 20 fxOne = S at hs0 hs
  exact ⟨by positivity, Int.ediv_le_of_le_mul hF (by nlinarith)⟩

/-- A sine is no greater than 2 in magnitude. -/
theorem sinPi_bound (x : Int) : ∃ s n, sinPi x = .fin s n (-128) ∧ n ≤ 2 * fxOne := by
  have hF : (0 : Int) < 2 * fxOne := by have := fxOne_pos; omega
  refine ⟨_, _, sinPi_eq x, ?_⟩
  rw [Int.fmod_eq_emod_of_nonneg _ hF.le]
  obtain ⟨h0, h⟩ := foldedAngle_bound (Int.emod_nonneg x hF.ne') (Int.emod_lt_of_pos x hF)
  obtain ⟨hs0, hs⟩ := sineOf_bound h0 h
  omega

/-- A sine depends on its operand modulo 2. -/
theorem sinPi_period (x k : Int) : sinPi (x + k * (2 * fxOne)) = sinPi x := by
  have hF : (0 : Int) ≤ 2 * fxOne := by omega
  rw [sinPi_eq, sinPi_eq, Int.fmod_eq_emod_of_nonneg _ hF, Int.fmod_eq_emod_of_nonneg _ hF, Int.add_mul_emod_self_right]

theorem sinPi_zero : sinPi (0 * 2 ^ 127) = .fin false 0 (-128) := by decide +kernel
theorem sinPi_half : sinPi (1 * 2 ^ 127) = .fin false fxOne (-128) := by decide +kernel
theorem sinPi_one : sinPi (2 * 2 ^ 127) = .fin true 0 (-128) := by decide +kernel
theorem sinPi_three_halves : sinPi (3 * 2 ^ 127) = .fin true fxOne (-128) := by decide +kernel

/-! ### Hyperbolic tangents -/

theorem tanhFixed_bound (s : Bool) (m : Nat) (e : Int) : ∃ n d, tanhFixed s m e = .fin s n d ∧ (n = 0 → d < -126) ∧
    |ratOf (.fin s n d)| ≤ 1 := by
  unfold tanhFixed
  dsimp only
  split
  · exact ⟨1, 0, rfl, nofun, by rw [abs_ratOf]; norm_num⟩
  · obtain ⟨r, k, hexp⟩ : ∃ r k, exp2Fixed (2 * toFixed false m e * fxLog2e / fxOne) = .fin false r k := ⟨_, _, rfl⟩
    rw [hexp]
    dsimp only
    generalize r * 2 ^ (k + 128).toNat = u
    refine ⟨_, _, rfl, fun _ => by norm_num, ?_⟩
    have hle : (u - fxOne) * fxOne / (u + fxOne) ≤ 1 * fxOne :=
      Nat.div_le_of_le_mul (Nat.mul_le_mul (by omega) (by omega))
    exact_mod_cast fixed_le hle s

end Sys2Proof.Kernels

/-! # Accuracy of the special functions (R127; log entry 11) -/
namespace Sys2Proof.Kernels
open Sys2Proof Sys2Proof.Machine Sys2Proof.Laws

/-! ### How large an approximation is -/

/-- The bound on the error is absolute: LOG2 near 1, SINP, COSP and TANHA (R127). -/
def AbsoluteBound (fn : Nat) (v : ℚ) : Prop := (fn = 4 ∧ 1 / 2 ≤ v ∧ v ≤ 2) ∨ 5 ≤ fn

/-- A value that can be delivered within R127's accuracy: finite in F32, of a known binade or below the least normal one, and small
where the bound is absolute. -/
structure Deliverable (fn : Nat) (v : ℚ) (t : Bool) (n : Nat) (d : Int) : Prop where
  binade : n = 0 → d < -126
  finite : |ratOf (.fin t n d)| ≤ (2 ^ 24 - 1) * 2 ^ 104
  small : AbsoluteBound fn v → |ratOf (.fin t n d)| < 8

/-- A value between -200 and 200 in fixed point. -/
theorem deliverable_fixed {fn : Nat} {v : ℚ} {n b : Nat} (hb : b ≤ 200) (hn : n ≤ b * fxOne) (hsmall : AbsoluteBound fn v → n ≤ 7 * fxOne)
    (t : Bool) : Deliverable fn v t n (-128) where
  binade _ := by norm_num
  finite := by
    have hle : (b : ℚ) ≤ 200 := mod_cast hb
    exact (fixed_le hn t).trans (hle.trans (by norm_num))
  small h := (fixed_le (hsmall h) t).trans_lt (by norm_num)

theorem deliverable_relative {fn : Nat} (hfn : fn < 4) {v : ℚ} {t : Bool} {n : Nat} {d : Int} (hn : n ≠ 0)
    (hfin : |ratOf (.fin t n d)| ≤ (2 ^ 24 - 1) * 2 ^ 104) : Deliverable fn v t n d where
  binade h := absurd h hn
  finite := hfin
  small h := by rcases h with ⟨rfl, -⟩ | h <;> omega

/-- A magnitude below 2^k, scaled down. -/
theorem scaled_le {n k : Nat} {d : Int} (hn : n < 2 ^ k) (hd : k + d ≤ 127) (t : Bool) :
    |ratOf (.fin t n d)| ≤ (2 ^ 24 - 1) * 2 ^ 104 := by
  have hle : (n : ℚ) ≤ 2 ^ (k : Int) := by
    rw [zpow_natCast]
    exact_mod_cast hn.le
  rw [abs_ratOf]
  calc (n : ℚ) * 2 ^ d ≤ 2 ^ (k : Int) * 2 ^ d := mul_le_mul_of_nonneg_right hle (zpow_nonneg (by norm_num) d)
    _ = 2 ^ (k + d) := (zpow_add₀ (by norm_num) _ _).symm
    _ ≤ 2 ^ (127 : Int) := zpow_le_zpow_right₀ (by norm_num) hd
    _ ≤ _ := by norm_num

section
variable {s : Bool} {m : Nat} {e : Int} (hm : m ≠ 0) (hbits : m < 2 ^ 24) (hlo : -149 ≤ e) (hhi : e ≤ 104)
include hm hbits

theorem approx_rcp (hd : domain127 0 (ratOf (.fin s m e))) :
    ∃ t n d, approxOf 0 s m e = .fin t n d ∧ Deliverable 0 (ratOf (.fin s m e)) t n d := by
  have hm0 : (0 : ℚ) < m := Nat.cast_pos.mpr (Nat.pos_of_ne_zero hm)
  refine ⟨_, _, _, rfl, deliverable_relative (by norm_num) ?_ ?_⟩
  · exact (Nat.div_pos (hbits.le.trans (by norm_num)) (Nat.pos_of_ne_zero hm)).ne'
  · refine le_trans ?_ hd
    have hdiv : ((2 ^ 200 / m : Nat) : ℚ) ≤ 2 ^ (200 : Int) / m := by
      refine Nat.cast_div_le.trans (le_of_eq ?_)
      norm_num
    rw [abs_ratOf, abs_ratOf]
    calc ((2 ^ 200 / m : Nat) : ℚ) * 2 ^ (-200 - e) ≤ 2 ^ (200 : Int) / m * 2 ^ (-200 - e) :=
          mul_le_mul_of_nonneg_right hdiv (zpow_nonneg (by norm_num) _)
      _ = 2 ^ (200 : Int) * 2 ^ (-200 - e) / m := by ring
      _ = 2 ^ (-e) / m := by rw [← zpow_add₀ (by norm_num), show (200 : Int) + (-200 - e) = -e by ring]
      _ = 1 / (m * 2 ^ e) := by rw [zpow_neg]; field_simp

include hlo

theorem approx_rsq : ∃ t n d, approxOf 1 s m e = .fin t n d ∧ Deliverable 1 (ratOf (.fin s m e)) t n d := by
  have hroot : ∀ (r : Nat) (c : Int), 0 < r → r < 2 ^ 25 → -75 ≤ c →
      Deliverable 1 (ratOf (.fin s m e)) false (Nat.sqrt (2 ^ 400 / r)) (-200 - c) := by
    intro r c hr hr2 hc
    refine deliverable_relative (by norm_num) ?_ (scaled_le (k := 201) ?_ (by push_cast; omega) _)
    · have hle : r ≤ 2 ^ 400 := hr2.le.trans (Nat.pow_le_pow_right two_pos (by norm_num : 25 ≤ 400))
      exact (Nat.sqrt_pos.mpr (Nat.div_pos hle hr)).ne'
    · rw [Nat.sqrt_lt', ← Nat.pow_mul]
      exact (Nat.div_le_self _ _).trans_lt (Nat.pow_lt_pow_right one_lt_two (by norm_num))
  rw [approxOf]
  split
  · exact ⟨_, _, _, rfl, hroot m _ (by omega) (by omega) (by omega)⟩
  · exact ⟨_, _, _, rfl, hroot (2 * m) _ (by omega) (by omega) (by omega)⟩

omit hlo
include hhi

theorem approx_sqrt : ∃ t n d, approxOf 2 s m e = .fin t n d ∧ Deliverable 2 (ratOf (.fin s m e)) t n d := by
  have hroot : ∀ (r : Nat) (c : Int), 0 < r → r < 2 ^ 25 → c ≤ 52 →
      Deliverable 2 (ratOf (.fin s m e)) false (Nat.sqrt (r * 2 ^ 400)) (c - 200) := by
    intro r c hr hr2 hc
    refine deliverable_relative (by norm_num) ?_ (scaled_le (k := 213) ?_ (by push_cast; omega) _)
    · exact (Nat.sqrt_pos.mpr (Nat.mul_pos hr (Nat.two_pow_pos 400))).ne'
    · rw [Nat.sqrt_lt', ← Nat.pow_mul]
      refine (Nat.mul_lt_mul_of_pos_right hr2 (Nat.two_pow_pos _)).trans_le ?_
      rw [← Nat.pow_add]
      exact Nat.pow_le_pow_right two_pos (by norm_num)
  rw [approxOf]
  split
  · exact ⟨_, _, _, rfl, hroot m _ (by omega) (by omega) (by omega)⟩
  · exact ⟨_, _, _, rfl, hroot (2 * m) _ (by omega) (by omega) (by omega)⟩

omit hhi hm

/-- An operand below 128 is at least one unit of its last place below. -/
theorem below_128 (hv : ratOf (.fin s m e) < 128) : ratOf (.fin s m e) ≤ 128 - 2 ^ (-17 : Int) := by
  have habs : ratOf (.fin s m e) ≤ m * 2 ^ e := (le_abs_self _).trans_eq (abs_ratOf s m e)
  by_cases he : -17 ≤ e
  · have hint : ratOf (.fin s m e) * 2 ^ 17 = (signedInt s m * 2 ^ (e + 17).toNat : Int) := by
      push_cast
      rw [← ratOf_shifted s m (e := e + 17) (Int.toNat_of_nonneg (by omega)), ratOf_fin, ratOf_fin, zpow_add₀ (by norm_num)]
      norm_num
      ring
    have hlt : ((signedInt s m * 2 ^ (e + 17).toNat : Int) : ℚ) < (2 ^ 24 : Int) := by
      rw [← hint]
      push_cast
      linarith
    have hle : ((signedInt s m * 2 ^ (e + 17).toNat : Int) : ℚ) ≤ (2 ^ 24 - 1 : Int) :=
      Int.cast_le.mpr (Int.le_sub_one_of_lt (Int.cast_lt.mp hlt))
    rw [← hint] at hle
    norm_num at hle ⊢
    linarith
  · have hm24 : (m : ℚ) ≤ 2 ^ 24 := mod_cast hbits.le
    have hpow : (2 : ℚ) ^ e ≤ 2 ^ (-18 : Int) := zpow_le_zpow_right₀ (by norm_num) (by omega)
    have hprod : (m : ℚ) * 2 ^ e ≤ 2 ^ 24 * 2 ^ (-18 : Int) := mul_le_mul hm24 hpow (zpow_nonneg (by norm_num) _) (by norm_num)
    norm_num at hprod ⊢
    linarith

theorem approx_exp2 (hd : domain127 3 (ratOf (.fin s m e))) :
    ∃ t n d, approxOf 3 s m e = .fin t n d ∧ Deliverable 3 (ratOf (.fin s m e)) t n d := by
  rw [approxOf]
  split
  · exact ⟨_, _, _, rfl, deliverable_relative (by norm_num) one_ne_zero (scaled_le (k := 1) (by norm_num) (by norm_num) _)⟩
  · have hle : toFixed s m e ≤ 128 * fxOne - 2 ^ 111 := by
      have hfloor := Int.floor_le (ratOf (.fin s m e) * fxOne)
      have hv := below_128 hbits hd
      rw [toFixed_eq, ← Int.cast_le (R := ℚ)]
      push_cast
      rw [cast_fxOne] at hfloor ⊢
      refine hfloor.trans ?_
      norm_num at hv ⊢
      linarith
    obtain ⟨n, d, hexp, hn, hfin⟩ := exp2Fixed_bound hle
    exact ⟨_, _, _, hexp, deliverable_relative (by norm_num) hn hfin⟩

include hm hlo hhi

theorem approx_log2 (hv : 0 < ratOf (.fin s m e)) :
    ∃ t n d, approxOf 4 s m e = .fin t n d ∧ Deliverable 4 (ratOf (.fin s m e)) t n d := by
  have hlog : Nat.log2 m ≤ 23 := Nat.le_of_lt_succ ((Nat.log2_lt hm).mpr hbits)
  have hfrac := fracLog_le hm hbits
  have hF : (0 : Int) < fxOne := Int.natCast_pos.mpr fxOne_pos
  have habs : |ratOf (.fin s m e)| = ratOf (.fin s m e) := abs_of_pos hv
  refine ⟨_, _, _, log2Fixed_eq m e, deliverable_fixed (b := 160) (by norm_num) ?_ (fun h => ?_) _⟩
  · have htop : -149 ≤ topExp m e ∧ topExp m e ≤ 127 := by
      unfold topExp
      omega
    have h1 : topExp m e * fxOne ≤ 127 * fxOne := mul_le_mul_of_nonneg_right htop.2 hF.le
    have h2 : -149 * (fxOne : Int) ≤ topExp m e * fxOne := mul_le_mul_of_nonneg_right htop.1 hF.le
    omega
  · obtain ⟨hge, hle⟩ : 1 / 2 ≤ ratOf (.fin s m e) ∧ ratOf (.fin s m e) ≤ 2 := by
      rcases h with ⟨-, h⟩ | h
      · exact h
      · omega
    have htop1 : -1 ≤ topExp m e := (le_topExp hm s e (-1)).mpr (by rw [habs]; norm_num at hge ⊢; exact hge)
    have htop2 : topExp m e < 2 := (topExp_lt hm s e 2).mpr (by rw [habs]; norm_num; linarith)
    have h1 : topExp m e * fxOne ≤ 1 * fxOne := mul_le_mul_of_nonneg_right (by omega) hF.le
    have h2 : -1 * (fxOne : Int) ≤ topExp m e * fxOne := mul_le_mul_of_nonneg_right htop1 hF.le
    omega

end

theorem approx_sine {fn : Nat} (v : ℚ) (x : Int) : ∃ t n d, sinPi x = .fin t n d ∧ Deliverable fn v t n d := by
  obtain ⟨t, n, h, hn⟩ := sinPi_bound x
  exact ⟨t, n, -128, h, deliverable_fixed (by norm_num) hn (fun _ => hn.trans (Nat.mul_le_mul_right _ (by norm_num))) t⟩

theorem approx_tanh {fn : Nat} (v : ℚ) (s : Bool) (m : Nat) (e : Int) :
    ∃ t n d, tanhFixed s m e = .fin t n d ∧ Deliverable fn v t n d := by
  obtain ⟨n, d, h, hd, hle⟩ := tanhFixed_bound s m e
  exact ⟨s, n, d, h, hd, hle.trans (by norm_num), fun _ => hle.trans_lt (by norm_num)⟩

/-- The approximation of every operand for which R127 gives an accuracy can be delivered. -/
theorem approx_deliverable {fn : Nat} (hfn : fn < 8) {s : Bool} {m : Nat} {e : Int} (hm : m ≠ 0) (hbits : m < 2 ^ 24) (hlo : -149 ≤ e)
    (hhi : e ≤ 104) (hd : domain127 fn (ratOf (.fin s m e))) :
    ∃ t n d, approxOf fn s m e = .fin t n d ∧ Deliverable fn (ratOf (.fin s m e)) t n d := by
  match fn, hfn with
  | 0, _ => exact approx_rcp hm hbits hd
  | 1, _ => exact approx_rsq hm hbits hlo
  | 2, _ => exact approx_sqrt hm hbits hhi
  | 3, _ => exact approx_exp2 hbits hd
  | 4, _ => exact approx_log2 hm hbits hlo hhi hd
  | 5, _ => exact approx_sine _ _
  | 6, _ => exact approx_sine _ _
  | 7, _ => exact approx_tanh _ s m e

/-! ### The bound on the error -/

theorem ulps_nonneg {k : ℚ} (hk : 0 ≤ k) (a : ℚ) : 0 ≤ ulps k a := by
  unfold ulps
  split <;> positivity

theorem ulps_mono {k : ℚ} (hk : 1 ≤ k) (a : ℚ) : ulps 1 a ≤ ulps k a := by
  unfold ulps
  split
  · exact le_rfl
  · exact mul_le_mul_of_nonneg_right hk (zpow_nonneg (by norm_num) _)

theorem half_ulp_small {a : ℚ} (ha : |a| < 8) : ulps 1 a / 2 ≤ 2 ^ (-22 : Int) := by
  unfold ulps
  split
  · norm_num
  · next h =>
    have hpos : 0 < |a| := lt_of_lt_of_le (zpow_pos (by norm_num) _) (not_lt.mp h)
    have hlog : Int.log 2 |a| < 3 := (Int.lt_zpow_iff_log_lt Nat.one_lt_two hpos).mp (by norm_num; exact ha)
    have hpow : (2 : ℚ) ^ (Int.log 2 |a| - 23) ≤ 2 ^ (-21 : Int) := zpow_le_zpow_right₀ (by norm_num) (by omega)
    norm_num at hpow ⊢
    linarith

/-- Rounding to the nearest is within R127's accuracy. -/
theorem half_ulp_le_accuracy {fn : Nat} {v a : ℚ} (h : AbsoluteBound fn v → |a| < 8) : ulps 1 a / 2 ≤ accuracy127 fn v a := by
  have hhalf : ∀ {k : ℚ}, 1 ≤ k → ulps 1 a / 2 ≤ ulps k a := fun hk =>
    (half_le_self (ulps_nonneg zero_le_one a)).trans (ulps_mono hk a)
  match fn with
  | 0 | 1 | 2 => exact hhalf le_rfl
  | 3 => exact hhalf one_le_two
  | 4 =>
    rw [accuracy127]
    split
    · next hv => exact half_ulp_small (h (.inl ⟨rfl, hv⟩))
    · exact hhalf one_le_two
  | 5 | 6 => exact half_ulp_small (h (.inr (by norm_num)))
  | k + 7 => exact (half_ulp_small (h (.inr (by omega)))).trans (zpow_le_zpow_right₀ one_le_two (by norm_num))

theorem accuracy127_nonneg (fn : Nat) (v a : ℚ) : 0 ≤ accuracy127 fn v a := by
  match fn with
  | 0 | 1 | 2 => exact ulps_nonneg zero_le_one a
  | 3 => exact ulps_nonneg zero_le_two a
  | 4 =>
    rw [accuracy127]
    split
    · positivity
    · exact ulps_nonneg zero_le_two a
  | 5 | 6 | _ + 7 => exact zpow_nonneg zero_le_two _

/-- The model's ulps of a value are R127's. -/
theorem ulpsVal_eq {t : Bool} {n : Nat} {d : Int} (h : n = 0 → d < -126) (k : Nat) :
    |ratOf (if topExp n d < -126 then .fin false 1 (-149) else .fin false k (topExp n d - 23))| = ulps k (ratOf (.fin t n d)) := by
  unfold ulps
  by_cases hn : n = 0
  · subst hn
    have hd := h rfl
    rw [if_pos (by simpa [topExp] using hd), if_pos (by rw [abs_ratOf]; norm_num), abs_ratOf]
    norm_num
  · by_cases htop : topExp n d < -126
    · rw [if_pos htop, if_pos ((topExp_lt hn t d _).mp htop), abs_ratOf]
      norm_num
    · rw [if_neg htop, if_neg (mt (topExp_lt hn t d _).mpr htop), abs_ratOf, log_ratOf hn]

/-- The model's accuracy of a value is R127's. -/
theorem accuracy_eq {fn : Nat} {v : ℚ} {inner : Bool} {t : Bool} {n : Nat} {d : Int} (h : n = 0 → d < -126)
    (hinner : fn = 4 → (inner = true ↔ 1 / 2 ≤ v ∧ v ≤ 2)) :
    |ratOf (accuracy fn inner (.fin t n d))| = accuracy127 fn v (ratOf (.fin t n d)) := by
  have hone : ∀ k : Int, |ratOf (.fin false 1 k)| = 2 ^ k := fun k => by rw [abs_ratOf, Nat.cast_one, one_mul]
  have hulps := ulpsVal_eq (t := t) h
  unfold accuracy accuracy127
  dsimp only
  match fn with
  | 0 => simpa using hulps 1
  | 1 => simpa using hulps 1
  | 2 => simpa using hulps 1
  | 3 => simpa using hulps 2
  | 4 =>
    by_cases hin : inner = true
    · rw [if_pos hin, if_pos ((hinner rfl).mp hin)]
      exact hone _
    · rw [if_neg hin, if_neg (mt (hinner rfl).mpr hin)]
      simpa using hulps 2
  | 5 => exact hone _
  | 6 => exact hone _
  | _ + 7 => exact hone _

theorem val_round32_zero (t : Bool) (d : Int) : val32 (round32 0 (.fin t 0 d)).1 = .fin t 0 (-149) := by
  rw [round32, Fmt.deliver, val32_ofNat (by norm_num), val_signed (by norm_num)]
  rfl

/-- A finite value rounded to F32, zero included, is off by half a unit in the last place at most. -/
theorem round32_fin {t : Bool} {n : Nat} {d : Int} (hmax : |ratOf (.fin t n d)| ≤ (2 ^ 24 - 1) * 2 ^ 104) :
    ∃ n' d', val32 (round32 0 (.fin t n d)).1 = .fin t n' d' ∧
      |ratOf (.fin t n' d') - ratOf (.fin t n d)| ≤ ulps 1 (ratOf (.fin t n d)) / 2 := by
  by_cases hn : n = 0
  · subst hn
    refine ⟨0, -149, val_round32_zero t d, ?_⟩
    rw [ratOf_eq_zero.mpr rfl, ratOf_eq_zero.mpr rfl, sub_self, abs_zero]
    exact div_nonneg (ulps_nonneg zero_le_one _) (by norm_num)
  · exact round32_near hn t d hmax

/-- LOG2's operand lies between 1/2 and 2. -/
theorem inner_iff (m : Nat) (e : Int) : (!(FVal.lt (.fin false m e) (.fin false 1 (-1))) && !(FVal.lt (.fin false 1 1) (.fin false m e))) = true ↔
    1 / 2 ≤ ratOf (.fin false m e) ∧ ratOf (.fin false m e) ≤ 2 := by
  have hhalf : ratOf (.fin false 1 (-1)) = 1 / 2 := by norm_num [ratOf]
  have htwo : ratOf (.fin false 1 1) = 2 := by norm_num [ratOf]
  rw [Bool.and_eq_true, Bool.not_eq_true', Bool.not_eq_true', lt_fin_false, lt_fin_false, hhalf, htwo]

end Sys2Proof.Kernels

/-! # Special functions (O8: R127, R187) -/
namespace Sys2Proof.Kernels
open Sys2Proof Sys2Proof.Machine Sys2Proof.Laws

/-! ### Results that are exact -/

/-- A finite result without flags whose value is known. -/
def Exactly (a : ℚ) (r : Word × Effects) : Prop := r.2 = {} ∧ (∃ t n d, val32 r.1 = .fin t n d) ∧ ratOf (val32 r.1) = a

/-- A finite result without flags within R127's accuracy. -/
def Accurate (fn : Nat) (v a : ℚ) (r : Word × Effects) : Prop :=
  r.2 = {} ∧ (∃ t n d, val32 r.1 = .fin t n d) ∧ |ratOf (val32 r.1) - a| ≤ accuracy127 fn v a

theorem Exactly.accurate {fn : Nat} {v a : ℚ} {r : Word × Effects} (h : Exactly a r) : Accurate fn v a r := by
  obtain ⟨hflags, hfin, hval⟩ := h
  refine ⟨hflags, hfin, ?_⟩
  rw [hval, sub_self, abs_zero]
  exact accuracy127_nonneg fn v a

theorem exactly_zero (neg : Bool) : Exactly 0 (signed32 neg 0, fxNone) := by
  have h : val32 (signed32 neg 0) = .fin neg 0 (-149) := by cases neg <;> decide
  exact ⟨rfl, ⟨_, _, _, h⟩, by rw [h]; exact ratOf_eq_zero.mpr rfl⟩

theorem exactly_one (neg : Bool) : Exactly (signOf neg) (signed32 neg 0x3F800000, fxNone) := by
  have h : val32 (signed32 neg 0x3F800000) = .fin neg (2 ^ 23) (-23) := by cases neg <;> decide
  refine ⟨rfl, ⟨_, _, _, h⟩, ?_⟩
  rw [h, ratOf_fin]
  norm_num

theorem exactly_exp2 {k : Int} (h0 : -149 ≤ k) (h1 : k ≤ 127) : Exactly (2 ^ k) ((round32 0 (.fin false 1 k)).1, fxNone) := by
  have hrat : ratOf (.fin false 1 k) = 2 ^ k := by simp [ratOf]
  have htop : topExp 1 k - 23 ≤ k := by
    rw [topExp, show Nat.log2 1 = 0 from rfl]
    omega
  have hmax : |ratOf (.fin false 1 k)| ≤ (2 ^ 24 - 1) * 2 ^ 104 := by
    rw [hrat, abs_of_pos (zpow_pos two_pos k)]
    exact (zpow_le_zpow_right₀ one_le_two h1).trans (by norm_num)
  obtain ⟨n, d, hval, heq⟩ := round32_exact one_ne_zero false k hmax htop h0
  exact ⟨rfl, ⟨_, _, _, hval⟩, by rw [hval, heq, hrat]⟩

/-- An integer with its sign split off. -/
theorem ratOf_signed (z e : Int) : ratOf (.fin (decide (z < 0)) z.natAbs e) = z * 2 ^ e := by
  have hz : signedInt (decide (z < 0)) z.natAbs = z := by
    unfold signedInt
    simp only [decide_eq_true_eq]
    split <;> omega
  rw [ratOf_fin, ← mul_assoc, ← cast_signedInt, hz]

/-- Small integers are F32 numbers. -/
theorem exactly_ofInt {k : Int} (hk : k.natAbs < 2 ^ 23) : Exactly k ((round32 0 (.ofInt k)).1, fxNone) := by
  have hrat : ratOf (.ofInt k) = k := (ratOf_signed k 0).trans (by simp)
  by_cases h0 : k = 0
  · subst h0
    have hval : val32 (round32 0 (.ofInt 0)).1 = .fin false 0 (-149) := val_round32_zero false 0
    exact ⟨rfl, ⟨_, _, _, hval⟩, by rw [hval]; exact (ratOf_eq_zero.mpr rfl).trans Int.cast_zero.symm⟩
  · have hne : k.natAbs ≠ 0 := Int.natAbs_ne_zero.mpr h0
    have htop : topExp k.natAbs 0 - 23 ≤ 0 := by
      have := (Nat.log2_lt hne).mpr hk
      unfold topExp
      omega
    have hmax : |ratOf (.ofInt k)| ≤ (2 ^ 24 - 1) * 2 ^ 104 := scaled_le hk (by norm_num) _
    obtain ⟨n, d, hval, heq⟩ := round32_exact hne _ 0 hmax htop (by norm_num)
    have hval' : val32 (round32 0 (.ofInt k)).1 = .fin (decide (k < 0)) n d := hval
    exact ⟨rfl, ⟨_, _, _, hval'⟩, by rw [hval', heq]; exact hrat⟩

/-- The sine at a whole number of quarter periods, as the model computes it, is exact. -/
theorem sinPi_quarters (n : Int) : ratOf (sinPi (n * 2 ^ 127)) = if n % 4 = 1 then 1 else if n % 4 = 3 then -1 else 0 := by
  have hone : ∀ s, ratOf (.fin s fxOne (-128)) = signOf s := fun s => by
    rw [ratOf_fin, cast_fxOne]
    norm_num
  have hsplit : n * 2 ^ 127 = (n % 4) * 2 ^ 127 + (n / 4) * (2 * fxOne) := by
    have hF : (2 * (fxOne : Int)) = 4 * 2 ^ 127 := by
      rw [fxOne]
      norm_num
    rw [hF]
    omega
  rw [hsplit, sinPi_period]
  obtain h | h | h | h : n % 4 = 0 ∨ n % 4 = 1 ∨ n % 4 = 2 ∨ n % 4 = 3 := by omega
  · rw [h, sinPi_zero]
    exact ratOf_eq_zero.mpr rfl
  · rw [h, sinPi_half]
    exact hone false
  · rw [h, sinPi_one]
    exact ratOf_eq_zero.mpr rfl
  · rw [h, sinPi_three_halves]
    exact hone true

/-! ### The exact cases of a finite operand

RCP's row of the table is picked by `delta`: by `rfl` the kernel would unfold the comparison that the row makes. -/

section
variable (s : Bool) (m : Nat) (e : Int)

theorem specialFin_rcp : specialFin 0 s m e =
    if FVal.lt (.fin false (m * (2 ^ 24 - 1)) (e + 104)) (.fin false 1 0) then some (signed32 s 0x7F800000, fxNone) else none := by
  delta specialFin
  simp only

theorem specialFin_rsq : specialFin 1 s m e = if s then some (canon32, fxNv) else none := rfl

theorem specialFin_sqrta : specialFin 2 s m e = if s then some (canon32, fxNv) else none := rfl

theorem specialFin_exp2 : specialFin 3 s m e = if !s && 7 ≤ topExp m e then some (0x7F800000, fxNone)
    else (intOf s m e).bind fun k => if -149 ≤ k then some ((round32 0 (.fin false 1 k)).1, fxNone) else none := rfl

theorem specialFin_log2 : specialFin 4 s m e = if s then some (canon32, fxNv)
    else if m = 2 ^ Nat.log2 m then some ((round32 0 (.ofInt (topExp m e))).1, fxNone) else none := rfl

theorem specialFin_tanha : specialFin 7 s m e = none := rfl

end


/-- RCP overflows beyond the largest finite number. -/
theorem rcp_overflows {m : Nat} (hm : m ≠ 0) (s : Bool) (e : Int) :
    FVal.lt (.fin false (m * (2 ^ 24 - 1)) (e + 104)) (.fin false 1 0) = true ↔ (2 ^ 24 - 1) * 2 ^ 104 < 1 / |ratOf (.fin s m e)| := by
  have hpos : 0 < |ratOf (.fin s m e)| := abs_pos.mpr (mt ratOf_eq_zero.mp hm)
  have hlhs : ratOf (.fin false (m * (2 ^ 24 - 1)) (e + 104)) = (2 ^ 24 - 1) * 2 ^ 104 * |ratOf (.fin s m e)| := by
    rw [abs_ratOf, ratOf_fin, zpow_add₀ (by norm_num)]
    push_cast
    simp only [signOf, Bool.false_eq_true, if_false]
    norm_num
    ring
  have hrhs : ratOf (.fin false 1 0) = 1 := by norm_num [ratOf]
  rw [lt_fin, hlhs, hrhs, lt_div_iff₀ hpos]

section
variable {s : Bool} {m : Nat} {e : Int} (hm : m ≠ 0)

theorem toFixed_int {k : Int} (h : ratOf (.fin s m e) = k) : toFixed s m e = k * fxOne := by
  have hcast : (k : ℚ) * fxOne = ((k * fxOne : Int) : ℚ) := by push_cast; rfl
  rw [toFixed_eq, h, hcast, Int.floor_intCast]

theorem toFixed_half {k : Int} (h : ratOf (.fin s m e) = k + 1 / 2) : toFixed s m e = (2 * k + 1) * 2 ^ 127 := by
  have hcast : ((k : ℚ) + 1 / 2) * fxOne = (((2 * k + 1) * 2 ^ 127 : Int) : ℚ) := by
    rw [cast_fxOne]
    push_cast
    ring
  rw [toFixed_eq, h, hcast, Int.floor_intCast]

theorem ne_half {k n : Int} (h : ratOf (.fin s m e) = k + 1 / 2) : ratOf (.fin s m e) ≠ n := by
  rw [h]
  intro heq
  have h2 : ((2 * k + 1 : Int) : ℚ) = (2 * n : Int) := by
    push_cast
    linarith
  have := Int.cast_inj.mp h2
  omega

theorem specialFin_sin_int {k : Int} (h : ratOf (.fin s m e) = k) : specialFin 5 s m e = some (signed32 s 0, fxNone) := by
  delta specialFin
  simp only [intOf_eq_some.mpr h]

theorem specialFin_cos_int {k : Int} (h : ratOf (.fin s m e) = k) :
    specialFin 6 s m e = some (signed32 (k % 2 = 1) 0x3F800000, fxNone) := by
  delta specialFin
  simp only [intOf_eq_some.mpr h]

/-- An odd number of halves, doubled. -/
theorem intOf_half {k : Int} (h : ratOf (.fin s m e) = k + 1 / 2) : intOf s m e = none ∧ intOf s m (e + 1) = some (2 * k + 1) := by
  refine ⟨intOf_eq_none.mpr fun n => ne_half h, intOf_eq_some.mpr ?_⟩
  rw [ratOf_double, h]
  push_cast
  ring

theorem specialFin_sin_half {k : Int} (h : ratOf (.fin s m e) = k + 1 / 2) :
    specialFin 5 s m e = some (signed32 (k % 2 = 1) 0x3F800000, fxNone) := by
  obtain ⟨hnone, hsome⟩ := intOf_half h
  have hodd : decide ((2 * k + 1) % 4 = 3) = decide (k % 2 = 1) := decide_eq_decide.mpr (by omega)
  delta specialFin
  simp only [hnone, hsome, ← hodd]

theorem specialFin_cos_half {k : Int} (h : ratOf (.fin s m e) = k + 1 / 2) : specialFin 6 s m e = some (0, fxNone) := by
  obtain ⟨hnone, hsome⟩ := intOf_half h
  delta specialFin
  simp only [hnone, hsome]

/-- The sine and the cosine have special results at the multiples of 1/2 alone. -/
theorem specialFin_trig_none (hint : ∀ k : Int, ratOf (.fin s m e) ≠ k) (hhalf : ∀ k : Int, ratOf (.fin s m e) ≠ k + 1 / 2) :
    specialFin 5 s m e = none ∧ specialFin 6 s m e = none := by
  have hnone : intOf s m (e + 1) = none := by
    refine intOf_eq_none.mpr fun n hn => ?_
    rw [ratOf_double] at hn
    obtain ⟨k, rfl | rfl⟩ := Int.even_or_odd' n
    · exact hint k (by push_cast at hn; linarith)
    · exact hhalf k (by push_cast at hn; linarith)
  delta specialFin
  simp only [intOf_eq_none.mpr hint, hnone, and_self]

include hm

theorem neg_of_ratOf (h : ratOf (.fin s m e) < 0) : s = true := by
  by_contra hs
  exact h.not_gt ((ratOf_pos hm).mpr (Bool.eq_false_of_not_eq_true hs))

/-- EXP2's overflow, as the model tests for it. -/
theorem exp2_overflows : (!s && decide (7 ≤ topExp m e)) = true ↔ 128 ≤ ratOf (.fin s m e) := by
  rw [Bool.and_eq_true, Bool.not_eq_true', decide_eq_true_eq, le_topExp hm s, ← ratOf_pos hm (e := e)]
  norm_num
  constructor
  · rintro ⟨hpos, h⟩
    rwa [abs_of_pos hpos] at h
  · intro h
    have hpos : 0 < ratOf (.fin s m e) := by linarith
    exact ⟨hpos, by rwa [abs_of_pos hpos]⟩

theorem specialFin_exp2_of_lt (h : ratOf (.fin s m e) < 128) : specialFin 3 s m e =
    (intOf s m e).bind fun k => if -149 ≤ k then some ((round32 0 (.fin false 1 k)).1, fxNone) else none := by
  rw [specialFin_exp2, if_neg (mt (exp2_overflows hm).mp h.not_ge)]

/-- LOG2's exact operands, the powers of two. -/
theorem pow_of_ratOf {k : Int} (h : ratOf (.fin s m e) = 2 ^ k) : s = false ∧ m = 2 ^ Nat.log2 m ∧ topExp m e = k := by
  have h2 : (2 : ℚ) ≠ 0 := two_ne_zero
  have hpos : (0 : ℚ) < 2 ^ k := zpow_pos two_pos k
  have htop : topExp m e = k := by
    rw [← log_ratOf hm s, h, abs_of_pos hpos]
    exact Int.log_zpow Nat.one_lt_two k
  refine ⟨(ratOf_pos hm).mp (h ▸ hpos), ?_, htop⟩
  have hmag : (m : ℚ) * 2 ^ e = 2 ^ Nat.log2 m * 2 ^ e := by
    rw [← abs_ratOf s, h, abs_of_pos hpos, ← htop, topExp, zpow_add₀ h2, zpow_natCast]
  exact_mod_cast mul_right_cancel₀ (zpow_ne_zero e h2) hmag

end

/-! ### Exact results agree with the approximation -/

section
variable {s : Bool} {m : Nat} {e : Int} {r : Word × Effects}

theorem exactly_sin (h : specialFin 5 s m e = some r) : Exactly (ratOf (approxOf 5 s m e)) r := by
  rw [approxOf]
  by_cases hint : ∃ k : Int, ratOf (.fin s m e) = k
  · obtain ⟨k, hk⟩ := hint
    obtain rfl := Option.some.inj ((specialFin_sin_int hk).symm.trans h)
    have hx : toFixed s m e = (2 * k) * 2 ^ 127 := by
      rw [toFixed_int hk, fxOne]
      push_cast
      ring
    rw [hx, sinPi_quarters, if_neg (by omega), if_neg (by omega)]
    exact exactly_zero s
  by_cases hhalf : ∃ k : Int, ratOf (.fin s m e) = k + 1 / 2
  · obtain ⟨k, hk⟩ := hhalf
    obtain rfl := Option.some.inj ((specialFin_sin_half hk).symm.trans h)
    rw [toFixed_half hk, sinPi_quarters]
    convert exactly_one (decide (k % 2 = 1)) using 1
    simp only [signOf, decide_eq_true_eq]
    obtain h2 | h2 := Int.emod_two_eq_zero_or_one k
    · rw [if_pos (by omega), if_neg (by omega)]
    · rw [if_neg (by omega), if_pos (by omega), if_pos h2]
  · rw [(specialFin_trig_none (not_exists.mp hint) (not_exists.mp hhalf)).1] at h
    exact absurd h nofun

theorem exactly_cos (h : specialFin 6 s m e = some r) : Exactly (ratOf (approxOf 6 s m e)) r := by
  rw [approxOf]
  by_cases hint : ∃ k : Int, ratOf (.fin s m e) = k
  · obtain ⟨k, hk⟩ := hint
    obtain rfl := Option.some.inj ((specialFin_cos_int hk).symm.trans h)
    have hx : toFixed s m e + 2 ^ 127 = (2 * k + 1) * 2 ^ 127 := by
      rw [toFixed_int hk, fxOne]
      push_cast
      ring
    rw [hx, sinPi_quarters]
    convert exactly_one (decide (k % 2 = 1)) using 1
    simp only [signOf, decide_eq_true_eq]
    obtain h2 | h2 := Int.emod_two_eq_zero_or_one k
    · rw [if_pos (by omega), if_neg (by omega)]
    · rw [if_neg (by omega), if_pos (by omega), if_pos h2]
  by_cases hhalf : ∃ k : Int, ratOf (.fin s m e) = k + 1 / 2
  · obtain ⟨k, hk⟩ := hhalf
    obtain rfl := Option.some.inj ((specialFin_cos_half hk).symm.trans h)
    have hx : toFixed s m e + 2 ^ 127 = (2 * k + 2) * 2 ^ 127 := by
      rw [toFixed_half hk]
      ring
    rw [hx, sinPi_quarters, if_neg (by omega), if_neg (by omega)]
    exact exactly_zero false
  · rw [(specialFin_trig_none (not_exists.mp hint) (not_exists.mp hhalf)).2] at h
    exact absurd h nofun

theorem exactly_approx_exp2 (hm : m ≠ 0) (hv : ratOf (.fin s m e) < 128) (h : specialFin 3 s m e = some r) :
    Exactly (ratOf (approxOf 3 s m e)) r := by
  rw [specialFin_exp2_of_lt hm hv, Option.bind_eq_some_iff] at h
  obtain ⟨k, hk, hr⟩ := h
  obtain ⟨h0, rfl⟩ : -149 ≤ k ∧ ((round32 0 (.fin false 1 k)).1, fxNone) = r := by
    by_cases h0 : -149 ≤ k
    · exact ⟨h0, Option.some.inj ((if_pos h0).symm.trans hr)⟩
    · exact absurd ((if_neg h0).symm.trans hr) nofun
  have hrat := intOf_eq_some.mp hk
  have h1 : k < 128 := by
    rw [hrat] at hv
    exact_mod_cast hv
  have hlow : ¬k * fxOne < -300 * (fxOne : Int) := by
    have hF : (0 : Int) < fxOne := Int.natCast_pos.mpr fxOne_pos
    exact not_lt.mpr (mul_le_mul_of_nonneg_right (by omega) hF.le)
  have hval : ratOf (approxOf 3 s m e) = 2 ^ k := by
    rw [approxOf, toFixed_int hrat, if_neg hlow, exp2Fixed_int, ratOf_fin, cast_fxOne, sub_eq_add_neg, zpow_add₀ two_ne_zero]
    simp only [signOf, Bool.false_eq_true, if_false]
    norm_num
    ring
  rw [hval]
  exact exactly_exp2 h0 (by omega)

theorem exactly_approx_log2 (hbits : m < 2 ^ 24) (hlo : -149 ≤ e) (hhi : e ≤ 104) (hs : s = false)
    (h : specialFin 4 s m e = some r) : Exactly (ratOf (approxOf 4 s m e)) r := by
  subst hs
  obtain ⟨hpow, rfl⟩ : m = 2 ^ Nat.log2 m ∧ ((round32 0 (.ofInt (topExp m e))).1, fxNone) = r := by
    rw [specialFin_log2, if_neg Bool.false_ne_true] at h
    by_cases hpow : m = 2 ^ Nat.log2 m
    · exact ⟨hpow, Option.some.inj ((if_pos hpow).symm.trans h)⟩
    · exact absurd ((if_neg hpow).symm.trans h) nofun
  have hval : ratOf (approxOf 4 false m e) = topExp m e := by
    rw [approxOf, log2Fixed_eq, ratOf_signed, fracLog_pow hbits hpow]
    push_cast
    rw [cast_fxOne]
    norm_num
    ring
  have hm : m ≠ 0 := fun h0 => absurd (hpow ▸ h0) (Nat.two_pow_pos _).ne'
  have hlog : Nat.log2 m < 24 := (Nat.log2_lt hm).mpr hbits
  rw [hval]
  exact exactly_ofInt (by unfold topExp; omega)

/-- Where R127 gives an accuracy, a special result is the approximation itself. -/
theorem exactly_of_specialFin {fn : Nat} (hfn : fn < 8) (hm : m ≠ 0) (hbits : m < 2 ^ 24) (hlo : -149 ≤ e) (hhi : e ≤ 104)
    (hd : domain127 fn (ratOf (.fin s m e))) (h : specialFin fn s m e = some r) : Exactly (ratOf (approxOf fn s m e)) r := by
  match fn, hfn with
  | 0, _ =>
    rw [specialFin_rcp, if_neg (mt (rcp_overflows hm s e).mp hd.not_gt)] at h
    exact absurd h nofun
  | 1, _ | 2, _ =>
    obtain rfl := (ratOf_pos hm).mp hd
    exact absurd h nofun
  | 3, _ => exact exactly_approx_exp2 hm hd h
  | 4, _ => exact exactly_approx_log2 hbits hlo hhi ((ratOf_pos hm).mp hd) h
  | 5, _ => exact exactly_sin h
  | 6, _ => exact exactly_cos h
  | 7, _ => exact absurd ((specialFin_tanha s m e).symm.trans h) nofun

end

/-! ### What a special function delivers -/

/-- A result that R127 leaves open: the hardware's, if it is within the accuracy, else the approximation rounded. -/
def openResult (fn : Nat) (x : Word) (s : Bool) (m : Nat) (e : Int) : Word × Effects :=
  let inner := !(FVal.lt (.fin false m e) (.fin false 1 (-1))) && !(FVal.lt (.fin false 1 1) (.fin false m e))
  let a := approxOf fn s m e
  (if withinBound (val32 (Config.special fn x)) a (accuracy fn inner a) then Config.special fn x else (round32 0 a).1, fxNone)

theorem specialOf_nan (fn : Nat) {x : Word} (h : val32 x = .nan) : specialOf fn x = (canon32, fxNone) := by
  rw [specialOf, h]

theorem specialOf_inf (fn : Nat) {x : Word} {s : Bool} (h : val32 x = .inf s) : specialOf fn x = specialInf fn s := by
  rw [specialOf, h]

theorem specialOf_zero (fn : Nat) {x : Word} {s : Bool} {e : Int} (h : val32 x = .fin s 0 e) : specialOf fn x = specialZero fn s := by
  rw [specialOf, h]
  rfl

theorem specialOf_fin (fn : Nat) {x : Word} {s : Bool} {m : Nat} {e : Int} (h : val32 x = .fin s m e) (hm : m ≠ 0) :
    specialOf fn x = (specialFin fn s m e).getD (openResult fn x s m e) := by
  obtain ⟨k, rfl⟩ := Nat.exists_eq_succ_of_ne_zero hm
  rw [specialOf, h]
  cases hf : specialFin fn s (k + 1) e <;> simp only [hf] <;> rfl

/-- An open result is within the accuracy (R127). -/
theorem openResult_accurate {fn : Nat} (hfn : fn < 8) (x : Word) {s : Bool} {m : Nat} {e : Int} (hm : m ≠ 0) (hbits : m < 2 ^ 24)
    (hlo : -149 ≤ e) (hhi : e ≤ 104) (hd : domain127 fn (ratOf (.fin s m e))) :
    Accurate fn (ratOf (.fin s m e)) (ratOf (approxOf fn s m e)) (openResult fn x s m e) := by
  have hinner : fn = 4 → ((!(FVal.lt (.fin false m e) (.fin false 1 (-1))) && !(FVal.lt (.fin false 1 1) (.fin false m e))) = true ↔
      1 / 2 ≤ ratOf (.fin s m e) ∧ ratOf (.fin s m e) ≤ 2) := by
    rintro rfl
    obtain rfl := (ratOf_pos hm).mp hd
    exact inner_iff m e
  obtain ⟨t, n, d, happrox, hdel⟩ := approx_deliverable hfn hm hbits hlo hhi hd
  rw [openResult, happrox]
  split
  · next hwithin =>
    obtain ⟨hfin, hnear⟩ := near_of_withinBound hwithin
    exact ⟨rfl, hfin, hnear.trans_eq (accuracy_eq hdel.binade hinner)⟩
  · obtain ⟨n', d', hval, hnear⟩ := round32_fin hdel.finite
    refine ⟨rfl, ⟨_, _, _, hval⟩, ?_⟩
    rw [hval]
    exact hnear.trans (half_ulp_le_accuracy hdel.small)

/-- Every finite operand that is not zero comes with the limits of F32. -/
theorem val32_fin {x : Word} {s : Bool} {m : Nat} {e : Int} (h : val32 x = .fin s m e) :
    s = x.getLsbD 31 ∧ m < 2 ^ 24 ∧ -149 ≤ e ∧ e ≤ 104 := by
  rcases val32_cases x with hx | ⟨hx, -⟩ | ⟨m', e', hx, -, hbits, hlo, hhi⟩
  · exact absurd (hx.symm.trans h) nofun
  · exact absurd (hx.symm.trans h) nofun
  · obtain ⟨rfl, rfl, rfl⟩ := FVal.fin.inj (hx.symm.trans h)
    exact ⟨rfl, hbits, hlo, hhi⟩

theorem specialOf_accurate {fn : Nat} (hfn : fn < 8) {x : Word} {s : Bool} {m : Nat} {e : Int} (hx : val32 x = .fin s m e) (hm : m ≠ 0)
    (hd : domain127 fn (ratOf (.fin s m e))) :
    Accurate fn (ratOf (.fin s m e)) (ratOf (approxOf fn s m e)) (specialOf fn x) := by
  obtain ⟨-, hbits, hlo, hhi⟩ := val32_fin hx
  rw [specialOf_fin fn hx hm]
  cases hf : specialFin fn s m e with
  | none => exact openResult_accurate hfn x hm hbits hlo hhi hd
  | some r => exact (exactly_of_specialFin hfn hm hbits hlo hhi hd hf).accurate

/-! ### Special results -/

theorem val32_zero {x : Word} (h : x.extractLsb' 0 31 = 0) : val32 x = .fin (x.getLsbD 31) 0 (-149) := by
  rw [val32_eq, h, show (0 : BitVec 31).toNat = 0 from rfl, val_signed (by norm_num)]
  rfl

/-- A special result of a finite operand is delivered. -/
theorem specialOf_some {fn : Nat} {x : Word} {s : Bool} {m : Nat} {e : Int} {r : Word × Effects} (hx : val32 x = .fin s m e)
    (hm : m ≠ 0) (hr : specialFin fn s m e = some r) : specialOf fn x = r := by
  rw [specialOf_fin fn hx hm, hr, Option.getD_some]

section
variable {x : Word} {s : Bool} {m : Nat} {e : Int} (hx : val32 x = .fin s m e) (hm : m ≠ 0)
include hx hm

theorem exp2_exact {k : Int} (h0 : -149 ≤ k) (h1 : k ≤ 127) (hk : ratOf (.fin s m e) = k) : Exactly (2 ^ k) (specialOf 3 x) := by
  have hv : ratOf (.fin s m e) < 128 := by
    rw [hk]
    exact_mod_cast Int.lt_add_one_of_le h1
  have hr : specialFin 3 s m e = some ((round32 0 (.fin false 1 k)).1, fxNone) := by
    rw [specialFin_exp2_of_lt hm hv, intOf_eq_some.mpr hk, Option.bind_some, if_pos h0]
  rw [specialOf_some hx hm hr]
  exact exactly_exp2 h0 h1

theorem log2_exact {k : Int} (hk : ratOf (.fin s m e) = 2 ^ k) : Exactly k (specialOf 4 x) := by
  obtain ⟨-, hbits, hlo, hhi⟩ := val32_fin hx
  obtain ⟨rfl, hpow, rfl⟩ := pow_of_ratOf hm hk
  have hr : specialFin 4 false m e = some ((round32 0 (.ofInt (topExp m e))).1, fxNone) := by
    rw [specialFin_log2, if_neg Bool.false_ne_true, if_pos hpow]
  have hlog : Nat.log2 m < 24 := (Nat.log2_lt hm).mpr hbits
  rw [specialOf_some hx hm hr]
  exact exactly_ofInt (by unfold topExp; omega)

theorem negative_invalid {fn : Nat} (hfn : fn = 1 ∨ fn = 2 ∨ fn = 4) (hv : ratOf (.fin s m e) < 0) :
    specialOf fn x = (canon32, fxNv) := by
  obtain rfl := neg_of_ratOf hm hv
  refine specialOf_some hx hm ?_
  rcases hfn with rfl | rfl | rfl
  · rw [specialFin_rsq, if_pos rfl]
  · rw [specialFin_sqrta, if_pos rfl]
  · rw [specialFin_log2, if_pos rfl]

end

theorem specialCases {fn : Nat} (hfn : fn < 8) (x : Word) : SpecialCases fn x (specialOf fn x) := by
  refine ⟨fun h => ?_, fun h => ?_, fun h => ?_, fun h => ?_⟩
  · have hnan : val32 x = .nan := by
      cases hx : val32 x with
      | nan => rfl
      | _ => exact absurd (hx ▸ h) nofun
    exact specialOf_nan fn hnan
  · rw [specialOf_inf fn h]
    generalize x.getLsbD 31 = neg
    match fn, hfn with
    | 0, _ | 3, _ | 5, _ | 6, _ | 7, _ => rfl
    | 1, _ | 2, _ | 4, _ => cases neg <;> rfl
  · rw [specialOf_zero fn (val32_zero h)]
    match fn, hfn with
    | 0, _ | 1, _ | 2, _ | 3, _ | 4, _ | 5, _ | 6, _ | 7, _ => rfl
  · obtain ⟨s, m, e, hx⟩ : ∃ s m e, val32 x = .fin s m e := by
      cases hx : val32 x with
      | fin s m e => exact ⟨s, m, e, rfl⟩
      | _ => exact absurd (congrArg ratOf hx) h
    have hm : m ≠ 0 := by
      rintro rfl
      exact h (hx ▸ ratOf_eq_zero.mpr rfl)
    have hs : x.getLsbD 31 = s := (val32_fin hx).1.symm
    rw [hx, hs]
    match fn, hfn with
    | 0, _ => exact fun hv => specialOf_some hx hm ((specialFin_rcp s m e).trans (if_pos ((rcp_overflows hm s e).mpr hv)))
    | 1, _ => exact negative_invalid hx hm (by norm_num)
    | 2, _ => exact negative_invalid hx hm (by norm_num)
    | 3, _ =>
      refine ⟨fun hv => specialOf_some hx hm ((specialFin_exp2 s m e).trans (if_pos ((exp2_overflows hm).mpr hv))), fun k h0 h1 hk => ?_⟩
      obtain ⟨hflags, -, hval⟩ := exp2_exact hx hm h0 h1 hk
      exact ⟨hval, hflags⟩
    | 4, _ =>
      refine ⟨negative_invalid hx hm (by norm_num), fun k hk => ?_⟩
      obtain ⟨hflags, -, hval⟩ := log2_exact hx hm hk
      exact ⟨hval, hflags⟩
    | 5, _ => exact fun k => ⟨fun hk => specialOf_some hx hm (specialFin_sin_int hk), fun hk => specialOf_some hx hm (specialFin_sin_half hk)⟩
    | 6, _ => exact fun k => ⟨fun hk => specialOf_some hx hm (specialFin_cos_int hk), fun hk => specialOf_some hx hm (specialFin_cos_half hk)⟩
    | 7, _ => trivial

theorem within127 {fn : Nat} (hfn : fn < 8) (x : Word) : Within127 fn x (specialOf fn x) := by
  refine ⟨specialCases hfn x, fun s m e hx hm hd => ?_⟩
  rw [hx] at hd ⊢
  exact specialOf_accurate hfn hx hm hd

/-! ### The instructions -/

/-- An instruction that gives one register of each active thread a word of F32. -/
theorem gives_special {i : Instr} {f : V3} (R : Word → Word × Effects)
    (hexec : ∀ s, Sys2Proof.Machine.exec i s = alu s i (chkSpecial f) fun v => outF32 (R v.A)) :
    Gives i (chk1 f none f32Tag) f.d 1 fun v => out1 3 (R v.A).1 (R v.A).2 := by
  intro s act hgo
  rw [hexec]
  exact alu_computes hgo 1 (fitOuts_two (fun _ => le_rfl) (by norm_num) (fun _ => List.nodup_nil) fun _ _ hp => absurd hp List.not_mem_nil)

/-- Settles O8: the function is the model's `specialOf`, whose open results are the hardware's where R127's bound holds of them, and
else the approximation rounded to nearest, which is within half an ulp of it. -/
theorem specialFunctionResults : Obligations.SpecialFunctionResults :=
  ⟨specialOf, fun _ => within127, fun _ => gives_special (specialOf 0) fun _ => rfl, fun _ => gives_special (specialOf 1) fun _ => rfl,
    fun _ => gives_special (specialOf 2) fun _ => rfl, fun _ => gives_special (specialOf 3) fun _ => rfl,
    fun _ => gives_special (specialOf 4) fun _ => rfl, fun _ => gives_special (specialOf 5) fun _ => rfl,
    fun _ => gives_special (specialOf 6) fun _ => rfl, fun _ => gives_special (specialOf 7) fun _ => rfl⟩

end Sys2Proof.Kernels

/-! # Which trap the address checks raise (O15: R150, R202) -/
namespace Sys2Proof.Kernels
open Sys2Proof Sys2Proof.Machine Sys2Proof.Laws

/-- A check that some addresses fail names the first of them and the threads of all of them. -/
theorem badAt_eq_some {cause : Nat} {l : List (Th × DWord)} {p : Th → DWord → Bool} {x : Th × DWord} {r : List (Th × DWord)}
    (h : l.filter (fun y => p y.1 y.2) = x :: r) :
    badAt cause l p = some { cause := cause, tval := x.2, mask := (l.filter fun y => p y.1 y.2).map (·.1) } := by
  simp [badAt, trapOf, h, Function.comp_def]

theorem badAt_eq_none_of_filter {cause : Nat} {l : List (Th × DWord)} {p : Th → DWord → Bool}
    (h : l.filter (fun y => p y.1 y.2) = []) : badAt cause l p = none := by
  simp [badAt, trapOf, h]

@[simp] theorem firstOf_some (tr : Trap) (l : List (Option Trap)) : firstOf (some tr :: l) = some tr := rfl
@[simp] theorem firstOf_none (l : List (Option Trap)) : firstOf (none :: l) = firstOf l := rfl

/-! ### The order of a global access's checks (R202) -/

section
variable {s : State} {l r : List (Th × DWord)} {n : Nat} {atomic : Bool} {x : Th × DWord}

theorem globalBad_orphan (h : l.filter (fun x => (s.warp x.1.wid).orphan) = x :: r) : s.globalBad l n atomic =
    some { cause := cz 0x28 0, tval := x.2, mask := (l.filter fun x => (s.warp x.1.wid).orphan).map (·.1) } := by
  rw [State.globalBad, badAt_eq_some h, firstOf_some]

theorem globalBad_hyp (h0 : l.filter (fun x => (s.warp x.1.wid).orphan) = [])
    (h : l.filter (fun x => atomic && (s.warp x.1.wid).hyp.extractLsb' 0 8 ≠ 0) = x :: r) : s.globalBad l n atomic =
    some { cause := cz 0x2A 0, tval := x.2,
           mask := (l.filter fun x => atomic && (s.warp x.1.wid).hyp.extractLsb' 0 8 ≠ 0).map (·.1) } := by
  rw [State.globalBad, badAt_eq_none_of_filter h0, badAt_eq_some h, firstOf_none, firstOf_some]

theorem globalBad_odd (h0 : l.filter (fun x => (s.warp x.1.wid).orphan) = [])
    (h1 : l.filter (fun x => atomic && (s.warp x.1.wid).hyp.extractLsb' 0 8 ≠ 0) = [])
    (h : l.filter (fun x => x.2.toNat % n ≠ 0) = x :: r) : s.globalBad l n atomic =
    some { cause := cz 0x10 0, tval := x.2, mask := (l.filter fun x => x.2.toNat % n ≠ 0).map (·.1) } := by
  rw [State.globalBad, badAt_eq_none_of_filter h0, badAt_eq_none_of_filter h1, badAt_eq_some h, firstOf_none, firstOf_none,
    firstOf_some]

/-! ### The order of a scratchpad access's checks (R73, R74) -/

theorem scratchBad_odd {kind : Nat} (h : l.filter (fun x => x.2.toNat % n ≠ 0) = x :: r) : s.scratchBad l n kind =
    some { cause := cz 0x10 1, tval := x.2, mask := (l.filter fun x => x.2.toNat % n ≠ 0).map (·.1) } := by
  rw [State.scratchBad, badAt_eq_some h, firstOf_some]

theorem scratchBad_out {kind : Nat} (h0 : l.filter (fun x => x.2.toNat % n ≠ 0) = [])
    (h : l.filter (fun x => (s.block (s.warp x.1.wid).bid).zsize < x.2.toNat + n) = x :: r) : s.scratchBad l n kind =
    some { cause := cz 0x13 kind, tval := x.2,
           mask := (l.filter fun x => (s.block (s.warp x.1.wid).bid).zsize < x.2.toNat + n).map (·.1) } := by
  rw [State.scratchBad, badAt_eq_none_of_filter h0, badAt_eq_some h, firstOf_none, firstOf_some]

end

/-! ### The instructions -/

theorem exec_ld (f : FM) (s : State) : exec (.ld f) s = globalLoad s (.ld f) f
    (chkLoad f (sizeBytes f.m) (illLoad f.m true) true) (sizeBytes f.m) (sizeSigned f.m) (f.m.getLsbD 3) 0 .ld := rfl

theorem ld_traps (f : FM) : Traps (.ld f) (chkLoad f (sizeBytes f.m) (illLoad f.m true) true)
    fun s c act => s.globalBad (s.laneAddrs f (sizeBytes f.m) true c act) (sizeBytes f.m) false :=
  fun s _ _ hgo hbad => (exec_ld f s).trans (memInstr_traps hgo hbad)

theorem st_traps (f : FM) : Traps (.st f) (chkStore f (sizeBytes f.m) (illStore f.m true) true)
    fun s c act => s.globalBad (s.laneAddrs f (sizeBytes f.m) true c act) (sizeBytes f.m) false :=
  fun s _ _ hgo hbad => (exec_st f s).trans (memInstr_traps hgo hbad)

theorem lds_traps (f : FM) : Traps (.lds f) (chkLoad f (sizeBytes f.m) (illLoad f.m false) false)
    fun s c act => s.scratchBad (s.laneAddrs f (sizeBytes f.m) false c act) (sizeBytes f.m) 0 :=
  fun s _ _ hgo hbad => (exec_lds f s).trans (memInstr_traps hgo hbad)

theorem sts_traps (f : FM) : Traps (.sts f) (chkStore f (sizeBytes f.m) (illStore f.m false) false)
    fun s c act => s.scratchBad (s.laneAddrs f (sizeBytes f.m) false c act) (sizeBytes f.m) 1 :=
  fun s _ _ hgo hbad => (exec_sts f s).trans (memInstr_traps hgo hbad)

/-- Settles O15: each check names the first address that fails it, and a memory instruction takes the trap of its first failing
check. -/
theorem accessTrapsInOrder : Obligations.AccessTrapsInOrder :=
  ⟨fun _ _ _ _ => ⟨fun _ _ => globalBad_orphan, fun _ _ => globalBad_hyp, fun _ _ => globalBad_odd⟩,
    fun _ _ _ _ => ⟨fun _ _ => scratchBad_odd, fun _ _ => scratchBad_out⟩, ld_traps, st_traps, lds_traps, sts_traps⟩

end Sys2Proof.Kernels

/-! # Prefetches and write-backs of lines (O21: R210, R211, R399) -/
namespace Sys2Proof.Kernels
open Sys2Proof Sys2Proof.Machine Sys2Proof.Laws

/-! ### PREF (R210) -/

/-- The checks of PREF that may trap: those of its words (R150 steps 2 to 4). -/
def prefChecks (f : FM) : Checks :=
  { q := f.q, ill := illOf (f.m &&& 0xE ≠ 0) false, opd := memOpd f.x 52 f.base 1 false true, a := { code := f.base, n := 2 } }

/-- The threads of a PREF whose address can be formed and read. -/
def prefTakes (f : FM) (s : State) (c : Ctx) : List Th :=
  (s.active c f.q).filter fun th => (s.ixBad th (prefChecks f).a).isNone && !(s.warp th.wid).orphan &&
    !((s.regsOf c th (prefChecks f).a).any (s.marked th))

/-- A thread's prefetch of its line. -/
def prefAccess (f : FM) (s : State) (c : Ctx) (th : Th) : Access :=
  { s.accOf c th .pref (lineAddr (s.globalAddr c th f.base f.off 128)) 128 f.m with op := (f.m.getLsbD 0).toNat }

/-- The four ways on of a PREF: a fault of its words, a wait for its address register, a wait for a place in the fault list, and
its accesses, which no address stops. -/
theorem exec_pref (f : FM) (s : State) : exec (.pref f) s =
    match (prefChecks f).static with
    | some cause => .next (s.takeTrap (s.ctx (.pref f)).u
        { cause := cause, tval := (s.ctx (.pref f)).tval, mask := (s.ctx (.pref f)).u.th } (s.ctx (.pref f)).len)
    | none =>
      if s.waitsReg (s.ctx (.pref f)) (prefChecks f) (s.active (s.ctx (.pref f)) f.q) then
        .next (s.interlock (s.ctx (.pref f)).u
          (s.readsOf (s.ctx (.pref f)) (prefChecks f) (s.active (s.ctx (.pref f)) f.q)))
      else if !(s.ctx (.pref f)).trap && s.listFull (s.active (s.ctx (.pref f)) f.q) then .next s.stall
      else .next ((s.send none ((prefTakes f s (s.ctx (.pref f))).map (prefAccess f s (s.ctx (.pref f))))).advance
        (s.ctx (.pref f)).u (s.ctx (.pref f)).len) := rfl

theorem pref_sends {f : FM} {s : State} (hstatic : (prefChecks f).static = none)
    (hreg : s.waitsReg (s.ctx (.pref f)) (prefChecks f) (s.active (s.ctx (.pref f)) f.q) = false)
    (hlist : (s.ctx (.pref f)).trap = true ∨ ∀ th ∈ s.active (s.ctx (.pref f)) f.q, (s.warp th.wid).faults.length < 8) :
    exec (.pref f) s = .next ((s.send none ((prefTakes f s (s.ctx (.pref f))).map (prefAccess f s (s.ctx (.pref f))))).advance
      (s.ctx (.pref f)).u (s.ctx (.pref f)).len) := by
  have hroom : (!(s.ctx (.pref f)).trap && s.listFull (s.active (s.ctx (.pref f)) f.q)) = false := by
    rw [← listFull_eq_false] at hlist
    obtain h | h := hlist <;> simp [h]
  rw [exec_pref, hstatic]
  simp only [hreg, hroom, Bool.false_eq_true, if_false]

/-! ### CWB (R211) -/

theorem exec_cwb (f : V3) (s : State) : exec (.cwb f) s = memInstr s (.cwb f)
    { q := f.q, ill := illZero f.m 7, opd := opdV f.x [f.a] [] [f.a], a := { code := f.a, n := 2 } }
    (fun c act => act.map fun th => (th, (s.src c th f.a 1).val ++ (s.src c th f.a 0).val))
    (fun _ l => badAt (cz 0x28 0) l fun th _ => (s.warp th.wid).orphan) (fun c act => s.memHold c act 1 true false)
    fun c _ l => s.send (some 1) (l.map fun x => s.accOf c x.1 .cwb (lineAddr x.2) 128 0) := rfl

/-- Threads of warps that are not orphaned pass the check of a write-back. -/
theorem orphanBad_eq_none {s : State} {act : List Th} (h : ∀ th ∈ act, (s.warp th.wid).orphan = false) (addr : Th → DWord) :
    badAt (cz 0x28 0) (act.map fun th => (th, addr th)) (fun th _ => (s.warp th.wid).orphan) = none :=
  (badAt_eq_none _ _ _).mpr (List.forall_mem_map.mpr h)

/-- Settles O21: nothing but the words, the address registers and the fault list stops a PREF, and both send their lines. -/
theorem prefetchAndWriteBack : Obligations.PrefetchAndWriteBack :=
  ⟨fun _ s hstatic hreg hlist => ⟨_, pref_sends hstatic hreg hlist, sent_of_send s _ _ _⟩,
    fun f s _ hgo ⟨horphan, hhold⟩ =>
      ⟨_, (exec_cwb f s).trans (memInstr_performs hgo (orphanBad_eq_none horphan _) hhold), sent_of_send s _ _ _⟩⟩

end Sys2Proof.Kernels

/-! # TRAP, BPT and undefined sub-operations (O31: R149, R233, R396, R397) -/
namespace Sys2Proof.Kernels
open Sys2Proof Sys2Proof.Machine Sys2Proof.Laws

/-! ### A trap of one part whose handler is there -/

/-- A trap that an instruction raises for its own sake: it reports no recorded access, no failed fetch and no register error, so
that nothing but the trap entry happens (R390, R391, R410). -/
structure RaisedBySoftware (tr : Trap) : Prop where
  notRecorded : tr.recorded = false
  noFetch : tr.cause / 8 ≠ 0x11 ∧ tr.cause / 8 ≠ 0x12
  noUpset : tr.cause ≠ cz 0x17 2

theorem fqFetch_of_software {tr : Trap} (h : RaisedBySoftware tr) (s : State) (wid : Nat) : s.fqFetch wid tr = s := by
  obtain ⟨hrec, ⟨h11, h12⟩, -⟩ := h
  simp [State.fqFetch, hrec, h11, h12]

theorem askTest_of_software {tr : Trap} (h : RaisedBySoftware tr) (s : State) (wid : Nat) : s.askTest wid tr.cause = s :=
  if_neg h.noUpset

/-- A unit of one part takes such a trap by the shared trap entry alone. -/
theorem takeTrapAt_part {u : IssueUnit} {p : Nat × Nat} {tr : Trap} (hm : u.mem = [p]) (hsoft : RaisedBySoftware tr)
    (hmask : lanesIn tr.mask p.1 ≠ 0) (s : State) (at_ : Tgt) (hw : Word) (skip : Nat) :
    s.takeTrapAt u tr at_ hw skip = s.enterTrap p.1 p.2 tr at_ hw false skip := by
  simp only [State.takeTrapAt, hm, List.foldl_cons, List.foldl_nil, if_neg hmask, fqFetch_of_software hsoft,
    askTest_of_software hsoft]
  rfl

theorem lanesIn_ne_zero {l : List Th} {th : Th} (h : th ∈ l) (hlane : th.lane < 32) : lanesIn l th.wid ≠ 0 := by
  intro h0
  have := getLsbD_lanesIn l th.wid th.lane
  simp [h0, hlane, h] at this

/-- A thread of a part that enters its handler stands at the handler's header, at its call depth. -/
theorem at_of_entered {s t : State} {wid k lane depth : Nat} {entry : DWord} {lanes hw : Word} {since frame size : Nat} {tr : Trap}
    {at_ : Tgt} {mix : Bool} (hw : t.warp wid = Warp.entered (s.warp wid) k entry lanes since frame size wid tr at_ hw mix)
    (hrun : RunsIn (s.warp wid) lane k) (hdepth : ∀ g ∈ (s.warp wid).groups, g.pos = 0 → g.sliver = k → g.depth = depth) :
    t.At { wid := wid, lane := lane } (atHeader entry depth) := by
  obtain ⟨g, hg, hl, hpos, hk⟩ := hrun
  refine ⟨Group.toHandler entry g, ?_, hl, rfl, rfl, hdepth g hg hpos hk⟩
  rw [hw]
  exact List.mem_map.mpr ⟨g, hg, by simp [hpos, hk]⟩

/-- The unit of an instruction takes a trap of software at a position: it is in the handler with everything saved. -/
theorem inHandler_takeTrapAt {s : State} {i : Instr} {tr : Trap} (hsoft : RaisedBySoftware tr)
    (hh : hasHandler s (s.ctx i).u tr.cause) {th : Th} (hmask : th ∈ tr.mask) (hth : th ∈ (s.ctx i).u.th) (at_ : Tgt) (hw : Word) (skip : Nat) :
    InHandler s (s.ctx i).u tr at_ hw (s.takeTrapAt (s.ctx i).u tr at_ hw skip) := by
  obtain ⟨p, hm, h0, hland, hdepth⟩ := hh
  have hpart : ∀ {x : Th}, x ∈ (s.ctx i).u.th → x.wid = p.1 ∧ RunsIn (s.warp p.1) x.lane p.2 := fun hx => by
    obtain ⟨k, hk, -, hrun⟩ := inPart_of_mem s s.focus hx
    obtain rfl := List.mem_singleton.mp (hm ▸ hk)
    exact ⟨rfl, hrun⟩
  have hwid : th.wid = p.1 := (hpart hth).1
  have hfind : s.warps.find p.1 ≠ none := hwid ▸ find_of_unit hth
  rw [takeTrapAt_part hm hsoft (hwid ▸ lanesIn_ne_zero hmask (lane_of_unit hth))]
  obtain ⟨hsaved, -, hkept, -, hleaves⟩ := enterTrap_enters hfind h0 p.2 tr at_ hw false skip hland
  obtain ⟨⟨since, hwarp⟩, -⟩ := enterTrap_warp hfind h0 p.2 tr at_ hw false skip hland
  refine ⟨p, hm, hsaved, fun ⟨wid, lane⟩ hx => ?_, hkept, hleaves⟩
  obtain ⟨rfl, hrun⟩ := hpart hx
  exact at_of_entered hwarp hrun hdepth

/-! ### TRAP and BPT (R233) -/

theorem raisedBySoftware_of_class {cls det : Nat} (hdet : det < 8) (hcls : cls ≠ 0x11 ∧ cls ≠ 0x12 ∧ cls ≠ 0x17) (tval : DWord)
    (mask : List Th) : RaisedBySoftware { cause := cz cls det, tval := tval, mask := mask } where
  notRecorded := rfl
  noFetch := by simp only [cz]; omega
  noUpset := by simp only [cz]; omega

theorem exec_softTrap (i : Instr) (f : V3) (cause : Nat) (s : State) : softTrap s i f cause =
    syncInstr s i { q := f.q, ill := illOf (f.b.getLsbD 5 || f.m.extractLsb' 1 2 ≠ 0) false } fun c act =>
      s.takeTrapAt c.u { cause := cause, tval := BitVec.ofNat 64 (f.b.extractLsb' 0 5).toNat, mask := act }
        (fallThrough c.u c.len) 0 c.len := by
  rw [softTrap, BitVec.ofNat_toNat]

/-- An active thread of an instruction whose checks pass; only `.unc` acts without one (R152). -/
theorem exists_active {s : State} {i : Instr} {k : Checks} {act : List Th} (h : s.gate (s.ctx i) k = .go act) (hunc : k.unc = false) :
    ∃ th ∈ act, th ∈ (s.ctx i).u.th := by
  obtain ⟨-, -, hne, -⟩ := gate_go h
  obtain ⟨th, hth⟩ := List.exists_mem_of_ne_nil act fun hnil => by simp [hne hnil] at hunc
  exact ⟨th, hth, (active_of_gate h).2 th hth⟩

/-- TRAP and BPT enter the handler of their class (R233). -/
theorem softTrap_inHandler {i : Instr} {f : V3} {cls det : Nat} (hexec : ∀ s, exec i s = softTrap s i f (cz cls det))
    (hdet : det < 8) (hcls : cls ≠ 0x11 ∧ cls ≠ 0x12 ∧ cls ≠ 0x17) :
    Performs i { q := f.q, ill := illOf (f.b.getLsbD 5 || f.m.extractLsb' 1 2 ≠ 0) false }
      (fun s c _ => hasHandler s c.u (cz cls det)) fun s c act t =>
        InHandler s c.u { cause := cz cls det, tval := BitVec.ofNat 64 (f.b.extractLsb' 0 5).toNat, mask := act }
          (fallThrough c.u c.len) 0 t := by
  intro s act hgo hh
  obtain ⟨th, hth, hunit⟩ := exists_active hgo rfl
  refine ⟨_, (hexec s).trans ((exec_softTrap i f _ s).trans (syncInstr_go hgo _)), ?_⟩
  exact inHandler_takeTrapAt (raisedBySoftware_of_class hdet hcls _ _) hh hth hunit _ _ _

/-- The bits of TRAP's code as class and detail (R233). -/
theorem trapCode_cause (b : BitVec 6) : cz (0x3C + (b.extractLsb' 3 2).toNat) (b.extractLsb' 0 3).toNat =
    cz (0x3C + (b.extractLsb' 0 5).toNat / 8) ((b.extractLsb' 0 5).toNat % 8) := by
  simp only [BitVec.extractLsb'_toNat, Nat.shiftRight_eq_div_pow]
  have := b.isLt
  congr 1 <;> omega

theorem exec_trapCode (f : V3) (s : State) : exec (.trapCode f) s = softTrap s (.trapCode f) f
    (cz (0x3C + (f.b.extractLsb' 0 5).toNat / 8) ((f.b.extractLsb' 0 5).toNat % 8)) :=
  congrArg (softTrap s (.trapCode f) f) (trapCode_cause f.b)

theorem exec_bpt (f : V3) (s : State) : exec (.bpt f) s = softTrap s (.bpt f) f (cz 0x39 0) := rfl

/-! ### Undefined sub-operations (R149) -/

theorem exec_illegalInstr (w : Word) (s : State) : exec (.illegalInstr w) s =
    syncInstr s (.illegalInstr w) { q := 0, ill := some (noSubOpDetail w) } fun c _ => s.advance c.u c.len := rfl

theorem noSubOpDetail_eq (w : Word) : noSubOpDetail w =
    if (w.extractLsb' 25 7).toNat = 0x72 ∧ w.extractLsb' 2 7 &&& 0x73 ≠ 0 ∨ (w.extractLsb' 25 7).toNat = 0x73 ∧ w.extractLsb' 2 7 ≠ 0
    then 2 else 0 := by
  unfold noSubOpDetail
  simp only [← BitVec.toNat_inj, Bool.or_eq_true, Bool.and_eq_true, decide_eq_true_eq, ne_eq]
  rfl

/-- An undefined sub-operation traps at itself, for every thread that issues it (R149, R150). -/
theorem illegalInstr_inHandler (w : Word) (s : State) (hunit : (s.ctx (.illegalInstr w)).u.th ≠ [])
    (hh : hasHandler s (s.ctx (.illegalInstr w)).u (cz 0 (noSubOpDetail w))) : ∃ t, exec (.illegalInstr w) s = .next t ∧
      InHandler s (s.ctx (.illegalInstr w)).u
        { cause := cz 0 (noSubOpDetail w), tval := (s.ctx (.illegalInstr w)).tval, mask := (s.ctx (.illegalInstr w)).u.th }
        { pc := (s.ctx (.illegalInstr w)).u.pc, hdr := (s.ctx (.illegalInstr w)).u.hdr, depth := (s.ctx (.illegalInstr w)).u.depth }
        (s.ctx (.illegalInstr w)).u.hw t := by
  obtain ⟨th, hth⟩ := List.exists_mem_of_ne_nil _ hunit
  have hdet : noSubOpDetail w < 8 := by unfold noSubOpDetail; dsimp only; split <;> omega
  have hstatic : Checks.static { q := 0, ill := some (noSubOpDetail w) } = some (cz 0 (noSubOpDetail w)) := rfl
  exact ⟨_, (exec_illegalInstr w s).trans (syncInstr_static hstatic _),
    inHandler_takeTrapAt (raisedBySoftware_of_class hdet (by decide) _ _) hh hth hth _ _ _⟩

/-- Settles O31: each is a trap that its one part takes by the shared trap entry. -/
theorem softwareTraps : Obligations.SoftwareTraps := by
  refine ⟨fun f => ?_, fun f => ?_, fun w s => ?_⟩
  · have hb := (f.b.extractLsb' 0 5).isLt
    exact softTrap_inHandler (exec_trapCode f) (by omega) (by omega)
  · exact softTrap_inHandler (exec_bpt f) (by decide) (by decide)
  · dsimp only
    rw [← noSubOpDetail_eq]
    exact illegalInstr_inHandler w s

end Sys2Proof.Kernels

/-! # The checks of one instruction in their order (O40: R111, R150, R152, R153, R203) -/
namespace Sys2Proof.Kernels
open Sys2Proof Sys2Proof.Machine Sys2Proof.Laws

/-! ### Where the checks stop (R150, R152, R203) -/

theorem alu_stop {s s' : State} {i : Instr} {k : Checks} (h : s.gate (s.ctx i) k = .stop s') (sem : Vals → Out) :
    alu s i k sem = .next s' := by
  unfold alu
  dsimp only
  rw [h]

section
variable {s : State} {c : Ctx} {k : Checks}

theorem gate_static {cause : Nat} (h : k.static = some cause) :
    s.gate c k = .stop (s.takeTrap c.u { cause := cause, tval := c.tval, mask := c.u.th } c.len) := by
  simp only [State.gate, h]

/-- Without an active thread an instruction only goes on (R152). -/
theorem gate_idle (h : k.static = none) (hact : s.active c k.q = []) (hunc : k.unc = false) :
    s.gate c k = .stop (s.advance c.u c.len) := by
  simp [State.gate, h, hact, hunc]

theorem gate_busy (h : k.static = none) (hact : s.active c k.q ≠ []) (hbusy : s.waitsReg c k (s.active c k.q) = true) :
    s.gate c k = .stop (s.interlock c.u (s.readsOf c k (s.active c k.q))) := by
  simp [State.gate, h, hact, hbusy]

theorem gate_dynamic {tr : Trap} (h : k.static = none) (hact : s.active c k.q ≠ []) (hbusy : s.waitsReg c k (s.active c k.q) = false)
    (hmarked : s.readsMarked c k (s.active c k.q) = false) (hdyn : s.dynamic c k (s.active c k.q) = some tr) :
    s.gate c k = .stop (s.takeTrap c.u tr c.len) := by
  simp [State.gate, h, hact, hbusy, hmarked, hdyn]

end

theorem stallLong_tried (s : State) (u : IssueUnit) : s.focus ∈ (s.stallLong u).tried := by
  have hfocus := List.foldlRecOn (motive := fun t : State => t.focus = s.focus) u.mem
    (fun s p => s.onWarp p.1 fun w => { w with depSince := some (w.depSince.getD (s.tickOf w.core)) }) rfl
    fun t h p _ => (onWarp_focus t p.1 _).trans h
  exact hfocus ▸ List.mem_cons_self

/-- A unit that waits for a register stands where it stood and is not looked at again at once (R41, R203). -/
theorem interlock_stays (s : State) (u : IssueUnit) (reads : List (Th × DReg)) :
    StaysPut s (s.interlock u reads) ∧ s.focus ∈ (s.interlock u reads).tried := by
  unfold State.interlock
  split
  · exact ⟨staysPut_stallLong s u, stallLong_tried s u⟩
  · exact ⟨staysPut_plain rfl (leaves_stall _ s), List.mem_cons_self⟩

/-! ### Operands that name one register (R142) -/

/-- A code that names a vector register or a uniform one outside an extension word. -/
def namesRegister (code : BitVec 6) : Prop := code.toNat < 48 ∨ 56 ≤ code.toNat

section
variable {code : BitVec 6} (h : namesRegister code)
include h

theorem ne_of_namesRegister {n : BitVec 6} (hn : 48 ≤ n.toNat ∧ n.toNat < 56) : code ≠ n := by
  rintro rfl
  unfold namesRegister at h
  omega

theorem isIx_eq_false : isIx code = false := by
  unfold namesRegister at h
  unfold isIx
  rw [Bool.and_eq_false_iff, decide_eq_false_iff_not, decide_eq_false_iff_not]
  omega

theorem callsX_eq_false : callsX code = false := by
  unfold callsX
  rw [decide_eq_false (ne_of_namesRegister h (by decide)), decide_eq_false (ne_of_namesRegister h (by decide)), Bool.or_self]

theorem dstBad_eq_false : dstBad code = false := by
  unfold dstBad
  rw [decide_eq_false (ne_of_namesRegister h (by decide)), decide_eq_false (ne_of_namesRegister h (by decide)), Bool.or_self]

theorem regsOf_one (s : State) (c : Ctx) (th : Th) (ok : TagRule) (det : Nat) :
    s.regsOf c th { code := code, n := 1, ok := ok, det := det } = [s.dreg c th code] := by
  unfold State.regsOf
  rw [decide_eq_false (ne_of_namesRegister h (by decide)), decide_eq_false (ne_of_namesRegister h (by decide)),
    decide_eq_false (ne_of_namesRegister h (by decide))]
  rfl

end

theorem dreg_direct (s : State) (c : Ctx) (th : Th) {code : BitVec 6} (h : code.toNat < 48) : s.dreg c th code = .v code.toNat :=
  if_pos h

/-- An operand that names no index register passes the check of R54. -/
theorem ixBad_eq_none (s : State) (th : Th) {o : Opd} (h : isIx o.code = false) : s.ixBad th o = none := by
  simp [State.ixBad, h]

/-! ### The static checks of IADD (R149, R150) -/

/-- The checks of IADD. -/
def iaddChecks (f : V3) : Checks := chk2 f (illZero f.m 4) intTag

theorem exec_iadd (f : V3) (s : State) : exec (.iadd f) s =
    alu s (.iadd f) (iaddChecks f) fun v => outI32 (addSat false (f.m.getLsbD 0) (f.m.getLsbD 1) v.A v.B) := rfl

theorem exec_iadd_stop {f : V3} {s s' : State} (h : s.gate (s.ctx (.iadd f)) (iaddChecks f) = .stop s') :
    exec (.iadd f) s = .next s' :=
  (exec_iadd f s).trans (alu_stop h _)

theorem illZero_four (m : BitVec 3) : illZero m 4 = if m.getLsbD 2 then some 2 else none := by
  have hbit : decide (m &&& 4 ≠ 0) = m.getLsbD 2 := by revert m; decide
  rw [illZero, hbit]
  cases m.getLsbD 2 <;> rfl

/-- Of three codes, none of which asks for an extension word, only the destination can be wrong (R142, R144). -/
theorem opdV_direct (x : Word) {d a b : BitVec 6} (hd : callsX d = false) (ha : callsX a = false) (hb : callsX b = false) :
    opdV x [d, a, b] [d] [] = if dstBad d then some 0 else none := by
  have h55 : [d, a, b].contains 55 = false := Bool.eq_false_iff.mpr fun h => by
    have hx : callsX 55 = false := by
      rcases List.mem_cons.mp (List.contains_iff_mem.mp h) with rfl | h
      · exact hd
      rcases List.mem_cons.mp h with rfl | h
      · exact ha
      · exact List.mem_singleton.mp h ▸ hb
    cases hx
  have hext : extUses [d, a, b] = 0 := by simp [extUses, hd, ha, hb]
  unfold opdV
  rw [hext, h55]
  cases h : dstBad d <;> simp [oneOf, pickDetail, h]

theorem iadd_static_ill {f : V3} (h : f.m.getLsbD 2 = true) : (iaddChecks f).static = some (cz 0x00 2) := by
  have hill : illZero f.m 4 = some 2 := by rw [illZero_four, h]; rfl
  simp only [iaddChecks, chk2, Checks.static, hill]

section
variable {f : V3} (hm : f.m.getLsbD 2 = false) (ha : f.a.toNat < 48) (hb : f.b.toNat < 48)
include hm ha hb

/-- With direct sources the destination alone decides the static checks. -/
theorem iadd_static (hd : callsX f.d = false) : (iaddChecks f).static = if dstBad f.d then some (cz 0x03 0) else none := by
  have hill : illZero f.m 4 = none := by rw [illZero_four, hm]; rfl
  have hopd := opdV_direct f.x hd (callsX_eq_false (.inl ha)) (callsX_eq_false (.inl hb))
  simp only [iaddChecks, chk2, Checks.static, hill, hopd]
  cases dstBad f.d <;> rfl

theorem iadd_static_dst (hd : f.d = 53) : (iaddChecks f).static = some (cz 0x03 0) := by
  rw [iadd_static hm ha hb (by rw [hd]; rfl), hd]
  rfl

theorem iadd_static_none (hd : namesRegister f.d) : (iaddChecks f).static = none := by
  rw [iadd_static hm ha hb (callsX_eq_false hd), dstBad_eq_false hd]
  rfl

end

/-! ### The registers of IADD (R111, R203) -/

/-- The registers that an IADD names for a thread. -/
def iaddRegs (s : State) (c : Ctx) (f : V3) (th : Th) : List DReg := [s.dreg c th f.d, .v f.a.toNat, .v f.b.toNat]

section
variable {f : V3} (ha : f.a.toNat < 48) (hb : f.b.toNat < 48) (s : State) (c : Ctx)
include ha hb

theorem iadd_reads_any (th : Th) (P : DReg → Bool) :
    ((iaddChecks f).srcs.any fun o => (s.regsOf c th o).any P) = (P (.v f.a.toNat) || P (.v f.b.toNat)) := by
  simp only [iaddChecks, chk2, Checks.srcs, List.any_cons, List.any_nil, regsOf_one (.inl ha), regsOf_one (.inl hb), dreg_direct s c th ha,
    dreg_direct s c th hb, Bool.or_false]
  exact congrArg _ (Bool.or_false _)

theorem iadd_names_any (hd : namesRegister f.d) (th : Th) (P : DReg → Bool) :
    ((iaddChecks f).opds.any fun o => (s.regsOf c th o).any P) = (iaddRegs s c f th).any P := by
  have hdst : s.regsOf c th (iaddChecks f).d = [s.dreg c th f.d] := regsOf_one hd s c th _ _
  rw [Checks.opds, List.any_append, iadd_reads_any ha hb]
  simp [iaddRegs, hdst, Bool.or_comm, Bool.or_assoc]

theorem iadd_waitsReg (hd : namesRegister f.d) (act : List Th) :
    s.waitsReg c (iaddChecks f) act = true ↔ ∃ th ∈ act, ∃ r ∈ iaddRegs s c f th, s.busy th r = true := by
  simp only [State.waitsReg, iadd_names_any ha hb s c hd, List.any_eq_true]

/-- What lets the registers of an IADD be read (R203, R207): no access in flight writes one, and outside trap mode none is the
destination of a recorded load. -/
def iaddFree (s : State) (c : Ctx) (f : V3) (act : List Th) : Prop :=
  (∀ th ∈ act, ∀ r ∈ iaddRegs s c f th, s.busy th r = false) ∧
  (c.trap = true ∨ ∀ th ∈ act, ∀ r ∈ iaddRegs s c f th, s.marked th r = false)

theorem iadd_waitsReg_eq_false (hd : namesRegister f.d) {act : List Th} (hfree : iaddFree s c f act) :
    s.waitsReg c (iaddChecks f) act = false := by
  rw [← Bool.not_eq_true, iadd_waitsReg ha hb s c hd]
  rintro ⟨th, hth, r, hr, hbusy⟩
  exact Bool.false_ne_true ((hfree.1 th hth r hr).symm.trans hbusy)

theorem iadd_readsMarked_eq_false {act : List Th} (hfree : iaddFree s c f act) : s.readsMarked c (iaddChecks f) act = false := by
  simp only [State.readsMarked, iadd_reads_any ha hb]
  obtain ⟨-, htrap | hmarked⟩ := hfree
  · rw [htrap]
    rfl
  · rw [Bool.and_eq_false_iff]
    refine .inr (List.any_eq_false.mpr fun th hth => ?_)
    simp [hmarked th hth (.v f.a.toNat) (by simp [iaddRegs]), hmarked th hth (.v f.b.toNat) (by simp [iaddRegs])]

end

/-! ### FORMAT_MISMATCH of IADD (R111) -/

/-- The tag of a thread's vector register. -/
def tagOfV (s : State) (th : Th) (n : Nat) : Nat := (s.getReg th (.v n)).tag.toNat

/-- A thread has a register whose tag IADD does not take. -/
def iaddFails (s : State) (f : V3) (th : Th) : Bool := decide (2 < tagOfV s th f.a.toNat) || decide (2 < tagOfV s th f.b.toNat)

/-- Of a thread that fails, operand a decides: it fails, and b does not or has no lower number. -/
abbrev iaddByA (s : State) (f : V3) (th : Th) : Prop :=
  2 < tagOfV s th f.a.toNat ∧ (¬ 2 < tagOfV s th f.b.toNat ∨ f.a.toNat ≤ f.b.toNat)

/-- The failure that such a thread reports. -/
def iaddBad (s : State) (f : V3) (th : Th) : Bad :=
  let first := if iaddByA s f th then f.a.toNat else f.b.toNat
  { t := th, cause := cz 0x0A (if iaddByA s f th then 0 else 1), tval := BitVec.ofNat 64 (256 * first + tagOfV s th first) }

theorem intTag_eq (t n : Nat) : intTag t n = !decide (2 < n) := by
  rw [Bool.eq_iff_iff]
  simp [intTag]
  omega

section
variable {f : V3} (ha : f.a.toNat < 48) (hb : f.b.toNat < 48) (s : State) (c : Ctx) {th : Th}
include ha hb

theorem iadd_tagFails (th : Th) : s.tagFails c (iaddChecks f) th =
    (if 2 < tagOfV s th f.a.toNat then [(.v f.a.toNat, 0)] else []) ++
      if 2 < tagOfV s th f.b.toNat then [(.v f.b.toNat, 1)] else [] := by
  have hunused : s.regsOf c th {} = [] := rfl
  simp only [State.tagFails, iaddChecks, chk2, Checks.srcs, List.flatMap_cons, List.flatMap_nil, regsOf_one (.inl ha),
    regsOf_one (.inl hb), hunused, dreg_direct s c th ha, dreg_direct s c th hb, intTag_eq, Bool.not_not, List.filter_cons,
    List.filter_nil, List.map_nil, List.append_nil, decide_eq_true_eq]
  unfold tagOfV
  split <;> split <;> rfl

theorem iadd_lowest_a (h : iaddByA s f th) : lowestReg (s.tagFails c (iaddChecks f) th) = some (.v f.a.toNat, 0) := by
  obtain ⟨hta, htb⟩ := h
  rw [iadd_tagFails ha hb, if_pos hta]
  split
  · next h => simp [lowestReg, DReg.show, htb.resolve_left (not_not_intro h)]
  · rfl

theorem iadd_lowest_b (hA : ¬ iaddByA s f th) (h : iaddFails s f th = true) :
    lowestReg (s.tagFails c (iaddChecks f) th) = some (.v f.b.toNat, 1) := by
  simp only [iaddFails, Bool.or_eq_true, decide_eq_true_eq] at h
  have htb : 2 < tagOfV s th f.b.toNat := by tauto
  rw [iadd_tagFails ha hb, if_pos htb]
  split
  · next hta =>
    have hle : ¬ f.a.toNat ≤ f.b.toNat := fun hle => hA ⟨hta, .inr hle⟩
    simp [lowestReg, DReg.show, hle]
  · rfl

end

theorem tagBad_of_lowest {s : State} {c : Ctx} {k : Checks} {th : Th} {n det : Nat}
    (h : lowestReg (s.tagFails c k th) = some (.v n, det)) :
    s.tagBad c k th = some { t := th, cause := cz 0x0A det, tval := BitVec.ofNat 64 (256 * n + tagOfV s th n) } := by
  simp [State.tagBad, h, DReg.show, tagOfV]

theorem iadd_tagBad {f : V3} (ha : f.a.toNat < 48) (hb : f.b.toNat < 48) (s : State) (c : Ctx) (th : Th) :
    s.tagBad c (iaddChecks f) th = if iaddFails s f th then some (iaddBad s f th) else none := by
  split
  · next hfail =>
    by_cases hA : iaddByA s f th
    · rw [tagBad_of_lowest (iadd_lowest_a ha hb s c hA)]
      simp only [iaddBad, if_pos hA]
    · rw [tagBad_of_lowest (iadd_lowest_b ha hb s c hA hfail)]
      simp only [iaddBad, if_neg hA]
  · next hok =>
    simp only [iaddFails, Bool.or_eq_true, decide_eq_true_eq, not_or] at hok
    obtain ⟨hta, htb⟩ := hok
    rw [State.tagBad, iadd_tagFails ha hb, if_neg hta, if_neg htb]
    rfl

/-! ### The checks of IADD over its threads (R150) -/

section
variable {f : V3} (ha : f.a.toNat < 48) (hb : f.b.toNat < 48) (hd : namesRegister f.d) (s : State) (c : Ctx) (act : List Th)
include ha hb

/-- The threads that fail FORMAT_MISMATCH, in lane order. -/
theorem iadd_tagBads : act.filterMap (s.tagBad c (iaddChecks f)) = (act.filter (iaddFails s f)).map (iaddBad s f) := by
  rw [← List.filterMap_eq_map', List.filterMap_filter]
  exact List.filterMap_congr fun th _ => iadd_tagBad ha hb s c th

include hd

theorem iadd_ixBads : act.filterMap (fun th => (iaddChecks f).opds.findSome? (s.ixBad th)) = [] := by
  refine List.filterMap_eq_nil_iff.mpr fun th _ => List.findSome?_eq_none_iff.mpr fun o ho => ixBad_eq_none s th ?_
  simp only [iaddChecks, chk2, Checks.opds, Checks.srcs, List.cons_append, List.nil_append, List.mem_cons, List.not_mem_nil, or_false] at ho
  obtain rfl | rfl | rfl | rfl := ho
  · exact isIx_eq_false (.inl ha)
  · exact isIx_eq_false (.inl hb)
  · rfl
  · exact isIx_eq_false hd

/-- The lowest lane with a failing tag decides (R111, R150). -/
theorem iadd_dynamic_tag {th : Th} {l : List Th} (hbad : act.filter (iaddFails s f) = th :: l) :
    s.dynamic c (iaddChecks f) act =
      some { cause := (iaddBad s f th).cause, tval := (iaddBad s f th).tval, mask := act.filter (iaddFails s f) } := by
  have htrap : trapOf ((th :: l).map (iaddBad s f)) =
      some { cause := (iaddBad s f th).cause, tval := (iaddBad s f th).tval, mask := th :: l } := by
    simp [trapOf, iaddBad, Function.comp_def]
  unfold State.dynamic
  rw [iadd_ixBads ha hb hd, iadd_tagBads ha hb, hbad, htrap]
  rfl

/-- A uniform destination needs every thread of its home warps (R153). -/
theorem iadd_dynamic_split (hbad : act.filter (iaddFails s f) = []) (hu : 56 ≤ f.d.toNat) (htrap : c.trap = false)
    (hpart : s.complete c.u = false) :
    s.dynamic c (iaddChecks f) act = some { cause := cz 0x09 0, tval := c.tval, mask := act } := by
  have huni : (uniformDst c (iaddChecks f).d.code && decide (0 < (iaddChecks f).d.n) && !s.complete c.u) = true := by
    simp [uniformDst, iaddChecks, chk2, dst1, hu, htrap, hpart]
  unfold State.dynamic
  rw [iadd_ixBads ha hb hd, iadd_tagBads ha hb, hbad]
  exact if_pos huni

end

/-- Settles O40: each check of R150 is reached when those before it pass. -/
theorem checksInOrder : Obligations.ChecksInOrder := by
  intro f s c act reads regs tagOf bad free trap
  refine ⟨fun hm => ?_, fun hm ⟨ha, hb⟩ hd => ?_, fun hm ⟨ha, hb⟩ hd hact => ?_, fun hm ⟨ha, hb⟩ hd hbusy => ?_,
    fun hm ⟨ha, hb⟩ hd hfree th l hbad => ?_, fun hm ⟨ha, hb⟩ hd hfree htrap hact hbad hpart => ?_⟩
  · exact exec_iadd_stop (gate_static (iadd_static_ill hm))
  · exact exec_iadd_stop (gate_static (iadd_static_dst hm ha hb hd))
  · exact ⟨_, exec_iadd_stop (gate_idle (iadd_static_none hm ha hb (.inl hd)) hact rfl), goesOn_advance fun _ => rfl,
      leaves_advance _ _ _ _⟩
  · have hact : act ≠ [] := fun h => by
      obtain ⟨th, hth, -⟩ := hbusy
      simp [h] at hth
    obtain ⟨hstays, htried⟩ := interlock_stays s c.u (s.readsOf c (iaddChecks f) act)
    exact ⟨_, exec_iadd_stop (gate_busy (iadd_static_none hm ha hb (.inl hd)) hact ((iadd_waitsReg ha hb s c (.inl hd) act).mpr hbusy)),
      fun _ _ => hstays.at, htried, hstays.leaves⟩
  · have hact : act ≠ [] := fun h => by simp [bad, h] at hbad
    exact exec_iadd_stop (gate_dynamic (iadd_static_none hm ha hb (.inl hd)) hact (iadd_waitsReg_eq_false ha hb s c (.inl hd) hfree)
      (iadd_readsMarked_eq_false ha hb s c hfree) (iadd_dynamic_tag ha hb (.inl hd) s c act hbad))
  · exact exec_iadd_stop (gate_dynamic (iadd_static_none hm ha hb (.inr hd)) hact (iadd_waitsReg_eq_false ha hb s c (.inr hd) hfree)
      (iadd_readsMarked_eq_false ha hb s c hfree) (iadd_dynamic_split ha hb (.inr hd) s c act hbad hd htrap hpart))

end Sys2Proof.Kernels

/-! # Words of each format (O59: R145, R147, R148) -/
namespace Sys2Proof.Kernels
open Sys2Proof Sys2Proof.Machine Sys2Proof.Laws

/-- Settles O59: the decoder evaluates each word to the fields written in it. -/
theorem wordsOfEachFormat : Obligations.WordsOfEachFormat :=
  ⟨rfl, rfl, rfl, rfl, rfl, rfl, rfl, rfl, rfl, rfl, rfl, rfl, rfl, rfl, rfl, rfl, rfl, rfl, rfl⟩

end Sys2Proof.Kernels
